-- ==== Sys2Proof/Word.lean ====
section
/-! DEFINITION. The words of the model: bytes, 32-bit words, wide posits, and the sparse maps that hold
large register files and memories as plain data. -/
namespace Sys2Proof

/-- One byte (R9: memory is little-endian bytes). -/
abbrev Byte := BitVec 8

/-- A 32-bit word (R9). -/
abbrev Word := BitVec 32

/-- The wide form of the row unit: a 64-bit posit encoding with es = 2 (R169). -/
abbrev Wide := BitVec 64

/-- A sparse map from addresses or indices to values, kept with rising keys and without default entries. -/
abbrev SMap (α : Type) := List (Nat × α)

end Sys2Proof
end

