-- ==== Sys2Proof/Syntax.lean ====
section
/-! DEFINITION. The commands of the block: one constructor for each row of the step table.
What comes from outside the device (a host access, a pin, a frame, another chip's message, a measured
value) is an operand. A step the device takes itself names its agent, a core, a company, a ring, a link
or a context; the operands of such a step stand in the state, where the spec puts them (the code block,
the command slot, the context record). -/

namespace Sys2Proof

/-- Which packet a received control message or packet row names is fixed by the link it arrives on. -/
abbrev LinkId := Nat

/-- A logical core: district × 64 + row × 8 + column (R391). -/
abbrev CoreId := Nat

/-- The commands (opcode_table.json), in the table's order. -/
inductive Instr where
  /-- R123: the control slot of the core's due bundle issues SETA. -/
  | seta (core : CoreId)
  /-- R123: the control slot issues ADDA. -/
  | adda (core : CoreId)
  /-- R123: the control slot issues SETL. -/
  | setl (core : CoreId)
  /-- R124: the control slot issues LOOP. -/
  | loop (core : CoreId)
  /-- R125: the control slot issues WAIT. -/
  | waitOp (core : CoreId)
  /-- R118: slot 0 to 4 of the due bundle holds code 0 and does nothing for the cycle. -/
  | nop (core : CoreId) (slot : Nat)
  /-- R72, R126: the array slot issues PASS. -/
  | pass (core : CoreId)
  /-- R52, R68: the core's next groups of products land in their cells. -/
  | passGroupLanding (core : CoreId)
  /-- R75, R127: the array slot issues STRIKE. -/
  | strike (core : CoreId)
  /-- R128, R129: the DMA slot issues DMA. -/
  | dma (core : CoreId)
  /-- R130: the DMA slot issues REFRESH. -/
  | refresh (core : CoreId)
  /-- R104: the DMA slot issues DOOR. -/
  | door (core : CoreId)
  /-- R132: the street slot issues SEND. -/
  | send (core : CoreId)
  /-- R132: the street slot issues RECV. -/
  | recv (core : CoreId)
  /-- R133, R183: the row-unit slot issues CALL. -/
  | call (core : CoreId)
  /-- R88: the core reaches running cycle scheduled_cycles. -/
  | actEndCheck (core : CoreId)
  /-- R109: the cadence counter reaches 2,497. -/
  | refreshMissed (core : CoreId)
  /-- R97: a handshake wait passes 2^20 island cycles. -/
  | lateDelivery (core : CoreId)
  /-- R96: a street unit reaches the receiving port's channel buffer. -/
  | streetUnitArrival (core : CoreId) (channel : Nat)
  /-- R163: a link direction (numbered by its source and hop code) passes the lowest-stamp unit present. -/
  | linkUnitPass (link : Nat)
  /-- R96: a frozen SEND or RECV completes its handshake after this many frozen cycles. -/
  | handshakeWaitEnd (core : CoreId) (cycles : Nat)
  /-- R111: the slice watchdog reaches 1,000 ticks. -/
  | forcedRefresh (core : CoreId)
  /-- R112: a slice refreshes itself between acts. -/
  | automaticRefresh (core : CoreId)
  /-- R91, R99 steps 3 and 4: the stage manager chooses the next act. -/
  | actChoice (company : Nat)
  /-- R108: the watch interval ends while a hold waits. -/
  | curtainHeld (company : Nat)
  /-- R360, R99 steps 5 to 7: the candidate act is checked against the budget. -/
  | admission (company : Nat)
  /-- R362: a refused curtain is evaluated again. -/
  | admissionReevaluation (company : Nat)
  /-- R365: the ballast has held its level 10 µs. -/
  | ballastHoldExpiry (company : Nat)
  /-- R361: a ballast taper reaches zero. -/
  | ballastTaperEnd (company : Nat)
  /-- R99 step 8: the next act starts. -/
  | curtainUp (company : Nat)
  /-- R397: the containment notice reaches another core of the company. -/
  | stopNotice (core : CoreId)
  /-- R399: every core has stopped and the company is cleaned up. -/
  | companyHalted (company : Nat)
  /-- R325, R327: a host write of a ring's cmd_tail. -/
  | doorbell (ring : Nat) (value : Word)
  /-- R326, R327: a host write of a ring's cpl_head. -/
  | cplHeadWrite (ring : Nat) (value : Word)
  /-- R314: a host write to a channel counter, 0 to 4 in the order of the block. -/
  | counterClear (channel counter : Nat)
  /-- R314: a host write of a host-port page register. -/
  | registerWrite (offset : Nat) (value : BitVec 64)
  /-- R325: the stage manager takes the ring's next command slot. -/
  | commandTake (ring : Nat)
  /-- R328: a queued event record is posted. -/
  | recordPost (ring : Nat)
  /-- R338: the ring's next started command, HELLO. -/
  | hello (ring : Nat)
  /-- R339. -/
  | setInterface (ring : Nat)
  /-- R349, R351. -/
  | queryDevice (ring : Nat)
  /-- R385. -/
  | deviceReset (ring : Nat)
  /-- R342. -/
  | formCompany (ring : Nat)
  /-- R342. -/
  | disbandCompany (ring : Nat)
  /-- R342. -/
  | resetCompany (ring : Nat)
  /-- R284. -/
  | setMode (ring : Nat)
  /-- R295. -/
  | understudyPair (ring : Nat)
  /-- R342: no matching pair command within 1 s. -/
  | understudyPairTimeout (company : Nat)
  /-- R343, R344. -/
  | loadScript (ring : Nat)
  /-- R187, R343. -/
  | loadTables (ring : Nat)
  /-- R179, R181. -/
  | loadMicroprogramCores (ring : Nat)
  /-- R269. -/
  | loadMicroprogramEngine (ring : Nat)
  /-- R101, R343. -/
  | setCue (ring : Nat)
  /-- R345. -/
  | carriageIn (ring : Nat)
  /-- R345, R433. -/
  | carriageOut (ring : Nat)
  /-- R107, R167: the next unit of the carriage with this number lands at full rate. -/
  | carriageUnitLanding (carriage : Nat)
  /-- R347. -/
  | curtainUpAt (ring : Nat)
  /-- R347: HALT_COMPANY with when = IMMEDIATE. -/
  | immediate (ring : Nat)
  /-- R347: HALT_COMPANY with when = AT_CURTAIN. -/
  | atCurtain (ring : Nat)
  /-- R348. -/
  | fabricConfig (ring : Nat)
  /-- R348. -/
  | loadPlan (ring : Nat)
  /-- R348. -/
  | loadDirectory (ring : Nat)
  /-- R349, R371. -/
  | setHouseBudget (ring : Nat)
  /-- R380: ENTER_STATE 0. -/
  | run (ring : Nat)
  /-- R381: ENTER_STATE 1. -/
  | interval (ring : Nat)
  /-- R382: ENTER_STATE 2. -/
  | dim (ring : Nat)
  /-- R383: ENTER_STATE 3. -/
  | standby (ring : Nat)
  /-- R380: a requested power-state transition completes. -/
  | stateReached
  /-- R370: one district's islands are restored. -/
  | dimWakeWave
  /-- R349, R428. -/
  | eventConfig (ring : Nat)
  /-- R349, R425. -/
  | eventRead (ring : Nat)
  /-- R349, R395. -/
  | readFault (ring : Nat)
  /-- R411. -/
  | attest (ring : Nat)
  /-- R417. -/
  | loadExtension (ring : Nat)
  /-- R420: DEBUG_UNLOCK phase 0. -/
  | challenge (ring : Nat)
  /-- R421: DEBUG_UNLOCK phase 1. -/
  | response (ring : Nat)
  /-- R420: DEBUG_UNLOCK phase 2. -/
  | lock (ring : Nat)
  /-- R62, R432. -/
  | debugReadQuire (ring : Nat)
  /-- R436. -/
  | testPerturb (ring : Nat)
  /-- R437: the LINK_ERROR control in this slot injects its next error. -/
  | linkError (slot : Nat)
  /-- R304: carries the upper row bits (the row divided by 16,384) of the row to open. -/
  | activate1 (channel bank upper : Nat)
  /-- R304: carries the lower 14 row bits and opens the row. -/
  | activate2 (channel bank lower : Nat)
  /-- R304. -/
  | precharge (channel bank : Nat)
  /-- R304. -/
  | prechargeAll (channel : Nat)
  /-- R312; overlap: the burst would overlap an earlier burst on DQ (R305). -/
  | read16 (channel bank column : Nat) (overlap : Bool)
  /-- R312. -/
  | read32 (channel bank column : Nat) (overlap : Bool)
  /-- R313; overlap: its data window overlaps another burst (R305). -/
  | write16 (channel bank column : Nat) (data : List Byte) (overlap : Bool)
  /-- R313. -/
  | write32 (channel bank column : Nat) (data : List Byte) (overlap : Bool)
  /-- R304: mask true leaves the byte. -/
  | maskedWrite (channel bank column : Nat) (data : List Byte) (mask : List Bool) (overlap : Bool)
  /-- R306. -/
  | modeRegisterWrite (channel reg : Nat) (value : Byte)
  /-- R307. -/
  | modeRegisterRead (channel reg : Nat)
  /-- R304: 0 WCK2CK sync, 1 fast sync, 2 WCK stop. -/
  | cas (channel op : Nat)
  /-- R308: op 0 CA training, 1 WCK2CK levelling, 2 ZQ start, 3 ZQ latch, 4 exit training; pattern is the CA pattern or WCK phase presented. -/
  | multiPurposeCommand (channel op : Nat) (pattern : Byte)
  /-- R308. -/
  | writeFifo (channel : Nat) (data : List Byte)
  /-- R308. -/
  | readFifo (channel : Nat)
  /-- R308. -/
  | readDqCalibration (channel : Nat)
  /-- R304. -/
  | refreshAllBank (channel : Nat)
  /-- R304. -/
  | refreshPerBank (channel bank : Nat)
  /-- R304. -/
  | refreshManagement (channel : Nat)
  /-- R304. -/
  | selfRefreshEntry (channel : Nat)
  /-- R304. -/
  | selfRefreshExit (channel : Nat)
  /-- R304. -/
  | powerDownEntry (channel : Nat)
  /-- R304. -/
  | powerDownExit (channel : Nat)
  /-- R304. -/
  | deepSleepEntry (channel : Nat)
  /-- R304. -/
  | deepSleepExit (channel : Nat)
  /-- R304: NOP or DESELECT. -/
  | deselect (channel : Nat)
  /-- R317: the ball is driven to this level. -/
  | hostResetN (level : Bool)
  /-- R308. -/
  | channelInitialised (channel : Nat)
  /-- R377, R384: the rails rise, or one falls below its threshold. -/
  | powerOnReset
  /-- R384: RESET_N goes low for at least 1 µs with the rails in regulation. -/
  | resetN
  /-- R378: RESET_N rises, or the boot under way runs to its end. -/
  | boot
  /-- R379. -/
  | powerDown
  /-- R384. -/
  | watchdog
  /-- R409. -/
  | bottomTreeComplete
  /-- R446; pec: the packet error check passes (R445). -/
  | wake (pec : Bool)
  /-- R446. -/
  | linkReset (link : Nat) (pec : Bool)
  /-- R446. -/
  | readVid (pec : Bool)
  /-- R446. -/
  | readTemp (district : Nat) (pec : Bool)
  /-- R446. -/
  | readState (pec : Bool)
  /-- R446. -/
  | readSerial (pec : Bool)
  /-- R423: the bits scanned in while the instruction is selected. -/
  | bypass (tdi : List Bool)
  /-- R423. -/
  | idcode (tdi : List Bool)
  /-- R423: pins are the levels sampled at the balls. -/
  | samplePreload (pins tdi : List Bool)
  /-- R423. -/
  | extest (pins tdi : List Bool)
  /-- R360: the reading of every district, in 1/16 °C. -/
  | temperatureReading (readings : List Nat)
  /-- R372: low for 100 ns or longer, or high again. -/
  | vrHotN (low : Bool)
  /-- R372: the 1 µs mean of the input power. -/
  | powerMeasurement (watts : Nat)
  /-- R373. -/
  | stretchLevelRise
  /-- R373. -/
  | stretchLevelFall
  /-- R222: an IDLE frame word. -/
  | idle (link : LinkId) (frame : BitVec 128)
  /-- R224: a HEADER frame. -/
  | header (link : LinkId) (frame : BitVec 128) (body : List Byte)
  /-- R224: a FLIT frame. -/
  | flit (link : LinkId) (frame : BitVec 128) (body : List Byte)
  /-- R225; turnaround: the time to the reply that this end measures. -/
  | rttProbe (link : LinkId) (frame : BitVec 128) (body : List Byte) (turnaround : Word)
  /-- R225. -/
  | rttProbeTimer (link : LinkId) (fine : Nat)
  /-- R225; fine: the fine time of its arrival. -/
  | rttReply (link : LinkId) (frame : BitVec 128) (body : List Byte) (fine : Nat)
  /-- R241. -/
  | time (link : LinkId) (frame : BitVec 128) (body : List Byte)
  /-- R241. -/
  | timeTimer (link : LinkId) (fine : Nat)
  /-- R242: 1 reference, 2 disagreement, 3 parent link. -/
  | townSyncLost (cause : Nat)
  /-- R225. -/
  | spareRequest (link : LinkId) (frame : BitVec 128) (body : List Byte)
  /-- R225. -/
  | spareRequestTimer (link : LinkId)
  /-- R238. -/
  | spareAck (link : LinkId) (frame : BitVec 128) (body : List Byte)
  /-- R225. -/
  | linkId (link : LinkId) (frame : BitVec 128) (body : List Byte)
  /-- R238. -/
  | laneLoss (link : LinkId) (lane : Nat)
  /-- R238. -/
  | linkLost (link : LinkId)
  /-- R221. -/
  | linkUp (link : LinkId)
  /-- R234: the waiting packet at this place of the port queue leaves. -/
  | packetForward (index : Nat)
  /-- R237. -/
  | routeSwap
  /-- R234. -/
  | creditStarved (company : Nat) (link vc : Nat)
  /-- R262: the link's arrived REDUCE_UP packet enters its context. -/
  | reduceUp (link : LinkId)
  /-- R265. -/
  | shadowSample (link : LinkId)
  /-- R271. -/
  | broadcastDown (link : LinkId)
  /-- R345: the arrived CARRIAGE packet lands; place is the foyer address of its buffer. -/
  | carriage (link : LinkId) (place : Nat)
  /-- R244, R256: a scene child's report. -/
  | landed (child job step epoch : Nat)
  /-- R244; late: it arrives at count M or later. -/
  | scene (job step count epoch : Nat) (late : Bool)
  /-- R244: tick M of the job's scene change. -/
  | sceneChange (job : Nat)
  /-- R273. -/
  | jobAbort (job step : Nat)
  /-- R273. -/
  | contextTimeout (context : Nat)
  /-- R253. -/
  | bucketTrigger (context : Nat)
  /-- R253: the next unit of the bucket buffer is read. -/
  | bucketBufferRead (context : Nat)
  /-- R261: the next flit is summed. -/
  | hop (context : Nat)
  /-- R266. -/
  | shadowCheck (context element : Nat)
  /-- R268. -/
  | update (context : Nat)
  /-- R272: the next value unit lands. -/
  | broadcastLanding (context : Nat)
  /-- R298: the partner's act signatures, in logical core order. -/
  | signatureExchange (company : Nat) (sigs : List (BitVec 64))
  /-- R300: the partner's stop notice. -/
  | understudyPartnerStopped (company : Nat)
  /-- R155, R157: the Exchange bank (none) or an idle slice is scrubbed. -/
  | patrolScrub (core : Option CoreId)
  /-- R437: the CREDIT_WITHHOLD control in this slot begins or ends a period. -/
  | creditWithhold (slot : Nat)
  /-- R345. -/
  | carriageAcknowledgement (carriage : Nat)
  /-- R295: the partner chip's pair information. -/
  | understudyPairExchange (company : Nat) (role link rom : Nat) (extHashes : List (BitVec 384)) (scriptHash : BitVec 384) (districts : Word) (idle up free : Bool)
  /-- R240. -/
  | townRefEdge
  deriving DecidableEq, Repr

end Sys2Proof
end

