-- ==== Sys2Proof/Config.lean ====
section
/-! DEFINITION. The free values of the model: constants without a body, so that no proof can see what they are.
Each is named in the assumption log. -/
namespace Sys2Proof

/-- R192: a library function's wide-form result before its bound and guard are applied: function, posit width,
input. Its coefficients belong to the ROM version and are not part of the spec. -/
opaque Config.libraryValue : Nat → Nat → Wide → Wide

/-- R167, R289: the seed of a stochastic carriage to or from the Exchange bank, which belongs to no company and so has no company seed. -/
opaque Config.bankSeed : BitVec 64

/-- R167, R286: the step of such a carriage's draws. -/
opaque Config.bankStep : Nat

/-- R420, R410: bytes of the entropy source, by draw and position. -/
opaque Config.entropy : Nat → Nat → Byte

/-- R155: whether an error of three or more symbols in a 64-byte unit is detected, by draw. -/
opaque Config.tripleDetected : Nat → Bool

/-- R155, R401: the bytes a read returns where an error of three or more symbols escapes detection, by draw and position. -/
opaque Config.wrongByte : Nat → Nat → Byte

/-- R408: the labels under which the two identity keys are derived; the spec does not give them. -/
opaque Config.ecdsaLabel : List Byte
opaque Config.lmsLabel : List Byte

/-- R408: the top tree's identifier and seed, as its 256 derived bits give them: those bits, position. -/
opaque Config.lmsIdentifier : List Byte → Nat → Byte
opaque Config.lmsSeed : List Byte → Nat → Byte

/-- R377: whether the rails of a power-on came up against the order that the rule asks of the board, by draw. -/
opaque Config.railsBroken : Nat → Bool

/-- R423: the bits of the JTAG identification register, which the spec does not give, by position. -/
opaque Config.idcodeBit : Nat → Bool

/-- R205, R206: which byte stands for EMPTY in the finder's history; only that it is no exponent is known (see historyEmpty). -/
opaque Config.historyCode : Nat

/-- R249, R272: a bucket's broadcast format (bits 1 and 0) and finder field (bits 65 to 2), which stand in the owner's context record alone, as a
member knows them: owner chip, bucket, epoch. -/
opaque Config.ownerLayout : Nat → Nat → Nat → BitVec 66

/-- R266: the 64 bytes of sample state that an owner keeps for a sampled element, whose layout the spec does not give, by draw and position. -/
opaque Config.sampleByte : Nat → Nat → Byte

/-- R274: reduce_ticks of a bucket whose owner does not trigger, by draw. -/
opaque Config.openTicks : Nat → BitVec 32

end Sys2Proof
end

