-- ==== Sys2Proof/Machine/Sparse.lean ====
section
/-! DEFINITION. Sparse maps: a read, and a write that keeps rising keys and lists no default value. -/
namespace Sys2Proof.SMap

variable {α : Type}

/-- The value at a key; an unlisted key holds the default. -/
def get (d : α) : SMap α → Nat → α
  | [], _ => d
  | (k, v) :: t, i => if k = i then v else get d t i

/-- Every entry of a key taken out. -/
def erase (m : SMap α) (i : Nat) : SMap α := m.filter (fun p => p.1 != i)

/-- An entry put before the first greater key. -/
def insert (i : Nat) (v : α) : SMap α → SMap α
  | [] => [(i, v)]
  | (k, w) :: t => if i < k then (i, v) :: (k, w) :: t else (k, w) :: insert i v t

/-- A write; writing the default removes the entry. -/
def set [DecidableEq α] (d : α) (m : SMap α) (i : Nat) (v : α) : SMap α :=
  if v = d then erase m i else insert i v (erase m i)

/-- Writes in order. -/
def setMany [DecidableEq α] (d : α) (m : SMap α) : List (Nat × α) → SMap α
  | [] => m
  | (i, v) :: t => setMany d (set d m i v) t

/-- Canonical form: rising keys, no default entry. -/
def canon [DecidableEq α] (d : α) : SMap α → Bool
  | [] => true
  | [(_, v)] => v != d
  | (k, v) :: (k', v') :: t => decide (k < k') && (v != d) && canon d ((k', v') :: t)

end Sys2Proof.SMap
end

