-- ==== Sys2Proof/Machine/State.lean ====
section
/-! DEFINITION. The state of the GL1 block: every register, store, queue, mode and pin of the spec, as plain
data, with the queue of waiting commands. Each field's docstring gives its width, the rule that names it
and its value after reset. State.reset is the moment right after the first power-on reset, with the boot under way (R378). -/

namespace Sys2Proof.Machine

/-- Why the machine stops with a fault: for no reason. The spec gives every command of the block an effect, its own errors among them, so no
meaning stops; the type has no constructor, and none is safe or unsafe. -/
inductive Fault where
  deriving DecidableEq, Repr

/-- Why the machine gives a command no meaning. -/
inductive Refusal where
  /-- The command has no meaning yet. Raised by no arm of exec at present. Safe. -/
  | notModelled (mnemonic : String)
  deriving DecidableEq, Repr

/-- A byte-addressed memory in canonical form: rising addresses, no zero bytes (every store is zeroed by
R378 or returns to zero by R387, so an unlisted byte reads zero). -/
abbrev Memory := List Host.Cell

/-! ### A core -/

/-- A function table: 16-byte header and seam values (R186, R187). The empty list stands for NaR entries. -/
structure Table where
  /-- 128 bits; R187; reset: both ends NaR, no bit set. -/
  header : BitVec 128 := 0x8000000080000000
  /-- 2,048 entries of 32 bits; R186; reset: NaR entries (the empty list). -/
  entries : List Word := []
  deriving DecidableEq, Repr

/-- A micro-program image (R175, R176). -/
structure MicroProgram where
  /-- 128 bits; R175. -/
  header : BitVec 128 := 0
  /-- 1 to 64 step words of 64 bits; R176. -/
  steps : List (BitVec 64) := []
  deriving DecidableEq, Repr

/-- An active loop (R124). -/
structure LoopFrame where
  /-- Loop counter 0 to 7; R124. -/
  counter : Nat
  /-- First bundle of the body; R124. -/
  top : Nat
  /-- Last bundle of the body; R124. -/
  last : Nat
  deriving DecidableEq, Repr

/-- An exact value of the quire or the apron: NaR, or m · 2^e (R45, R56). -/
inductive Exact where
  | nar
  | num (m e : Int)
  deriving DecidableEq, Repr

/-- What one cell gives a strike: an exact value, or an overflowed slot with its sign (R56). -/
inductive CellVal where
  | value (x : Exact)
  | overflow (negative : Bool)
  deriving DecidableEq, Repr

/-- A pass in flight (R68 to R72). -/
structure PassFlight where
  /-- n of posit-n; R72. -/
  n : Nat
  /-- Slot code; R44. -/
  slot : BitVec 4
  /-- 1: add; R49. -/
  accumulate : Bool
  /-- Step count; R72. -/
  k : Nat
  /-- First column covered and number of columns; R73. -/
  col0 : Nat
  cols : Nat
  /-- Stream addresses in words; R72. -/
  aSrc : Nat
  bSrc : Nat
  /-- Trap bits; R52. -/
  trapLapse : Bool
  trapOverflow : Bool
  /-- Issue cycle; R68. -/
  issue : Nat
  /-- Array cycles run since the issue, stall cycles left out; R68, R76. -/
  prog : Nat
  /-- Half-words read so far of the A and B streams, oldest first; R145. -/
  aRead : List (BitVec 16)
  bRead : List (BitVec 16)
  /-- Cells whose slot a later pass has overwritten already, and cells whose own overwrite a later pass's group has brought forward; R70. -/
  lost : List Nat := []
  cleared : List Nat := []
  deriving DecidableEq, Repr

/-- A row of a strike between its quire read and its write (R79). -/
structure StrikeRow where
  row : Nat
  vals : List CellVal
  /-- The exponent c of each cell; R82. -/
  exps : List Int
  /-- The converted row in words, and its side-band word; R83, R210. -/
  words : List Word := []
  side : Word := 0
  deriving DecidableEq, Repr

/-- The strike status of a slot: cells lapsed, cells overflowed and NaR cells (R55). -/
structure StrikeStatus where
  lapsed : Nat := 0
  overflow : Nat := 0
  nar : Nat := 0
  deriving DecidableEq, Repr

/-- A strike in flight (R75, R77). -/
structure StrikeFlight where
  slot : BitVec 4
  col0 : Nat
  cols : Nat
  cfg : Nat
  dst : Nat
  rexp : Nat
  bias : Nat
  /-- Issue cycle; R75. -/
  issue : Nat
  /-- Row exponents and bias bytes as read in the issue cycle; R144. -/
  rexpBytes : List Byte
  biasBytes : List Byte
  /-- Element counter at the issue; R81. -/
  elem : Nat
  rows : List StrikeRow
  /-- The strike status over the rows read so far; R55. -/
  status : StrikeStatus := {}
  deriving DecidableEq, Repr

/-- A DMA in flight (R129, R144). -/
structure DmaFlight where
  desc : BitVec 256
  /-- Slice unit and stage-store word addresses; R128. -/
  slice : Nat
  store : Nat
  issue : Nat
  /-- Units of R129, of the slice side and of the store side (R152). -/
  units : Nat
  sliceUnits : Nat
  storeUnits : Nat
  /-- Element counter at the issue; R153. -/
  elem : Nat
  /-- To the stage store: the slice units as read, in order. To the slice: the image bytes read so far; R150, R152. -/
  source : List Byte
  /-- Slice units, counted within the transfer, whose read failed; R138. -/
  failed : List Nat
  deriving DecidableEq, Repr

/-- A row-unit call in flight (R183). -/
structure CallFlight where
  entry : Nat
  src : Nat
  dst : Nat
  aux : Nat
  n : Nat
  count : Nat
  issue : Nat
  depth : Nat
  interval : Nat
  /-- Words 0 to 15 of the parameter block; R182. -/
  params : List Word
  /-- Groups computed and waiting for their write: group number and output words with their byte count; R183. -/
  outputs : List (Nat × List Byte)
  deriving DecidableEq, Repr

/-- A street transfer in flight: U units from or to a stage-store address (R132). -/
structure StreetFlight where
  channel : Nat
  store : Nat
  units : Nat
  issue : Nat
  /-- Units sent or taken so far; R132. -/
  done : Nat
  /-- The bundle that issued it; R97. -/
  bundle : Nat
  /-- Island cycles that HANDSHAKE_DELAY adds to its handshakes; R437. -/
  delay : Nat := 0
  deriving DecidableEq, Repr

/-- A door in flight (R104). -/
structure DoorFlight where
  channel : Nat
  toStore : Bool
  capacity : Nat
  issue : Nat
  deriving DecidableEq, Repr

/-- An operation in flight (R135). -/
inductive Flight where
  | pass (p : PassFlight)
  | strike (k : StrikeFlight)
  | dma (d : DmaFlight)
  | door (d : DoorFlight)
  | send (d : StreetFlight)
  | recv (d : StreetFlight)
  | call (d : CallFlight)
  deriving DecidableEq, Repr

/-- How far a core is in its act. -/
inductive CoreRun where
  /-- Between acts (R112). -/
  | idle
  /-- Issuing bundles (R86). -/
  | running
  /-- Frozen in the handshake of a SEND (true) or a RECV of a channel (R96). -/
  | frozen (send : Bool) (channel : Nat)
  /-- The act has ended on the core (R88). -/
  | ended
  /-- Stopped by a fault or a halt (R396). -/
  | stopped
  deriving DecidableEq, Repr

/-- An event counter (R424). -/
structure EventCounter where
  /-- Configuration word, 64 bits; R424; reset 0. -/
  config : BitVec 64 := 0
  /-- Value word, 64 bits, saturating; R424; reset 0. -/
  value : BitVec 64 := 0
  /-- Threshold, 64 bits; R430; reset 0. -/
  threshold : BitVec 64 := 0
  /-- 1: COUNTER_THRESHOLD has been raised since the last clear; R430; reset 0. -/
  raised : Bool := false
  deriving DecidableEq, Repr

/-- A configuration of a counter or a calibration set that waits for a curtain-up (R218, R428). -/
structure QueuedConfig where
  /-- Target 0 core counter, 1 district counter, 3 core calibration set; R349. -/
  target : Nat
  index : Nat
  config : BitVec 64
  threshold : BitVec 64
  deriving DecidableEq, Repr

/-- A bank of the script buffer: an act's code block as read from the slice, with the block's descriptors (R85, R93). -/
structure CodeBank where
  act : Nat
  code : List (BitVec 256)
  descs : List (BitVec 256)
  /-- The first slice unit whose read failed; R138. -/
  failed : Option Nat
  deriving DecidableEq, Repr

/-- A street unit in a port's buffer (R96). -/
structure Arrived where
  channel : Nat
  /-- Island cycle, on the receiver's count with its frozen cycles, from which a RECV may take it; R95, R162. -/
  due : Nat
  data : List Byte
  deriving DecidableEq, Repr

/-- One logical core (R13). -/
structure Core where
  /-- A0 to A31, 32 bits each; R121; 0 at every curtain-up. -/
  a : SMap Word := []
  /-- L0 to L7, 24 bits each; R121; 0 at every curtain-up. -/
  l : SMap (BitVec 24) := []
  /-- Where the core is in its act; R86, R96; reset idle. -/
  run : CoreRun := .idle
  /-- The idle script-buffer bank: the prefetched block of the next act in script order; R16, R93; reset not loaded. -/
  idle : Option CodeBank := none
  /-- The running act's code block, up to 512 bundles of 256 bits (the other script-buffer bank); R85, R93; reset not loaded. -/
  code : List (BitVec 256) := []
  /-- The running act's DMA descriptors, up to 256 of 256 bits; R128; reset not loaded. -/
  descs : List (BitVec 256) := []
  /-- Bundle due next; R120; 0 at curtain-up. -/
  bundle : Nat := 0
  /-- Bundle last issued, or that did not issue; R138; 0 at curtain-up. -/
  issued : Nat := 0
  /-- Slots of the due bundle already issued, 0 to 4; R118; 0 at curtain-up. -/
  phase : Nat := 0
  /-- Register writes of the bundle that take effect in the next running cycle; R122; none. -/
  writes : List (Nat × Word) := []
  /-- Loop-counter writes of the bundle; R122; none. -/
  lwrites : List (Nat × BitVec 24) := []
  /-- Running cycle whose operations are to run next; R87; 0 at curtain-up. -/
  cycle : Nat := 0
  /-- Running cycle in which the due bundle issues; R120, R125; 0 at curtain-up. -/
  issueAt : Nat := 0
  /-- Active loops, innermost first; R124; none at curtain-up. -/
  loops : List LoopFrame := []
  /-- Bundle that follows the one being issued, decided by its control slot; R124. -/
  nextBundle : Nat := 0
  /-- Running cycles since the last REFRESH or curtain-up; R109; 0 at curtain-up. -/
  cadence : Nat := 0
  /-- Frozen cycles of the present wait; R97; 0. -/
  frozenFor : Nat := 0
  /-- Frozen cycles of the act, by which the core's running cycles lag the island cycles; R87, R96; 0 at curtain-up. -/
  lag : Nat := 0
  /-- Operations in flight, in issue order; R135; none at curtain-up. -/
  flights : List Flight := []
  /-- Release cycles of the apron, DMA path, send path, receive path and row unit; R135; 0 at curtain-up. -/
  apronFree : Nat := 0
  dmaFree : Nat := 0
  sendFree : Nat := 0
  recvFree : Nat := 0
  rowFree : Nat := 0
  /-- Last completion cycle of the finished operations; R136; 0 at curtain-up. -/
  completed : Nat := 0
  /-- Quire banks, 512 bits a cell, by row × 16 + column; R44; reset 0. -/
  quire : SMap (BitVec 512) := []
  /-- Status records, 64 bits, by cell × 4 + quarter; R54; reset 0. -/
  qstatus : SMap (BitVec 64) := []
  /-- APRON_CFG0 to 7, active copy, 128 bits; R80; reset out_format 0b01, else 0. -/
  apron : SMap (BitVec 128) := []
  /-- APRON_CFG shadow copy; R80, R101; reset as the active copy. -/
  apronShadow : SMap (BitVec 128) := []
  /-- Pending and frozen flags of the apron class; R101; reset 0. -/
  apronPending : Bool := false
  apronFrozen : Bool := false
  /-- Apron writes held at a cue cut; R101; none. -/
  apronHeld : List (Nat × BitVec 128) := []
  /-- Element counters of the apron configurations, 40 bits; R81; index_base at curtain-up. -/
  apronElem : SMap Nat := []
  /-- SCALE0 to SCALE4095, active copy, 8 bits; R202; reset 0. -/
  scale : SMap Byte := []
  /-- Scale registers, shadow copy; R202; reset 0. -/
  scaleShadow : SMap Byte := []
  /-- Pending and frozen flags of the scale class; R101; reset 0. -/
  scalePending : Bool := false
  scaleFrozen : Bool := false
  /-- Scale writes held at a cue cut; R101; none. -/
  scaleHeld : List (Nat × Byte) := []
  /-- Function-table bank, active, four slots; R187; reset empty slots. -/
  tables : SMap Table := []
  /-- Function-table bank, shadow; R187; reset empty slots. -/
  tablesShadow : SMap Table := []
  /-- Pending and frozen flags of the table class; R101; reset 0. -/
  tablesPending : Bool := false
  tablesFrozen : Bool := false
  /-- A table load held at a cue cut; R101; none. -/
  tablesHeld : Option (SMap Table) := none
  /-- Micro-program entries 16 to 255; R174; reset empty. -/
  micro : SMap (Option MicroProgram) := []
  /-- Micro-programs queued for the next curtain; R181; none. -/
  microQueue : List (Nat × MicroProgram) := []
  /-- QL0 and QL1, 512 bits; R171; reset 0. -/
  ql : SMap (BitVec 512) := []
  /-- Status records of QL0 and QL1, 64 bits; R171; reset 0. -/
  qlStatus : SMap (BitVec 64) := []
  /-- SR0 to SR15, 128 bits; R172; reset m = NaR, else 0. -/
  sr : SMap (BitVec 128) := []
  /-- Row-exponent holds 0 to 15; R208; empty at every curtain-up. -/
  holds : SMap (Option Int) := []
  /-- Descriptor element counters, 40 bits, by descriptor index; R153; index_base at curtain-up. -/
  descElem : SMap Nat := []
  /-- Act signature, 64 bits; R297; mix(act_index + 1) at curtain-up. -/
  sig : BitVec 64 := 0
  /-- Event counters 0 to 3; R424; reset 0. -/
  counters : SMap EventCounter := []
  /-- CAL_SET0 to CAL_SET15, 256 bits; R215; reset 0. -/
  calSets : SMap (BitVec 256) := []
  /-- Configurations waiting for a curtain-up; R218, R428; none. -/
  cfgQueue : List QueuedConfig := []
  /-- Received street units not yet taken, oldest first; R96; none. -/
  inbox : List Arrived := []
  /-- Places of the buffers that RECVs have freed in the act: channel, the unit's island cycle and that of its taking; R96; none. -/
  freed : List (Nat × Nat × Nat) := []
  /-- Strike status of the last strike; R55; reset 0. -/
  strikeStatus : StrikeStatus := {}
  /-- Next part of the slice that REFRESH refreshes, 0 to 4,095; R156; reset 0 (DESIGN CHOICE). -/
  refreshPart : Nat := 0
  /-- Town count of the slice's last refresh; R111; reset 0. -/
  lastRefresh : Nat := 0
  /-- Next unit the scrub of the slice takes; R155; reset 0 (DESIGN CHOICE). -/
  scrubNext : Nat := 0
  deriving DecidableEq, Repr

/-! ### Scripts, companies, curtains -/

/-- An entry of the script index: one core's block of one act (R344). -/
structure BlockRef where
  /-- Slice unit of the core where LOAD_SCRIPT laid the block; R344. -/
  unit : Nat
  bundles : Nat
  descs : Nat
  deriving DecidableEq, Repr

/-- A loaded script (R85, R344). -/
structure Script where
  /-- Package SHA-384; R343. -/
  hash : BitVec 384
  /-- Logical rows of the script grid, 7 or 8; R5. -/
  rows : Nat
  /-- Act descriptors, 512 bits; R89. -/
  acts : List (BitVec 512)
  /-- Peak profiles by act, 384 bits; none where offset is 0; R359. -/
  profiles : List (Option (BitVec 384))
  /-- Blocks by act × 2,048 + core; R344. -/
  blocks : SMap (Option BlockRef)
  deriving DecidableEq, Repr

/-- A signal plan (R159, R161): channel entries of 96 bits by core × 64 + channel, and slot-table entries of 192 bits. -/
structure SignalPlan where
  channels : SMap (BitVec 96) := []
  slots : List (BitVec 192) := []
  deriving DecidableEq, Repr

/-- Where a company is in its curtain (R99). -/
inductive CurtainStep where
  /-- An act is running, or the company is idle. -/
  | none
  /-- Before or at step 3. -/
  | choice
  /-- An act is chosen and the cues are cut; at step 5. -/
  | admission (act : Nat)
  /-- Admitted at town count `start`; at steps 6 and 7, ramping until town count `done`. -/
  | ramp (act start done : Nat)
  deriving DecidableEq, Repr

/-- The state of a company (R340). -/
inductive CompanyMode where
  | unformed | idle | launched | running | halted
  deriving DecidableEq, Repr

/-- A per-company cue class with its shadow copy (R101). -/
structure Cue (α : Type) where
  active : α
  shadow : α
  pending : Bool := false
  frozen : Bool := false
  held : Option α := none
  deriving DecidableEq, Repr

/-- An understudy pair (R295). -/
structure Pair where
  /-- 0 primary, 1 secondary. -/
  role : Nat
  link : Nat
  partner : Nat
  deriving DecidableEq, Repr

/-- A pair command that waits for its partner (R342). -/
structure PairWait where
  pair : Pair
  ring : Nat
  tag : Word
  since : Nat
  deriving DecidableEq, Repr

/-- A fault log: the kept records (oldest first) and the next sequence number (R395). -/
structure FaultLog where
  records : List (BitVec 512) := []
  next : Nat := 0
  deriving DecidableEq, Repr

/-- A command whose completion waits: ring, opcode and tag (R334). -/
structure Waiting where
  ring : Nat
  opcode : Nat
  tag : Word
  deriving DecidableEq, Repr

/-- The waves of a ballast ramp or taper (R366, R367): in each wave one district moves by its share. -/
structure Waves where
  /-- Districts in wave order; R367. -/
  order : List Nat
  /-- Town count at which the first wave begins, and the ticks of all waves together; R366. -/
  first : Nat
  ticks : Nat
  /-- The company's levels before and after, 1/16 W; R366. -/
  before : Nat
  after : Nat
  /-- A taper, which goes on while the islands are stretched; R374. -/
  taper : Bool
  deriving DecidableEq, Repr

/-- One company (R113, R340). -/
structure Company where
  /-- State; R340; reset UNFORMED. -/
  mode : CompanyMode := .unformed
  /-- District mask, 32 bits; R342; reset 0. -/
  districts : Word := 0
  /-- Claimed avenues, 128 bits; R342; reset 0. -/
  avenues : BitVec 128 := 0
  /-- DETERMINISM.mode: true is reproducible; R283; reset fast. -/
  reproducible : Bool := false
  /-- DETERMINISM.taint; R283; reset 0. -/
  taint : Bool := false
  /-- DETERMINISM.step, 48 bits; R283; reset 0. -/
  step : BitVec 48 := 0
  /-- DETERMINISM.seed, 64 bits; R283; reset 0. -/
  seed : BitVec 64 := 0
  /-- DETERMINISM.paired and the pair; R283, R295; reset none. -/
  pair : Option Pair := none
  /-- A pair command waiting for its partner; R342; reset none. -/
  pairWait : Option PairWait := none
  /-- The pair ended by a partner's stop or a loss: stop at the next curtain, with this event code (0x0A or 0x0B) and link; R300; none. -/
  pairStop : Option (Nat × Nat) := none
  /-- 1: this chip has sent the signatures of its ended act and not compared them; R298; 0. -/
  sigSent : Bool := false
  /-- Partner signatures not yet compared; R298; none. -/
  partnerSigs : Option (List (BitVec 64)) := none
  /-- Town count at which the signatures of this curtain compared equal; R298; none. -/
  comparedAt : Option Nat := none
  /-- Curtain counter, 32 bits; R113; reset 0. -/
  curtain : Word := 0
  /-- CLOCK_PLAN, 32 bits, with its shadow; R102; reset 0b010. -/
  clock : Cue Word := ⟨2, 2, false, false, none⟩
  /-- TRAP_MASK, 32 bits, with its shadow; R103; reset 0. -/
  trap : Cue Word := ⟨0, 0, false, false, none⟩
  /-- Signal plan, with its shadow; R159, R161; reset no valid entry. -/
  plan : Cue SignalPlan := ⟨{}, {}, false, false, none⟩
  /-- The loaded script; R343; reset not loaded. -/
  script : Option Script := none
  /-- Watch interval, ticks; R431; reset 0. -/
  watch : BitVec 64 := 0
  /-- Curtain step; R99; reset none. -/
  at_ : CurtainStep := .none
  /-- 1: pending cues have been frozen for this curtain; fast mode freezes again at each choice; R99, R101; 0. -/
  cut : Bool := false
  /-- Acts ended in the present start; R91; none. -/
  ended : List Nat := []
  /-- Acts refused at this evaluation; R363; none. -/
  refused : List Nat := []
  /-- The running act, or the last one that ran; R91; 0. -/
  act : Nat := 0
  /-- Start number within the launch, and the starts asked for; R347; 0. -/
  start : Nat := 0
  repeats : Nat := 0
  /-- Launch count N; R243; 0. -/
  launchAt : Nat := 0
  /-- 1: the next curtain-up is the first of the launch; R347; 0. -/
  launching : Bool := false
  /-- The waiting CURTAIN_UP_AT; R347; none. -/
  launchCmd : Option Waiting := none
  /-- The waiting HALT_COMPANY AT_CURTAIN commands; R347; none. -/
  haltCmds : List Waiting := []
  /-- Previous act's curtain-up count and scheduled cycles; R100; 0. -/
  upCount : Nat := 0
  upCycles : Nat := 0
  /-- Ballast ticks B of each act for the first and for later starts, fixed at the launch; R368; none. -/
  ramps : List (Nat × Nat) := []
  /-- Town count at which the company reached the curtain (step 2) or was launched; R108; 0. -/
  curtainAt : Nat := 0
  /-- CURTAIN_HELD has been posted for this curtain; R108; 0. -/
  heldPosted : Bool := false
  /-- UNADMITTABLE has been posted for this curtain; R363; 0. -/
  unadmittable : Bool := false
  /-- Admission was refused: town count from which the curtain is evaluated again; R362; none. -/
  refusedAt : Option Nat := none
  /-- Carriage hold names landed, and contexts landed, since the previous curtain-up; R108; none. -/
  landedNames : List Nat := []
  landedContexts : List Nat := []
  /-- Step 3 waits until this town count; R437 CURTAIN_DELAY; 0. -/
  delayUntil : Nat := 0
  /-- LATE cycles, forced refreshes and slip of the act; R103; 0. -/
  late : Nat := 0
  forced : Nat := 0
  slip : Nat := 0
  /-- Taint set during the act and the curtain before it; R336; 0. -/
  actTaint : Bool := false
  /-- Cue classes applied at the act's curtain-up, bits 0 to 5; R336; 0. -/
  cues : Nat := 0
  /-- Ballast level, 1/16 W; R365; 0. -/
  ballast : Nat := 0
  /-- Town count at which a ballast taper reaches zero; R365; none. -/
  taperEnd : Option Nat := none
  /-- The taper follows the last act or a stop: at its end the company leaves the running set; R361; 0. -/
  taperFrees : Bool := false
  /-- The waves of a taper and of the ramp after it; R366, R367; none. -/
  waves : List Waves := []
  /-- Town count at which the curtain reached step 5, or waits to be evaluated again; R362; 0. -/
  admissionAt : Nat := 0
  /-- Town count up to which ballast energy is counted, and the part of a unit of 16 µJ left, in 1/32 W · tick; R369; 0. -/
  ballastSince : Nat := 0
  ballastEnergy : Nat := 0
  /-- Town count at which the last non-empty act ended; R365; 0. -/
  actEndAt : Nat := 0
  /-- Fault log of the company; R395; reset empty. -/
  log : FaultLog := {}
  /-- Primary record of the present stop so far, and the number of its records; R398; none, 0. -/
  primary : Option (BitVec 512) := none
  faults : Nat := 0
  /-- The records of the present stop in their order, written to the log once the stop has ended and its primary one is known; R391, R398; none. -/
  stopRecords : List (BitVec 512) := []
  /-- The stop is under way and COMPANY_HALTED is due; R399; 0. -/
  stopping : Bool := false
  /-- Measurement chain, 384 bits, and its count; R415; reset 0. -/
  chain : BitVec 384 := 0
  chainCount : Nat := 0
  deriving DecidableEq, Repr

/-! ### Streets -/

/-- A street unit on its way (R162, R163). -/
structure StreetUnit where
  /-- Sending core and channel; R162. -/
  sender : Nat
  channel : Nat
  /-- Receiving core and channel; R159. -/
  receiver : Nat
  rchannel : Nat
  /-- Departure stamp; R162. -/
  stamp : Nat
  /-- Links of the route not yet passed, the present one first: link number and what its stamp adds to the departure stamp; R162.
  None left: the unit is on its way to the receiving port's buffer. -/
  links : List (Nat × Nat)
  data : List Byte
  /-- The last link of its route, at which it waits for the receiver's buffer; R96. -/
  last : List (Nat × Nat) := []
  /-- Island cycle from which the receiver may take it; R95, R162, R437. -/
  due : Nat := 0
  deriving DecidableEq, Repr

/-! ### Carriages -/

/-- A carriage or another queued item bound to a door (R105, R345). -/
structure Carriage where
  /-- Number of acceptance; R167. -/
  id : Nat
  ring : Nat
  opcode : Nat
  tag : Word
  /-- 1: CARRIAGE_OUT. -/
  out : Bool
  kind : Nat
  srcType : Nat
  dstType : Nat
  rounding : Nat
  channel : Nat
  holdName : Nat
  core : Nat
  /-- Company it belongs to; none for an Exchange-bank carriage; R345. -/
  company : Option Nat
  tensor : Nat
  source : Nat
  length : Nat
  dest : Nat
  destChip : Nat
  index : Nat
  /-- Destination units moved; R167. -/
  moved : Nat
  /-- First failing source unit and the number of failing ones; R346. -/
  firstFail : Option Nat
  fails : Nat
  /-- Lands from this town count on; R437 CARRIAGE_DELAY. -/
  notBefore : Nat
  /-- All units have left for a remote chip and the acknowledgement is awaited; R345. -/
  remote : Bool
  /-- Destination units for a remote chip that wait for their flit; one that must not be written is none; R345, R346; none. -/
  flit : List (Option (List Byte)) := []
  deriving DecidableEq, Repr

/-! ### Rings and the stage manager -/

/-- A ring's state (R324). -/
inductive RingState where
  | opened | unformed | indexError
  deriving DecidableEq, Repr

/-- A command slot taken from a ring (R325): its 128 bytes, and whether it has been accepted (R332). -/
structure Taken where
  bytes : List Byte
  accepted : Bool := false
  deriving DecidableEq, Repr

/-- A ring (R324 to R328). -/
structure Ring where
  /-- cmd_tail, 32 bits; R324; reset 0. -/
  cmdTail : Word := 0
  /-- cmd_head, 32 bits; R324; reset 0. -/
  cmdHead : Word := 0
  /-- cpl_tail, 32 bits; R324; reset 0. -/
  cplTail : Word := 0
  /-- cpl_head, 32 bits; R324; reset 0. -/
  cplHead : Word := 0
  /-- state, 2 bits; R324; reset OPEN (device ring), UNFORMED (company rings). -/
  state : RingState := .unformed
  /-- Commands taken and not completed, oldest first; their number is the field outstanding; R324; reset none. -/
  taken : List Taken := []
  /-- records_lost, 32 bits; R324; reset 0. -/
  lost : Nat := 0
  /-- Records dropped since the last RECORDS_LOST; R328; reset 0. -/
  lostSince : Nat := 0
  /-- bad_index_writes, 32 bits; R324; reset 0. -/
  badIndex : Nat := 0
  /-- Event records waiting for a slot, 128 bytes each, at most 1,024; R328; reset none. -/
  queue : List (List Byte) := []
  deriving DecidableEq, Repr

/-! ### Host port -/

/-- One LPDDR5X channel (R302). -/
structure Channel where
  /-- Initialised; R308; reset 0. -/
  initialised : Bool := false
  /-- Open row of each bank; R304; reset all closed. -/
  rows : SMap (Option Nat) := []
  /-- Upper row bits given by ACTIVATE-1 for each bank; R304; reset none. -/
  half : SMap (Option Nat) := []
  /-- Mode registers, by set point × 256 + register; R306; reset 0 (DESIGN CHOICE). -/
  mr : SMap Byte := []
  /-- WCK running; R303; reset 0 (DESIGN CHOICE). -/
  wck : Bool := false
  /-- Training mode: 0 none, 1 CA, 2 WCK2CK levelling; R308; reset 0. -/
  training : Nat := 0
  /-- Training FIFO, oldest first; R308; reset empty. -/
  fifo : List (List Byte) := []
  /-- Data last driven on DQ; R312; reset none. -/
  dq : List Byte := []
  /-- Idle hint in force: 1 self-refresh, 2 power-down, 3 deep sleep; clocks gated; R304; reset 0. -/
  hint : Nat := 0
  /-- UNBACKED_READS, 32 bits; R314; reset 0. -/
  unbackedReads : Nat := 0
  /-- UNBACKED_WRITES, 32 bits; R314; reset 0. -/
  unbackedWrites : Nat := 0
  /-- REFRESH_SEEN, 32 bits; R314; reset 0. -/
  refreshSeen : Nat := 0
  /-- IDLE_HINTS, 32 bits; R314; reset 0. -/
  idleHints : Nat := 0
  /-- PROTOCOL_ERRORS, 32 bits; R314; reset 0. -/
  protocolErrors : Nat := 0
  deriving DecidableEq, Repr

/-! ### Power -/

/-- The power state (R380). -/
inductive PowerState where
  | off | booting | run | interval | dim | standby
  deriving DecidableEq, Repr

/-- A requested transition: the target and the waiting ENTER_STATE (R380). -/
structure Transition where
  target : PowerState
  cmd : Option Waiting
  deriving DecidableEq, Repr

/-- An entry of the running set (R361). -/
structure RunEntry where
  company : Nat
  /-- 1/16 W; R358. -/
  mean : Nat
  peak : Nat
  /-- Budget in force at its admission; R372. -/
  sustained : Nat
  budgetPeak : Nat
  deriving DecidableEq, Repr

/-! ### Fabric -/

/-- A frame kept for replay (R224). -/
structure Frame where
  seq : Nat
  /-- false HEADER, true FLIT. -/
  flit : Bool
  body : List Byte
  /-- Resends without acknowledgement; R224. -/
  resends : Nat := 0
  /-- HEADER: the link that its packet came in on; R236. -/
  source : Option Nat := none
  deriving DecidableEq, Repr

/-- A packet (R226): header, payload and the link it came in on. -/
structure Packet where
  header : BitVec 256
  payload : List Byte
  source : Option Nat := none
  /-- Payload flits already taken by their context; R262. -/
  used : Nat := 0
  /-- Routing was found without a live choice and ROUTE_UNREACHABLE posted; R237. -/
  unreachable : Bool := false
  /-- Town count from which it waits for credit, and the CREDIT_STARVED records posted for it; R234; none, 0. -/
  waitingSince : Option Nat := none
  starved : Nat := 0
  /-- The link it must take: the pair link; R296; none. -/
  via : Option Nat := none
  deriving DecidableEq, Repr

/-- The state of a link (R221). -/
inductive LinkState where
  | down | training | up | upSpared
  deriving DecidableEq, Repr

/-- One end of a Xasyn link (R220 to R238). -/
structure Link where
  /-- Enable bit; R348; reset 0. -/
  enabled : Bool := false
  /-- State; R221; reset DOWN. -/
  state : LinkState := .down
  /-- The link was lost since it was last up; R238; reset 0. -/
  wasLost : Bool := false
  /-- Lane carried by the spare; R238; reset none. -/
  spared : Option Nat := none
  /-- A lane move under way: the lost lane and whether this end asked; R225; reset none. -/
  sparing : Option (Nat × Bool) := none
  /-- Next sequence number sent, 12 bits; R223; reset 0. -/
  txSeq : Nat := 0
  /-- Last in-order sequence number received, 12 bits; R223; reset 4,095. -/
  rxSeq : Nat := 4095
  /-- A nak is owed; R224; reset 0. -/
  nak : Bool := false
  /-- A nak has been sent for the present gap; R224; reset 0. -/
  naked : Bool := false
  /-- Replay buffer, oldest first, at most 1,024 frames; R224; reset empty. -/
  replay : List Frame := []
  /-- Frames resent: the replay count of QUERY_DEVICE, 32 bits; R351; reset 0. -/
  resent : Nat := 0
  /-- Acknowledged frames of the packet whose last frame is not acknowledged, oldest first; R238; reset none. -/
  front : List Frame := []
  /-- Frames sent, oldest first: frame word and body; R222, R223; reset none. -/
  sent : List (BitVec 128 × List Byte) := []
  /-- Sequence number that the last frame sent acknowledges; R223; reset 4,095. -/
  ackSent : Nat := 4095
  /-- Bits still to come of a received codeword that could not be corrected; R222; reset 0. -/
  bad : Nat := 0
  /-- Town count up to which an injected error discards every received frame; R437; reset 0. -/
  deafUntil : Nat := 0
  /-- Header of the packet being received and its flits; R226; reset none. -/
  rx : Option Packet := none
  /-- Arrived packets not yet handled, oldest first; R226; reset none. -/
  input : List Packet := []
  /-- Credits held for the next hop, by (vc × 2 + class) × 32 + company; R234; reset 0. -/
  credits : SMap Nat := []
  /-- Allocation n, by vc × 32 + company; R233; reset 0. -/
  alloc : SMap Nat := []
  /-- Credits to return to the other end, by the same index as credits; R234; reset 0. -/
  owed : SMap Nat := []
  /-- Neighbour's chip id and link number; R225; reset none. -/
  neighbour : Option (Nat × Nat) := none
  /-- Probes sent and not answered: number, count and fine; R225; reset none. -/
  probes : List (Nat × Nat × Nat) := []
  /-- Next probe number; R225; reset 0. -/
  probeId : Nat := 0
  /-- One-way delay, 1/1,024 tick; R241; reset 0. -/
  delay : Nat := 0
  deriving DecidableEq, Repr

/-- A scene tree as this chip sees it, and the step's reports (R244). -/
structure Scene where
  root : Nat
  parent : Nat
  margin : Nat
  children : List Nat
  /-- Reports of the step: child, step and epoch; R244, R256. -/
  reports : List (Nat × Nat × Nat) := []
  /-- This chip has reported or, at the root, sent SCENE for this step; R244. -/
  sent : Option Nat := none
  deriving DecidableEq, Repr

/-! ### Reduction -/

/-- The state of a context (R251). -/
inductive ContextState where
  | opened | reducing | updating | landing | landed | cancelled
  deriving DecidableEq, Repr

/-- A shadow record of a sampled element (R265). -/
structure Sample where
  element : Nat
  hop : Bool
  rank : Nat
  value : BitVec 16
  deriving DecidableEq, Repr

/-- One reduction context (R249, R251). -/
structure Context where
  /-- Context record, 1,024 bits; R249; reset 0 (not valid). -/
  record : BitVec 1024 := 0
  /-- Bucket served, by the directory; R254; reset none. -/
  bucket : Option Nat := none
  /-- State; R251; reset OPEN. -/
  state : ContextState := .opened
  /-- Step, 48 bits; R251; reset 0. -/
  step : Nat := 0
  /-- Fill count, in units; R252; reset 0. -/
  fill : Nat := 0
  /-- Triggered in this step, at this town count; R253; reset none. -/
  trigger : Option Nat := none
  /-- Buffer units read; R253; reset 0. -/
  read : Nat := 0
  /-- Own buffer's flits that wait in the adder window: flit number and bytes; R261; reset none. -/
  own : List (Nat × List Byte) := []
  /-- Child flits in the adder window: child, flit number, bytes; R262; reset none. -/
  window : List (Nat × Nat × List Byte) := []
  /-- Lowest flit not yet summed; R262; reset 0. -/
  f0 : Nat := 0
  /-- Flits read or summed that wait for their packet of 32; R260; reset none. -/
  sending : List (List Byte) := []
  /-- Plan in use, and the next step's plan; R259; reset 0. -/
  plan : Nat := 0
  nextPlan : Nat := 0
  /-- A plan was announced for the next step; R259; reset none. -/
  announced : Option Nat := none
  /-- reduce_ticks of each plan when last used in this epoch; R259; reset 0. -/
  planTicks : SMap Nat := []
  /-- Shadow records received; R265; reset none. -/
  samples : List Sample := []
  /-- Exact primary sums Q of sampled elements (own sum at the owner); R266; reset none. -/
  sums : List (Nat × Exact) := []
  /-- Sampled elements settled: element and verdict 0 passed, 1 failed, 2 skipped, 3 incomplete; R266; reset none. -/
  checked : List (Nat × Nat) := []
  /-- Lowest NaR element and NaR count; R267; reset none, 0. -/
  firstNar : Option Nat := none
  narCount : Nat := 0
  /-- Town ticks from the trigger to the last staged gradient; R274; reset 0. -/
  reduceTicks : Nat := 0
  /-- Broadcast flits received, by flit number; R272; reset none. -/
  image : List (Nat × List Byte) := []
  /-- Value units landed; R272; reset 0. -/
  landed : Nat := 0
  /-- A stored broadcast image exists; R268; reset 0. -/
  hasImage : Bool := false
  /-- Town count since which it is outside OPEN and LANDED; R273; reset none. -/
  busySince : Option Nat := none
  /-- Arrival numbers of the bucket read and of the landing at the door buffer; R105; 0. -/
  readOrder : Nat := 0
  landOrder : Nat := 0
  /-- The bucket's update in progress was cancelled; R273; reset 0. -/
  cancelledUpdate : Bool := false
  deriving DecidableEq, Repr

/-- A shadow load of one job (R256): what a LOAD_PLAN or a LOAD_DIRECTORY wrote. -/
structure Load where
  epoch : Nat
  step : Nat
  /-- LOAD_PLAN: the job record. -/
  job : Option (BitVec 1024) := none
  /-- LOAD_PLAN: plan records by plan-store index. -/
  plans : List (Nat × BitVec 256) := []
  /-- LOAD_PLAN: context records by context number. -/
  contexts : List (Nat × BitVec 1024) := []
  /-- LOAD_DIRECTORY: entries by bucket number. -/
  entries : List (Nat × BitVec 64) := []
  deriving DecidableEq, Repr

/-- A job on this chip (R247, R273). -/
structure Job where
  /-- Active job record, 1,024 bits; R247; reset 0 (not valid). -/
  record : BitVec 1024 := 0
  /-- Step of the job: the next scene change ends it, 48 bits; R247; reset 0. -/
  step : Nat := 0
  /-- Last scene change applied ended this step; R287; reset none. -/
  applied : Option Nat := none
  /-- Epoch of the active records, 16 bits; R256; reset 0. -/
  epoch : Nat := 0
  /-- Aborted for its current step with this cause; R273; reset none. -/
  aborted : Option Nat := none
  /-- Scene tree; R244; reset none. -/
  scene : Option Scene := none
  /-- A JOB_ABORT received for a step that the job has not reached; R273; reset none. -/
  abortAt : Option Nat := none
  /-- The scene change due: step, count and epoch; R244, R256; reset none. -/
  due : Option (Nat × Nat × Nat) := none
  /-- Shadow load of LOAD_PLAN; R256; reset none. -/
  planLoad : Option Load := none
  /-- Shadow load of LOAD_DIRECTORY; R256; reset none. -/
  dirLoad : Option Load := none
  deriving DecidableEq, Repr

/-! ### Device -/

/-- The fuses of R407, R2, R3 and R441, and the ROM version: fixed for a part. -/
structure Part where
  /-- Grade: 1 GL1-2048-HX, 2 GL1-1792-HX; R3; DESIGN CHOICE 1. -/
  grade : Nat := 1
  /-- Serial, 128 bits; R407; DESIGN CHOICE 0. -/
  serial : BitVec 128 := 0
  /-- identity_seed, 256 bits; R407; DESIGN CHOICE 0. -/
  identitySeed : BitVec 256 := 0
  /-- ext_authority, 384 bits; R407; DESIGN CHOICE 0. -/
  extAuthority : BitVec 384 := 0
  /-- debug_authority, 384 bits; R407; DESIGN CHOICE 0. -/
  debugAuthority : BitVec 384 := 0
  /-- lifecycle, 8 bits; R407, R419; DESIGN CHOICE PRODUCTION. -/
  lifecycle : Byte := 1
  /-- boot_count, 0 to 4,096; R407; DESIGN CHOICE 1 (one power-on has burned one fuse). -/
  bootCount : Nat := 1
  /-- ROM version, 32 bits; R338; DESIGN CHOICE 1. -/
  rom : Word := 1
  /-- CORE_VID code, 0 to 30; R441, R446; DESIGN CHOICE 20. -/
  vid : Nat := 20
  deriving DecidableEq, Repr

/-- An installed extension package (R414, R416). -/
structure Extension where
  hash : BitVec 384
  id : Word
  version : Word
  /-- Items: kind, number and bytes; R416. -/
  items : List (Nat × Nat × List Byte)
  deriving DecidableEq, Repr

/-- A TEST_PERTURB control slot (R436, R437). -/
structure Perturb where
  kind : Nat := 0
  core : Nat := 0
  company : Nat := 0
  channel : Nat := 0
  sub : Nat := 0
  lane : Nat := 0
  amount : Nat := 0
  /-- Occurrences left; 0xFFFF_FFFF unlimited; R436. -/
  left : Nat := 0
  deriving DecidableEq, Repr

/-- Where an on-chip storage error sits (R393, R394, R401). -/
inductive SramPlace where
  /-- A quarter of a cell's quire, or its status record. -/
  | quire (core quarter cell : Nat)
  | scriptBuffer (core index : Nat)
  | descriptor (core index : Nat)
  /-- Part 0 to 3 function-table slot of the active bank, 4 micro-program store, 5 and 6 quire-lite, 7 statistics; byte offset in it. -/
  | rowStore (core part offset : Nat)
  /-- Active cue by class number of SET_CUE. -/
  | setting (core cls : Nat)
  | street (core channel : Nat)
  | exchangeSram (offset : Nat)
  | managerMemory
  | control (offset : Nat)
  | boot (step : Nat)
  deriving DecidableEq, Repr

/-- Town clock (R240 to R242). -/
structure Town where
  /-- Town count, 64 bits; R240; reset 0. -/
  count : BitVec 64 := 0
  /-- Synchronised; R241; reset 0. -/
  synced : Bool := false
  /-- Time master; R241; reset 0. -/
  master : Bool := false
  /-- Link to the time parent; R241; reset none. -/
  parent : Option Nat := none
  /-- Consecutive TIME frames that agreed, 0 to 3; R241; reset 0. -/
  agreed : Nat := 0
  /-- The count runs on the 100 MHz reference; R242; reset 0. -/
  onReference : Bool := false
  deriving DecidableEq, Repr

/-- The machine. -/
structure State where
  /-- Commands waiting, first in first out; the model's queue; reset empty. -/
  pending : List Instr := []
  /-- The model's counter of free values; DESIGN CHOICE 0. -/
  fresh : Nat := 0
  /-- Fuses, grade and ROM version. -/
  part : Part := {}
  /-- Foyer, Exchange bank, slices and stage stores in one canonical memory; R154, R157, R166, R142; reset zero (R378). -/
  mem : Memory := []
  /-- Storage errors of DRAM units, foyer words and stage-store words: symbols (or bits) in error by flat address; R155, R401; reset none. -/
  upsets : SMap Nat := []
  /-- Errors of the other on-chip stores: the place, and bits in error (1 is corrected, 2 or more is not); R393, R394, R401; reset none. -/
  sram : List (SramPlace × Nat) := []
  /-- The cores, by logical core number; R13; reset each at its own reset values. -/
  cores : SMap Core := []
  /-- The companies, by number 0 to 31; R113; reset UNFORMED. -/
  companies : SMap Company := []
  /-- Street units on links, in order of launch; R163; reset none. -/
  street : List StreetUnit := []
  /-- Carriages not completed, in order of acceptance; R167; reset none. -/
  carriages : List Carriage := []
  /-- Number of the next carriage; reset 0. -/
  nextCarriage : Nat := 0
  /-- Rings: 0 device ring, 1 + c company rings; R322; reset per R324. -/
  rings : SMap Ring := [(0, { state := .opened })]
  /-- Selected interface version, 8 bits; R339; reset 0x00. -/
  interface : Byte := 0
  /-- HP_STATUS.ready; R314; reset 0. -/
  ready : Bool := false
  /-- HP_STATUS.fatal; R314; reset 0. -/
  fatal : Bool := false
  /-- ATTN_MASK bits [32:0]; R314; reset all ones. -/
  attnMask : BitVec 33 := BitVec.allOnes 33
  /-- The chip is held in reset: RESET_N is low, or a rail is below its threshold; R318, R384; reset 0 (DESIGN CHOICE). -/
  resetHeld : Bool := false
  /-- The rails came up against R377: ready stays 0, and the next RESET_N period is a power-on reset; R377; reset 0. -/
  railsBroken : Bool := false
  /-- Ball HOST_RESET_N, true is high; R317; reset high (DESIGN CHOICE). -/
  hostReset : Bool := true
  /-- LPDDR channels 0 to 3; R302; reset not initialised. -/
  channels : SMap Channel := []
  /-- Fatal device record, 2,048 bits; R404; reset 0. -/
  fatalRecord : BitVec 2048 := 0
  /-- Device fault log; R395; reset empty. -/
  log : FaultLog := {}
  /-- Power state; R378, R380; reset: the boot is under way. -/
  power : PowerState := .booting
  /-- A requested transition; R380; reset none. -/
  transition : Option Transition := none
  /-- What the boot under way writes as zero: 2 slices, Exchange bank and foyer (R378), 1 the foyer (R383), 0 nothing (R387); reset 2. -/
  zeroing : Nat := 2
  /-- Districts still power-gated after DIM, the next to wake first; R370; reset none. -/
  waking : List Nat := []
  /-- Town count at which their waves began; R370; reset 0. -/
  wakeSince : Nat := 0
  /-- HOUSE_BUDGET.sustained, 16 bits; R355; reset 950. -/
  sustained : Nat := 950
  /-- HOUSE_BUDGET.peak, 16 bits; R355; reset 1,150. -/
  peak : Nat := 1150
  /-- HOUSE_BUDGET.ramp, 32 bits; R355; reset 50,000. -/
  ramp : Nat := 50000
  /-- HOUSE_BUDGET.fuse_max, 16 bits; R355; 950. -/
  fuseMax : Nat := 950
  /-- Running set; R361; reset empty. -/
  running : List RunEntry := []
  /-- Stretch level, 0 to 2; R373; reset 0. -/
  stretch : Nat := 0
  /-- Triggers present, bit k for code k + 1; R372; reset 0. -/
  triggers : BitVec 4 := 0
  /-- Town counts of the recognition that raised the level to 1, and of the last trigger or fall; R373; reset 0. -/
  stretchAt : Nat := 0
  stretchSince : Nat := 0
  /-- The triggers 50 µs after that recognition are still to be looked at; R373; reset 0. -/
  riseArmed : Bool := false
  /-- Town count of the last fall to level 0; R373; reset none. -/
  fellAt : Option Nat := none
  /-- Latest district readings, 1/16 °C; R360; reset 720 (45 °C, DESIGN CHOICE). -/
  temps : SMap Nat := []
  /-- Latest 1 µs mean of input power, W; R375; reset 0 (DESIGN CHOICE). -/
  watts : Nat := 0
  /-- Consecutive 1 µs means above the sustained threshold, to 10,000; R372; reset 0. -/
  overSustained : Nat := 0
  /-- District event counters, by district × 8 + index; R424; reset 0. -/
  districtCounters : SMap EventCounter := []
  /-- Chip event counters 0 to 63; R424; reset 0. -/
  chipCounters : SMap EventCounter := []
  /-- Chip calibration sets 0 to 63, 256 bits; R215; reset 0. -/
  chipCalSets : SMap (BitVec 256) := []
  /-- Debug scopes held, 16 bits; R422; reset 0. -/
  scope : BitVec 16 := 0
  /-- Outstanding challenge, 32 bytes; R420; reset none. -/
  challenge : Option (List Byte) := none
  /-- Extension packages by position 0 to 15; R414; reset none. -/
  extensions : SMap (Option Extension) := []
  /-- Device measurement chain, 384 bits, and its count; R415; reset 0. -/
  chain : BitVec 384 := 0
  chainCount : Nat := 0
  /-- TEST_PERTURB control slots 0 to 15; R436; reset NONE. -/
  perturb : SMap Perturb := []
  /-- Withholding periods in force: control slot, company, link and virtual channel; R437; reset none. -/
  withheld : List (Nat × Nat × Nat × Nat) := []
  /-- The bottom tree is complete, and its next leaf; R409; reset 0, 0. -/
  bottomTree : Bool := false
  bottomLeaf : Nat := 0
  /-- The draw of the entropy source from which the bottom tree is built and signed; R409; DESIGN CHOICE 0 (the model's own number of a draw). -/
  bottomDraw : Nat := 0
  /-- boot_count at the last power-on before its increment; R409; DESIGN CHOICE 0. -/
  bootLeaf : Nat := 0
  /-- Signing keys derived with context 1 (RETURNED) at this boot; R408; reset 0. -/
  keyContext : Bool := false
  /-- JTAG: selected instruction (0 BYPASS, 1 IDCODE, 2 SAMPLE/PRELOAD, 3 EXTEST); R423; reset 1 (DESIGN CHOICE). -/
  jtagIr : Nat := 1
  /-- JTAG: boundary register and levels driven by EXTEST; R423; reset empty (DESIGN CHOICE). -/
  boundary : List Bool := []
  extestPins : List Bool := []
  /-- JTAG: bits last shifted out on TDO; none is high impedance; R423; reset none. -/
  tdo : Option (List Bool) := none
  /-- SMBus: the last answer; none is a NACK; R446; reset none. -/
  smbus : Option (List Byte) := none
  /-- Town clock. -/
  town : Town := {}
  /-- Chip id, 16 bits; 0xFFFF until assigned; R235; reset 0xFFFF. -/
  chipId : Nat := 0xFFFF
  /-- Links 0 to 15; R220; reset DOWN. -/
  links : SMap Link := []
  /-- Routing tables, active bank, by set × 32,768 + chip, 32 bits; R236; reset every port NONE. -/
  routes : SMap (BitVec 32) := []
  /-- Routing tables, shadow bank; R237; reset every port NONE. -/
  routesShadow : SMap (BitVec 32) := []
  /-- Town count of the next route swap; R237; reset none. -/
  swapAt : Option Nat := none
  /-- Packets waiting at ports, in order; R234; reset none. -/
  outbox : List Packet := []
  /-- Keys already accepted: chip, job, context, step, bucket_seq; R232; reset none. -/
  seen : List (Nat × Nat × Nat × Nat × Nat) := []
  /-- Messages for other stage managers: destination chip and content words; R227 CONTROL; reset none. -/
  messages : List (Nat × List Nat) := []
  /-- Jobs 0 to 255; R247; reset none. -/
  jobs : SMap Job := []
  /-- Contexts 0 to 4,095; R249; reset not valid. -/
  contexts : SMap Context := []
  /-- Plan store, active bank, 65,536 records of 256 bits; R257; reset EMPTY. -/
  plans : SMap (BitVec 256) := []
  /-- Bucket directory, active bank, 2,097,152 entries of 64 bits; R254; reset 0. -/
  directory : SMap (BitVec 64) := []
  /-- Update-engine micro-programs 16 to 255; R269; reset empty. -/
  engine : SMap (Option MicroProgram) := []
  /-- Engine micro-programs queued for the next scene change; R269; none. -/
  engineQueue : List (Nat × MicroProgram) := []
  /-- Next Exchange-bank unit of the patrol scrub; R157; reset 0 (DESIGN CHOICE). -/
  scrubNext : Nat := 0
  deriving DecidableEq, Repr

/-- The machine right after reset: a part whose first power-on reset has ended and whose boot is under way (R378, R387). -/
def State.reset : State := {}

end Sys2Proof.Machine
end

