-- ==== Sys2Proof/Machine/Operands.lean ====
section
/-! DEFINITION. The values the device computes with: posits of every width, the IEEE formats at the boundary,
element types, roundings, the generator of R37, and the fields of a record or an encoding. -/
namespace Sys2Proof.Machine

/-! ### Bits and bytes -/

/-- Bits [lo + w - 1 : lo] of a word as a number (R9). -/
def bitsOf (x lo w : Nat) : Nat := (x >>> lo) % 2 ^ w

/-- A bit of a word (R9). -/
def bitOf (x i : Nat) : Bool := x.testBit i

/-- Little-endian bytes of a number (R9). -/
def toBytes : Nat → Nat → List Byte
  | 0, _ => []
  | n + 1, x => BitVec.ofNat 8 x :: toBytes n (x / 256)

/-- The number little-endian bytes stand for (R9). -/
def ofBytes : List Byte → Nat
  | [] => 0
  | b :: t => b.toNat + 256 * ofBytes t

/-- Most-significant-byte-first bytes of a number (R410). -/
def toBytesBE (n x : Nat) : List Byte := (toBytes n x).reverse

/-- Fields given as value and width, lowest first, put together into a word. -/
def pack : List (Nat × Nat) → Nat
  | [] => 0
  | (v, w) :: t => v % 2 ^ w + 2 ^ w * pack t

/-- A list cut into pieces of a length. -/
def chunks {α : Type} (n : Nat) : Nat → List α → List (List α)
  | 0, _ => []
  | fuel + 1, l => if l.isEmpty || n == 0 then [] else l.take n :: chunks n fuel (l.drop n)

/-- A list lengthened with a filler to a length. -/
def padTo {α : Type} (n : Nat) (d : α) (l : List α) : List α := l ++ List.replicate (n - l.length) d

/-- Ceiling of a quotient. -/
def ceilDiv (a b : Nat) : Nat := (a + b - 1) / b

/-- A logical flag as a number. -/
def b2n (b : Bool) : Nat := if b then 1 else 0

/-! ### Exact values -/

namespace Exact

def zero : Exact := .num 0 0

def isNar : Exact → Bool
  | .nar => true
  | .num _ _ => false

def isZero : Exact → Bool
  | .nar => false
  | .num m _ => m == 0

/-- Real and nonzero (R36). -/
def isReal : Exact → Bool
  | .nar => false
  | .num m _ => m != 0

/-- Negation; NaR and zero are their own (R25). -/
def neg : Exact → Exact
  | .nar => .nar
  | .num m e => .num (-m) e

/-- Exact sum; NaR if an operand is (R29). -/
def add : Exact → Exact → Exact
  | .num a e, .num b f =>
    if e ≤ f then .num (a + b * 2 ^ (f - e).toNat) e else .num (a * 2 ^ (e - f).toNat + b) f
  | _, _ => .nar

/-- Exact product (R29, R53). -/
def mul : Exact → Exact → Exact
  | .num a e, .num b f => .num (a * b) (e + f)
  | _, _ => .nar

/-- A power-of-two scale; NaR and zero are unchanged (R29). -/
def scale (s : Int) : Exact → Exact
  | .nar => .nar
  | .num m e => .num m (e + s)

/-- Order of reals by value. -/
def le : Exact → Exact → Bool
  | .num a e, .num b f => if e ≤ f then decide (a ≤ b * 2 ^ (f - e).toNat) else decide (a * 2 ^ (e - f).toNat ≤ b)
  | .nar, _ => true
  | _, .nar => false

/-- The total order of R27 read as a strict order of reals. -/
def lt (x y : Exact) : Bool := !(le y x)

def abs : Exact → Exact
  | .nar => .nar
  | .num m e => .num m.natAbs e

/-- floor(log2 |x|) of a real nonzero value. -/
def log2 : Exact → Int
  | .nar => 0
  | .num m e => (Nat.log2 m.natAbs : Int) + e

/-- A quotient with `prec` significant bits and a sticky last bit, so that rounding it to odd or to
nearest in a format of fewer bits equals rounding the exact quotient (R32, R198). Division by zero is NaR. -/
def div (prec : Nat) : Exact → Exact → Exact
  | .num a e, .num b f =>
    if b == 0 then .nar
    else if a == 0 then .num 0 0
    else
      let sh := prec + Nat.log2 b.natAbs + 1
      let q := a.natAbs * 2 ^ sh / b.natAbs
      let r := a.natAbs * 2 ^ sh % b.natAbs
      let m : Int := ((2 * q + (if r == 0 then 0 else 1) : Nat) : Int)
      .num (if (a < 0) == (b < 0) then m else -m) (e - f - sh - 1)
  | _, _ => .nar

end Exact

/-! ### Posits -/

/-- A rounding mode (R31 to R33); stochastic rounding carries its draw. -/
inductive Rounding where
  | rne
  | odd
  | stochastic (r : Nat)
  deriving DecidableEq, Repr

/-- Length of the run of equal bits that starts at bit `i - 1` and goes down (R23). -/
def runLength (x : Nat) (b : Bool) : Nat → Nat
  | 0 => 0
  | i + 1 => if x.testBit i == b then 1 + runLength x b i else 0

/-- R23: the value of a posit-n bit string. -/
def posit (n p : Nat) : Exact :=
  let p := p % 2 ^ n
  if p == 0 then Exact.zero
  else if p == 2 ^ (n - 1) then .nar
  else
    let s := p.testBit (n - 1)
    let b := (if s then 2 ^ n - p else p) % 2 ^ (n - 1)
    let r := b.testBit (n - 2)
    let m := runLength b r (n - 1)
    let k : Int := if r then (m : Int) - 1 else -(m : Int)
    let rest := n - 1 - m - 1
    let tail := b % 2 ^ rest
    let e := if rest ≥ 2 then tail >>> (rest - 2) else tail <<< (2 - rest)
    let fb := rest - 2
    let f := if rest ≥ 2 then tail % 2 ^ fb else 0
    let mag : Int := ((2 ^ fb + f : Nat) : Int)
    .num (if s then -mag else mag) (4 * k + e - fb)

/-- R30 steps 1 to 4 for a magnitude m · 2^e (m > 0): the magnitude string of posit-n. -/
def roundMag (n : Nat) (md : Rounding) (m : Nat) (e : Int) : Nat :=
  let lg := Nat.log2 m
  let sc : Int := (lg : Int) + e
  let k := sc.fdiv 4
  let ex := (sc - 4 * k).toNat
  let (reg, rl) := if k ≥ 0 then ((2 ^ (k.toNat + 1) - 1) * 2, k.toNat + 2) else (1, (-k).toNat + 1)
  let body := ((reg * 4 + ex) <<< lg) + (m - 2 ^ lg)
  let len := rl + 2 + lg
  let keep := n - 1
  let up :=
    if len ≤ keep then body <<< (keep - len)
    else
      let d := len - keep
      let kept := body >>> d
      let disc := body % 2 ^ d
      match md with
      | .rne => if disc > 2 ^ (d - 1) || (disc == 2 ^ (d - 1) && kept % 2 == 1) then kept + 1 else kept
      | .odd => if disc != 0 && kept % 2 == 0 then kept + 1 else kept
      | .stochastic r =>
        let t := if d ≥ 16 then disc >>> (d - 16) else disc <<< (16 - d)
        if t + r ≥ 2 ^ 16 then kept + 1 else kept
  if up ≥ 2 ^ (n - 1) then 2 ^ (n - 1) - 1 else if up == 0 then 1 else up

/-- R30: an exact value rounded to posit-n. Zero and NaR pass unchanged. -/
def roundPosit (n : Nat) (md : Rounding) : Exact → Nat
  | .nar => 2 ^ (n - 1)
  | .num m e =>
    if m == 0 then 0
    else
      let mag := roundMag n md m.natAbs e
      if m < 0 then 2 ^ n - mag else mag

/-- maxpos of posit-n as an exponent of two (R24). -/
def maxposExp (n : Nat) : Int := 4 * ((n : Int) - 2)

/-- Width n of a format code (R21); 0 for the reserved code. -/
def formatBits (code : Nat) : Nat := if code == 1 then 8 else if code == 2 then 16 else if code == 3 then 32 else 0

/-- R169: wide-form value, and rounding to odd in wide form (R35). -/
def wideVal (w : Wide) : Exact := posit 64 w.toNat
def toWide (x : Exact) : Wide := BitVec.ofNat 64 (roundPosit 64 .odd x)
def wideNar : Wide := BitVec.ofNat 64 (2 ^ 63)

/-- R27: the order of two posits of one width. -/
def wideLe (a b : Wide) : Bool := BitVec.sle a b

/-- R28: max and min ignore a NaR operand. -/
def wideMax (a b : Wide) : Wide :=
  if a = wideNar then b else if b = wideNar then a else if wideLe a b then b else a
def wideMin (a b : Wide) : Wide :=
  if a = wideNar then b else if b = wideNar then a else if wideLe a b then a else b

/-! ### The generator (R37) -/

/-- R37: the mixing function. -/
def mix (z : BitVec 64) : BitVec 64 :=
  let z := (z ^^^ (z >>> 30)) * 0xBF58476D1CE4E5B9#64
  let z := (z ^^^ (z >>> 27)) * 0x94D049BB133111EB#64
  z ^^^ (z >>> 31)

/-- R37: the 16-bit draw of an element. -/
def draw (seed : BitVec 64) (step tensor index : Nat) : Nat :=
  let w0 := BitVec.ofNat 64 (step % 2 ^ 48 + (tensor % 2 ^ 16) * 2 ^ 48)
  let w1 := BitVec.ofNat 64 (bitsOf tensor 16 8 + (index % 2 ^ 40) * 2 ^ 8)
  ((mix (mix (seed ^^^ w0) ^^^ w1)) >>> 48).toNat

/-! ### IEEE 754 at the boundary (R39 to R42) -/

/-- An IEEE value: NaN and infinity both become NaR on ingest (R39). -/
def ieeeVal (eb fb x : Nat) : Exact :=
  let f := x % 2 ^ fb
  let ex := bitsOf x fb eb
  let s := x.testBit (eb + fb)
  let bias : Int := 2 ^ (eb - 1) - 1
  if ex == 2 ^ eb - 1 then .nar
  else
    let mag : Int := if ex == 0 then (f : Int) else ((2 ^ fb + f : Nat) : Int)
    let e : Int := (if ex == 0 then 1 else (ex : Int)) - bias - fb
    .num (if s then -mag else mag) e

/-- R41: roundTiesToEven of a nonzero magnitude m · 2^e; answers the encoding without its sign. -/
def ieeeRound (eb fb : Nat) (m : Nat) (e : Int) : Nat :=
  let bias : Int := 2 ^ (eb - 1) - 1
  let sc : Int := (Nat.log2 m : Int) + e
  let emin : Int := 1 - bias
  let q : Int := (if sc < emin then emin else sc) - fb
  let sh := e - q
  let sig :=
    if sh ≥ 0 then m * 2 ^ sh.toNat
    else
      let d := (-sh).toNat
      let kept := m >>> d
      let disc := m % 2 ^ d
      if disc > 2 ^ (d - 1) || (disc == 2 ^ (d - 1) && kept % 2 == 1) then kept + 1 else kept
  let enc : Int := if sc < emin then (sig : Int) else (sc + bias - 1) * 2 ^ fb + sig
  let top : Int := (2 ^ eb - 1) * 2 ^ fb
  (if enc > top then top else enc).toNat

/-- R41, R42: an exact posit value exported to an IEEE format. -/
def toIeee (eb fb : Nat) : Exact → Nat
  | .nar => (2 ^ eb - 1) * 2 ^ fb + 2 ^ (fb - 1)
  | .num m e =>
    if m == 0 then 0
    else ieeeRound eb fb m.natAbs e + (if m < 0 then 2 ^ (eb + fb) else 0)

/-! ### Element types (R148, R149) -/

/-- Bytes of an element type (R148). -/
def typeBytes (t : Nat) : Nat :=
  if t == 0 || t == 1 then 1 else if t == 2 || t == 5 || t == 6 then 2 else if t == 3 || t == 4 then 4 else 0

/-- Posit width of a posit element type, 0 for the others (R148). -/
def typePosit (t : Nat) : Nat := if t == 1 then 8 else if t == 2 then 16 else if t == 3 then 32 else 0

/-- IEEE exponent and fraction widths of an IEEE element type (R148). -/
def typeIeee (t : Nat) : Option (Nat × Nat) :=
  if t == 4 then some (8, 23) else if t == 5 then some (5, 10) else if t == 6 then some (8, 7) else none

/-- R149: whether a combination of source type, destination type and rounding is legal. -/
def typesLegal (src dst rnd : Nat) : Bool :=
  if src > 6 || dst > 6 || rnd > 1 then false
  else if src == dst then rnd == 0
  else if typePosit src != 0 && typePosit dst != 0 then
    if typePosit src > typePosit dst then true else rnd == 0
  else if typePosit src != 0 && (typeIeee dst).isSome then rnd == 0
  else if (typeIeee src).isSome && typePosit dst != 0 then rnd == 0
  else false

/-- Counts of a conversion (R36, R41, R29): converted, clipped, lifted, scale clamps, overflowed, flushed, NaR seen. -/
structure ConvCount where
  converted : Nat := 0
  clipped : Nat := 0
  lifted : Nat := 0
  clamp : Nat := 0
  overflowed : Nat := 0
  flushed : Nat := 0
  nar : Nat := 0
  deriving DecidableEq, Repr

def ConvCount.add (a b : ConvCount) : ConvCount :=
  ⟨a.converted + b.converted, a.clipped + b.clipped, a.lifted + b.lifted, a.clamp + b.clamp,
   a.overflowed + b.overflowed, a.flushed + b.flushed, a.nar + b.nar⟩

/-- R36: the counts of rounding an exact value to posit-n; `scaled` is whether a saturation is a scale clamp (R58). -/
def positCount (n : Nat) (scaled : Bool) (x : Exact) : ConvCount :=
  match x with
  | .nar => { nar := 1 }
  | .num m e =>
    if m == 0 then {}
    else
      let a : Exact := .num m.natAbs e
      let clip := Exact.lt (.num 1 (maxposExp n)) a
      let lift := Exact.lt a (.num 1 (-(maxposExp n)))
      { converted := 1, clipped := b2n clip, lifted := b2n lift, clamp := b2n (scaled && (clip || lift)) }

/-- One element converted from a source to a destination type (R149): encoding and counts. Copies count nothing. -/
def convertElement (src dst rnd r x : Nat) : Nat × ConvCount :=
  if src == dst then (x, {})
  else
    let v := if typePosit src != 0 then posit (typePosit src) x
      else match typeIeee src with | some (eb, fb) => ieeeVal eb fb x | none => .nar
    if typePosit dst != 0 then
      let n := typePosit dst
      let c := positCount n false v
      if typePosit src != 0 then (roundPosit n (if rnd == 1 then .stochastic r else .rne) v, c)
      else (roundPosit n .rne (posit 40 (roundPosit 40 .odd v)), c)
    else match typeIeee dst with
      | none => (x, {})
      | some (eb, fb) =>
        let y := toIeee eb fb v
        let mag := y % 2 ^ (eb + fb)
        match v with
        | .nar => (y, { nar := 1 })
        | .num m _ =>
          if m == 0 then (y, {})
          else (y, { converted := 1, overflowed := b2n (mag == (2 ^ eb - 1) * 2 ^ fb), flushed := b2n (mag == 0) })

/-- A run of elements converted, with stochastic draws from an index on (R37): destination bytes and counts. -/
def convertRun (src dst rnd : Nat) (seed : BitVec 64) (step tensor : Nat) : Nat → List (List Byte) → List Byte × ConvCount
  | _, [] => ([], {})
  | i, el :: t =>
    let (y, c) := convertElement src dst rnd (if rnd == 1 then draw seed step tensor i else 0) (ofBytes el)
    let (ys, cs) := convertRun src dst rnd seed step tensor (i + 1) t
    (toBytes (typeBytes dst) y ++ ys, c.add cs)

end Sys2Proof.Machine
end

