-- ==== Sys2Proof/Machine/Library.lean ====
section
/-! DEFINITION. The row unit's library: the exact functions to far more bits than any format holds, the ROM tables and
their headers, the seed and the guard, and the guarded evaluation (R186 to R194). -/
namespace Sys2Proof.Machine

/-! ### The functions

Each answers an `Exact` that rounds in every format of at most 64 bits as the function's real value does: an exact
value where the result is a binary fraction, else a value of some 800 bits whose last bit is a sticky one. -/

namespace Fn

/-- Fraction bits of the fixed-point values. -/
def prec : Nat := 800
def one : Nat := 2 ^ 800

/-- The sum of t^j / j! from the term on. -/
def expSeries (t : Nat) : Nat → Nat → Nat → Nat
  | 0, _, _ => 0
  | fuel + 1, term, j => if term == 0 then 0 else term + expSeries t fuel (term * t / one / j) (j + 1)

/-- Σ p·z^j / (2j + 1) with p the present power. -/
def atanhSeries (z2 : Nat) : Nat → Nat → Nat → Nat
  | 0, _, _ => 0
  | fuel + 1, p, j => if p == 0 then 0 else p / j + atanhSeries z2 fuel (p * z2 / one) (j + 2)

/-- Σ ±p·z^j / (2j + 1). -/
def atanSeries (z2 : Nat) : Nat → Nat → Nat → Int
  | 0, _, _ => 0
  | fuel + 1, p, j => if p == 0 then 0 else (p / j : Nat) - atanSeries z2 fuel (p * z2 / one) (j + 2)

/-- The sum of x^(2j+1) / (2j+1)!! from the term on. -/
def gaussSeries (x2 : Nat) : Nat → Nat → Nat → Nat
  | 0, _, _ => 0
  | fuel + 1, term, j => if term == 0 then 0 else term + gaussSeries x2 fuel (term * x2 / one / j) (j + 2)

def ln2 : Nat := 2 * atanhSeries (one / 9) 300 (one / 3) 1
def log2e : Nat := one * one / ln2
def pi : Nat := (16 * atanSeries (one / 25) 400 (one / 5) 1 - 4 * atanSeries (one / 57121) 200 (one / 239) 1).toNat

/-- Newton's integer square root from above. -/
def sqrtFrom (n : Nat) : Nat → Nat → Nat
  | 0, x => x
  | fuel + 1, x => let y := (x + n / x) / 2; if y ≥ x then x else sqrtFrom n fuel y

def isqrt (n : Nat) : Nat := if n == 0 then 0 else sqrtFrom n 64 (2 ^ (Nat.log2 n / 2 + 1))

/-- A fixed-point value with its sticky bit: an inexact result of the scale 2^(-prec + e). -/
def sticky (v : Nat) (e : Int) : Exact := .num (2 * (v : Int) + 1) (e - prec - 1)

/-- Values that stand for a result beyond every format, next to 0 and next to 1. -/
def tiny : Exact := .num 1 (-300)
def huge : Exact := .num 1 300
def belowOne : Exact := .num (2 ^ 300 - 1) (-300)

/-- The real m · 2^e as a fixed-point number. -/
def fixed (m e : Int) : Int := if e + prec ≥ 0 then m * 2 ^ (e + prec).toNat else m / 2 ^ (-(e + prec)).toNat

/-- 2 to the power y / one, for |y| below 2^10. -/
def pow2 (y : Int) (exact : Bool) : Exact :=
  let n := y / (one : Int)
  let r := (y - n * (one : Int)).toNat
  if exact && r == 0 then .num 1 n
  else sticky (expSeries (r * ln2 / one) 300 one 1) n

def isBig (m e : Int) (bits : Int) : Bool := decide (m != 0) && decide ((Nat.log2 m.natAbs : Int) + e ≥ bits)

def exp2 : Exact → Exact
  | .nar => .nar
  | .num m e => if isBig m e 10 then (if m > 0 then huge else tiny) else pow2 (fixed m e) true

def exp : Exact → Exact
  | .nar => .nar
  | .num m e =>
    if m == 0 then .num 1 0
    else if isBig m e 9 then (if m > 0 then huge else tiny)
    else pow2 (fixed m e * (log2e : Int) / (one : Int)) false

def recip (x : Exact) : Exact := Exact.div 200 (.num 1 0) x

def rsqrt : Exact → Exact
  | .nar => .nar
  | .num m e =>
    if m ≤ 0 then .nar
    else
      let (m, e) := if e % 2 == 0 then (m, e) else (2 * m, e - 1)
      let q := 2 ^ 800 / m.natAbs
      let r := isqrt q
      .num (2 * (r : Int) + (if r * r * m.natAbs == 2 ^ 800 then 0 else 1)) (-401 - e / 2)

def log2 : Exact → Exact
  | .nar => .nar
  | .num m e =>
    if m ≤ 0 then .nar
    else
      let lg := Nat.log2 m.natAbs
      let g := m.natAbs * one / 2 ^ lg
      let n : Int := (lg : Int) + e
      if g == one then .num n 0
      else
        let z := (g - one) * one / (g + one)
        let ln := 2 * atanhSeries (z * z / one) 300 z 1
        .num (2 * (n * (one : Int) + (ln * one / ln2 : Nat)) + 1) (-(prec : Int) - 1)

def tanh : Exact → Exact
  | .nar => .nar
  | .num m e =>
    if m == 0 then .num 0 0
    else
      let t :=
        if isBig m e 7 then belowOne
        else
          let y := exp (.num (2 * m.natAbs) e)
          Exact.div 700 (y.add (.num (-1) 0)) (y.add (.num 1 0))
      if m < 0 then t.neg else t

def sigmoid : Exact → Exact
  | .nar => .nar
  | .num m e =>
    if isBig m e 8 then (if m > 0 then belowOne else tiny)
    else Exact.div 700 (.num 1 0) ((exp (.num (-m) e)).add (.num 1 0))

/-- The standard normal distribution function. -/
def phi : Exact → Exact
  | .nar => .nar
  | .num m e =>
    if m == 0 then .num 1 (-1)
    else if Exact.le (.num 24 0) (.num m.natAbs e) then (if m > 0 then belowOne else tiny)
    else
      let x := (fixed m.natAbs e).toNat
      let x2 := x * x / one
      let s := gaussSeries x2 1400 x 3
      let root := isqrt (2 * pi * one)
      let d : Exact := ((exp (.num (-(x2 : Int)) (-(prec : Int) - 1))).mul (.num s (-(prec : Int))))
      let half := Exact.div 1400 d (.num root (-(prec : Int)))
      (Exact.num 1 (-1)).add (if m > 0 then half else half.neg)

def gelu (x : Exact) : Exact :=
  if x.isNar then .nar
  else if Exact.le x (.num (-24) 0) then tiny.neg
  else x.mul (phi x)

def silu (x : Exact) : Exact :=
  if x.isNar then .nar
  else if Exact.le x (.num (-256) 0) then tiny.neg
  else x.mul (sigmoid x)

end Fn

/-- R192, R193: library function or ROM table k applied exactly. -/
def libraryExact (k : Nat) (x : Exact) : Exact :=
  match k with
  | 0 => if x.isZero then .nar else Fn.recip x
  | 1 => Fn.rsqrt x
  | 2 => Fn.exp2 x
  | 3 => Fn.log2 x
  | 4 => Fn.exp x
  | 5 => Fn.tanh x
  | 6 => Fn.sigmoid x
  | 7 => Fn.gelu x
  | 8 => Fn.silu x
  | 9 => Fn.phi x
  | _ => .nar

/-! ### Tables (R186, R187, R192) -/

/-- The direction of a guard (R175, R192). -/
inductive Direction where
  | none | increasing | decreasing | decreasingEachSign
  deriving DecidableEq, Repr

def Direction.ofCode (c : Nat) : Direction :=
  if c == 1 then .increasing else if c == 2 then .decreasing else if c == 3 then .decreasingEachSign else .none

/-- The direction of a library function (R192). -/
def libraryDirection (k : Nat) : Direction :=
  if k == 0 then .decreasingEachSign else if k == 1 then .decreasing else if k ≤ 6 then .increasing else .none

/-- R186: seam x_i. -/
def seam (i : Nat) : Exact := if i == 0 then .num (-1) 248 else posit 16 ((32 * i) ^^^ 0x8000)

/-- R186: entry i of ROM table k. -/
def romEntry (k i : Nat) : Word :=
  if k == 0 && i == 1024 then 0x7FFFFFFF
  else if k == 1 && i ≤ 1024 then 0x7FFFFFFF
  else if k == 3 && i ≤ 1024 then 0x80000001
  else BitVec.ofNat 32 (roundPosit 32 .rne (libraryExact k (seam i)))

/-- R192: end_value of ROM table k. -/
def romEnd (k : Nat) : Word :=
  match k with
  | 0 | 1 => 0x00000001
  | 2 | 4 | 7 | 8 => 0x7FFFFFFF
  | 3 => 0x6FC00000
  | _ => 0x40000000

/-- R192: header of ROM table k. -/
def romHeader (k : Nat) : BitVec 128 :=
  let inc := k == 2 || k == 3 || k == 4 || k == 5 || k == 6 || k == 9
  BitVec.ofNat 128 (pack [((romEnd k).toNat, 32), (if k == 0 then 0x80000001 else 0x80000000, 32), (b2n (k == 0), 1),
    (b2n inc, 1), (b2n (k == 1), 1), (b2n (k == 0), 1)])

/-- R187: ROM table k as the image of a slot. -/
def romTable (k : Nat) : Table := { header := romHeader k, entries := (List.range 2048).map (romEntry k) }

/-- A table a step names: a ROM table, or a slot's (R176 src). -/
inductive TableRef where
  | rom (k : Nat)
  | slot (t : Table)
  deriving DecidableEq, Repr

def TableRef.header : TableRef → Nat
  | .rom k => (romHeader k).toNat
  | .slot t => t.header.toNat

/-- Seam value i in wide form. -/
def TableRef.value (r : TableRef) (i : Nat) : Wide :=
  toWide (posit 32 (match r with
    | .rom k => (romEntry k i).toNat
    | .slot t => (t.entries.getD i 0x80000000).toNat))

/-- The monotonicity bit of a direction (R187, R189). -/
def TableRef.bit (r : TableRef) : Direction → Bool
  | .increasing => r.header.testBit 65
  | .decreasing => r.header.testBit 66
  | .decreasingEachSign => r.header.testBit 67
  | .none => false

/-- R188: the segment of a wide value. -/
def segment (x : Wide) : Nat := bitsOf (x ^^^ 0x8000000000000000).toNat 53 11

/-- R188: upper end of a segment. -/
def TableRef.upper (r : TableRef) (i : Nat) : Wide :=
  if i == 2047 then toWide (posit 32 (bitsOf r.header 0 32))
  else if i == 1023 && r.header.testBit 64 then toWide (posit 32 (bitsOf r.header 32 32))
  else r.value (i + 1)

/-- R188: the seed of a value from a table. -/
def seed (x : Wide) (r : TableRef) : Wide :=
  if x = wideNar then wideNar
  else
    let i := segment x
    let lo := wideVal (r.value i)
    let d := wideVal (toWide ((wideVal (r.upper i)).add lo.neg))
    toWide ((d.mul (.num (x.toNat % 2 ^ 53 : Nat) (-53))).add lo)

/-- R189: the guard; the second component says that a missing monotonicity bit made the result NaR. -/
def guard (y x : Wide) (r : TableRef) (dir : Direction) : Wide × Bool :=
  if x = wideNar ∨ y = wideNar then (y, false)
  else if !r.bit dir then (wideNar, true)
  else
    let i := segment x
    let lo := r.value i
    let hi := r.upper i
    if dir = .increasing then (wideMin (wideMax y lo) hi, false)
    else if dir = .decreasingEachSign ∧ i = 1023 then (wideMin y lo, false)
    else (wideMax (wideMin y lo) hi, false)

/-! ### Evaluation (R192 to R194) -/

/-- R194: the accuracy of function k in posit-n, in ulps; 0 stands for 0.5, correctly rounded. -/
def libraryUlps (k n : Nat) : Nat :=
  match k with
  | 0 => if n == 32 then 1 else 0
  | 1 => if n == 8 then 0 else 1
  | 2 | 3 => if n == 8 then 0 else if n == 16 then 1 else 2
  | 4 | 5 | 6 => if n == 32 then 2 else 1
  | _ => if n == 8 then 1 else if n == 16 then 2 else 4

/-- The ulp of posit-n at a nonzero value: the distance between the posits on its two sides, at or below it in magnitude. -/
def ulpAt (n : Nat) (x : Exact) : Exact :=
  let a := x.abs
  let p := roundPosit n .rne a
  let p := if Exact.lt a (posit n p) then p - 1 else p
  let p := if p == 0 then 1 else if p ≥ 2 ^ (n - 1) - 1 then 2 ^ (n - 1) - 2 else p
  (posit n (p + 1)).add (posit n p).neg

/-- The value clipped to the range of posit-n (R30). -/
def clipTo (n : Nat) (x : Exact) : Exact :=
  if positCount n false x = { converted := 1, clipped := 1 } ∨ positCount n false x = { converted := 1, lifted := 1 } then
    posit n (roundPosit n .rne x)
  else x

/-- R194: whether a wide result is one the spec allows for function k on a posit-n input with exact result f. -/
def libraryAccurate (k n : Nat) (f : Exact) (y : Wide) : Bool :=
  if y = wideNar then false
  else
    let r := roundPosit n .rne (wideVal y)
    let u := libraryUlps k n
    if u == 0 || f.isZero then r == roundPosit n .rne f
    else Exact.le ((posit n r).add (clipTo n f).neg).abs ((ulpAt n f).mul (.num u 0))

/-- R190: a wide result whose error against the exact result f is below 2^-55 relative. -/
def wideClose (f : Exact) (y : Wide) : Bool :=
  y != wideNar && (if f.isZero then (wideVal y).isZero else Exact.lt ((wideVal y).add f.neg).abs (f.abs.mul (.num 1 (-55))))

/-- R192: an unguarded evaluation inside the row unit. The bits are the ROM version's; the model's free value stands where it keeps
the wide-form error of R190, and the exact result rounded to odd where it does not. -/
def evalInner (k n : Nat) (x : Wide) : Wide :=
  let f := libraryExact k (wideVal x)
  if f.isNar then wideNar
  else
    let y := Config.libraryValue k n x
    if wideClose f y then y else toWide f

/-- R192, R193: EVAL k of a wide value in a call of posit-n. -/
def evalLibrary (k n : Nat) (x : Wide) : Wide :=
  let f := libraryExact k (wideVal x)
  if f.isNar then wideNar
  else
    let g (y : Wide) : Wide := if libraryDirection k = .none then y else (guard y x (.rom k) (libraryDirection k)).1
    let y := g (evalInner k n x)
    let onGrid := toWide (posit n (roundPosit n .rne (wideVal x))) == x
    if onGrid && !libraryAccurate k n f y then g (toWide f) else y

end Sys2Proof.Machine
end

