-- ==== Sys2Proof/Machine/Flags.lean ====
section
/-! DEFINITION. The quire: slots, status records and their flags, the exact group of a step, and the value a
strike reads (R44 to R61); the quire-lite registers use the same rules (R171). -/
namespace Sys2Proof.Machine

/-! ### Slots (R44, R45) -/

/-- Width of a slot in bits, 0 for a reserved code (R44). -/
def slotBits (code : Nat) : Nat :=
  match code / 4 with
  | 1 => 128
  | 2 => if code % 4 ≤ 1 then 256 else 0
  | 3 => if code % 4 == 0 then 512 else 0
  | _ => 0

/-- First bit of a slot in the cell's 512 bits (R44). -/
def slotLow (code : Nat) : Nat := slotBits code * (code % 4)

/-- First quarter and number of quarters of a slot (R44). -/
def slotQuarter (code : Nat) : Nat := slotLow code / 128
def slotQuarters (code : Nat) : Nat := slotBits code / 128

/-- R60: two slots share a quarter. -/
def slotsOverlap (a b : Nat) : Bool :=
  decide (slotQuarter a < slotQuarter b + slotQuarters b) && decide (slotQuarter b < slotQuarter a + slotQuarters a)

/-- The bits of a slot as a two's-complement number (R45). -/
def slotValue (w bits : Nat) : Int := if bits ≥ 2 ^ (w - 1) then (bits : Int) - 2 ^ w else bits

/-- Exponent of a slot's bit 0: 16 - 8m (R45). -/
def slotExp (w : Nat) : Int := 16 - 8 * ((w : Int) / 16)

/-- The quire NaR pattern of a width (R45). -/
def slotNar (w : Nat) : Nat := 2 ^ (w - 1)

/-! ### Status records (R54) -/

/-- A status record in fields. -/
structure Status where
  count : Nat := 0
  lapsed : Bool := false
  overflow : Bool := false
  negative : Bool := false
  nar : Bool := false
  deriving DecidableEq, Repr

/-- R54: a status record from its 64 bits. -/
def Status.ofBits (x : BitVec 64) : Status :=
  ⟨x.toNat % 2 ^ 31, x.toNat.testBit 32, x.toNat.testBit 33, x.toNat.testBit 34, x.toNat.testBit 35⟩

/-- R54: the 64 bits of a status record; reserved bits are zero. -/
def Status.bits (s : Status) : BitVec 64 :=
  BitVec.ofNat 64 (pack [(s.count, 31), (0, 1), (b2n s.lapsed, 1), (b2n s.overflow, 1), (b2n s.negative, 1), (b2n s.nar, 1)])

/-- R51: the largest product count. -/
def countMax : Nat := 2 ^ 31 - 1

/-- R48 to R53: a group of exact products added to a slot of width `w` with its status; `n` is how many the
counter counts. Answers the new bits and status. -/
def addGroup (w bits : Nat) (st : Status) (products : List Exact) : Nat × Status :=
  let c := st.count + products.length
  let st := { st with count := min c countMax, lapsed := st.lapsed || decide (c > countMax) }
  if st.nar then (bits, st)
  else if products.any Exact.isNar then (slotNar w, { st with nar := true })
  else if st.overflow then (bits, st)
  else
    match products.foldl Exact.add Exact.zero with
    | .nar => (bits, st)
    | .num m e =>
      let sh := e - slotExp w
      let units : Int := if sh ≥ 0 then m * 2 ^ sh.toNat else m / 2 ^ (-sh).toNat
      let v := slotValue w bits + units
      if v > 2 ^ (w - 1) - 1 || v ≤ -(2 ^ (w - 1)) then
        (bits, { st with overflow := true, negative := decide (v < 0) })
      else ((v % 2 ^ w).toNat, st)

/-- R56: the exact value a slot reads out, before scale, bias and activation. -/
def readSlot (w bits : Nat) (st : Status) : CellVal :=
  if st.nar then .value .nar
  else if st.overflow then .overflow st.negative
  else .value (.num (slotValue w bits) (slotExp w))

/-! ### A core's quire -/

/-- The bits of a cell's slot. -/
def Core.slot (k : Core) (cell code : Nat) : Nat :=
  bitsOf (SMap.get 0 k.quire cell).toNat (slotLow code) (slotBits code)

/-- The bits of a cell's slot replaced. -/
def Core.setSlot (k : Core) (cell code v : Nat) : Core :=
  let q := (SMap.get 0 k.quire cell).toNat
  let lo := slotLow code
  let w := slotBits code
  let q' := q - bitsOf q lo w * 2 ^ lo + (v % 2 ^ w) * 2 ^ lo
  { k with quire := SMap.set 0 k.quire cell (BitVec.ofNat 512 q') }

/-- R46: a slot's status record is that of its lowest quarter. -/
def Core.status (k : Core) (cell code : Nat) : Status :=
  .ofBits (SMap.get 0 k.qstatus (cell * 4 + slotQuarter code))

def Core.setStatus (k : Core) (cell code : Nat) (s : Status) : Core :=
  { k with qstatus := SMap.set 0 k.qstatus (cell * 4 + slotQuarter code) s.bits }

/-- R49: an overwrite makes the slot exact zero and clears the records of every quarter it covers. -/
def Core.clearSlot (k : Core) (cell code : Nat) : Core :=
  let k := k.setSlot cell code 0
  let q := (List.range (slotQuarters code)).foldl
    (fun q i => SMap.set 0 q (cell * 4 + slotQuarter code + i) 0) k.qstatus
  { k with qstatus := q }

/-- R48: a step's group landing in one cell. -/
def Core.landGroup (k : Core) (cell code : Nat) (products : List Exact) : Core :=
  let (v, st) := addGroup (slotBits code) (k.slot cell code) (k.status cell code) products
  (k.setSlot cell code v).setStatus cell code st

end Sys2Proof.Machine
end

