-- ==== Sys2Proof/Machine/Ops.lean ====
section
/-! DEFINITION. The named operations over the state: memory spaces and their errors, cores and companies, rings and
records, event counters and calibration sets, fault records. -/
namespace Sys2Proof.Machine

/-- What a meaning answers. -/
abbrev Answer := Host.Outcome State Fault Refusal

/-! ### Status codes of a completion (R331) -/

namespace St
def ok : Nat := 0
def badOpcode : Nat := 1
def badVersion : Nat := 2
def reservedSet : Nat := 3
def badSize : Nat := 4
def noResource : Nat := 5
def busy : Nat := 6
def denied : Nat := 7
def halted : Nat := 8
def signature : Nat := 9
def wrongState : Nat := 10
def uncorrectable : Nat := 11
end St

/-- What a check finds: nothing, or the status and the fault_offset of the first field that failed (R330, R334). -/
abbrev Check := Option (Nat × Nat)

/-- fault_offset where no field failed (R334). -/
def noField : Nat := 0xFFFFFFFF

/-- A condition that must hold, with the status and offset if it does not. -/
def need (b : Bool) (status offset : Nat) : Check := if b then none else some (status, offset)

/-- The first failure of a list of checks. -/
def firstFail (l : List Check) : Check := l.findSome? id

/-! ### Memory (R142, R154, R157, R166) -/

/-- The byte spaces. -/
inductive Space where
  | foyer
  | exchange
  | slice (core : Nat)
  | store (core : Nat)
  deriving DecidableEq, Repr

/-- First flat address of a space. -/
def Space.base : Space → Nat
  | .foyer => 0
  | .exchange => 2 ^ 34
  | .slice c => 2 ^ 40 + c * 2 ^ 26
  | .store c => 2 ^ 52 + c * 2 ^ 16

/-- Bytes of a space: 64 MiB, 8 GiB, 48 MiB, 64 KiB (R166, R157, R154, R142). -/
def Space.size : Space → Nat
  | .foyer => 2 ^ 26
  | .exchange => 2 ^ 33
  | .slice _ => 786432 * 64
  | .store _ => 2 ^ 16

namespace Memory

/-- One byte; an unlisted byte reads zero. -/
def read (m : Memory) (a : Nat) : Byte := SMap.get 0 m a

/-- One byte written. -/
def write (m : Memory) (a : Nat) (v : Byte) : Memory := SMap.set 0 m a v

/-- Bytes from an address on. -/
def readBytes (m : Memory) (a : Nat) : Nat → List Byte
  | 0 => []
  | n + 1 => read m a :: readBytes m (a + 1) n

/-- Bytes written from an address on. -/
def writeBytes (m : Memory) (a : Nat) : List Byte → Memory
  | [] => m
  | b :: t => writeBytes (write m a b) (a + 1) t

/-- The canonical form of memory. -/
def wf (m : Memory) : Bool := SMap.canon 0 m

end Memory

namespace State

/-- Bytes of a space. -/
def bytes (s : State) (sp : Space) (off n : Nat) : List Byte := Memory.readBytes s.mem (sp.base + off) n

/-- Bytes of a space written. -/
def putBytes (s : State) (sp : Space) (off : Nat) (d : List Byte) : State :=
  { s with mem := Memory.writeBytes s.mem (sp.base + off) d }

/-- A stage-store word; addresses wrap modulo 64 KiB (R122, R67). -/
def word (s : State) (core w : Nat) : Word :=
  BitVec.ofNat 32 (ofBytes (s.bytes (.store core) (4 * (w % 16384)) 4))

/-- Consecutive stage-store words. -/
def words (s : State) (core w n : Nat) : List Word := (List.range n).map (fun i => s.word core (w + i))

/-- A stage-store word written. -/
def putWord (s : State) (core w : Nat) (v : Word) : State :=
  s.putBytes (.store core) (4 * (w % 16384)) (toBytes 4 v.toNat)

/-- Symbols in error of the unit at an offset of a space (R155, R401). -/
def upset (s : State) (sp : Space) (off : Nat) : Nat := SMap.get 0 s.upsets (sp.base + off)

def setUpset (s : State) (sp : Space) (off n : Nat) : State :=
  { s with upsets := SMap.set 0 s.upsets (sp.base + off) n }

/-- R401: the errors of on-chip stores at some places: the first that is not corrected, and the number corrected. -/
def sramErrors (s : State) (here : SramPlace → Bool) : Option SramPlace × Nat :=
  let es := s.sram.filter (fun e => here e.1)
  ((es.find? (fun e => decide (e.2 ≥ 2))).map (·.1), es.countP (fun e => e.2 == 1))

/-- R401: places written anew lose their errors. -/
def sramRenew (s : State) (here : SramPlace → Bool) : State := { s with sram := s.sram.filter (fun e => !here e.1) }

/-- R401: whole words of the foyer written: their check bits are new, and their errors gone. -/
def renewFoyer (s : State) (off n : Nat) : State :=
  if s.upsets.isEmpty then s else (List.range (n / 8)).foldl (fun s i => s.setUpset .foyer (off + 8 * i) 0) s

/-! ### Units of DRAM (R155) -/

/-- R155, R426: what a read of the 64-byte unit at an offset finds: its bytes, or nothing on an uncorrectable error. One symbol in
error is corrected and, where `count` says so, counted; three or more escape or not as the free value says. -/
def readUnit (s : State) (sp : Space) (off : Nat) (count : State → State) : State × Option (List Byte) :=
  let d := s.bytes sp off 64
  match s.upset sp off with
  | 0 => (s, some d)
  | 1 => (count s, some d)
  | 2 => (s, none)
  | _ =>
    let f := s.fresh
    let s := { s with fresh := f + 1 }
    if Config.tripleDetected f then (s, none)
    else (s, some ((List.range 64).map (Config.wrongByte f)))

/-- A whole unit written: new check bytes clear its error (R154, R401). -/
def writeUnit (s : State) (sp : Space) (off : Nat) (d : List Byte) : State :=
  (s.putBytes sp off (padTo 64 0 (d.take 64))).setUpset sp off 0

/-! ### Cores and companies -/

def core (s : State) (c : Nat) : Core := SMap.get {} s.cores c
def setCore (s : State) (c : Nat) (k : Core) : State := { s with cores := SMap.set {} s.cores c k }
def updCore (s : State) (c : Nat) (f : Core → Core) : State := s.setCore c (f (s.core c))

def company (s : State) (c : Nat) : Company := SMap.get {} s.companies c
def setCompany (s : State) (c : Nat) (k : Company) : State := { s with companies := SMap.set {} s.companies c k }
def updCompany (s : State) (c : Nat) (f : Company → Company) : State := s.setCompany c (f (s.company c))

/-- Rows of the enabled logical grid (R3). -/
def gridRows (s : State) : Nat := if s.part.grade == 1 then 8 else 7

/-- A core of the enabled grid (R2, R3). -/
def coreExists (s : State) (c : Nat) : Bool := decide (c < 2048) && decide (c % 64 / 8 < s.gridRows)

/-- R340: a company is formed. -/
def formed (s : State) (c : Nat) : Bool := (s.company c).mode != .unformed

/-- R340: idle means IDLE or HALTED. -/
def companyIdle (s : State) (c : Nat) : Bool :=
  let m := (s.company c).mode
  (m == .idle || m == .halted) && !(s.company c).stopping

/-- The company whose districts hold a core (R113). -/
def companyOf (s : State) (core : Nat) : Option Nat :=
  (List.range 32).find? (fun c => s.formed c && (s.company c).districts.toNat.testBit (core / 64))

/-- The company a district is in. -/
def districtCompany (s : State) (d : Nat) : Option Nat := s.companyOf (d * 64)

/-- Rows of a company's script grid: the script's, or the grid's while none is loaded (R5). -/
def scriptRows (s : State) (c : Nat) : Nat :=
  match (s.company c).script with
  | some p => p.rows
  | none => s.gridRows

/-- The enabled cores of a company's districts, ascending. -/
def companyCores (s : State) (c : Nat) : List Nat :=
  (List.range 2048).filter (fun k => (s.company c).districts.toNat.testBit (k / 64) && s.coreExists k)

/-- The cores of a company's script grid (R5). -/
def scriptCores (s : State) (c : Nat) : List Nat :=
  (s.companyCores c).filter (fun k => decide (k % 64 / 8 < s.scriptRows c))

/-- A function applied to several cores. -/
def updCores (s : State) (cs : List Nat) (f : Nat → Core → Core) : State :=
  cs.foldl (fun s c => s.updCore c (f c)) s

/-- R98: timing taint set, also for the running act's record (R336). -/
def setTaint (s : State) (c : Nat) : State := s.updCompany c (fun k => { k with taint := true, actTaint := true })

/-- The town count as a number. -/
def now (s : State) : Nat := s.town.count.toNat

/-! ### Rings and records (R322 to R335) -/

def ring (s : State) (r : Nat) : Ring := SMap.get {} s.rings r
def setRing (s : State) (r : Nat) (k : Ring) : State := { s with rings := SMap.set {} s.rings r k }
def updRing (s : State) (r : Nat) (f : Ring → Ring) : State := s.setRing r (f (s.ring r))


end State

/-- Foyer address of command slot i of a ring (R323). -/
def commandSlot (r i : Nat) : Nat :=
  (if r == 0 then 0xDF0000 else 0xE00000 + 0x10000 * (r - 1)) + 128 * (i % 256)

/-- Foyer address of completion slot i of a ring (R323). -/
def completionSlot (r i : Nat) : Nat := commandSlot r i + 0x8000

/-- Records a ring holds that the host has not consumed (R326). -/
def Ring.unread (k : Ring) : Nat := (k.cplTail - k.cplHead).toNat

/-- A completion slot is free beside those that outstanding commands hold (R325, R328). -/
def Ring.slotFree (k : Ring) : Bool := decide (k.unread + k.taken.length < 256)

namespace State

/-- R326: a record written to its slot, then cpl_tail advanced. -/
def writeRecord (s : State) (r : Nat) (rec : List Byte) : State :=
  let k := s.ring r
  let s := (s.putBytes .foyer (completionSlot r k.cplTail.toNat) (padTo 128 0 rec)).renewFoyer (completionSlot r k.cplTail.toNat) 128
  s.setRing r { k with cplTail := k.cplTail + 1 }

/-- R334: the 64-byte record header. A record that concerns no company has company, step and curtain 0. -/
def recordHeader (s : State) (status code kind : Nat) (company : Option Nat) (tag offset : Nat) : List Byte :=
  let c := company.getD 0
  let k := s.company c
  let known := company.isSome && s.formed c
  toBytes 64 (pack [(status, 16), (code, 16), (kind, 8), (c, 5), (0, 19), (tag, 32), (offset, 32),
    (s.now, 64), (if known then k.step.toNat else 0, 48), (0, 16), (if known then k.curtain.toNat else 0, 32)])

/-- R335: the header of an event of no company. -/
def deviceHeader (s : State) (code : Nat) : List Byte :=
  toBytes 64 (pack [(0, 16), (code, 16), (2, 8), (0, 56), (0xFFFFFFFF, 32), (s.now, 64)])

/-- R328: an event record posted, or queued while the slots are full, or dropped at a full queue. -/
def postRecord (s : State) (r : Nat) (rec : List Byte) : State :=
  let k := s.ring r
  if k.queue.isEmpty && k.slotFree then s.writeRecord r rec
  else if k.queue.length < 1024 then s.setRing r { k with queue := k.queue ++ [rec] }
  else s.setRing r { k with lost := min (k.lost + 1) 0xFFFFFFFF, lostSince := k.lostSince + 1 }

/-- An event on a company's ring (R335). -/
def postCompany (s : State) (c code body : Nat) : State :=
  s.postRecord (1 + c) (s.recordHeader 0 code 2 (some c) 0 0xFFFFFFFF ++ toBytes 64 body)

/-- An event on the device ring (R335). -/
def postDevice (s : State) (code body : Nat) : State :=
  s.postRecord 0 (s.deviceHeader code ++ toBytes 64 body)

/-- An event on the device ring that concerns a company (R334, R335). -/
def postDeviceFor (s : State) (c code body : Nat) : State :=
  s.postRecord 0 (s.recordHeader 0 code 2 (some c) 0 0xFFFFFFFF ++ toBytes 64 body)

/-! ### Event counters (R424 to R430) -/

/-- A counter adds events; the second component says whether it reaches its threshold now (R425, R430). -/
def bumpCounter (k : EventCounter) (src n : Nat) : EventCounter × Bool :=
  if k.config.toNat % 256 == src && k.config.toNat.testBit 16 && src != 0 then
    let v := min (k.value.toNat + n) (2 ^ 64 - 1)
    let hit := k.threshold != 0 && !k.raised && decide (v ≥ k.threshold.toNat)
    ({ k with value := BitVec.ofNat 64 v, raised := k.raised || hit }, hit)
  else (k, false)

/-- R430: the COUNTER_THRESHOLD body. -/
def thresholdBody (k : EventCounter) (target index core : Nat) : Nat :=
  pack [(target, 8), (index, 8), (core, 16), (k.config.toNat, 8), (k.config.toNat / 256, 8), (0, 16),
    (k.value.toNat, 64), (k.threshold.toNat, 64)]

/-- A threshold record goes to the ring of a company, or to the device ring (R430). -/
def postThreshold (s : State) (c : Option Nat) (body : Nat) : State :=
  match c with
  | some c => s.postCompany c 0x22 body
  | none => s.postDevice 0x22 body

/-- The core's own counters (R424). -/
def countOnCore (s : State) (core src n : Nat) : State :=
  (List.range 4).foldl (fun s i =>
    let (k, hit) := bumpCounter (SMap.get {} (s.core core).counters i) src n
    let s := s.updCore core (fun c => { c with counters := SMap.set {} c.counters i k })
    if hit then s.postThreshold (s.companyOf core) (thresholdBody k 0 i core) else s) s

/-- The counters of the core's district (R427). -/
def countOnDistrict (s : State) (d src n : Nat) : State :=
  (List.range 8).foldl (fun s i =>
    let (k, hit) := bumpCounter (SMap.get {} s.districtCounters (d * 8 + i)) src n
    let s := { s with districtCounters := SMap.set {} s.districtCounters (d * 8 + i) k }
    if hit then s.postThreshold (s.districtCompany d) (thresholdBody k 1 i d) else s) s

/-- Chip counters whose filter is all or the given value (R424, R427). -/
def countOnChip (s : State) (filter : Option Nat) (src n : Nat) : State :=
  (List.range 64).foldl (fun s i =>
    let old := SMap.get {} s.chipCounters i
    let f := bitsOf old.config.toNat 8 8
    if f == 0xFF || filter == some f then
      let (k, hit) := bumpCounter old src n
      let s := { s with chipCounters := SMap.set {} s.chipCounters i k }
      if hit then s.postDevice 0x22 (thresholdBody k 2 i 0) else s
    else s) s

/-- R426: events of a core source. -/
def countCore (s : State) (core src n : Nat) : State :=
  if n == 0 then s
  else ((s.countOnCore core src n).countOnDistrict (core / 64) src n).countOnChip (s.companyOf core) src n

/-- R426: events of a chip source, with the filter value of its row if it names one. -/
def countChip (s : State) (src : Nat) (filter : Option Nat) (n : Nat) : State :=
  if n == 0 then s else s.countOnChip filter src n

/-! ### Calibration sets (R215 to R217) -/

/-- A counter field of a set adds and saturates. -/
def calAdd (x lo w n : Nat) : Nat := x - bitsOf x lo w * 2 ^ lo + min (bitsOf x lo w + n) (2 ^ w - 1) * 2 ^ lo

/-- R216: a set counts the conversions of a tensor id. -/
def calTakes (x tensor : Nat) : Bool := x.testBit 24 && x % 2 ^ 24 == tensor

/-- R215: the six counts of a set take a conversion's. -/
def calTake (v : Nat) (k : ConvCount) : Nat :=
  calAdd (calAdd (calAdd (calAdd (calAdd (calAdd v 64 40 k.converted) 104 32 k.clipped) 136 32 k.lifted)
    168 32 k.clamp) 200 24 k.overflowed) 224 24 k.flushed

/-- R215, R217: a set takes the conversions of one cycle, each with its tensor id; all are counted before the comparison, and the second
component says that the set raises CALIBRATION_DRIFT. -/
def calCount (x : BitVec 256) (ks : List (Nat × ConvCount)) : BitVec 256 × Bool :=
  let mine := ks.filter (fun k => calTakes x.toNat k.1)
  if mine.isEmpty then (x, false)
  else
    let v := mine.foldl (fun v k => calTake v k.2) x.toNat
    let sat := bitsOf v 104 32 + bitsOf v 136 32 + bitsOf v 200 24 + bitsOf v 224 24
    let thr := bitsOf v 32 32
    let hit := thr != 0 && !v.testBit 248 && decide (sat ≥ thr)
    (BitVec.ofNat 256 (if hit then v + 2 ^ 248 else v), hit)

/-- R337: the CALIBRATION_DRIFT body. -/
def driftBody (x : BitVec 256) (set : Nat) (chip : Bool) (core : Nat) : Nat :=
  pack [(set, 7), (b2n chip, 1), (core, 11), (0, 13), (x.toNat % 2 ^ 24, 24), (0, 8), (bitsOf x.toNat 64 184, 184)]

/-- R216: the conversions of one cycle, each with its tensor id, counted in the core's sets. -/
def calCore (s : State) (core : Nat) (ks : List (Nat × ConvCount)) : State :=
  (List.range 16).foldl (fun s i =>
    let (x, hit) := calCount (SMap.get 0 (s.core core).calSets i) ks
    let s := s.updCore core (fun c => { c with calSets := SMap.set 0 c.calSets i x })
    if hit then match s.companyOf core with
      | some c => s.postCompany c 3 (driftBody x i false core)
      | none => s
    else s) s

/-- R216: a conversion counted in the chip's sets. -/
def calChip (s : State) (tensor : Nat) (k : ConvCount) : State :=
  (List.range 64).foldl (fun s i =>
    let (x, hit) := calCount (SMap.get 0 s.chipCalSets i) [(tensor, k)]
    let s := { s with chipCalSets := SMap.set 0 s.chipCalSets i x }
    if hit then s.postDevice 3 (driftBody x i true 0) else s) s

/-- R426: the event sources of a core's conversions (0x08 to 0x0C). -/
def countConv (s : State) (core : Nat) (k : ConvCount) : State :=
  ((((s.countCore core 0x08 k.converted).countCore core 0x09 k.clipped).countCore core 0x0A k.lifted).countCore core 0x0B
    k.clamp).countCore core 0x0C k.nar

/-! ### Fault records (R391, R395) -/


end State

/-- R395: a record appended; the log keeps its `cap` most recent. -/
def FaultLog.push (l : FaultLog) (cap : Nat) (rec : BitVec 512) : FaultLog :=
  let rs := l.records ++ [rec]
  ⟨rs.drop (rs.length - cap), l.next + 1⟩

/-- R395: the record with a sequence number, if the log keeps it. -/
def FaultLog.find (l : FaultLog) (seq : Nat) : Option (BitVec 512) :=
  if seq < l.next && l.next - seq ≤ l.records.length then l.records[l.records.length - (l.next - seq)]? else none

namespace State

/-- R391: a fault record of a core, not yet marked primary. -/
def coreRecord (s : State) (c core source code address seq : Nat) : BitVec 512 :=
  let k := s.core core
  let co := s.company c
  BitVec.ofNat 512 (pack [(code, 8), (source, 4), (2, 2), (0, 1), (0, 1), (c, 5), (1, 1), (0, 10), (co.act, 12), (0, 4),
    (k.issued, 10), (0, 6), (core, 11), (1, 1), (0, 20), (address, 32), (co.curtain.toNat, 32), (co.step.toNat, 48),
    (0, 8), (0, 8), (seq, 32), (s.now, 64), (k.cycle, 32)])

/-- R391: a record of a DEVICE fault; its primary bit says that it is the first of its stop. -/
def deviceRecord (s : State) (code cls address seq : Nat) (primary : Bool := true) : BitVec 512 :=
  BitVec.ofNat 512 (pack [(code, 8), (2, 4), (cls, 2), (b2n primary, 1), (0, 81), (address, 32), (0, 96), (seq, 32), (s.now, 64)])

/-- R398: of two records of a stop, the primary one: the lower town count, then the lower core. -/
def primaryOf (a b : BitVec 512) : BitVec 512 :=
  let key (r : BitVec 512) := bitsOf r.toNat 256 64 * 2048 + bitsOf r.toNat 64 11
  if key b < key a then b else a

/-- R396, R398: a contained fault of a core. The core stops, its operations freeze, its record joins those of the stop, and the stop of the
company begins. -/
def coreFault (s : State) (core source code address : Nat) : State :=
  match s.companyOf core with
  | none => s.updCore core (fun k => { k with run := .stopped })
  | some c =>
    let co := s.company c
    let rec_ := s.coreRecord c core source code address (co.log.next + co.stopRecords.length)
    let s := s.updCore core (fun k => { k with run := .stopped })
    s.updCompany c (fun co => { co with
      stopRecords := co.stopRecords ++ [rec_], stopping := true, faults := co.faults + 1,
      primary := some (match co.primary with | some p => primaryOf p rec_ | none => rec_) })

/-- R395: a contained fault that names no company. -/
def deviceFault (s : State) (code address : Nat) : State :=
  let rec_ := s.deviceRecord code 2 address s.log.next
  { s with log := s.log.push 256 rec_ }.postDevice 0x0C rec_.toNat

/-- R437, R438: an event that begins takes one occurrence of every control slot that applies to it; the amounts add up. -/
def perturbed (s : State) (applies : Perturb → Bool) : State × Nat :=
  (List.range 16).foldl (fun (p : State × Nat) i =>
    let q := SMap.get {} p.1.perturb i
    if q.kind != 0 && applies q then
      let q' : Perturb := if q.left == 0xFFFFFFFF then q else if q.left ≤ 1 then {} else { q with left := q.left - 1 }
      (({ p.1 with perturb := SMap.set {} p.1.perturb i q' }).countChip 0x4D none 1, p.2 + q.amount)
    else p) (s, 0)

/-- The hottest district: highest reading, lowest number first (R375, R404). -/
def hottest (s : State) : Nat :=
  (List.range 32).foldl (fun b d => if SMap.get 720 s.temps d > SMap.get 720 s.temps b then d else b) 0

/-- R403, R404: a FATAL fault: every island stops, every transmitter turns off, the record is written, fatal is set. -/
def fatalFault (s : State) (code address : Nat) : State :=
  let rec_ := s.deviceRecord code 3 address s.log.next (!s.fatal)
  let first := s.fatalRecord == 0
  let active := (List.range 32).foldl (fun b c =>
    let m := (s.company c).mode
    if m == .launched || m == .running then b + 2 ^ c else b) 0
  let up := (List.range 16).foldl (fun b l =>
    let st := (SMap.get {} s.links l).state
    if st == .up || st == .upSpared then b + 2 ^ l else b) 0
  let fr : Nat :=
    if first then pack [(rec_.toNat, 512), (1, 32), (0, 32), (active, 32), (up, 16), (s.hottest, 5), (0, 11),
      (SMap.get 720 s.temps s.hottest, 16), (0, 16), (s.part.rom.toNat, 32)]
    else calAdd s.fatalRecord.toNat 512 32 1
  let served := s.ready && code != 2
  let s := { s with
    cores := s.cores.map (fun p => (p.1, { p.2 with run := if p.2.run == .idle then .idle else .stopped })),
    links := s.links.map (fun p => (p.1, { p.2 with state := .down })),
    fatalRecord := BitVec.ofNat 2048 fr, log := s.log.push 256 rec_, fatal := true, ready := served }
  if served then s.postDevice 0x0C rec_.toNat else s

/-- R394, R401: the stage manager works in its data memory: a single error is corrected and counted, any other is fatal. -/
def managerWorks (s : State) (f : State → State) : State :=
  match s.sramErrors (fun e => e == .managerMemory) with
  | (some _, _) => s.fatalFault 2 0
  | (none, n) => f (s.countChip 0x14 none n)

end State

end Sys2Proof.Machine
end

