-- ==== Sys2Proof/Machine/RowUnit.lean ====
section
/-! DEFINITION. The row unit: micro-program images and their checks, the steps, softmax statistics, quire-lite registers, the
moments, and the run of one group of elements (R169 to R185, R195 to R199). The update engine runs the same steps (R269). -/
namespace Sys2Proof.Machine

/-! ### Images (R175, R176) -/

namespace MicroProgram

def stepCount (p : MicroProgram) : Nat := p.steps.length
def version (p : MicroProgram) : Nat := bitsOf p.header.toNat 0 8
def declaredSteps (p : MicroProgram) : Nat := bitsOf p.header.toNat 8 7
def writesOutput (p : MicroProgram) : Bool := p.header.toNat.testBit 15
def direction (p : MicroProgram) : Direction := .ofCode (bitsOf p.header.toNat 16 2)

/-- Declared depth D for posit-n. -/
def depth (p : MicroProgram) (n : Nat) : Nat := bitsOf p.header.toNat (if n == 8 then 32 else if n == 16 then 40 else 48) 8

/-- Declared initiation interval II for posit-n. -/
def interval (p : MicroProgram) (n : Nat) : Nat := bitsOf p.header.toNat (if n == 8 then 56 else if n == 16 then 60 else 64) 4

/-- R175: a header from its fields. -/
def headerOf (steps : Nat) (writes : Bool) (dir : Nat) (d8 d16 d32 ii8 ii16 ii32 : Nat) : BitVec 128 :=
  BitVec.ofNat 128 (pack [(1, 8), (steps, 7), (b2n writes, 1), (dir, 2), (0, 14), (d8, 8), (d16, 8), (d32, 8), (ii8, 4),
    (ii16, 4), (ii32, 4)])

/-- R175: an image from little-endian bytes. -/
def ofImage (b : List Byte) : MicroProgram :=
  { header := BitVec.ofNat 128 (ofBytes (b.take 16))
    steps := (chunks 8 64 (b.drop 16)).map (fun w => BitVec.ofNat 64 (ofBytes w)) }

end MicroProgram

/-- A step word in fields (R176). -/
structure StepWord where
  op : Nat
  d : Nat
  a : Nat
  b : Nat
  c : Nat
  k : Nat
  imm : Int
  src : Bool
  pro : Bool
  neg : Bool
  deriving DecidableEq, Repr

/-- R176: the fields of a step word. -/
def StepWord.ofBits (w : BitVec 64) : StepWord :=
  let x := w.toNat
  let i := bitsOf x 28 8
  { op := bitsOf x 58 6, d := bitsOf x 54 4, a := bitsOf x 50 4, b := bitsOf x 46 4, c := bitsOf x 42 4, k := bitsOf x 36 6,
    imm := if i ≥ 128 then (i : Int) - 256 else i, src := x.testBit 19, pro := x.testBit 18, neg := x.testBit 17 }

/-- R176: a step word from op, d, a, b, c, k and the flags pro and neg. -/
def stepBits (op d a b c k : Nat) (pro neg : Bool) : BitVec 64 :=
  BitVec.ofNat 64 (pack [(0, 17), (b2n neg, 1), (b2n pro, 1), (0, 17), (k, 6), (c, 4), (b, 4), (a, 4), (d, 4), (op, 6)])

/-- R192: latency of EVAL of function k. -/
def evalLatency (k : Nat) : Nat :=
  match k with
  | 0 => 24 | 1 => 32 | 2 => 28 | 3 => 36 | 4 => 32 | 5 => 68 | 6 => 64 | 7 => 56 | 8 => 68 | _ => 0

/-- R177: latency of a step. -/
def StepWord.latency (w : StepWord) : Nat :=
  match w.op with
  | 0x04 => 4 | 0x09 => 3 | 0x0B => evalLatency w.k | 0x0C | 0x0D => 2 | 0x0F => 6 | 0x10 => 10 | 0x11 => 12 | 0x13 => 40
  | 0x14 => 2 | _ => 1

/-- R192: the library entries 0 to 12. -/
def libraryProgram (e : Nat) : Option MicroProgram :=
  let make (dir : Nat) (writes : Bool) (d : Nat) (steps : List (BitVec 64)) : MicroProgram :=
    { header := MicroProgram.headerOf steps.length writes dir d d d 1 1 2, steps := steps }
  let ld := stepBits 0x01 0 0 0 0 0 false false
  let st (a : Nat) := stepBits 0x14 0 a 0 0 0 false false
  if e ≤ 8 then
    let dir := match libraryDirection e with | .none => 0 | .increasing => 1 | .decreasing => 2 | .decreasingEachSign => 3
    some (make dir true (evalLatency e + 5) [ld, stepBits 0x0B 0 0 0 0 e false false, st 0])
  else if e == 9 then some (make 0 false 16 [stepBits 0x12 0 0 0 0 0 true false, ld, stepBits 0x11 0 0 0 0 0 false false])
  else if e == 10 then some (make 0 true 45 [ld, stepBits 0x13 0 0 0 0 0 false false, st 0])
  else if e == 11 then
    some (make 0 false 9 [stepBits 0x0E 0 0 0 0 0 true false, stepBits 0x0E 0 0 0 0 1 true false, ld,
      stepBits 0x0C 0 0 0 0 0 false false, stepBits 0x0D 0 0 0 0 1 false false])
  else if e == 12 then
    some (make 0 true 72 [ld, stepBits 0x0F 1 0 0 0 0 false false, stepBits 0x10 2 0 0 0 0 false false,
      stepBits 0x03 3 0 0 0 3 false false, stepBits 0x04 2 2 14 3 0 false false, stepBits 0x0B 2 2 0 0 1 false false,
      stepBits 0x04 4 0 14 1 0 false true, stepBits 0x04 4 4 2 15 0 false false, stepBits 0x02 5 0 0 0 0 false false,
      stepBits 0x02 6 0 0 0 1 false false, stepBits 0x04 4 4 5 6 0 false false, st 4])
  else none

/-! ### The checks of an image (R179, R180) -/

/-- Steps that write W[d] (R177). -/
def StepWord.writesReg (w : StepWord) : Bool :=
  [0x01, 0x02, 0x03, 0x04, 0x05, 0x06, 0x07, 0x08, 0x09, 0x0A, 0x0B, 0x0F, 0x10, 0x13].contains w.op

/-- R177: the range of k of each step. -/
def StepWord.kOk (w : StepWord) : Bool :=
  match w.op with
  | 0x02 | 0x0C | 0x0D | 0x0E => decide (w.k ≤ 1)
  | 0x03 => decide (3 ≤ w.k) && decide (w.k ≤ 15)
  | 0x09 | 0x0A => if w.src then decide (w.k ≤ 9) else decide (w.k ≤ 3)
  | 0x0B => decide (w.k ≤ 8)
  | 0x11 | 0x12 | 0x13 => decide (w.k ≤ 15)
  | _ => true

/-- R170, R179: the first QADD or QMAC, numbered from `i`, that reads a register not tagged exact, given those tagged before. -/
def inexactRead : List Nat → Nat → List StepWord → Option Nat
  | _, _, [] => none
  | tagged, i, w :: t =>
    let ok := match w.op with
      | 0x0C => tagged.contains w.a
      | 0x0D => tagged.contains w.a && tagged.contains w.b
      | _ => true
    let tagged := if !w.writesReg then tagged
      else if w.op == 0x01 || w.op == 0x02 || w.op == 0x03 then w.d :: tagged.filter (· != w.d)
      else tagged.filter (· != w.d)
    if ok then inexactRead tagged (i + 1) t else some i

/-- R179: the first ST, numbered from `i`, of a register not last written by a GUARD or a directed EVAL, given those so written before. -/
def unguardedStore : List Nat → Nat → List StepWord → Option Nat
  | _, _, [] => none
  | held, i, w :: t =>
    let held' := if !w.writesReg then held
      else if w.op == 0x0A || (w.op == 0x0B && libraryDirection w.k != .none) then w.d :: held.filter (· != w.d)
      else held.filter (· != w.d)
    if w.op == 0x14 && !held.contains w.a then some i else unguardedStore held' (i + 1) t

/-- R180: the least declared II. -/
def leastInterval (ws : List StepWord) (n : Nat) : Nat :=
  let cnt (op : Nat) := ws.countP (fun w => w.op == op)
  let base := max 1 (max (ceilDiv (cnt 0x04) 4) (max (cnt 0x09) (cnt 0x0B)))
  if n == 32 then 2 * base else base

/-- Bytes that an installed micro-program takes of the 8 KiB store (R174). -/
def MicroProgram.bytes (p : MicroProgram) : Nat := 16 + 8 * p.stepCount

/-- R179, R330: the checks of an image; in one for the update engine (`engine`) the masters and moments are exact, `refuse` adds what loading it there
refuses (R269), and `room` says whether the store has room. The header comes first (reserved fields, size, then
version), then the steps' reserved fields, then the rows of R179 in their order; fault_offset is the byte in which the failing field starts. -/
def MicroProgram.check (b : List Byte) (engine refuse : Bool) (room : MicroProgram → Bool) : Check :=
  let p := MicroProgram.ofImage b
  let h := p.header.toNat
  let ws := p.steps.map StepWord.ofBits
  let numbered := (List.range ws.length).zip ws
  let at_ (i : Nat) := 16 + 8 * i
  let deny (off : Nat) (o : Option Nat) : Check := o.map (fun i => (St.denied, at_ i + off))
  let first (off : Nat) (bad : StepWord → Bool) : Check := deny off ((numbered.find? (fun q => bad q.2)).map (·.1))
  let reservedStep : Check := ((List.range p.steps.length).zip p.steps).findSome? (fun q =>
    let x := q.2.toNat
    (((List.range 17) ++ (List.range 8).map (· + 20)).find? (fun i => x.testBit i)).map (fun i => (St.reservedSet, at_ q.1 + i / 8)))
  let reservedHeader : Check := (((List.range 14).map (· + 18) ++ (List.range 60).map (· + 68)).find? (fun i => h.testBit i)).map
    (fun i => (St.reservedSet, i / 8))
  let fields : Check := numbered.findSome? (fun q =>
    if q.2.op > 0x14 then some (St.denied, at_ q.1 + 7)
    else if q.2.writesReg && q.2.d ≥ 14 then some (St.denied, at_ q.1 + 6)
    else if !q.2.kOk then some (St.denied, at_ q.1 + 4)
    else none)
  let main := ws.filter (fun w => !w.pro)
  let endsSt := match main.getLast? with | some w => w.op == 0x14 | none => false
  let need2 (n dAt iAt : Nat) : Check := firstFail [
    need (p.depth n ≥ 2 + (ws.map StepWord.latency).sum) St.denied dAt,
    need (p.interval n ≥ leastInterval ws n) St.denied iAt]
  firstFail [
    need (b.length ≥ 16) St.badSize 0,
    reservedHeader,
    need (1 ≤ p.declaredSteps && p.declaredSteps ≤ 64 && b.length == 16 + 8 * p.declaredSteps) St.badSize 1,
    need (p.version == 1) St.badVersion 0,
    reservedStep,
    fields,
    first 2 (fun w => w.pro != (w.op == 0x0E || w.op == 0x12)),
    deny 6 (inexactRead (if engine then [10, 11, 12] else []) 0 ws),
    if p.direction == .none then first 7 (fun w => w.op == 0x0A) else deny 6 (unguardedStore [] 0 ws),
    need (p.writesOutput == endsSt) St.denied 1,
    if ws.countP (fun w => w.op == 0x14) == b2n endsSt then none else first 7 (fun w => w.op == 0x14),
    need2 8 4 7, need2 16 5 7, need2 32 6 8,
    if refuse then first 7 (fun w => [0x02, 0x14, 0x11, 0x12, 0x13].contains w.op) else none,
    need (room p) St.noResource noField]

/-! ### The registers of a run -/

/-- What a run of steps changes outside its elements: quire-lite and statistics registers, and counts (R171, R172, R184). -/
structure RowRegs where
  ql : SMap (BitVec 512) := []
  qlStatus : SMap (BitVec 64) := []
  sr : SMap (BitVec 128) := []
  lapsed : Nat := 0
  overflow : Nat := 0
  reach : Nat := 0
  conv : ConvCount := {}
  deriving DecidableEq, Repr

/-- What a run of steps reads: format, direction, function slots and parameter words (R178, R182). -/
structure RowCtx where
  n : Nat
  dir : Direction
  tables : SMap Table
  params : List Word
  deriving DecidableEq, Repr

namespace RowCtx

def table (x : RowCtx) (w : StepWord) : TableRef := if w.src then .rom w.k else .slot (SMap.get {} x.tables w.k)
def scalar (x : RowCtx) (k : Nat) : Wide := toWide (posit 32 (x.params.getD k 0).toNat)
def control (x : RowCtx) : Nat := (x.params.getD 0 0).toNat
def srIndex (x : RowCtx) (k : Nat) : Nat := (k + x.control % 16) % 16
def first (x : RowCtx) : Bool := x.control.testBit 4
def maskEnable (x : RowCtx) : Bool := x.control.testBit 5
def queryPos (x : RowCtx) : Nat := (x.params.getD 1 0).toNat % 2 ^ 22
def keyBase (x : RowCtx) : Nat := (x.params.getD 2 0).toNat % 2 ^ 22

end RowCtx

/-- One element in work (R170): its number in the call, its inputs, its registers, its output, and whether its NaR is counted. -/
structure Elem where
  index : Nat
  input : Wide
  v0 : Wide := 0
  v1 : Wide := 0
  w : SMap Wide := []
  out : Nat := 0
  narSeen : Bool := false
  deriving DecidableEq, Repr

/-- R170: W14 reads 1.0 and W15 exact zero; an unwritten register reads zero. -/
def Elem.get (e : Elem) (r : Nat) : Wide := if r == 14 then 0x4000000000000000 else if r == 15 then 0 else SMap.get 0 e.w r
def Elem.set (e : Elem) (r : Nat) (v : Wide) : Elem := { e with w := SMap.set 0 e.w r v }

/-! ### Statistics registers (R172, R195 to R197) -/

/-- A statistics register in fields. -/
structure Stat where
  m : Wide
  s : Wide
  pos : Nat
  full : Bool
  lapsed : Bool
  nar : Bool
  deriving DecidableEq, Repr

/-- Reset value of a statistics register (R172). -/
def srReset : BitVec 128 := 0x80000000

def Stat.ofBits (x : BitVec 128) : Stat :=
  let v := x.toNat
  { m := toWide (posit 32 (v % 2 ^ 32)), s := BitVec.ofNat 64 (bitsOf v 32 64), pos := bitsOf v 96 22, full := v.testBit 118,
    lapsed := v.testBit 119, nar := v.testBit 120 }

/-- R195: a statistics register as it is kept. A running maximum that is no posit32 value is kept rounded by RNE (DESIGN CHOICE, log entry 91). -/
def Stat.bits (t : Stat) : BitVec 128 :=
  BitVec.ofNat 128 (pack [(roundPosit 32 .rne (wideVal t.m), 32), (t.s.toNat, 64), (t.pos, 22), (b2n t.full, 1), (b2n t.lapsed, 1),
    (b2n t.nar, 1)])

/-- R196: the position an element takes, the register after it, and whether it found the register full. -/
def Stat.take (t : Stat) : Nat × Stat × Bool :=
  if t.full then (4194303, { t with lapsed := true }, true)
  else if t.pos == 4194303 then (4194303, { t with full := true }, false)
  else (t.pos, { t with pos := t.pos + 1 }, false)

/-- R196: positions for a list of elements; answers those live under the mask, the register, and the elements past its reach. -/
def Stat.takeAll (t : Stat) (mask : Bool) (query : Nat) : List Wide → List Wide × Stat × Nat
  | [] => ([], t, 0)
  | x :: xs =>
    let (p, t, late) := t.take
    let (live, t, k) := t.takeAll mask query xs
    (if mask && decide (p > query) then live else x :: live, t, k + b2n late)

/-- Odd rounding of a wide difference, product and sum (R177). -/
def wideSub (a b : Wide) : Wide := toWide ((wideVal a).add (wideVal b).neg)
def wideMul (a b : Wide) : Wide := toWide ((wideVal a).mul (wideVal b))
def wideFma (a b c : Wide) (neg : Bool) : Wide :=
  let z := wideVal c
  toWide (((wideVal a).mul (wideVal b)).add (if neg then z.neg else z))

/-- R195: the update of a statistics register by a group. -/
def Stat.smax (t : Stat) (n : Nat) (mask : Bool) (query : Nat) (xs : List Wide) : Stat × Nat :=
  let (live, t, late) := t.takeAll mask query xs
  if live.isEmpty then (t, late)
  else
    let t := if live.any (· == wideNar) then { t with s := wideNar, nar := true } else t
    let gm := live.foldl wideMax wideNar
    let mNew := wideMax t.m gm
    if mNew = wideNar then (t, late)
    else
      let t :=
        if t.s = wideNar then t
        else
          let es := (live.filter (· != wideNar)).map (fun x => wideVal (evalInner 4 n (wideSub x mNew)))
          let sum := toWide (es.foldl Exact.add Exact.zero)
          if t.m = wideNar then { t with s := sum }
          else { t with s := wideFma t.s (evalInner 4 n (wideSub t.m mNew)) sum false }
      ({ t with m := mNew }, late)

/-- R197: the softmax output of an element. -/
def Stat.sout (t : Stat) (n : Nat) (mask : Bool) (key query : Nat) (x : Wide) : Wide :=
  if mask && decide (min key 4194303 > query) then 0
  else if t.m = wideNar ∨ t.s = wideNar then wideNar
  else wideMul (evalInner 4 n (wideSub x t.m)) (evalInner 0 n t.s)

/-! ### Quire-lite registers (R171, R198) -/

def RowRegs.status (r : RowRegs) (k : Nat) : Status := .ofBits (SMap.get 0 r.qlStatus k)

/-- R171: one exact value added into QL[k], with its events counted. -/
def RowRegs.qadd (r : RowRegs) (k : Nat) (x : Exact) : RowRegs :=
  let st := r.status k
  let (v, st') := addGroup 512 (SMap.get 0 r.ql k).toNat st [x]
  { r with
    ql := SMap.set 0 r.ql k (BitVec.ofNat 512 v)
    qlStatus := SMap.set 0 r.qlStatus k st'.bits
    lapsed := r.lapsed + b2n st'.lapsed
    overflow := r.overflow + b2n (!st'.nar && st'.overflow) }

/-- The exact value of QL[k]. -/
def RowRegs.qval (r : RowRegs) (k : Nat) : Exact := .num (slotValue 512 (SMap.get 0 r.ql k).toNat) (slotExp 512)

/-- R198: MEAN. -/
def RowRegs.mean (r : RowRegs) : Wide :=
  let q := r.status 0
  if q.count == 0 || q.nar then wideNar
  else if q.overflow then toWide (.num (if q.negative then -1 else 1) (maxposExp 32))
  else toWide (Exact.div 100 (r.qval 0) (.num q.count 0))

/-- R198: VAR. -/
def RowRegs.var (r : RowRegs) : Wide :=
  let q := r.status 0
  let p := r.status 1
  let n : Exact := .num q.count 0
  if q.count == 0 || q.nar || p.nar then wideNar
  else if q.overflow || p.overflow then toWide (.num 1 (maxposExp 32))
  else toWide (Exact.div 100 ((n.mul (r.qval 1)).add ((r.qval 0).mul (r.qval 0)).neg) (n.mul n))

/-! ### Steps (R177) -/

/-- A step that changes one element only. -/
def Elem.run (x : RowCtx) (r : RowRegs) (w : StepWord) (e : Elem) : Elem :=
  let a := e.get w.a
  let b := e.get w.b
  let c := e.get w.c
  match w.op with
  | 0x01 => e.set w.d e.input
  | 0x02 => e.set w.d (if w.k == 0 then e.v0 else e.v1)
  | 0x03 => e.set w.d (x.scalar w.k)
  | 0x04 => e.set w.d (wideFma a b c w.neg)
  | 0x05 => e.set w.d (wideMax a b)
  | 0x06 => e.set w.d (wideMin a b)
  | 0x07 => if wideLe b a then e.set w.d c else e
  | 0x08 => e.set w.d (toWide ((wideVal a).scale w.imm))
  | 0x09 => e.set w.d (seed a (x.table w))
  | 0x0A => e.set w.d (guard a b (x.table w) x.dir).1
  | 0x0B => e.set w.d (evalLibrary w.k x.n a)
  | 0x0F => e.set w.d r.mean
  | 0x10 => e.set w.d r.var
  | 0x13 =>
    e.set w.d ((Stat.ofBits (SMap.get srReset r.sr (x.srIndex w.k))).sout x.n x.maskEnable (x.keyBase + e.index) x.queryPos a)
  | 0x14 => { e with out := roundPosit x.n .rne (wideVal a) }
  | _ => e

/-- R189: a GUARD step makes this element NaR for want of its monotonicity bit. -/
def Elem.guardNar (x : RowCtx) (w : StepWord) (e : Elem) : Bool :=
  w.op == 0x0A && (guard (e.get w.a) (e.get w.b) (x.table w) x.dir).2

/-- The NaR of an element is counted once, whatever its origin (R184, R189, R426). -/
def Elem.countNar (e : Elem) (b : Bool) : Elem × Nat := if b && !e.narSeen then ({ e with narSeen := true }, 1) else (e, 0)

/-- R178: a non-prologue step over the elements of a group. Steps run one after the other over the whole group, so MEAN, VAR and SOUT behind QADD,
QMAC or SMAX see the group's update, and quire-lite and statistics change as the group is read (DESIGN CHOICE, log entry 91). -/
def runStep (x : RowCtx) (w : StepWord) : RowRegs × List Elem → RowRegs × List Elem
  | (r, es) =>
    match w.op with
    | 0x0C => (es.foldl (fun r e => r.qadd w.k (wideVal (e.get w.a))) r, es)
    | 0x0D => (es.foldl (fun r e => r.qadd w.k ((wideVal (e.get w.a)).mul (wideVal (e.get w.b)))) r, es)
    | 0x11 =>
      let i := x.srIndex w.k
      let (t, late) := (Stat.ofBits (SMap.get srReset r.sr i)).smax x.n x.maskEnable x.queryPos (es.map (fun e => e.get w.a))
      ({ r with sr := SMap.set srReset r.sr i t.bits, reach := r.reach + late }, es)
    | 0x14 =>
      let done := es.map (fun e =>
        let v := wideVal (e.get w.a)
        let (e', k) := (e.run x r w).countNar v.isNar
        (e', { positCount x.n false v with nar := k }))
      ({ r with conv := done.foldl (fun k p => k.add p.2) r.conv }, done.map (·.1))
    | _ =>
      let done := es.map (fun e => (e.run x r w).countNar (e.guardNar x w))
      ({ r with conv := { r.conv with nar := r.conv.nar + (done.map (·.2)).sum } }, done.map (·.1))

/-- R178: the prologue, run once before any element. -/
def runPrologue (x : RowCtx) (ws : List StepWord) (r : RowRegs) : RowRegs :=
  if !x.first then r
  else (ws.filter (·.pro)).foldl (fun r w =>
    if w.op == 0x0E then { r with ql := SMap.set 0 r.ql w.k 0, qlStatus := SMap.set 0 r.qlStatus w.k 0 }
    else if w.op == 0x12 then { r with sr := SMap.set srReset r.sr (x.srIndex w.k) srReset }
    else r) r

/-- R178: the steps of one group. -/
def runGroup (x : RowCtx) (ws : List StepWord) (r : RowRegs) (es : List Elem) : RowRegs × List Elem :=
  (ws.filter (fun w => !w.pro)).foldl (fun p w => runStep x w p) (r, es)

/-- R182: whether a micro-program reads words 0 to 15 of the parameter block, and each vector. -/
def readsParams (ws : List StepWord) : Bool := ws.any (fun w => w.pro || [0x03, 0x11, 0x12, 0x13].contains w.op)
def readsVector (ws : List StepWord) (v : Nat) : Bool := ws.any (fun w => w.op == 0x02 && w.k == v)

/-- The micro-program an entry of a core holds (R174). -/
def Core.program (k : Core) (entry : Nat) : Option MicroProgram :=
  if entry < 16 then libraryProgram entry else SMap.get none k.micro entry

/-- The row unit's registers of a core. -/
def Core.rowRegs (k : Core) : RowRegs := { ql := k.ql, qlStatus := k.qlStatus, sr := k.sr }

/-- R181: a micro-program installed. -/
def Core.install (k : Core) (entry : Nat) (p : MicroProgram) : Core := { k with micro := SMap.set none k.micro entry (some p) }

/-- R179: room in the 8 KiB store once the entry's occupant is released. -/
def storeRoom (m : SMap (Option MicroProgram)) (entry : Nat) (p : MicroProgram) : Bool :=
  decide (((m.filter (fun q => q.1 != entry)).map (fun q => match q.2 with | some o => o.bytes | none => 0)).sum + p.bytes ≤ 8192)

end Sys2Proof.Machine
end

