-- ==== Sys2Proof/Machine/Records.lean ====
section
/-! DEFINITION. The fields of the records that stand in the state as words: act descriptors, apron configurations, DMA descriptors,
signal-plan entries, jobs, contexts, bucket entries and plans. -/
namespace Sys2Proof.Machine

/-! ### Act descriptors (R89) -/

namespace Act
def bundleCount (d : Nat) : Nat := bitsOf d 0 10
def report (d : Nat) : Bool := d.testBit 31
def scheduled (d : Nat) : Nat := bitsOf d 32 32
/-- Predecessors that are valid. -/
def preds (d : Nat) : List Nat :=
  (List.range 4).filterMap (fun i => if d.testBit (64 + 16 * i + 15) then some (bitsOf d (64 + 16 * i) 12) else none)
/-- Hold i: kind and name (R90). -/
def hold (d i : Nat) : Nat × Nat := (bitsOf d (128 + 32 * i) 4, bitsOf d (136 + 32 * i) 12)
def energy (d : Nat) : Nat := bitsOf d 256 32
def peakOffset (d : Nat) : Nat := bitsOf d 288 32
end Act

/-- The descriptor of an act of a company's script; 0 where there is none. -/
def State.actDesc (s : State) (c a : Nat) : Nat :=
  match (s.company c).script with
  | some p => (p.acts.getD a 0).toNat
  | none => 0

/-! ### Apron configurations (R80) -/

namespace Apron
def outFormat (x : Nat) : Nat := formatBits (bitsOf x 0 2)
def stochastic (x : Nat) : Bool := bitsOf x 2 2 == 1
def activation (x : Nat) : Nat := bitsOf x 4 2
def tableSlot (x : Nat) : Nat := bitsOf x 6 2
def biasEnable (x : Nat) : Bool := x.testBit 8
def scaleEnable (x : Nat) : Bool := x.testBit 9
def rowScaleOut (x : Nat) : Bool := x.testBit 10
def scaleBase (x : Nat) : Nat := bitsOf x 16 12
def tensor (x : Nat) : Nat := bitsOf x 32 24
def indexBase (x : Nat) : Nat := bitsOf x 64 40
/-- R79: cycles from a row's read to its conversion, and to its write (L). -/
def convDelay (x : Nat) : Nat := if activation x == 2 then 15 else 4
def latency (x : Nat) : Nat := if activation x == 2 then 17 else 6
/-- R83: words of an output row of W cells. -/
def rowWords (x w : Nat) : Nat := w * outFormat x / 32
end Apron

/-- The active apron configuration i of a core. -/
def Core.apronCfg (k : Core) (i : Nat) : Nat := (SMap.get 1 k.apron i).toNat

/-! ### DMA descriptors (R147, R150 to R152) -/

namespace Dma
def toSlice (d : Nat) : Bool := d.testBit 0
def edge (d : Nat) : Bool := bitsOf d 1 2 == 1
def lanes8 (d : Nat) : Bool := d.testBit 3
def srcType (d : Nat) : Nat := bitsOf d 4 3
def dstType (d : Nat) : Nat := bitsOf d 7 3
def rounding (d : Nat) : Nat := bitsOf d 10 2
def skew (d : Nat) : Nat := bitsOf d 12 4
def sliceBase (d : Nat) : Nat := bitsOf d 32 32
def storeBase (d : Nat) : Nat := bitsOf d 64 14
def length (d : Nat) : Nat := bitsOf d 80 16
def rows (d : Nat) : Nat := bitsOf d 96 16
def blocks (d : Nat) : Nat := bitsOf d 112 12
def slicePitch (d : Nat) : Nat := bitsOf d 128 24
def storePitch (d : Nat) : Nat := bitsOf d 152 14
def tensor (d : Nat) : Nat := bitsOf d 168 24
def indexBase (d : Nat) : Nat := bitsOf d 192 40

/-- Element bytes on the slice side and on the store side. -/
def sliceBytes (d : Nat) : Nat := typeBytes (if toSlice d then dstType d else srcType d)
def storeBytes (d : Nat) : Nat := typeBytes (if toSlice d then srcType d else dstType d)
def allRows (d : Nat) : Nat := blocks d * rows d
/-- R151, R168: a zero length, rows or blocks moves nothing. -/
def isEmpty (d : Nat) : Bool := length d == 0 || rows d == 0 || blocks d == 0
def rowUnits (d : Nat) : Nat := ceilDiv (length d * sliceBytes d) 64
def rowWords (d : Nat) : Nat := ceilDiv (length d * storeBytes d) 4
/-- Words of an EDGE line, and lines of a block's stream (R150). -/
def lineWords (d : Nat) : Nat := if lanes8 d then 4 else 8
def lines (d : Nat) : Nat := length d * (8 * typeBytes (dstType d)) / 16
/-- Words of the store side's image (R152). -/
def imageWords (d : Nat) : Nat := if isEmpty d then 0 else if edge d then blocks d * lines d * lineWords d else allRows d * rowWords d
def sliceUnits (d : Nat) : Nat := if isEmpty d then 0 else allRows d * rowUnits d
def storeUnits (d : Nat) : Nat := ceilDiv (imageWords d) 16
/-- U of R129. -/
def units (d : Nat) : Nat := max (sliceUnits d) (storeUnits d)
/-- The advance amounts of R151. -/
def sliceSpan (d : Nat) : Nat := allRows d * slicePitch d
def storeSpan (d : Nat) : Nat := if edge d then blocks d * lines d * lineWords d else allRows d * storePitch d
/-- R129: cycles the path is busy. -/
def busy (d : Nat) : Nat := ceilDiv (4 * units d) 3

/-- R150: stage-store word of image word w, for a transfer at word s. -/
def imageAddr (d s w : Nat) : Nat :=
  if edge d then (s + w) % 16384
  else
    let g := w / rowWords d
    let x := w % rowWords d
    (s + g * storePitch d + (x + (g % rows d) * skew d) % rowWords d) % 16384

/-- R150: byte offsets, in the elements' own order, of the four bytes of image word w; none is padding. -/
def imageSource (d w : Nat) : List (Option Nat) :=
  let rowBytes := length d * storeBytes d
  if edge d then
    let v := lineWords d
    let b := w / (lines d * v)
    let l := w / v % lines d
    let half (p : Nat) : List (Option Nat) :=
      let q := (l + lines d * 15 - p * skew d % lines d) % lines d
      let o := (b * rows d + p) * rowBytes + 2 * q
      [some o, some (o + 1)]
    half (2 * (w % v)) ++ half (2 * (w % v) + 1)
  else
    let g := w / rowWords d
    let x := w % rowWords d
    (List.range 4).map (fun i => if 4 * x + i < rowBytes then some (g * rowBytes + 4 * x + i) else none)

/-- Image words of store-side unit u. -/
def unitWords (d u : Nat) : List Nat := (List.range (min 16 (imageWords d - 16 * u))).map (16 * u + ·)
end Dma

/-! ### Signal-plan entries (R159 to R161) -/

namespace Chan
def valid (e : Nat) : Bool := e.testBit 0
def incoming (e : Nat) : Bool := e.testBit 1
def peer (e : Nat) : Nat := bitsOf e 4 5 * 64 + bitsOf e 9 3 * 8 + bitsOf e 12 3
def peerChannel (e : Nat) : Nat := bitsOf e 15 6
/-- The hop codes up to END (R160). -/
def hops (e : Nat) : List Nat := ((List.range 12).map (fun i => bitsOf e (32 + 4 * i) 4)).takeWhile (· != 0)
end Chan

namespace Slot
/-- Link of a slot-table entry: its source node and hop code; squares are nodes 2,048 on. -/
def link (e : Nat) : Nat :=
  (if e.testBit 0 then 2048 + bitsOf e 1 5 else bitsOf e 1 5 * 64 + bitsOf e 6 3 * 8 + bitsOf e 9 3) * 16 + bitsOf e 12 4
def owner (e : Nat) : Nat := bitsOf e 16 5 * 64 + bitsOf e 21 3 * 8 + bitsOf e 24 3
def channel (e : Nat) : Nat := bitsOf e 27 6
def first (e : Nat) : Nat := bitsOf e 64 32
def period (e : Nat) : Nat := bitsOf e 96 32
def length (e : Nat) : Nat := bitsOf e 128 16
def repeats (e : Nat) : Nat := bitsOf e 144 24
/-- R161: whether a stamp lies in a window of the entry. -/
def covers (e x : Nat) : Bool :=
  if repeats e == 0 || x < first e then false
  else
    let k := if period e == 0 then 0 else min ((x - first e) / period e) (repeats e - 1)
    decide (x < first e + k * period e + length e)
end Slot

/-! ### Reduction records (R247, R249, R254, R257) -/

namespace JobRec
def valid (j : Nat) : Bool := j.testBit 8
def reproducible (j : Nat) : Bool := j.testBit 9
def haltStep (j : Nat) : Bool := j.testBit 10
def withhold (j : Nat) : Bool := j.testBit 11
def company (j : Nat) : Nat := bitsOf j 16 5
def timeout (j : Nat) : Nat := bitsOf j 32 16
def seed (j : Nat) : BitVec 64 := BitVec.ofNat 64 (bitsOf j 64 64)
def startStep (j : Nat) : Nat := bitsOf j 128 48
/-- Scalar ck, k from 3 to 15. -/
def scalar (j k : Nat) : Nat := bitsOf j (32 * k + 96) 32
end JobRec

namespace CtxRec
def job (c : Nat) : Nat := bitsOf c 0 8
def valid (c : Nat) : Bool := c.testBit 8
def report (c : Nat) : Bool := c.testBit 9
def core (c : Nat) : Nat := bitsOf c 16 5 * 64 + bitsOf c 21 3 * 8 + bitsOf c 24 3
def door (c : Nat) : Nat := bitsOf c 27 3
def bufferBase (c : Nat) : Nat := bitsOf c 32 32
def landingBase (c : Nat) : Nat := bitsOf c 64 32
def scaleFirst (c : Nat) : Nat := bitsOf c 96 12
def scaleCores (c : Nat) : Nat := bitsOf c 128 64
def optimizer (c : Nat) : Nat := bitsOf c 192 8
def outFormat (c : Nat) : Nat := bitsOf c 200 2
def rounding (c : Nat) : Nat := bitsOf c 202 2
def tensor (c : Nat) : Nat := bitsOf c 224 24
def indexBase (c : Nat) : Nat := bitsOf c 256 40
def finder (c : Nat) : Nat := bitsOf c 320 64
def master (c : Nat) : Nat := bitsOf c 384 32
def moment0 (c : Nat) : Nat := bitsOf c 416 32
def moment1 (c : Nat) : Nat := bitsOf c 448 32
def image (c : Nat) : Nat := bitsOf c 480 32
def history (c : Nat) : Nat := bitsOf c 512 32
def work (c : Nat) : Nat := bitsOf c 544 32
end CtxRec

namespace Finder
def enable (f : Nat) : Bool := f.testBit 0
def window (f : Nat) : Nat := bitsOf f 1 3 + 1
def target (f : Nat) : Int := let t := bitsOf f 4 4; if t ≥ 8 then (t : Int) - 16 else t
def outliers (f : Nat) : Nat := bitsOf f 8 7
def channelLength (f : Nat) : Nat := bitsOf f 16 24
end Finder

namespace DirEntry
def valid (e : Nat) : Bool := e.testBit 0
/-- Number of plans. -/
def plans (e : Nat) : Nat := bitsOf e 1 2 + 1
/-- Bucket size in 64 KiB units. -/
def size (e : Nat) : Nat := bitsOf e 3 9
def job (e : Nat) : Nat := bitsOf e 12 8
def owner (e : Nat) : Nat := bitsOf e 20 16
def planBase (e : Nat) : Nat := bitsOf e 36 16
def context (e : Nat) : Nat := bitsOf e 52 12
/-- Elements, flits and 64-byte units of the bucket's gradients (R254). -/
def elements (e : Nat) : Nat := size e * 32768
def flits (e : Nat) : Nat := size e * 256
def units (e : Nat) : Nat := size e * 1024
end DirEntry

namespace PlanRec
/-- 0 EMPTY, 1 LEAF, 2 ADDER, 3 OWNER, 4 SOLO. -/
def role (p : Nat) : Nat := bitsOf p 0 3
def contributes (p : Nat) : Bool := p.testBit 3
def fanIn (p : Nat) : Nat := bitsOf p 4 4
def rank (p : Nat) : Nat := bitsOf p 16 16
def parent (p : Nat) : Nat := bitsOf p 32 16
def child (p j : Nat) : Nat := bitsOf p (64 + 16 * j) 16
def children (p : Nat) : List Nat := (List.range (fanIn p)).map (child p)
def contributors (p : Nat) : Nat := bitsOf p 192 16
def adders (p : Nat) : Nat := bitsOf p 208 16
/-- ADDER or OWNER: the roles with inputs from children. -/
def isRoot (p : Nat) : Bool := role p == 3 || role p == 4
end PlanRec

/-! ### Command slots (R329) and completions (R326, R334) -/

/-- R341: the defined opcodes. -/
def opcodes : List Nat :=
  [0x01, 0x02, 0x03, 0x04, 0x10, 0x11, 0x12, 0x13, 0x14, 0x20, 0x21, 0x22, 0x23, 0x30, 0x31, 0x40, 0x41, 0x50, 0x51, 0x52, 0x60, 0x61,
    0x70, 0x71, 0x72, 0x80, 0x81, 0x90, 0x91, 0x92]

namespace Cmd
def opcode (b : Nat) : Nat := bitsOf b 0 16
def version (b : Nat) : Nat := bitsOf b 16 8
def fence (b : Nat) : Bool := b.testBit 24
def length (b : Nat) : Nat := bitsOf b 32 32
def tag (b : Nat) : Nat := bitsOf b 64 32
def company (b : Nat) : Nat := bitsOf b 96 5
def dataAddr (b : Nat) : Nat := bitsOf b 128 26
/-- Bits of the header that R329 reserves. -/
def reserved (b : Nat) : Bool := bitsOf b 25 7 != 0 || bitsOf b 101 27 != 0 || bitsOf b 154 102 != 0
/-- A body field of `n` bytes at a byte offset of the body. -/
def field (b off n : Nat) : Nat := bitsOf b (256 + 8 * off) (8 * n)
end Cmd

/-- A taken command slot as a number. -/
def Taken.word (t : Taken) : Nat := ofBytes t.bytes

namespace State

/-- R326, R334: a completion record posted into the slot that its command holds; the command is no longer outstanding. -/
def postCompletion (s : State) (r : Nat) (accepted : Bool) (opcode : Nat) (company : Option Nat) (tag status offset body : Nat) : State :=
  let rec_ := s.recordHeader status opcode 1 company tag offset ++ toBytes 64 body
  let s := s.updRing r (fun k => { k with
    taken := k.taken.eraseP (fun t => t.accepted == accepted && Cmd.opcode t.word == opcode && Cmd.tag t.word == tag) })
  s.writeRecord r rec_

/-- R332: the oldest taken command of a ring that has not reached its effect point. -/
def current (s : State) (ring : Nat) : Option Taken := (s.ring ring).taken.find? (fun t => !t.accepted)

/-- R329, R332: a command starts: the manager serves the rings, and with its fence bit every earlier command of the ring has completed. -/
def mayStart (s : State) (ring w : Nat) : Bool := s.ready && !(Cmd.fence w && (s.ring ring).taken.any (·.accepted))

/-- R325, R330, R332: a ring's current command completes without any effect where its ring is unformed or its opcode undefined. -/
def dismissOne (s : State) (ring : Nat) : State :=
  match s.current ring with
  | none => s
  | some c =>
    let w := c.word
    let finish (st off : Nat) := s.postCompletion ring false (Cmd.opcode w) (if ring == 0 then none else some (ring - 1)) (Cmd.tag w) st off 0
    if !s.mayStart ring w then s
    else if (s.ring ring).state == .unformed then finish St.wrongState noField
    else if !opcodes.contains (Cmd.opcode w) then finish St.badOpcode 0
    else s

/-- Every command of a ring whose turn has come and that has no effect completes. -/
def dismiss (s : State) (ring : Nat) : State := (s.ring ring).taken.foldl (fun s _ => s.dismissOne ring) s

/-- R326, R332, R334: a command completes; those behind it that have no effect follow it. -/
def complete (s : State) (r : Nat) (accepted : Bool) (opcode : Nat) (company : Option Nat) (tag status offset body : Nat) : State :=
  (s.postCompletion r accepted opcode company tag status offset body).dismiss r

/-- The completion of a command that waited, with STATUS_OK or another status. -/
def completeWaiting (s : State) (w : Option Waiting) (company status : Nat) : State :=
  match w with
  | none => s
  | some w => s.complete w.ring true w.opcode (some company) w.tag.toNat status noField 0

def context (s : State) (x : Nat) : Context := SMap.get {} s.contexts x
def setContext (s : State) (x : Nat) (k : Context) : State := { s with contexts := SMap.set {} s.contexts x k }
def updContext (s : State) (x : Nat) (f : Context → Context) : State := s.setContext x (f (s.context x))
def job (s : State) (j : Nat) : Job := SMap.get {} s.jobs j
def setJob (s : State) (j : Nat) (k : Job) : State := { s with jobs := SMap.set {} s.jobs j k }
def updJob (s : State) (j : Nat) (f : Job → Job) : State := s.setJob j (f (s.job j))

/-- The directory entry of the bucket a context serves (R254); 0 where it serves none. -/
def bucketEntry (s : State) (x : Nat) : Nat :=
  match (s.context x).bucket with
  | some b => (SMap.get 0 s.directory b).toNat
  | none => 0

/-- R252: a unit that a scripted DMA writes in a core's slice, counted in the context whose window holds it. Between the
trigger and the landing the write counts on BUCKET_LATE_WRITE instead (R253). -/
def noteBucketWrite (s : State) (core unit : Nat) : State :=
  s.contexts.foldl (fun s p =>
    let x := p.1
    let k := s.context x
    let r := k.record.toNat
    let n := DirEntry.units (s.bucketEntry x)
    if !CtxRec.valid r || CtxRec.core r != core || unit < CtxRec.bufferBase r || unit ≥ CtxRec.bufferBase r + n then s
    else if k.state == .cancelled then s
    else if k.fill ≥ n || (k.trigger.isSome && k.state != .landed) then s.countCore core 0x16 1
    else s.setContext x { k with fill := k.fill + 1 }) s

end State

end Sys2Proof.Machine
end

