-- ==== Sys2Proof/Machine/Streets.lean ====
section
/-! DEFINITION. Streets, squares and avenues: routes and stamps, the slot-table check, the launch and the passing of units
(R95, R96, R158 to R163). -/
namespace Sys2Proof.Machine

/-! ### Routes (R158, R160, R162) -/

/-- A step along a route: the node a hop leads to; none where the hop leaves the mesh. Squares are nodes 2,048 on. -/
def hopTo (peer node hop : Nat) : Option Nat :=
  if node < 2048 then
    let d := node / 64
    let r := node % 64 / 8
    let c := node % 8
    match hop with
    | 1 => if r == 0 then none else some (node - 8)
    | 2 => if c == 7 then none else some (node + 1)
    | 3 => if r == 7 then none else some (node + 8)
    | 4 => if c == 0 then none else some (node - 1)
    | 5 => some (2048 + d)
    | _ => none
  else
    let d := node - 2048
    match hop with
    | 6 => if d < 8 then none else some (node - 8)
    | 7 => if d % 8 == 7 then none else some (node + 1)
    | 8 => if d ≥ 24 then none else some (node + 8)
    | 9 => if d % 8 == 0 then none else some (node - 1)
    | 10 => if peer / 64 == d then some peer else none
    | _ => none

/-- R162: the links of a route with what each stamp adds, and the nodes it visits; none for a route that leaves the mesh or
has DOWN before its last hop. `a` is 3·h + 8·q of the hops done. -/
def walkRoute (peer : Nat) : Nat → Nat → List Nat → Option (List (Nat × Nat) × List Nat)
  | node, _, [] => some ([], [node])
  | node, a, hop :: t =>
    if hop == 10 && !t.isEmpty then none
    else match hopTo peer node hop with
      | none => none
      | some n =>
        let a' := a + (if hop ≤ 5 || hop == 10 then 3 else 0) + (if n ≥ 2048 then 8 else 0)
        match walkRoute peer n a' t with
        | none => none
        | some (ls, ns) => some ((node * 16 + hop, a) :: ls, node :: ns)

namespace State

/-- The active channel entry of a core (R159). -/
def channelEntry (s : State) (core ch : Nat) : Nat :=
  match s.companyOf core with
  | some c => (SMap.get 0 (s.company c).plan.active.channels (core * 64 + ch)).toNat
  | none => 0

/-- The links of an outgoing channel. -/
def channelRoute (s : State) (core ch : Nat) : List (Nat × Nat) :=
  let e := s.channelEntry core ch
  match walkRoute (Chan.peer e) core 0 (Chan.hops e) with
  | some (ls, _) => ls
  | none => []

/-- R162: every stamp of a SEND of `units` issued at cycle `t` lies in a window of its channel on every link. -/
def stampsFit (s : State) (core ch t units : Nat) : Bool :=
  match s.companyOf core with
  | none => false
  | some c =>
    let slots := ((s.company c).plan.active.slots).map (·.toNat)
    (s.channelRoute core ch).all (fun l =>
      let mine := slots.filter (fun e => Slot.link e == l.1 && Slot.owner e == core && Slot.channel e == ch)
      (List.range units).all (fun i => mine.any (fun e => Slot.covers e (t + 1 + i + l.2))))

/-- Arrived units of a channel that no RECV has taken (R96). -/
def untaken (s : State) (core ch : Nat) : Nat := (s.core core).inbox.countP (fun p => p.channel == ch)

/-- R96: units of a channel that hold a place of the buffer at island cycle `t`: those arrived by then, still there or taken later. -/
def buffered (s : State) (core ch t : Nat) : Nat :=
  let k := s.core core
  k.inbox.countP (fun p => p.channel == ch && decide (p.due ≤ t)) +
    k.freed.countP (fun f => f.1 == ch && decide (f.2.1 ≤ t) && decide (t < f.2.2))

/-- R87, R94, R95: the island cycle of the core's present running cycle, once it has been frozen `wait` cycles more. -/
def islandCycle (s : State) (core wait : Nat) : Nat := (s.core core).cycle + (s.core core).lag + wait

/-- R96, R132: the next unit of a channel can leave its sender after a wait. -/
def sendReady (s : State) (core ch wait : Nat) : Bool :=
  let e := s.channelEntry core ch
  let n := (s.channelRoute core ch).length
  decide (s.buffered (Chan.peer e) (Chan.peerChannel e) (s.islandCycle core wait) < 4) &&
  !s.street.any (fun u => u.sender == core && u.channel == ch && u.links.length == n && n != 0)

/-- R95, R96, R132: the next unit of a channel is there after a wait: it has arrived, and its contract cycle has come. -/
def recvReady (s : State) (core ch wait : Nat) : Bool :=
  match (s.core core).inbox.find? (fun p => p.channel == ch) with
  | some u => decide (u.due ≤ s.islandCycle core wait)
  | none => false

end State

/-- Stamp of a unit on the link at whose input it stands (R162). -/
def StreetUnit.linkStamp (u : StreetUnit) : Nat :=
  match u.links with
  | [] => u.stamp
  | l :: _ => u.stamp + l.2

/-- The unit stands at the input of a link. -/
def StreetUnit.standsAt (u : StreetUnit) (link : Nat) : Bool :=
  match u.links with
  | [] => false
  | l :: _ => l.1 == link

namespace State

/-- R96, R163: what lies beyond the link at which a unit stands takes the unit: the next link's holding stage has none of its channel,
or the receiver's buffer has room. -/
def takesUnit (s : State) (u : StreetUnit) : Bool :=
  match u.links with
  | [] => false
  | [_] => decide (s.untaken u.receiver u.rchannel < 4)
  | _ :: l :: _ => !s.street.any (fun v => v.sender == u.sender && v.channel == u.channel && v.standsAt l.1)

/-- R162: what the way from its first link to the receiving port adds to a unit's departure stamp. -/
def routeDelay (ls : List (Nat × Nat)) : Nat := match ls.getLast? with | some l => l.2 + 3 | none => 0

/-- R163: a unit that leaves its sender. It waits at its first link behind a late unit of lower stamp or while its way is not free;
otherwise it passes at once. -/
def launchUnit (s : State) (core ch stamp delay : Nat) (data : List Byte) : State :=
  let e := s.channelEntry core ch
  let ls := s.channelRoute core ch
  let u : StreetUnit :=
    { sender := core, channel := ch, receiver := Chan.peer e, rchannel := Chan.peerChannel e, stamp := stamp, links := ls, data := data,
      last := ls.drop (ls.length - 1), due := stamp + (s.core core).lag + routeDelay ls + delay }
  let waits := match ls with
    | [] => false
    | l :: _ => s.street.any (fun v => v.standsAt l.1 && decide (v.linkStamp < stamp)) || !s.takesUnit u
  ({ s with street := s.street ++ [if waits then u else { u with links := ls.drop 1 }] }).countCore core 0x17 1

/-- R132: the oldest arrived unit of a channel. -/
def inboxFront (s : State) (core ch : Nat) : List Byte :=
  match (s.core core).inbox.find? (fun p => p.channel == ch) with
  | some p => p.data
  | none => []

/-- R96: the oldest arrived unit of a channel is taken and frees its place. The last 256 places freed are remembered. -/
def inboxTake (s : State) (core ch : Nat) : State :=
  match (s.core core).inbox.find? (fun p => p.channel == ch) with
  | none => s
  | some u =>
    let t := s.islandCycle core 0
    s.updCore core (fun k => { k with
      inbox := k.inbox.eraseP (fun p => p.channel == ch)
      freed := (k.freed ++ [(ch, u.due, t)]).drop (k.freed.length - 255) })

/-- A unit at its link passes: it stands at the next link, or is on its way to the port. -/
def passUnit (s : State) (i : Nat) : State :=
  { s with street := s.street.modify i (fun u => { u with links := u.links.drop 1 }) }

/-- R163: the place in the list of the unit that a link passes next: the lowest stamp among those present, once its way is free. -/
def nextOnLink (s : State) (link : Nat) : Option Nat :=
  match ((List.range s.street.length).zip s.street).filter (fun p => p.2.standsAt link) with
  | [] => none
  | p :: t =>
    let q := t.foldl (fun b q => if q.2.linkStamp < b.2.linkStamp then q else b) p
    if s.takesUnit q.2 then some q.1 else none

end State

/-- R163: the link direction passes the lowest-stamp unit present. -/
def execLinkUnitPass (link : Nat) (s : State) : Answer :=
  .next (match s.nextOnLink link with
    | some i => s.passUnit i
    | none => s)

end Sys2Proof.Machine
end

