-- ==== Sys2Proof/Machine/Stage.lean ====
section
/-! DEFINITION. The stage store's banks and the check of one running cycle (R142 to R144, R401). -/
namespace Sys2Proof.Machine

/-- An access of an operation in flight in one running cycle: the operation's place in the core's list, the access's number within
it, the port, and its words. A stage-store door holds the write port of every bank (R144). -/
structure Acc where
  op : Nat
  sub : Nat
  write : Bool
  words : List Nat
  allBanks : Bool := false
  deriving DecidableEq, Repr

/-- R142: line of a word, and bank of a line. -/
def lineOf (w : Nat) : Nat := w / 8
def bankOf (l : Nat) : Nat := (l % 32) ^^^ (l / 32 % 32)

/-- Words from an address on, wrapping modulo 64 KiB (R67, R122). -/
def span (a n : Nat) : List Nat := (List.range n).map (fun i => (a + i) % 16384)

/-- Lines of one bank that an access touches, without repeats. -/
def Acc.linesIn (a : Acc) (b : Nat) : List Nat := ((a.words.map lineOf).filter (fun l => bankOf l == b)).eraseDups

/-- The accesses of one port that touch a bank. -/
def touching (accs : List Acc) (write : Bool) (b : Nat) : List Acc :=
  accs.filter (fun a => a.write == write && (a.allBanks || !(a.linesIn b).isEmpty))

/-- R143: the accesses that collide in a bank. -/
def colliding (accs : List Acc) (b : Nat) : List Acc :=
  let rd := touching accs false b
  let wr := touching accs true b
  let readLines := (rd.flatMap (fun a => a.linesIn b)).eraseDups
  let writeUses := (wr.map (fun a => if a.allBanks then 1 else (a.linesIn b).length)).sum
  (if readLines.length > 1 then rd else []) ++ (if writeUses > 1 && wr.any (fun a => !a.allBanks) then wr else [])

/-- R138: the lowest word that colliding accesses touch in a bank. -/
def lowestWord (accs : List Acc) (b : Nat) : Option Nat :=
  (accs.flatMap (fun a => a.words.filter (fun w => bankOf (lineOf w) == b))).foldl
    (fun m w => match m with | none => some w | some v => some (min v w)) none

/-- R143: the accesses that take no effect, and the record address of the conflict. -/
def bankCheck (accs : List Acc) : List Acc × Option Nat :=
  (List.range 32).foldl (fun p b =>
    let c := colliding accs b
    if c.isEmpty then p
    else (p.1 ++ c, match p.2, lowestWord c b with
      | some a, some w => some (min a w)
      | none, w => w
      | a, none => a)) ([], none)

/-- An access is among those that take no effect. -/
def blocked (bad : List Acc) (op sub : Nat) : Bool := bad.any (fun a => a.op == op && a.sub == sub)

namespace State

/-- R393, R401: the lowest word of the reads of a cycle that holds an uncorrectable error. -/
def storeError (s : State) (core : Nat) (accs : List Acc) : Option Nat :=
  if s.upsets.isEmpty then none
  else (accs.flatMap (fun a => if a.write then [] else a.words)).foldl (fun m w =>
    if s.upset (.store core) (4 * w) ≥ 2 then (match m with | none => some w | some v => some (min v w)) else m) none

/-- R396: the reads of a cycle that meet an uncorrectable word: what they bring is not used. -/
def badReads (s : State) (core : Nat) (accs : List Acc) : List Acc :=
  if s.upsets.isEmpty then []
  else accs.filter (fun a => !a.write && a.words.any (fun w => decide (s.upset (.store core) (4 * w) ≥ 2)))

/-- R401: corrected words met by the reads of a cycle. -/
def storeCorrected (s : State) (core : Nat) (accs : List Acc) : Nat :=
  if s.upsets.isEmpty then 0
  else (accs.flatMap (fun a => if a.write then [] else a.words)).countP (fun w => s.upset (.store core) (4 * w) == 1)

/-- A stage-store word written: its check bits are new. -/
def storeWord (s : State) (core w : Nat) (v : Word) : State :=
  let s := s.putWord core w v
  if s.upsets.isEmpty then s else s.setUpset (.store core) (4 * (w % 16384)) 0

/-- Words written at consecutive addresses. -/
def storeWords (s : State) (core a : Nat) (ws : List Word) : State :=
  ((List.range ws.length).zip ws).foldl (fun s p => s.storeWord core (a + p.1) p.2) s

/-- Bytes of consecutive stage-store words. -/
def storeBytes (s : State) (core a n : Nat) : List Byte := (s.words core a n).flatMap (fun w => toBytes 4 w.toNat)

end State

end Sys2Proof.Machine
end

