-- ==== Sys2Proof/Machine/ArrayUnit.lean ====
section
/-! DEFINITION. The array and its apron: what a pass reads and lands in a cycle, traps, and what a strike drains, converts and
writes (R52, R63 to R83, R145, R146, R208 to R211). -/
namespace Sys2Proof.Machine

/-! ### Passes -/

namespace PassFlight

/-- Cycles of a step: n/2 (R63). -/
def half (p : PassFlight) : Nat := p.n / 2
/-- Edge cycles E = K·n/2 (R69). -/
def edge (p : PassFlight) : Nat := p.k * p.half
/-- Progress at which the pass completes (R68, R73). -/
def done (p : PassFlight) : Nat := p.edge + (if p.cols == 16 then 31 else 23)
/-- Words of a B line (R145). -/
def bWords (p : PassFlight) : Nat := if p.cols == 16 then 8 else 4
/-- The operation covers array column c. -/
def covers (p : PassFlight) (c : Nat) : Bool := decide (p.col0 ≤ c) && decide (c < p.col0 + p.cols)

/-- R145, R146: value v of step s as it arrives at a port, from the half-words read: chunk q of port p lies in half-word p of line
(q + p) mod E. -/
def operand (p : PassFlight) (read : List (BitVec 16)) (ports port step lane : Nat) : Exact :=
  let bit := (8 * step + lane) * p.n
  let chunk (q : Nat) : Nat := ((read.getD ((q + port) % p.edge * ports + port) 0).toNat)
  let q := bit / 16
  posit p.n (if p.n == 32 then chunk q + 65536 * chunk (q + 1) else chunk q >>> (bit % 16))

/-- R65: the group of products of step s in row r and column c of the half. -/
def group (p : PassFlight) (r c step : Nat) : List Exact :=
  (List.range 8).map (fun l => (p.operand p.aRead 16 r step l).mul (p.operand p.bRead (2 * p.bWords) c step l))

/-- R68: the step whose group lands in a cell at progress x, counting columns within the half. -/
def landing (p : PassFlight) (x r c : Nat) : Option Nat :=
  let d := r + c + 1
  if x ≤ d || (x - d) % p.half != 0 || (x - d) / p.half > p.k then none else some ((x - d) / p.half - 1)

/-- Lanes at work at progress x (R64, R426 LANE_BUSY). -/
def lanesBusy (p : PassFlight) (x : Nat) : Nat :=
  8 * ((List.range 16).flatMap (fun r => (List.range p.cols).filter (fun c => r + c < x && x ≤ r + c + p.edge))).length

/-- R145: the two stream reads of progress x. -/
def reads (p : PassFlight) (x : Nat) : List (List Nat) :=
  if 1 ≤ x && x ≤ p.edge then [span (p.aSrc + 8 * (x - 1)) 8, span (p.bSrc + p.bWords * (x - 1)) p.bWords] else []

end PassFlight

/-- The half-words of words, low half first (R145). -/
def halfWords (ws : List Word) : List (BitVec 16) := ws.flatMap (fun (w : Word) => [BitVec.setWidth 16 w, BitVec.setWidth 16 (w >>> 16)])

/-- R70, R71: an overwriting pass in flight has not reached a cell of its slot yet. -/
def PassFlight.owes (p : PassFlight) (slot : BitVec 4) (cell : Nat) : Bool :=
  p.slot == slot && !p.accumulate && p.covers (cell % 16) && decide (p.prog < cell / 16 + (cell % 16 - p.col0) + 1) &&
    !p.cleared.contains cell && !p.lost.contains cell

/-- What a pass did to the cells in one cycle: those it overwrote and those in which a group landed. -/
structure Landing where
  wiped : List Nat := []
  landed : List Nat := []
  deriving DecidableEq, Repr

/-- R48, R49, R68, R70: the events of a pass in every cell at progress x. A cell that a later pass has overwritten takes nothing from it;
an earlier pass's overwrite that is still due takes effect before its group; a group that meets an unreadable slot (`bad`) is not added. -/
def Core.landPass (k : Core) (p : PassFlight) (earlier : List PassFlight) (bad : List Nat) (x : Nat) : Core × Landing :=
  (List.range 16).foldl (fun acc r =>
    (List.range p.cols).foldl (fun (acc : Core × Landing) c =>
      let cell := r * 16 + p.col0 + c
      if p.lost.contains cell then acc
      else
        let wipes := x == r + c + 1 && !p.accumulate && !p.cleared.contains cell
        let k := if wipes then acc.1.clearSlot cell p.slot.toNat else acc.1
        let done := if wipes then { acc.2 with wiped := acc.2.wiped ++ [cell] } else acc.2
        match p.landing x r c with
        | none => (k, done)
        | some st =>
          if bad.contains cell then (k, { done with landed := done.landed ++ [cell] })
          else
            let k := if earlier.any (fun e => e.owes p.slot cell) then k.clearSlot cell p.slot.toNat else k
            (k.landGroup cell p.slot.toNat (p.group r c st), { done with landed := done.landed ++ [cell] })) acc) (k, {})

/-- R70: what an earlier pass on the same slot keeps of what a later one did. -/
def PassFlight.overtake (e : PassFlight) (slot : BitVec 4) (done : Landing) : PassFlight :=
  if e.slot != slot then e
  else { e with lost := e.lost ++ done.wiped.filter (fun cell => e.covers (cell % 16)), cleared := e.cleared ++ done.landed.filter (e.owes slot) }

/-- R44, R393: an error of the quire lies in a quarter that a slot covers. -/
def inSlot (slot quarter : Nat) : Bool := decide (slotQuarter slot ≤ quarter) && decide (quarter < slotQuarter slot + slotQuarters slot)

/-- R52, R138: the trap that a pass's landings of a cycle raise, once every landing of the cycle is done: the fault code and the record's
address. -/
def Core.trapOf (k : Core) (p : PassFlight) (landed : List Nat) (overflowEn lapseEn : Bool) : Option (Nat × Nat) :=
  let flag (f : Status → Bool) (cell : Nat) : Bool := f (k.status cell p.slot.toNat)
  let covered := (List.range 256).filter (fun cell => p.covers (cell % 16))
  let address (f : Status → Bool) : Nat := p.slot.toNat + 256 * (covered.find? (flag f)).getD 0
  if p.trapOverflow && overflowEn && landed.any (flag Status.overflow) then some (6, address Status.overflow)
  else if p.trapLapse && lapseEn && landed.any (flag Status.lapsed) then some (7, address Status.lapsed)
  else none

/-! ### Strikes -/

namespace StrikeFlight

/-- R75: the cycle is one of the strike's stall cycles. -/
def stalls (k : StrikeFlight) (x : Nat) : Bool := decide (k.issue ≤ x) && decide (x ≤ k.issue + 15)

/-- R83: the words an output row r takes, its side-band word last. -/
def rowAddrs (k : StrikeFlight) (cfg r : Nat) : List Nat :=
  let p := Apron.rowWords cfg k.cols
  span (k.dst + r * p) p ++ (if Apron.rowScaleOut cfg then [(k.dst + 16 * p + r) % 16384] else [])

/-- R77, R82: the words of the row exponents and of the bias vector. -/
def operandAddrs (k : StrikeFlight) (cfg : Nat) : List (List Nat) :=
  (if Apron.scaleEnable cfg then [span k.rexp 4] else []) ++
  (if Apron.biasEnable cfg then [span k.bias (k.cols * formatBits (k.slot.toNat / 4) / 32)] else [])

end StrikeFlight

/-- R82, R202: bits [6:0] of a byte, sign-extended. -/
def signed7 (b : Byte) : Int := let v := b.toNat % 128; if v ≥ 64 then (v : Int) - 128 else v

/-- R56, R79, R82: a row of cells as the quire gives it, scaled, biased and activated, with each cell's exponent c. -/
def Core.drainRow (k : Core) (f : StrikeFlight) (r : Nat) : List (CellVal × Int) :=
  let cfg := k.apronCfg f.cfg
  let w := slotBits f.slot.toNat
  let m := formatBits (f.slot.toNat / 4)
  (List.range f.cols).map (fun c =>
    let cell := r * 16 + f.col0 + c
    match readSlot w (k.slot cell f.slot.toNat) (k.status cell f.slot.toNat) with
    | .overflow neg => (.overflow neg, 0)
    | .value x =>
      let e : Int := if Apron.scaleEnable cfg then
          signed7 (f.rexpBytes.getD r 0) + signed7 (SMap.get 0 k.scale ((Apron.scaleBase cfg + c) % 4096))
        else 0
      let x := x.scale e
      let x := if Apron.biasEnable cfg then x.add (posit m (ofBytes ((f.biasBytes.drop (c * (m / 8))).take (m / 8)))) else x
      let x := match Apron.activation cfg with
        | 1 => (match x with | .nar => .nar | .num v _ => if v ≤ 0 then Exact.zero else x)
        | 2 => wideVal (seed (toWide x) (.slot (SMap.get {} k.tables (Apron.tableSlot cfg))))
        | _ => x
      (.value x, e))

/-- R55: the cells of a row, over all 16 columns whatever the split, whose status has a flag. -/
def Core.statusCells (k : Core) (f : StrikeFlight) (r : Nat) (flag : Status → Bool) : Nat :=
  (List.range 16).countP (fun c => flag (k.status (r * 16 + c) f.slot.toNat))

/-- R209: the row-exponent hold of a row after a conversion of these values. -/
def decideHold (hold : Option Int) (vals : List CellVal) : Option Int :=
  match hold with
  | some s => some s
  | none =>
    let logs := vals.filterMap (fun v => match v with
      | .value x => if x.isReal then some x.log2 else none
      | .overflow _ => none)
    match logs with
    | [] => none
    | l :: t => some (max (-64) (min 63 (t.foldl max l - 2)))

/-- R210: the side-band word of a row. -/
def sideWord (holds : SMap (Option Int)) (r : Nat) : Word :=
  BitVec.ofNat 32 (pack ((List.range 4).map (fun j =>
    match SMap.get none holds (4 * (r % 4) + j) with
    | some s => ((s % 128).toNat, 8)
    | none => (0, 8))))

/-- R56, R58, R81, R209, R211: one row converted: its output encodings and its counts. -/
def convertRow (cfg slotFormat cols elem r : Nat) (seed : BitVec 64) (step : Nat) (shift : Int) (vals : List (CellVal × Int)) :
    List Nat × ConvCount :=
  let n := Apron.outFormat cfg
  let outs := ((List.range vals.length).zip vals).map (fun p =>
    match p.2.1 with
    | .overflow neg => (if neg then 2 ^ (n - 1) + 1 else 2 ^ (n - 1) - 1, ({ converted := 1, clipped := 1 } : ConvCount))
    | .value x =>
      let y := x.scale (-shift)
      let md : Rounding := if Apron.stochastic cfg && decide (n < slotFormat)
        then .stochastic (draw seed step (Apron.tensor cfg) (elem + r * cols + p.1)) else .rne
      (roundPosit n md y, positCount n (p.2.2 - shift != 0) y))
  (outs.map (·.1), (outs.map (·.2)).foldl ConvCount.add {})

/-- R83: output encodings packed little-endian into words. -/
def packRow (n : Nat) (xs : List Nat) : List Word :=
  (chunks 4 64 (xs.flatMap (toBytes (n / 8)))).map (fun b => BitVec.ofNat 32 (ofBytes b))

end Sys2Proof.Machine
end

