-- ==== Sys2Proof/Machine/Wire.lean ====
section
/-! DEFINITION. Checksums and hashes: the CRCs of frames and payloads (R223, R226) and SHA-384 (R343, R410, R415). The conventions of
the CRCs (reflected, initial value all ones, final complement) are those of IEEE 802.3 and iSCSI; PRESUMED, named in the assumption log. -/
namespace Sys2Proof.Machine

/-! ### CRC -/

/-- One bit of a reflected CRC register. -/
def crcBit (poly c : BitVec 32) : BitVec 32 := if c.getLsbD 0 then (c >>> 1) ^^^ poly else c >>> 1

/-- One byte of a reflected CRC register. -/
def crcByte (poly c : BitVec 32) (b : Byte) : BitVec 32 :=
  (List.range 8).foldl (fun c _ => crcBit poly c) (c ^^^ BitVec.setWidth 32 b)

/-- The CRC of bytes for a reflected polynomial. -/
def crc (poly : BitVec 32) (bs : List Byte) : BitVec 32 := ~~~(bs.foldl (crcByte poly) (BitVec.allOnes 32))

/-- R223: CRC-32, polynomial 0x04C1_1DB7. -/
def crc32 (bs : List Byte) : BitVec 32 := crc 0xEDB88320 bs
/-- R226: CRC-32C, polynomial 0x1EDC_6F41. -/
def crc32c (bs : List Byte) : BitVec 32 := crc 0x82F63B78 bs

/-! ### SHA-384 (FIPS 180-4) -/

/-- The round constants. -/
def shaK : List (BitVec 64) :=
  [0x428A2F98D728AE22, 0x7137449123EF65CD, 0xB5C0FBCFEC4D3B2F, 0xE9B5DBA58189DBBC, 0x3956C25BF348B538,
   0x59F111F1B605D019, 0x923F82A4AF194F9B, 0xAB1C5ED5DA6D8118, 0xD807AA98A3030242, 0x12835B0145706FBE,
   0x243185BE4EE4B28C, 0x550C7DC3D5FFB4E2, 0x72BE5D74F27B896F, 0x80DEB1FE3B1696B1, 0x9BDC06A725C71235,
   0xC19BF174CF692694, 0xE49B69C19EF14AD2, 0xEFBE4786384F25E3, 0x0FC19DC68B8CD5B5, 0x240CA1CC77AC9C65] ++
  [0x2DE92C6F592B0275, 0x4A7484AA6EA6E483, 0x5CB0A9DCBD41FBD4, 0x76F988DA831153B5, 0x983E5152EE66DFAB,
   0xA831C66D2DB43210, 0xB00327C898FB213F, 0xBF597FC7BEEF0EE4, 0xC6E00BF33DA88FC2, 0xD5A79147930AA725,
   0x06CA6351E003826F, 0x142929670A0E6E70, 0x27B70A8546D22FFC, 0x2E1B21385C26C926, 0x4D2C6DFC5AC42AED,
   0x53380D139D95B3DF, 0x650A73548BAF63DE, 0x766A0ABB3C77B2A8, 0x81C2C92E47EDAEE6, 0x92722C851482353B] ++
  [0xA2BFE8A14CF10364, 0xA81A664BBC423001, 0xC24B8B70D0F89791, 0xC76C51A30654BE30, 0xD192E819D6EF5218,
   0xD69906245565A910, 0xF40E35855771202A, 0x106AA07032BBD1B8, 0x19A4C116B8D2D0C8, 0x1E376C085141AB53,
   0x2748774CDF8EEB99, 0x34B0BCB5E19B48A8, 0x391C0CB3C5C95A63, 0x4ED8AA4AE3418ACB, 0x5B9CCA4F7763E373,
   0x682E6FF3D6B2B8A3, 0x748F82EE5DEFB2FC, 0x78A5636F43172F60, 0x84C87814A1F0AB72, 0x8CC702081A6439EC] ++
  [0x90BEFFFA23631E28, 0xA4506CEBDE82BDE9, 0xBEF9A3F7B2C67915, 0xC67178F2E372532B, 0xCA273ECEEA26619C,
   0xD186B8C721C0C207, 0xEADA7DD6CDE0EB1E, 0xF57D4F7FEE6ED178, 0x06F067AA72176FBA, 0x0A637DC5A2C898A6,
   0x113F9804BEF90DAE, 0x1B710B35131C471B, 0x28DB77F523047D84, 0x32CAAB7B40C72493, 0x3C9EBE0A15C9BEBC,
   0x431D67C49C100D4C, 0x4CC5D4BECB3E42B6, 0x597F299CFC657E2A, 0x5FCB6FAB3AD6FAEC, 0x6C44198C4A475817]

/-- The initial hash value of SHA-384. -/
def shaInit : List (BitVec 64) :=
  [0xCBBB9D5DC1059ED8, 0x629A292A367CD507, 0x9159015A3070DD17, 0x152FECD8F70E5939, 0x67332667FFC00B31,
   0x8EB44A8768581511, 0xDB0C2E0D64F98FA7, 0x47B5481DBEFA4FA4]

/-- A right rotation. -/
def shaRotr (x : BitVec 64) (n : Nat) : BitVec 64 := (x >>> n) ||| (x <<< (64 - n))

/-- The message schedule: `w` holds its words so far, the latest first. -/
def shaSchedule : Nat → List (BitVec 64) → List (BitVec 64)
  | 0, w => w
  | n + 1, w =>
    let g (i : Nat) := w.getD i 0
    let s0 := shaRotr (g 14) 1 ^^^ shaRotr (g 14) 8 ^^^ (g 14 >>> 7)
    let s1 := shaRotr (g 1) 19 ^^^ shaRotr (g 1) 61 ^^^ (g 1 >>> 6)
    shaSchedule n ((g 15 + s0 + g 6 + s1) :: w)

/-- One round. -/
def shaRound (h : List (BitVec 64)) (kw : BitVec 64 × BitVec 64) : List (BitVec 64) :=
  match h with
  | [a, b, c, d, e, f, g, i] =>
    let t1 := i + (shaRotr e 14 ^^^ shaRotr e 18 ^^^ shaRotr e 41) + ((e &&& f) ^^^ (~~~e &&& g)) + kw.1 + kw.2
    let t2 := (shaRotr a 28 ^^^ shaRotr a 34 ^^^ shaRotr a 39) + ((a &&& b) ^^^ (a &&& c) ^^^ (b &&& c))
    [t1 + t2, a, b, c, d + t1, e, f, g]
  | _ => h

/-- One block of 128 bytes. -/
def shaBlock (h : List (BitVec 64)) (b : List Byte) : List (BitVec 64) :=
  let w := (chunks 8 16 b).map (fun c => BitVec.ofNat 64 (ofBytes c.reverse))
  let ws := (shaSchedule 64 w.reverse).reverse
  (h.zip ((shaK.zip ws).foldl shaRound h)).map (fun p => p.1 + p.2)

/-- A message with its padding. -/
def shaPad (m : List Byte) : List Byte :=
  let z := (128 - (m.length + 17) % 128) % 128
  m ++ [0x80] ++ List.replicate z 0 ++ toBytesBE 16 (8 * m.length)

/-- The SHA-384 digest of bytes, 48 bytes. -/
def sha384 (m : List Byte) : List Byte :=
  let p := shaPad m
  ((((chunks 128 (p.length / 128) p).foldl shaBlock shaInit).take 6).flatMap (fun w => toBytesBE 8 w.toNat))

/-- A digest as a field of 384 bits, its first byte lowest (R9). -/
def hashField (d : List Byte) : BitVec 384 := BitVec.ofNat 384 (ofBytes d)

end Sys2Proof.Machine
end

