-- ==== Sys2Proof/Machine/Packets.lean ====
section
/-! DEFINITION. Packets of the fabric: headers and their fields, credits owed, packets put at a port, and messages between stage
managers (R226 to R228, R232 to R234, R244). -/
namespace Sys2Proof.Machine

/-! ### Headers (R226) -/

namespace Hdr
def version (h : Nat) : Nat := bitsOf h 0 4
def type (h : Nat) : Nat := bitsOf h 4 4
def flits (h : Nat) : Nat := bitsOf h 8 7
def routeSet (h : Nat) : Nat := bitsOf h 15 1
def company (h : Nat) : Nat := bitsOf h 16 5
def cls (h : Nat) : Nat := bitsOf h 21 1
def dest (h : Nat) : Nat := bitsOf h 32 16
def src (h : Nat) : Nat := bitsOf h 48 16
def job (h : Nat) : Nat := bitsOf h 64 8
def context (h : Nat) : Nat := bitsOf h 72 12
def seq (h : Nat) : Nat := bitsOf h 88 24
def plan (h : Nat) : Nat := bitsOf h 112 2
def hops (h : Nat) : Nat := bitsOf h 114 6
def step (h : Nat) : Nat := bitsOf h 128 48
def crc (h : Nat) : Nat := bitsOf h 224 32
/-- Reserved bits of a header. -/
def reserved (h : Nat) : Bool := bitsOf h 22 10 != 0 || bitsOf h 84 4 != 0 || bitsOf h 120 8 != 0 || bitsOf h 176 48 != 0
/-- R227, R233: virtual channel of a type. -/
def vc (h : Nat) : Nat :=
  match type h with
  | 1 | 2 => 0
  | 3 => 1
  | 4 => 2
  | _ => 3
/-- Bit 21 raised: the class after a dateline (R236). -/
def raise (h : Nat) : Nat := if cls h == 1 then h else h + 2 ^ 21
/-- One forwarding: hops_left one lower (R226). -/
def hop (h : Nat) : Nat := h - 2 ^ 114
/-- The key of R232. -/
def key (h : Nat) : Nat × Nat × Nat × Nat × Nat := (src h, job h, context h, step h, seq h)
end Hdr

/-- R236: the code of the LOCAL port, at which a chip's packets for itself arrive. -/
def localPort : Nat := 16

/-- Index of a company's credits of one virtual channel and class (R233). -/
def creditIndex (vc cls company : Nat) : Nat := (vc * 2 + cls) * 32 + company

/-- Buffer units of a packet: one for its header and one for each flit (R233). -/
def Packet.units (p : Packet) : Nat := 1 + Hdr.flits p.header.toNat

/-- What a packet says, but for its version, source, hop count and checksum. -/
structure Letter where
  type : Nat
  routeSet : Nat := 0
  company : Nat
  dest : Nat
  job : Nat := 0
  context : Nat := 0
  seq : Nat := 0
  plan : Nat := 0
  step : Nat := 0
  payload : List Byte := []
  /-- The link it must take (R296). -/
  via : Option Nat := none
  deriving DecidableEq, Repr

/-- R226: the packet of a letter from chip `src`. The payload is a whole number of flits. -/
def Letter.packet (l : Letter) (src : Nat) : Packet :=
  let n := l.payload.length / 256
  { header := BitVec.ofNat 256 (pack [(1, 4), (l.type, 4), (n, 7), (l.routeSet, 1), (l.company, 5), (0, 1), (0, 10), (l.dest, 16),
      (src, 16), (l.job, 8), (l.context, 12), (0, 4), (l.seq, 24), (l.plan, 2), (63, 6), (0, 8), (l.step, 48), (0, 48),
      (if n == 0 then 0 else (crc32c l.payload).toNat, 32)])
    payload := l.payload
    via := l.via }

namespace State

def link (s : State) (l : Nat) : Link := SMap.get {} s.links l
def setLink (s : State) (l : Nat) (k : Link) : State := { s with links := SMap.set {} s.links l k }
def updLink (s : State) (l : Nat) (f : Link → Link) : State := s.setLink l (f (s.link l))

/-- R221: the link carries traffic. -/
def linkLive (s : State) (l : Nat) : Bool := let st := (s.link l).state; st == .up || st == .upSpared

/-- A packet put at this chip's ports. -/
def emit (s : State) (l : Letter) : State := { s with outbox := s.outbox ++ [l.packet s.chipId] }

/-- The payload of a CONTROL packet: the content words after its kind and subject, eight bytes each, in whole flits. The spec gives no layout;
DESIGN CHOICE, log entry 53. -/
def messagePayload (content : List Nat) : List Byte :=
  let d := (content.drop 2).flatMap (toBytes 8)
  padTo (256 * ceilDiv d.length 256) 0 d

/-- R227, R234, R244: a message for another chip's stage manager leaves as a CONTROL packet on the company's credits. Its kind stands in
bucket_seq and its subject in context (DESIGN CHOICE, log entry 53). -/
def message (s : State) (company dest : Nat) (content : List Nat) : State :=
  { s with messages := s.messages ++ [(dest, content)] }.emit
    { type := 5, company := company, dest := dest, context := content.getD 1 0 % 4096, seq := content.getD 0 0
      step := (s.company company).step.toNat, payload := messagePayload content }

/-- R234: units of a link's input buffer that have drained are owed to the other end; the LOCAL port (R236) has no other end. -/
def owe (s : State) (l vc cls company n : Nat) : State :=
  if l == localPort then s
  else s.updLink l (fun k =>
    let i := creditIndex vc cls company
    { k with owed := SMap.set 0 k.owed i (SMap.get 0 k.owed i + n) })

/-- The credits of a packet that leaves this chip's buffers, but for the flits already drained. -/
def release (s : State) (p : Packet) : State :=
  match p.source with
  | none => s
  | some l => let h := p.header.toNat; s.owe l (Hdr.vc h) (Hdr.cls h) (Hdr.company h) (p.units - p.used)

/-- R234, R426: a company has a packet that waits for credit. -/
def starving (s : State) (c : Nat) : Bool :=
  s.outbox.any (fun p => p.waitingSince.isSome && Hdr.company p.header.toNat == c)

/-! ### Frames sent (R222, R223) -/

/-- R223: a frame word without its CRC: bits [127:32]. -/
def wordTop (k : Link) (kind seq : Nat) : Nat :=
  let (i, n) := k.owed.headD (0, 0)
  pack [(kind, 2), (seq, 12), (k.rxSeq, 12), (b2n k.nak, 1), (i / 64, 2), (i / 32 % 2, 1), (i % 32, 5), (min n 127, 7)]

/-- R223: the frame word of a frame as the link would send it now: it acknowledges, asks for a resend if one is owed, and returns credits. -/
def frameWord (k : Link) (kind seq : Nat) (body : List Byte) : BitVec 128 :=
  let top := wordTop k kind seq
  BitVec.ofNat 128 ((crc32 (toBytes 12 top ++ body)).toNat + 2 ^ 32 * top)

/-- R222 to R224: a frame sent on a link. -/
def sendFrame (s : State) (l kind seq : Nat) (body : List Byte) : State :=
  s.updLink l (fun k => { k with
    sent := k.sent ++ [(frameWord k kind seq body, body)]
    nak := false
    ackSent := k.rxSeq
    owed := match k.owed.head? with
      | some (i, n) => SMap.set 0 k.owed i (n - min n 127)
      | none => k.owed })

/-- R223, R225: a LINK_CONTROL frame sent on a link. -/
def sendControl (s : State) (l : Nat) (body : List Byte) : State := s.sendFrame l 3 0 body

/-- R335: the FABRIC_MALFORMED record. -/
def postMalformed (s : State) (h : Nat) : State :=
  s.postDevice 0x10 (pack [(Hdr.src h, 16), (Hdr.job h, 8), (Hdr.context h, 12), (0, 4), (Hdr.seq h, 24)])

/-- Place of the first arrived packet of a link with a property. -/
def arrived (s : State) (l : Nat) (ok : Packet → Bool) : Option (Nat × Packet) :=
  ((List.range (s.link l).input.length).zip (s.link l).input).find? (fun p => ok p.2)

/-- A packet taken from a link's input, with its credits. -/
def takeArrived (s : State) (l i : Nat) : State :=
  match (s.link l).input[i]? with
  | none => s
  | some p => (s.updLink l (fun k => { k with input := k.input.eraseIdx i })).release { p with source := some l }

end State

end Sys2Proof.Machine
end

