-- ==== Sys2Proof/Machine/Jobs.lean ====
section
/-! DEFINITION. Reduction jobs and contexts: plans in use, the layout of a broadcast image, completion records, sending up the tree, and the
abort of a job (R205, R249 to R274). -/
namespace Sys2Proof.Machine

/-! ### Broadcast images (R205, R270) -/

/-- The layout of a bucket's broadcast image. -/
structure ImageShape where
  elements : Nat
  posit16 : Bool
  finder : Bool
  /-- Elements of a channel, and of those the ones sent as posit16. -/
  channel : Nat
  outliers : Nat
  deriving DecidableEq, Repr

/-- R205, R270: the layout of a bucket of `elements` elements in a broadcast format with a finder field. -/
def ImageShape.make (format finder elements : Nat) : ImageShape :=
  let wide := format == 2
  { elements := elements, posit16 := wide, finder := !wide && Finder.enable finder, channel := Finder.channelLength finder,
    outliers := Finder.outliers finder }

/-- The layout that an owner's context record gives. -/
def ImageShape.of (record elements : Nat) : ImageShape := .make (CtxRec.outFormat record) (CtxRec.finder record) elements

/-- R249, R272: the layout of a bucket as chip `me` knows it: its own record's where it is the owner, the owner's elsewhere. -/
def ImageShape.known (me owner bucket epoch record elements : Nat) : ImageShape :=
  if owner == me then .of record elements
  else
    let v := (Config.ownerLayout owner bucket epoch).toNat
    .make (v % 4) (v / 4) elements

namespace ImageShape
def channels (i : ImageShape) : Nat := if i.finder && i.channel != 0 then i.elements / i.channel else 0
/-- Bytes of the value part. -/
def valueBytes (i : ImageShape) : Nat :=
  if i.posit16 then 2 * i.elements else if i.finder then i.elements + i.channels * i.outliers else i.elements
/-- Value units that land (R272), and flits of the whole image with its exponent block (R270). -/
def valueUnits (i : ImageShape) : Nat := ceilDiv i.valueBytes 64
def flits (i : ImageShape) : Nat := ceilDiv (i.valueBytes + i.channels) 256
end ImageShape

namespace State

/-! ### A context's bucket and plan (R254, R257) -/

/-- The plan record of a context in use. -/
def planRec (s : State) (x : Nat) : Nat := (SMap.get 0 s.plans (DirEntry.planBase (s.bucketEntry x) + (s.context x).plan)).toNat

/-- The job of a context (R249). -/
def contextJob (s : State) (x : Nat) : Nat := CtxRec.job (s.context x).record.toNat

/-- A context in use: valid, serving a valid bucket. -/
def contextLive (s : State) (x : Nat) : Bool :=
  CtxRec.valid (s.context x).record.toNat && DirEntry.valid (s.bucketEntry x)

/-- R249, R270: the layout of a context's image. -/
def imageShape (s : State) (x : Nat) : ImageShape :=
  let e := s.bucketEntry x
  .known s.chipId (DirEntry.owner e) ((s.context x).bucket.getD 0) (s.job (s.contextJob x)).epoch (s.context x).record.toNat (DirEntry.elements e)

/-- The valid contexts of a job. -/
def jobContexts (s : State) (j : Nat) : List Nat :=
  (s.contexts.map (·.1)).filter (fun x => CtxRec.valid (s.context x).record.toNat && s.contextJob x == j)

/-- The company of a job on this chip (R247). -/
def jobCompany (s : State) (j : Nat) : Nat := JobRec.company (s.job j).record.toNat

/-- R296: the job's company is an understudy's secondary. -/
def isSecondary (s : State) (j : Nat) : Bool :=
  match (s.company (s.jobCompany j)).pair with
  | some p => p.role == 1
  | none => false

/-- R273, R403: the job takes part in reduction: its record is valid, it is not aborted, and no FATAL fault has stopped the Exchange. -/
def jobRuns (s : State) (j : Nat) : Bool := JobRec.valid (s.job j).record.toNat && (s.job j).aborted.isNone && !s.fatal

/-! ### Records (R274) -/

/-- R266: the sampled elements of a verdict. -/
def sampleCount (k : Context) (verdict : Nat) : Nat := k.checked.countP (fun c => c.2 == verdict)

/-- R266: every sampled element has been checked or skipped. -/
def settled (s : State) (x : Nat) : Bool :=
  decide ((s.context x).checked.length ≥ DirEntry.elements (s.bucketEntry x) / 4096)

/-- R274: the body of a completion record. -/
def bucketBody (s : State) (x kind : Nat) (withheld pending cancelled : Bool) (extra : Nat) : Nat :=
  let k := s.context x
  let failing := (k.checked.filter (fun c => c.2 == 1)).map (·.1)
  pack [(kind, 8), (b2n (k.narCount != 0), 1), (b2n withheld, 1), (b2n (!failing.isEmpty), 1), (b2n (sampleCount k 3 != 0), 1),
    (b2n pending, 1), (b2n cancelled, 1), (0, 2), (k.plan, 2), (k.nextPlan, 2), (0, 12), (k.bucket.getD 0, 21), (0, 3),
    (s.contextJob x, 8), (k.step, 48), (0, 16), (x, 12), (0, 4), (k.firstNar.getD 0xFFFFFF, 24), (k.narCount, 24),
    (failing.foldl min 0xFFFFFF, 24), (0, 8), (sampleCount k 0 + sampleCount k 1, 16), (sampleCount k 2 + sampleCount k 3, 16),
    (k.reduceTicks, 32), (s.now, 64), (extra, 32)]

/-- R274: the JOB_ABORTED body. -/
def abortBody (s : State) (j step cause : Nat) : Nat :=
  pack [(3, 8), (0, 12), (cause, 4), (0, 32), (j, 8), (step, 48), (0, 32), (0xFFFFFF, 24), (0, 24), (0xFFFFFF, 24), (0, 40), (0, 32),
    (s.now, 64)]

/-! ### Scene trees (R244, R256, R296) -/

/-- R256: the epoch that the chip will use for the step after the job's current one. -/
def nextEpoch (s : State) (j : Nat) : Nat :=
  let k := s.job j
  let due (l : Option Load) : Option Nat := match l with
    | some l => if l.step ≤ k.step then some l.epoch else none
    | none => none
  ((due k.dirLoad).orElse (fun _ => due k.planLoad)).getD k.epoch

/-- R244: every context of the job that lands on this chip has landed. -/
def landedAll (s : State) (j : Nat) : Bool :=
  (s.jobContexts j).all (fun x => !s.contextLive x || (s.context x).state == .landed)

/-- R244, R296: SCENE sent to the scene children, and to the secondary of a pair. -/
def sendScene (s : State) (j step count epoch : Nat) : State :=
  let kids := match (s.job j).scene with | some t => t.children | none => []
  let partner := match (s.company (s.jobCompany j)).pair with
    | some p => if p.role == 0 then [p.partner] else []
    | none => []
  (kids ++ partner).foldl (fun s c => s.message (s.jobCompany j) c [2, j, step, count, epoch]) s

/-- R256: what a message carries as epoch when two chips differ; the model's own code. -/
def epochsDiffer : Nat := 0x10000

/-- R244, R256: once every context has landed and every scene child has reported, the chip reports, or the root sends SCENE. -/
def sceneProgress (s : State) (j : Nat) : State :=
  let k := s.job j
  match k.scene with
  | none => s
  | some t =>
    let told (c : Nat) : Bool := t.reports.any (fun r => r.1 == c && r.2.1 == k.step)
    if !s.jobRuns j || s.isSecondary j || t.sent == some k.step || !s.landedAll j || !t.children.all told then s
    else
      let mine := s.nextEpoch j
      let same := t.reports.all (fun r => r.2.1 != k.step || r.2.2 == mine)
      let epoch := if same then mine else epochsDiffer
      let s := s.updJob j (fun k => { k with scene := some { t with sent := some k.step } })
      if t.root == s.chipId then
        let m := s.now + t.margin
        let s := if same then s else s.postDevice 0x17 (pack [(j, 8), (0, 56), (k.step, 48)])
        (s.sendScene j k.step m epoch).updJob j (fun k => { k with due := some (k.step, m, epoch) })
      else s.message (s.jobCompany j) t.parent [1, j, k.step, epoch]

/-! ### Errors of the Exchange's SRAM (R394, R401) -/

def exchangeWord : SramPlace → Bool
  | .exchangeSram _ => true
  | _ => false

/-- R394, R401: the Exchange works from its directory, plans and contexts: a single error there is corrected and counted, any other is fatal. -/
def throughExchange (s : State) (f : State → State) : State :=
  match s.sramErrors exchangeWord with
  | (some (.exchangeSram o), _) => s.fatalFault 1 o
  | (_, n) => f (s.countChip 0x14 none n)

/-! ### Aborting a job (R273) -/

/-- A packet of a job's reduction traffic. -/
def isJobPacket (j : Nat) (p : Packet) : Bool :=
  let h := p.header.toNat
  decide (1 ≤ Hdr.type h) && decide (Hdr.type h ≤ 3) && Hdr.job h == j

/-- R273: the credits of the job's packets in this chip's buffers are returned and the packets go. -/
def dropJobPackets (s : State) (j : Nat) : State :=
  let s := (s.outbox.filter (isJobPacket j)).foldl (fun s p => s.release p) s
  let s := { s with outbox := s.outbox.filter (fun p => !isJobPacket j p) }
  (List.range 17).foldl (fun s l =>
    let mine := (s.link l).input.filter (isJobPacket j)
    let s := mine.foldl (fun s p => s.release { p with source := some l }) s
    if mine.isEmpty then s
    else s.updLink l (fun k => { k with input := k.input.filter (fun p => !isJobPacket j p) })) s

/-- R268: an owner's update has begun: every gradient is staged and, under WITHHOLD, every sample is settled. -/
def updateBegun (s : State) (x : Nat) : Bool :=
  let k := s.context x
  k.state == .updating && (!JobRec.withhold (s.job (s.contextJob x)).record.toNat || s.settled x)

/-- R273: a context becomes CANCELLED and frees its windows; an update that has begun runs on to its end. -/
def cancelContext (s : State) (x : Nat) : State :=
  let begun := s.updateBegun x
  s.updContext x (fun k => { k with
    state := .cancelled, fill := 0, own := [], window := [], sending := [], readOrder := 0, landOrder := 0, busySince := none,
    cancelledUpdate := begun })

/-- R244, R273: JOB_ABORT along the scene tree, but not back to where it came from. -/
def spreadAbort (s : State) (j step : Nat) (except : Option Nat) : State :=
  match (s.job j).scene with
  | none => s
  | some t =>
    let up := if t.root == s.chipId then [] else [t.parent]
    ((up ++ t.children).filter (fun c => except != some c)).foldl (fun s c => s.message (s.jobCompany j) c [3, j, step]) s

/-- R273: a job aborted on this chip for a step. -/
def abortJob (s : State) (j step cause : Nat) (except : Option Nat := none) : State :=
  if !s.jobRuns j then s
  else
    let s := s.updJob j (fun k => { k with aborted := some cause })
    let s := (s.jobContexts j).foldl cancelContext s
    let s := (s.dropJobPackets j).spreadAbort j step except
    s.postDeviceFor (s.jobCompany j) 7 (s.abortBody j step cause)

/-- R399: every job of a company aborted. -/
def abortCompanyJobs (s : State) (c : Nat) : State :=
  (s.jobs.map (·.1)).foldl (fun s j =>
    if JobRec.valid (s.job j).record.toNat && s.jobCompany j == c then s.abortJob j (s.job j).step 1 else s) s

/-! ### Up the tree (R260, R296) -/

/-- R260: the flits that wait in a context leave for the parent once 32 of them stand there; a secondary counts the packet instead. -/
def sendUp (s : State) (x : Nat) : State :=
  let k := s.context x
  if k.sending.length < 32 then s
  else
    let j := s.contextJob x
    let s := s.setContext x { k with sending := [] }
    if s.isSecondary j then s.countChip 0x4B none 1
    else s.emit
      { type := 1, company := s.jobCompany j, dest := PlanRec.parent (s.planRec x), job := j, context := x,
        seq := k.f0 - k.sending.length, plan := k.plan, step := k.step, payload := k.sending.flatten }

/-- R271: a broadcast packet to every child of the plan in use, in child order. -/
def forwardDown (s : State) (x seq nextPlan : Nat) (payload : List Byte) : State :=
  let k := s.context x
  let j := s.contextJob x
  let p := s.planRec x
  let kids := if PlanRec.role p == 2 || PlanRec.role p == 3 then PlanRec.children p else []
  kids.foldl (fun s c => s.emit
    { type := 3, company := s.jobCompany j, dest := c, job := j, context := x, seq := seq, plan := nextPlan, step := k.step,
      payload := payload }) s

/-- R296: the primary of a pair forwards a broadcast packet to its secondary. -/
def forwardPair (s : State) (x seq nextPlan : Nat) (payload : List Byte) : State :=
  let j := s.contextJob x
  match (s.company (s.jobCompany j)).pair with
  | some p =>
    if p.role == 0 then s.emit
      { type := 3, company := s.jobCompany j, dest := p.partner, job := j, context := x, seq := seq, plan := nextPlan,
        step := (s.context x).step, payload := payload, via := some p.link }
    else s
  | none => s

end State

end Sys2Proof.Machine
end

