-- ==== Sys2Proof/Machine/Queued.lean ====
section
/-! DEFINITION. Queued traffic at a core's door buffer: carriages, the Exchange's reads of bucket buffers and the landings of broadcasts, one
64-byte unit at a time, at full rate or through a door (R104 to R107, R155, R167, R253, R272, R345, R346, R402, R433). -/
namespace Sys2Proof.Machine

/-! ### Carriages (R167, R345, R346) -/

namespace Carriage

def srcBytes (c : Carriage) : Nat := typeBytes c.srcType
def dstBytes (c : Carriage) : Nat := typeBytes c.dstType
/-- Elements of a carriage, and bytes and units of its destination. -/
def elements (c : Carriage) : Nat := c.length / c.srcBytes
def destBytes (c : Carriage) : Nat := c.elements * c.dstBytes
def units (c : Carriage) : Nat := ceilDiv c.destBytes 64
/-- It reads a core's debug view (R433). -/
def isView (c : Carriage) : Bool := c.out && c.kind == 1
/-- First element and number of elements of destination unit j. -/
def unitFirst (c : Carriage) (j : Nat) : Nat := 64 * j / c.dstBytes
def unitCount (c : Carriage) (j : Nat) : Nat := min (64 / c.dstBytes) (c.elements - c.unitFirst j)
/-- Source units of destination unit j, counted from the start of the source. -/
def sourceUnits (c : Carriage) (j : Nat) : List Nat :=
  let a := c.unitFirst j * c.srcBytes
  let n := c.unitCount j * c.srcBytes
  if n == 0 then [] else (List.range ((a + n - 1) / 64 + 1 - a / 64)).map (a / 64 + ·)

/-- The space of the source, and the unit number in it of its first unit. -/
def from_ (c : Carriage) : Space × Nat :=
  if !c.out then (.foyer, c.source / 64) else if c.kind == 2 then (.exchange, c.source) else (.slice c.core, c.source)

/-- Where destination unit j goes: a space and a byte offset. -/
def to_ (c : Carriage) (j : Nat) : Space × Nat :=
  if c.out then (.foyer, c.dest + 64 * j)
  else if c.kind == 0 then (.slice c.core, 64 * (c.dest + j))
  else if c.kind == 1 then (.store c.core, 4 * c.dest + 64 * j)
  else (.exchange, 64 * (c.dest + j))

end Carriage

namespace State

/-- R401: a 64-byte foyer unit fails when any of its words does; a single error is corrected and counted. -/
def readFoyerUnit (s : State) (off : Nat) : State × Option (List Byte) :=
  let errs := (List.range 8).map (fun i => s.upset .foyer (off + 8 * i))
  if errs.any (· ≥ 2) then (s, none)
  else (s.countChip 0x14 none (errs.countP (· == 1)), some (s.bytes .foyer off 64))

/-- R166: a source unit read for a carriage. A unit is read once, so what is corrected in it counts for the first destination unit that takes
it alone. -/
def readSource (s : State) (c : Carriage) (u : Nat) (first : Bool) : State × Option (List Byte) :=
  let (sp, n) := c.from_
  match sp with
  | .foyer => let (t, d) := s.readFoyerUnit (64 * (n + u)); (if first then t else s, d)
  | .slice k => s.readUnit sp (64 * (n + u)) (fun s => if first then s.countCore k 0x13 1 else s)
  | _ => s.readUnit sp (64 * (n + u)) (fun s => if first then s.countChip 0x13 none 1 else s)

/-- R433: a word of a core's debug view. -/
def viewWord (s : State) (core w : Nat) : Word :=
  let k := s.core core
  let at_ (x i : Nat) : Word := BitVec.ofNat 32 (bitsOf x (32 * i) 32)
  if w < 0x4000 then s.word core w
  else if w < 0x4010 then at_ (SMap.get 0 k.ql 0).toNat (w - 0x4000)
  else if w < 0x4012 then at_ (SMap.get 0 k.qlStatus 0).toNat (w - 0x4010)
  else if w < 0x4022 then at_ (SMap.get 0 k.ql 1).toNat (w - 0x4012)
  else if w < 0x4024 then at_ (SMap.get 0 k.qlStatus 1).toNat (w - 0x4022)
  else at_ (SMap.get srReset k.sr ((w - 0x4024) / 4)).toNat ((w - 0x4024) % 4)

/-- The source bytes of destination unit j, or the source units that fail. Failing units that an earlier destination unit already met
are not listed again. -/
def gather (s : State) (c : Carriage) (j : Nat) : State × Option (List Byte) × List Nat :=
  if c.isView then
    let a := 64 * j
    (s, some ((List.range (ceilDiv (min 64 (c.length - a)) 4)).flatMap (fun i =>
      toBytes 4 (s.viewWord c.core (c.source + a / 4 + i)).toNat)), [])
  else
    let us := c.sourceUnits j
    let old := if j == 0 then [] else c.sourceUnits (j - 1)
    let (s, parts, failed) := us.foldl (fun (p : State × List Byte × List Nat) u =>
      match p.1.readSource c u (!old.contains u) with
      | (s, some b) => (s, p.2.1 ++ b, p.2.2)
      | (s, none) => (s, p.2.1 ++ List.replicate 64 0, p.2.2 ++ [u])) (s, [], [])
    let skip := c.unitFirst j * c.srcBytes - 64 * us.headD 0
    if failed.isEmpty then (s, some ((parts.drop skip).take (c.unitCount j * c.srcBytes)), [])
    else (s, none, failed.filter (fun u => !old.contains u))

/-- R216, R426: the counts of a carriage's conversions. A NaR that CARRIAGE_OUT or an Exchange-bank carriage converts counts on no event source
(DESIGN CHOICE, log entry 82: R41 and R426 differ there). -/
def countCarriage (s : State) (c : Carriage) (k : ConvCount) : State :=
  if !c.out && c.kind != 2 then (s.calCore c.core [(c.tensor, k)]).countConv c.core k
  else if c.isView then s else s.calChip c.tensor k

/-- R268, R292: a unit of the Exchange bank written from outside belongs to the stored image of the bucket whose image area holds it. -/
def restoreImage (s : State) (unit : Nat) : State :=
  let holds (x : Nat) : Bool :=
    let base := CtxRec.image (s.context x).record.toNat
    s.contextLive x && DirEntry.owner (s.bucketEntry x) == s.chipId && decide (base ≤ unit) && decide (unit < base + 4 * (s.imageShape x).flits)
  ((s.contexts.map (·.1)).filter holds).foldl (fun s x => s.updContext x (fun k => { k with hasImage := true })) s

/-- R167, R401: a destination unit written. Slices, the Exchange bank and the foyer take whole units; a stage store takes words. What the last
unit or word has beyond the data is zero: R167 says so of slices, elsewhere it is a DESIGN CHOICE (log entry 83). -/
def landUnit (s : State) (c : Carriage) (j : Nat) (d : List Byte) : State :=
  match c.to_ j with
  | (.store k, off) => s.storeWords k (off / 4) ((chunks 4 16 (padTo (4 * ceilDiv d.length 4) 0 d)).map (fun b => BitVec.ofNat 32 (ofBytes b)))
  | (.foyer, off) => (s.putBytes .foyer off (padTo 64 0 d)).renewFoyer off 64
  | (.exchange, off) => (s.writeUnit .exchange off d).restoreImage (off / 64)
  | (sp, off) => s.writeUnit sp off d

/-- Destination unit j's bytes, converted (R149); none when a source unit fails. -/
def convertUnit (s : State) (c : Carriage) (j : Nat) : State × Option (List Byte) × List Nat :=
  match s.gather c j with
  | (s, none, f) => (s, none, f)
  | (s, some b, f) =>
    let co := s.company (c.company.getD 0)
    let (seed, step) := if c.company.isSome then (co.seed, co.step.toNat) else (Config.bankSeed, Config.bankStep)
    let (d, k) := convertRun c.srcType c.dstType c.rounding seed step c.tensor (c.index + c.unitFirst j)
      (chunks c.srcBytes 64 b)
    (s.countCarriage c k, some d, f)

/-- A carriage put back in the list. -/
def putCarriage (s : State) (c : Carriage) : State :=
  { s with carriages := s.carriages.map (fun d => if d.id == c.id then c else d) }

/-- R346: failing source units noted. -/
def noteFails (c : Carriage) (failed : List Nat) : Carriage :=
  let (_, n) := c.from_
  { c with
    fails := c.fails + failed.length
    firstFail := match c.firstFail, failed with | none, u :: _ => some (n + u) | f, _ => f }

/-- R91: every predecessor of an act has ended in the present start. -/
def predsEnded (s : State) (c a : Nat) : Bool := (Act.preds (s.actDesc c a)).all (s.company c).ended.contains

/-- R91: the acts that the mode allows next, in script order. -/
def candidates (s : State) (c : Nat) : List Nat :=
  let k := s.company c
  let n := match k.script with | some p => p.acts.length | none => 0
  let left := (List.range n).filter (fun a => !k.ended.contains a)
  if k.reproducible then left.take 1 else left

/-- R438: a curtain of the company is held at step 3 by a HOLD_CARRIAGE of this name. -/
def heldByName (s : State) (c name : Nat) : Bool :=
  (s.company c).at_ == .choice && (s.candidates c).any (fun a => s.predsEnded c a &&
    (List.range 4).any (fun i => Act.hold (s.actDesc c a) i == (1, name)))

/-- R108, R345, R346: a carriage ends with a status; its hold name counts as landed where it landed. -/
def endCarriage (s : State) (c : Carriage) (status : Nat) : State :=
  let s := { s with carriages := s.carriages.filter (fun d => d.id != c.id) }
  let s := match c.company with
    | some k => if c.notBefore != 0 && !c.out && s.heldByName k c.holdName then s.setTaint k else s
    | none => s
  let s := match c.company with
    | some k => if !c.out && status != St.halted then
        s.updCompany k (fun co => { co with landedNames := if co.landedNames.contains c.holdName then co.landedNames else co.landedNames ++ [c.holdName] })
      else s
    | none => s
  let body := if status == St.uncorrectable then c.firstFail.getD 0 + 2 ^ 32 * c.fails else 0
  s.complete c.ring true c.opcode c.company c.tag.toNat status noField body

/-- A carriage that has moved its last unit: it completes, or awaits the other chip's acknowledgement (R345). -/
def finishCarriage (s : State) (c : Carriage) : State :=
  if c.moved < c.units then s
  else if c.destChip != 0xFFFF then s.putCarriage { c with remote := true }
  else s.endCarriage c (if c.fails == 0 then St.ok else St.uncorrectable)

/-- R345, R346: up to four destination units of a carriage for another chip leave as a CARRIAGE packet: one data flit and, where some of its
units must stay unwritten, a flit that marks them. The spec gives this payload no layout (DESIGN CHOICE, log entry 51). -/
def sendFlit (s : State) (c : Carriage) : State :=
  let us := padTo 4 none c.flit
  if us.all Option.isNone then s
  else s.emit
    { type := 4, company := c.company.getD 0, dest := c.destChip, context := c.id % 4096, seq := (c.moved - 1) / 4,
      step := match c.company with | some k => (s.company k).step.toNat | none => 0,
      payload := padTo 256 0 (us.flatMap (fun u => padTo 64 0 (u.getD []))) ++
        if us.all Option.isSome then [] else padTo 256 0 (us.map (fun u => if u.isSome then 0 else 1)) }

/-- R105, R167, R345: the next destination unit of a carriage moves; for another chip it waits for its flit. A door counts destination units
(DESIGN CHOICE, log entry 81). -/
def moveCarriage (s : State) (id : Nat) : State :=
  match s.carriages.find? (fun c => c.id == id) with
  | none => s
  | some c =>
    if c.moved ≥ c.units then s
    else if c.destChip == 0xFFFF then
      let (s, d, f) := s.convertUnit c c.moved
      let s := match d with | some d => s.landUnit c c.moved d | none => s
      let c := { noteFails c f with moved := c.moved + 1 }
      (s.putCarriage c).finishCarriage c
    else
      let (s, d, f) := s.convertUnit c c.moved
      let c := { noteFails c f with moved := c.moved + 1, flit := c.flit ++ [d] }
      if c.flit.length == 4 || c.moved == c.units then
        ((s.sendFlit c).putCarriage { c with flit := [] }).finishCarriage { c with flit := [] }
      else s.putCarriage c

/-! ### Bucket buffers and broadcasts -/

/-- R253: the next unit of a bucket buffer can be read: the context is triggered, its plan takes the buffer, and its window has room. -/
def canRead (s : State) (x : Nat) : Bool :=
  let k := s.context x
  let p := s.planRec x
  s.contextLive x && s.jobRuns (s.contextJob x) && k.state == .reducing && k.trigger.isSome && PlanRec.contributes p &&
    decide (k.read < DirEntry.units (s.bucketEntry x)) && (PlanRec.role p == 1 || decide (k.read / 4 < k.f0 + 2))

/-- R253, R260, R402: the next unit of a bucket buffer read into the context's own flits; an uncorrectable unit aborts the job. -/
def readBucket (s : State) (x : Nat) : State :=
  let k := s.context x
  let core := CtxRec.core k.record.toNat
  match s.readUnit (.slice core) (64 * (CtxRec.bufferBase k.record.toNat + k.read)) (fun s => s.countCore core 0x13 1) with
  | (s, none) => s.abortJob (s.contextJob x) k.step 5
  | (s, some b) =>
    let f := k.read / 4
    let own := match k.own.find? (fun o => o.1 == f) with
      | some o => (f, o.2 ++ b)
      | none => (f, b)
    let k := { k with read := k.read + 1, own := k.own.filter (fun o => o.1 != f) ++ [own] }
    if PlanRec.role (s.planRec x) == 1 && own.2.length == 256 then
      (s.setContext x { k with own := k.own.filter (fun o => o.1 != f), sending := k.sending ++ [own.2], f0 := f + 1 }).sendUp x
    else s.setContext x k

/-- A flit of the broadcast image that a context holds: from the packets received, or, at the owner, as it was read and sent. -/
def imageFlit (s : State) (x f : Nat) : Option (List Byte) := ((s.context x).image.find? (fun p => p.1 == f)).map (·.2)

/-- R272: the next value unit of a context can land. -/
def canLand (s : State) (x : Nat) : Bool :=
  let k := s.context x
  s.contextLive x && s.jobRuns (s.contextJob x) && k.state == .landing && decide (k.landed < (s.imageShape x).valueUnits) &&
    (s.imageFlit x (k.landed / 4)).isSome

/-- R207, R270: the exponent block of a context's image, once every flit of the image is at hand. -/
def exponentBlock (s : State) (x : Nat) : Option (List Byte) :=
  let i := s.imageShape x
  let fs := (List.range i.flits).map (s.imageFlit x)
  if fs.all Option.isSome then some (((fs.flatMap (fun f => f.getD [])).drop i.valueBytes).take i.channels) else none

/-- R207: the exponents of every landed context of the job are at hand. -/
def exponentsHere (s : State) (j : Nat) : Bool :=
  (s.jobContexts j).all (fun x => (s.context x).state != .landed || (s.exponentBlock x).isSome)

/-- R244: the scene margin of a job's tree is 0. -/
def noMargin (s : State) (j : Nat) : Bool := match (s.job j).scene with | some t => t.margin == 0 | none => false

/-- R244: the scene change that a job waits for, step, tick and epoch, once it can apply: its tick has come, or the margin is 0. -/
def sceneDue (s : State) (j : Nat) : Option (Nat × Nat × Nat) :=
  (s.job j).due.filter (fun d => s.jobRuns j && (decide (d.2.1 ≤ s.now) || s.noMargin j) && s.exponentsHere j)

/-- R245: a scene change of one of the company's jobs comes first. -/
def sceneFirst (s : State) (c : Nat) : Bool := s.jobs.any (fun p => s.jobCompany p.1 == c && (s.sceneDue p.1).isSome)

/-- R251, R272, R274: a context whose last value unit has landed is LANDED; its record is posted if its report bit asks for it. -/
def finishLanding (s : State) (x : Nat) : State :=
  let k := s.context x
  if k.state != .landing || k.landed < (s.imageShape x).valueUnits then s
  else
    let c := s.jobCompany (s.contextJob x)
    let s := s.setContext x { k with state := .landed, busySince := none, landOrder := 0 }
    let s := s.countChip 0x49 (some c) 1
    let s := s.updCompany c (fun co => { co with landedContexts := if co.landedContexts.contains x then co.landedContexts else co.landedContexts ++ [x] })
    let s := if CtxRec.report k.record.toNat then s.postCompany c 6 (s.bucketBody x 2 false false false 0) else s
    s.sceneProgress (s.contextJob x)

/-- R272: the next value unit lands; the last one is padded with zero. -/
def landBucket (s : State) (x : Nat) : State :=
  let k := s.context x
  let i := s.imageShape x
  let u := k.landed
  let n := min 64 (i.valueBytes - 64 * u)
  let d := (((s.imageFlit x (u / 4)).getD []).drop (64 * (u % 4))).take n
  let s := s.writeUnit (.slice (CtxRec.core k.record.toNat)) (64 * (CtxRec.landingBase k.record.toNat + u)) d
  (s.updContext x (fun k => { k with landed := u + 1 })).finishLanding x

/-! ### Doors (R104, R105) -/

end State

/-- An item bound to a door channel. -/
inductive DoorItem where
  | carriage (id : Nat)
  | read (x : Nat)
  | land (x : Nat)
  deriving DecidableEq, Repr

namespace State

/-- R105, R167: the queued items of a core's channel with their order of arrival: carriages that have units to move or none at all, a delayed
one included, and the reads and landings of contexts that can move now. -/
def channelItems (s : State) (core channel : Nat) : List (Nat × DoorItem) :=
  let mine (x : Nat) : Bool :=
    let r := (s.context x).record.toNat
    CtxRec.core r == core && CtxRec.door r == channel
  (s.carriages.filter (fun c => c.company.isSome && c.core == core && c.channel == channel && !c.isView && c.kind != 2 && !c.remote)).map
    (fun c => (c.id, .carriage c.id)) ++
  ((s.contexts.map (·.1)).filter (fun x => mine x && s.canRead x)).map (fun x => ((s.context x).readOrder, .read x)) ++
  ((s.contexts.map (·.1)).filter (fun x => mine x && s.canLand x)).map (fun x => ((s.context x).landOrder, .land x))

/-- The item that arrived first. -/
def earliest : List (Nat × DoorItem) → Option DoorItem
  | [] => none
  | i :: t => some (t.foldl (fun (a b : Nat × DoorItem) => if b.1 < a.1 then b else a) i).2

/-- A queued carriage by its number. -/
def carriage? (s : State) (id : Nat) : Option Carriage := s.carriages.find? (fun c => c.id == id)

/-- R105: an item's units go through doors of this target. -/
def itemTarget (s : State) (toStore : Bool) : DoorItem → Bool
  | .carriage id => match s.carriage? id with
    | some c => (!c.out && c.kind == 1) == toStore
    | none => false
  | _ => !toStore

/-- R437: an item that starts late has not started. -/
def itemDelayed (s : State) : DoorItem → Bool
  | .carriage id => match s.carriage? id with
    | some c => decide (c.notBefore > s.now)
    | none => false
  | _ => false

/-- R105: the item whose next unit a door of this target moves: the first of its target. One that is delayed holds back those behind it
(DESIGN CHOICE, log entry 81). -/
def doorNext (s : State) (core channel : Nat) (toStore : Bool) : Option DoorItem :=
  (earliest ((s.channelItems core channel).filter (fun i => s.itemTarget toStore i.2))).filter (fun i => !s.itemDelayed i)

/-- R168: carriages of length 0 at the front of a channel complete. -/
def finishEmpties (s : State) (core channel : Nat) : State :=
  (List.range s.carriages.length).foldl (fun s _ => match earliest (s.channelItems core channel) with
    | some (.carriage id) => match s.carriage? id with
      | some c => if c.units == 0 && decide (c.notBefore ≤ s.now) then s.endCarriage c St.ok else s
      | none => s
    | _ => s) s

/-- One unit of an item moves; the Exchange's items go by its directory and contexts. -/
def moveItem (s : State) : DoorItem → State
  | .carriage id => s.moveCarriage id
  | .read x => s.throughExchange (fun s => s.readBucket x)
  | .land x => s.throughExchange (fun s => s.landBucket x)

/-- R105: the channel's queued units move in order of arrival until the capacity is used; answers how many moved. -/
def doorMove (s : State) (core channel : Nat) (toStore : Bool) : Nat → State × Nat
  | 0 => (s, 0)
  | cap + 1 =>
    let s := s.finishEmpties core channel
    match s.doorNext core channel toStore with
    | none => (s, 0)
    | some i =>
      let (s, n) := (s.moveItem i).doorMove core channel toStore cap
      (s, n + 1)

/-- R107, R167: queued items of a company land at full rate: it has no act running, or it is at a curtain. -/
def fullRate (s : State) (c : Nat) : Bool :=
  let k := s.company c
  k.mode != .running || k.at_ != .none

/-- R167, R382: the slices can be reached: the device is in RUN or INTERVAL. -/
def awake (s : State) : Bool := (s.power == .run || s.power == .interval) && !s.fatal

end State

/-- R105, R167: no item that arrived earlier waits on the channel, whatever its target. -/
def State.firstOnChannel (s : State) (core channel order : Nat) : Bool :=
  (s.channelItems core channel).all (fun i => decide (order ≤ i.1))

/-- R5, R107, R167, R382: a carriage's next unit may land without a door: it names no core, or its company has no act running, or its core
lies outside the script grid; and the items before it on its channel have landed. -/
def State.carriageFree (s : State) (c : Carriage) : Bool :=
  match c.company with
  | none => s.awake
  | some k => s.awake && (s.fullRate k || decide (c.core % 64 / 8 ≥ s.scriptRows k)) && (c.isView || s.firstOnChannel c.core c.channel c.id)

/-- R168: a carriage of length 0 needs no door; it completes in order, behind the items before it on its channel. -/
def State.emptyFree (s : State) (c : Carriage) : Bool :=
  s.awake && (c.company.isNone || c.isView || s.firstOnChannel c.core c.channel c.id)

/-- R107, R167, R168: the next unit of a carriage lands at full rate; a carriage of length 0 completes. -/
def execCarriageUnitLanding (carriage : Nat) (s : State) : Answer :=
  .next (match s.carriages.find? (fun c => c.id == carriage) with
    | none => s
    | some c =>
      if c.notBefore > s.now || c.remote then s
      else if c.units == 0 then (if s.emptyFree c then s.endCarriage c St.ok else s)
      else if s.carriageFree c then s.moveCarriage carriage
      else s)

/-- R105, R107: an item of a context on its core's channel may move at full rate. -/
def State.contextFree (s : State) (x order : Nat) : Bool :=
  let r := (s.context x).record.toNat
  s.awake && s.fullRate (s.jobCompany (s.contextJob x)) && s.firstOnChannel (CtxRec.core r) (CtxRec.door r) order

/-- R253: the next unit of the bucket buffer is read at full rate. -/
def execBucketBufferRead (context : Nat) (s : State) : Answer :=
  .next (if s.canRead context && s.contextFree context (s.context context).readOrder then s.throughExchange (fun s => s.readBucket context) else s)

/-- R272: the next value unit of the broadcast lands at full rate. -/
def execBroadcastLanding (context : Nat) (s : State) : Answer :=
  .next (if s.canLand context && s.contextFree context (s.context context).landOrder then s.throughExchange (fun s => s.landBucket context) else s)

/-- R345: the destination chip acknowledges a carriage. -/
def execCarriageAcknowledgement (carriage : Nat) (s : State) : Answer :=
  .next (match s.carriages.find? (fun c => c.id == carriage) with
    | some c => if c.remote then s.endCarriage c (if c.fails == 0 then St.ok else St.uncorrectable) else s
    | none => s)

end Sys2Proof.Machine
end

