-- ==== Sys2Proof/Machine/Engine.lean ====
section
/-! DEFINITION. The running cycles of a core: what its operations in flight read, write, send and add in each cycle, the bank check, the
faults of a cycle, the freeze of a handshake, and the refresh cadence (R87, R96, R109, R136 to R138, R143, R144, R183, R297). -/
namespace Sys2Proof.Machine

/-! ### Cycles of a DMA (R129, R144) -/

namespace DmaFlight

/-- The store-side unit written at cycle x of a transfer into the stage store. -/
def writeUnit (d : DmaFlight) (x : Nat) : Option Nat :=
  let y := x - (d.issue + 24)
  let v := 3 * y / 4
  if x > d.issue + 24 && v ≥ 1 && ceilDiv (4 * v) 3 == y && v ≤ d.storeUnits then some (v - 1) else none

/-- The store-side unit read at cycle x of a transfer out of the stage store. -/
def readUnit (d : DmaFlight) (x : Nat) : Option Nat :=
  let z := x - (d.issue + 1)
  let u := ceilDiv (3 * z) 4
  if x ≥ d.issue + 1 && 4 * u / 3 == z && u < d.storeUnits then some u else none

/-- The slice unit written at cycle x: units in order, each 12 cycles after the path has moved its share. DESIGN CHOICE (assumption 77): the
spec states the store side's cycles and the completion only. -/
def sliceUnit (d : DmaFlight) (x : Nat) : Option Nat :=
  let y := x - (d.issue + 12)
  let w := 3 * y / 4
  let v := w * d.sliceUnits / d.units
  if x > d.issue + 12 && d.units > 0 && ceilDiv (4 * w) 3 == y && v ≥ 1 && v ≤ d.sliceUnits &&
    ceilDiv (v * d.units) d.sliceUnits == w then some (v - 1) else none

/-- Completion cycle (R135). -/
def doneAt (d : DmaFlight) : Nat := d.issue + ceilDiv (4 * d.units) 3 + (if Dma.toSlice d.desc.toNat then 12 else 24)

/-- Stage-store words of store-side unit u. -/
def unitAddrs (d : DmaFlight) (u : Nat) : List Nat := (Dma.unitWords d.desc.toNat u).map (Dma.imageAddr d.desc.toNat d.store)

/-- Element e of a transfer into the stage store, in the order of R153, as the slice held it (R150). -/
def rawElem (d : DmaFlight) (e : Nat) : List Byte :=
  let x := d.desc.toNat
  let at_ := e / Dma.length x * Dma.rowUnits x * 64 + e % Dma.length x * Dma.sliceBytes x
  (d.source.drop at_).take (Dma.sliceBytes x)

/-- R149, R150, R153: the words of store-side unit u of a transfer into the stage store, and the counts of the elements that begin in it. -/
def unitImage (d : DmaFlight) (seed : BitVec 64) (step u : Nat) : List Word × ConvCount :=
  let x := d.desc.toNat
  let tb := Dma.storeBytes x
  let sources := (Dma.unitWords x u).map (Dma.imageSource x)
  let offsets := sources.flatten.filterMap id
  let els := (offsets.map (· / tb)).eraseDups.map (fun e =>
    (e, convertRun (Dma.srcType x) (Dma.dstType x) (Dma.rounding x) seed step (Dma.tensor x) (d.elem + e) [d.rawElem e]))
  let byte (o : Nat) : Byte := match els.find? (fun p => p.1 == o / tb) with | some p => p.2.1.getD (o % tb) 0 | none => 0
  (sources.map (fun os => BitVec.ofNat 32 (ofBytes (os.map (fun o => match o with | some o => byte o | none => 0)))),
    (els.filter (fun p => offsets.contains (p.1 * tb))).foldl (fun k p => k.add p.2.2) {})

/-- R138: the lowest failing slice unit, counted within the transfer, that feeds store-side unit u. -/
def failingFor (d : DmaFlight) (u : Nat) : Option Nat :=
  let x := d.desc.toNat
  let units := (Dma.unitWords x u).flatMap (fun w => (Dma.imageSource x w).filterMap (fun o => o.map (fun o =>
    let e := o / Dma.storeBytes x
    e / Dma.length x * Dma.rowUnits x + e % Dma.length x * Dma.sliceBytes x / 64)))
  (units.filter d.failed.contains).foldl (fun m v => match m with | none => some v | some a => some (min a v)) none

/-- The elements of slice unit v: their row and their numbers in it (R150). -/
def sliceElems (d : DmaFlight) (v : Nat) : Nat × List Nat :=
  let x := d.desc.toNat
  let per := 64 / Dma.sliceBytes x
  let j := v % Dma.rowUnits x
  (v / Dma.rowUnits x, (List.range (min per (Dma.length x - j * per))).map (j * per + ·))

/-- Slice address of unit v of the transfer (R150). -/
def sliceAddr (d : DmaFlight) (v : Nat) : Nat :=
  let x := d.desc.toNat
  d.slice + v / Dma.rowUnits x * Dma.slicePitch x + v % Dma.rowUnits x

end DmaFlight

/-! ### Cycles of a call (R183) -/

namespace CallFlight

def groups (f : CallFlight) : Nat := ceilDiv f.count 16
/-- Elements of group g. -/
def size (f : CallFlight) (g : Nat) : Nat := min 16 (f.count - 16 * g)
def groupWords (f : CallFlight) (g : Nat) : Nat := ceilDiv (f.size g * f.n) 32
def doneAt (f : CallFlight) : Nat := f.issue + f.depth + (f.groups - 1) * f.interval

/-- The group whose event with this delay from the issue falls in cycle x. -/
def groupAt (f : CallFlight) (x delay : Nat) : Option Nat :=
  if x < f.issue + delay then none
  else
    let z := x - (f.issue + delay)
    if z % f.interval == 0 && z / f.interval < f.groups then some (z / f.interval) else none

/-- R182: address of a vector. -/
def vectorAt (f : CallFlight) (v : Nat) : Nat := f.aux + 16 + v * ceilDiv (f.count * f.n) 32

/-- The elements of a group from the words read. -/
def elements (f : CallFlight) (g : Nat) (bytes : List Byte) : List Wide :=
  (chunks (f.n / 8) 16 (bytes.take (f.size g * f.n / 8))).map (fun b => toWide (posit f.n (ofBytes b)))

end CallFlight

/-! ### Accesses of a cycle (R144) -/

/-- The accesses of an operation in running cycle x; `i` is its place in the core's list. -/
def Flight.accesses (k : Core) (x : Nat) (stalled : Bool) (i : Nat) : Flight → List Acc
  | .pass p =>
    if stalled || x ≤ p.issue then []
    else ((List.range 2).zip (p.reads (p.prog + 1))).map (fun q => ⟨i, q.1, false, q.2, false⟩)
  | .strike f =>
    let cfg := k.apronCfg f.cfg
    let r := x - (f.issue + Apron.latency cfg)
    (if x == f.issue then ((List.range 2).zip (f.operandAddrs cfg)).map (fun q => ⟨i, q.1, false, q.2, false⟩) else []) ++
    (if x ≥ f.issue + Apron.latency cfg && r < 16 then [⟨i, 2, true, f.rowAddrs cfg r, false⟩] else [])
  | .dma d =>
    if Dma.toSlice d.desc.toNat then
      match d.readUnit x with | some u => [⟨i, 0, false, d.unitAddrs u, false⟩] | none => []
    else match d.writeUnit x with | some u => [⟨i, 0, true, d.unitAddrs u, false⟩] | none => []
  | .door d => if d.toStore && d.issue < x && x ≤ d.issue + 3 + d.capacity then [⟨i, 0, true, [], true⟩] else []
  | .send d => if d.issue < x && d.done < d.units then [⟨i, 0, false, span (d.store + 16 * d.done) 16, false⟩] else []
  | .recv d => if d.issue < x && d.done < d.units then [⟨i, 0, true, span (d.store + 16 * d.done) 16, false⟩] else []
  | .call f =>
    match k.program f.entry with
    | none => []
    | some p =>
      let ws := p.steps.map StepWord.ofBits
      (if x == f.issue && readsParams ws then [⟨i, 0, false, span f.aux 16, false⟩] else []) ++
      (match f.groupAt x 1 with
        | some g =>
          [⟨i, 1, false, span (f.src + g * f.n / 2) (f.groupWords g), false⟩] ++
          (if readsVector ws 0 then [⟨i, 2, false, span (f.vectorAt 0 + g * f.n / 2) (f.groupWords g), false⟩] else []) ++
          (if readsVector ws 1 then [⟨i, 3, false, span (f.vectorAt 1 + g * f.n / 2) (f.groupWords g), false⟩] else [])
        | none => []) ++
      (if p.writesOutput then match f.groupAt x f.depth with
        | some g => [⟨i, 4, true, span (f.dst + g * f.n / 2) (f.groupWords g), false⟩]
        | none => [] else [])

/-! ### The work of a cycle -/

/-- A fault of a cycle: source, code and address. MEMORY faults come first, then the lowest code (R137). -/
structure CycleFault where
  source : Nat
  code : Nat
  address : Nat
  deriving DecidableEq, Repr

def CycleFault.rank (f : CycleFault) : Nat := if f.source == 1 then f.code else 16 + f.code

/-- R137: the first of a cycle's faults, MEMORY faults before core faults, then the lowest code. Of two faults of one code, the record of
the lowest address is kept: DESIGN CHOICE (assumption 78), the spec names none. -/
def firstFault (a b : Option CycleFault) : Option CycleFault :=
  match a, b with
  | none, f => f
  | f, none => f
  | some f, some g => if g.rank < f.rank || (g.rank == f.rank && g.address < f.address) then some g else some f

/-- What a cycle builds: the state, the operations that go on, the faults, the words to sign (R297), the conversions to count (R217), and the
groups that landed (R52). -/
structure Cycle where
  s : State
  keep : List Flight := []
  faults : List CycleFault := []
  sig : List (Nat × Nat × Word) := []
  conv : List (Nat × ConvCount) := []
  landings : List (PassFlight × List Nat) := []
  deriving DecidableEq, Repr

namespace Cycle

def fault (y : Cycle) (source code address : Nat) : Cycle := { y with faults := y.faults ++ [⟨source, code, address⟩] }
def go (y : Cycle) (f : Flight) : Cycle := { y with keep := y.keep ++ [f] }
def sign (y : Cycle) (kind a : Nat) (d : Word) : Cycle := { y with sig := y.sig ++ [(kind, a, d)] }

/-- R393, R401: a read of on-chip places: the corrected ones are counted, each other raises a MEMORY fault at its address. Answers whether
the read met such a place. -/
def reads (y : Cycle) (core code : Nat) (address : SramPlace → Option Nat) : Cycle × Bool :=
  let hits := y.s.sram.filterMap (fun e => (address e.1).map (fun a => (a, e.2)))
  let y := { y with s := y.s.countCore core 0x14 (hits.countP (fun h => h.2 == 1)) }
  let bad := hits.filter (fun h => decide (h.2 ≥ 2))
  (bad.foldl (fun y h => y.fault 1 code h.1) y, !bad.isEmpty)

/-- R393: a read of an active cue by a core. -/
def readsSetting (y : Cycle) (core cls : Nat) : Cycle × Bool :=
  y.reads core 5 (fun e => match e with | .setting k i => if k == core && i == cls then some cls else none | _ => none)

/-- R393: a read of a cell's quire slot or its status. -/
def readsQuire (y : Cycle) (core slot : Nat) (cells : List Nat) : Cycle × Bool :=
  y.reads core 2 (fun e => match e with
    | .quire k q cell => if k == core && inSlot slot q && cells.contains cell then some (slot + 256 * cell) else none
    | _ => none)

/-- An operation that has completed (R136). -/
def finish (y : Cycle) (core x : Nat) : Cycle := { y with s := y.s.updCore core (fun k => { k with completed := max k.completed x }) }

/-- A word put into a list in ascending address order, after those of its address. -/
def insertWord (w : Nat × Word) : List (Nat × Word) → List (Nat × Word)
  | [] => [w]
  | v :: t => if w.1 < v.1 then w :: v :: t else v :: insertWord w t

/-- Words written to the stage store, signed in ascending address order within one operation (R297). -/
def writeSigned (y : Cycle) (core kind : Nat) (ws : List (Nat × Word)) : Cycle :=
  let s := ws.foldl (fun s w => s.storeWord core w.1 w.2) y.s
  let sorted := ws.foldl (fun l w => insertWord w l) []
  { y with s := s, sig := y.sig ++ sorted.map (fun w => (kind, w.1, w.2)) }

/-- A conversion counted on the core's sources, and noted for the calibration sets of its tensor (R216, R217, R426). -/
def convert (y : Cycle) (core tensor : Nat) (k : ConvCount) : Cycle :=
  { y with s := y.s.countConv core k, conv := y.conv ++ [(tensor, k)] }

/-- The passes that go on in this cycle, all issued before the one that runs now. -/
def passes (y : Cycle) : List PassFlight := y.keep.filterMap (fun f => match f with | .pass p => some p | _ => none)

/-- One cycle of a pass (R67, R68, R70). `unread` says that its stream reads bring nothing. -/
def pass (y : Cycle) (s0 : State) (core x : Nat) (unread : Bool) (p : PassFlight) : Cycle :=
  let n := p.prog + 1
  let p' := match p.reads n with
    | [a, b] => if unread then { p with prog := n } else { p with
        prog := n
        aRead := p.aRead ++ halfWords (a.map (s0.word core))
        bRead := p.bRead ++ halfWords (b.map (s0.word core)) }
    | _ => { p with prog := n }
  let cells := (List.range 256).filter (fun cell => p.covers (cell % 16) && (p'.landing n (cell / 16) (cell % 16 - p.col0)).isSome &&
    !p.lost.contains cell)
  let y := (y.readsQuire core p.slot.toNat cells).1
  let bad := cells.filter (fun cell => y.s.sram.any (fun e => decide (e.2 ≥ 2) && (match e.1 with
    | .quire k q i => k == core && i == cell && inSlot p.slot.toNat q
    | _ => false)))
  let (k, done) := (y.s.core core).landPass p' y.passes bad n
  let s := (y.s.setCore core k).sramRenew (fun e => match e with
    | .quire k q cell => k == core && inSlot p.slot.toNat q && done.wiped.contains cell
    | _ => false)
  let y := { y with
    s := s.countCore core 0x02 (p.lanesBusy n)
    keep := y.keep.map (fun (f : Flight) => match f with | .pass e => Flight.pass (e.overtake p.slot done) | f => f)
    landings := y.landings ++ [(p', done.landed)] }
  if n == p.done then y.finish core x else y.go (.pass p')

/-- R52, R393: the traps of the cycle's landings, each against the company's trap mask, once all groups of the cycle have landed. -/
def traps (y : Cycle) (s0 : State) (core : Nat) : Cycle :=
  let mask := (s0.company ((s0.companyOf core).getD 0)).trap.active.toNat
  let asked := y.landings.filter (fun l => !l.2.isEmpty && (l.1.trapLapse || l.1.trapOverflow))
  let y := if asked.isEmpty then y else (y.readsSetting core 5).1
  let k := y.s.core core
  asked.foldl (fun y l => match k.trapOf l.1 l.2 (mask.testBit 1) (mask.testBit 0) with
    | some (code, a) => y.fault 0 code a
    | none => y) y

/-- R55, R76, R79: row r drained from the quire, its faults and its part of the strike status. The status events of a row are counted in the
cycle that reads the row: DESIGN CHOICE (assumption 79). -/
def strikeRead (y : Cycle) (s0 : State) (core cfg r : Nat) (f : StrikeFlight) : Cycle × StrikeFlight :=
  if r < 16 then
    let k0 := s0.core core
    let vals := k0.drainRow f r
    let lapsed := k0.statusCells f r Status.lapsed
    let overflow := k0.statusCells f r Status.overflow
    let y := { y with s := (y.s.countCore core 0x0D lapsed).countCore core 0x0E overflow }
    let y := (y.readsQuire core f.slot.toNat ((List.range f.cols).map (fun c => r * 16 + f.col0 + c))).1
    let y := (y.readsSetting core 2).1
    let y := if Apron.scaleEnable cfg then (y.readsSetting core 1).1 else y
    let t : StrikeStatus := ⟨f.status.lapsed + lapsed, f.status.overflow + overflow, f.status.nar + k0.statusCells f r Status.nar⟩
    let y := { y with s := y.s.updCore core (fun k => { k with strikeStatus := t }) }
    (y, { f with status := t, rows := f.rows ++ [{ row := r, vals := vals.map (·.1), exps := vals.map (·.2) }] })
  else (y, f)

/-- R393, R400: a function-table activation reads its table from the third cycle after the row's quire read on. -/
def strikeTable (y : Cycle) (core x cfg : Nat) (f : StrikeFlight) : Cycle :=
  if Apron.activation cfg == 2 && f.issue + 3 ≤ x && x ≤ f.issue + 18 then
    (y.reads core 4 (fun e => match e with
      | .rowStore k part off => if k == core && part == Apron.tableSlot cfg then some off else none
      | _ => none)).1
  else y

/-- R79, R83, R208: the row whose conversion falls in cycle x, converted. Of the two cycles of a conversion, the counts and the side-band
word's look at the holds fall in the first: DESIGN CHOICE (assumption 80). -/
def strikeConvert (y : Cycle) (s0 : State) (core x cfg : Nat) (f : StrikeFlight) : Cycle × StrikeFlight :=
  match f.rows.find? (fun (q : StrikeRow) => x == f.issue + q.row + Apron.convDelay cfg) with
  | none => (y, f)
  | some q =>
    let co := s0.company ((s0.companyOf core).getD 0)
    let k := y.s.core core
    let hold := SMap.get none k.holds q.row
    let hold' := if Apron.rowScaleOut cfg then decideHold hold q.vals else hold
    let shift := if Apron.rowScaleOut cfg then hold'.getD 0 else 0
    let (outs, cnt) := convertRow cfg (formatBits (f.slot.toNat / 4)) f.cols f.elem q.row co.seed co.step.toNat shift (q.vals.zip q.exps)
    let holds := SMap.set none k.holds q.row hold'
    let y := { y with s := y.s.setCore core { k with holds := holds } }
    let q' : StrikeRow := { q with words := packRow (Apron.outFormat cfg) outs, side := sideWord holds q.row }
    (y.convert core (Apron.tensor cfg) cnt, { f with rows := f.rows.map (fun (t : StrikeRow) => if t.row == q.row then q' else t) })

/-- One cycle of a strike (R75, R79). -/
def strike (y : Cycle) (s0 : State) (core x : Nat) (bad : Bool) (f : StrikeFlight) : Cycle :=
  let cfg := (s0.core core).apronCfg f.cfg
  let y := y.strikeTable core x cfg f
  let bias := if Apron.biasEnable cfg then s0.storeBytes core f.bias (f.cols * formatBits (f.slot.toNat / 4) / 32) else []
  let rexp := if Apron.scaleEnable cfg then s0.storeBytes core f.rexp 4 else []
  let f := if x == f.issue then { f with rexpBytes := rexp, biasBytes := bias } else f
  let p := y.strikeRead s0 core cfg (x - f.issue) f
  let p := p.1.strikeConvert s0 core x cfg p.2
  let f := p.2
  let y := match f.rows.find? (fun (q : StrikeRow) => x == f.issue + q.row + Apron.latency cfg) with
    | none => p.1
    | some q => if bad then p.1
      else p.1.writeSigned core 0 ((f.rowAddrs cfg q.row).zip (q.words ++ [q.side]))
  if x == f.issue + 15 + Apron.latency cfg then y.finish core x else y.go (.strike f)

/-- One cycle of a DMA into the stage store (R129, R138): a unit's elements are converted, and counted, as it is written. -/
def dmaIn (y : Cycle) (s0 : State) (core x : Nat) (bad : Bool) (d : DmaFlight) : Cycle :=
  let y := match d.writeUnit x with
    | none => y
    | some u =>
      match d.failingFor u with
      | some v => y.fault 0 4 (d.sliceAddr v)
      | none => if bad then y
        else
          let co := s0.company ((s0.companyOf core).getD 0)
          let i := d.unitImage co.seed co.step.toNat u
          (y.convert core (Dma.tensor d.desc.toNat) i.2).writeSigned core 1 ((d.unitAddrs u).zip i.1)
  if x == d.doneAt then y.finish core x else y.go (.dma d)

/-- R149: the elements of slice unit v converted, with the unit's 64 bytes. -/
def sliceBytes (s0 : State) (core : Nat) (d : DmaFlight) (v : Nat) : List Byte × ConvCount :=
  let x := d.desc.toNat
  let co := s0.company ((s0.companyOf core).getD 0)
  let (g, es) := d.sliceElems v
  let tb := Dma.storeBytes x
  let base := g * Dma.rowWords x * 4
  let els := es.map (fun e => (d.source.drop (base + e * tb)).take tb)
  let (bs, c) := convertRun (Dma.srcType x) (Dma.dstType x) (Dma.rounding x) co.seed co.step.toNat (Dma.tensor x)
    (d.elem + g * Dma.length x + es.headD 0) els
  (padTo 64 0 bs, c)

/-- One cycle of a DMA into the slice (R129, R150). -/
def dmaOut (y : Cycle) (s0 : State) (core x : Nat) (bad : Bool) (d : DmaFlight) : Cycle :=
  let d := match d.readUnit x with
    | none => d
    | some u => if bad then d else { d with source := d.source ++ (d.unitAddrs u).flatMap (fun w => toBytes 4 (s0.word core w).toNat) }
  let y := match d.sliceUnit x with
    | none => y
    | some v =>
      let (bs, c) := sliceBytes s0 core d v
      let a := d.sliceAddr v
      let y := y.convert core (Dma.tensor d.desc.toNat) c
      let y := { y with s := (y.s.writeUnit (.slice core) (64 * a) bs).noteBucketWrite core a }
      { y with sig := y.sig ++ ((List.range 16).zip (chunks 4 16 bs)).map (fun (w : Nat × List Byte) => (2, a * 16 + w.1, BitVec.ofNat 32 (ofBytes w.2))) }
  if x == d.doneAt then y.finish core x else y.go (.dma d)

/-- R104, R105: a door moves its channel's queued units in its last cycle and counts those moved and those unused. -/
def door (y : Cycle) (core x : Nat) (bad : Bool) (d : DoorFlight) : Cycle :=
  let last := if d.toStore then d.issue + 3 + d.capacity else d.issue + 8 + ceilDiv (4 * d.capacity) 3
  let y :=
    if x == last && !bad then
      let (s, n) := y.s.doorMove core d.channel d.toStore d.capacity
      { y with s := (s.countCore core 0x06 n).countCore core 0x07 (d.capacity - n) }
    else y
  if x == (if d.toStore then last + 1 else last) then y.finish core x else y.go (.door d)

/-- One cycle of a SEND (R132). -/
def send (y : Cycle) (s0 : State) (core x : Nat) (bad : Bool) (d : StreetFlight) : Cycle :=
  if x ≤ d.issue || bad then y.go (.send d)
  else
    let y := { y with s := y.s.launchUnit core d.channel x d.delay (s0.storeBytes core (d.store + 16 * d.done) 16) }
    if d.done + 1 == d.units then y.finish core x else y.go (.send { d with done := d.done + 1 })

/-- One cycle of a RECV (R132). -/
def recv (y : Cycle) (core x : Nat) (bad : Bool) (d : StreetFlight) : Cycle :=
  if x ≤ d.issue || bad then y.go (.recv d)
  else
    let bs := y.s.inboxFront core d.channel
    let y := { y with s := y.s.inboxTake core d.channel }
    let y := { y with s := y.s.storeWords core (d.store + 16 * d.done) ((chunks 4 16 bs).map (fun b => BitVec.ofNat 32 (ofBytes b))) }
    if d.done + 1 == d.units then y.finish core x else y.go (.recv { d with done := d.done + 1 })

/-- R183: the output bytes of a group written over the bytes that the words hold. -/
def writeOutput (s : State) (core a : Nat) (bytes : List Byte) : State :=
  let n := ceilDiv bytes.length 4
  let old := s.storeBytes core a n
  s.storeWords core a ((chunks 4 n (bytes ++ old.drop bytes.length)).map (fun b => BitVec.ofNat 32 (ofBytes b)))

/-- R183: a group of a call computed at its read cycle. -/
def callGroup (y : Cycle) (s0 : State) (core : Nat) (p : MicroProgram) (f : CallFlight) (g : Nat) : Cycle × CallFlight :=
  let ws := p.steps.map StepWord.ofBits
  let k := y.s.core core
  let x : RowCtx := { n := f.n, dir := p.direction, tables := k.tables, params := f.params }
  let bytes (a : Nat) := s0.storeBytes core (a + g * f.n / 2) (f.groupWords g)
  let ins := f.elements g (bytes f.src)
  let v0 := if readsVector ws 0 then f.elements g (bytes (f.vectorAt 0)) else []
  let v1 := if readsVector ws 1 then f.elements g (bytes (f.vectorAt 1)) else []
  let es := ((List.range ins.length).zip ins).map (fun e =>
    ({ index := 16 * g + e.1, input := e.2, v0 := v0.getD e.1 0, v1 := v1.getD e.1 0 } : Elem))
  let r := if g == 0 then runPrologue x ws k.rowRegs else k.rowRegs
  let (r, es) := runGroup x ws r es
  let k := { k with ql := r.ql, qlStatus := r.qlStatus, sr := r.sr }
  let s := ((((y.s.setCore core k).countCore core 0x0F r.lapsed).countCore core 0x10 r.overflow).countCore core 0x15 r.reach).countConv core r.conv
  let out := es.flatMap (fun e => toBytes (f.n / 8) e.out)
  ({ y with s := s }, if p.writesOutput then { f with outputs := f.outputs ++ [(g, out)] } else f)

/-- R393: the parts of the row store that a group of a micro-program reads: the store of loaded programs, function slots, quire-lite
registers and statistics. -/
def callReads (p : MicroProgram) (entry ctl part off : Nat) : Bool :=
  let ws := p.steps.map StepWord.ofBits
  let sr (w : StepWord) : Nat := (w.k + ctl % 16) % 16
  if part == 4 then decide (entry ≥ 16)
  else if part < 4 then ws.any (fun w => (w.op == 0x09 || w.op == 0x0A) && !w.src && w.k == part)
  else if part < 7 then ws.any (fun w => ((w.op == 0x0C || w.op == 0x0D) && w.k == part - 5) || (w.op == 0x0F && part == 5) || w.op == 0x10)
  else ws.any (fun w => (w.op == 0x11 || w.op == 0x13) && sr w == off / 16)

/-- One cycle of a call (R183). A group whose reads fail changes nothing (R396). -/
def call (y : Cycle) (s0 : State) (core x : Nat) (i : Nat) (bad : List Acc) (f : CallFlight) : Cycle :=
  match (s0.core core).program f.entry with
  | none => y
  | some p =>
    let ws := p.steps.map StepWord.ofBits
    let f := if x == f.issue && readsParams ws then { f with params := s0.words core f.aux 16 } else f
    let (y, f) := match f.groupAt x 1 with
      | some g =>
        let ctl := (f.params.getD 0 0).toNat
        let (y, failed) := y.reads core 4 (fun e => match e with
          | .rowStore k part off => if k == core && callReads p f.entry ctl part off then some off else none
          | _ => none)
        if failed || blocked bad i 1 || blocked bad i 2 || blocked bad i 3 then (y, f) else callGroup y s0 core p f g
      | none => (y, f)
    let y := match f.groupAt x f.depth with
      | some g => match f.outputs.find? (fun (o : Nat × List Byte) => o.1 == g) with
        | some o => if blocked bad i 4 then y
          else { y with s := writeOutput y.s core (f.dst + g * f.n / 2) o.2 }
        | none => y
      | none => y
    if x == f.doneAt then y.finish core x else y.go (.call f)

/-- One cycle of one operation. -/
def run (s0 : State) (core x : Nat) (stalled : Bool) (bad : List Acc) (y : Cycle) (i : Nat) :
    Flight → Cycle
  | .pass p => if stalled || x ≤ p.issue then y.go (.pass p) else y.pass s0 core x (blocked bad i 0 || blocked bad i 1) p
  | .strike f => y.strike s0 core x (blocked bad i 2) f
  | .dma d => if Dma.toSlice d.desc.toNat then y.dmaOut s0 core x (blocked bad i 0) d else y.dmaIn s0 core x (blocked bad i 0) d
  | .door d => y.door core x (blocked bad i 0) d
  | .send d => y.send s0 core x (blocked bad i 0) d
  | .recv d => y.recv core x (blocked bad i 0) d
  | .call f => y.call s0 core x i bad f

end Cycle

/-- R297: the act signature over the words signed in a cycle, strikes first, then DMA to the stage store, then DMA to the slice. -/
def signWords (sig : BitVec 64) (ws : List (Nat × Nat × Word)) : BitVec 64 :=
  let ordered := ws.filter (·.1 == 0) ++ ws.filter (·.1 == 1) ++ ws.filter (·.1 == 2)
  ordered.foldl (fun g w => mix (g ^^^ BitVec.ofNat 64 (w.1 * 2 ^ 62 + w.2.1 % 2 ^ 30 * 2 ^ 32 + w.2.2.toNat))) sig

/-- A strike of the list stalls the array in this cycle (R75). -/
def stalledAt (fs : List Flight) (x : Nat) : Bool := fs.any (fun f => match f with | .strike k => k.stalls x | _ => false)

/-- The work of the core's present running cycle, without issue: the state after it and the fault it raises (R52, R137, R143, R217, R396). -/
def State.cycleWork (s : State) (core : Nat) : State × Option CycleFault :=
  let k := s.core core
  let x := k.cycle
  let stalled := stalledAt k.flights x
  let accs := ((List.range k.flights.length).zip k.flights).flatMap (fun p => p.2.accesses k x stalled p.1)
  let (bad, conflict) := bankCheck accs
  let y := ((List.range k.flights.length).zip k.flights).foldl
    (fun y p => Cycle.run s core x stalled (bad ++ s.badReads core accs) y p.1 p.2) ({ s := s } : Cycle)
  let y := y.traps s core
  let y := { y with s := y.s.calCore core y.conv }
  let y := match conflict with
    | some a => y.fault 0 5 a
    | none => if bad.isEmpty then y else y.fault 0 5 0
  let y := match s.storeError core accs with
    | some w => y.fault 1 1 w
    | none => y
  let paired := match s.companyOf core with | some c => (s.company c).pair.isSome | none => false
  let s' := y.s.updCore core (fun k => { k with
    flights := y.keep
    sig := if paired then signWords k.sig y.sig else k.sig })
  let s' := (s'.countCore core 0x03 (b2n (stalled && k.flights.any (fun f => match f with | .strike _ => true | _ => false)))).countCore
    core 0x14 (s.storeCorrected core accs)
  (s', y.faults.foldl (fun m f => firstFault m (some f)) none)

namespace State

/-- R373: the core's island is stretched: the level is above 0, or it fell to 0 and the district's wave of 250 ns has not ended. -/
def stretched (s : State) (core : Nat) : Bool :=
  s.stretch != 0 || (match s.fellAt with
    | some t => decide (2 * s.now < 2 * t + 125 * (core / 64 + 1))
    | none => false)

/-- R374: a cycle run under stretch counts as LATE for the core and its company, and taints. -/
def countRunning (s : State) (core n : Nat) : State :=
  let s := s.countCore core 0x01 n
  if !s.stretched core then s
  else
    let s := s.countCore core 0x05 n
    match s.companyOf core with
    | some c => (s.setTaint c).updCompany c (fun k => { k with late := k.late + n })
    | none => s

/-- The core is in an act and its island runs. -/
def coreRuns (s : State) (core : Nat) : Bool := (s.core core).run == .running

/-- The running cycles of the core's present act (R88). -/
def scheduledCycles (s : State) (core : Nat) : Nat :=
  match s.companyOf core with
  | some c => Act.scheduled (s.actDesc c (s.company c).act)
  | none => 0

/-- R96: the street operation of the core whose unit of this cycle cannot move even after a wait of so many frozen cycles. -/
def streetBlock (s : State) (core wait : Nat) : Option CoreRun :=
  let k := s.core core
  k.flights.findSome? (fun f => match f with
    | .send d => if d.issue < k.cycle && d.done < d.units && !s.sendReady core d.channel wait then some (.frozen true d.channel) else none
    | .recv d => if d.issue < k.cycle && d.done < d.units && !s.recvReady core d.channel wait then some (.frozen false d.channel) else none
    | _ => none)

/-- A fault raised before the bundle of this cycle issues; a MEMORY fault of the same cycle takes its place (R137, R138). -/
def faultBefore (s : State) (core source code address : Nat) : State :=
  let k := s.core core
  let s := if k.cycle == k.issueAt && k.bundle < k.code.length then s.updCore core (fun k => { k with issued := k.bundle }) else s
  match (s.cycleWork core).2 with
  | some f => if f.source == 1 then s.coreFault core f.source f.code f.address else s.coreFault core source code address
  | none => s.coreFault core source code address

/-- The start of a running cycle: a handshake that is not ready freezes the island (R96), and a cadence of 2,497 raises
REFRESH_MISSED before the cycle's bundle (R109). -/
def openCycle (s : State) (core : Nat) : State :=
  if !s.coreRuns core then s
  else match s.streetBlock core 0 with
    | some r => s.updCore core (fun k => { k with run := r })
    | none => if (s.core core).cadence ≥ 2497 then s.faultBefore core 0 1 2497 else s

/-- R88, R138: the core reaches cycle scheduled_cycles with code or operations left: BAD_BUNDLE, unless the cadence or a MEMORY fault of that
cycle comes first (R137). -/
def overrun (s : State) (core : Nat) : State :=
  if (s.core core).cadence ≥ 2497 then s.faultBefore core 0 1 2497 else s.faultBefore core 0 2 5

/-- The rest of a running cycle once its bundle, if any, has issued. -/
def closeCycle (s : State) (core : Nat) : State :=
  if !s.coreRuns core then s
  else
    let (s, f) := s.cycleWork core
    let s := s.countRunning core 1
    match f with
    | some f => s.coreFault core f.source f.code f.address
    | none => s.updCore core (fun k => { k with cycle := k.cycle + 1, cadence := k.cadence + 1 })

/-- Cycles that can pass at once because nothing is in flight, up to a limit and to the cadence's end. -/
def idleCycles (s : State) (core limit : Nat) : Nat :=
  let k := s.core core
  if k.flights.isEmpty then min (limit - k.cycle) (2497 - k.cadence) else 0

/-- Running cycles up to, and not including, cycle `limit`, stopping at a freeze or a fault. -/
def runTo (s : State) (core limit : Nat) : Nat → State
  | 0 => s
  | fuel + 1 =>
    if !s.coreRuns core || (s.core core).cycle ≥ limit then s
    else
      let n := s.idleCycles core limit
      if n > 0 then
        ((s.countRunning core n).updCore core (fun k => { k with cycle := k.cycle + n, cadence := k.cadence + n })).runTo core limit fuel
      else ((s.openCycle core).closeCycle core).runTo core limit fuel

/-- The core brought to the start of a cycle. -/
def advance (s : State) (core limit : Nat) : State := s.runTo core limit (2 * (limit - (s.core core).cycle) + 2)

end State

end Sys2Proof.Machine
end

