-- ==== Sys2Proof/Machine/Bundle.lean ====
section
/-! DEFINITION. Bundles: the fields of the five slots, the checks before issue (R78, R120, R122, R139), loops (R124), and the order in which
the slots' commands run. The five commands of a bundle, NOP included, run in slot order; the bundle issues as a whole. -/
namespace Sys2Proof.Machine

/-! ### Slots of a bundle (R118) -/

namespace Bundle

def control (b : Nat) : Nat := bitsOf b 224 32
def array (b : Nat) : Nat := bitsOf b 160 64
def dma (b : Nat) : Nat := bitsOf b 96 64
def street (b : Nat) : Nat := bitsOf b 48 48
def row (b : Nat) : Nat := bitsOf b 0 48

/-- Operation code of slot i (R118). -/
def op (b i : Nat) : Nat :=
  match i with
  | 0 => bitsOf (control b) 27 5
  | 1 => bitsOf (array b) 60 4
  | 2 => bitsOf (dma b) 60 4
  | 3 => bitsOf (street b) 45 3
  | _ => bitsOf (row b) 45 3

end Bundle

/-! R123: fields of the control slot. -/
namespace Ctl
def d (x : Nat) : Nat := bitsOf x 22 5
def s (x : Nat) : Nat := bitsOf x 17 5
def imm22 (x : Nat) : Nat := bitsOf x 0 22
/-- ADDA's signed immediate, modulo 2^32. -/
def imm17 (x : Nat) : Word := BitVec.signExtend 32 (BitVec.ofNat 17 x)
def n (x : Nat) : Nat := bitsOf x 24 3
def imm24 (x : Nat) : BitVec 24 := BitVec.ofNat 24 x
def last (x : Nat) : Nat := bitsOf x 15 9
def count (x : Nat) : Nat := bitsOf x 0 24
/-- R139: reserved fields are zero and the code is defined. -/
def encoded (x : Nat) : Bool :=
  match bitsOf x 27 5 with
  | 0 => bitsOf x 0 27 == 0
  | 1 | 2 | 3 => true
  | 4 => bitsOf x 0 15 == 0
  | 5 => bitsOf x 24 3 == 0
  | _ => false
end Ctl

/-! R126, R127: fields of the array slot. -/
namespace Arr
def format (x : Nat) : Nat := bitsOf x 58 2
def slot (x : Nat) : Nat := bitsOf x 54 4
def accumulate (x : Nat) : Bool := x.testBit 53
def split (x : Nat) : Nat := bitsOf x 51 2
def trapLapse (x : Nat) : Bool := x.testBit 50
def trapOverflow (x : Nat) : Bool := x.testBit 49
def k (x : Nat) : Nat := bitsOf x 37 12
def aReg (x : Nat) : Nat := bitsOf x 32 5
def bReg (x : Nat) : Nat := bitsOf x 27 5
def aAdv (x : Nat) : Bool := x.testBit 26
def bAdv (x : Nat) : Bool := x.testBit 25
def cfg (x : Nat) : Nat := bitsOf x 48 3
def dstReg (x : Nat) : Nat := bitsOf x 43 5
def rexpReg (x : Nat) : Nat := bitsOf x 38 5
def biasReg (x : Nat) : Nat := bitsOf x 33 5
def dstAdv (x : Nat) : Bool := x.testBit 32
/-- R73: first column and number of columns of a split. -/
def col0 (x : Nat) : Nat := if split x == 2 then 8 else 0
def cols (x : Nat) : Nat := if split x == 0 then 16 else 8
/-- R139: the encoding rules of the slot. -/
def encoded (x : Nat) : Bool :=
  match bitsOf x 60 4 with
  | 0 => bitsOf x 0 60 == 0
  | 1 => bitsOf x 0 25 == 0 && format x != 0 && slotBits (slot x) != 0 && decide (slot x / 4 ≥ format x) && split x != 3
  | 2 => bitsOf x 58 2 == 0 && !x.testBit 53 && bitsOf x 0 32 == 0 && slotBits (slot x) != 0 && split x != 3
  | _ => false
end Arr

/-! R128: fields of the DMA slot. -/
namespace DmaOp
def desc (x : Nat) : Nat := bitsOf x 52 8
def sliceReg (x : Nat) : Nat := bitsOf x 47 5
def storeReg (x : Nat) : Nat := bitsOf x 42 5
def sliceAdv (x : Nat) : Bool := x.testBit 41
def storeAdv (x : Nat) : Bool := x.testBit 40
def channel (x : Nat) : Nat := bitsOf x 57 3
def toStore (x : Nat) : Bool := x.testBit 56
def capacity (x : Nat) : Nat := bitsOf x 44 12
def encoded (x : Nat) : Bool :=
  match bitsOf x 60 4 with
  | 0 | 2 => bitsOf x 0 60 == 0
  | 1 => bitsOf x 0 40 == 0
  | 3 => bitsOf x 0 44 == 0
  | _ => false
end DmaOp

/-! R131: fields of the street slot. -/
namespace Str
def channel (x : Nat) : Nat := bitsOf x 39 6
def reg (x : Nat) : Nat := bitsOf x 34 5
def adv (x : Nat) : Bool := x.testBit 33
def units (x : Nat) : Nat := bitsOf x 21 12
def encoded (x : Nat) : Bool :=
  match bitsOf x 45 3 with
  | 0 => bitsOf x 0 45 == 0
  | 1 | 2 => bitsOf x 0 21 == 0
  | _ => false
end Str

/-! R133: fields of the row-unit slot. -/
namespace Row
def entry (x : Nat) : Nat := bitsOf x 37 8
def srcReg (x : Nat) : Nat := bitsOf x 32 5
def dstReg (x : Nat) : Nat := bitsOf x 27 5
def auxReg (x : Nat) : Nat := bitsOf x 22 5
def format (x : Nat) : Nat := bitsOf x 20 2
def count (x : Nat) : Nat := bitsOf x 0 16
def encoded (x : Nat) : Bool :=
  match bitsOf x 45 3 with
  | 0 => bitsOf x 0 45 == 0
  | 1 => bitsOf x 16 4 == 0 && format x != 0
  | _ => false
end Row

/-! ### Registers -/

namespace Core

def areg (k : Core) (r : Nat) : Word := SMap.get 0 k.a r
def lreg (k : Core) (n : Nat) : BitVec 24 := SMap.get 0 k.l n
/-- The bundle due next as a number (R119). -/
def dueBundle (k : Core) : Nat := (k.code.getD k.bundle 0).toNat
def desc (k : Core) (i : Nat) : Nat := (k.descs.getD i 0).toNat
/-- Register writes that wait for the next running cycle (R122). -/
def defer (k : Core) (r : Nat) (v : Word) : Core := { k with writes := k.writes ++ [(r, v)] }
def advanceReg (k : Core) (on : Bool) (r n : Nat) : Core := if on then k.defer r (k.areg r + BitVec.ofNat 32 n) else k

end Core

/-- R122: the registers a bundle writes, with the slot of each write, in slot order. -/
def bundleWrites (b : Nat) : List (Nat × Nat) :=
  let c := Bundle.control b
  let a := Bundle.array b
  let d := Bundle.dma b
  let t := Bundle.street b
  (if Bundle.op b 0 == 1 || Bundle.op b 0 == 2 then [(0, Ctl.d c)] else []) ++
  (if Bundle.op b 1 == 1 then (if Arr.aAdv a then [(1, Arr.aReg a)] else []) ++ (if Arr.bAdv a then [(1, Arr.bReg a)] else [])
   else if Bundle.op b 1 == 2 && Arr.dstAdv a then [(1, Arr.dstReg a)] else []) ++
  (if Bundle.op b 2 == 1 then
    (if DmaOp.sliceAdv d then [(2, DmaOp.sliceReg d)] else []) ++ (if DmaOp.storeAdv d then [(2, DmaOp.storeReg d)] else [])
   else []) ++
  (if (Bundle.op b 3 == 1 || Bundle.op b 3 == 2) && Str.adv t then [(3, Str.reg t)] else [])

/-- R122: the slot of the first write that names a register written before it. -/
def secondWrite : List Nat → List (Nat × Nat) → Option Nat
  | _, [] => none
  | seen, (slot, r) :: t => if seen.contains r then some slot else secondWrite (r :: seen) t

/-! ### The checks of a bundle (R78, R139) -/

/-- R69: the edge of a pass in flight is free for an operation issued in the present cycle. -/
def PassFlight.released (p : PassFlight) (stalled : Bool) : Bool :=
  decide (p.prog ≥ p.edge) || (decide (p.prog + 1 ≥ p.edge) && !stalled)

/-- R73, R78: two ranges of columns share a half. -/
def halvesMeet (c0 w0 c1 w1 : Nat) : Bool := decide (c0 < c1 + w1) && decide (c1 < c0 + w0)

/-- R128, R151: slice and stage-store addresses of a DMA. -/
def Core.dmaSlice (k : Core) (x : Nat) : Nat :=
  (BitVec.ofNat 32 (Dma.sliceBase (k.desc (DmaOp.desc x))) + k.areg (DmaOp.sliceReg x)).toNat
def Core.dmaStore (k : Core) (x : Nat) : Nat := (Dma.storeBase (k.desc (DmaOp.desc x)) + (k.areg (DmaOp.storeReg x)).toNat) % 16384

namespace State

/-- R139: the control slot passes. -/
def controlOk (k : Core) (x : Nat) : Bool :=
  Ctl.encoded x &&
  match bitsOf x 27 5 with
  | 3 => !k.loops.any (fun f => f.counter == Ctl.n x)
  | 4 => !k.loops.any (fun f => f.counter == Ctl.n x) && decide (k.bundle < Ctl.last x) && decide (Ctl.last x < k.code.length) &&
      k.loops.all (fun f => decide (Ctl.last x ≤ f.last))
  | _ => true

/-- R78, R139: the array slot raises no BAD_BUNDLE. -/
def arrayOk (k : Core) (x : Nat) : Bool :=
  Arr.encoded x &&
  match bitsOf x 60 4 with
  | 1 =>
    let stalled := stalledAt k.flights k.cycle
    k.flights.all (fun f => match f with
      | .pass p => !halvesMeet p.col0 p.cols (Arr.col0 x) (Arr.cols x) || p.released stalled
      | _ => true)
  | 2 =>
    let cfg := k.apronCfg (Arr.cfg x)
    decide (k.cycle ≥ k.apronFree) && (!Apron.stochastic cfg || decide (Apron.outFormat cfg < formatBits (Arr.slot x / 4)))
  | _ => true

/-- R78: the array slot meets an overlapping operation in flight. -/
def arrayConflict (k : Core) (x : Nat) : Bool :=
  match bitsOf x 60 4 with
  | 1 => k.flights.any (fun f => match f with
      | .strike t => decide (t.issue + 15 ≥ k.cycle) && slotsOverlap t.slot.toNat (Arr.slot x) &&
          halvesMeet t.col0 t.cols (Arr.col0 x) (Arr.cols x)
      | _ => false)
  | 2 => k.flights.any (fun f => match f with
      | .pass p => slotsOverlap p.slot.toNat (Arr.slot x) && halvesMeet p.col0 p.cols (Arr.col0 x) (Arr.cols x)
      | _ => false)
  | _ => false

/-- R128, R139, R151: the DMA slot passes. -/
def dmaOk (k : Core) (x : Nat) : Bool :=
  DmaOp.encoded x &&
  match bitsOf x 60 4 with
  | 0 => true
  | 1 =>
    let d := k.desc (DmaOp.desc x)
    decide (k.cycle ≥ k.dmaFree) && decide (DmaOp.desc x < k.descs.length) &&
    (Dma.isEmpty d || decide (k.dmaSlice x + (Dma.allRows d - 1) * Dma.slicePitch d + Dma.rowUnits d ≤ 786432))
  | _ => decide (k.cycle ≥ k.dmaFree)

/-- R131, R139: the street slot passes. -/
def streetOk (s : State) (core x : Nat) : Bool :=
  let k := s.core core
  let e := s.channelEntry core (Str.channel x)
  Str.encoded x &&
  match bitsOf x 45 3 with
  | 1 => decide (k.cycle ≥ k.sendFree) && Chan.valid e && !Chan.incoming e
  | 2 => decide (k.cycle ≥ k.recvFree) && Chan.valid e && Chan.incoming e
  | _ => true

/-- R133, R139: the row-unit slot passes. -/
def rowOk (k : Core) (x : Nat) : Bool :=
  Row.encoded x && (bitsOf x 45 3 != 1 || (decide (k.cycle ≥ k.rowFree) && (k.program (Row.entry x)).isSome))

/-- R393: the first read that the issue of the due bundle makes in the core's stores and that fails: the bundle, the descriptor its DMA names,
and the signal plan its SEND or RECV reads. -/
def issueReads (k : Core) (core : Nat) (e : SramPlace) : Option (Nat × Nat) :=
  let b := k.dueBundle
  match e with
  | .scriptBuffer c i => if c == core && i == k.bundle then some (3, i) else none
  | .descriptor c i => if c == core && Bundle.op b 2 == 1 && i == DmaOp.desc (Bundle.dma b) then some (3, i) else none
  | .setting c 4 => if c == core && (Bundle.op b 3 == 1 || Bundle.op b 3 == 2) then some (5, 4) else none
  | _ => none

/-- R120, R137, R138, R393: the fault that stops the due bundle from issuing: source, code and address. -/
def bundleFault (s : State) (core : Nat) : Option (Nat × Nat × Nat) :=
  let k := s.core core
  let b := k.dueBundle
  let bad := [!controlOk k (Bundle.control b), !arrayOk k (Bundle.array b), !dmaOk k (Bundle.dma b),
    !s.streetOk core (Bundle.street b), !rowOk k (Bundle.row b)]
  let twice := secondWrite [] (bundleWrites b)
  match s.sram.findSome? (fun e => if e.2 ≥ 2 then issueReads k core e.1 else none) with
  | some f => some (1, f.1, f.2)
  | none => match (List.range 5).find? (fun i => bad.getD i false || twice == some i) with
    | some i => some (0, 2, i)
    | none => if arrayConflict k (Bundle.array b) then some (0, 3, Arr.slot (Bundle.array b)) else none

/-! ### The order of a bundle's commands -/

/-- R401: the corrected reads that the issue of the due bundle makes in the core's stores are counted. -/
def countIssueReads (s : State) (core : Nat) : State :=
  let k := s.core core
  s.countCore core 0x14 (s.sram.countP (fun e => e.2 == 1 && (issueReads k core e.1).isSome))

/-- R88, R109, R120: the core brought to the cycle of its due bundle and the bundle checked. A bundle due at cycle scheduled_cycles or later
does not issue: the act's end comes first. -/
def readyBundle (s : State) (core : Nat) : State :=
  let n := s.scheduledCycles core
  let s := s.advance core (min (s.core core).issueAt n)
  let k := s.core core
  if k.run != .running then s
  else if k.cycle ≥ n then s.overrun core
  else if k.cycle == k.issueAt then
    let s := s.openCycle core
    if !s.coreRuns core then s
    else match s.bundleFault core with
      | some (src, code, a) => s.faultBefore core src code a
      | none => s.countIssueReads core
  else s

/-- The bundle's slots up to this one have issued; the control slot also waits for the bundle's cycle. -/
def slotReady (s : State) (core slot : Nat) : Bool :=
  let k := s.core core
  k.run == .running && k.phase == slot && (slot != 0 || k.cycle == k.issueAt) && decide (k.bundle < k.code.length)

/-- R162: the BANK_CONFLICT of a SEND of the bundle whose stamps lie outside their windows. -/
def sendFault (s : State) (core : Nat) : Option CycleFault :=
  let k := s.core core
  let x := Bundle.street k.dueBundle
  if bitsOf x 45 3 == 1 && !s.stampsFit core (Str.channel x) k.cycle (Str.units x) then
    some ⟨0, 5, 2 ^ 31 + Str.channel x⟩
  else none

/-- R122: the bundle has issued whole: its cycle's work is done, and its register writes take effect in the next running cycle. -/
def retire (s : State) (core : Nat) : State :=
  let late := s.sendFault core
  let s := s.updCore core (fun k => { k with issued := k.bundle })
  let (s, f) := s.cycleWork core
  let s := s.countRunning core 1
  match firstFault f late with
  | some f => (s.updCore core (fun k => { k with phase := 0 })).coreFault core f.source f.code f.address
  | none => s.updCore core (fun k => { k with
      a := SMap.setMany 0 k.a k.writes
      l := SMap.setMany 0 k.l k.lwrites
      writes := []
      lwrites := []
      bundle := k.nextBundle
      phase := 0
      cycle := k.cycle + 1
      cadence := k.cadence + 1 })

/-- One slot's command: it issues if its slot is due and holds its operation. The control slot's command first brings the core to the
bundle's cycle and checks the bundle; the row-unit slot's command completes the issue. -/
def slotStep (s : State) (core slot op : Nat) (issue : State → State) : State :=
  let code := Bundle.op (s.core core).dueBundle slot
  let mine := code == op || (slot == 0 && decide (code > 5))
  if !mine || !s.coreRuns core || (s.core core).phase != slot || (s.core core).bundle ≥ (s.core core).code.length then s
  else
    let s := if slot == 0 then s.readyBundle core else s
    if !s.slotReady core slot then s
    else if slot == 4 then (issue s).retire core
    else (issue s).updCore core (fun k => { k with phase := slot + 1 })

end State

/-! ### Control (R123 to R125) -/

/-- R124: what follows the issue, or the skipping to, bundle i: the next bundle, the loops still active, and the counters written. -/
def afterBundle (l : SMap (BitVec 24)) (i : Nat) : List LoopFrame → Nat × List LoopFrame × List (Nat × BitVec 24)
  | [] => (i + 1, [], [])
  | f :: t =>
    if f.last != i then (i + 1, f :: t, [])
    else
      let v := SMap.get 0 l f.counter - 1
      if v ≠ 0 then (f.top, f :: t, [(f.counter, v)])
      else
        let (n, ls, ws) := afterBundle l i t
        (n, ls, (f.counter, v) :: ws)

/-- The control slot's common end: the next bundle is chosen and issues `wait` cycles later than the next cycle. -/
def Core.follow (k : Core) (i wait : Nat) : Core :=
  let (n, ls, ws) := afterBundle k.l i k.loops
  { k with nextBundle := n, loops := ls, lwrites := k.lwrites ++ ws, issueAt := k.cycle + 1 + wait }

/-- R136: the completion cycle of an operation that has no work in flight. -/
def Core.completes (k : Core) (x : Nat) : Core := { k with completed := max k.completed x }

/-- R124: the LOOP of the due bundle. -/
def Core.loop (k : Core) (x : Nat) : Core :=
  if k.lreg (Ctl.n x) = 0 then k.follow (Ctl.last x) 0
  else { k with
    nextBundle := k.bundle + 1
    loops := ⟨Ctl.n x, k.bundle + 1, Ctl.last x⟩ :: k.loops
    issueAt := k.cycle + 1 }

/-- R118: a NOP in one slot of the due bundle. -/
def execNop (core slot : Nat) (s : State) : Answer :=
  .next (if slot > 4 then s
    else s.slotStep core slot 0 (fun s => if slot == 0 then s.updCore core (fun k => k.follow k.bundle 0) else s))

/-- R123: A[d] = imm. -/
def execSeta (core : Nat) (s : State) : Answer :=
  .next (s.slotStep core 0 1 (fun s => s.updCore core (fun k =>
    let x := Bundle.control k.dueBundle
    ((k.defer (Ctl.d x) (BitVec.ofNat 32 (Ctl.imm22 x))).follow k.bundle 0).completes (k.cycle + 1))))

/-- R123: A[d] = A[s] + imm. -/
def execAdda (core : Nat) (s : State) : Answer :=
  .next (s.slotStep core 0 2 (fun s => s.updCore core (fun k =>
    let x := Bundle.control k.dueBundle
    ((k.defer (Ctl.d x) (k.areg (Ctl.s x) + Ctl.imm17 x)).follow k.bundle 0).completes (k.cycle + 1))))

/-- R123: L[n] = imm. -/
def execSetl (core : Nat) (s : State) : Answer :=
  .next (s.slotStep core 0 3 (fun s => s.updCore core (fun k =>
    let x := Bundle.control k.dueBundle
    let k := { k with lwrites := k.lwrites ++ [(Ctl.n x, Ctl.imm24 x)] }
    (k.follow k.bundle 0).completes (k.cycle + 1))))

/-- R124: LOOP. -/
def execLoop (core : Nat) (s : State) : Answer :=
  .next (s.slotStep core 0 4 (fun s => s.updCore core (fun k => k.loop (Bundle.control k.dueBundle))))

/-- R125: WAIT. -/
def execWaitOp (core : Nat) (s : State) : Answer :=
  .next (s.slotStep core 0 5 (fun s => s.updCore core (fun k =>
    let n := Ctl.count (Bundle.control k.dueBundle)
    (k.follow k.bundle n).completes (k.cycle + 1 + n))))

end Sys2Proof.Machine
end

