-- ==== Sys2Proof/Machine/Budget.lean ====
section
/-! DEFINITION. Power figures of an act, ballast levels, ramps and tapers, and the running set (R356 to R369, R375). Powers are in
units of 1/16 W, rounded up (R358). -/
namespace Sys2Proof.Machine

/-! ### What an act declares (R358, R359) -/

/-- An act's figures at a frequency. -/
structure Figures where
  mean : Nat := 0
  peak : Nat := 0
  first : Nat := 0
  last : Nat := 0
  deriving DecidableEq, Repr

/-- R102: MHz of a freq code. -/
def clockMHz (code : Nat) : Nat := 1280 - 128 * (code % 8)

/-- R358: mean power of an act descriptor. -/
def meanPower (d mhz : Nat) : Nat := ceilDiv (256 * Act.energy d * mhz) (Act.scheduled d)

/-- R359: a profile figure in 1/4 W at 1.024 GHz, scaled. -/
def scaleFigure (v mhz : Nat) : Nat := ceilDiv (4 * v * mhz) 1024

/-- R358, R359, R376: the figures of an act; an empty act has none, and an act without a profile declares its mean throughout. -/
def figuresOf (d : Nat) (profile : Option (BitVec 384)) (mhz : Nat) : Figures :=
  if Act.bundleCount d == 0 then {}
  else
    let m := meanPower d mhz
    match profile with
    | none => ⟨m, m, m, m⟩
    | some p =>
      let peaks := (List.range 16).map (fun j => bitsOf p.toNat (128 + 16 * j) 16)
      ⟨m, scaleFigure (peaks.foldl max 0) mhz, scaleFigure (bitsOf p.toNat 0 16) mhz, scaleFigure (bitsOf p.toNat 16 16) mhz⟩

/-! ### Ramps (R366) -/

/-- Number of districts of a mask. -/
def districtCount (mask : Word) : Nat := (List.range 32).countP (fun d => mask.toNat.testBit d)

/-- R366: ticks of a ramp or taper between two levels, for n districts and a ramp limit in mA/µs. -/
def rampTicks (ramp n a b : Nat) : Nat :=
  if a == b then 0 else max (ceilDiv (125 * n) 2) (ceilDiv (2000000 * (max a b - min a b)) (3 * n * ramp))

/-- R366: the level of the district of wave i at a town count, times the number of districts: each moves linearly in its own wave. -/
def Waves.level (v : Waves) (i t : Nat) : Nat :=
  let part := min (v.order.length * (t - v.first) - i * v.ticks) v.ticks
  let moved := (max v.before v.after - min v.before v.after) * part / v.ticks
  if v.after ≥ v.before then v.before + moved else v.before - moved

namespace State

/-- R102, R285: MHz of a company's plan, as its cue cut has frozen it or as it stands; reproducible mode runs at 1.024 GHz. -/
def companyMHz (s : State) (c : Nat) : Nat :=
  let k := s.company c
  if k.reproducible then 1024
  else clockMHz (if k.clock.frozen then k.clock.shadow else k.clock.active).toNat

/-- The figures of an act of a company. -/
def figures (s : State) (c a : Nat) : Figures :=
  match (s.company c).script with
  | none => {}
  | some p => figuresOf (s.actDesc c a) (p.profiles.getD a none) (s.companyMHz c)

/-- The figures of the act that runs or ran last, at the frequency at which it ran. -/
def ranFigures (s : State) (c : Nat) : Figures :=
  let k := s.company c
  match k.script with
  | none => {}
  | some p => figuresOf (s.actDesc c k.act) (p.profiles.getD k.act none) (if k.reproducible then 1024 else clockMHz k.clock.active.toNat)

/-- R367: the districts of a company in wave order: ascending, or in fast mode from the coolest to the hottest by the latest readings. -/
def waveOrder (s : State) (c : Nat) : List Nat :=
  let k := s.company c
  let ds := (List.range 32).filter (fun d => k.districts.toNat.testBit d)
  let temp (d : Nat) := SMap.get 720 s.temps d
  if k.reproducible then ds
  else ds.foldl (fun l d => l.takeWhile (fun e => decide (temp e ≤ temp d)) ++ d :: l.dropWhile (fun e => decide (temp e ≤ temp d))) []

/-- R366, R367: the waves of a ramp or taper join those still under way. -/
def addWaves (s : State) (c first ticks before after : Nat) (taper : Bool) : State :=
  let w : Waves := ⟨s.waveOrder c, first, ticks, before, after, taper⟩
  let t := s.now
  if ticks == 0 then s
  else s.updCompany c (fun k => { k with waves := k.waves.filter (fun v => decide (v.first + v.ticks > t)) ++ [w] })

def isEmptyAct (s : State) (c a : Nat) : Bool := Act.bundleCount (s.actDesc c a) == 0

/-- R366: the ticks of a ramp of a company under the ramp limit in force. -/
def companyRamp (s : State) (c a b : Nat) : Nat := rampTicks s.ramp (districtCount (s.company c).districts) a b

/-! ### Ballast (R365, R369) -/

/-- R369: ballast energy of a linear change over some ticks, counted in units of 16 µJ. -/
def chargeBallast (s : State) (c a b ticks : Nat) : State :=
  let e := (s.company c).ballastEnergy + (a + b) * ticks
  let s := s.updCompany c (fun k => { k with ballastEnergy := e % 128000 })
  s.countChip 0x41 (some c) (e / 128000)

/-- The energy of a level held until a town count. -/
def holdBallast (s : State) (c level until_ : Nat) : State :=
  let since := (s.company c).ballastSince
  (s.chargeBallast c level level (until_ - since)).updCompany c (fun k => { k with ballastSince := max since until_ })

/-- The level that the ramp of an admitted act reaches: P_start, or for an empty act the level held (R368). -/
def rampTarget (s : State) (c act : Nat) : Nat := if s.isEmptyAct c act then (s.company c).ballast else (s.figures c act).first

/-- R374: a town count as the ramps see it: they pause while the islands are stretched. -/
def rampClock (s : State) (first t : Nat) : Nat := if s.stretch == 0 then t else min t (max first s.stretchAt)

/-- R365, R374: the ballast level of a company at a town count, paused while the islands are stretched: the level it holds, on its way through a ramp, or what a running act's draw
leaves to it. -/
def ballastAt (s : State) (c t : Nat) : Nat :=
  let k := s.company c
  match k.at_ with
  | .none => if k.mode == .running && !s.isEmptyAct c k.act then (s.ranFigures c).last else k.ballast
  | .ramp act start done =>
    let goal := s.rampTarget c act
    let t := s.rampClock start t
    if t ≥ done then goal
    else if goal ≥ k.ballast then k.ballast + (goal - k.ballast) * (t - start) / (done - start)
    else k.ballast - (k.ballast - goal) * (t - start) / (done - start)
  | _ => k.ballast

/-- R366, R367: the ballast level of one district of a company at a town count, times the number of its districts. -/
def districtBallast (s : State) (c d t : Nat) : Nat :=
  match ((s.company c).waves.filter (fun v => decide (v.first ≤ t))).getLast? with
  | none => s.ballastAt c t
  | some v => if v.order.contains d then v.level (v.order.idxOf d) (if v.taper then t else s.rampClock v.first t) else 0

/-- R369: the ballast energy of a curtain counted up to a town count. -/
def curtainEnergy (s : State) (c t : Nat) : State :=
  let k := s.company c
  match k.at_ with
  | .none => s
  | .ramp _ start done =>
    let level := s.ballastAt c t
    let pause := s.rampClock start t
    let s := s.chargeBallast c k.ballast level (min pause done - start)
    (s.chargeBallast c level level (t - min pause done)).updCompany c (fun k => { k with ballastSince := t })
  | _ => s.holdBallast c k.ballast t

/-- R361, R365, R366: the ballast tapers to zero from a level. After the last act or a stop its end frees the running set. -/
def startTaper (s : State) (c level : Nat) (frees : Bool) : State :=
  let k := s.company c
  let first := max s.now (k.taperEnd.getD 0)
  let n := s.companyRamp c level 0
  let s := (s.chargeBallast c level 0 n).addWaves c first n level 0 true
  s.updCompany c (fun k => { k with ballast := 0, taperEnd := some (first + n), taperFrees := frees, ballastSince := first + n })

/-! ### The running set (R361, R362) -/

/-- R361: an entry of the running set replaced. -/
def enterRunning (s : State) (c : Nat) (f : Figures) : State :=
  { s with running := s.running.filter (fun e => e.company != c) ++ [⟨c, f.mean, f.peak, s.sustained, s.peak⟩] }

def leaveRunning (s : State) (c : Nat) : State := { s with running := s.running.filter (fun e => e.company != c) }

/-- R362: every other refused curtain may be evaluated again at once. -/
def promptOthers (s : State) (c : Nat) : State :=
  { s with companies := s.companies.map (fun p =>
      (p.1, if p.1 == c then p.2 else { p.2 with refusedAt := p.2.refusedAt.map (fun _ => 0) })) }

/-! ### POWER_LIMIT (R375) -/

/-- R375: the POWER_LIMIT body. -/
def powerBody (s : State) (cause company act : Nat) : Nat :=
  pack [(cause, 8), (s.stretch, 2), (0, 6), (company, 5), (0, 11), (act, 12), (0, 20), (s.watts, 16), (s.sustained, 16), (s.peak, 16),
    (s.hottest, 5), (0, 11), (SMap.get 720 s.temps s.hottest, 16), (0, 48), (s.now, 64)]

def postPower (s : State) (cause company act : Nat) : State := s.postDevice 0x23 (s.powerBody cause company act)

end State

end Sys2Proof.Machine
end

