-- ==== Sys2Proof/Machine/HostPort.lean ====
section
/-! DEFINITION. The LPDDR5X host port (R302 to R321): channels, address map, control region, mode registers, and the meanings of
the host's accesses and register writes. -/
namespace Sys2Proof.Machine

namespace State

def channel (s : State) (c : Nat) : Channel := SMap.get {} s.channels c
def setChannel (s : State) (c : Nat) (k : Channel) : State := { s with channels := SMap.set {} s.channels c k }
def updChannel (s : State) (c : Nat) (f : Channel → Channel) : State := s.setChannel c (f (s.channel c))

/-- R318, R378: the host port is powered and out of reset; it follows the standard during the boot as well. -/
def portOn (s : State) : Bool := s.hostReset && !s.resetHeld && s.power != .off && s.power != .standby

/-- R304, R308: the channel takes the commands of the initialisation sequence, and its clocks run. -/
def channelReady (s : State) (c : Nat) : Bool := s.portOn && decide (c < 4) && (s.channel c).hint == 0

/-- R304, R308: the channel is initialised and its clocks run. -/
def channelOn (s : State) (c : Nat) : Bool := s.channelReady c && (s.channel c).initialised

/-- Saturation of the host-port counters (R314). -/
def sat32 (n : Nat) : Nat := min n 0xFFFFFFFF

def countUnbackedRead (s : State) (c : Nat) : State :=
  (s.updChannel c (fun k => { k with unbackedReads := sat32 (k.unbackedReads + 1) })).countChip 0x50 (some c) 1
def countUnbackedWrite (s : State) (c : Nat) : State :=
  (s.updChannel c (fun k => { k with unbackedWrites := sat32 (k.unbackedWrites + 1) })).countChip 0x51 (some c) 1
def countRefreshSeen (s : State) (c : Nat) : State :=
  (s.updChannel c (fun k => { k with refreshSeen := sat32 (k.refreshSeen + 1) })).countChip 0x52 (some c) 1
def countIdleHint (s : State) (c : Nat) : State :=
  (s.updChannel c (fun k => { k with idleHints := sat32 (k.idleHints + 1) })).countChip 0x53 (some c) 1
def countProtocolError (s : State) (c : Nat) : State :=
  (s.updChannel c (fun k => { k with protocolErrors := sat32 (k.protocolErrors + 1) })).countChip 0x54 (some c) 1

/-! ### Registers of the host-port page (R314) -/

/-- HP_STATUS. -/
def hpStatus (s : State) : Nat :=
  pack [(b2n s.ready, 1), (b2n s.fatal, 1), (b2n (s.channel 0).initialised, 1), (b2n (s.channel 1).initialised, 1),
    (b2n (s.channel 2).initialised, 1), (b2n (s.channel 3).initialised, 1)]

/-- ATTN_STATUS bits [32:0] (R314, R326). -/
def attnPending (s : State) : Nat :=
  (List.range 33).foldl (fun b i =>
    let r := if i == 32 then 0 else 1 + i
    if (s.ring r).cplTail != (s.ring r).cplHead then b + 2 ^ i else b) 0

/-- ATTN_STATUS. -/
def attnStatus (s : State) : Nat := s.attnPending + b2n s.fatal * 2 ^ 33

/-- R315, R318, R389: the level of ATTN_N, true is low (asserted). -/
def attnLow (s : State) : Bool :=
  (s.power == .run || s.power == .interval || s.power == .dim) && (s.ready || s.fatal) &&
  (s.fatal || (s.attnPending &&& s.attnMask.toNat) != 0)

/-- R324: the 512 bits of a ring header. -/
def ringHeader (s : State) (r : Nat) : Nat :=
  let k := s.ring r
  let st := match k.state with | .opened => 0 | .unformed => 1 | .indexError => 2
  pack [(k.cmdTail.toNat, 64), (k.cmdHead.toNat, 64), (k.cplTail.toNat, 64), (k.cplHead.toNat, 64), (st, 8),
    (k.taken.length, 8), (0, 16), (k.lost, 32), (k.badIndex, 32)]

/-- The five counters of a channel's block (R314). -/
def counterBlock (s : State) (c : Nat) : Nat :=
  let k := s.channel c
  pack [(k.unbackedReads, 32), (k.unbackedWrites, 32), (k.refreshSeen, 32), (k.idleHints, 32), (k.protocolErrors, 32)]

/-- One byte of the control region at an offset from its start; none is unbacked (R314, R322). -/
def controlByte (s : State) (o : Nat) : Option Byte :=
  let byte (x i : Nat) : Option Byte := some (BitVec.ofNat 8 (x >>> (8 * i)))
  if o < 33 * 64 then byte (s.ringHeader (o / 64)) (o % 64)
  else if 0x1000 ≤ o && o < 0x1100 then byte s.fatalRecord.toNat (o - 0x1000)
  else if 0xFF000 ≤ o && o < 0xFF008 then byte s.hpStatus (o - 0xFF000)
  else if 0xFF008 ≤ o && o < 0xFF010 then byte s.attnStatus (o - 0xFF008)
  else if 0xFF010 ≤ o && o < 0xFF018 then byte s.attnMask.toNat (o - 0xFF010)
  else if 0xFF100 ≤ o && o < 0xFF180 then byte (s.counterBlock ((o - 0xFF100) / 32)) ((o - 0xFF100) % 32)
  else none

/-- R310: the target of a channel offset: a foyer address, or a control-region offset. -/
def target (c off : Nat) : Option (Sum Nat Nat) :=
  if off < 2 ^ 24 then some (.inl (c * 2 ^ 24 + off))
  else if c == 0 && 0x7FF00000 ≤ off && off < 0x80000000 then some (.inr (off - 0x7FF00000))
  else none

/-- One byte at a channel offset; none is unbacked (R310, R311). The foyer reads as zeros during the boot (R378). -/
def hostByte (s : State) (c off : Nat) : Option Byte :=
  match target c off with
  | some (.inl a) => some (if s.power == .booting then 0 else Memory.read s.mem a)
  | some (.inr o) => s.controlByte o
  | none => none

/-! ### Doorbells and ring indices (R325 to R327) -/

/-- The state a ring has outside INDEX_ERROR (R327). -/
def ringOpenState (s : State) (r : Nat) : RingState :=
  if r == 0 || s.formed (r - 1) then .opened else .unformed

/-- R325, R327: a write of cmd_tail. -/
def ringDoorbell (s : State) (r : Nat) (v : Word) : State :=
  if r > 32 then s
  else
    let k := s.ring r
    if (v - k.cmdHead).toNat ≤ 256 then
      s.setRing r { k with cmdTail := v, state := if k.state == .indexError then s.ringOpenState r else k.state }
    else
      let s' := s.setRing r { k with state := .indexError, badIndex := sat32 (k.badIndex + 1) }
      if k.state == .indexError then s' else s'.postDevice 0x20 r

/-- R326, R327: a write of cpl_head. -/
def ringConsume (s : State) (r : Nat) (v : Word) : State :=
  if r > 32 then s
  else
    let k := s.ring r
    if (v - k.cplHead).toNat ≤ k.unread then s.setRing r { k with cplHead := v }
    else s.setRing r { k with badIndex := sat32 (k.badIndex + 1) }

/-- R314: a whole counter of a channel cleared. -/
def clearCounter (s : State) (c i : Nat) : State :=
  if c > 3 then s
  else s.updChannel c (fun k => match i with
    | 0 => { k with unbackedReads := 0 }
    | 1 => { k with unbackedWrites := 0 }
    | 2 => { k with refreshSeen := 0 }
    | 3 => { k with idleHints := 0 }
    | 4 => { k with protocolErrors := 0 }
    | _ => k)

/-! ### Accesses (R311 to R313, R401, R402) -/

/-- Channel offset of a burst (R309); none while the bank is closed. -/
def burstOffset (s : State) (c bank col : Nat) : Option Nat :=
  (SMap.get none (s.channel c).rows (bank % 16)).map (fun row => row * 32768 + (bank % 16) * 2048 + (col % 64) * 32)

/-- An error of the 64-bit word of the control region at an offset. -/
def controlWord (o : Nat) : SramPlace → Bool
  | .control p => p / 8 == o / 8
  | _ => false

/-- R402: the lowest failing address among the 64-bit words of a burst, in the encoding of R394. -/
def failingWord (s : State) (c off n : Nat) : Option Nat :=
  (List.range (n / 8)).findSome? (fun i =>
    match target c (off + 8 * i) with
    | some (.inl a) => if s.upset .foyer a ≥ 2 && s.power != .booting then some a else none
    | some (.inr o) => if s.sram.any (fun e => controlWord o e.1 && decide (e.2 ≥ 2)) then some (0x80000000 + o) else none
    | none => none)

/-- R401: single-bit errors met by a host read, corrected and counted. -/
def correctedWords (s : State) (c off n : Nat) : Nat :=
  (List.range (n / 8)).foldl (fun k i =>
    match target c (off + 8 * i) with
    | some (.inl a) => if s.upset .foyer a == 1 && s.power != .booting then k + 1 else k
    | some (.inr o) => k + s.sram.countP (fun e => controlWord o e.1 && e.2 == 1)
    | none => k) 0

/-- R305, R311, R312: a read burst. -/
def hostRead (s : State) (c bank col n : Nat) (overlap : Bool) : State :=
  if !s.channelOn c then s
  else if overlap then s.countProtocolError c
  else match s.burstOffset c bank (if n == 64 then col - col % 2 else col) with
    | none => (s.updChannel c (fun k => { k with dq := List.replicate n 0 })).countProtocolError c
    | some off =>
      let bs := (List.range n).map (fun i => s.hostByte c (off + i))
      let s' := s.updChannel c (fun k => { k with dq := bs.map (fun b => b.getD 0) })
      let s' := if bs.any Option.isNone then s'.countUnbackedRead c else s'
      let s' := s'.countChip 0x14 none (s.correctedWords c off n)
      match s.failingWord c off n with
      | some a => s'.fatalFault 3 a
      | none => s'

/-- R401: the error of a foyer word after bytes of it are written: cleared by a whole-word write or a merge into a correctable word. -/
def settleWord (s : State) (a : Nat) (written : Nat) : State :=
  let e := s.upset .foyer a
  if e == 0 || written == 0 then s
  else if written == 8 then s.setUpset .foyer a 0
  else if e == 1 then (s.setUpset .foyer a 0).countChip 0x14 none 1
  else s

/-- R401: as for a foyer word, of the control-region word at an offset. -/
def settleControl (s : State) (o : Nat) (written : Nat) : State :=
  let found := s.sramErrors (controlWord o)
  if written == 0 then s
  else if written == 8 then s.sramRenew (controlWord o)
  else if found.1.isNone then (s.sramRenew (controlWord o)).countChip 0x14 none found.2
  else s

/-- Bytes of a range that a byte-enable list selects, as pairs of offset and value. -/
def enabled (off : Nat) (data : List Byte) (mask : List Bool) : List (Nat × Byte) :=
  ((List.range data.length).zip data).filterMap (fun p => if mask.getD p.1 false then none else some (off + p.1, p.2))

/-- The word a register takes when some of its bytes are written: the other bytes keep their value. -/
def mergeBytes (old base n : Nat) (ws : List (Nat × Byte)) : Nat :=
  ofBytes ((List.range n).map (fun i => match ws.find? (fun w => w.1 == base + i) with
    | some w => w.2
    | none => BitVec.ofNat 8 (old >>> (8 * i))))

/-- A write of control-region bytes, given by offset (R314, R324, R327). -/
def writeControl (s : State) (ws : List (Nat × Byte)) : State :=
  let hit (base n : Nat) := ws.any (fun w => base ≤ w.1 && w.1 < base + n)
  let s := (List.range 33).foldl (fun s r =>
    let s := if hit (64 * r) 4 then s.ringDoorbell r (BitVec.ofNat 32 (mergeBytes (s.ring r).cmdTail.toNat (64 * r) 4 ws)) else s
    if hit (64 * r + 24) 4 then s.ringConsume r (BitVec.ofNat 32 (mergeBytes (s.ring r).cplHead.toNat (64 * r + 24) 4 ws)) else s) s
  let s := if hit 0xFF010 8 then { s with attnMask := BitVec.ofNat 33 (mergeBytes s.attnMask.toNat 0xFF010 8 ws) } else s
  let s := (List.range 20).foldl (fun s i =>
    if hit (0xFF100 + 0x20 * (i / 5) + 4 * (i % 5)) 4 then s.clearCounter (i / 5) (i % 5) else s) s
  ((ws.map (fun w => w.1 / 8)).eraseDups).foldl (fun s i => s.settleControl (8 * i) (ws.countP (fun w => w.1 / 8 == i))) s

/-- R305, R311, R313, R321: a write burst. -/
def hostWrite (s : State) (c bank col n : Nat) (data : List Byte) (mask : List Bool) (overlap : Bool) : State :=
  if !s.channelOn c then s
  else if overlap then s.countProtocolError c
  else match s.burstOffset c bank (if n == 64 then col - col % 2 else col) with
    | none => s.countProtocolError c
    | some off =>
      let ws := enabled off (padTo n 0 (data.take n)) mask
      let foyer := ws.filterMap (fun w => match target c w.1 with | some (.inl a) => some (a, w.2) | _ => none)
      let ctl := ws.filterMap (fun w => match target c w.1 with | some (.inr o) => some (o, w.2) | _ => none)
      let lost := ws.any (fun w => (s.hostByte c w.1).isNone)
      let s' := foyer.foldl (fun s w => { s with mem := Memory.write s.mem w.1 w.2 }) s
      let s' := (List.range (n / 8)).foldl (fun s i =>
        match target c (off + 8 * i) with
        | some (.inl a) => s.settleWord a (foyer.countP (fun w => a ≤ w.1 && w.1 < a + 8))
        | _ => s) s'
      let s' := s'.writeControl ctl
      if lost then s'.countUnbackedWrite c else s'

/-! ### Mode registers (R303, R306, R307) -/

/-- Registers kept once per frequency set point (JESD209-5). -/
def mrPerSetPoint (r : Nat) : Bool := [1, 2, 3, 10, 11, 12, 14, 15, 17, 18, 19, 20, 24, 30, 41].contains r

/-- Writable bits of a mode register: supported features and stored options; unsupported features and reserved bits read 0 (R306). -/
def mrMask (r : Nat) : Nat :=
  match r with
  | 0 | 4 | 5 | 6 | 7 | 8 | 9 => 0
  | 1 => 0xF8 | 2 => 0xFF | 3 => 0x3F | 10 => 0xFD | 11 => 0x77 | 12 => 0xFF | 13 => 0x44 | 14 => 0xFF | 15 => 0x7F
  | 16 => 0xFF | 17 => 0x3F | 18 => 0xDF | 19 => 0 | 20 => 0xCF | 21 => 0 | 22 => 0 | 23 => 0xFF | 25 => 0xF0
  | 28 => 0x0F | 31 => 0xFF | 32 => 0xFF | 33 => 0xFF | 34 => 0xFF | 37 => 0 | 40 => 0 | 41 => 0
  | _ => 0

/-- Set point that a write or read of a mode register reaches, and the operating one (MR16, R303). -/
def fspWrite (s : State) (c : Nat) : Nat := bitsOf (SMap.get 0 (s.channel c).mr 16).toNat 0 2
def fspOperating (s : State) (c : Nat) : Nat := bitsOf (SMap.get 0 (s.channel c).mr 16).toNat 2 2

def mrIndex (s : State) (c r : Nat) : Nat := (if mrPerSetPoint r then s.fspWrite c else 0) * 256 + r

/-- R307: the value a mode-register read returns. -/
def mrRead (s : State) (c r : Nat) : Byte :=
  if r == 4 then 0x09 else if r == 8 then 0x19 else SMap.get 0 (s.channel c).mr (s.mrIndex c r)

/-- R306: a value that selects an unsupported value of a multi-value field leaves that field. -/
def mrAccept (old new r : Nat) : Nat :=
  let v := new &&& mrMask r
  if r == 3 && bitsOf v 3 2 == 1 then v - 8 + (old &&& 0x18)
  else if r == 3 && bitsOf v 3 2 == 3 then v - 24 + (old &&& 0x18)
  else if r == 16 then
    let v := if bitsOf v 0 2 == 3 then v - 3 + (old &&& 3) else v
    if bitsOf v 2 2 == 3 then v - 12 + (old &&& 12) else v
  else v

end State

open State

/-! ### Meanings -/

/-- R304: the upper row bits of an ACTIVATE. -/
def execActivate1 (c bank upper : Nat) (s : State) : Answer :=
  .next (if s.channelOn c then s.updChannel c (fun k => { k with half := SMap.set none k.half (bank % 16) (some (upper % 4)) }) else s)

/-- R304, R305: the row opens; an open bank takes the new row and counts an error. One that follows no ACTIVATE-1 names no row and has no
effect. -/
def execActivate2 (c bank lower : Nat) (s : State) : Answer :=
  .next (
    if !s.channelOn c then s
    else match SMap.get none (s.channel c).half (bank % 16) with
      | none => s
      | some u =>
        let was := (SMap.get none (s.channel c).rows (bank % 16)).isSome
        let s := s.updChannel c (fun k => { k with
          rows := SMap.set none k.rows (bank % 16) (some (u * 16384 + lower % 16384)), half := SMap.set none k.half (bank % 16) none })
        if was then s.countProtocolError c else s)

def execPrecharge (c bank : Nat) (s : State) : Answer :=
  .next (if s.channelOn c then s.updChannel c (fun k => { k with rows := SMap.set none k.rows (bank % 16) none }) else s)

def execPrechargeAll (c : Nat) (s : State) : Answer :=
  .next (if s.channelOn c then s.updChannel c (fun k => { k with rows := [] }) else s)

def execRead16 (c bank col : Nat) (overlap : Bool) (s : State) : Answer := .next (s.hostRead c bank col 32 overlap)
def execRead32 (c bank col : Nat) (overlap : Bool) (s : State) : Answer := .next (s.hostRead c bank col 64 overlap)

def execWrite16 (c bank col : Nat) (data : List Byte) (overlap : Bool) (s : State) : Answer :=
  .next (s.hostWrite c bank col 32 data [] overlap)
def execWrite32 (c bank col : Nat) (data : List Byte) (overlap : Bool) (s : State) : Answer :=
  .next (s.hostWrite c bank col 64 data [] overlap)

/-- R304: MASKED WRITE writes the bytes whose mask bit is 0. -/
def execMaskedWrite (c bank col : Nat) (data : List Byte) (mask : List Bool) (overlap : Bool) (s : State) : Answer :=
  .next (s.hostWrite c bank col 32 data mask overlap)

/-- R306. -/
def execModeRegisterWrite (c r : Nat) (v : Byte) (s : State) : Answer :=
  .next (
    if !s.channelReady c || r > 255 then s
    else
      let i := s.mrIndex c r
      s.updChannel c (fun k => { k with
        mr := SMap.set 0 k.mr i (BitVec.ofNat 8 (mrAccept (SMap.get 0 k.mr i).toNat v.toNat r)) }))

/-- R307: the value appears on DQ. -/
def execModeRegisterRead (c r : Nat) (s : State) : Answer :=
  .next (if s.channelReady c then s.updChannel c (fun k => { k with dq := [s.mrRead c (r % 256)] }) else s)

/-- R303, R304, R305: WCK starts with a synchronisation and stops with WCK stop; a reserved encoding is ignored and counted. -/
def execCas (c op : Nat) (s : State) : Answer :=
  .next (if !s.channelReady c then s
    else if op > 2 then s.countProtocolError c
    else s.updChannel c (fun k => { k with wck := op != 2 }))

/-- R305, R308: CA training returns the captured pattern and WCK2CK levelling the phase on DQ; ZQ entries are accepted; a reserved encoding
is ignored and counted. -/
def execMultiPurposeCommand (c op : Nat) (pattern : Byte) (s : State) : Answer :=
  .next (if !s.channelReady c then s
    else if op > 4 then s.countProtocolError c
    else s.updChannel c (fun k => match op with
      | 0 => { k with training := 1, dq := [pattern] }
      | 1 => { k with training := 2, dq := [pattern] }
      | 4 => { k with training := 0 }
      | _ => k))

/-- R308. -/
def execWriteFifo (c : Nat) (data : List Byte) (s : State) : Answer :=
  .next (if s.channelReady c then s.updChannel c (fun k => { k with fifo := k.fifo ++ [padTo 32 0 (data.take 32)] }) else s)

/-- R308: the oldest data written into the FIFO. -/
def execReadFifo (c : Nat) (s : State) : Answer :=
  .next (if !s.channelReady c then s
    else s.updChannel c (fun k => match k.fifo with
      | [] => k
      | d :: t => { k with dq := d, fifo := t }))

/-- R308: the 32 bytes of a read DQ calibration. Beat b carries bit b of the pattern in MR33 and MR34 on every DQ; a DQ selected in MR31
(lower byte) or MR32 (upper byte) carries it inverted, or low where MR20 bit 7 says so. -/
def calibrationBytes (mr : Nat → Nat) : List Byte :=
  let pattern := mr 33 + 256 * mr 34
  let lane (chosen : Nat) (bit : Bool) : Byte :=
    BitVec.ofNat 8 (((List.range 8).map (fun i =>
      b2n (if chosen.testBit i then !bit && !(mr 20).testBit 7 else bit) * 2 ^ i)).sum)
  (List.range 16).flatMap (fun b => [lane (mr 31) (pattern.testBit b), lane (mr 32) (pattern.testBit b)])

/-- R308: the pattern of the calibration mode registers, in the standard's serial order. -/
def execReadDqCalibration (c : Nat) (s : State) : Answer :=
  .next (if s.channelReady c then s.updChannel c (fun k => { k with
      dq := calibrationBytes (fun r => (SMap.get 0 k.mr (s.mrIndex c r)).toNat) }) else s)

def execRefreshAllBank (c : Nat) (s : State) : Answer := .next (if s.channelOn c then s.countRefreshSeen c else s)
def execRefreshPerBank (c _bank : Nat) (s : State) : Answer := .next (if s.channelOn c then s.countRefreshSeen c else s)
def execRefreshManagement (c : Nat) (s : State) : Answer := .next (if s.channelOn c then s.countRefreshSeen c else s)

/-- R304: an idle hint begins. -/
def State.beginHint (s : State) (c h : Nat) : State :=
  if s.channelOn c then (s.updChannel c (fun k => { k with hint := h })).countIdleHint c else s

/-- R304: an idle hint ends. -/
def State.endHint (s : State) (c h : Nat) : State :=
  if s.portOn && decide (c < 4) && h != 0 && (s.channel c).hint == h then s.updChannel c (fun k => { k with hint := 0 }) else s

def execSelfRefreshEntry (c : Nat) (s : State) : Answer := .next (s.beginHint c 1)
def execSelfRefreshExit (c : Nat) (s : State) : Answer := .next (s.endHint c 1)
def execPowerDownEntry (c : Nat) (s : State) : Answer := .next (s.beginHint c 2)
def execPowerDownExit (c : Nat) (s : State) : Answer := .next (s.endHint c 2)
def execDeepSleepEntry (c : Nat) (s : State) : Answer := .next (s.beginHint c 3)
def execDeepSleepExit (c : Nat) (s : State) : Answer := .next (s.endHint c 3)

/-- R304: no effect. -/
def execDeselect (_c : Nat) (s : State) : Answer := .next s

/-- R317: what a low HOST_RESET_N leaves of a channel: the uninitialised state; the counters are device state and stay. -/
def Channel.afterReset (k : Channel) : Channel :=
  { unbackedReads := k.unbackedReads
    unbackedWrites := k.unbackedWrites
    refreshSeen := k.refreshSeen
    idleHints := k.idleHints
    protocolErrors := k.protocolErrors }

/-- R317: all four channels. -/
def State.resetChannels (s : State) : State :=
  (List.range 4).foldl (fun s c => s.updChannel c Channel.afterReset) s

def execHostResetN (level : Bool) (s : State) : Answer :=
  .next (if level then { s with hostReset := true } else { s.resetChannels with hostReset := false })

/-- R308, R318: a channel counts as initialised. -/
def execChannelInitialised (c : Nat) (s : State) : Answer :=
  .next (if s.portOn && decide (c < 4)
    then s.updChannel c (fun k => { k with initialised := true }) else s)

/-- R310, R317, R325, R327: the control region is reached through channel 0. -/
def execDoorbell (r : Nat) (v : Word) (s : State) : Answer := .next (if s.channelOn 0 then s.ringDoorbell r v else s)

/-- R310, R326, R327. -/
def execCplHeadWrite (r : Nat) (v : Word) (s : State) : Answer := .next (if s.channelOn 0 then s.ringConsume r v else s)

/-- R310, R314. -/
def execCounterClear (c i : Nat) (s : State) : Answer := .next (if s.channelOn 0 then s.clearCounter c i else s)

/-- R311, R314: a 64-bit word of the control region written: ATTN_MASK takes the value, counters clear, the status registers are read only,
and bytes that no register occupies count as an unbacked write. -/
def execRegisterWrite (off : Nat) (v : BitVec 64) (s : State) : Answer :=
  .next (
    if !s.channelOn 0 || decide (off ≥ 0x100000) then s
    else
      let at_ := off - off % 8
      let t := s.writeControl ((List.range 8).map (fun i => (at_ + i, BitVec.ofNat 8 (v.toNat >>> (8 * i)))))
      if (List.range 8).any (fun i => (s.controlByte (at_ + i)).isNone) then t.countUnbackedWrite 0 else t)

/-- R334: a queued record carries the town count at which it is posted. -/
def stampRecord (now : Nat) (rec : List Byte) : List Byte := rec.take 16 ++ toBytes 8 now ++ rec.drop 24

/-- R328: the front of the queue is posted when a slot is free, after a RECORDS_LOST record if records were dropped. -/
def execRecordPost (r : Nat) (s : State) : Answer :=
  let k := s.ring r
  .next (
    if r > 32 || !k.slotFree || !s.ready then s
    else if k.lostSince != 0 then
      let s := s.setRing r { k with lostSince := 0 }
      let h := if r == 0 then s.deviceHeader 0x21 else s.recordHeader 0 0x21 2 (some (r - 1)) 0 0xFFFFFFFF
      s.writeRecord r (h ++ toBytes 64 (k.lostSince % 2 ^ 32))
    else match k.queue with
      | [] => s
      | rec :: t => (s.setRing r { k with queue := t }).writeRecord r (stampRecord s.now rec))

end Sys2Proof.Machine
end

