-- ==== Sys2Proof/Machine/Slots.lean ====
section
/-! DEFINITION. The array, DMA, street and row-unit commands of a bundle (R72, R75, R77, R104, R126 to R135), and the events of a core
within an act (R68, R96, R97, R109, R111, R112, R155). -/
namespace Sys2Proof.Machine

/-- An operation put in flight. -/
def Core.launch (k : Core) (f : Flight) : Core := { k with flights := k.flights ++ [f] }

/-! ### Array (R126, R127) -/

/-- R72, R126: PASS issues. -/
def Core.issuePass (k : Core) : Core :=
  let x := Bundle.array k.dueBundle
  let n := formatBits (Arr.format x)
  let p : PassFlight :=
    { n := n, slot := BitVec.ofNat 4 (Arr.slot x), accumulate := Arr.accumulate x, k := Arr.k x, col0 := Arr.col0 x, cols := Arr.cols x,
      aSrc := (k.areg (Arr.aReg x)).toNat % 16384, bSrc := (k.areg (Arr.bReg x)).toNat % 16384,
      trapLapse := Arr.trapLapse x, trapOverflow := Arr.trapOverflow x, issue := k.cycle, prog := 0, aRead := [], bRead := [] }
  let k := k.launch (.pass p)
  let k := k.advanceReg (Arr.aAdv x) (Arr.aReg x) (4 * Arr.k x * n)
  k.advanceReg (Arr.bAdv x) (Arr.bReg x) ((if Arr.cols x == 16 then 4 else 2) * Arr.k x * n)

/-- R75, R77, R81, R127: STRIKE issues. -/
def Core.issueStrike (k : Core) : Core :=
  let x := Bundle.array k.dueBundle
  let i := Arr.cfg x
  let cfg := k.apronCfg i
  let f : StrikeFlight :=
    { slot := BitVec.ofNat 4 (Arr.slot x), col0 := Arr.col0 x, cols := Arr.cols x, cfg := i,
      dst := (k.areg (Arr.dstReg x)).toNat % 16384, rexp := (k.areg (Arr.rexpReg x)).toNat % 16384,
      bias := (k.areg (Arr.biasReg x)).toNat % 16384, issue := k.cycle, rexpBytes := [], biasBytes := [],
      elem := SMap.get 0 k.apronElem i, rows := [] }
  let k := k.launch (.strike f)
  let next := (SMap.get 0 k.apronElem i + 16 * Arr.cols x) % 2 ^ 40
  let k := { k with apronFree := k.cycle + 16, apronElem := SMap.set 0 k.apronElem i next }
  k.advanceReg (Arr.dstAdv x) (Arr.dstReg x) (16 * Apron.rowWords cfg (Arr.cols x) + (if Apron.rowScaleOut cfg then 16 else 0))

/-- R72, R126. -/
def execPass (core : Nat) (s : State) : Answer := .next (s.slotStep core 1 1 (fun s => s.updCore core Core.issuePass))

/-- R75, R127. -/
def execStrike (core : Nat) (s : State) : Answer :=
  .next (s.slotStep core 1 2 (fun s => (s.updCore core Core.issueStrike).countCore core 0x04 1))

/-! ### DMA slot (R128 to R130) -/

/-- R138, R155: the slice units of a transfer read in order: the bytes of each, zeros for those that failed, and the failed ones. -/
def State.readSlice (s : State) (core : Nat) (d : DmaFlight) : State × List (List Byte) × List Nat :=
  (List.range d.sliceUnits).foldl (fun (p : State × List (List Byte) × List Nat) v =>
    match p.1.readUnit (.slice core) (64 * d.sliceAddr v) (fun s => s.countCore core 0x13 1) with
    | (s, some b) => (s, p.2.1 ++ [b], p.2.2)
    | (s, none) => (s, p.2.1 ++ [List.replicate 64 0], p.2.2 ++ [v])) (s, [], [])

/-- R129: the flight of the due bundle's DMA. -/
def Core.dmaFlight (k : Core) : DmaFlight :=
  let x := Bundle.dma k.dueBundle
  let d := k.desc (DmaOp.desc x)
  { desc := BitVec.ofNat 256 d, slice := k.dmaSlice x, store := k.dmaStore x, issue := k.cycle, units := Dma.units d,
    sliceUnits := Dma.sliceUnits d, storeUnits := Dma.storeUnits d,
    elem := SMap.get 0 k.descElem (DmaOp.desc x), source := [], failed := [] }

/-- R128, R129, R151, R153: DMA issues. A transfer into the stage store reads its slice units at the issue: DESIGN CHOICE (assumption 77). -/
def State.issueDma (s : State) (core : Nat) : State :=
  let k := s.core core
  let x := Bundle.dma k.dueBundle
  let d := k.desc (DmaOp.desc x)
  let f := k.dmaFlight
  let k := k.advanceReg (DmaOp.sliceAdv x) (DmaOp.sliceReg x) (Dma.sliceSpan d)
  let k := k.advanceReg (DmaOp.storeAdv x) (DmaOp.storeReg x) (Dma.storeSpan d)
  let next := (f.elem + Dma.allRows d * Dma.length d) % 2 ^ 40
  let k := { k with dmaFree := k.cycle + Dma.busy d, descElem := SMap.set 0 k.descElem (DmaOp.desc x) next }
  if f.units == 0 then s.setCore core (k.completes k.cycle)
  else if Dma.toSlice d then s.setCore core (k.launch (.dma f))
  else
    let (s, units, failed) := (s.setCore core k).readSlice core f
    s.updCore core (fun k => k.launch (.dma { f with source := units.flatten, failed := failed }))

/-- R128, R129. -/
def execDma (core : Nat) (s : State) : Answer := .next (s.slotStep core 2 1 (fun s => s.issueDma core))

/-- R109, R130, R156: REFRESH. -/
def execRefresh (core : Nat) (s : State) : Answer :=
  .next (s.slotStep core 2 2 (fun s =>
    let t := s.now
    (s.updCore core (fun k =>
      { k.completes (k.cycle + 64) with
        dmaFree := k.cycle + 64, cadence := 0, lastRefresh := t, refreshPart := (k.refreshPart + 1) % 4096 })).countCore core 0x11 1))

/-- R104: DOOR. -/
def execDoor (core : Nat) (s : State) : Answer :=
  .next (s.slotStep core 2 3 (fun s => s.updCore core (fun k =>
    let x := Bundle.dma k.dueBundle
    let c := DmaOp.capacity x
    let d : DoorFlight := { channel := DmaOp.channel x, toStore := DmaOp.toStore x, capacity := c, issue := k.cycle }
    { k.launch (.door d) with dmaFree := k.cycle + (if DmaOp.toStore x then 4 + c else 8 + ceilDiv (4 * c) 3) })))

/-! ### Street slot (R131, R132) -/

/-- The street transfer of the due bundle. -/
def Core.streetFlight (k : Core) : StreetFlight :=
  let x := Bundle.street k.dueBundle
  { channel := Str.channel x, store := (k.areg (Str.reg x)).toNat % 16384, units := Str.units x, issue := k.cycle, done := 0,
    bundle := k.bundle }

/-- R132, R162, R437: SEND. A SEND whose stamps do not fit sends nothing; its BANK_CONFLICT follows in the same cycle. HANDSHAKE_DELAY makes
each of its units available later. -/
def State.issueSend (s : State) (core : Nat) : State :=
  let k := s.core core
  let x := Bundle.street k.dueBundle
  let f := k.streetFlight
  let k := k.advanceReg (Str.adv x) (Str.reg x) (16 * Str.units x)
  let k := { k with sendFree := k.cycle + f.units }
  if !s.stampsFit core f.channel k.cycle f.units then s.setCore core k
  else
    let (s, n) := (s.setCore core k).perturbed (fun p => p.kind == 1 && p.core == core && p.channel == f.channel)
    s.updCore core (fun k => if f.units == 0 then k.completes k.cycle else k.launch (.send { f with delay := n }))

/-- R132. -/
def execSend (core : Nat) (s : State) : Answer := .next (s.slotStep core 3 1 (fun s => s.issueSend core))

/-- R132. -/
def execRecv (core : Nat) (s : State) : Answer :=
  .next (s.slotStep core 3 2 (fun s => s.updCore core (fun k =>
    let x := Bundle.street k.dueBundle
    let f := k.streetFlight
    let k := k.advanceReg (Str.adv x) (Str.reg x) (16 * Str.units x)
    let k := { k with recvFree := k.cycle + f.units }
    if f.units == 0 then k.completes k.cycle else k.launch (.recv f))))

/-! ### Row-unit slot (R133, R134, R183) -/

/-- R133: CALL issues. -/
def Core.issueCall (k : Core) : Core :=
  let x := Bundle.row k.dueBundle
  let n := formatBits (Row.format x)
  let addr (r : Nat) := (k.areg r).toNat % 16384
  match k.program (Row.entry x) with
  | none => k
  | some p =>
    let f : CallFlight :=
      { entry := Row.entry x, src := addr (Row.srcReg x), dst := addr (Row.dstReg x), aux := addr (Row.auxReg x), n := n,
        count := Row.count x, issue := k.cycle, depth := p.depth n, interval := p.interval n, params := [], outputs := [] }
    if f.count == 0 then { k.completes k.cycle with rowFree := k.cycle }
    else { k.launch (.call f) with rowFree := f.doneAt }

/-- R133, R183. -/
def execCall (core : Nat) (s : State) : Answer := .next (s.slotStep core 4 1 (fun s => s.updCore core Core.issueCall))

/-! ### Events of a core within an act -/

/-- R68: a group lands in some cell in the present cycle. -/
def Core.landsNow (k : Core) : Bool :=
  !stalledAt k.flights k.cycle && k.flights.any (fun f => match f with
    | .pass p => decide (k.cycle > p.issue) &&
        (List.range 16).any (fun r => (List.range p.cols).any (fun c => (p.landing (p.prog + 1) r c).isSome))
    | _ => false)

/-- The core has a pass in flight. -/
def Core.passing (k : Core) : Bool := k.flights.any (fun f => match f with | .pass _ => true | _ => false)

namespace State

/-- First cycle that the core may not run without a further command: its next bundle's, or the act's end. -/
def cycleLimit (s : State) (core : Nat) : Nat :=
  let k := s.core core
  if k.bundle < k.code.length then min k.issueAt (s.scheduledCycles core) else s.scheduledCycles core

/-- The core's cycles up to and with the next one in which a group lands, before `limit`; none if none lands. -/
def runToLanding (s : State) (core limit : Nat) : Nat → Option State
  | 0 => none
  | fuel + 1 =>
    let k := s.core core
    if !s.coreRuns core then some s
    else if k.cycle ≥ limit || !k.passing then none
    else
      let t := (s.openCycle core).closeCycle core
      if k.landsNow then some t else t.runToLanding core limit fuel

/-- R155: one unit scrubbed: a symbol in error is corrected in place; an uncorrectable unit is counted and left as it is (R402). -/
def scrubUnit (s : State) (sp : Space) (off : Nat) (count : State → State) : State :=
  if s.upset sp off == 0 then s
  else match s.readUnit sp off count with
    | (s, some d) => s.writeUnit sp off d
    | (s, none) => s.countChip 0x40 none 1

/-- R155: the next 16 units of a slice scrubbed. -/
def scrubSlice (s : State) (core : Nat) : State :=
  let n := (s.core core).scrubNext
  let s := (List.range 16).foldl (fun s i =>
    s.scrubUnit (.slice core) (64 * ((n + i) % 786432)) (fun s => s.countCore core 0x13 1)) s
  s.updCore core (fun k => { k with scrubNext := (n + 16) % 786432 })

end State

/-- R52, R68: the core runs up to and with the next cycle in which groups of products land. -/
def execPassGroupLanding (core : Nat) (s : State) : Answer :=
  .next (if !s.coreRuns core || (s.core core).phase != 0 then s
    else
      let limit := s.cycleLimit core
      (s.runToLanding core limit (limit - (s.core core).cycle)).getD s)

/-- R109: the core runs to the cycle in which its cadence reaches 2,497, if no bundle is due before it. -/
def execRefreshMissed (core : Nat) (s : State) : Answer :=
  let k := s.core core
  let at_ := k.cycle + (2497 - k.cadence)
  .next (if !s.coreRuns core || k.phase != 0 || at_ > s.cycleLimit core then s else (s.advance core at_).openCycle core)

/-- R97: the bundle of the operation in flight that waits on a street channel. -/
def Core.waitingBundle (k : Core) (sending : Bool) (ch : Nat) : Nat :=
  (k.flights.findSome? (fun f => match f with
    | .send d => if sending && d.channel == ch && d.done < d.units then some d.bundle else none
    | .recv d => if !sending && d.channel == ch && d.done < d.units then some d.bundle else none
    | _ => none)).getD k.issued

/-- R97: a freeze passes 2^20 cycles. -/
def execLateDelivery (core : Nat) (s : State) : Answer :=
  .next (match (s.core core).run with
    | .frozen sending ch =>
      let left := 2 ^ 20 - (s.core core).frozenFor
      if (s.streetBlock core left).isNone then s
      else match s.companyOf core with
        | none => s
        | some c =>
          let s := (s.countCore core 0x05 left).setTaint c
          let s := s.updCompany c (fun k => { k with late := k.late + left })
          let s := s.updCore core (fun k => { k with frozenFor := 2 ^ 20, lag := k.lag + left, issued := k.waitingBundle sending ch })
          s.coreFault core 0 8 ch
    | _ => s)

/-- R96, R393: the oldest unit under way to the port's channel buffer arrives. A unit that finds the buffer full waits in the holding stage of
its route's last link, if no unit of its channel stands there. -/
def execStreetUnitArrival (core channel : Nat) (s : State) : Answer :=
  .next (match ((List.range s.street.length).zip s.street).find? (fun (p : Nat × StreetUnit) =>
      p.2.links.isEmpty && p.2.receiver == core && p.2.rchannel == channel) with
    | none => s
    | some p =>
      if s.untaken core channel ≥ 4 then
        (if s.street.any (fun v => v.sender == p.2.sender && v.channel == p.2.channel && p.2.last.any (fun l => v.standsAt l.1)) then s
        else { s with street := s.street.modify p.1 (fun u => { u with links := u.last }) })
      else
        let s := { s with street := s.street.eraseIdx p.1 }
        let s := s.updCore core (fun k => { k with inbox := k.inbox ++ [⟨channel, p.2.due, p.2.data⟩] })
        if s.sram.any (fun e => e.1 == .street core channel) then s.coreFault core 1 6 (2 ^ 31 + channel) else s)

/-- R96: the handshake of a frozen core completes after this many frozen cycles; the core resumes. The operation's unit must be able to move
once they have passed. A core that this order of commands ran ahead of its partner, and whose unit can move in its own cycle by the contract of
R95, resumes after none: on the hardware it did not wait. -/
def execHandshakeWaitEnd (core cycles : Nat) (s : State) : Answer :=
  .next (match (s.core core).run with
    | .frozen _ _ =>
      if (s.streetBlock core cycles).isSome || cycles > 2 ^ 20 then s
      else if cycles == 0 then s.updCore core (fun k => { k with run := .running, frozenFor := 0 })
      else match s.companyOf core with
        | none => s
        | some c =>
          let s := (s.countCore core 0x05 cycles).setTaint c
          let s := s.updCompany c (fun k => { k with late := k.late + cycles })
          s.updCore core (fun k => { k with run := .running, frozenFor := 0, lag := k.lag + cycles })
    | _ => s)

/-- R111: the watchdog forces a refresh. -/
def execForcedRefresh (core : Nat) (s : State) : Answer :=
  let k := s.core core
  let inAct := match k.run with | .running => true | .frozen _ _ => true | _ => false
  .next (if !inAct || s.now < k.lastRefresh + 1000 then s
    else match s.companyOf core with
      | none => s
      | some c =>
        let t := s.now
        let s := s.updCore core (fun k => { k with lastRefresh := t, refreshPart := (k.refreshPart + 1) % 4096 })
        ((s.countCore core 0x12 1).setTaint c).updCompany c (fun co => { co with forced := co.forced + 1 }))

/-- R112, R155: a slice between acts refreshes itself; at a curtain its controller also scrubs 16 units. -/
def execAutomaticRefresh (core : Nat) (s : State) : Answer :=
  let k := s.core core
  let between := match k.run with | .running => false | .frozen _ _ => false | _ => true
  .next (if !between || !s.coreExists core || !(s.power == .run || s.power == .interval) || s.fatal then s
    else
      let t := s.now
      let s' := s.updCore core (fun k => { k with lastRefresh := t, refreshPart := (k.refreshPart + 1) % 4096 })
      if k.run == .ended then s'.scrubSlice core else s')

/-- R397: the containment notice reaches another core of the company. -/
def execStopNotice (core : Nat) (s : State) : Answer :=
  .next (match s.companyOf core with
    | none => s
    | some c =>
      let k := s.core core
      if !(s.company c).stopping || k.phase != 0 || k.run == .stopped || k.run == .idle then s
      else s.updCore core (fun k => { k with run := .stopped }))

end Sys2Proof.Machine
end

