-- ==== Sys2Proof/Machine/Rings.lean ====
section
/-! DEFINITION. Commands of the rings: taking a slot, the order of the checks, completion and acceptance (R325, R329 to R334, R341, R354,
R394, R403). Each command is a sheet: its opcode, its body fields, its checks and its effect. -/
namespace Sys2Proof.Machine

/-- How a command that passes its checks goes on. -/
inductive Verdict where
  /-- It completes with STATUS_OK and this body. -/
  | done (s : State) (body : Nat)
  /-- It completes with another status. -/
  | failed (status offset : Nat)
  /-- It is accepted and completes later (R332). -/
  | accepted (s : State)
  /-- It ends without a completion, or has posted it itself. -/
  | ended (s : State)

/-- A command's sheet. -/
structure Sheet where
  opcode : Nat
  /-- R341: the device ring only. -/
  deviceOnly : Bool := false
  /-- It has a data block. -/
  hasData : Bool := false
  /-- Its record names the company of its slot (R334). -/
  concerns : Bool := true
  /-- Body bytes that the command lists, as offset and length. -/
  used : List (Nat × Nat) := []
  /-- Check 4: reserved values of the body's fields. -/
  coded : Nat → Check := fun _ => none
  /-- Check 7. -/
  size : Nat → Check := fun _ => none
  /-- Check 8, on the state, the ring and the slot. -/
  pre : State → Nat → Nat → Check := fun _ _ _ => none
  run : State → Nat → Nat → Verdict

/-- Byte offset in the slot of a body field. -/
def bodyAt (off : Nat) : Nat := 32 + off

/-- Byte of the lowest bit that is set: the first reserved byte that is not zero. -/
def lowByte (x : Nat) : Nat := ((List.range 1024).find? x.testBit).getD 0 / 8

/-- R11: reserved bits, given by a mask, that are not zero; the structure stands at byte `at_`. -/
def reservedBits (x mask at_ : Nat) : Check :=
  let bad := x &&& mask
  if bad == 0 then none else some (St.reservedSet, at_ + lowByte bad)

/-- Bits lo to hi of a mask. -/
def maskOf (lo hi : Nat) : Nat := 2 ^ (hi + 1) - 2 ^ lo

/-- R329, R330: the first body byte that no command field covers and that is not zero. -/
def reservedBody (used : List (Nat × Nat)) (w : Nat) : Check :=
  ((List.range 96).find? (fun i => Cmd.field w i 1 != 0 && !used.any (fun u => decide (u.1 ≤ i) && decide (i < u.1 + u.2)))).map
    (fun i => (St.reservedSet, bodyAt i))

namespace State

/-- The data block of a command (R329). -/
def block (s : State) (w : Nat) : List Byte := s.bytes .foyer (Cmd.dataAddr w) (Cmd.length w)

/-- R330: the checks of a command in their order, for a sheet. -/
def checkCommand (s : State) (ring w : Nat) (t : Sheet) : Check :=
  let first := t.opcode == 1 || t.opcode == 2
  firstFail [
    need (!s.fatal || [0x01, 0x03, 0x04, 0x72].contains t.opcode) St.wrongState noField,
    need (first || s.interface != 0) St.wrongState noField,
    need (Cmd.version w == if first then 0 else s.interface.toNat) St.badVersion 2,
    need (bitsOf w 25 7 == 0) St.reservedSet 3,
    need (t.hasData || Cmd.length w == 0) St.reservedSet 4,
    need (bitsOf w 101 27 == 0) St.reservedSet 12,
    need (bitsOf w 154 102 == 0) St.reservedSet 19,
    reservedBody t.used w,
    t.coded w,
    need (ring == 0 || !t.deviceOnly) St.denied 0,
    need (ring == 0 || Cmd.company w == ring - 1) St.denied 12,
    need (Cmd.dataAddr w % 64 == 0) St.denied 16,
    need (Cmd.dataAddr w + Cmd.length w ≤ 2 ^ 26) St.denied 16,
    t.size w,
    t.pre s ring w]

/-- R334: the company a command's record names. -/
def recordCompany (ring w : Nat) (t : Sheet) : Option Nat := if ring != 0 || t.concerns then some (Cmd.company w) else none

/-- R332: a command that has passed its checks stays outstanding; those behind it that have no effect follow. -/
def accept (s : State) (ring : Nat) : State :=
  (s.updRing ring (fun k =>
    let i := k.taken.findIdx (fun t => !t.accepted)
    { k with taken := k.taken.modify i (fun t => { t with accepted := true }) })).dismiss ring

/-- R329, R332: the ring's current command runs if it is this one: `mine` tells the forms of one opcode apart. -/
def serve (s : State) (ring : Nat) (t : Sheet) (mine : Nat → Bool := fun _ => true) : State :=
  match s.current ring with
  | none => s
  | some c =>
    let w := c.word
    if !s.mayStart ring w || Cmd.opcode w != t.opcode || !mine w then s
    else
      let co := recordCompany ring w t
      let finish (s : State) (st off body : Nat) := s.complete ring false t.opcode co (Cmd.tag w) st off body
      match s.checkCommand ring w t with
      | some (st, off) => finish s st off 0
      | none =>
        match t.run s ring w with
        | .done s body => finish s St.ok noField body
        | .failed st off => finish s st off 0
        | .accepted s => s.accept ring
        | .ended s => s

/-! ### Cores named by a command (R341) -/

/-- District and core masks of a body, at byte offsets 4 and 8. -/
def selected (w : Nat) : List Nat :=
  let dm := Cmd.field w 4 4
  let cm := Cmd.field w 8 8
  (List.range 32).flatMap (fun d => if dm.testBit d then (List.range 64).filterMap (fun i => if cm.testBit i then some (d * 64 + i) else none)
    else [])

/-- R341: every selected core is in the company's enabled grid and in its script's grid. -/
def checkSelected (s : State) (w : Nat) : Check :=
  let c := Cmd.company w
  let cores := selected w
  firstFail [
    need (cores.all (fun k => (s.company c).districts.toNat.testBit (k / 64))) St.denied (bodyAt 4),
    need (cores.all (fun k => decide (k % 64 / 8 < s.scriptRows c) && decide (k % 64 / 8 < s.gridRows))) St.denied (bodyAt 4)]

/-- R352: the company runs an act, between curtain-up and the barrier of its end. -/
def inAct (s : State) (c : Nat) : Bool := (s.company c).mode == .running && (s.company c).at_ == .none

/-- R115, R326: bytes written to the foyer by the stage manager. -/
def putReport (s : State) (addr : Nat) (d : List Byte) : State := (s.putBytes .foyer addr d).renewFoyer addr d.length

end State

/-- R325, R328, R401: the stage manager takes the ring's next slot once a RECORDS_LOST that waits has its own; an error of its working
memory is corrected and counted, or fatal (R394). A command without effect completes when its turn has come (R332). -/
def execCommandTake (ring : Nat) (s : State) : Answer :=
  let k := s.ring ring
  .next (if !s.ready || ring > 32 || k.state == .indexError || k.cmdHead = k.cmdTail || k.taken.length ≥ 64 || k.unread + k.taken.length ≥ 256 || k.lostSince != 0 then s
    else s.managerWorks (fun s =>
      let b := s.bytes .foyer (commandSlot ring k.cmdHead.toNat) 128
      (s.updRing ring (fun k => { k with cmdHead := k.cmdHead + 1, taken := k.taken ++ [{ bytes := b }] })).dismiss ring))

end Sys2Proof.Machine
end

