-- ==== Sys2Proof/Machine/DeviceCmds.lean ====
section
/-! DEFINITION. The interface, report, event and perturbation commands (R62, R338, R339, R349 to R351, R395, R424 to R436). -/
namespace Sys2Proof.Machine

/-! ### Interface (R338, R339) -/

def helloSheet : Sheet :=
  { opcode := 0x01, deviceOnly := true, concerns := false
    run := fun s _ _ => .done s (pack [(1, 8), (0x10, 64), (0, 56), (s.interface.toNat, 8), (1, 8), (1, 8), (1, 8), (s.part.rom.toNat, 32),
      (s.part.grade, 8)]) }

/-- R338. -/
def execHello (ring : Nat) (s : State) : Answer := .next (s.serve ring helloSheet)

def State.anyFormed (s : State) : Bool := (List.range 32).any s.formed

def setInterfaceSheet : Sheet :=
  { opcode := 0x02, deviceOnly := true, concerns := false, used := [(0, 1)]
    pre := fun s _ w => firstFail [
      need (Cmd.field w 0 1 == s.interface.toNat || !s.anyFormed) St.wrongState noField,
      need (Cmd.field w 0 1 == 0x10) St.badVersion (bodyAt 0)]
    run := fun s _ w => .done { s with interface := BitVec.ofNat 8 (Cmd.field w 0 1) } 0 }

/-- R339. -/
def execSetInterface (ring : Nat) (s : State) : Answer := .next (s.serve ring setInterfaceSheet)

/-! ### QUERY_DEVICE (R351) -/

/-- R340: the code of a company's state. -/
def CompanyMode.code : CompanyMode → Nat
  | .unformed => 0 | .idle => 1 | .launched => 2 | .running => 3 | .halted => 4

/-- R351, R446: the code of a power state in ENTER_STATE's encoding. -/
def PowerState.code : PowerState → Nat
  | .interval => 1 | .dim => 2 | .standby => 3 | _ => 0

def LinkState.code : LinkState → Nat
  | .down => 0 | .training => 1 | .up => 2 | .upSpared => 3

/-- R283: the DETERMINISM register, 256 bits. -/
def Company.determinism (k : Company) : Nat :=
  pack [(b2n k.reproducible, 1), (b2n k.taint, 1), (b2n k.pair.isSome, 1), (0, 61), (k.step.toNat, 48), (0, 16), (k.seed.toNat, 64)]

namespace State

/-- R351: the report in pieces, each an offset and bytes. -/
def queryPieces (s : State) : List (Nat × List Byte) :=
  [(0, toBytes 4 (pack [(s.part.grade, 8), (32, 8), (s.gridRows, 8), (s.part.lifecycle.toNat, 8)])),
   (4, toBytes 4 s.part.rom.toNat),
   (8, toBytes 4 (pack [(s.chipId, 16), (s.power.code, 8), (s.interface.toNat, 8)])),
   (0xC, toBytes 4 (pack [(b2n s.town.synced, 8), (b2n s.town.master, 8)])),
   (0x10, toBytes 8 (pack [(s.sustained, 32), (s.fuseMax, 32)])),
   (0x18, toBytes 8 s.now)] ++
  (List.range 32).map (fun c =>
    let k := s.company c
    (0x40 + 64 * c, toBytes 64 (pack [(k.districts.toNat, 32), (k.mode.code, 8), (0, 24), (k.curtain.toNat, 32), (0, 32), (k.determinism, 192)]))) ++
  (List.range 16).map (fun l =>
    let k := s.link l
    (0x840 + 8 * l, toBytes 8 (pack [(k.state.code, 8), (k.spared.getD 0, 8), (0, 16), (k.resent, 32)]))) ++
  (List.range 32).map (fun d => (0x8C0 + 2 * d, toBytes 2 (SMap.get 720 s.temps d)))

end State

def queryDeviceSheet : Sheet :=
  { opcode := 0x03, hasData := true, concerns := false
    size := fun w => need (Cmd.length w ≥ 4096) St.badSize 4
    run := fun s _ w =>
      let a := Cmd.dataAddr w
      .done ((s.queryPieces).foldl (fun t p => t.putReport (a + p.1) p.2) (s.putReport a (List.replicate 4096 0))) 0 }

/-- R349, R351. -/
def execQueryDevice (ring : Nat) (s : State) : Answer := .next (s.serve ring queryDeviceSheet)

/-! ### READ_FAULT (R395) -/

/-- The log a READ_FAULT names. -/
def State.namedLog (s : State) (w : Nat) : FaultLog := if Cmd.field w 0 1 == 0 then (s.company (Cmd.company w)).log else s.log

def readFaultSheet : Sheet :=
  { opcode := 0x72, used := [(0, 1), (4, 4)]
    pre := fun s _ w => firstFail [
      need (Cmd.field w 0 1 ≤ 1) St.denied (bodyAt 0),
      need ((s.namedLog w).find (Cmd.field w 4 4)).isSome St.denied (bodyAt 4)]
    run := fun s _ w => .done s (((s.namedLog w).find (Cmd.field w 4 4)).getD 0).toNat }

/-- R349, R395. -/
def execReadFault (ring : Nat) (s : State) : Answer := .next (s.serve ring readFaultSheet)

/-! ### SET_HOUSE_BUDGET (R355, R371) -/

def setHouseBudgetSheet : Sheet :=
  { opcode := 0x60, deviceOnly := true, concerns := false, used := [(0, 4), (4, 4), (8, 4)]
    pre := fun s _ w =>
      let v := Cmd.field w 0 4
      let p := Cmd.field w 4 4
      firstFail [
        need (100 ≤ v && v ≤ s.fuseMax) St.denied (bodyAt 0),
        need (v ≤ p && p ≤ 1150) St.denied (bodyAt 4),
        need (Cmd.field w 8 4 ≥ 1) St.denied (bodyAt 8)]
    run := fun s _ w =>
      let clear (k : Company) : Company := { k with refusedAt := k.refusedAt.map (fun _ => 0) }
      .done { s with
        sustained := Cmd.field w 0 4, peak := Cmd.field w 4 4, ramp := Cmd.field w 8 4,
        companies := s.companies.map (fun p => (p.1, clear p.2)) } 0 }

/-- R349, R362, R371: a refused curtain may re-evaluate at once after it. -/
def execSetHouseBudget (ring : Nat) (s : State) : Answer := .next (s.serve ring setHouseBudgetSheet)

/-! ### EVENT_CONFIG and EVENT_READ (R218, R349, R424 to R431) -/

/-- R426: defined event sources. -/
def sourceDefined (x : Nat) : Bool := x ≤ 0x17 || (0x40 ≤ x && x ≤ 0x4D) || (0x50 ≤ x && x ≤ 0x54)

/-- R424: the filter values that a chip counter's source allows. -/
def filterOk (src f : Nat) : Bool :=
  if src < 0x40 || src == 0x41 || src == 0x47 || src == 0x49 then f < 32 || f == 0xFF
  else if src == 0x42 || src == 0x43 then f < 16 || f == 0xFF
  else if src ≥ 0x50 then f < 4 || f == 0xFF
  else f == 0xFF

/-- Number of counters or sets of a target. -/
def targetSize (t : Nat) : Nat :=
  match t with
  | 0 => 4 | 1 => 8 | 2 => 64 | 3 => 16 | 4 => 64 | _ => 0

/-- R424, R428: the core field of a target names an enabled core or a district, or is 0. -/
def State.targetCoreOk (s : State) (target core : Nat) : Bool :=
  match target with
  | 0 | 3 => s.coreExists core
  | 1 => core < 32
  | _ => core == 0

namespace State

/-- R428: a counter configured. -/
def configCounter (k : QueuedConfig) : EventCounter := { config := k.config, value := 0, threshold := k.threshold, raised := false }

/-- R218, R428: a core or district configuration takes effect on a core's own settings or on its district's. -/
def applyConfig (s : State) (core : Nat) (q : QueuedConfig) : State :=
  match q.target with
  | 0 => s.updCore core (fun k => { k with counters := SMap.set {} k.counters q.index (configCounter q) })
  | 1 => { s with districtCounters := SMap.set {} s.districtCounters (core / 64 * 8 + q.index) (configCounter q) }
  | 3 => s.updCore core (fun k => { k with calSets := SMap.set 0 k.calSets q.index (BitVec.setWidth 256 q.config) })
  | _ => s

/-- R218, R428: the configurations of a core that waited for its curtain-up. -/
def applyConfigs (s : State) (core : Nat) : State :=
  let qs := (s.core core).cfgQueue
  let s := s.updCore core (fun k => { k with cfgQueue := [] })
  qs.foldl (fun s q => s.applyConfig core q) s

end State

def eventConfigSheet : Sheet :=
  { opcode := 0x70, used := [(0, 1), (1, 1), (2, 2), (8, 8), (16, 8)]
    coded := fun w =>
      let t := Cmd.field w 0 1
      let c := Cmd.field w 8 8
      firstFail [
        need (t ≤ 5) St.reservedSet (bodyAt 0),
        need (t > 2 || sourceDefined (bitsOf c 0 8)) St.reservedSet (bodyAt 8),
        (if t ≤ 2 then reservedBits c (maskOf 17 63) (bodyAt 8) else none),
        (if t == 3 || t == 4 then reservedBits c (maskOf 25 31) (bodyAt 8) else none)]
    pre := fun s _ w =>
      let t := Cmd.field w 0 1
      let src := Cmd.field w 8 1
      let f := Cmd.field w 9 1
      firstFail [
        need (t == 5 || Cmd.field w 1 1 < targetSize t) St.denied (bodyAt 1),
        need (s.targetCoreOk t (Cmd.field w 2 2)) St.denied (bodyAt 2),
        need (!(t ≤ 1) || src < 0x40) St.denied (bodyAt 8),
        need (t > 2 || (if t ≤ 1 then f == 0 else filterOk src f)) St.denied (bodyAt 9)]
    run := fun s _ w =>
      let t := Cmd.field w 0 1
      let i := Cmd.field w 1 1
      let core := if t == 1 then Cmd.field w 2 2 * 64 else Cmd.field w 2 2
      let q : QueuedConfig := ⟨t, i, BitVec.ofNat 64 (Cmd.field w 8 8), BitVec.ofNat 64 (Cmd.field w 16 8)⟩
      let busy := match s.companyOf core with | some c => s.inAct c | none => false
      .done (match t with
        | 2 => { s with chipCounters := SMap.set {} s.chipCounters i (State.configCounter q) }
        | 4 => { s with chipCalSets := SMap.set 0 s.chipCalSets i (BitVec.setWidth 256 q.config) }
        | 5 => s.updCompany (Cmd.company w) (fun k => { k with watch := q.config })
        | _ => if busy then s.updCore core (fun k => { k with cfgQueue := k.cfgQueue ++ [q] }) else s.applyConfig core q) 0 }

/-- R349, R428. -/
def execEventConfig (ring : Nat) (s : State) : Answer := .next (s.serve ring eventConfigSheet)

namespace State

/-- R425: the bytes EVENT_READ returns for one counter or set. -/
def readEvent (s : State) (target core i : Nat) : List Byte :=
  match target with
  | 0 => toBytes 8 (SMap.get {} (s.core core).counters i).value.toNat
  | 1 => toBytes 8 (SMap.get {} s.districtCounters (core * 8 + i)).value.toNat
  | 2 => toBytes 8 (SMap.get {} s.chipCounters i).value.toNat
  | 3 => toBytes 32 (SMap.get 0 (s.core core).calSets i).toNat
  | _ => toBytes 32 (SMap.get 0 s.chipCalSets i).toNat

/-- R425: a counter cleared. -/
def clearedCounter (k : EventCounter) : EventCounter := { k with value := 0, raised := false }
/-- R218: a set's counts and drift_raised cleared. -/
def clearedSet (x : BitVec 256) : BitVec 256 := BitVec.ofNat 256 (x.toNat % 2 ^ 64)

def clearEvent (s : State) (target core i : Nat) : State :=
  match target with
  | 0 => s.updCore core (fun k => { k with counters := SMap.set {} k.counters i (clearedCounter (SMap.get {} k.counters i)) })
  | 1 =>
    let j := core * 8 + i
    { s with districtCounters := SMap.set {} s.districtCounters j (clearedCounter (SMap.get {} s.districtCounters j)) }
  | 2 => { s with chipCounters := SMap.set {} s.chipCounters i (clearedCounter (SMap.get {} s.chipCounters i)) }
  | 3 => s.updCore core (fun k => { k with calSets := SMap.set 0 k.calSets i (clearedSet (SMap.get 0 k.calSets i)) })
  | _ => { s with chipCalSets := SMap.set 0 s.chipCalSets i (clearedSet (SMap.get 0 s.chipCalSets i)) }

end State

def eventReadSheet : Sheet :=
  { opcode := 0x71, hasData := true, used := [(0, 1), (1, 1), (2, 2), (4, 2), (8, 2)]
    coded := fun w => need (Cmd.field w 1 1 ≤ 1) St.reservedSet (bodyAt 1)
    size := fun w => need (Cmd.length w ≥ Cmd.field w 4 2 * (if Cmd.field w 0 1 ≤ 2 then 8 else 32)) St.badSize 4
    pre := fun s _ w =>
      let t := Cmd.field w 0 1
      firstFail [
        need (t ≤ 4) St.denied (bodyAt 0),
        need (Cmd.field w 2 2 + Cmd.field w 4 2 ≤ targetSize t) St.denied (bodyAt 2),
        need (s.targetCoreOk t (Cmd.field w 8 2)) St.denied (bodyAt 8)]
    run := fun s _ w =>
      let t := Cmd.field w 0 1
      let core := Cmd.field w 8 2
      let is := (List.range (Cmd.field w 4 2)).map (Cmd.field w 2 2 + ·)
      let s' := s.putReport (Cmd.dataAddr w) (is.flatMap (s.readEvent t core))
      .done (if Cmd.field w 1 1 == 1 then is.foldl (fun s i => s.clearEvent t core i) s' else s') 0 }

/-- R349, R425. -/
def execEventRead (ring : Nat) (s : State) : Answer := .next (s.serve ring eventReadSheet)

/-! ### DEBUG_READ_QUIRE (R62, R432) -/

def debugReadQuireSheet : Sheet :=
  { opcode := 0x91, deviceOnly := true, hasData := true, used := [(0, 2), (2, 1)]
    coded := fun w => need (Cmd.field w 2 1 < 16 && slotBits (Cmd.field w 2 1) != 0) St.reservedSet (bodyAt 2)
    size := fun w => need (Cmd.length w ≥ 256 * (slotBits (Cmd.field w 2 1) / 8 + 8)) St.badSize 4
    pre := fun s _ w =>
      let core := Cmd.field w 0 2
      let idle := match s.companyOf core with | some c => s.companyIdle c | none => true
      firstFail [
        need (s.scope.toNat.testBit 0) St.denied noField,
        need (idle && s.power != .dim) St.wrongState noField,
        need (s.coreExists core) St.denied (bodyAt 0)]
    run := fun s _ w =>
      let k := s.core (Cmd.field w 0 2)
      let slot := Cmd.field w 2 1
      .done (s.putReport (Cmd.dataAddr w) ((List.range 256).flatMap (fun cell =>
        toBytes (slotBits slot / 8) (k.slot cell slot) ++ toBytes 8 (k.status cell slot).bits.toNat))) 0 }

/-- R62, R432. -/
def execDebugReadQuire (ring : Nat) (s : State) : Answer := .next (s.serve ring debugReadQuireSheet)

/-! ### TEST_PERTURB (R435 to R438) -/

/-- R436: the body bytes that a control kind uses beside its kind and slot, as offset and length. -/
def perturbFields (kind mode : Nat) : List (Nat × Nat) :=
  match kind with
  | 1 => [(2, 2), (5, 1), (8, 4), (12, 4)]
  | 2 => [(4, 1), (5, 1), (6, 1), (8, 4), (12, 4)]
  | 3 => [(4, 1), (8, 4), (12, 4)]
  | 4 => [(2, 2), (5, 1), (8, 4), (12, 4)]
  | 5 => [(5, 1), (6, 1), (8, 4), (12, 4)] ++ (if mode == 1 || mode == 3 then [(7, 1)] else [])
  | _ => []

def testPerturbSheet : Sheet :=
  { opcode := 0x92, deviceOnly := true, concerns := false, used := [(0, 16)]
    coded := fun w =>
      let k := Cmd.field w 0 1
      firstFail [
        need (k ≤ 5) St.reservedSet (bodyAt 0),
        need (k != 5 || (1 ≤ Cmd.field w 6 1 && Cmd.field w 6 1 ≤ 4)) St.reservedSet (bodyAt 6),
        reservedBody ([(0, 2)] ++ perturbFields k (Cmd.field w 6 1)) w]
    pre := fun s _ w =>
      let k := Cmd.field w 0 1
      let ch := Cmd.field w 5 1
      let formedCore := match s.companyOf (Cmd.field w 2 2) with | some _ => s.coreExists (Cmd.field w 2 2) | none => false
      firstFail [
        need (s.part.lifecycle == 2 || s.scope.toNat.testBit 1) St.denied noField,
        need (Cmd.field w 1 1 ≤ 15) St.denied (bodyAt 1),
        need (k != 1 || ch ≤ 63) St.denied (bodyAt 5),
        need (k != 4 || ch ≤ 7) St.denied (bodyAt 5),
        need (!(k == 2 || k == 5) || ch ≤ 15) St.denied (bodyAt 5),
        need (k != 2 || Cmd.field w 6 1 ≤ 3) St.denied (bodyAt 6),
        need (Cmd.field w 7 1 ≤ 8) St.denied (bodyAt 7),
        need (!(k == 2 || k == 3) || (Cmd.field w 4 1 < 32 && s.formed (Cmd.field w 4 1))) St.denied (bodyAt 4),
        need (!(k == 1 || k == 4) || formedCore) St.denied (bodyAt 2),
        need (!(k == 2 || k == 5) || (s.link ch).enabled) St.denied (bodyAt 5),
        need (k != 1 || Cmd.field w 8 4 ≤ 2 ^ 24) St.denied (bodyAt 8)]
    run := fun s _ w =>
      let q : Perturb :=
        { kind := Cmd.field w 0 1, core := Cmd.field w 2 2, company := Cmd.field w 4 1, channel := Cmd.field w 5 1,
          sub := Cmd.field w 6 1, lane := Cmd.field w 7 1, amount := Cmd.field w 8 4, left := Cmd.field w 12 4 }
      .done { s with perturb := SMap.set {} s.perturb (Cmd.field w 1 1) (if q.kind == 0 || q.left == 0 then {} else q) } 0 }

/-- R435, R436. -/
def execTestPerturb (ring : Nat) (s : State) : Answer := .next (s.serve ring testPerturbSheet)

end Sys2Proof.Machine
end

