-- ==== Sys2Proof/Machine/Curtain.lean ====
section
/-! DEFINITION. Curtains and stops of a company: the end of an act, the choice of the next, cues, admission, ballast, curtain-up, the
understudy's comparison, and the cleaning up after a stop (R88 to R108, R298 to R300, R347, R353, R358 to R369, R396 to R399). -/
namespace Sys2Proof.Machine

/-! ### Cues (R101) -/

/-- Step 4: a pending class is frozen. Where fast mode comes back to step 4 in one curtain, a write held since the last cut is frozen too. -/
def Cue.cut {α : Type} (q : Cue α) : Cue α := { q with shadow := q.held.getD q.shadow, held := none, frozen := q.pending }

/-- Step 8: a frozen class applies; its shadow is a copy, then takes the held write. -/
def Cue.apply {α : Type} (q : Cue α) : Cue α :=
  if q.frozen then { active := q.shadow, shadow := q.held.getD q.shadow, pending := q.held.isSome, frozen := false, held := none } else q

/-- R347, R353: the curtain is abandoned: what was frozen stays pending. -/
def Cue.release {α : Type} (q : Cue α) : Cue α := { q with shadow := q.held.getD q.shadow, frozen := false, held := none }

/-- R101: a write of the shadow, or one held while the class is frozen. -/
def Cue.write {α : Type} (q : Cue α) (v : α) : Cue α :=
  if q.frozen then { q with held := some v } else { q with shadow := v, pending := true }

namespace Core

/-- Step 4 for the classes of a core, with the writes held since an earlier step 4 of the same curtain. -/
def cutCues (k : Core) : Core :=
  { k with
    tablesShadow := k.tablesHeld.getD k.tablesShadow
    scaleShadow := SMap.setMany 0 k.scaleShadow k.scaleHeld
    apronShadow := SMap.setMany 1 k.apronShadow k.apronHeld
    tablesHeld := none
    scaleHeld := []
    apronHeld := []
    tablesFrozen := k.tablesPending
    scaleFrozen := k.scalePending
    apronFrozen := k.apronPending }

/-- R187: function-table banks swap; a held load then fills the old active bank. -/
def applyTables (k : Core) : Core :=
  if k.tablesFrozen then
    { k with tables := k.tablesShadow, tablesShadow := k.tablesHeld.getD k.tables, tablesPending := k.tablesHeld.isSome, tablesFrozen := false,
             tablesHeld := none }
  else k

def applyScales (k : Core) : Core :=
  if k.scaleFrozen then
    { k with scale := k.scaleShadow, scaleShadow := SMap.setMany 0 k.scaleShadow k.scaleHeld, scalePending := !k.scaleHeld.isEmpty,
             scaleFrozen := false, scaleHeld := [] }
  else k

def applyApron (k : Core) : Core :=
  if k.apronFrozen then
    { k with apron := k.apronShadow, apronShadow := SMap.setMany 1 k.apronShadow k.apronHeld, apronPending := !k.apronHeld.isEmpty,
             apronFrozen := false, apronHeld := [] }
  else k

/-- Step 8 for the classes of a core, and the micro-programs that waited for a curtain (R181). One that waited replaces a later image that was
installed at once: DESIGN CHOICE (assumption 86), the spec gives the two no order. -/
def applyCues (k : Core) : Core :=
  let k := k.applyTables.applyScales.applyApron
  { k with micro := SMap.setMany none k.micro (k.microQueue.map (fun p => (p.1, some p.2))), microQueue := [] }

/-- R353: frozen classes stay pending and held writes enter their shadows. -/
def releaseCues (k : Core) : Core :=
  { k with
    tablesShadow := k.tablesHeld.getD k.tablesShadow
    scaleShadow := SMap.setMany 0 k.scaleShadow k.scaleHeld
    apronShadow := SMap.setMany 1 k.apronShadow k.apronHeld
    tablesFrozen := false
    scaleFrozen := false
    apronFrozen := false
    tablesHeld := none
    scaleHeld := []
    apronHeld := [] }

end Core

namespace State

/-- R336: the classes frozen for a curtain-up, bits 0 to 5. -/
def frozenClasses (s : State) (c : Nat) : Nat :=
  let ks := (s.scriptCores c).map s.core
  let k := s.company c
  pack [(b2n (ks.any (·.tablesFrozen)), 1), (b2n (ks.any (·.scaleFrozen)), 1), (b2n (ks.any (·.apronFrozen)), 1),
    (b2n k.clock.frozen, 1), (b2n k.plan.frozen, 1), (b2n k.trap.frozen, 1)]

/-! ### Stops (R347, R353, R396 to R400) -/

/-- R391, R398: the primary record with its primary bit and the number of further records. -/
def primaryRecord (k : Company) : Option (BitVec 512) :=
  k.primary.map (fun r => BitVec.ofNat 512 (r.toNat + 2 ^ 14 + 2 ^ 208 * min (k.faults - 1) 255))

/-- R391, R395, R398: the records of a stop enter the company's log, each written once; the primary one is marked. -/
def stopLog (k : Company) : FaultLog :=
  k.stopRecords.foldl (fun l r => l.push 64 (if k.primary == some r then (primaryRecord k).getD r else r)) k.log

/-- R300: the pair of a company ends; a notice goes to the partner. -/
def endPair (s : State) (c : Nat) (notify : Bool) : State :=
  match (s.company c).pair with
  | none => s
  | some p =>
    let s := s.updCompany c (fun k => { k with pair := none, sigSent := false, partnerSigs := none, comparedAt := none })
    if notify then s.message c p.partner [5, c] else s

/-- R397: units on the company's streets and in its buffers are written nowhere. -/
def dropStreets (s : State) (c : Nat) : State :=
  let mine (k : Nat) : Bool := (s.company c).districts.toNat.testBit (k / 64)
  { s with
    street := s.street.filter (fun u => !mine u.sender)
    cores := s.cores.map (fun p => (p.1, if mine p.1 then { p.2 with inbox := [] } else p.2)) }

/-- R346, R353: the company's carriages end with STATUS_HALTED. -/
def haltCarriages (s : State) (c : Nat) : State :=
  (s.carriages.filter (fun d => d.company == some c)).foldl (fun s d => s.endCarriage d St.halted) s

/-- Waiting commands of a company complete. -/
def completeAll (s : State) (c : Nat) (ws : List Waiting) (status : Nat) : State :=
  ws.foldl (fun s w => s.completeWaiting (some w) c status) s

/-- R300: a company told to stop by its pair's end reports it once it stands. -/
def postPairStop (s : State) (c : Nat) : Option (Nat × Nat) → State
  | none => s
  | some (code, link) => s.postDeviceFor c code (pack [(c, 5), (0, 3), (link, 4)])

/-- R347, R353, R399: the company is stopped: its cores stand, its jobs abort, its carriages end, its ballast tapers, its partner hears of
it, and a fault's primary record is posted. -/
def finishStop (s : State) (c : Nat) (notify : Bool := true) : State :=
  let k := s.company c
  let level := s.ballastAt c s.now
  let s := s.curtainEnergy c s.now
  let s := s.updCores (s.companyCores c) (fun _ k => { k.releaseCues with run := if k.run == .idle then .idle else .stopped })
  let s := (s.dropStreets c).updCompany c (fun k => { k with
    mode := .halted
    clock := k.clock.release
    trap := k.trap.release
    plan := k.plan.release
    cut := false })
  let s := (s.abortCompanyJobs c).haltCarriages c
  let s := s.completeWaiting k.launchCmd c St.halted
  let s := s.startTaper c level true
  let s := s.completeAll c k.haltCmds St.ok
  let s := if notify then s.endPair c true else s
  let s := s.updCompany c (fun k => { k with
    at_ := .none
    stopping := false
    launching := false
    launchCmd := none
    haltCmds := []
    pairStop := none
    sigSent := false
    partnerSigs := none
    comparedAt := none
    refused := []
    refusedAt := none
    landedNames := []
    landedContexts := []
    log := stopLog k
    stopRecords := []
    primary := none
    faults := 0 })
  let s := s.postPairStop c k.pairStop
  match primaryRecord k with
  | none => s
  | some r => s.postCompany c 0x0C r.toNat

/-- No core of the company issues, waits or stands at an act's end. -/
def allStopped (s : State) (c : Nat) : Bool :=
  (s.companyCores c).all (fun x => (s.core x).run == .stopped || (s.core x).run == .idle)

/-- R385: no core of the company that runs is in the middle of a bundle. -/
def betweenBundles (s : State) (c : Nat) : Bool :=
  (s.companyCores c).all (fun x => (s.core x).phase == 0 || (s.core x).run == .stopped)

/-! ### The understudy's comparison (R297 to R299) -/

/-- The act signatures of a company's cores in logical order. -/
def signatures (s : State) (c : Nat) : List (BitVec 64) := (s.scriptCores c).map (fun x => (s.core x).sig)

/-- R299: the UNDERSTUDY_DIVERGED body. -/
def divergedBody (s : State) (c role core differing : Nat) (own partner : BitVec 64) : Nat :=
  let k := s.company c
  pack [(0x10, 8), (role, 1), (0, 7), (c, 5), (0, 11), (k.act, 12), (0, 20), (k.curtain.toNat, 32), (k.step.toNat, 48), (0, 16), (core, 11),
    (0, 5), (differing, 12), (0, 4), (own.toNat, 64), (partner.toNat, 64), (s.now, 64)]

/-- R298, R299: the two chips' signatures compared once both are at hand. A difference stops the company. -/
def compareSignatures (s : State) (c : Nat) : State :=
  let k := s.company c
  match k.pair, k.partnerSigs with
  | some p, some theirs =>
    if !k.sigSent then s
    else
      let cores := s.scriptCores c
      let own := s.signatures c
      let rows := cores.zip (own.zip ((List.range own.length).map (fun i => theirs.getD i 0)))
      let diff := rows.filter (fun r => r.2.1 != r.2.2)
      let s := s.updCompany c (fun k => { k with sigSent := false, partnerSigs := none })
      match diff with
      | [] => let t := s.now; s.updCompany c (fun k => { k with comparedAt := some t })
      | r :: _ =>
        let s := s.postDeviceFor c 9 (s.divergedBody c p.role r.1 diff.length r.2.1 r.2.2)
        if s.companyIdle c then s.abortCompanyJobs c else s.finishStop c false
  | _, _ => s

/-! ### Act end (R88, R91, R99 steps 1 and 2) -/

/-- R336: the CURTAIN body. -/
def curtainBody (s : State) (c : Nat) (scriptEnd : Bool) : Nat :=
  let k := s.company c
  pack [(k.act, 12), (0, 4), (k.cues, 6), (b2n k.actTaint, 1), (b2n scriptEnd, 1), (0, 8), (k.start, 32), (k.late, 64), (k.forced, 32),
    (k.slip, 32), (k.upCount, 64)]

/-- R437: CURTAIN_DELAY controls of a company take their occurrence; its step 3 waits, and the company is tainted if it does. -/
def delayCurtain (s : State) (c : Nat) : State :=
  let (s, n) := s.perturbed (fun p => p.kind == 3 && p.company == c)
  let t := s.now + n
  let s := s.updCompany c (fun k => { k with delayUntil := t })
  if n == 0 then s else s.setTaint c

/-- R91: the script has ended: the company is idle, and its ballast tapers. -/
def scriptEnd (s : State) (c : Nat) : State :=
  let k := s.company c
  let s := s.updCores (s.companyCores c) (fun _ k => { k with run := .idle })
  let s := s.startTaper c k.ballast true
  s.updCompany c (fun k => { k with
    mode := .idle
    at_ := .none
    landedNames := []
    landedContexts := [] })

/-- R295: this chip's first act of a launch ends with the partner's signatures at hand already: the launch counts differ. -/
def launchedLate (k : Company) : Bool := k.pair.isSome && k.partnerSigs.isSome && k.start == 0 && k.ended.isEmpty

/-- R99 step 2: every core has reported. The record is posted, the ballast takes over, and the curtain begins or the script ends. A company
told to halt or to stop comes to step 3 after the last act too (R300, R347). -/
def barrier (s : State) (c : Nat) : State :=
  let k := s.company c
  let t := s.now
  let done := k.ended ++ [k.act]
  let acts := match k.script with | some p => p.acts.length | none => 0
  let all := decide (done.length ≥ acts)
  let last := all && decide (k.start + 1 ≥ k.repeats)
  let empty := s.isEmptyAct c k.act
  let level := if empty then k.ballast else (s.ranFigures c).last
  let s := if Act.report (s.actDesc c k.act) || all then s.postCompany c 1 (s.curtainBody c last) else s
  let s := s.updCompany c (fun k => { k with
    at_ := .choice
    ended := if all then [] else done
    start := if all && !last then k.start + 1 else k.start
    ballast := level
    actEndAt := if empty then k.actEndAt else t
    ballastSince := if empty then k.ballastSince else t
    curtainAt := t
    heldPosted := false
    unadmittable := false
    cut := false
    refused := []
    refusedAt := none
    actTaint := false
    comparedAt := none })
  let s := match k.pair with
    | some p => (s.message c p.partner ([4, c] ++ (s.signatures c).map (fun (x : BitVec 64) => x.toNat))).updCompany c (fun k => { k with sigSent := true })
    | none => s
  let s := s.promptOthers c
  let s := if last && k.haltCmds.isEmpty && k.pairStop.isNone then s.scriptEnd c else s.delayCurtain c
  let s := if launchedLate k then s.setTaint c else s
  s.compareSignatures c

end State

/-- R88: the core runs to cycle scheduled_cycles, checks that its code and its operations have ended, and reports. -/
def execActEndCheck (core : Nat) (s : State) : Answer :=
  let n := s.scheduledCycles core
  let k := s.core core
  .next (if !s.coreRuns core || k.phase != 0 || (k.bundle < k.code.length && k.issueAt < n) then s
    else
      let s := s.advance core n
      let k := s.core core
      if k.run != .running || k.cycle != n then s
      else if k.cadence ≥ 2497 || k.bundle < k.code.length || !k.flights.isEmpty || k.completed ≥ n then s.overrun core
      else
        let s := s.updCore core (fun k => { k with run := .ended })
        match s.companyOf core with
        | none => s
        | some c =>
          if (s.company c).stopping || (s.scriptCores c).any (fun x => (s.core x).run != .ended) then s else s.barrier c)

namespace State

/-! ### Choice (R91, R99 steps 3 and 4, R108) -/

/-- R287: every job of the company has applied the scene change that ends the company's current step. -/
def sceneApplied (s : State) (c : Nat) : Bool :=
  let t := (s.company c).step.toNat
  s.jobs.all (fun p =>
    let j := p.2.record.toNat
    !JobRec.valid j || JobRec.company j != c || decide (JobRec.startStep j > t) ||
      (match p.2.applied with | some a => decide (a ≥ t) | none => false))

/-- R108: a hold is satisfied. -/
def holdOk (s : State) (c : Nat) (h : Nat × Nat) : Bool :=
  let k := s.company c
  match h.1 with
  | 1 => k.landedNames.contains h.2 && !s.carriages.any (fun d => d.company == some c && !d.out && d.holdName == h.2)
  | 2 => k.landedContexts.contains h.2
  | 3 => s.sceneApplied c
  | _ => true

/-- The first hold of an act that is not satisfied: entry, kind and name. -/
def waitingHold (s : State) (c a : Nat) : Option (Nat × Nat × Nat) :=
  let d := s.actDesc c a
  ((List.range 4).find? (fun i => !s.holdOk c (Act.hold d i))).map (fun i => (i, Act.hold d i))

/-- R91: the act that step 3 chooses. -/
def chooseAct (s : State) (c : Nat) : Option Nat :=
  (s.candidates c).find? (fun a => !(s.company c).refused.contains a && s.predsEnded c a && (s.waitingHold c a).isNone)

/-- R380, R381: a curtain waits before step 3. -/
def intervalHolds (s : State) : Bool :=
  s.power == .interval || (match s.transition with | some t => t.target == .interval | none => false)

/-- R20, R99 step 4: the pending cues are frozen. A fast-mode curtain that comes back from step 5 freezes what has come since as well. -/
def cutCues (s : State) (c : Nat) : State :=
  (s.updCores (s.scriptCores c) (fun _ k => k.cutCues)).updCompany c (fun k => { k with
    cut := true
    clock := k.clock.cut
    trap := k.trap.cut
    plan := k.plan.cut })

end State

/-- R91, R99 steps 3 and 4, R245, R300, R347: the next act is chosen and the cues are cut; a company told to stop stops here. -/
def execActChoice (company : Nat) (s : State) : Answer :=
  let k := s.company company
  .next (if k.at_ != .choice || !s.awake || k.stopping then s
    else if !k.haltCmds.isEmpty || k.pairStop.isSome then s.finishStop company
    else if s.intervalHolds || k.delayUntil > s.now || s.sceneFirst company then s
    else match s.chooseAct company with
      | none => s
      | some a =>
        let t := s.now
        (s.cutCues company).updCompany company (fun k => { k with at_ := .admission a, admissionAt := t }))

/-- R108, R335: a hold has waited for the watch interval. -/
def execCurtainHeld (company : Nat) (s : State) : Answer :=
  let k := s.company company
  .next (if k.at_ != .choice || k.watch = 0 || k.heldPosted || s.now < k.curtainAt + k.watch.toNat || (s.chooseAct company).isSome || s.sceneFirst company then s
    else match (s.candidates company).findSome? (fun a =>
        if s.predsEnded company a then (s.waitingHold company a).map (fun h => (a, h)) else none) with
      | none => s
      | some (a, i, kind, name) =>
        (s.updCompany company (fun k => { k with heldPosted := true })).postCompany company 2
          (pack [(a, 12), (i, 2), (0, 2), (kind, 4), (name, 12), (s.now - k.curtainAt, 64)]))

/-! ### Admission (R99 steps 5 to 7, R360 to R368) -/

namespace State

/-- R360, R376: the budget conditions against a running set; an act of no energy has no mean to hold against it. -/
def fitsBudget (s : State) (set : List RunEntry) (f : Figures) : Bool :=
  (f.mean == 0 || decide (2560 + (set.map (·.mean)).sum + f.mean ≤ 16 * s.sustained)) && decide (2560 + (set.map (·.peak)).sum + f.peak ≤ 16 * s.peak)

/-- R360: every condition of admission. -/
def admits (s : State) (c a : Nat) : Bool :=
  let f := s.figures c a
  let ds := (List.range 32).filter (fun d => (s.company c).districts.toNat.testBit d)
  let temp (d : Nat) := SMap.get 720 s.temps d
  s.isEmptyAct c a ||
  (s.fitsBudget (s.running.filter (fun e => e.company != c)) f && ds.all (fun d => decide (temp d < 1600)) &&
    (ds.all (fun d => decide (temp d < 1520)) || decide (f.mean ≤ 256 * ds.length)) && s.stretch == 0)

/-- R361, R365: the admitted act's figures enter the running set and its ramp begins, after a taper that still runs. -/
def grantAct (s : State) (c a : Nat) : State :=
  let k := s.company c
  let first := max s.now (k.taperEnd.getD 0)
  let empty := s.isEmptyAct c a
  let s := s.holdBallast c k.ballast s.now
  let goal := (s.figures c a).first
  let n := if empty then 0 else s.companyRamp c k.ballast goal
  let first := if empty then s.now else first
  let s := (s.enterRunning c (if empty then {} else s.figures c a)).addWaves c first n k.ballast goal false
  s.updCompany c (fun k => { k with at_ := .ramp a first (first + n), refused := [], refusedAt := none, taperFrees := false })

/-- R363: a refusal. An act that no running set could let pass is reported once for the curtain. -/
def refuse (s : State) (c a : Nat) : State :=
  let k := s.company c
  let t := s.now + 2500
  let report := !k.unadmittable && !s.fitsBudget [] (s.figures c a)
  let s := s.updCompany c (fun k => { k with
    refusedAt := some t
    refused := if k.reproducible then k.refused else k.refused ++ [a]
    at_ := if k.reproducible then k.at_ else .choice
    unadmittable := k.unadmittable || report })
  if report then s.postDeviceFor c 0x23 (s.powerBody 5 c a) else s

/-- R362: a curtain stands at step 5 and is to be evaluated. -/
def atAdmission (k : Company) : Bool :=
  (match k.at_ with | .admission _ => true | _ => false) && !k.stopping && !(k.reproducible && k.refusedAt.isSome)

/-- R362: it is this company's turn: of the curtains at step 5 it came first, or at one town count it has the lowest number. -/
def admissionTurn (s : State) (c : Nat) : Bool :=
  let rank (d : Nat) := 32 * (s.company d).admissionAt + d
  (List.range 32).all (fun d => d == c || !atAdmission (s.company d) || decide (rank c < rank d))

end State

/-- R99 steps 5 to 7, R360, R362: the candidate is checked against the budget. -/
def execAdmission (company : Nat) (s : State) : Answer :=
  let k := s.company company
  .next (match k.at_ with
    | .admission a =>
      if !s.awake || !State.atAdmission k || !s.admissionTurn company then s
      else if s.admits company a then s.grantAct company a
      else s.refuse company a
    | _ => s)

/-- R362: a refused curtain is evaluated again. -/
def execAdmissionReevaluation (company : Nat) (s : State) : Answer :=
  .next (match (s.company company).refusedAt with
    | some t =>
      let now := s.now
      if now ≥ t then s.updCompany company (fun k => { k with refusedAt := none, refused := [], admissionAt := now }) else s
    | none => s)

/-- R365, R368: the ballast has held its level 10 µs without step 7 of a non-empty act. -/
def execBallastHoldExpiry (company : Nat) (s : State) : Answer :=
  let k := s.company company
  let waits := match k.at_ with | .choice => true | .admission _ => true | .ramp a _ _ => s.isEmptyAct company a | .none => false
  .next (if !waits || k.ballast == 0 || k.taperEnd.isSome || s.now < k.actEndAt + 2500 then s
    else (s.holdBallast company k.ballast s.now).startTaper company k.ballast false)

/-- R361, R362: a taper reaches zero. -/
def execBallastTaperEnd (company : Nat) (s : State) : Answer :=
  let k := s.company company
  .next (match k.taperEnd with
    | none => s
    | some t =>
      if s.now < t then s
      else
        let s := s.updCompany company (fun k => { k with taperEnd := none, taperFrees := false })
        let s := if k.taperFrees then s.leaveRunning company else s
        s.promptOthers company)

/-! ### Curtain-up (R99 step 8, R100, R286, R352) -/

namespace State

/-- R374: the ramp has ended; a ramp under way pauses while the islands are stretched. -/
def rampOver (s : State) (start done : Nat) : Bool := s.stretch == 0 || start == done || decide (done ≤ s.stretchAt)

/-- R99, R100, R298, R347: the act to start, its due count and the count at which its curtain-up falls; none before that count. -/
def curtainDue (s : State) (c : Nat) : Option (Nat × Nat × Nat) :=
  let k := s.company c
  match k.at_ with
  | .ramp a start done =>
    let b := k.ramps.getD a (0, 0)
    let n :=
      if k.launching then k.launchAt
      else if k.reproducible then k.upCount + ceilDiv (k.upCycles * 250) 1024 + 375 + (if k.start == 0 then b.1 else b.2)
      else done
    let paired := k.pair.isSome && (!k.launching || k.sigSent)
    let at_ := max (max n done) (if k.pair.isSome then k.comparedAt.getD 0 else 0)
    if s.rampOver start done && s.now ≥ at_ && (!paired || k.comparedAt.isSome) then some (a, n, at_) else none
  | _ => none

/-- R85, R93, R138: bytes of a core's slice read unit by unit, and the first unit that fails. -/
def readBlock (s : State) (core unit bytes : Nat) : State × List Byte × Option Nat :=
  (List.range (ceilDiv bytes 64)).foldl (fun (p : State × List Byte × Option Nat) i =>
    match p.1.readUnit (.slice core) (64 * (unit + i)) (fun s => s.countCore core 0x13 1) with
    | (s, some b) => (s, p.2.1 ++ b, p.2.2)
    | (s, none) => (s, p.2.1 ++ List.replicate 64 0, match p.2.2 with | some u => some u | none => some (unit + i))) (s, [], none)

/-- A core's block of an act. -/
def blockOf (s : State) (c a core : Nat) : Option BlockRef :=
  match (s.company c).script with
  | some p => SMap.get none p.blocks (a * 2048 + core)
  | none => none

end State

/-- R81, R121, R153, R208, R297, R352: a core at running cycle 0 of an act, with its code block and its descriptors. Units that an earlier act
left in the buffers may be taken at once. -/
def Core.begin (k : Core) (a : Nat) (code descs : List (BitVec 256)) : Core :=
  { k with
    a := []
    l := []
    run := .running
    code := code
    descs := descs
    bundle := 0
    issued := 0
    phase := 0
    writes := []
    lwrites := []
    cycle := 0
    issueAt := 0
    loops := []
    nextBundle := 0
    cadence := 0
    frozenFor := 0
    lag := 0
    flights := []
    apronFree := 0
    dmaFree := 0
    sendFree := 0
    recvFree := 0
    rowFree := 0
    completed := 0
    apronElem := SMap.setMany 0 [] ((List.range 8).map (fun i => (i, Apron.indexBase (k.apronCfg i))))
    descElem := SMap.setMany 0 [] ((List.range descs.length).map (fun i => (i, Dma.indexBase (descs.getD i 0).toNat)))
    holds := []
    sig := mix (BitVec.ofNat 64 (a + 1))
    inbox := k.inbox.map (fun u => { u with due := 0 })
    freed := [] }

namespace State

/-- R85, R93: a core's block of an act read from its slice through the code port. -/
def loadBank (s : State) (c a core : Nat) : State × CodeBank :=
  let b := (s.blockOf c a core).getD ⟨0, 0, 0⟩
  let (s, bytes, failed) := s.readBlock core b.unit (32 * (b.bundles + b.descs))
  let words := (chunks 32 (b.bundles + b.descs) bytes).map (fun x => BitVec.ofNat 256 (ofBytes x))
  (s, ⟨a, words.take b.bundles, words.drop b.bundles, failed⟩)

/-- R93: the block of an act for its curtain-up: the idle bank's where it was prefetched, else read now (step 6 of R99). -/
def codeFor (s : State) (c a core : Nat) : State × CodeBank :=
  match (s.core core).idle with
  | some b => if b.act == a then (s, b) else s.loadBank c a core
  | none => s.loadBank c a core

/-- R16, R93: the block of the next act in script order copied into the idle bank; after the last act there is none. The copy falls at the
act's start: DESIGN CHOICE (assumption 48). -/
def prefetch (s : State) (c a core : Nat) : State :=
  let acts := match (s.company c).script with | some p => p.acts.length | none => 0
  if a + 1 < acts then
    let (s, b) := s.loadBank c (a + 1) core
    s.updCore core (fun k => { k with idle := some b })
  else s.updCore core (fun k => { k with idle := none })

/-- R88, R93, R138, R393: a core starts running cycle 0 of an act: its block stands in the script buffer, and the next act's is fetched. -/
def startCore (s : State) (c a : Nat) (core : Nat) : State :=
  let (s, b) := s.codeFor c a core
  let s := (s.updCore core (fun k => k.begin a b.code b.descs)).prefetch c a core
  match b.failed with
  | some u => s.coreFault core 0 4 u
  | none => match (s.sramErrors (fun e => e == .setting core 3)).1 with
    | some _ => s.coreFault core 1 5 3
    | none => s

/-- An act descriptor carries HOLD_BROADCAST (R286). -/
def broadcastAct (s : State) (c a : Nat) : Bool := (List.range 4).any (fun i => (Act.hold (s.actDesc c a) i).1 == 3)

/-- R99 step 8: the curtain goes up on an act. `due` is its count by R100 or the launch, `at_` the count at which it falls. -/
def raiseCurtain (s : State) (c a due at_ : Nat) : State :=
  let k := s.company c
  let empty := s.isEmptyAct c a
  let slip := if k.reproducible then at_ - due else 0
  let classes := s.frozenClasses c
  let s := s.curtainEnergy c at_
  let cores := s.scriptCores c
  let s := s.updCores cores (fun _ k => k.applyCues)
  let s := cores.foldl (fun s x => s.applyConfigs x) s
  let step := if s.broadcastAct c a then k.step + 1 else k.step
  let cycles := Act.scheduled (s.actDesc c a)
  let s := s.updCompany c (fun k => { k with
    mode := .running
    at_ := .none
    cut := false
    clock := k.clock.apply
    trap := k.trap.apply
    plan := k.plan.apply
    act := a
    curtain := k.curtain + 1
    step := step
    launching := false
    launchCmd := none
    upCount := at_
    upCycles := cycles
    ballast := if empty then k.ballast else 0
    landedNames := []
    landedContexts := []
    late := 0
    forced := 0
    slip := slip
    taint := k.taint || decide (slip > 0)
    actTaint := k.actTaint || decide (slip > 0)
    cues := classes
    comparedAt := none })
  let s := s.completeWaiting k.launchCmd c St.ok
  if empty then (s.updCores (s.scriptCores c) (fun _ k => { k.begin a [] [] with run := .ended })).barrier c
  else (s.scriptCores c).foldl (fun s x => s.startCore c a x) s

end State

/-- R99 step 8: the next act starts. -/
def execCurtainUp (company : Nat) (s : State) : Answer :=
  .next (if !s.awake || (s.company company).stopping then s
    else match s.curtainDue company with
      | none => s
      | some (a, n, t) => s.raiseCurtain company a n t)

/-! ### Stops and partners (R298 to R300, R399) -/

/-- R399: every core has stopped, and the company is cleaned up. -/
def execCompanyHalted (company : Nat) (s : State) : Answer :=
  .next (if (s.company company).stopping && s.allStopped company then s.finishStop company else s)

/-- R298: the partner's signatures arrive. -/
def execSignatureExchange (company : Nat) (sigs : List (BitVec 64)) (s : State) : Answer :=
  .next (if (s.company company).pair.isNone then s
    else (s.updCompany company (fun k => { k with partnerSigs := some sigs })).compareSignatures company)

/-- R300: the pair of a company ends by the partner's stop (0x0A) or the link's loss (0x0B): the company stops at its next curtain; one
that runs nothing reports at once. -/
def State.losePair (s : State) (c code : Nat) : State :=
  match (s.company c).pair with
  | none => s
  | some p =>
    let s := s.endPair c false
    if s.companyIdle c then s.postPairStop c (some (code, p.link))
    else s.updCompany c (fun k => { k with pairStop := some (code, p.link) })

/-- R300: the partner's stop notice arrives. -/
def execUnderstudyPartnerStopped (company : Nat) (s : State) : Answer := .next (s.losePair company 0x0A)

end Sys2Proof.Machine
end

