-- ==== Sys2Proof/Machine/Companies.lean ====
section
/-! DEFINITION. The company commands, launch and halt, and understudy pairs (R284, R295, R342, R347, R353, R368, R386 to R388, R415). -/
namespace Sys2Proof.Machine

/-! ### Measurement chains (R415) -/

/-- R415: an entry of a measurement chain. -/
def chainEntry (opcode company : Nat) (known : Bool) (districts cores index : Nat) (hash : List Byte) : List Byte :=
  toBytes 24 (pack [(opcode, 16), (company, 8), (b2n known, 8), (districts, 32), (cores, 64), (index, 16)]) ++ padTo 104 0 hash

/-- A chain after one more entry. -/
def chainNext (chain : BitVec 384) (entry : List Byte) : BitVec 384 := hashField (sha384 (toBytes 48 chain.toNat ++ entry))

namespace State

/-- An entry measured into a company's chain. -/
def measureCompany (s : State) (c : Nat) (entry : List Byte) : State :=
  s.updCompany c (fun k => { k with chain := chainNext k.chain entry, chainCount := (k.chainCount + 1) % 2 ^ 32 })

/-- An entry measured into the device chain. -/
def measureDevice (s : State) (entry : List Byte) : State :=
  { s with chain := chainNext s.chain entry, chainCount := (s.chainCount + 1) % 2 ^ 32 }

/-- R415: flag bit 0: content equals an item of a kind of an installed extension; `kinds` are the item kinds compared. -/
def knownItem (s : State) (kinds : List Nat) (content : List Byte) : Bool :=
  (List.range 16).any (fun p => match SMap.get none s.extensions p with
    | some e => e.items.any (fun i => kinds.contains i.1 && i.2.2 == content)
    | none => false)

/-! ### Returning cores and companies to their defaults (R387) -/

/-- A core at its Reset values; its slice's refresh and scrub go on. -/
def freshCore (k : Core) : Core := { refreshPart := k.refreshPart, lastRefresh := k.lastRefresh, scrubNext := k.scrubNext }

/-- R387: the on-chip stores of the chosen cores that a reset writes anew; the table banks and micro-programs (parts 0 to 4) only where `tables`
says so. -/
def coreStore (mine : Nat → Bool) (tables : Bool) : SramPlace → Bool
  | .quire c _ _ => mine c
  | .rowStore c part _ => mine c && (tables || decide (part > 4))
  | .setting c _ => mine c
  | .scriptBuffer c _ => mine c && tables
  | .descriptor c _ => mine c && tables
  | .street c _ => mine c
  | _ => false

/-- R387: stage stores of the chosen cores zero, their on-chip stores written anew and so without errors. -/
def clearStores (s : State) (mine : Nat → Bool) (tables : Bool := true) : State :=
  let keep (a : Nat) : Bool := decide (a < 2 ^ 52) || !mine ((a - 2 ^ 52) / 2 ^ 16)
  { s with mem := s.mem.filter (fun p => keep p.1), upsets := s.upsets.filter (fun p => keep p.1) }.sramRenew (coreStore mine tables)

/-- Some cores changed at once. -/
def mapCores (s : State) (mine : Nat → Bool) (f : Core → Core) : State :=
  (s.cores.filter (fun p => mine p.1)).foldl (fun s p => s.setCore p.1 (f p.2)) s

/-- District counters of the chosen districts at their Reset values. -/
def clearDistricts (s : State) (mine : Nat → Bool) : State :=
  { s with districtCounters := s.districtCounters.filter (fun p => !mine (p.1 / 8 * 64)) }

/-- R387, RESET_COMPANY: stage stores, quires, row-unit registers, cue classes, counters and calibration sets of a core return to their
defaults; table banks and micro-programs stay. -/
def resetCore (k : Core) : Core :=
  { freshCore k with tables := k.tables, tablesShadow := k.tablesShadow, micro := k.micro, microQueue := k.microQueue, code := k.code,
                     descs := k.descs }

end State

/-! ### FORM_COMPANY and DISBAND_COMPANY (R342) -/

/-- R342: the district on the other side of an avenue: N, E, S, W. -/
def avenueTo (d k : Nat) : Option Nat :=
  match k with
  | 0 => if d < 8 then none else some (d - 8)
  | 1 => if d % 8 == 7 then none else some (d + 1)
  | 2 => if d ≥ 24 then none else some (d + 8)
  | _ => if d % 8 == 0 then none else some (d - 1)

/-- R342: every claimed avenue joins two districts of the mask. -/
def avenuesOk (mask avenues : Nat) : Bool :=
  (List.range 128).all (fun i => !avenues.testBit i || (mask.testBit (i / 4) &&
    (match avenueTo (i / 4) (i % 4) with | some e => mask.testBit e | none => false)))

namespace State

/-- R342, R387: a company formed at its defaults, its ring open. -/
def formCompany (s : State) (c mask avenues : Nat) : State :=
  let mine (k : Nat) : Bool := mask.testBit (k / 64)
  let old := s.company c
  let s := ((s.clearStores mine).mapCores mine freshCore).clearDistricts mine
  let s := s.setCompany c
    { mode := .idle, districts := BitVec.ofNat 32 mask, avenues := BitVec.ofNat 128 avenues, taperEnd := old.taperEnd,
      taperFrees := old.taperFrees, waves := old.waves, ballastEnergy := old.ballastEnergy }
  s.setRing (1 + c) { state := .opened }

/-- R342, R300: an idle company disbanded. -/
def disbandCompany (s : State) (c : Nat) : State :=
  let s := s.endPair c true
  let s := s.updCompany c (fun k => { k with mode := .unformed, districts := 0, avenues := 0 })
  s.updRing (1 + c) (fun k => { k with state := .unformed })

/-- R247: some valid job record names the company. -/
def jobNames (s : State) (c : Nat) : Bool :=
  s.jobs.any (fun p => JobRec.valid p.2.record.toNat && JobRec.company p.2.record.toNat == c)

end State

def formCompanySheet : Sheet :=
  { opcode := 0x10, deviceOnly := true, used := [(0, 4), (16, 16)]
    size := fun w => need (Cmd.field w 0 4 != 0) St.badSize (bodyAt 0)
    pre := fun s _ w =>
      let mask := Cmd.field w 0 4
      firstFail [
        need (s.power != .dim) St.wrongState noField,
        need (!s.formed (Cmd.company w)) St.wrongState noField,
        need ((List.range 32).all (fun d => !mask.testBit d || (s.districtCompany d).isNone)) St.denied (bodyAt 0),
        need (avenuesOk mask (Cmd.field w 16 16)) St.denied (bodyAt 16)]
    run := fun s _ w => .done (s.formCompany (Cmd.company w) (Cmd.field w 0 4) (Cmd.field w 16 16)) 0 }

/-- R342, R387. -/
def execFormCompany (ring : Nat) (s : State) : Answer := .next (s.serve ring formCompanySheet)

def disbandCompanySheet : Sheet :=
  { opcode := 0x11, deviceOnly := true
    pre := fun s _ w => firstFail [
      need (s.companyIdle (Cmd.company w)) St.busy noField,
      need (!s.jobNames (Cmd.company w)) St.wrongState noField]
    run := fun s _ w => .done (s.disbandCompany (Cmd.company w)) 0 }

/-- R300, R342. -/
def execDisbandCompany (ring : Nat) (s : State) : Answer := .next (s.serve ring disbandCompanySheet)

/-! ### RESET_COMPANY (R342, R387, R388) -/

/-- R387, R388: a stopped company's state returned as the retention table gives. -/
def State.resetCompany (s : State) (c : Nat) : State :=
  let s := if s.companyIdle c then s.endPair c true else s.finishStop c
  let mask := (s.company c).districts.toNat
  let mine (k : Nat) : Bool := mask.testBit (k / 64)
  let s := ((s.clearStores mine false).mapCores mine State.resetCore).clearDistricts mine
  let d : Company := {}
  s.updCompany c (fun k => { k with
    mode := .idle
    clock := d.clock
    trap := d.trap
    plan := d.plan
    curtain := 0
    taint := false
    landedNames := []
    landedContexts := [] })

def resetCompanySheet : Sheet :=
  { opcode := 0x12
    pre := fun s _ w => need (s.formed (Cmd.company w)) St.wrongState noField
    run := fun s _ w => .done (s.resetCompany (Cmd.company w)) 0 }

/-- R342, R353, R387. -/
def execResetCompany (ring : Nat) (s : State) : Answer :=
  .next (s.serve ring resetCompanySheet (fun w => s.betweenBundles (Cmd.company w)))

/-! ### SET_MODE (R283, R284) -/

def setModeSheet : Sheet :=
  { opcode := 0x13, used := [(0, 1), (8, 8), (16, 8)]
    coded := fun w => firstFail [
      need (Cmd.field w 0 1 ≤ 1) St.reservedSet (bodyAt 0),
      need (Cmd.field w 14 2 == 0) St.reservedSet (bodyAt 14)]
    pre := fun s _ w =>
      let c := Cmd.company w
      let changes := (Cmd.field w 0 1 == 1) != (s.company c).reproducible
      firstFail [
        need (s.companyIdle c) St.busy noField,
        need (!changes || !s.jobNames c) St.wrongState noField,
        need (!changes || (s.company c).pair.isNone) St.wrongState noField]
    run := fun s _ w =>
      let c := Cmd.company w
      let s := s.updCompany c (fun k => { k with
        reproducible := Cmd.field w 0 1 == 1, step := BitVec.ofNat 48 (Cmd.field w 8 6), seed := BitVec.ofNat 64 (Cmd.field w 16 8) })
      .done (s.measureCompany c (chainEntry 0x13 c false 0 0 0 (sha384 (toBytes 24 (Cmd.field w 0 24))))) 0 }

/-- R283, R284, R415. -/
def execSetMode (ring : Nat) (s : State) : Answer := .next (s.serve ring setModeSheet)

/-! ### CURTAIN_UP_AT (R347, R368, R388) -/

namespace State

/-- R368: the ballast ticks of each act of one start, from the level before it; the level after them. -/
def rampPlan (s : State) (c : Nat) : Nat → List Nat → Nat × List Nat
  | level, [] => (level, [])
  | level, a :: t =>
    if s.isEmptyAct c a then
      let (e, bs) := s.rampPlan c level t
      (e, 0 :: bs)
    else
      let f := s.figures c a
      let (e, bs) := s.rampPlan c f.last t
      (e, s.companyRamp c level f.first :: bs)

/-- R347: a company launched; its launch curtain loads the code of act 0 (R93). -/
def launch (s : State) (c ring : Nat) (tag : Word) (count repeats : Nat) : State :=
  let n := match (s.company c).script with | some p => p.acts.length | none => 0
  let acts := List.range n
  let (level, one) := s.rampPlan c 0 acts
  let (_, more) := s.rampPlan c level acts
  let t := s.now
  let s := s.updCores (s.companyCores c) (fun _ k => { k with idle := none })
  let s := s.updCompany c (fun k => { k with
    mode := .launched
    taint := false
    actTaint := false
    at_ := .choice
    cut := false
    ended := []
    refused := []
    refusedAt := none
    start := 0
    repeats := repeats
    launchAt := count
    launching := true
    launchCmd := some ⟨ring, 0x40, tag⟩
    ramps := if k.reproducible then one.zip more else []
    curtainAt := t
    heldPosted := false
    unadmittable := false
    comparedAt := none })
  s.delayCurtain c

end State

def curtainUpAtSheet : Sheet :=
  { opcode := 0x40, used := [(0, 8), (8, 4)]
    pre := fun s _ w =>
      let c := Cmd.company w
      firstFail [
        need (s.power != .dim) St.wrongState noField,
        need (!s.scope.toNat.testBit 2) St.wrongState noField,
        need (s.companyIdle c) St.busy noField,
        need (s.company c).script.isSome St.wrongState noField,
        need (!(s.company c).reproducible || s.town.synced) St.wrongState noField,
        need (Cmd.field w 0 8 ≥ s.now + 1000) St.wrongState (bodyAt 0)]
    run := fun s ring w =>
      if Cmd.field w 8 4 == 0 then .done s 0
      else .accepted (s.launch (Cmd.company w) ring (BitVec.ofNat 32 (Cmd.tag w)) (Cmd.field w 0 8) (Cmd.field w 8 4)) }

/-- R347. -/
def execCurtainUpAt (ring : Nat) (s : State) : Answer := .next (s.serve ring curtainUpAtSheet)

/-! ### HALT_COMPANY (R347) -/

def haltSheet (run : State → Nat → Nat → Verdict) : Sheet :=
  { opcode := 0x41, used := [(0, 1)]
    coded := fun w => need (Cmd.field w 0 1 ≤ 1) St.reservedSet (bodyAt 0)
    pre := fun s _ w => need (s.formed (Cmd.company w)) St.wrongState noField
    run := run }

/-- R347: HALT_COMPANY IMMEDIATE. -/
def haltNow (s : State) (_ w : Nat) : Verdict :=
  if s.companyIdle (Cmd.company w) then .done s 0 else .done (s.finishStop (Cmd.company w)) 0

/-- R347: HALT_COMPANY AT_CURTAIN: it waits for step 3, or stops a curtain that has passed step 3 at once. -/
def haltAtCurtain (s : State) (ring w : Nat) : Verdict :=
  let c := Cmd.company w
  let k := s.company c
  let past := match k.at_ with | .admission _ => true | .ramp _ _ _ => true | _ => false
  if s.companyIdle c then .done s 0
  else if !k.stopping && (k.mode == .launched || past) then .done (s.finishStop c) 0
  else .accepted (s.updCompany c (fun k => { k with haltCmds := k.haltCmds ++ [⟨ring, 0x41, BitVec.ofNat 32 (Cmd.tag w)⟩] }))

/-- R347, R396. -/
def execImmediate (ring : Nat) (s : State) : Answer :=
  .next (s.serve ring (haltSheet haltNow) (fun w => Cmd.field w 0 1 != 1 && s.betweenBundles (Cmd.company w)))

/-- R347. -/
def execAtCurtain (ring : Nat) (s : State) : Answer := .next (s.serve ring (haltSheet haltAtCurtain) (fun w => Cmd.field w 0 1 == 1))

/-! ### UNDERSTUDY_PAIR (R295, R342) -/

/-- Hashes of the installed extensions, by position. -/
def State.extHashes (s : State) : List (BitVec 384) :=
  (List.range 16).filterMap (fun p => (SMap.get none s.extensions p).map (·.hash))

/-- A chip pairs over one link. -/
def State.pairFree (s : State) (link : Nat) : Bool :=
  (List.range 32).all (fun c => match (s.company c).pair with | some p => p.link == link | none => true)

def understudyPairSheet : Sheet :=
  { opcode := 0x14, deviceOnly := true, used := [(0, 1), (1, 1), (2, 2)]
    coded := fun w => need (Cmd.field w 0 1 ≤ 1) St.reservedSet (bodyAt 0)
    pre := fun s _ w =>
      let c := Cmd.company w
      let l := Cmd.field w 1 1
      firstFail [
        need (s.company c).reproducible St.wrongState noField,
        need (s.companyIdle c) St.busy noField,
        need (decide (l < 16) && s.linkLive l) St.denied (bodyAt 1),
        need (match (s.link l).neighbour with | some n => n.1 == Cmd.field w 2 2 | none => false) St.denied (bodyAt 2),
        need (s.pairFree l) St.noResource (bodyAt 1)]
    run := fun s ring w =>
      let c := Cmd.company w
      let p : Pair := ⟨Cmd.field w 0 1, Cmd.field w 1 1, Cmd.field w 2 2⟩
      let t := s.now
      let s := s.updCompany c (fun k => { k with pairWait := some ⟨p, ring, BitVec.ofNat 32 (Cmd.tag w), t⟩ })
      let script := match (s.company c).script with | some x => x.hash.toNat | none => 0
      .ended (s.message c p.partner
        ([6, c, p.role, p.link, s.part.rom.toNat, script, (s.company c).districts.toNat] ++ s.extHashes.map (·.toNat))) }

/-- R295: the command waits on its ring for the partner's. -/
def execUnderstudyPair (ring : Nat) (s : State) : Answer :=
  .next (s.serve ring understudyPairSheet (fun w => (s.company (Cmd.company w)).pairWait.isNone))

/-- A waiting pair command completes. -/
def State.endPairWait (s : State) (c : Nat) (w : PairWait) (status : Nat) : State :=
  (s.updCompany c (fun k => { k with pairWait := none })).complete w.ring false 0x14 (some c) w.tag.toNat status noField 0

/-- R342: no matching command arrived within 1 s. -/
def execUnderstudyPairTimeout (company : Nat) (s : State) : Answer :=
  .next (match (s.company company).pairWait with
    | none => s
    | some w => if s.now ≥ w.since + 250000000 then s.endPairWait company w St.denied else s)

/-- R295: the partner's matching information arrives, and the pair forms or is refused. -/
def execUnderstudyPairExchange (company role link rom : Nat) (extHashes : List (BitVec 384)) (scriptHash : BitVec 384) (districts : Word)
    (idle up free : Bool) (s : State) : Answer :=
  let k := s.company company
  let hash : BitVec 384 := match k.script with | some p => p.hash | none => 0
  .next (match k.pairWait with
    | none => s
    | some w =>
      let named := (s.link w.pair.link).neighbour == some (w.pair.partner, link)
      match firstFail [
          need (up && s.linkLive w.pair.link && named) St.denied noField,
          need k.reproducible St.wrongState noField,
          need (idle && s.companyIdle company) St.busy noField,
          need (rom == s.part.rom.toNat && extHashes == s.extHashes && scriptHash == hash && districts == k.districts) St.denied noField,
          need (free && s.pairFree w.pair.link) St.noResource noField,
          need (role + w.pair.role == 1) St.denied noField] with
      | some (st, _) => s.endPairWait company w st
      | none => (s.updCompany company (fun k => { k with pair := some w.pair })).endPairWait company w St.ok)

end Sys2Proof.Machine
end

