-- ==== Sys2Proof/Machine/CarriageCmds.lean ====
section
/-! DEFINITION. CARRIAGE_IN and CARRIAGE_OUT: their checks and acceptance (R148, R149, R167, R168, R345, R382, R433, R437). -/
namespace Sys2Proof.Machine

namespace Wagon
/-! The body of a carriage command. -/
def kind (w : Nat) : Nat := Cmd.field w 0 1
def srcType (w : Nat) : Nat := Cmd.field w 1 1
def dstType (w : Nat) : Nat := Cmd.field w 2 1
def rounding (w : Nat) : Nat := Cmd.field w 3 1
def channel (w : Nat) : Nat := Cmd.field w 4 1
def core (w : Nat) : Nat := Cmd.field w 8 1 * 64 + Cmd.field w 9 1 * 8 + Cmd.field w 10 1
def source (w : Nat) : Nat := Cmd.field w 16 4
def length (w : Nat) : Nat := Cmd.field w 20 4
def dest (w : Nat) : Nat := Cmd.field w 24 4
def destChip (w : Nat) : Nat := Cmd.field w 28 2
/-- The Exchange bank names no core. -/
def bank (w : Nat) : Bool := kind w == 2
/-- Bytes of the destination (R149). -/
def destBytes (w : Nat) : Nat := length w / typeBytes (srcType w) * typeBytes (dstType w)
end Wagon

/-- R149, R235, R345: reserved kinds, codes, chip ids and fields of a carriage. -/
def carriageCoded (out : Bool) (w : Nat) : Check :=
  let src := Wagon.srcType w
  let dst := Wagon.dstType w
  let view := out && Wagon.kind w == 1
  let zero (off n : Nat) : Check := need (!Wagon.bank w || Cmd.field w off n == 0) St.reservedSet (bodyAt off)
  let empty (off n : Nat) (at_ : Nat := off) : Check := need (Cmd.field w off n == 0) St.reservedSet (bodyAt at_)
  firstFail [
    need (Wagon.kind w ≤ 2) St.reservedSet (bodyAt 0),
    need (Wagon.rounding w > 1 || typesLegal src dst (Wagon.rounding w)) St.reservedSet (bodyAt 1),
    need (!view || src == 0) St.reservedSet (bodyAt 1),
    need (!view || dst == 0) St.reservedSet (bodyAt 2),
    need (Wagon.rounding w ≤ 1) St.reservedSet (bodyAt 3),
    zero 4 1,
    empty 5 1,
    need (if out then Cmd.field w 6 2 == 0 else bitsOf w (256 + 8 * 6 + 12) 4 == 0) St.reservedSet (bodyAt 6),
    zero 8 1,
    zero 9 1,
    zero 10 1,
    empty 11 1,
    empty 15 1 12,
    (if out then need (Wagon.destChip w == 0xFFFF || (!view && Wagon.destChip w < 0x8000)) St.reservedSet (bodyAt 28) else empty 28 2),
    empty 30 1,
    empty 31 1,
    empty 37 3 32]

namespace State

/-- R345: the named core belongs to the company. -/
def carriageCore (s : State) (w : Nat) : Bool :=
  Wagon.bank w || (decide (Cmd.field w 8 1 < 32) && decide (Cmd.field w 9 1 < s.gridRows) && decide (Cmd.field w 10 1 < 8) &&
    (s.company (Cmd.company w)).districts.toNat.testBit (Cmd.field w 8 1))

/-- R233, R345: the company has carriage credits on some link. -/
def carriageCredits (s : State) (c : Nat) : Bool := (List.range 16).any (fun l => SMap.get 0 (s.link l).alloc (2 * 32 + c) != 0)

/-- R157, R166, R167: `n` bytes at a unit, word or byte address lie inside their target. -/
def carriageRange (kind at_ n : Nat) : Bool :=
  match kind with
  | 0 => decide (at_ + ceilDiv n 64 ≤ 786432)
  | 1 => decide (at_ + ceilDiv n 4 ≤ 16384)
  | _ => decide (at_ + ceilDiv n 64 ≤ 2 ^ 27)

/-- The checks of R345 and R433 on the state and the body. -/
def checkCarriage (s : State) (out : Bool) (ring w : Nat) : Check :=
  let c := Cmd.company w
  let view := out && Wagon.kind w == 1
  let foyer (at_ n : Nat) : Bool := at_ % 64 == 0 && decide (at_ + n ≤ 2 ^ 26)
  firstFail [
    need (!view || s.scope.toNat.testBit 0) St.denied noField,
    need (!view || (s.companyIdle c && s.power != .dim)) St.wrongState noField,
    need (s.carriageCore w) St.denied (bodyAt 8),
    need (!Wagon.bank w || (ring == 0 && c == 0)) St.denied (bodyAt 0),
    need (Wagon.channel w ≤ 7) St.denied (bodyAt 4),
    need (!view || Wagon.source w ≤ 0x4063) St.denied (bodyAt 16),
    need (!view || Wagon.length w % 4 == 0) St.denied (bodyAt 20),
    need (!view || Wagon.source w + Wagon.length w / 4 ≤ 0x4064) St.denied (bodyAt 20),
    need (Wagon.length w % typeBytes (Wagon.srcType w) == 0) St.denied (bodyAt 20),
    need (view || (if out then carriageRange (Wagon.kind w) (Wagon.source w) (Wagon.length w) else foyer (Wagon.source w) (Wagon.length w)))
      St.denied (bodyAt 16),
    need (if out then foyer (Wagon.dest w) (Wagon.destBytes w) else carriageRange (Wagon.kind w) (Wagon.dest w) (Wagon.destBytes w))
      St.denied (bodyAt 24),
    need (!out || Wagon.destChip w == 0xFFFF || s.carriageCredits c) St.denied (bodyAt 28)]

/-- R167, R345, R437: the carriage accepted. -/
def acceptCarriage (s : State) (out : Bool) (ring w : Nat) : State :=
  let c := Cmd.company w
  let (s, late) := if out || Wagon.bank w then (s, 0)
    else s.perturbed (fun p => p.kind == 4 && p.core == Wagon.core w && p.channel == Wagon.channel w)
  let k : Carriage :=
    { id := s.nextCarriage
      ring := ring
      opcode := if out then 0x31 else 0x30
      tag := BitVec.ofNat 32 (Cmd.tag w)
      out := out
      kind := Wagon.kind w
      srcType := Wagon.srcType w
      dstType := Wagon.dstType w
      rounding := Wagon.rounding w
      channel := Wagon.channel w
      holdName := if out then 0 else bitsOf w (256 + 8 * 6) 12
      core := Wagon.core w
      company := if Wagon.bank w then none else some c
      tensor := Cmd.field w 12 3
      source := Wagon.source w
      length := Wagon.length w
      dest := Wagon.dest w
      destChip := if out && Wagon.destChip w != s.chipId then Wagon.destChip w else 0xFFFF
      index := Cmd.field w 32 5
      moved := 0
      firstFail := none
      fails := 0
      notBefore := if late == 0 then 0 else s.now + late
      remote := false }
  { s with carriages := s.carriages ++ [k], nextCarriage := s.nextCarriage + 1 }

end State

def carriageSheet (out : Bool) : Sheet :=
  { opcode := if out then 0x31 else 0x30
    used := [(0, 40)]
    coded := carriageCoded out
    pre := fun s ring w => s.checkCarriage out ring w
    run := fun s ring w => .accepted (s.acceptCarriage out ring w) }

/-- R345. -/
def execCarriageIn (ring : Nat) (s : State) : Answer := .next (s.serve ring (carriageSheet false))

/-- R345, R433. -/
def execCarriageOut (ring : Nat) (s : State) : Answer := .next (s.serve ring (carriageSheet true))

end Sys2Proof.Machine
end

