-- ==== Sys2Proof/Machine/Fec.lean ====
section
/-! DEFINITION. The forward error correction of a link (R222): RS(544,514) codewords of 10-bit symbols over GF(2^10), as in IEEE 802.3 clause 91,
and their distribution over the lanes. The field polynomial, the generator and the symbol order are those of that clause: PRESUMED, log entry 88. -/
namespace Sys2Proof.Machine

/-- Symbols of a codeword, of its data, and its parity symbols. -/
def fecSymbols : Nat := 544
def fecData : Nat := 514
def fecParity : Nat := 30
/-- Bits of the frame stream in one codeword. -/
def fecDataBits : Nat := 10 * fecData

/-- One doubling in GF(2^10), with the polynomial x^10 + x^3 + 1. -/
def gfDouble (a : BitVec 10) : BitVec 10 := if a.getLsbD 9 then (a <<< 1) ^^^ 9 else a <<< 1

/-- A product in GF(2^10). -/
def gfMul (a b : BitVec 10) : BitVec 10 :=
  ((List.range 10).reverse).foldl (fun p i => if b.getLsbD i then gfDouble p ^^^ a else gfDouble p) 0

/-- A power of the field's generator. -/
def gfPow : Nat → BitVec 10
  | 0 => 1
  | n + 1 => gfDouble (gfPow n)

/-- A polynomial, its highest coefficient first, times x + r. -/
def polyRoot (p : List (BitVec 10)) (r : BitVec 10) : List (BitVec 10) :=
  ((p ++ [0]).zip (0 :: p)).map (fun (q : BitVec 10 × BitVec 10) => q.1 ^^^ gfMul r q.2)

/-- The generator polynomial: its roots are the powers 0 to 29. -/
def fecGenerator : List (BitVec 10) := (List.range fecParity).foldl (fun p i => polyRoot p (gfPow i)) [1]

/-- One data symbol enters the remainder register. -/
def fecShift (gen : List (BitVec 10)) (r : List (BitVec 10)) (d : BitVec 10) : List (BitVec 10) :=
  let q := d ^^^ r.headD 0
  ((r.drop 1 ++ [0]).zip (gen.drop 1)).map (fun (p : BitVec 10 × BitVec 10) => p.1 ^^^ gfMul q p.2)

/-- R222: the codeword of 514 data symbols: the data, then the remainder. -/
def fecEncode (data : List (BitVec 10)) : List (BitVec 10) := data ++ data.foldl (fecShift fecGenerator) (List.replicate fecParity 0)

/-- A polynomial's value: each value of a codeword at the generator's roots is zero. -/
def polyValue (p : List (BitVec 10)) (x : BitVec 10) : BitVec 10 := p.foldl (fun v c => gfMul v x ^^^ c) 0

/-- A word is a codeword. -/
def fecClean (w : List (BitVec 10)) : Bool := (List.range fecParity).all (fun i => polyValue w (gfPow i) == 0)

/-- Symbols in which two words differ. -/
def fecErrors (a b : List (BitVec 10)) : Nat := (a.zip b).countP (fun p => p.1 != p.2)

/-- R222: the decoder corrects up to 15 symbol errors in a codeword. -/
def fecCorrects (errors : Nat) : Bool := decide (errors ≤ 15)

/-- R222: the symbols of the frame stream of a link, from its frames in order: frame word, then body, from the lowest bit on. -/
def streamSymbols (frames : List (BitVec 128 × List Byte)) : List (BitVec 10) :=
  let bits := frames.flatMap (fun f => (toBytes 16 f.1.toNat ++ f.2).flatMap (fun b => (List.range 8).map b.getLsbD))
  (chunks 10 (bits.length / 10) bits).map (fun c => BitVec.ofNat 10 (c.foldr (fun b n => 2 * n + b2n b) 0))

/-- R222: the codewords that a link sends for its frames. -/
def sentCodewords (frames : List (BitVec 128 × List Byte)) : List (List (BitVec 10)) :=
  let y := streamSymbols frames
  (chunks fecData (y.length / fecData) y).map fecEncode

/-- R222: the symbols of codewords on one of the eight active lanes, round-robin. -/
def laneSymbols (lane : Nat) (words : List (List (BitVec 10))) : List (BitVec 10) :=
  let y := words.flatten
  ((List.range y.length).zip y).filterMap (fun p => if p.1 % 8 == lane then some p.2 else none)

end Sys2Proof.Machine
end

