-- ==== Sys2Proof/Machine/Links.lean ====
section
/-! DEFINITION. Xasyn links: frames, replay, link control, lanes, loss and training, town time, routing and credits
(R220 to R242, R300, R434 to R438). -/
namespace Sys2Proof.Machine

/-! ### Frame words (R223) -/

namespace Fw
def kind (f : Nat) : Nat := bitsOf f 32 2
def seq (f : Nat) : Nat := bitsOf f 34 12
def ack (f : Nat) : Nat := bitsOf f 46 12
def nak (f : Nat) : Bool := f.testBit 58
def creditVc (f : Nat) : Nat := bitsOf f 59 2
def creditClass (f : Nat) : Nat := bitsOf f 61 1
def creditCompany (f : Nat) : Nat := bitsOf f 62 5
def creditCount (f : Nat) : Nat := bitsOf f 67 7
/-- R223: the CRC over bits [127:32] and the body, and the reserved bits. -/
def good (f : Nat) (body : List Byte) : Bool :=
  bitsOf f 0 32 == (crc32 (toBytes 12 (bitsOf f 32 96) ++ body)).toNat && bitsOf f 74 54 == 0
end Fw

/-! ### LINK_CONTROL bodies (R225) -/

namespace Lc
def code (b : Nat) : Nat := bitsOf b 0 8
def lane (b : Nat) : Nat := bitsOf b 8 4
def synced (b : Nat) : Bool := b.testBit 12
def probe (b : Nat) : Nat := bitsOf b 32 32
def count (b : Nat) : Nat := bitsOf b 64 64
def fine (b : Nat) : Nat := bitsOf b 128 10
def turnaround (b : Nat) : Nat := bitsOf b 144 32
def chip (b : Nat) : Nat := bitsOf b 176 16
def link (b : Nat) : Nat := bitsOf b 192 4
/-- A body from its fields. -/
def make (code lane : Nat) (synced : Bool) (probe count fine turnaround chip link : Nat) : List Byte :=
  toBytes 32 (pack [(code, 8), (lane, 4), (b2n synced, 1), (0, 19), (probe, 32), (count, 64), (fine, 10), (0, 6), (turnaround, 32),
    (chip, 16), (link, 4)])
/-- R225: no reserved bit is set. -/
def clean (b : Nat) : Bool := bitsOf b 13 19 == 0 && bitsOf b 138 6 == 0 && bitsOf b 196 60 == 0
end Lc

namespace State

/-! ### Town time (R240 to R242) -/

/-- R242: the synchronised state is left, and reproducible companies are tainted. -/
def loseSync (s : State) (cause : Nat) : State :=
  if !s.town.synced then s
  else
    let s := { s with town := { s.town with synced := false, agreed := 0, onReference := cause == 1 || s.town.onReference } }
    let s := (List.range 32).foldl (fun s c => if s.formed c && (s.company c).reproducible then s.setTaint c else s) s
    s.postDevice 0x16 cause

/-- R241: the chip is synchronised. -/
def gainSync (s : State) : State :=
  { s with town := { s.town with synced := true, agreed := 3 } }.postDevice 0x15 0

/-! ### Loss, reset and training (R221, R238, R300, R384) -/

/-- R233: buffer units of a link's input, of one virtual channel, class and company, that packets of this chip hold. -/
def heldUnits (s : State) (l vc cls company : Nat) : Nat :=
  let mine (p : Packet) : Bool :=
    let h := p.header.toNat
    Hdr.vc h == vc && Hdr.cls h == cls && Hdr.company h == company
  (((s.link l).input ++ s.outbox.filter (fun p => p.source == some l)).map (fun p => if mine p then p.units - p.used else 0)).sum

/-- R233, R235: the credits that this end advertises on a link: its allocation in both classes, but for the units that are held, once the chip
has an id. -/
def advertised (s : State) (l : Nat) : SMap Nat :=
  if s.chipId == 0xFFFF then []
  else (s.link l).alloc.foldl (fun m p =>
    let vc := p.1 / 32
    let c := p.1 % 32
    SMap.set 0 (SMap.set 0 m (creditIndex vc 0 c) (p.2 - s.heldUnits l vc 0 c)) (creditIndex vc 1 c) (p.2 - s.heldUnits l vc 1 c)) []

/-- R226, R236: the header of a kept HEADER frame as it was before the packet left: a forwarded one has its hop back. -/
def keptHeader (f : Frame) : Nat := let h := ofBytes f.body; if f.source.isSome then h + 2 ^ 114 else h

/-- R238: the packets whose frames are kept, oldest first; their credits at the link that they came in on have been returned. -/
def wholePackets : List Frame → List Packet
  | [] => []
  | f :: t =>
    let rest := wholePackets t
    if f.flit then rest
    else
      let h := keptHeader f
      let n := Hdr.flits h
      let body := t.take n
      if body.length == n && body.all (·.flit) then
        { header := BitVec.ofNat 256 h, payload := body.flatMap (·.body), source := f.source, used := n + 1 } :: rest
      else rest

/-- A link's end without traffic, in a state. -/
def emptyLink (k : Link) (st : LinkState) : Link :=
  { enabled := k.enabled, state := st, wasLost := k.wasLost, resent := k.resent, input := k.input, alloc := k.alloc, probeId := k.probeId }

/-- R242, R300: pairs over a link that goes, and the time parent behind it. -/
def dropPeers (s : State) (l : Nat) : State :=
  let s := (List.range 32).foldl (fun s c => match (s.company c).pair with
    | some p => if p.link == l then s.losePair c 0x0B else s
    | none => s) s
  if s.town.parent == some l && !s.town.master then s.loseSync 3 else s

/-- R238: a link is lost: it is DOWN, and the packets that have unacknowledged frames leave whole by other choices. -/
def loseLink (s : State) (l : Nat) : State :=
  if !s.linkLive l then s
  else
    let k := s.link l
    let s := s.setLink l { emptyLink k .down with wasLost := true }
    let s := { s with outbox := wholePackets (k.front ++ k.replay) ++ s.outbox }
    (s.postDevice 0x13 l).dropPeers l

/-- R221, R384, R387: a per-link reset: DOWN, then training if the link is enabled. After a FATAL fault its transmitters stay off (R389). -/
def resetLink (s : State) (l : Nat) : State :=
  let k := s.link l
  (s.setLink l (emptyLink k (if k.enabled && !s.fatal then .training else .down))).dropPeers l

/-- R238: a lane is lost: sparing starts, or the link is lost if the spare is in use. -/
def loseLane (s : State) (l lane : Nat) : State :=
  let k := s.link l
  if !s.linkLive l || k.spared == some lane || k.sparing == some (lane, true) then s
  else if k.spared.isSome || k.sparing.isSome then s.loseLink l
  else if lane ≥ 8 then s
  else (s.setLink l { k with sparing := some (lane, true) }).sendControl l (Lc.make 4 lane false 0 0 0 0 0 0)

/-- R238: traffic moves onto the spare lane. -/
def spareLane (s : State) (l lane : Nat) : State :=
  (s.updLink l (fun k => { k with spared := some lane, sparing := none, state := .upSpared })).postDevice 0x12 (l + 256 * lane)

/-! ### Replay (R224) -/

/-- The frames from the last HEADER frame on. -/
def lastPacket (fs : List Frame) : List Frame :=
  let flits := fs.reverse.takeWhile (·.flit)
  (fs.reverse.take (flits.length + 1)).reverse

/-- R224, R238: frames up to an acknowledged sequence number leave the replay buffer; those of a packet whose rest is not acknowledged are kept
beside it. -/
def Link.acked (k : Link) (a : Nat) : Link :=
  match k.replay.findIdx? (fun f => f.seq == a) with
  | none => k
  | some i =>
    let left := k.replay.drop (i + 1)
    { k with
      replay := left
      front := if (left.head?.map (·.flit)) == some true then lastPacket (k.front ++ k.replay.take (i + 1)) else [] }

/-- R223, R224: kept frames sent, each with its own frame word. -/
def sendFrames (s : State) (l : Nat) (fs : List Frame) : State :=
  fs.foldl (fun s f => s.sendFrame l (if f.flit then 2 else 1) f.seq f.body) s

/-- R224: every frame after the acknowledged one is resent; a frame already resent 8 times loses the link. -/
def resend (s : State) (l : Nat) : State :=
  let k := s.link l
  if k.replay.any (fun f => decide (f.resends ≥ 8)) then s.loseLink l
  else
    let n := k.replay.length
    let s := s.setLink l { k with replay := k.replay.map (fun f => { f with resends := f.resends + 1 }), resent := (k.resent + n) % 2 ^ 32 }
    (s.sendFrames l k.replay).countChip 0x42 (some l) n

/-- R223, R224, R233: what a good frame's word says: acknowledgements, resends and credits. -/
def heedWord (s : State) (l f : Nat) : State :=
  let i := creditIndex (Fw.creditVc f) (Fw.creditClass f) (Fw.creditCompany f)
  let s := s.updLink l (fun k =>
    let k := Link.acked k (Fw.ack f)
    { k with credits := SMap.set 0 k.credits i (SMap.get 0 k.credits i + Fw.creditCount f) })
  if Fw.nak f then s.resend l else s

/-- R224: a frame is discarded; the first discard of a gap owes a nak. -/
def discardFrame (s : State) (l : Nat) : State :=
  s.updLink l (fun k => if k.naked then k else { k with nak := true, naked := true })

/-- R222, R437: a received frame of so many bits is discarded where it is touched by a codeword that could not be corrected, or while an injected
loss lasts. -/
def received (s : State) (l bits : Nat) (lost run : State → State) : State :=
  let k := s.link l
  if k.bad == 0 && s.now ≥ k.deafUntil then run s else lost (s.updLink l (fun k => { k with bad := k.bad - bits }))

/-! ### Arriving packets (R226 to R228) -/

/-- R228: a packet that is discarded wherever it is. -/
def badHeader (h : Nat) : Bool :=
  Hdr.version h != 1 || Hdr.type h == 0 || Hdr.type h > 5 || Hdr.reserved h || Hdr.flits h > 64 || Hdr.dest h ≥ 0x8000

/-- R226, R228, R246: the payload's checksum. -/
def payloadOk (p : Packet) : Bool :=
  let h := p.header.toNat
  Hdr.crc h == if Hdr.flits h == 0 then 0 else (crc32c p.payload).toNat

/-- R228: a malformed packet for this chip aborts the job whose context it would have fed (R273). -/
def malformed (s : State) (l : Nat) (p : Packet) : State :=
  let h := p.header.toNat
  let s := (s.countChip 0x44 none 1).owe l (Hdr.vc h) (Hdr.cls h) (Hdr.company h) p.units
  if Hdr.dest h != s.chipId then s
  else
    let s := s.postMalformed h
    if 1 ≤ Hdr.type h && Hdr.type h ≤ 3 && s.contextLive (Hdr.context h) && s.contextJob (Hdr.context h) == Hdr.job h then
      s.abortJob (Hdr.job h) (s.context (Hdr.context h)).step 4
    else s

/-- R226 to R228: a packet has arrived whole: for this chip it waits at its link, for another it goes to the ports. A CONTROL packet
drains into the stage manager. -/
def arrive (s : State) (l : Nat) (p : Packet) : State :=
  let h := p.header.toNat
  if badHeader h || (Hdr.dest h == s.chipId && !payloadOk p) then s.malformed l p
  else if Hdr.dest h != s.chipId then { s with outbox := s.outbox ++ [{ p with source := some l }] }
  else if Hdr.type h == 5 then s.owe l (Hdr.vc h) (Hdr.cls h) (Hdr.company h) p.units
  else s.updLink l (fun k => { k with input := k.input ++ [p] })

/-- R224: a HEADER or FLIT frame in sequence: `body` extends the packet under way. -/
def takeFrame (s : State) (l f : Nat) (isFlit : Bool) (body : List Byte) : State :=
  let k := s.link l
  if Fw.seq f != (k.rxSeq + 1) % 4096 then s.discardFrame l
  else
    let k := { k with rxSeq := Fw.seq f, nak := false, naked := false }
    let rx : Option Packet :=
      if isFlit then k.rx.map (fun p => { p with payload := p.payload ++ body })
      else some { header := BitVec.ofNat 256 (ofBytes body), payload := [] }
    match rx with
    | none => s.setLink l k
    | some p =>
      if p.payload.length ≥ 256 * Hdr.flits p.header.toNat then (s.setLink l { k with rx := none }).arrive l p
      else s.setLink l { k with rx := some p }

end State

/-! ### Meanings: frames -/

/-- R222 to R224: an IDLE frame of 16 bytes; one that fails its CRC is discarded. -/
def execIdle (l : LinkId) (frame : BitVec 128) (s : State) : Answer :=
  .next (if !s.linkLive l then s
    else s.received l 128 (fun s => s.discardFrame l) (fun s =>
      if !Fw.good frame.toNat [] || Fw.kind frame.toNat != 0 then s.discardFrame l else s.heedWord l frame.toNat))

/-- R222 to R224: a frame that carries a part of a packet. -/
def State.packetFrame (s : State) (l kind : Nat) (f : Nat) (body : List Byte) : State :=
  let n := if kind == 1 then 32 else 256
  if !s.linkLive l then s
  else s.received l (8 * (16 + n)) (fun s => s.discardFrame l) (fun s =>
    if !Fw.good f body || Fw.kind f != kind || body.length != n then s.discardFrame l
    else
      let s := s.heedWord l f
      if s.linkLive l then s.takeFrame l f (kind == 2) body else s)

/-- R224. -/
def execHeader (l : LinkId) (frame : BitVec 128) (body : List Byte) (s : State) : Answer := .next (s.packetFrame l 1 frame.toNat body)

/-- R224. -/
def execFlit (l : LinkId) (frame : BitVec 128) (body : List Byte) (s : State) : Answer := .next (s.packetFrame l 2 frame.toNat body)

/-- R222, R225: a LINK_CONTROL frame with this code; a bad one is counted on LINK_RETRY and not asked for again. -/
def State.controlFrame (s : State) (l code f : Nat) (body : List Byte) (run : State → Nat → State) : State :=
  let b := ofBytes body
  let lost (s : State) : State := s.countChip 0x42 (some l) 1
  if !s.linkLive l then s
  else s.received l 384 lost (fun s =>
    if !Fw.good f body || Fw.kind f != 3 || body.length != 32 || Lc.code b != code || !Lc.clean b then lost s
    else
      let s := s.heedWord l f
      if s.linkLive l then run s b else s)

/-- R225: a probe is answered. -/
def execRttProbe (l : LinkId) (frame : BitVec 128) (body : List Byte) (turnaround : Word) (s : State) : Answer :=
  .next (s.controlFrame l 1 frame.toNat body (fun s b =>
    s.sendControl l (Lc.make 2 0 false (Lc.probe b) (Lc.count b) (Lc.fine b) turnaround.toNat 0 0)))

/-- R225: each end sends a probe every 1 ms. -/
def execRttProbeTimer (l : LinkId) (fine : Nat) (s : State) : Answer :=
  .next (if !s.linkLive l then s
    else
      let k := s.link l
      let s := s.sendControl l (Lc.make 1 0 false k.probeId s.now (fine % 1024) 0 0 0)
      let t := s.now
      s.updLink l (fun k => { k with probes := k.probes ++ [(k.probeId, t, fine % 1024)], probeId := (k.probeId + 1) % 2 ^ 32 }))

/-- R225: a reply to a probe gives the round trip, and half of it the one-way delay. -/
def execRttReply (l : LinkId) (frame : BitVec 128) (body : List Byte) (fine : Nat) (s : State) : Answer :=
  .next (s.controlFrame l 2 frame.toNat body (fun s b =>
    let p := (Lc.probe b, Lc.count b, Lc.fine b)
    if !(s.link l).probes.contains p then s
    else
      let trip := s.now * 1024 + fine % 1024 - (Lc.count b * 1024 + Lc.fine b) - Lc.turnaround b
      s.updLink l (fun k => { k with probes := k.probes.filter (· != p), delay := trip / 2 })))

/-- R241, R242: a child takes the count on its own TOWN_REF grid that is nearest the parent's count and the link's delay; a count that
disagrees ends synchronisation, the third agreement in a row makes it, but not while the TOWN_REF edges are missing. -/
def State.takeTime (s : State) (l count fine : Nat) : State :=
  let now := s.now
  let est : Int := (count : Int) * 1024 + fine + (s.link l).delay
  let k : Int := (2 * (est - now * 1024) + 25600) / 51200
  if k = 0 then
    if s.town.synced || s.town.onReference then s
    else if s.town.agreed + 1 ≥ 3 then s.gainSync
    else { s with town := { s.town with agreed := s.town.agreed + 1 } }
  else
    let s := s.loseSync 2
    { s with town := { s.town with count := BitVec.ofInt 64 (now + 25 * k), agreed := 0 } }

/-- R241: TIME from the time parent; one whose sender is not synchronised sets nothing. -/
def execTime (l : LinkId) (frame : BitVec 128) (body : List Byte) (s : State) : Answer :=
  .next (s.controlFrame l 3 frame.toNat body (fun s b =>
    if s.town.parent != some l || s.town.master || !Lc.synced b then s else s.takeTime l (Lc.count b) (Lc.fine b)))

/-- R241: a parent sends TIME on a child link every 100 µs. -/
def execTimeTimer (l : LinkId) (fine : Nat) (s : State) : Answer :=
  .next (if !s.linkLive l || (s.town.parent == some l && !s.town.master) then s
    else s.sendControl l (Lc.make 3 0 (s.town.synced || s.town.master) 0 s.now (fine % 1024) 0 0 0))

/-- R242: TOWN_REF missed two consecutive edges (cause 1), or one of the causes that the device also meets in TIME and link loss. -/
def execTownSyncLost (cause : Nat) (s : State) : Answer := .next (if 1 ≤ cause && cause ≤ 3 then s.loseSync cause else s)

/-- R240, R242: the count is a multiple of 25 at a TOWN_REF edge; a master whose edges return is synchronised again. -/
def execTownRefEdge (s : State) : Answer :=
  .next (if s.power == .off || s.power == .booting || s.power == .standby then s
    else
      let n := (s.now + 12) / 25 * 25
      let s := { s with town := { s.town with count := BitVec.ofNat 64 n, onReference := false } }
      if s.town.master && !s.town.synced then s.gainSync else s)

/-- R225, R238: the other end lost a lane: it is acknowledged and the spare takes the lane. -/
def execSpareRequest (l : LinkId) (frame : BitVec 128) (body : List Byte) (s : State) : Answer :=
  .next (s.controlFrame l 4 frame.toNat body (fun s b =>
    let lane := Lc.lane b
    let k := s.link l
    if lane ≥ 8 then s
    else if (k.spared.isSome && k.spared != some lane) || (match k.sparing with | some q => q.1 != lane | none => false) then s.loseLink l
    else
      let s := s.sendControl l (Lc.make 5 lane false 0 0 0 0 0 0)
      if k.spared == some lane then s else s.spareLane l lane))

/-- R225: the request is repeated every 1 µs. -/
def execSpareRequestTimer (l : LinkId) (s : State) : Answer :=
  .next (match (s.link l).sparing with
    | some (lane, true) => if s.linkLive l then s.sendControl l (Lc.make 4 lane false 0 0 0 0 0 0) else s
    | _ => s)

/-- R238: both ends have moved. -/
def execSpareAck (l : LinkId) (frame : BitVec 128) (body : List Byte) (s : State) : Answer :=
  .next (s.controlFrame l 5 frame.toNat body (fun s b =>
    if (s.link l).sparing == some (Lc.lane b, true) then s.spareLane l (Lc.lane b) else s))

/-- R225: the neighbour's chip id and link number. -/
def execLinkId (l : LinkId) (frame : BitVec 128) (body : List Byte) (s : State) : Answer :=
  .next (s.controlFrame l 6 frame.toNat body (fun s b => s.updLink l (fun k => { k with neighbour := some (Lc.chip b, Lc.link b) })))

/-! ### Meanings: lanes and links -/

/-- R238. -/
def execLaneLoss (l : LinkId) (lane : Nat) (s : State) : Answer := .next (s.loseLane l lane)

/-- R238: silence for 2 µs, failed sparing, or another cause of loss. -/
def execLinkLost (l : LinkId) (s : State) : Answer := .next (s.loseLink l)

/-- R221, R225, R238: training ends: the link is UP, names itself and advertises its credits. -/
def execLinkUp (l : LinkId) (s : State) : Answer :=
  .next (if l ≥ 16 || !(s.link l).enabled || (s.link l).state != .training || s.fatal then s
    else
      let k := s.link l
      let s := s.setLink l { State.emptyLink k .up with wasLost := false, owed := s.advertised l }
      let s := s.sendControl l (Lc.make 6 0 false 0 0 0 0 s.chipId l)
      if k.wasLost then s.postDevice 0x14 l else s)

/-- R222, R437: an injected error: a symbol that the decoder corrects, a codeword of 16 symbol errors that it cannot, a lane that loses lock, or
a time in which every received frame is discarded. -/
def State.injectError (s : State) (q : Perturb) : State :=
  if !s.linkLive q.channel || q.amount == 0 then s
  else match q.sub with
    | 1 => s.countChip 0x43 (some q.channel) 1
    | 2 => if fecCorrects 16 then s.countChip 0x43 (some q.channel) 16 else s.updLink q.channel (fun k => { k with bad := k.bad + fecDataBits })
    | 3 => s.loseLane q.channel q.lane
    | _ =>
      let t := s.now + q.amount
      if q.amount ≥ 500 then s.loseLink q.channel else s.updLink q.channel (fun k => { k with deafUntil := max k.deafUntil t })

/-- R437: one occurrence of a control slot is taken. -/
def State.takeOccurrence (s : State) (slot : Nat) : State :=
  let q := SMap.get {} s.perturb slot
  let q' : Perturb := if q.left == 0xFFFFFFFF then q else if q.left ≤ 1 then {} else { q with left := q.left - 1 }
  ({ s with perturb := SMap.set {} s.perturb slot q' }).countChip 0x4D none 1

/-- R437: the control in this slot injects its next error. -/
def execLinkError (slot : Nat) (s : State) : Answer :=
  let q := SMap.get {} s.perturb slot
  .next (if slot > 15 || q.kind != 5 then s else (s.takeOccurrence slot).injectError q)

/-! ### Ports (R229, R230, R234 to R237) -/

namespace State

/-- R236: the routing entry of a chip. -/
def routeEntry (s : State) (set dest : Nat) : Nat := (SMap.get 0xFFFFF s.routes (set * 32768 + dest)).toNat

/-- R236, R246, R296: the port a packet leaves by and whether the choice raises its class: the first choice that is LOCAL, or a live link other
than the one it came by. A destination whose port0 is NONE has no choice. -/
def outPort (s : State) (p : Packet) : Option (Nat × Bool) :=
  let h := p.header.toNat
  let e := s.routeEntry (Hdr.routeSet h) (Hdr.dest h)
  let choices := match p.via with
    | some l => [(l, false)]
    | none => if bitsOf e 0 5 == 0x1F then [] else (List.range 4).map (fun j => (bitsOf e (5 * j) 5, e.testBit (20 + j)))
  choices.find? (fun c => c.1 == localPort || (c.1 < 16 && s.linkLive c.1 && p.source != some c.1))

/-- R437: the company's credits on a link and virtual channel count as zero. -/
def isWithheld (s : State) (company link vc : Nat) : Bool := s.withheld.any (fun w => w.2.1 == company && w.2.2.1 == link && w.2.2.2 == vc)

/-- R226: the header of a packet as it leaves. -/
def leavingHeader (p : Packet) (raise : Bool) : Nat :=
  let h := p.header.toNat
  let h := if p.source.isSome then Hdr.hop h else h
  if raise then Hdr.raise h else h

/-- The frames of a packet, numbered from a sequence number (R223). -/
def packetFrames (seq header : Nat) (payload : List Byte) (source : Option Nat) : List Frame :=
  let flits := chunks 256 (payload.length / 256) payload
  { seq := seq, flit := false, body := toBytes 32 header, source := source } ::
    ((List.range flits.length).zip flits).map (fun p => { seq := (seq + 1 + p.1) % 4096, flit := true, body := p.2 })

/-- A waiting packet changed in place. -/
def updOutbox (s : State) (i : Nat) (f : Packet → Packet) : State := { s with outbox := s.outbox.modify i f }

/-- R230, R234: no earlier packet of the same flow waits; companies never wait for each other. -/
def flowFront (s : State) (i : Nat) (p : Packet) : Bool :=
  let flow (q : Packet) := (Hdr.type q.header.toNat, Hdr.src q.header.toNat, Hdr.dest q.header.toNat, Hdr.routeSet q.header.toNat,
    Hdr.company q.header.toNat)
  (s.outbox.take i).all (fun q => flow q != flow p)

/-- R224, R233, R234: a packet leaves by a link, or waits for credit. -/
def leaveBy (s : State) (i : Nat) (p : Packet) (l : Nat) (raise : Bool) : State :=
  let h := leavingHeader p raise
  let k := s.link l
  let c := creditIndex (Hdr.vc h) (Hdr.cls h) (Hdr.company h)
  let have_ := if s.isWithheld (Hdr.company h) l (Hdr.vc h) then 0 else SMap.get 0 k.credits c
  let t := s.now
  if have_ < p.units then s.updOutbox i (fun q => if q.waitingSince.isSome then q else { q with waitingSince := some t })
  else if k.replay.length + p.units > 1024 then s
  else
    let fs := packetFrames k.txSeq h p.payload p.source
    let s := (s.setLink l { k with
      credits := SMap.set 0 k.credits c (SMap.get 0 k.credits c - p.units)
      replay := k.replay ++ fs
      txSeq := (k.txSeq + p.units) % 4096 }).sendFrames l fs
    ({ s with outbox := s.outbox.eraseIdx i }).release p

/-- R236: a packet for this chip itself arrives at its LOCAL port; a CONTROL packet drains into the stage manager. -/
def deliverHere (s : State) (i : Nat) (p : Packet) : State :=
  let s := ({ s with outbox := s.outbox.eraseIdx i }).release p
  if Hdr.type p.header.toNat == 5 then s
  else s.updLink localPort (fun k => { k with input := k.input ++ [{ p with source := none, used := 0, waitingSince := none, unreachable := false }] })

end State

/-- R229, R230, R234, R236, R237: the waiting packet at this place leaves, waits, or is discarded. -/
def execPacketForward (index : Nat) (s : State) : Answer :=
  .next (match s.outbox[index]? with
    | none => s
    | some p =>
      let h := p.header.toNat
      if !s.flowFront index p || s.fatal then s
      else if p.source.isSome && Hdr.hops h == 0 then
        ({ s with outbox := s.outbox.eraseIdx index }.release p).countChip 0x45 none 1
      else match s.outPort p with
        | some (l, raise) => if l == localPort then s.deliverHere index p else s.leaveBy index p l raise
        | none =>
          if p.unreachable then s
          else (s.updOutbox index (fun q => { q with unreachable := true })).postDevice 0x11 (Hdr.dest h + 65536 * Hdr.routeSet h))

/-- R237: the banks swap at the named count. -/
def execRouteSwap (s : State) : Answer :=
  .next (match s.swapAt with
    | none => s
    | some n =>
      if s.now < n then s
      else { s with
        routes := s.routesShadow, routesShadow := s.routes, swapAt := none
        outbox := s.outbox.map (fun p => { p with unreachable := false }) })

/-- R234, R335: a company has waited for credit for its watch interval. -/
def execCreditStarved (company link vc : Nat) (s : State) : Answer :=
  let watch := (s.company company).watch.toNat
  let mine (p : Packet) : Bool :=
    Hdr.company p.header.toNat == company && Hdr.vc p.header.toNat == vc && p.waitingSince.isSome &&
      (match s.outPort p with | some q => q.1 == link | none => false)
  let i := s.outbox.findIdx mine
  .next (match s.outbox[i]? with
    | none => s
    | some p =>
      let t := s.now - p.waitingSince.getD 0
      if watch == 0 || t ≤ watch * (p.starved + 1) then s
      else (s.updOutbox i (fun q => { q with starved := q.starved + 1 })).postCompany company 4 (link % 16 + 16 * (vc % 4) + 2 ^ 32 * t))

/-- R98, R437, R438: a company whose curtain waits for a landing is tainted while its packets wait for credits that are withheld. -/
def State.taintWithheld (s : State) (w : Nat × Nat × Nat × Nat) : State :=
  let waits := s.outbox.any (fun p =>
    Hdr.company p.header.toNat == w.2.1 && Hdr.vc p.header.toNat == w.2.2.2 && p.waitingSince.isSome &&
      (match s.outPort p with | some q => q.1 == w.2.2.1 | none => false))
  let held := (s.company w.2.1).at_ == .choice && (s.candidates w.2.1).any (fun a => s.predsEnded w.2.1 a &&
    (match s.waitingHold w.2.1 a with | some h => h.2.1 == 2 || h.2.1 == 3 | none => false))
  if waits && held then s.setTaint w.2.1 else s

/-- R437: a period of withheld credits of this slot ends, or its next one begins. -/
def execCreditWithhold (slot : Nat) (s : State) : Answer :=
  let q := SMap.get {} s.perturb slot
  .next (match s.withheld.find? (fun w => w.1 == slot) with
    | some w => { (s.taintWithheld w) with withheld := s.withheld.filter (fun w => w.1 != slot) }
    | none =>
      if slot > 15 || q.kind != 2 then s
      else
        let s := s.takeOccurrence slot
        if q.amount == 0 then s else { s with withheld := s.withheld ++ [(slot, q.company, q.channel, q.sub)] })

/-! ### A town tick (R240, R223, R234) -/

namespace State

/-- R223, R224, R234: the link has something to say in a frame word: a nak, an acknowledgement or credits. -/
def wordDue (k : Link) : Bool := k.nak || k.ackSent != k.rxSeq || !k.owed.isEmpty

/-- R240, R223, R224, R234, R426: one town tick. A link that owes a nak, an acknowledgement or credits sends them in an IDLE frame (DESIGN CHOICE,
log entry 87), and a company whose packets wait for credit counts the tick. -/
def tick (s : State) : State :=
  if s.power == .off || s.power == .booting || s.power == .standby then s
  else
    let s := { s with town := { s.town with count := s.town.count + 1 } }
    let s := (List.range 16).foldl (fun s l => if s.linkLive l && wordDue (s.link l) then s.sendFrame l 0 0 [] else s) s
    if s.outbox.isEmpty then s
    else (List.range 32).foldl (fun s c => if s.starving c then s.countChip 0x47 (some c) 1 else s) s

end State

end Sys2Proof.Machine
end

