-- ==== Sys2Proof/Machine/Loading.lean ====
section
/-! DEFINITION. The loading commands: script packages, function tables, micro-programs and cues, with their checks (R4, R5, R80, R85, R89,
R90, R101 to R103, R119, R147 to R151, R159 to R164, R175 to R181, R187, R202, R269, R343, R344, R359, R415). -/
namespace Sys2Proof.Machine

/-! ### Reading a data block -/

/-- A little-endian number in a block. -/
def numAt (b : List Byte) (off n : Nat) : Nat := ofBytes ((b.drop off).take n)

/-! ### Script packages (R344) -/

namespace Package
def format (b : List Byte) : Nat := numAt b 0 1
def bundleSet (b : List Byte) : Nat := numAt b 1 1
def rows (b : List Byte) : Nat := numAt b 2 1
def districts (b : List Byte) : Nat := numAt b 3 1
def acts (b : List Byte) : Nat := numAt b 4 2
/-- Act descriptor a. -/
def act (b : List Byte) (a : Nat) : Nat := numAt b (64 + 64 * a) 64
def indexAt (b : List Byte) : Nat := 64 + 64 * acts b
def indexEnd (b : List Byte) (cores : Nat) : Nat := indexAt b + 8 * acts b * cores
/-- Byte of index entry i, of `cores` entries an act. -/
def entryAt (b : List Byte) (i : Nat) : Nat := indexAt b + 8 * i
def offset (b : List Byte) (i : Nat) : Nat := numAt b (entryAt b i) 4
def bundles (b : List Byte) (i : Nat) : Nat := numAt b (entryAt b i + 4) 2
def descs (b : List Byte) (i : Nat) : Nat := numAt b (entryAt b i + 6) 2
/-- The bytes of entry i's block. -/
def blockBytes (b : List Byte) (i : Nat) : Nat := 32 * (bundles b i + descs b i)
end Package

/-- R85, R117, R119, R344, R4: the package header. -/
def checkPackageHeader (b : List Byte) (gridRows districts : Nat) : Check :=
  let r := Package.rows b
  firstFail [
    need (b.length ≥ 64) St.badSize 4,
    need (numAt b 6 58 == 0) St.reservedSet (6 + lowByte (numAt b 6 58)),
    need (r == 0 || r == 7 || r == 8) St.reservedSet 2,
    need (r != 0) St.badSize 2,
    need (1 ≤ Package.acts b && Package.acts b ≤ 4096) St.badSize 4,
    need (Package.format b == 1) St.badVersion 0,
    need (Package.bundleSet b == 1) St.badVersion 1,
    need (r ≤ gridRows) St.noResource 2,
    need (Package.districts b == districts) St.denied 3]

/-- R89, R90: reserved bits of an act descriptor: its own, those of its predecessors and holds, undefined hold kinds, and names of holds
that take none. -/
def actReserved (d : Nat) : Nat :=
  let hold (i : Nat) : Nat :=
    let k := bitsOf d (128 + 32 * i) 4
    let n := bitsOf d (136 + 32 * i) 12
    (if k > 3 then 2 ^ (128 + 32 * i) else 0) + (if (k == 0 || k == 3) && n != 0 then 2 ^ (136 + 32 * i) else 0)
  (d &&& (maskOf 10 30 + maskOf 76 78 + maskOf 92 94 + maskOf 108 110 + maskOf 124 126 + maskOf 132 135 + maskOf 148 159 + maskOf 164 167 +
    maskOf 180 191 + maskOf 196 199 + maskOf 212 223 + maskOf 228 231 + maskOf 244 255 + maskOf 320 511)) +
  hold 0 + hold 1 + hold 2 + hold 3

/-- R85, R89: act descriptor a. -/
def checkAct (b : List Byte) (a : Nat) : Check :=
  let d := Package.act b a
  let o := 64 + 64 * a
  firstFail [
    (if actReserved d == 0 then none else some (St.reservedSet, o + lowByte (actReserved d))),
    need (Act.bundleCount d ≤ 512) St.badSize o,
    need ((Act.scheduled d == 0) == (Act.bundleCount d == 0)) St.badSize (o + 4),
    (List.range 4).findSome? (fun i =>
      need (!d.testBit (64 + 16 * i + 15) || bitsOf d (64 + 16 * i) 12 < a) St.denied (o + 8 + 2 * i))]

/-- R85, R344: index entry i. -/
def checkEntry (b : List Byte) (cores i : Nat) : Check :=
  let e := Package.entryAt b i
  let o := Package.offset b i
  let n := Package.blockBytes b i
  firstFail [
    need (Package.bundles b i ≤ 512) St.badSize (e + 4),
    need (Package.descs b i ≤ 256) St.badSize (e + 6),
    need (o % 32 == 0 && o < b.length && o + n ≤ b.length && (n == 0 || o ≥ Package.indexEnd b cores)) St.badSize e]

/-- R89: the act's bundle_count against its index entries. -/
def checkLongest (b : List Byte) (cores a : Nat) : Check :=
  let longest := ((List.range cores).map (fun i => Package.bundles b (a * cores + i))).foldl max 0
  need (Act.bundleCount (Package.act b a) == longest) St.badSize (64 + 64 * a)

/-- R147 to R150: the reserved bits and values of a DMA descriptor. -/
def dmaReserved (d : Nat) : Nat :=
  let layout := bitsOf d 1 2
  let bit (bad : Bool) (i : Nat) : Nat := if bad then 2 ^ i else 0
  (d &&& (maskOf 16 31 + maskOf 78 79 + maskOf 124 127 + maskOf 166 167 + maskOf 232 255)) +
  bit (layout ≥ 2 || (layout == 1 && d.testBit 0)) 1 +
  bit (layout == 0 && d.testBit 3) 3 +
  bit (Dma.srcType d == 7 || Dma.dstType d == 7 || !typesLegal (Dma.srcType d) (Dma.dstType d) (Dma.rounding d) ||
    (layout == 1 && typePosit (Dma.dstType d) == 0)) 4 +
  bit (layout == 1 && Dma.storePitch d != 0) 152

/-- R147 to R151: the DMA descriptor at a byte of the package. -/
def checkDma (b : List Byte) (o : Nat) : Check :=
  let d := numAt b o 32
  firstFail [
    (if dmaReserved d == 0 then none else some (St.reservedSet, o + lowByte (dmaReserved d))),
    need (!Dma.edge d || Dma.length d % 8 == 0) St.badSize (o + 10),
    need (!Dma.edge d || Dma.rows d == 0 || Dma.rows d == (if Dma.lanes8 d then 8 else 16)) St.badSize (o + 12)]

/-- The descriptors of entry i's block. -/
def checkBlock (b : List Byte) (i : Nat) : Check :=
  (List.range (Package.descs b i)).findSome? (fun j => checkDma b (Package.offset b i + 32 * (Package.bundles b i + j)))

/-- R359: the profile of an act. -/
def checkProfile (b : List Byte) (a : Nat) : Check :=
  let o := Act.peakOffset (Package.act b a)
  let p := numAt b o 48
  let top := ((List.range 16).map (fun j => bitsOf p (128 + 16 * j) 16)).foldl max 0
  if o == 0 then none
  else firstFail [
    need (o % 16 == 0 && o + 48 ≤ b.length) St.badSize (64 + 64 * a + 36),
    reservedBits p (maskOf 32 127) o,
    need (bitsOf p 0 16 ≤ top) St.denied o,
    need (bitsOf p 16 16 ≤ top) St.denied (o + 2)]

/-- Slice units of the blocks of core number i (of `cores`) in the acts before `a`. -/
def unitsBefore (b : List Byte) (cores i a : Nat) : Nat := ((List.range a).map (fun x => ceilDiv (Package.blockBytes b (x * cores + i)) 64)).sum

namespace State

/-- The cores of a package in index order: district, row, column ascending (R344). -/
def packageCores (s : State) (c rows : Nat) : List Nat :=
  (List.range 2048).filter (fun k => (s.company c).districts.toNat.testBit (k / 64) && decide (k % 64 / 8 < rows))

/-- R330, R343, R344: every check of a script package, structure by structure. -/
def checkPackage (s : State) (c base : Nat) (b : List Byte) : Check :=
  let n := (s.packageCores c (Package.rows b)).length
  let acts := List.range (Package.acts b)
  firstFail [
    checkPackageHeader b s.gridRows (districtCount (s.company c).districts),
    need (b.length ≥ Package.indexAt b) St.badSize 4,
    acts.findSome? (checkAct b),
    need (b.length ≥ Package.indexEnd b n) St.badSize 4,
    (List.range (Package.acts b * n)).findSome? (checkEntry b n),
    acts.findSome? (checkLongest b n),
    (List.range (Package.acts b * n)).findSome? (checkBlock b),
    acts.findSome? (checkProfile b),
    need ((List.range n).all (fun i => decide (base + unitsBefore b n i (Package.acts b) ≤ 786432))) St.denied (bodyAt 0)]

/-- Whole units written to a slice from a unit on. -/
def putUnits (s : State) (core unit : Nat) (d : List Byte) : State :=
  let us := chunks 64 (ceilDiv d.length 64) d
  ((List.range us.length).zip us).foldl (fun s p => s.writeUnit (.slice core) (64 * (unit + p.1)) p.2) s

/-- R343, R344: each core's blocks laid out from script_base in act order: act and core (act * 2048 + core), index in the package, and place. -/
def packageRefs (s : State) (c base : Nat) (b : List Byte) : List (Nat × Nat × BlockRef) :=
  let cores := s.packageCores c (Package.rows b)
  let n := cores.length
  (List.range (Package.acts b)).flatMap (fun a => ((List.range n).zip cores).map (fun p =>
    let i := a * n + p.1
    (a * 2048 + p.2, i, ({ unit := base + unitsBefore b n p.1 a, bundles := Package.bundles b i, descs := Package.descs b i } : BlockRef))))

/-- R343: the blocks written to their slices. -/
def placeBlocks (s : State) (b : List Byte) (refs : List (Nat × Nat × BlockRef)) : State :=
  refs.foldl (fun s r => s.putUnits (r.1 % 2048) r.2.2.unit ((b.drop (Package.offset b r.2.1)).take (Package.blockBytes b r.2.1))) s

/-- R343, R344: the script put in place. -/
def installScript (s : State) (c base : Nat) (b : List Byte) : State :=
  let acts := List.range (Package.acts b)
  let refs := s.packageRefs c base b
  let s := s.placeBlocks b refs
  let script : Script :=
    { hash := hashField (sha384 b)
      rows := Package.rows b
      acts := acts.map (fun a => BitVec.ofNat 512 (Package.act b a))
      profiles := acts.map (fun a =>
        let o := Act.peakOffset (Package.act b a)
        if o == 0 then none else some (BitVec.ofNat 384 (numAt b o 48)))
      blocks := refs.map (fun r => (r.1, some r.2.2)) }
  let s := s.updCores (s.companyCores c) (fun _ k => { k with idle := none })
  (s.updCompany c (fun k => { k with script := some script })).measureCompany c
    (chainEntry 0x20 c (s.knownItem [1, 2, 3] b) 0 0 0 (sha384 b))

end State

def loadScriptSheet : Sheet :=
  { opcode := 0x20, hasData := true, used := [(0, 4)]
    size := fun w => need (Cmd.length w != 0) St.badSize 4
    pre := fun s _ w =>
      let c := Cmd.company w
      firstFail [
        need (s.formed c) St.wrongState noField,
        need (s.power != .dim) St.wrongState noField,
        need (s.companyIdle c) St.busy noField,
        s.checkPackage c (Cmd.field w 0 4) (s.block w)]
    run := fun s _ w =>
      let b := s.block w
      .done (s.installScript (Cmd.company w) (Cmd.field w 0 4) b) (hashField (sha384 b)).toNat }

/-- R343, R344. -/
def execLoadScript (ring : Nat) (s : State) : Answer := .next (s.serve ring loadScriptSheet)

/-! ### LOAD_TABLES (R187, R343) -/

/-- R27 order of posit32 values, none of them NaR. -/
def risingWords : List Word → Bool
  | [] => true
  | [x] => x != 0x80000000
  | x :: y :: t => x != 0x80000000 && BitVec.sle x y && risingWords (y :: t)

/-- R187: a slot header with its monotonicity bits computed. -/
def Table.computed (header : Nat) (vs : List Word) : Table :=
  let e := BitVec.ofNat 32 (bitsOf header 0 32)
  let ne := BitVec.ofNat 32 (bitsOf header 32 32)
  let inc := risingWords (vs ++ [e])
  let dec := risingWords (vs ++ [e]).reverse
  let each := header.testBit 64 && risingWords (vs.take 1024 ++ [ne]).reverse && risingWords (vs.drop 1024 ++ [e]).reverse
  { header := BitVec.ofNat 128 (header % 2 ^ 65 + 2 ^ 65 * b2n inc + 2 ^ 66 * b2n dec + 2 ^ 67 * b2n each), entries := vs }

/-- R187: a slot from an image. -/
def Table.ofImage (b : List Byte) : Table :=
  Table.computed (numAt b 0 16) ((chunks 4 2048 (b.drop 16)).map (fun x => BitVec.ofNat 32 (ofBytes x)))

/-- R187: the 8,208 bytes of a slot; an empty one has NaR entries. -/
def Table.image (t : Table) : List Byte :=
  toBytes 16 t.header.toNat ++ (if t.entries.isEmpty then List.replicate 2048 (0x80000000 : Word) else t.entries).flatMap (fun w => toBytes 4 w.toNat)

/-- Source k of a LOAD_TABLES: kind, index, offset. -/
def tableSource (w k : Nat) : Nat × Nat × Nat := (Cmd.field w (16 + 8 * k) 1, Cmd.field w (18 + 8 * k) 2, Cmd.field w (20 + 8 * k) 4)

/-- R418: the item of an installed extension that an index names: its position in the upper four bits, its number in the lower twelve. -/
def State.extensionItem (s : State) (kind index : Nat) : Option (List Byte) :=
  match SMap.get none s.extensions (index / 4096) with
  | none => none
  | some e => (e.items.find? (fun i => i.1 == kind && i.2.1 == index % 4096)).map (·.2.2)

/-- The slot that a source fills. -/
def State.tableOf (s : State) (w k : Nat) : Table :=
  match tableSource w k with
  | (1, _, off) => .ofImage ((s.block w).drop off |>.take 8208)
  | (2, i, _) => romTable i
  | (3, i, _) => match s.extensionItem 1 i with | some b => .ofImage b | none => {}
  | _ => {}

/-- R101, R187: a whole shadow bank filled, or held while the class is frozen. -/
def Core.loadTables (k : Core) (bank : SMap Table) : Core :=
  if k.tablesFrozen then { k with tablesHeld := some bank } else { k with tablesShadow := bank, tablesPending := true }

def loadTablesSheet : Sheet :=
  { opcode := 0x21, hasData := true, used := [(4, 4), (8, 8), (16, 32)]
    coded := fun w => (List.range 4).findSome? (fun k => firstFail [
      need ((tableSource w k).1 ≤ 3) St.reservedSet (bodyAt (16 + 8 * k)),
      need (Cmd.field w (17 + 8 * k) 1 == 0) St.reservedSet (bodyAt (17 + 8 * k))])
    size := fun w => firstFail [
      need ((List.range 4).any (fun k => (tableSource w k).1 != 0)) St.badSize (bodyAt 16),
      (List.range 4).findSome? (fun k =>
        need ((tableSource w k).1 != 1 || (tableSource w k).2.2 + 8208 ≤ Cmd.length w) St.badSize (bodyAt (20 + 8 * k)))]
    pre := fun s _ w => firstFail [
      need (s.formed (Cmd.company w)) St.wrongState noField,
      need (s.power != .dim) St.wrongState noField,
      s.checkSelected w,
      (List.range 4).findSome? (fun k =>
        let q := tableSource w k
        need (!(q.1 == 2 && q.2.1 > 9) && !(q.1 == 3 && (s.extensionItem 1 q.2.1).isNone)) St.denied (bodyAt (18 + 8 * k))),
      (List.range 4).findSome? (fun k =>
        let q := tableSource w k
        if q.1 == 1 then reservedBits (numAt (s.block w) q.2.2 16) (maskOf 68 127) q.2.2 else none)]
    run := fun s _ w =>
      let c := Cmd.company w
      let slots := (List.range 4).map (fun k => (k, s.tableOf w k))
      let bank : SMap Table := SMap.setMany {} [] slots
      let t := s.updCores (State.selected w) (fun _ k => k.loadTables bank)
      .done (slots.foldl (fun t p =>
        t.measureCompany c (chainEntry 0x21 c (s.knownItem [1, 2, 3] p.2.image) (Cmd.field w 4 4) (Cmd.field w 8 8) p.1 (sha384 p.2.image))) t) 0 }

/-- R101, R187, R343. -/
def execLoadTables (ring : Nat) (s : State) : Answer := .next (s.serve ring loadTablesSheet)

/-! ### LOAD_MICROPROGRAM (R179, R181, R269, R343) -/

/-- The micro-program store of a core once what waits for its curtain has been installed. -/
def Core.microLater (k : Core) : SMap (Option MicroProgram) := SMap.setMany none k.micro (k.microQueue.map (fun p => (p.1, some p.2)))

/-- R179: the core's store has room for an image, now where it is installed at once, and once all that waits is installed. -/
def Core.microRoom (k : Core) (later : Bool) (entry : Nat) (p : MicroProgram) : Bool :=
  storeRoom k.microLater entry p && (later || (storeRoom k.micro entry p &&
    match k.microQueue.getLast? with
    | some q => storeRoom (k.install entry p).microLater q.1 q.2
    | none => true))

/-- R181: installed at once, or at the company's next curtain. -/
def Core.loadMicro (k : Core) (later : Bool) (entry : Nat) (p : MicroProgram) : Core :=
  if later then { k with microQueue := k.microQueue ++ [(entry, p)] } else k.install entry p

def loadMicroSheet (engine : Bool) (pre : State → Nat → Nat → Check) (run : State → Nat → Nat → Verdict) : Sheet :=
  { opcode := 0x22, hasData := true, used := [(0, 1), (1, 1), (4, 4), (8, 8)]
    coded := fun w => need (Cmd.field w 0 1 ≤ 1) St.reservedSet (bodyAt 0)
    size := fun w => need (Cmd.length w != 0) St.badSize 4
    pre := fun s ring w => firstFail [
      need (s.formed (Cmd.company w)) St.wrongState noField,
      need (engine || s.power != .dim) St.wrongState noField,
      need (!engine || ring == 0) St.denied (bodyAt 0),
      need (Cmd.field w 1 1 ≥ 16) St.denied (bodyAt 1),
      pre s ring w]
    run := run }

def loadMicroCoresSheet : Sheet :=
  loadMicroSheet false
    (fun s _ w => firstFail [
      s.checkSelected w,
      MicroProgram.check (s.block w) false false (fun p => (State.selected w).all (fun k =>
        (s.core k).microRoom (s.inAct (Cmd.company w)) (Cmd.field w 1 1) p))])
    (fun s _ w =>
      let c := Cmd.company w
      let b := s.block w
      let t := s.updCores (State.selected w) (fun _ k => k.loadMicro (s.inAct c) (Cmd.field w 1 1) (MicroProgram.ofImage b))
      .done (t.measureCompany c
        (chainEntry 0x22 c (s.knownItem [1, 2, 3] b) (Cmd.field w 4 4) (Cmd.field w 8 8) (Cmd.field w 1 1) (sha384 b))) 0)

/-- R179, R181. -/
def execLoadMicroprogramCores (ring : Nat) (s : State) : Answer := .next (s.serve ring loadMicroCoresSheet (fun w => Cmd.field w 0 1 != 1))

/-- The update engine's store once its queue has been installed. -/
def State.engineLater (s : State) : SMap (Option MicroProgram) := SMap.setMany none s.engine (s.engineQueue.map (fun p => (p.1, some p.2)))

def loadMicroEngineSheet : Sheet :=
  loadMicroSheet true
    (fun s _ w => MicroProgram.check (s.block w) true true (storeRoom s.engineLater (Cmd.field w 1 1)))
    (fun s _ w =>
      let b := s.block w
      let t := { s with engineQueue := s.engineQueue ++ [(Cmd.field w 1 1, MicroProgram.ofImage b)] }
      .done (t.measureDevice (chainEntry 0x22 (Cmd.company w) (s.knownItem [1, 2, 3] b) (Cmd.field w 4 4) (Cmd.field w 8 8) (Cmd.field w 1 1)
        (sha384 b))) 0)

/-- R269: installed at the chip's next scene change. -/
def execLoadMicroprogramEngine (ring : Nat) (s : State) : Answer := .next (s.serve ring loadMicroEngineSheet (fun w => Cmd.field w 0 1 == 1))

/-! ### SET_CUE (R80, R101 to R103, R159 to R164, R202, R343) -/

namespace Core

/-- R101: scale registers written in the shadow, or held. -/
def writeScales (k : Core) (ws : List (Nat × Byte)) : Core :=
  if ws.isEmpty then k
  else if k.scaleFrozen then { k with scaleHeld := k.scaleHeld ++ ws }
  else { k with scaleShadow := SMap.setMany 0 k.scaleShadow ws, scalePending := true }

/-- R101: apron configurations written in the shadow, or held. -/
def writeApron (k : Core) (ws : List (Nat × BitVec 128)) : Core :=
  if ws.isEmpty then k
  else if k.apronFrozen then { k with apronHeld := k.apronHeld ++ ws }
  else { k with apronShadow := SMap.setMany 1 k.apronShadow ws, apronPending := true }

end Core

/-- R80: reserved bits and refused codes of an apron configuration. -/
def apronReserved (x : Nat) : Nat :=
  (x &&& (maskOf 11 15 + maskOf 28 31 + maskOf 56 63 + maskOf 104 127)) + (if bitsOf x 0 2 == 0 then 1 else 0) +
  (if bitsOf x 2 2 ≥ 2 then 4 else 0) + (if bitsOf x 4 2 == 3 then 16 else 0)

/-- R159, R160: reserved bits of a channel entry: its own, undefined hop codes, codes after END, an incoming entry's route. -/
def channelReserved (e : Nat) : Nat :=
  let codes := (List.range 12).map (fun i => bitsOf e (32 + 4 * i) 4)
  let n := (codes.takeWhile (· != 0)).length
  let bad (i : Nat) : Bool := let h := codes.getD i 0; decide (h > 10) || (h != 0 && (decide (i > n) || Chan.incoming e))
  (e &&& (maskOf 2 3 + maskOf 21 31 + maskOf 80 95)) +
  ((List.range 12).map (fun i => if bad i then 2 ^ (32 + 4 * i) else 0)).sum

/-- R161: reserved bits of a slot-table entry. -/
def slotReserved (e : Nat) : Nat :=
  (e &&& (maskOf 33 63 + maskOf 168 191)) + (if bitsOf e 12 4 > 10 then 2 ^ 12 else 0)

/-- R161: some window of an entry meets the cycles lo to hi. -/
def windowMeets (e lo hi : Nat) : Bool :=
  let f := Slot.first e
  let p := Slot.period e
  let last := f + Slot.length e - 1
  let k := if last ≥ lo then 0 else if p == 0 then Slot.repeats e else ceilDiv (lo - last) p
  decide (k < Slot.repeats e) && Slot.length e != 0 && decide (f + k * p ≤ hi)

/-- R164: two entries of a link direction have windows that overlap. -/
def slotsMeet (x y : Nat) : Bool :=
  let (a, b) := if Slot.repeats x ≤ Slot.repeats y then (x, y) else (y, x)
  Slot.length a != 0 && (List.range (Slot.repeats a)).any (fun k =>
    let lo := Slot.first a + k * Slot.period a
    windowMeets b lo (lo + Slot.length a - 1))

/-- R164: an entry's own windows overlap. -/
def slotSelfMeets (e : Nat) : Bool := Slot.repeats e ≥ 2 && Slot.length e != 0 && decide (Slot.period e < Slot.length e)

/-- R164: every link of a route is allowed: cores in the grid, squares of the company's districts, claimed avenues. -/
def routeAllowed (grid : Nat → Bool) (mask avenues : Nat) (r : List (Nat × Nat) × List Nat) : Bool :=
  r.2.all (fun n => if n < 2048 then grid n else mask.testBit (n - 2048)) &&
  r.1.all (fun l =>
    let node := l.1 / 16
    let hop := l.1 % 16
    node < 2048 || hop < 6 || hop > 9 || avenues.testBit ((node - 2048) * 4 + (hop - 6)))

namespace State

/-- R164, R344: channel entry number i of a plan block (core i / 64 of the company), but for its match with its peer's entry. -/
def checkChannel (s : State) (c : Nat) (cores : List Nat) (b : List Byte) (i : Nat) : Check :=
  let o := 12 * i
  let e := numAt b o 12
  let core := cores.getD (i / 64) 0
  let mask := (s.company c).districts.toNat
  let grid (k : Nat) : Bool := mask.testBit (k / 64) && decide (k % 64 / 8 < s.scriptRows c) && decide (k % 64 / 8 < s.gridRows)
  let peer := Chan.peer e
  if channelReserved e != 0 then some (St.reservedSet, o + lowByte (channelReserved e))
  else if !Chan.valid e then none
  else firstFail [
    need (grid core && grid peer && cores.contains peer) St.denied o,
    need (Chan.incoming e || (match walkRoute peer core 0 (Chan.hops e) with
      | some r => r.2.getLast? == some peer && routeAllowed grid mask (s.company c).avenues.toNat r
      | none => false)) St.denied (o + 4)]

/-- The number of the entry that channel entry i names as its peer's. -/
def peerEntry (cores : List Nat) (b : List Byte) (i : Nat) : Nat :=
  let e := numAt b (12 * i) 12
  cores.findIdx (· == Chan.peer e) * 64 + Chan.peerChannel e

/-- R164: channel entry i and the one it names answer each other. -/
def channelsMatch (cores : List Nat) (b : List Byte) (i : Nat) : Bool :=
  let e := numAt b (12 * i) 12
  let back := numAt b (12 * peerEntry cores b i) 12
  Chan.valid back && Chan.incoming back != Chan.incoming e && Chan.peer back == cores.getD (i / 64) 0 && Chan.peerChannel back == i % 64

/-- R164, R330: the channel entries in order; a match that fails is found at the later of the two entries. -/
def checkChannels (s : State) (c : Nat) (cores : List Nat) (b : List Byte) : Check :=
  let all := List.range (64 * cores.length)
  let own := all.findSome? (fun i => (s.checkChannel c cores b i).map (fun f => (2 * i, f)))
  let lone := all.filterMap (fun i =>
    if !Chan.valid (numAt b (12 * i) 12) || channelsMatch cores b i then none
    else
      let p := peerEntry cores b i
      some (if p > i then (2 * p + 1, (St.denied, 12 * p)) else (2 * i, (St.denied, 12 * i + 1))))
  let found := lone.foldl (fun best f => match best with
    | some g => if f.1 < g.1 then some f else some g
    | none => some f) own
  found.map (·.2)

/-- R161, R164: slot-table entry i of a plan block, against those before it. -/
def checkSlot (b : List Byte) (start i : Nat) : Check :=
  let at_ (j : Nat) := numAt b (start + 24 * j) 24
  let e := at_ i
  let o := start + 24 * i
  let peers := ((List.range i).map at_).filter (fun x => Slot.link x == Slot.link e)
  firstFail [
    (if slotReserved e == 0 then none else some (St.reservedSet, o + lowByte (slotReserved e))),
    need (peers.length < 64) St.badSize o,
    need (!slotSelfMeets e && !peers.any (fun x => slotsMeet x e)) St.denied (o + 8)]

/-- R164, R344: a signal-plan block. -/
def checkPlan (s : State) (c : Nat) (b : List Byte) : Check :=
  let cores := s.companyCores c
  let n := 768 * cores.length
  let count := numAt b n 4
  firstFail [
    need (b.length ≥ n + 4) St.badSize 4,
    need (b.length == n + 4 + 24 * count) St.badSize n,
    s.checkChannels c cores b,
    (List.range count).findSome? (checkSlot b (n + 4))]

/-- R344: the plan of a block. -/
def planOf (s : State) (c : Nat) (b : List Byte) : SignalPlan :=
  let cores := s.companyCores c
  let n := 768 * cores.length
  { channels := SMap.setMany 0 [] ((List.range (64 * cores.length)).map (fun i =>
      (cores.getD (i / 64) 0 * 64 + i % 64, BitVec.ofNat 96 (numAt b (12 * i) 12))))
    slots := (List.range (numAt b n 4)).map (fun i => BitVec.ofNat 192 (numAt b (n + 4 + 24 * i) 24)) }

/-- R101, R343: the write of a SET_CUE of each class. -/
def setCue (s : State) (w : Nat) : State :=
  let c := Cmd.company w
  let first := Cmd.field w 16 2
  let b := s.block w
  let v := BitVec.ofNat 32 (Cmd.field w 20 4)
  match Cmd.field w 0 1 with
  | 1 => s.updCores (State.selected w) (fun _ k => k.writeScales (((List.range b.length).zip b).map (fun p => (first + p.1, p.2))))
  | 2 => s.updCores (State.selected w) (fun _ k => k.writeApron ((List.range (b.length / 16)).map (fun i =>
      (first + i, BitVec.ofNat 128 (numAt b (16 * i) 16)))))
  | 3 => s.updCompany c (fun k => { k with clock := k.clock.write v })
  | 4 => let p := s.planOf c b; s.updCompany c (fun k => { k with plan := k.plan.write p })
  | _ => s.updCompany c (fun k => { k with trap := k.trap.write v })

end State

def setCueSheet : Sheet :=
  { opcode := 0x23, hasData := true, used := [(0, 1), (4, 4), (8, 8), (16, 2), (18, 2), (20, 4)]
    coded := fun w =>
      let k := Cmd.field w 0 1
      let v := Cmd.field w 20 4
      firstFail [
        need (1 ≤ k && k ≤ 5) St.reservedSet (bodyAt 0),
        need (k ≤ 2 || Cmd.field w 18 2 == 0) St.reservedSet (bodyAt 18),
        (if k == 3 || k == 5 then none else reservedBits v (maskOf 0 31) (bodyAt 20)),
        need (k != 3 || v % 8 ≤ 5) St.reservedSet (bodyAt 20),
        (if k == 3 then reservedBits v (maskOf 3 31) (bodyAt 20) else none),
        (if k == 5 then reservedBits v (maskOf 2 31) (bodyAt 20) else none),
        need (!(k == 3 || k == 5) || Cmd.length w == 0) St.reservedSet 4]
    size := fun w =>
      let k := Cmd.field w 0 1
      let n := Cmd.field w 18 2
      firstFail [
        need (k != 1 || Cmd.length w == n) St.badSize 4,
        need (k != 2 || Cmd.length w == 16 * n) St.badSize 4,
        need (k != 4 || Cmd.length w != 0) St.badSize 4]
    pre := fun s _ w =>
      let c := Cmd.company w
      let k := Cmd.field w 0 1
      let n := Cmd.field w 18 2
      let last := Cmd.field w 16 2 + n
      let b := s.block w
      firstFail [
        need (s.formed c) St.wrongState noField,
        need (s.power != .dim) St.wrongState noField,
        need (k != 3 || !(s.company c).reproducible || Cmd.field w 20 4 == 2) St.wrongState (bodyAt 20),
        s.checkSelected w,
        need (k != 1 || last ≤ 4096) St.denied (bodyAt 16),
        need (k != 2 || last ≤ 8) St.denied (bodyAt 16),
        (if k == 1 then ((List.range n).find? (fun i => numAt b i 1 ≥ 128)).map (fun i => (St.reservedSet, i)) else none),
        (if k == 2 then (List.range n).findSome? (fun i =>
            let x := apronReserved (numAt b (16 * i) 16)
            if x == 0 then none else some (St.reservedSet, 16 * i + lowByte x)) else none),
        (if k == 4 then s.checkPlan c b else none)]
    run := fun s _ w => .done (s.setCue w) 0 }

/-- R101, R343. -/
def execSetCue (ring : Nat) (s : State) : Answer := .next (s.serve ring setCueSheet)

end Sys2Proof.Machine
end

