-- ==== Sys2Proof/Machine/FabricCmds.lean ====
section
/-! DEFINITION. FABRIC_CONFIG: identity, link enables, credits, routes, time and scene trees (R233, R235 to R237, R241, R244, R246, R348). -/
namespace Sys2Proof.Machine

/-! ### Sections (R348) -/

/-- Ids of the sections that a command carries, in bit order. -/
def sectionIds (w : Nat) : List Nat := (List.range 6).filter (fun i => (Cmd.field w 0 4).testBit i)

/-- Where each section's content stands in the block: id, offset and length. -/
def sectionsOf (b : List Byte) : List Nat → Nat → List (Nat × Nat × Nat)
  | [], _ => []
  | id :: t, o =>
    let n := numAt b (o + 4) 4
    (id, o + 8, n) :: sectionsOf b t (o + 8 + n)

/-- Offset and length of a section's content. -/
def sectionAt (b : List Byte) (w id : Nat) : Option (Nat × Nat) := ((sectionsOf b (sectionIds w) 0).find? (fun q => q.1 == id)).map (·.2)

/-- CREDITS: n of a link, virtual channel and company. -/
def creditField (b : List Byte) (o l vc c : Nat) : Nat := numAt b (o + 2 * ((l * 4 + vc) * 32 + c)) 2

/-- ROUTES: number of entries, and an entry. -/
def routeCount (b : List Byte) (o : Nat) : Nat := numAt b (o + 3) 2
def routeField (b : List Byte) (o i : Nat) : Nat := numAt b (o + 5 + 4 * i) 4

/-- SCENE: offsets of the job records of a section (R235 reserves the ids 0x8000 to 0xFFFF that they name). -/
def sceneRecords (b : List Byte) (stop : Nat) : Nat → Nat → List Nat
  | 0, _ => []
  | fuel + 1, o => if o + 9 > stop then [] else o :: sceneRecords b stop fuel (o + 9 + 2 * numAt b (o + 7) 2)

namespace State

/-- The chip id after the command. -/
def idAfter (s : State) (w : Nat) (b : List Byte) : Nat :=
  match sectionAt b w 0 with | some (o, _) => numAt b o 2 | none => s.chipId

/-- The link enables after the command. -/
def enableAfter (s : State) (w : Nat) (b : List Byte) (l : Nat) : Bool :=
  match sectionAt b w 1 with | some (o, _) => (numAt b o 2).testBit l | none => (s.link l).enabled

/-- R348: the company's allocation may change: it runs nothing and has no context outside OPEN. -/
def creditsFree (s : State) (c : Nat) : Bool :=
  (s.company c).mode != .running &&
  s.contexts.all (fun p => !CtxRec.valid p.2.record.toNat || s.jobCompany (s.contextJob p.1) != c || p.2.state == .opened)

/-- The companies whose allocation the section changes. -/
def creditsChanged (s : State) (b : List Byte) (o : Nat) : List Nat :=
  (List.range 32).filter (fun c => (List.range 16).any (fun l => (List.range 4).any (fun vc =>
    SMap.get 0 (s.link l).alloc (vc * 32 + c) != creditField b o l vc c)))

/-! ### Checks -/

/-- R236, R237: one routing entry for chip `dest`. -/
def checkRoute (s : State) (w : Nat) (b : List Byte) (dest e at_ : Nat) : Check :=
  let port (j : Nat) := bitsOf e (5 * j) 5
  let ports := (List.range 4).map port
  firstFail [
    need (ports.all (fun p => p ≤ 16 || p == 31)) St.reservedSet at_,
    need (bitsOf e 24 8 == 0) St.reservedSet (at_ + 3),
    need (if dest == s.idAfter w b then port 0 == 16 else !ports.contains 16) St.denied at_,
    need (ports.all (fun p => p ≥ 16 || s.enableAfter w b p)) St.denied at_]

/-- R233, R235, R236, R241, R244, R246: one section's content. -/
def checkSection (s : State) (w : Nat) (b : List Byte) (id o n : Nat) : Check :=
  match id with
  | 0 => firstFail [need (numAt b o 2 < 0x8000) St.reservedSet o]
  | 2 => firstFail [
      (List.range 2048).findSome? (fun i =>
        let v := numAt b (o + 2 * i) 2
        need (v == 0 || (65 ≤ v && v ≤ 512)) St.badSize (o + 2 * i)),
      (List.range 16).findSome? (fun l =>
        need (((List.range 128).map (fun i => 2 * numAt b (o + 2 * (128 * l + i)) 2)).sum ≤ 1024) St.badSize (o + 256 * l))]
  | 3 =>
    let set := numAt b o 1
    let first := numAt b (o + 1) 2
    firstFail [
      need (n == 5 + 4 * routeCount b o) St.badSize (o + 3),
      need (set ≤ 1) St.denied o,
      need (first + routeCount b o ≤ 32768) St.denied (o + 1),
      (List.range (routeCount b o)).findSome? (fun i => s.checkRoute w b (first + i) (routeField b o i) (o + 5 + 4 * i))]
  | 4 => firstFail [
      need (numAt b o 1 ≤ 1) St.reservedSet o,
      need (numAt b o 1 == 1 || numAt b (o + 1) 1 ≤ 15) St.denied (o + 1)]
  | 5 =>
    let rs := sceneRecords b (o + n) n o
    firstFail [
      rs.findSome? (fun r => (List.range (2 + numAt b (r + 7) 2)).findSome? (fun i =>
        let p := if i == 0 then r + 1 else if i == 1 then r + 3 else r + 9 + 2 * (i - 2)
        need (numAt b p 2 < 0x8000) St.reservedSet p)),
      rs.findSome? (fun r => need (numAt b (r + 7) 2 ≤ 64) St.badSize (r + 7)),
      need ((rs.map (fun r => 9 + 2 * numAt b (r + 7) 2)).sum == n) St.badSize
        (if rs.any (fun r => numAt b (r + 7) 2 == 0) then (rs.find? (fun r => numAt b (r + 7) 2 == 0)).getD o + 7 else o - 4)]
  | _ => none

/-- R348: the length of a section of fixed size. -/
def sectionLength (id : Nat) : Option Nat :=
  match id with
  | 0 | 1 => some 2
  | 2 => some 4096
  | 4 => some 10
  | _ => none

/-- R330, R348: the sections in order, each with its header first. -/
def checkSections (s : State) (w : Nat) (b : List Byte) : List Nat → Nat → Check
  | [], o => need (o == b.length) St.badSize o
  | id :: t, o =>
    let n := numAt b (o + 4) 4
    firstFail [
      need (o + 8 ≤ b.length) St.badSize o,
      need (numAt b (o + 1) 3 == 0) St.reservedSet (o + 1),
      need (o + 8 + n ≤ b.length && (match sectionLength id with | some m => n == m | none => id != 3 || n ≥ 5)) St.badSize (o + 4),
      need (numAt b o 1 == id) St.denied o,
      s.checkSection w b id (o + 8) n,
      s.checkSections w b t (o + 8 + n)]

/-! ### Effects -/

/-- R221, R238, R387: a link enabled trains unless it is up; one that is no longer enabled goes down. -/
def enableLink (s : State) (l : Nat) (on : Bool) : State :=
  let k := s.link l
  if on then
    if k.enabled && k.state != .down then s else s.setLink l { emptyLink k .training with enabled := true }
  else if k.enabled then (s.setLink l { emptyLink k .down with enabled := false }).dropPeers l
  else s

/-- R233, R235: credits that this end advertises anew on links that are up. -/
def advertiseMore (s old : State) : State :=
  (List.range 16).foldl (fun s l =>
    if !s.linkLive l then s
    else
      let was := old.advertised l
      (s.advertised l).foldl (fun s p =>
        let more := p.2 - SMap.get 0 was p.1
        if more == 0 then s else s.updLink l (fun k => { k with owed := SMap.set 0 k.owed p.1 (SMap.get 0 k.owed p.1 + more) })) s) s

/-- R225: this chip's id told to the neighbours. -/
def tellId (s : State) : State :=
  (List.range 16).foldl (fun s l => if s.linkLive l then s.sendControl l (Lc.make 6 0 false 0 0 0 0 s.chipId l) else s) s

/-- One section applied. -/
def applySection (s : State) (w : Nat) (b : List Byte) (q : Nat × Nat × Nat) : State :=
  let o := q.2.1
  match q.1 with
  | 0 => { s with chipId := numAt b o 2 }.tellId
  | 1 => (List.range 16).foldl (fun s l => s.enableLink l ((numAt b o 2).testBit l)) s
  | 2 => (List.range 16).foldl (fun s l => s.updLink l (fun k => { k with
      alloc := SMap.setMany 0 [] ((List.range 128).map (fun i => (i, creditField b o l (i / 32) (i % 32)))) })) s
  | 3 =>
    let base := numAt b o 1 * 32768 + numAt b (o + 1) 2
    { s with
      swapAt := some (Cmd.field w 8 8)
      routesShadow := SMap.setMany 0xFFFFF s.routesShadow
        ((List.range (routeCount b o)).map (fun i => (base + i, BitVec.ofNat 32 (routeField b o i)))) }
  | 4 =>
    let t := BitVec.ofNat 64 (numAt b (o + 2) 8)
    if numAt b o 1 == 1 then { s with town := { s.town with count := t, master := true, parent := none, onReference := false } }.gainSync
    else { s with town := { s.town with master := false, parent := some (numAt b (o + 1) 1), synced := false, agreed := 0 } }
  | _ =>
    (sceneRecords b (o + q.2.2) q.2.2 o).foldl (fun s r =>
      let j := numAt b r 1
      let t : Scene :=
        { root := numAt b (r + 1) 2, parent := numAt b (r + 3) 2, margin := numAt b (r + 5) 2,
          children := (List.range (numAt b (r + 7) 2)).map (fun i => numAt b (r + 9 + 2 * i) 2) }
      (s.updJob j (fun k => { k with scene := some t })).sceneProgress j) s

/-- R348: every section applied. -/
def applySections (s : State) (w : Nat) : State :=
  let b := s.block w
  let s' := (sectionsOf b (sectionIds w) 0).foldl (fun s q => s.applySection w b q) s
  s'.advertiseMore s

end State

def fabricConfigSheet : Sheet :=
  { opcode := 0x50, deviceOnly := true, hasData := true, concerns := false, used := [(0, 4), (8, 8)]
    coded := fun w => reservedBits (Cmd.field w 0 4) (maskOf 6 31) (bodyAt 0)
    pre := fun s _ w =>
      let b := s.block w
      firstFail [
        need (s.idAfter w b == s.chipId || !s.jobs.any (fun p => JobRec.valid p.2.record.toNat)) St.wrongState noField,
        (match sectionAt b w 2 with
          | some (o, _) => need ((s.creditsChanged b o).all s.creditsFree) St.busy noField
          | none => none),
        need (!(Cmd.field w 0 4).testBit 3 || Cmd.field w 8 8 ≥ s.now + 1000) St.wrongState (bodyAt 8),
        s.checkSections w b (sectionIds w) 0]
    run := fun s _ w => .done (s.applySections w) 0 }

/-- R348. -/
def execFabricConfig (ring : Nat) (s : State) : Answer := .next (s.serve ring fabricConfigSheet)

end Sys2Proof.Machine
end

