-- ==== Sys2Proof/Machine/HardLimit.lean ====
section
/-! DEFINITION. Temperatures, input power, the hard limit and its stretch levels (R360, R372 to R375, R394, R444). -/
namespace Sys2Proof.Machine

namespace State

/-- R372: the detection thresholds: the larger of the budget in force and those of the running set's admissions. -/
def peakThreshold (s : State) : Nat := (s.running.map (·.budgetPeak)).foldl max s.peak
def sustainedThreshold (s : State) : Nat := (s.running.map (·.sustained)).foldl max s.sustained

/-- R372, R444: the lowest trigger code that is present. -/
def triggerCode (s : State) : Nat := ((List.range 4).find? s.triggers.toNat.testBit).getD 0 + 1

/-- R374: the timing taint of every launched or running company. -/
def taintActive (s : State) : State :=
  (List.range 32).foldl (fun s c =>
    let m := (s.company c).mode
    if m == .launched || m == .running then s.setTaint c else s) s

/-- R373, R375: the triggers of 50 µs after the recognition that raised the level to 1 are looked at once: one still present raises it to 2. -/
def settleRise (s : State) : State :=
  if !s.riseArmed || s.now < s.stretchAt + 12500 then s
  else
    let s := { s with riseArmed := false }
    if s.stretch == 1 && s.triggers != 0 then ({ s with stretch := 2 }).postPower s.triggerCode 0 0 else s

/-- R373, R375: the triggers present change. A trigger at level 0 raises the level to 1. -/
def setTriggers (s : State) (t : BitVec 4) : State :=
  let s := s.settleRise
  let now := s.now
  let s := { s with stretchSince := if s.triggers != 0 || t != 0 then now else s.stretchSince, triggers := t }
  if t = 0 ∨ s.stretch ≠ 0 then s
  else
    let s := { s with stretch := 1, stretchAt := now, riseArmed := true, fellAt := none }
    s.taintActive.postPower s.triggerCode 0 0

/-- One trigger, numbered by its code less 1, comes or goes. -/
def setTrigger (s : State) (i : Nat) (present : Bool) : State :=
  let m : BitVec 4 := BitVec.ofNat 4 (2 ^ i)
  s.setTriggers (if present then s.triggers ||| m else s.triggers &&& ~~~m)

/-- R374: a ballast ramp that paused goes on: it ends later by the pause, whose energy is counted. -/
def resumeRamp (s : State) (c : Nat) : State :=
  match (s.company c).at_ with
  | .ramp act start done =>
    if start < done && done > s.stretchAt then
      let p := s.now - max start s.stretchAt
      let level := s.ballastAt c s.now
      (s.chargeBallast c level level p).updCompany c (fun k => { k with
        at_ := .ramp act (start + p) (done + p)
        waves := k.waves.map (fun v => if v.taper then v else { v with first := v.first + p }) })
    else s
  | _ => s

/-- The device measures and acts on its triggers (R389: from ready on). -/
def watches (s : State) : Bool := s.ready && (s.power == .run || s.power == .interval || s.power == .dim)

end State

/-- R360: the sensors are read: from boot step 1 on, in RUN, INTERVAL and DIM. -/
def State.sensorsOn (s : State) : Bool := s.power != .off && s.power != .standby && !s.resetHeld

/-- R360, R372, R394, R404: every district's reading is taken, during the boot too; 105 °C is the thermal trigger, 115 °C trips the chip. -/
def execTemperatureReading (readings : List Nat) (s : State) : Answer :=
  .next (if !s.sensorsOn then s
    else
      let rs := (List.range 32).map (fun d => (d, readings.getD d 720 % 65536))
      let s := { s with temps := SMap.setMany 720 s.temps rs }
      match rs.find? (fun r => decide (r.2 ≥ 1840)) with
      | some r => s.fatalFault 5 r.1
      | none => if s.watches then s.setTrigger 3 (rs.any (fun r => decide (r.2 ≥ 1680))) else s)

/-- R372: VR_HOT_N low for 100 ns or longer is a trigger until it rises. -/
def execVrHotN (low : Bool) (s : State) : Answer :=
  .next (if s.watches then s.setTrigger 0 low
    else { s with triggers := if low then s.triggers ||| 1 else s.triggers &&& 14 })

/-- R372: a 1 µs mean of the input power, held against both thresholds. -/
def execPowerMeasurement (watts : Nat) (s : State) : Answer :=
  .next (if !s.watches then s
    else
      let w := watts % 65536
      let above := if w > s.sustainedThreshold then min (s.overSustained + 1) 10000 else 0
      let s := { s with watts := w, overSustained := above }
      let t := s.triggers.toNat % 2 + 2 * b2n (decide (w > s.peakThreshold)) + 4 * b2n (above == 10000) + 8 * b2n (s.triggers.toNat.testBit 3)
      s.setTriggers (BitVec.ofNat 4 t))

/-- R373: a trigger still present 50 µs after the recognition that raised the level to 1. -/
def execStretchLevelRise (s : State) : Answer := .next s.settleRise

/-- R373 to R375: 100 µs without a trigger since the last one or since the previous fall. -/
def execStretchLevelFall (s : State) : Answer :=
  .next (if s.stretch == 0 || s.triggers != 0 || s.now < s.stretchSince + 25000 then s
    else if s.stretch == 1 then
      let s := (List.range 32).foldl (fun s c => s.resumeRamp c) s
      let t := s.now
      ({ s with stretch := 0, stretchSince := t, riseArmed := false, fellAt := some t }).postPower 6 0 0
    else
      let t := s.now
      { s with stretch := s.stretch - 1, stretchSince := t, riseArmed := false })

end Sys2Proof.Machine
end

