-- ==== Sys2Proof/Machine/Plans.lean ====
section
/-! DEFINITION. LOAD_PLAN and LOAD_DIRECTORY: their checks, the shadow loads and their activation, the choice of a plan (R203, R204, R206, R247
to R259, R275, R348). -/
namespace Sys2Proof.Machine

/-! ### The finder's history (R205, R206) -/

/-- R206: the byte of an EMPTY entry: one of the 15 codes that no exponent of a posit32 magnitude (-120 to +120) takes. -/
def historyEmpty : Byte := BitVec.ofNat 8 (121 + Config.historyCode % 15)

/-- Bytes of a bucket's history: W entries a channel. -/
def historyBytes (record : Nat) (i : ImageShape) : Nat := i.channels * Finder.window (CtxRec.finder record)

/-! ### Reserved bits -/

/-- R247. -/
def jobReserved (x : Nat) : Nat := x &&& (maskOf 12 15 + maskOf 21 31 + maskOf 48 63 + maskOf 176 191 + maskOf 608 1023)

/-- R249, R203. -/
def contextReserved (x : Nat) : Nat :=
  x &&& (maskOf 10 15 + maskOf 30 31 + maskOf 108 127 + maskOf 204 223 + maskOf 248 255 + maskOf 296 319 + maskOf 576 1023)

/-- R203: reserved bits of the finder field, in place; R21, R34: reserved codes of the owner's fields. -/
def ownerReserved (x : Nat) : Nat :=
  (x &&& (2 ^ 335 + maskOf 360 383)) + (if CtxRec.outFormat x == 0 then 2 ^ 200 else 0) +
  (if CtxRec.rounding x > 1 then 2 ^ 202 else 0)

/-- R257: reserved bits of a plan record: its own, and the fields that its role does not use. -/
def planReserved (x : Nat) : Nat :=
  let r := PlanRec.role x
  let n := if r == 2 || r == 3 then PlanRec.fanIn x else 0
  (x &&& (maskOf 8 15 + maskOf 48 63 + maskOf 224 255)) + (if r > 4 then 1 else 0) +
  (if r == 1 || r == 4 then x &&& maskOf 4 7 else 0) + (if r == 3 || r == 4 then x &&& maskOf 32 47 else 0) +
  ((List.range 8).map (fun j => if j ≥ n then x &&& maskOf (64 + 16 * j) (79 + 16 * j) else 0)).sum

/-- The first reserved bit that is set, for a structure at a byte of the block. -/
def reservedIn (bad at_ : Nat) : Check := if bad == 0 then none else some (St.reservedSet, at_ + lowByte bad)

/-! ### Checks of records -/

/-- R258: a plan record that is not EMPTY. -/
def checkPlanRecord (chip x at_ : Nat) : Check :=
  let r := PlanRec.role x
  let inner := r == 2 || r == 3
  let kids := if inner then PlanRec.children x else []
  if r == 0 then none
  else firstFail [
    reservedIn (planReserved x) at_,
    need (!inner || (1 ≤ PlanRec.fanIn x && PlanRec.fanIn x ≤ 8)) St.badSize at_,
    need (!(r == 3 || r == 4) || PlanRec.contributors x ≥ 1) St.badSize (at_ + 24),
    need (!(r == 1 || r == 4) || PlanRec.contributes x) St.denied at_,
    need (!(r == 1 || r == 2) || PlanRec.parent x < 0x8000) St.denied (at_ + 4),
    need (kids.eraseDups.length == kids.length && kids.all (fun c => c != chip && c < 0x8000)) St.denied (at_ + 8)]

/-- R204, R250: sizes and counts of an owner's context record for a bucket of `elements` elements. -/
def ownerSizes (x elements at_ : Nat) : Check :=
  let f := CtxRec.finder x
  firstFail [
    need (!Finder.enable f || Finder.channelLength f != 0) St.badSize (at_ + 42),
    need (!Finder.enable f || (elements % Finder.channelLength f == 0 && elements / Finder.channelLength f ≤ 4096)) St.badSize (at_ + 42)]

/-- R204, R250: the other conditions on an owner's context record, in field order; `loaded` says which update-engine entries are loaded. -/
def ownerOthers (x elements : Nat) (loaded : Nat → Bool) (at_ : Nat) : Check :=
  let f := CtxRec.finder x
  let i := ImageShape.of x elements
  let arr := elements / 16
  let fits (base n off : Nat) : Check := need (base + n ≤ 2 ^ 27) St.denied (at_ + off)
  firstFail [
    need (CtxRec.optimizer x ≥ 16 && loaded (CtxRec.optimizer x)) St.denied (at_ + 24),
    need (CtxRec.outFormat x != 3) St.denied (at_ + 25),
    need (!Finder.enable f || CtxRec.outFormat x == 1) St.denied (at_ + 40),
    need (!Finder.enable f || (Finder.outliers f ≤ 64 && Finder.outliers f < Finder.channelLength f)) St.denied (at_ + 41),
    fits (CtxRec.master x) arr 48, fits (CtxRec.moment0 x) arr 52, fits (CtxRec.moment1 x) arr 56,
    fits (CtxRec.image x) (4 * i.flits) 60,
    fits (CtxRec.history x) (if i.finder then ceilDiv (historyBytes x i) 64 else 0) 64,
    fits (CtxRec.work x) (arr + elements / 4096) 68]

/-- R330: an owner's context record: reserved fields first, then sizes, then every other condition. -/
def checkOwner (x elements : Nat) (loaded : Nat → Bool) (at_ : Nat) : Check :=
  firstFail [reservedIn (ownerReserved x) at_, ownerSizes x elements at_, ownerOthers x elements loaded at_]

/-- R250: the window and the landing region of a bucket, whose image has layout `i`, lie inside the slice. -/
def checkRegions (x : Nat) (i : ImageShape) (at_ : Nat) : Check :=
  firstFail [
    need (CtxRec.bufferBase x + i.elements / 32 ≤ 786432) St.denied (at_ + 4),
    need (CtxRec.landingBase x + i.valueUnits ≤ 786432) St.denied (at_ + 8)]

namespace State

/-! ### Stores as a load leaves them -/

/-- A load of a job's records laid over the active ones. -/
def plansWith (s : State) (l : Option Load) : SMap (BitVec 256) :=
  match l with | some l => SMap.setMany 0 s.plans l.plans | none => s.plans

def recordWith (s : State) (l : Option Load) (x : Nat) : Nat :=
  match l with
  | some l => match l.contexts.reverse.find? (fun p => p.1 == x) with
    | some p => p.2.toNat
    | none => (s.context x).record.toNat
  | none => (s.context x).record.toNat

/-- The bucket entry that names a context, in a directory. -/
def entryNaming (d : SMap (BitVec 64)) (x : Nat) : Option (Nat × Nat) :=
  (d.find? (fun p => DirEntry.valid p.2.toNat && DirEntry.context p.2.toNat == x)).map (fun p => (p.1, p.2.toNat))

/-- R254, R256: a job's entries laid over the directory; an entry that is not valid takes out only an entry of its own job. -/
def directoryWith (s : State) (j : Nat) (l : Option Load) : SMap (BitVec 64) :=
  match l with
  | none => s.directory
  | some l => SMap.setMany 0 s.directory (l.entries.filter (fun p =>
      DirEntry.valid p.2.toNat || DirEntry.job (SMap.get 0 s.directory p.1).toNat == j))

/-- R250, R269: an update-engine entry is loaded at the activation of a load: at once, or at a scene change, which first installs what is
queued. -/
def engineLoaded (s : State) (atOnce : Bool) (e : Nat) : Bool := (SMap.get none (if atOnce then s.engine else s.engineLater) e).isSome

/-- R273: an update that a cancelled context of the job had begun has yet to end. -/
def lateUpdate (s : State) (j : Nat) : Bool :=
  !s.fatal && (s.jobContexts j).any (fun x => (s.context x).state == .cancelled && (s.context x).cancelledUpdate && s.contextLive x)

/-- R256: a load of a job's directory entries is active at once. -/
def directoryAtOnce (s : State) (j : Nat) : Bool :=
  !(s.jobRuns j && s.directory.any (fun p => DirEntry.valid p.2.toNat && DirEntry.job p.2.toNat == j))

/-! ### LOAD_PLAN (R348) -/

end State

namespace PlanCmd
def job (w : Nat) : Nat := Cmd.field w 0 1
def epoch (w : Nat) : Nat := Cmd.field w 2 2
def step (w : Nat) : Nat := Cmd.field w 8 8
def first (w : Nat) : Nat := Cmd.field w 16 4
def plans (w : Nat) : Nat := Cmd.field w 20 2
def contexts (w : Nat) : Nat := Cmd.field w 24 2
/-- Byte of plan record i, and of context entry i. -/
def planAt (i : Nat) : Nat := 128 + 32 * i
def contextAt (w i : Nat) : Nat := 128 + 32 * plans w + 136 * i
/-- The load of a command's block. -/
def load (w : Nat) (b : List Byte) : Load :=
  { epoch := epoch w, step := step w, job := some (BitVec.ofNat 1024 (numAt b 0 128))
    plans := (List.range (plans w)).map (fun i => (first w + i, BitVec.ofNat 256 (numAt b (planAt i) 32)))
    contexts := (List.range (contexts w)).map (fun i =>
      (numAt b (contextAt w i) 2, BitVec.ofNat 1024 (numAt b (contextAt w i + 8) 128))) }
end PlanCmd

namespace State

/-- R250, R330, R348: a context entry of the block; `company` is that of the job, `dir` the directory as it will stand. Of an entry whose
record is not valid only the number and the reserved bytes are checked. -/
def checkContext (s : State) (w : Nat) (b : List Byte) (company : Nat) (dir : SMap (BitVec 64)) (i : Nat) : Check :=
  let o := PlanCmd.contextAt w i
  let n := numAt b o 2
  let x := numAt b (o + 8) 128
  let at_ := o + 8
  let k := CtxRec.core x
  let valid := CtxRec.valid x
  let here : Option (Nat × Nat) := if valid then entryNaming dir n else none
  let mine : Option Nat := (here.filter (fun p => DirEntry.owner p.2 == s.chipId)).map (fun p => DirEntry.elements p.2)
  firstFail [
    reservedIn (numAt b (o + 2) 6) (o + 2),
    if valid then reservedIn (contextReserved x) at_ else none,
    if mine.isSome then reservedIn (ownerReserved x) at_ else none,
    mine.bind (fun e => ownerSizes x e at_),
    need (n < 4096) St.denied o,
    if !valid then none else firstFail [
    need (CtxRec.job x == PlanCmd.job w) St.denied at_,
    need (s.coreExists k && (s.company company).districts.toNat.testBit (k / 64) && decide (k % 64 / 8 < s.scriptRows company)) St.denied (at_ + 2),
    need (CtxRec.bufferBase x < 786432) St.denied (at_ + 4),
    need (CtxRec.landingBase x < 786432) St.denied (at_ + 8),
    here.bind (fun p =>
      checkRegions x (.known s.chipId (DirEntry.owner p.2) p.1 (PlanCmd.epoch w) x (DirEntry.elements p.2)) at_),
    mine.bind (fun e => ownerOthers x e (s.engineLoaded (!s.jobRuns (PlanCmd.job w))) at_)]]

/-- R250: valid contexts on each core once these context records are written in order: at most 16. -/
def windowsWith (s : State) (cs : List (Nat × BitVec 1024)) : Bool :=
  let rec_ (x : Nat) : Nat := match cs.reverse.find? (fun p => p.1 == x) with
    | some p => p.2.toNat
    | none => (s.context x).record.toNat
  let cores := (((s.contexts.map (·.1) ++ cs.map (·.1)).eraseDups.map rec_).filter CtxRec.valid).map CtxRec.core
  cores.all (fun k => decide (cores.count k ≤ 16))

/-- R250: no core carries more than 16 windows once job `j`'s load is active, nor once every other job's waiting load is active as well. -/
def windowsFit (s : State) (j : Nat) (l : Load) : Bool :=
  let others := s.jobs.flatMap (fun p => if p.1 == j then [] else match p.2.planLoad with | some m => m.contexts | none => [])
  s.windowsWith l.contexts && s.windowsWith (others ++ l.contexts)

/-- R247, R248, R250, R258, R330: the block of a LOAD_PLAN. -/
def checkPlanBlock (s : State) (w : Nat) (b : List Byte) : Check :=
  let j := numAt b 0 128
  let dir := s.directoryWith (PlanCmd.job w) (s.job (PlanCmd.job w)).dirLoad
  firstFail [
    reservedIn (jobReserved j) 0,
    need (bitsOf j 0 8 == PlanCmd.job w) St.denied 0,
    (List.range (PlanCmd.plans w)).findSome? (fun i => checkPlanRecord s.chipId (numAt b (PlanCmd.planAt i) 32) (PlanCmd.planAt i)),
    (List.range (PlanCmd.contexts w)).findSome? (s.checkContext w b (JobRec.company j) dir),
    need (s.windowsFit (PlanCmd.job w) (PlanCmd.load w b)) St.noResource noField]

/-! ### Activation (R251, R256, R259) -/

/-- R259: the plan of a bucket in reproducible mode and in the first step of an epoch. -/
def fixedPlan (s : State) (x : Nat) : Nat :=
  match (s.context x).bucket with
  | some b => b % DirEntry.plans (s.bucketEntry x)
  | none => 0

/-- R206: every entry of a context's finder history becomes EMPTY, where this chip owns its bucket and the finder runs. -/
def emptyHistory (s : State) (x : Nat) : State :=
  let r := (s.context x).record.toNat
  let i := s.imageShape x
  if DirEntry.owner (s.bucketEntry x) == s.chipId && s.contextLive x && i.finder then
    s.putBytes .exchange (64 * CtxRec.history r) (List.replicate (historyBytes r i) historyEmpty)
  else s

/-- A context at the start of a step. -/
def openContext (k : Context) (step plan : Nat) : Context :=
  { record := k.record, bucket := k.bucket, step := step, fill := k.fill, plan := plan, nextPlan := plan, planTicks := k.planTicks,
    hasImage := k.hasImage }

/-- R251, R259: every context of a job OPEN at its first step of an epoch. -/
def openContexts (s : State) (j : Nat) (fresh : Bool) : State :=
  (s.jobContexts j).foldl (fun s x =>
    let k := s.context x
    let k := { k with fill := if fresh || k.state == .cancelled then 0 else k.fill, planTicks := [] }
    s.setContext x (openContext k (s.job j).step (s.fixedPlan x))) s

/-- R254: the buckets that the directory gives the contexts; a context that takes another bucket loses its stored image, and its history is
emptied. -/
def relink (s : State) : State :=
  (s.contexts.map (·.1)).foldl (fun s x =>
    let b := (entryNaming s.directory x).map (·.1)
    if (s.context x).bucket == b then s
    else (s.updContext x (fun k => { k with bucket := b, hasImage := false })).emptyHistory x) s

/-- R256, R273, R287: a LOAD_PLAN becomes active. The scene changes and packets of an earlier run of the job count no more. -/
def activatePlan (s : State) (j : Nat) (l : Load) : State :=
  let s := { s with plans := s.plansWith (some l) }
  let s := l.contexts.foldl (fun s p =>
    (s.updContext p.1 (fun k => { record := p.2, bucket := k.bucket, hasImage := k.hasImage && k.record == p.2 })).emptyHistory p.1) s
  let s := s.relink
  let r := l.job.getD 0
  let s := { s with seen := s.seen.filter (fun q => q.2.1 != j) }
  let s := s.updJob j (fun k => { k with
    record := r, epoch := l.epoch, step := JobRec.startStep r.toNat, aborted := none, applied := none, due := none, planLoad := none
    abortAt := if k.aborted.isSome then none else k.abortAt
    scene := k.scene.map (fun t => { t with reports := [], sent := none }) })
  s.openContexts j false

/-- R256: a LOAD_DIRECTORY becomes active. The contexts of an aborted job stay CANCELLED (R251, R273). -/
def activateDirectory (s : State) (j : Nat) (l : Load) : State :=
  let s := { s with directory := s.directoryWith j (some l) }.relink
  let s := s.updJob j (fun k => { k with epoch := l.epoch, dirLoad := none })
  if (s.job j).aborted.isSome then s else s.openContexts j false

/-- R256: the loads of a job whose step is no later than the one that a scene change has ended. -/
def activateLoads (s : State) (j step : Nat) : State :=
  let k := s.job j
  let s := match k.planLoad with
    | some l => if l.step ≤ step then s.activatePlan j l else s
    | none => s
  match k.dirLoad with
  | some l => if l.step ≤ step then s.activateDirectory j l else s
  | none => s

/-- R256, R273: a LOAD_PLAN written: a job without an active record, or an aborted one, takes it at once. -/
def writePlan (s : State) (j : Nat) (l : Load) : State :=
  if s.jobRuns j then s.updJob j (fun k => { k with planLoad := some l })
  else (s.activatePlan j l).sceneProgress j

/-- R256: a LOAD_DIRECTORY written: a job without active entries takes it at once as well. -/
def writeDirectory (s : State) (j : Nat) (l : Load) : State :=
  if s.directoryAtOnce j then (s.activateDirectory j l).sceneProgress j else s.updJob j (fun k => { k with dirLoad := some l })

end State

def loadPlanSheet : Sheet :=
  { opcode := 0x51, deviceOnly := true, hasData := true, concerns := false, used := [(0, 1), (2, 2), (8, 8), (16, 4), (20, 2), (24, 2)]
    size := fun w => need (Cmd.length w == 128 + 32 * PlanCmd.plans w + 136 * PlanCmd.contexts w) St.badSize 4
    pre := fun s _ w =>
      let b := s.block w
      let j := numAt b 0 128
      firstFail [
        need (s.formed (JobRec.company j)) St.wrongState noField,
        need ((s.company (JobRec.company j)).reproducible == JobRec.reproducible j) St.wrongState noField,
        need (PlanCmd.first w + PlanCmd.plans w ≤ 65536) St.denied (bodyAt 16),
        s.checkPlanBlock w b]
    run := fun s _ w => .done (s.writePlan (PlanCmd.job w) (PlanCmd.load w (s.block w))) 0 }

/-- R348; R273: an update that the aborted run of the job has begun ends first. -/
def execLoadPlan (ring : Nat) (s : State) : Answer := .next (s.serve ring loadPlanSheet (fun w => !s.lateUpdate (PlanCmd.job w)))

/-! ### LOAD_DIRECTORY (R255, R348) -/

namespace DirCmd
def first (w : Nat) : Nat := Cmd.field w 16 4
def count (w : Nat) : Nat := Cmd.field w 20 4
def load (w : Nat) (b : List Byte) : Load :=
  { epoch := PlanCmd.epoch w, step := PlanCmd.step w
    entries := (List.range (count w)).map (fun i => (first w + i, BitVec.ofNat 64 (numAt b (8 * i) 8))) }
end DirCmd

namespace State

/-- R204, R250, R255: an entry of the block. -/
def checkEntry (s : State) (w : Nat) (dir : SMap (BitVec 64)) (b : List Byte) (i : Nat) : Check :=
  let e := numAt b (8 * i) 8
  let o := 8 * i
  let l := (s.job (PlanCmd.job w)).planLoad
  let plans := s.plansWith l
  let recs := (List.range (DirEntry.plans e)).map (fun p => (SMap.get 0 plans (DirEntry.planBase e + p)).toNat)
  let mine := DirEntry.owner e == s.chipId
  let x := s.recordWith l (DirEntry.context e)
  if !DirEntry.valid e then none
  else firstFail [
    need (16 ≤ DirEntry.size e && DirEntry.size e ≤ 256) St.badSize o,
    need (DirEntry.job e == PlanCmd.job w) St.denied (o + 1),
    need (DirEntry.owner e < 0x8000) St.denied (o + 2),
    need (DirEntry.planBase e + DirEntry.plans e ≤ 65536 && recs.all (fun p => PlanRec.role p != 0)) St.denied (o + 4),
    need (recs.all (fun p => PlanRec.isRoot p == mine)) St.denied (o + 4),
    need (CtxRec.valid x && CtxRec.job x == PlanCmd.job w) St.denied (o + 6),
    need (dir.all (fun p => !DirEntry.valid p.2.toNat || p.1 == DirCmd.first w + i || DirEntry.context p.2.toNat != DirEntry.context e))
      St.denied (o + 6),
    (checkRegions x (.known s.chipId (DirEntry.owner e) (DirCmd.first w + i) (PlanCmd.epoch w) x (DirEntry.elements e)) 0).map (fun _ => (St.denied, o)),
    (if mine then (checkOwner x (DirEntry.elements e) (s.engineLoaded (s.directoryAtOnce (PlanCmd.job w))) 0).map (fun c => (c.1, o)) else none)]

end State

def loadDirectorySheet : Sheet :=
  { opcode := 0x52, deviceOnly := true, hasData := true, concerns := false, used := [(0, 1), (2, 2), (8, 8), (16, 4), (20, 4)]
    size := fun w => firstFail [
      need (DirCmd.count w != 0) St.badSize (bodyAt 20),
      need (Cmd.length w == 8 * DirCmd.count w) St.badSize 4]
    pre := fun s _ w =>
      let b := s.block w
      let dir := s.directoryWith (PlanCmd.job w) (some (DirCmd.load w b))
      firstFail [
        need (DirCmd.first w + DirCmd.count w ≤ 2097152) St.denied (bodyAt 16),
        (List.range (DirCmd.count w)).findSome? (s.checkEntry w dir b)]
    run := fun s _ w => .done (s.writeDirectory (PlanCmd.job w) (DirCmd.load w (s.block w))) 0 }

/-- R348; R273: an update that the aborted run of the job has begun ends first. -/
def execLoadDirectory (ring : Nat) (s : State) : Answer :=
  .next (s.serve ring loadDirectorySheet (fun w => !s.lateUpdate (PlanCmd.job w)))

end Sys2Proof.Machine
end

