-- ==== Sys2Proof/Machine/PowerStates.lean ====
section
/-! DEFINITION. Power states, resets and retention (R349, R370, R377 to R389, R394, R408, R409). -/
namespace Sys2Proof.Machine

namespace State

/-! ### Retention (R387) -/

/-- R387, DIM: what the islands of a district lose is at its Reset value at the wake; its slices come out of self-refresh. -/
def wakeDistrict (s : State) (d : Nat) : State :=
  let mine (k : Nat) : Bool := k / 64 == d
  let t := s.now
  ((s.clearStores mine).mapCores mine (fun k => { freshCore k with lastRefresh := t })).clearDistricts mine

/-- R387: the cue classes of every company return to their defaults. -/
def clearCues (s : State) : State :=
  let d : Company := {}
  { s with companies := s.companies.map (fun p => (p.1, { p.2 with clock := d.clock, trap := d.trap, plan := d.plan })) }

/-- R380: no company is launched or running. -/
def noneActive (s : State) : Bool :=
  s.companies.all (fun p => p.2.mode != .launched && p.2.mode != .running)

/-- R380: every context is OPEN, LANDED or CANCELLED. -/
def contextsQuiet (s : State) : Bool :=
  s.contexts.all (fun p => p.2.state == .opened || p.2.state == .landed || p.2.state == .cancelled)

/-- R370, R384: the districts that wake one by one after a device reset: all of them where the islands were gated. -/
def sleepers (s : State) : List Nat :=
  if s.power == .interval || s.power == .dim || !s.waking.isEmpty then List.range 32 else []

/-- A fault of the ROM, the fuses or the DRAM stack that the boot meets (R394); no reset mends it. -/
def bootError : SramPlace → Bool
  | .boot _ => true
  | _ => false

/-- R379, R387: the whole chip returned to its defaults, but for the part, the pins and the model's own fields. -/
def wholeReset (s : State) : State :=
  { State.reset with
    pending := s.pending
    fresh := s.fresh
    part := s.part
    sram := s.sram.filter (fun e => bootError e.1)
    ready := false
    hostReset := s.hostReset
    power := .booting
    fuseMax := s.fuseMax
    triggers := s.triggers &&& 1
    bootLeaf := s.bootLeaf }

/-- R387: what stays besides while the rails are up: the memory given, the slices' refresh and scrub, the readings and the keys. -/
def poweredReset (s : State) (mem : Memory) (upsets : SMap Nat) : State :=
  { s.wholeReset with
    mem := mem
    upsets := upsets
    cores := s.cores.map (fun p => (p.1, freshCore p.2))
    temps := s.temps
    watts := s.watts
    bottomTree := s.bottomTree
    bottomLeaf := s.bottomLeaf
    bottomDraw := s.bottomDraw
    keyContext := s.keyContext
    smbus := s.smbus
    scrubNext := s.scrubNext }

/-- Memory outside the stage stores, from an address on. -/
def keptMemory (s : State) (lo : Nat) : Memory := s.mem.filter (fun p => decide (lo ≤ p.1) && decide (p.1 < 2 ^ 52))
def keptUpsets (s : State) (lo : Nat) : SMap Nat := s.upsets.filter (fun p => decide (lo ≤ p.1) && decide (p.1 < 2 ^ 52))

/-- R384, R387, RESET_N: slices, Exchange bank, foyer, device log and fatal record stay. The chip is held until RESET_N rises. -/
def warmReset (s : State) : State :=
  { s.poweredReset (s.keptMemory 0) (s.keptUpsets 0) with
    log := s.log, fatalRecord := s.fatalRecord, resetHeld := true, waking := s.sleepers }

/-- R384, R387, R408, R409: a power-on reset. One fuse of boot_count burns, the memory is zeroed and a fresh bottom tree begins. The chip is held
until RESET_N rises; `broken` says that the rails came up against R377. -/
def powerOn (s : State) (broken : Bool) : State :=
  { s.wholeReset with
    part := { s.part with bootCount := min (s.part.bootCount + 1) 4096 }
    bootLeaf := s.part.bootCount
    fresh := s.fresh + 1
    bottomDraw := s.fresh
    keyContext := s.part.lifecycle == 3
    resetHeld := true
    railsBroken := broken
    waking := s.sleepers }

/-- R387, STANDBY: slices, Exchange bank and house budget stay; the foyer is zeroed. -/
def enterStandby (s : State) : State :=
  { s.poweredReset (s.keptMemory (2 ^ 34)) (s.keptUpsets (2 ^ 34)) with
    power := .standby, sustained := s.sustained, peak := s.peak, ramp := s.ramp }

/-! ### DEVICE_RESET and the watchdog (R384, R385) -/

/-- R385: every company stops and every job aborts, without a record; no command completes. -/
def stopAll (s : State) : State :=
  let t := (List.range 32).foldl (fun t c =>
    if !t.formed c then t else if t.companyIdle c then t.endPair c true else t.finishStop c) s
  let t := (t.jobs.map (·.1)).foldl (fun t j => if JobRec.valid (t.job j).record.toNat then t.abortJob j (t.job j).step 1 else t) t
  { t with mem := s.mem, upsets := s.upsets, rings := s.rings }

/-- A company at its defaults, but for a ballast taper that runs on. -/
def taperOnly (k : Company) : Company :=
  { taperEnd := k.taperEnd, taperFrees := k.taperFrees, waves := k.waves, ballastEnergy := k.ballastEnergy, ballastSince := k.ballastSince }

/-- R387: a job at its defaults, but for its scene tree, which is fabric configuration. -/
def treeOnly (k : Job) : Job := { scene := k.scene.map (fun t => { t with reports := [], sent := none }) }

/-- R387, R401: the manager's data memory, the Exchange's SRAM and the ring headers are written anew by DEVICE_RESET. -/
def managerStore : SramPlace → Bool
  | .managerMemory => true
  | .exchangeSram _ => true
  | .control o => decide (o < 0x1000)
  | _ => false

/-- R385, R387: the stage manager, companies and job records reset; the device is on its way back to RUN, its islands waking if they slept. -/
def managerReset (s : State) (cmd : Option Waiting) : State :=
  let asleep := s.sleepers
  let s := ((s.stopAll.clearStores (fun _ => true)).clearDistricts (fun _ => true)).sramRenew managerStore
  let t := s.now
  { s with
    cores := s.cores.map (fun p => (p.1, freshCore p.2))
    companies := s.companies.map (fun p => (p.1, taperOnly p.2))
    street := []
    carriages := []
    rings := [(0, { state := .opened })]
    jobs := (s.jobs.filter (fun p => p.2.scene.isSome)).map (fun p => (p.1, treeOnly p.2))
    contexts := []
    plans := []
    directory := []
    engine := []
    engineQueue := []
    seen := []
    scope := 0
    challenge := none
    jtagIr := 1
    extestPins := []
    tdo := none
    perturb := []
    withheld := []
    fatal := false
    ready := false
    power := .run
    waking := asleep
    wakeSince := t
    transition := some ⟨.run, cmd⟩ }

end State

def deviceResetSheet : Sheet :=
  { opcode := 0x04, deviceOnly := true, concerns := false
    run := fun s ring w => .ended (s.managerReset (some ⟨ring, 0x04, BitVec.ofNat 32 (Cmd.tag w)⟩)) }

/-- R349, R385: it acts between the bundles of every core, as every stop does. -/
def execDeviceReset (ring : Nat) (s : State) : Answer :=
  .next (s.serve ring deviceResetSheet (fun _ => (List.range 32).all s.betweenBundles))

/-- R384, R394: the watchdog's record enters the device log; its event waits for the rings to be served again. -/
def execWatchdog (s : State) : Answer :=
  .next (if !s.ready || !(s.power == .run || s.power == .interval || s.power == .dim) || !(List.range 32).all s.betweenBundles then s
    else
      let r := s.deviceRecord 6 2 0 s.log.next
      let s := s.managerReset none
      let s := { s with log := s.log.push 256 r }
      s.updRing 0 (fun k => { k with queue := [s.deviceHeader 0x0C ++ toBytes 64 r.toNat] }))

/-! ### Resets of the whole chip (R378, R379, R384, R386) -/

/-- R377, R384: the rails rise, or one falls below its threshold. Whether they come up in the order of R377 is the board's, and free. -/
def execPowerOnReset (s : State) : Answer := .next (s.powerOn (Config.railsBroken s.fresh))

/-- R377, R384, R386: RESET_N goes low: a warm reset in every state but OFF; after rails that came up against R377, a power-on reset. -/
def execResetN (s : State) : Answer :=
  .next (if s.power == .off then s
    else if s.railsBroken then s.powerOn false
    else { s.warmReset with zeroing := if s.power == .booting then s.zeroing else 0 })

/-- R379: the rails are removed, and everything is lost. -/
def execPowerDown (s : State) : Answer := .next { s.wholeReset with power := .off }

/-- R378, R383: what step 2 of the boot writes as zero. -/
def State.zeroMemory (s : State) : State :=
  match s.zeroing with
  | 0 => s
  | 1 => { s with mem := s.keptMemory (2 ^ 34), upsets := s.keptUpsets (2 ^ 34) }
  | _ => { s with mem := [], upsets := [] }

/-- R378, R394, R419: the step at which the boot fails. -/
def State.bootFailure (s : State) : Option Nat :=
  let broken (i : Nat) : Bool := s.sram.any (fun e => e.1 == .boot i)
  if s.part.lifecycle.toNat > 3 || broken 1 then some 1 else if broken 2 then some 2 else none

/-- R377, R378, R383, R384, R394, R419: RESET_N rises where the chip is held; else the boot runs to its end and the stage manager serves the rings,
or it fails at step 1 or 2. Rails that came up against R377 keep it from its end. Islands that were gated wake in waves. -/
def execBoot (s : State) : Answer :=
  .next (if s.power != .booting then s
    else if s.resetHeld then { s with resetHeld := false }
    else if s.railsBroken then s
    else
      let bad := s.bootFailure
      let t := s.now
      let s := { (if bad == some 1 then s else s.zeroMemory) with power := .run, zeroing := 0, wakeSince := t }
      match bad with
      | some step => s.fatalFault 4 step
      | none => ({ s with ready := true }).setTriggers s.triggers)

/-- R409: the bottom tree is complete, within 4 s after ready. -/
def execBottomTreeComplete (s : State) : Answer := .next (if s.ready then { s with bottomTree := true } else s)

/-! ### ENTER_STATE (R349, R380 to R383) -/

namespace State

/-- R380: a transition begins; leaving DIM wakes the districts one by one. -/
def beginTransition (s : State) (target : PowerState) (ring w : Nat) : State :=
  { s with
    transition := some ⟨target, some ⟨ring, 0x61, BitVec.ofNat 32 (Cmd.tag w)⟩⟩
    wakeSince := s.now
    waking := if s.power == .dim && (target == .run || target == .interval) then List.range 32 else [] }

/-- R380, R381: the transition has ended its wait. -/
def transitionOver (s : State) (target : PowerState) : Bool :=
  match target with
  | .run => s.waking.isEmpty
  | .interval => s.waking.isEmpty && s.companies.all (fun p => p.2.mode != .running && p.2.mode != .launched || p.2.at_ == .choice)
  | .dim => s.noneActive && s.carriages.isEmpty
  | _ => true

end State

def enterStateSheet (target : PowerState) : Sheet :=
  { opcode := 0x61, deviceOnly := true, concerns := false, used := [(0, 1)]
    coded := fun w => need (Cmd.field w 0 1 ≤ 3) St.reservedSet (bodyAt 0)
    pre := fun s _ _ => need (s.power == target || !(target == .dim || target == .standby) || (s.noneActive && s.contextsQuiet)) St.busy noField
    run := fun s ring w => if s.power == target then .done s 0 else .ended (s.beginTransition target ring w) }

/-- The current command is not already on its way. -/
def State.settledPower (s : State) : Bool := s.transition.isNone

/-- R380. -/
def execRun (ring : Nat) (s : State) : Answer :=
  .next (s.serve ring (enterStateSheet .run) (fun w => s.settledPower && !([1, 2, 3].contains (Cmd.field w 0 1))))

/-- R381. -/
def execInterval (ring : Nat) (s : State) : Answer :=
  .next (s.serve ring (enterStateSheet .interval) (fun w => s.settledPower && Cmd.field w 0 1 == 1))

/-- R382. -/
def execDim (ring : Nat) (s : State) : Answer :=
  .next (s.serve ring (enterStateSheet .dim) (fun w => s.settledPower && Cmd.field w 0 1 == 2))

/-- R383. -/
def execStandby (ring : Nat) (s : State) : Answer :=
  .next (s.serve ring (enterStateSheet .standby) (fun w => s.settledPower && Cmd.field w 0 1 == 3))

/-- R380, R385: a transition completes; STANDBY posts no completion, and a device reset makes ready 1 again. -/
def execStateReached (s : State) : Answer :=
  .next (match s.transition with
    | none => s
    | some t =>
      if !s.transitionOver t.target then s
      else if t.target == .standby then s.enterStandby
      else
        let woken := s.power == .dim && t.target != .dim
        let s := { s with power := t.target, transition := none, ready := s.ready || !s.fatal }
        let s := if woken then s.clearCues else s
        match t.cmd with
        | none => s
        | some w => s.complete w.ring false w.opcode none w.tag.toNat St.ok noField 0)

/-- R370: ticks of the first k waves of a wake under a ramp limit in mA/µs, each of max(250 ns, 1.5 A ÷ R). -/
def wakeTicks (ramp k : Nat) : Nat := max (ceilDiv (125 * k) 2) (ceilDiv (375000 * k) ramp)

/-- R370: a wave ends, and its district's islands are restored. -/
def execDimWakeWave (s : State) : Answer :=
  .next (match s.waking with
    | [] => s
    | d :: t => if s.resetHeld || s.now < s.wakeSince + wakeTicks s.ramp (32 - t.length) then s else { s.wakeDistrict d with waking := t })

end Sys2Proof.Machine
end

