-- ==== Sys2Proof/Machine/Reduction.lean ====
section
/-! DEFINITION. The reduction: triggers, sums, shadow records and their check, arriving packets, scene changes, aborts (R207, R228, R231, R232,
R244, R245, R251, R253, R256, R259 to R266, R271 to R273, R287, R296, R345). -/
namespace Sys2Proof.Machine

/-! ### Sampled elements (R264 to R266) -/

/-- R264: the element of block b that is sampled, within its block. -/
def sampleOffset (seed : BitVec 64) (step bucket b : Nat) : Nat :=
  let w0 := BitVec.ofNat 64 (step % 2 ^ 48 + (bucket % 2 ^ 16) * 2 ^ 48)
  let w1 := BitVec.ofNat 64 (bitsOf bucket 16 5 + (b % 2 ^ 11) * 2 ^ 5 + 0x5A * 2 ^ 56)
  ((mix (mix (seed ^^^ w0) ^^^ w1)) >>> 52).toNat

/-- R265: a shadow record. -/
def sampleBytes (m : Sample) : List Byte :=
  toBytes 8 (pack [(m.element, 23), (0, 1), (if m.hop then 2 else 1, 2), (0, 6), (m.rank, 16), (m.value.toNat, 16)])

/-- R265: the records of a payload; padding and reserved kinds give none. -/
def samplesOf (payload : List Byte) : List Sample :=
  (chunks 8 (payload.length / 8) payload).filterMap (fun b =>
    let v := ofBytes b
    let kind := bitsOf v 24 2
    if kind == 1 || kind == 2 then
      some { element := bitsOf v 0 23, hop := kind == 2, rank := bitsOf v 32 16, value := BitVec.ofNat 16 (bitsOf v 48 16) }
    else none)

/-- The rank under which an owner keeps its own contribution: none that a record can carry. -/
def ownRank : Nat := 0x10000

/-- R263: u16 of a posit16 value: the larger of the distances from its magnitude to the two adjacent magnitudes. -/
def gap16 (y : Nat) : Exact :=
  let m := if y ≥ 0x8000 then 0x10000 - y else y
  if m == 0 then Exact.zero
  else
    let v := posit 16 m
    let up := (posit 16 (m + 1)).add v.neg
    let down := v.add (posit 16 (m - 1)).neg
    if Exact.le up down then down else up

namespace State

/-- R264: the sampled element of block b of a context's bucket in its step. -/
def sampleAt (s : State) (x b : Nat) : Nat :=
  let k := s.context x
  4096 * b + sampleOffset (JobRec.seed (s.job (s.contextJob x)).record.toNat) k.step (k.bucket.getD 0) b

/-- R265, R296: shadow records sent to the owner on routing set 1, from a flit of the context's SHADOW_SAMPLE numbers on; a secondary
counts the packet instead. -/
def sendSamples (s : State) (x flit : Nat) (ms : List Sample) : State :=
  let k := s.context x
  let j := s.contextJob x
  let d := ms.flatMap sampleBytes
  if ms.isEmpty then s
  else if s.isSecondary j then s.countChip 0x4B none 1
  else s.emit
    { type := 2, routeSet := 1, company := s.jobCompany j, dest := DirEntry.owner (s.bucketEntry x), job := j, context := x,
      seq := 0x800000 + flit, plan := k.plan, step := k.step, payload := padTo (256 * ceilDiv d.length 256) 0 d }

/-! ### The trigger (R253, R265) -/

/-- R265: the chip's own values of the sampled elements, read from the bucket buffer. -/
def rawSamples (s : State) (x : Nat) : State × Option (List Sample) :=
  let r := (s.context x).record.toNat
  let core := CtxRec.core r
  let rank := PlanRec.rank (s.planRec x)
  (List.range (DirEntry.elements (s.bucketEntry x) / 4096)).foldl (fun (p : State × Option (List Sample)) b =>
    match p.2 with
    | none => p
    | some ms =>
      let e := p.1.sampleAt x b
      match p.1.readUnit (.slice core) (64 * (CtxRec.bufferBase r + e / 32)) (fun s => s.countCore core 0x13 1) with
      | (s, none) => (s, none)
      | (s, some d) => (s, some (ms ++ [⟨e, false, rank, BitVec.ofNat 16 (ofBytes ((d.drop (2 * (e % 32))).take 2))⟩]))) (s, some [])

/-- R251, R253: a full context may trigger: its step is the job's, and it has not triggered. A secondary takes its trigger late as well. -/
def triggerDue (s : State) (x : Nat) : Bool :=
  let k := s.context x
  s.contextLive x && s.jobRuns (s.contextJob x) && k.trigger.isNone && decide (k.fill ≥ DirEntry.units (s.bucketEntry x)) &&
    (k.state == .opened || k.state == .reducing || s.isSecondary (s.contextJob x))

/-- R253, R265: the context triggers. -/
def trigger (s : State) (x : Nat) : State :=
  let k := s.context x
  let j := s.contextJob x
  let t := s.now
  if (s.company (s.jobCompany j)).step.toNat != k.step then s.abortJob j k.step 6
  else
    let n := s.nextCarriage
    let s := { s.setContext x { k with
        fill := 0, trigger := some t, busySince := some (k.busySince.getD t), readOrder := n
        state := if k.state == .opened then .reducing else k.state } with nextCarriage := n + 1 }
    let p := s.planRec x
    if !PlanRec.contributes p || PlanRec.isRoot p then s
    else match s.rawSamples x with
      | (s, none) => s.abortJob j k.step 5
      | (s, some ms) => s.sendSamples x 0 ms

end State

/-- R253. -/
def execBucketTrigger (context : Nat) (s : State) : Answer :=
  .next (if s.triggerDue context then s.throughExchange (fun s => s.trigger context) else s)

/-! ### Sums (R261, R262, R267) -/

/-- Elements of a flit (R260). -/
def flitValues (b : List Byte) : List Exact := (chunks 2 128 b).map (fun e => posit 16 (ofBytes e))

namespace State

/-- R261: the inputs of flit f0 in their order, once each is present. -/
def hopInputs (s : State) (x : Nat) : Option (List (List Exact)) :=
  let k := s.context x
  let p := s.planRec x
  let own : List (Option (List Byte)) :=
    if PlanRec.contributes p then [(k.own.find? (fun o => o.1 == k.f0 && o.2.length == 256)).map (·.2)] else []
  let kids : List (Option (List Byte)) :=
    (List.range (if PlanRec.role p == 4 then 0 else PlanRec.fanIn p)).map (fun c =>
      (k.window.find? (fun w => w.1 == c && w.2.1 == k.f0)).map (·.2.2))
  let all := own ++ kids
  if all.all Option.isSome then some (all.map (fun b => flitValues (b.getD []))) else none

/-- R261: the exact sums of a flit. -/
def hopSums (ins : List (List Exact)) : List Exact :=
  (List.range 128).map (fun e => ins.foldl (fun q v => q.add (v.getD e Exact.zero)) Exact.zero)

/-- R261: a flit may be summed. -/
def hopDue (s : State) (x : Nat) : Bool :=
  let k := s.context x
  let j := s.contextJob x
  s.contextLive x && s.jobRuns j && !s.isSecondary j && k.state == .reducing && PlanRec.role (s.planRec x) ≥ 2 &&
    decide (k.f0 < DirEntry.flits (s.bucketEntry x))

/-- R261, R265: an ADDER's flit: rounded to odd, sent up, its sampled value reported in flits of 32 records, the last of them padded. -/
def hopUp (s : State) (x : Nat) (qs : List Exact) : State :=
  let k := s.context x
  let p := s.planRec x
  let f := k.f0
  let b := f / 32
  let e := s.sampleAt x b
  let outs := qs.map (roundPosit 16 .odd)
  let s := s.countChip 0x48 none (qs.map (fun q => (positCount 16 false q).clipped)).sum
  let ms := if e / 128 == f then k.samples ++ [⟨e, true, PlanRec.rank p, BitVec.ofNat 16 (outs.getD (e % 128) 0)⟩] else k.samples
  let base := if PlanRec.contributes p then ceilDiv (DirEntry.elements (s.bucketEntry x)) 131072 else 0
  let full := ms.length ≥ 32 || f + 1 == DirEntry.flits (s.bucketEntry x)
  let s := s.setContext x { k with
    samples := if full then [] else ms
    own := k.own.filter (fun o => o.1 != f)
    window := k.window.filter (fun w => w.2.1 != f)
    sending := k.sending ++ [outs.flatMap (toBytes 2)]
    f0 := f + 1 }
  let s := if full then s.sendSamples x (base + b / 32) ms else s
  s.sendUp x

/-- Bytes written to the Exchange bank, a whole number of units. -/
def putBank (s : State) (unit : Nat) (d : List Byte) : State :=
  (List.range (ceilDiv d.length 64)).foldl (fun s i => s.writeUnit .exchange (64 * (unit + i)) ((d.drop (64 * i)).take 64)) s

/-- R266: the owner's 64 bytes of sample state for an element change; the spec gives them no layout, so they hold free bytes (log entry 89). -/
def noteSample (s : State) (x element : Nat) : State :=
  let r := (s.context x).record.toNat
  let n := DirEntry.elements (s.bucketEntry x)
  if element < n then
    let t := s.fresh
    { s with fresh := t + 1 }.writeUnit .exchange (64 * (CtxRec.work r + n / 16 + element / 4096)) ((List.range 64).map (Config.sampleByte t))
  else s

/-- R261, R264, R267, R268, R274: an owner's flit: rounded to posit32 and staged; after the last one the bucket is to be updated. -/
def hopOwner (s : State) (x : Nat) (qs : List Exact) : State :=
  let k := s.context x
  let f := k.f0
  let e := s.sampleAt x (f / 32)
  let gs := qs.map (roundPosit 32 .rne)
  let nars := (List.range 128).filter (fun i => (qs.getD i Exact.zero).isNar)
  let hit := e / 128 == f
  let mine := (k.own.find? (fun o => o.1 == f)).map (fun o => BitVec.ofNat 16 (ofBytes ((o.2.drop (2 * (e % 128))).take 2)))
  let last := f + 1 == DirEntry.flits (s.bucketEntry x)
  let t := s.now
  let s := s.putBank (CtxRec.work k.record.toNat + 8 * f) (gs.flatMap (toBytes 4))
  let s := if hit then s.noteSample x e else s
  let n := s.fresh
  let s := if last && k.trigger.isNone then { s with fresh := n + 1 } else s
  s.setContext x { k with
    own := k.own.filter (fun o => o.1 != f)
    window := k.window.filter (fun w => w.2.1 != f)
    f0 := f + 1
    sums := if hit then k.sums ++ [(e, qs.getD (e % 128) Exact.zero)] else k.sums
    samples := match hit, mine with | true, some v => k.samples ++ [⟨e, false, ownRank, v⟩] | _, _ => k.samples
    firstNar := match k.firstNar, nars with | none, i :: _ => some (128 * f + i) | a, _ => a
    narCount := k.narCount + nars.length
    state := if last then .updating else k.state
    reduceTicks := if !last then k.reduceTicks
      else match k.trigger with | some a => t - a | none => (Config.openTicks n).toNat }

end State

/-- R261, R394. -/
def execHop (context : Nat) (s : State) : Answer :=
  .next (if !s.hopDue context then s
    else match s.hopInputs context with
      | none => s
      | some ins => s.throughExchange (fun s =>
          if PlanRec.role (s.planRec context) == 2 then s.hopUp context (State.hopSums ins)
          else s.hopOwner context (State.hopSums ins)))

/-! ### Arriving packets (R228, R232, R248, R262, R273) -/

/-- What becomes of an arrived packet of a reduction. -/
inductive Fate where
  | waits
  /-- Discarded and counted on this source. -/
  | dropped (source : Nat)
  /-- Its job is not that of its context (R248). -/
  | malformed
  | taken
  deriving DecidableEq, Repr

namespace State

/-- R232, R248, R262, R273, R382: the fate of a packet by its context, job, step and key; in DIM it waits. -/
def fate (s : State) (p : Packet) : Fate :=
  let h := p.header.toNat
  let x := Hdr.context h
  let k := s.context x
  let j := Hdr.job h
  if s.power == .dim || !CtxRec.valid k.record.toNat then .waits
  else if s.contextJob x != j then .malformed
  else if Hdr.step h < k.step then .dropped 0x46
  else if Hdr.step h > k.step then .waits
  else if (s.job j).aborted.isSome then .dropped 0x4A
  else if !s.jobRuns j || !s.contextLive x then .waits
  else if p.used == 0 && s.seen.contains (Hdr.key h) then .dropped 0x46
  else .taken

/-- A packet taken out of a link's input without its credits. -/
def cutArrived (s : State) (l i : Nat) : State := s.updLink l (fun k => { k with input := k.input.eraseIdx i })

/-- R232: the packet's key is known from now on. -/
def know (s : State) (p : Packet) : State := if p.used == 0 then { s with seen := s.seen ++ [Hdr.key p.header.toNat] } else s

/-- A packet of a type that does not wait: its fate is to go, or its context can take some of it now, as `able` says. -/
def meets (s : State) (type : Nat) (able : Packet → Bool) (p : Packet) : Bool :=
  Hdr.type p.header.toNat == type && (match s.fate p with | .waits => false | .taken => able p | _ => true)

/-- The first packet of a type at a link that does not wait meets its fate. -/
def handleArrived (s : State) (l type : Nat) (able : Packet → Bool) (take : State → Nat → Packet → State) : State :=
  match s.arrived l (s.meets type able) with
  | none => s
  | some (i, p) =>
    match s.fate p with
    | .waits => s
    | .dropped c => (s.takeArrived l i).countChip c none 1
    | .malformed => (s.cutArrived l i).malformed l p
    | .taken => take (s.know p) i p

/-- Flits of a packet not yet taken. -/
def flitsLeft (p : Packet) : List (List Byte) := (chunks 256 64 p.payload).drop p.used

/-- R262: the child that a REDUCE_UP packet comes from, in the plan in use. -/
def childOf (s : State) (x src : Nat) : Option Nat :=
  let p := s.planRec x
  if PlanRec.role p == 2 || PlanRec.role p == 3 then (PlanRec.children p).findIdx? (· == src) else none

/-- R262: how many of the packet's next flits have a place in the window. -/
def windowRoom (s : State) (p : Packet) : Nat :=
  let h := p.header.toNat
  let x := Hdr.context h
  let k := s.context x
  let first := Hdr.seq h + p.used
  if (k.state != .opened && k.state != .reducing) || (s.childOf x (Hdr.src h)).isNone then 0
  else ((List.range (min 2 (Hdr.flits h - p.used))).takeWhile (fun i =>
    decide (k.f0 ≤ first + i) && decide (first + i < k.f0 + 2) && decide (first + i < DirEntry.flits (s.bucketEntry x)))).length

/-- R251, R262: flits of a REDUCE_UP packet enter the adder window. -/
def takeReduce (s : State) (l i : Nat) (p : Packet) : State :=
  let h := p.header.toNat
  let x := Hdr.context h
  let n := s.windowRoom p
  match s.childOf x (Hdr.src h) with
  | none => s
  | some c =>
    let t := s.now
    let fs := ((List.range n).zip (flitsLeft p)).map (fun q => (c, Hdr.seq h + p.used + q.1, q.2))
    let s := s.updContext x (fun k => { k with
      window := k.window ++ fs
      state := if n != 0 && k.state == .opened then .reducing else k.state
      busySince := if n == 0 then k.busySince else some (k.busySince.getD t) })
    let s := (s.owe l (Hdr.vc h) (Hdr.cls h) (Hdr.company h) n).updLink l (fun k => { k with
      input := k.input.modify i (fun q => { q with used := p.used + n }) })
    if p.used + n ≥ Hdr.flits h then s.takeArrived l i else s

end State

/-- A packet at a link that meets its fate takes the Exchange through its directory, plans and contexts (R394). -/
def State.handle (s : State) (l type : Nat) (able : Packet → Bool) (take : State → Nat → Packet → State) : State :=
  if (s.arrived l (s.meets type able)).isSome then s.throughExchange (fun s => s.handleArrived l type able take) else s

/-- R246, R262, R273. -/
def execReduceUp (l : LinkId) (s : State) : Answer :=
  .next (s.handle l 1 (fun p =>
      let h := p.header.toNat
      (s.childOf (Hdr.context h) (Hdr.src h)).isSome && (Hdr.flits h == 0 || s.windowRoom p > 0))
    (fun s i p => s.takeReduce l i p))

/-- R265: shadow records reach the owner. -/
def execShadowSample (l : LinkId) (s : State) : Answer :=
  .next (s.handle l 2 (fun p => PlanRec.isRoot (s.planRec (Hdr.context p.header.toNat)))
    (fun s i p =>
      let x := Hdr.context p.header.toNat
      let ms := samplesOf p.payload
      ms.foldl (fun s m => s.noteSample x m.element)
        ((s.takeArrived l i).updContext x (fun k => { k with samples := k.samples ++ ms }))))

namespace State

/-- R251, R259, R271, R272, R296: a broadcast packet is forwarded to the children and lands here. -/
def takeBroadcast (s : State) (l i : Nat) (p : Packet) : State :=
  let h := p.header.toNat
  let x := Hdr.context h
  let first := Hdr.seq h - 0x400000
  let fs := flitsLeft p
  let k := s.context x
  let start := !fs.isEmpty && (k.state == .opened || k.state == .reducing)
  let t := s.now
  let n := s.nextCarriage
  let s := s.takeArrived l i
  let s := s.setContext x { k with
    image := k.image ++ ((List.range fs.length).zip fs).map (fun q => (first + q.1, q.2))
    nextPlan := Hdr.plan h, announced := some (Hdr.plan h)
    state := if start then .landing else k.state
    landOrder := if start then n else k.landOrder
    busySince := if start then some (k.busySince.getD t) else k.busySince }
  let s := if start then { s with nextCarriage := n + 1 } else s
  if s.isSecondary (s.contextJob x) then s
  else (s.forwardDown x (Hdr.seq h) (Hdr.plan h) p.payload).forwardPair x (Hdr.seq h) (Hdr.plan h) p.payload

end State

/-- R271, R272. -/
def execBroadcastDown (l : LinkId) (s : State) : Answer :=
  .next (s.handle l 3 (fun p =>
      let x := Hdr.context p.header.toNat
      !PlanRec.isRoot (s.planRec x) || s.isSecondary (s.contextJob x))
    (fun s i p => s.takeBroadcast l i p))

/-! ### CARRIAGE packets (R167, R230, R232, R345, R346) -/

/-- The key of a CARRIAGE packet: that of R232 with a job that no reduction has, since a carriage has none. -/
def carriageKey (h : Nat) : Nat × Nat × Nat × Nat × Nat := (Hdr.src h, 256, Hdr.context h, Hdr.step h, Hdr.seq h)

/-- The units of a CARRIAGE packet that are written, by their number in the carriage: four to the flit, where the flit behind the data does not
mark them as unwritten (log entry 51). -/
def carriageUnits (h : Nat) (payload : List Byte) : List (Nat × List Byte) :=
  ((List.range 4).filter (fun i => payload.length ≥ 256 && (payload.drop 256).getD i 0 == 0)).map (fun i =>
    (4 * Hdr.seq h + i, (payload.drop (64 * i)).take 64))

namespace State

/-- R232: a CARRIAGE packet's key is known; those of the chip's carriages of other steps, or long past, are forgotten. -/
def knowCarriage (s : State) (h : Nat) : State :=
  let old (q : Nat × Nat × Nat × Nat × Nat) : Bool :=
    q.1 == Hdr.src h && q.2.1 == 256 && ((q.2.2.1 == Hdr.context h && q.2.2.2.1 != Hdr.step h) || decide ((Hdr.context h + 4096 - q.2.2.1) % 4096 > 2048))
  { s with seen := s.seen.filter (fun q => !old q) ++ [carriageKey h] }

/-- R345, R401: units of a carriage written to the foyer from a byte address on. -/
def landCarriage (s : State) (place : Nat) (us : List (Nat × List Byte)) : State :=
  us.foldl (fun s u => (s.putBytes .foyer (place + 64 * u.1) u.2).renewFoyer (place + 64 * u.1) 64) s

end State

/-- R167, R230, R232, R345: the first arrived CARRIAGE packet lands in the foyer, its carriage at `place` and the packet where bucket_seq says,
and is acknowledged; a second copy is counted and goes. -/
def execCarriage (l : LinkId) (place : Nat) (s : State) : Answer :=
  .next (match s.arrived l (fun p => Hdr.type p.header.toNat == 4) with
    | none => s
    | some (i, p) =>
      let h := p.header.toNat
      let us := carriageUnits h p.payload
      if s.seen.contains (carriageKey h) then (s.takeArrived l i).countChip 0x46 none 1
      else if place % 64 != 0 || us.any (fun u => decide (place + 64 * u.1 + 64 > 2 ^ 26)) then s
      else (((s.takeArrived l i).knowCarriage h).landCarriage place us).message (Hdr.company h) (Hdr.src h) [7, Hdr.context h, Hdr.seq h])

/-! ### The check of a sampled element (R266) -/

namespace State

/-- R266: verdict of a sampled element: 0 passed, 1 failed, 2 skipped, 3 incomplete; with Q - S. -/
def checkSample (s : State) (x element : Nat) (q : Exact) : Nat × Exact :=
  let k := s.context x
  let p := s.planRec x
  let ms := k.samples.filter (fun m => m.element == element)
  let raw := ms.filter (fun m => !m.hop && m.rank != ownRank)
  let hops := ms.filter (fun m => m.hop)
  let n := PlanRec.contributors p
  let own := b2n (PlanRec.contributes p)
  let vals := (ms.filter (fun m => !m.hop)).map (fun m => posit 16 m.value.toNat)
  let sum := vals.foldl Exact.add Exact.zero
  let bound := hops.foldl (fun b m => b.add (gap16 m.value.toNat)) Exact.zero
  let diff := q.add sum.neg
  let ranks := (raw.map (·.rank)).sum + (if PlanRec.contributes p then PlanRec.rank p else 0)
  let adders := if PlanRec.role p == 3 then PlanRec.adders p else 0
  if raw.length != n - own || hops.length != adders || ranks != n * (n - 1) / 2 then (3, diff)
  else if q.isNar || sum.isNar || hops.any (fun m => m.value == 0x8000 || m.value == 0x7FFF || m.value == 0x8001) then (2, diff)
  else if diff.isZero || Exact.lt diff.abs bound then (0, diff)
  else (1, diff)

/-- R266: every record of an element has arrived: as many as the plan expects. -/
def samplesArrived (s : State) (x element : Nat) : Bool :=
  let p := s.planRec x
  let k := s.context x
  let adders := if PlanRec.role p == 3 then PlanRec.adders p else 0
  decide (k.samples.countP (fun m => m.element == element && m.rank != ownRank) ≥
    PlanRec.contributors p - b2n (PlanRec.contributes p) + adders)

/-- R335: the REDUCTION_DIVERGENCE body. -/
def divergenceBody (s : State) (x element : Nat) (diff : Exact) : Nat :=
  let b := s.bucketBody x 4 false false false (roundPosit 32 .rne diff)
  b - bitsOf b 192 24 * 2 ^ 192 + element % 2 ^ 24 * 2 ^ 192

end State

/-- R266, R394. -/
def execShadowCheck (context element : Nat) (s : State) : Answer :=
  let k := s.context context
  .next (match k.sums.find? (fun q => q.1 == element) with
    | none => s
    | some q =>
      if !s.contextLive context || !s.jobRuns (s.contextJob context) || !PlanRec.isRoot (s.planRec context) ||
        k.checked.any (fun c => c.1 == element) || !s.samplesArrived context element then s
      else s.throughExchange (fun s =>
        let (v, d) := s.checkSample context element q.2
        let s := (s.setContext context { k with checked := k.checked ++ [(element, v)] }).noteSample context element
        if v == 1 then s.postCompany (s.jobCompany (s.contextJob context)) 8 (s.divergenceBody context element d) else s))

/-! ### Scene changes (R207, R244, R245, R251, R256, R287) -/

namespace State

/-- R207: a landed context's exponents written to the scale registers it names. -/
def writeExponents (s : State) (x : Nat) : State :=
  let r := (s.context x).record.toNat
  let e := (s.exponentBlock x).getD []
  let d := CtxRec.core r / 64
  let cores := (List.range 64).filterMap (fun i => if (CtxRec.scaleCores r).testBit i then some (d * 64 + i) else none)
  let ws := ((List.range e.length).zip e).map (fun p => ((CtxRec.scaleFirst r + p.1) % 4096, p.2))
  s.updCores cores (fun _ k => k.writeScales ws)

/-- R251, R259: a landed context goes on to the next step, under the plan that the rule gives. -/
def passScene (s : State) (j x : Nat) : State :=
  let k := s.context x
  if k.state != .landed then s
  else
    let plan := if JobRec.reproducible (s.job j).record.toNat then s.fixedPlan x else k.announced.getD (s.fixedPlan x)
    s.setContext x (openContext k (k.step + 1) plan)

/-- R207, R244, R256, R269, R273, R287: the scene change that ends the job's step. A JOB_ABORT that came for the next step aborts it now. -/
def applyScene (s : State) (j step epoch : Nat) : State :=
  let xs := s.jobContexts j
  let landed := xs.filter (fun x => (s.context x).state == .landed)
  let s := landed.foldl writeExponents s
  let s := { s with engine := s.engineLater, engineQueue := [] }
  let s := landed.foldl (fun s x => s.passScene j x) s
  let s := { s with seen := s.seen.filter (fun q => !(q.2.1 == j && decide (q.2.2.2.1 ≤ step))) }
  let s := s.updJob j (fun k => { k with
    step := step + 1, due := none
    scene := k.scene.map (fun t => { t with sent := none, reports := t.reports.filter (fun r => decide (r.2.1 > step)) }) })
  let s := (s.activateLoads j step).updJob j (fun k => { k with applied := some step })
  if (s.job j).abortAt == some (s.job j).step then s.abortJob j (s.job j).step 2
  else if epoch == epochsDiffer || (!s.isSecondary j && epoch != (s.job j).epoch) then s.abortJob j (s.job j).step 7
  else s.sceneProgress j

/-- R244: a scene change that the message brings late is counted and taints the job's company, unless the margin is 0. -/
def lateScene (s : State) (j : Nat) : State :=
  if s.noMargin j then s else (s.countChip 0x4C none 1).setTaint (s.jobCompany j)

/-- R244, R394: the scene change that a job waits for applies once it is due. -/
def sceneTurn (s : State) (j : Nat) : State :=
  match s.sceneDue j with
  | none => s
  | some (step, _, epoch) => s.throughExchange (fun s => s.applyScene j step epoch)

end State

/-- R244, R256. -/
def execLanded (child job step epoch : Nat) (s : State) : Answer :=
  .next (match (s.job job).scene with
    | none => s
    | some t =>
      if !s.jobRuns job || !t.children.contains child || step < (s.job job).step || t.reports.any (fun r => r.1 == child && r.2.1 == step) then s
      else (s.updJob job (fun k => { k with scene := some { t with reports := t.reports ++ [(child, step, epoch)] } })).sceneProgress job)

/-- R244, R296. -/
def execScene (job step count epoch : Nat) (late : Bool) (s : State) : Answer :=
  .next (if !s.jobRuns job || (s.job job).step != step || (s.job job).due.isSome || late != decide (count ≤ s.now) then s
    else
      let s := s.sendScene job step count epoch
      let s := if late then s.lateScene job else s
      (s.updJob job (fun k => { k with due := some (step, count, epoch) })).sceneTurn job)

/-- R244, R245: the tick of a job's scene change has come, or its margin is 0. -/
def execSceneChange (job : Nat) (s : State) : Answer := .next (s.sceneTurn job)

/-! ### Aborts (R273) -/

/-- R273: JOB_ABORT from another chip; for a step that this chip has not reached it waits for the scene change before it. -/
def execJobAbort (job step : Nat) (s : State) : Answer :=
  .next (if !s.jobRuns job || step < (s.job job).step then s
    else if (s.job job).step == step then s.abortJob job step 2
    else s.updJob job (fun k => { k with abortAt := some step }))

/-- R273: a context has been outside OPEN and LANDED for longer than the job's timeout. -/
def execContextTimeout (context : Nat) (s : State) : Answer :=
  let j := s.contextJob context
  let limit := JobRec.timeout (s.job j).record.toNat * 65536
  .next (match (s.context context).busySince with
    | none => s
    | some t =>
      if limit == 0 || !s.contextLive context || !s.jobRuns j || s.now - t ≤ limit then s
      else s.abortJob j (s.context context).step 3)

end Sys2Proof.Machine
end

