-- ==== Sys2Proof/Machine/Crypto.lean ====
section
/-! DEFINITION. The identity's cryptography: HMAC-SHA-384 and its key derivation (R8, R408), SHA-256, LMS and HSS with their one parameter set
(R409; RFC 8554), and ECDSA over P-384 (R410; FIPS 186-5). Byte strings stand in the byte order of their standards (R410). -/
namespace Sys2Proof.Machine

/-- A number handed on once it has a value, so that a long computation is done step by step. -/
def valued {α : Type} (n : Nat) (f : Nat → α) : α :=
  match n with
  | 0 => f 0
  | k + 1 => f (k + 1)

/-- The number that bytes stand for, the most significant first. -/
def ofBytesBE (b : List Byte) : Nat := b.foldl (fun n c => 256 * n + c.toNat) 0

/-! ### HMAC and the key derivation (R8, R408) -/

/-- FIPS 198-1 with SHA-384; a key is no longer than a block. -/
def hmac384 (key m : List Byte) : List Byte :=
  let block := padTo 128 0 key
  sha384 (block.map (· ^^^ 0x5C) ++ sha384 (block.map (· ^^^ 0x36) ++ m))

/-- R8: the first `bits` bits of the KDF in counter mode: the counter, the label, a zero byte, the context and the output length. -/
def kdf (key label : List Byte) (context : Byte) (bits : Nat) : List Byte :=
  ((List.range (ceilDiv bits 384)).flatMap (fun i =>
    hmac384 key (toBytesBE 4 (i + 1) ++ label ++ [0, context] ++ toBytesBE 4 bits))).take (bits / 8)

/-! ### SHA-256 (FIPS 180-4), for the parameter sets of R409 -/

/-- A right rotation of a 32-bit word. -/
def rotr32 (x n : Nat) : Nat := (x >>> n) ||| ((x <<< (32 - n)) % 2 ^ 32)

/-- The round constants are the upper halves of the first 64 of SHA-384. -/
def sha256K : List Nat := (shaK.take 64).map (fun k => k.toNat >>> 32)

def sha256Init : List Nat :=
  [0x6A09E667, 0xBB67AE85, 0x3C6EF372, 0xA54FF53A, 0x510E527F, 0x9B05688C, 0x1F83D9AB, 0x5BE0CD19]

/-- The message schedule: `w` holds its words so far, the latest first. -/
def sha256Schedule : Nat → List Nat → List Nat
  | 0, w => w
  | n + 1, w =>
    let g (i : Nat) := w.getD i 0
    let s0 := rotr32 (g 14) 7 ^^^ rotr32 (g 14) 18 ^^^ (g 14 >>> 3)
    let s1 := rotr32 (g 1) 17 ^^^ rotr32 (g 1) 19 ^^^ (g 1 >>> 10)
    valued ((g 15 + s0 + g 6 + s1) % 2 ^ 32) (fun x => sha256Schedule n (x :: w))

/-- The rounds, a constant plus its schedule word each. -/
def sha256Rounds : List (Nat × Nat) → List Nat → List Nat
  | [], h => h
  | kw :: t, [a, b, c, d, e, f, g, i] =>
    let t1 := i + (rotr32 e 6 ^^^ rotr32 e 11 ^^^ rotr32 e 25) + ((e &&& f) ^^^ ((2 ^ 32 - 1 - e) &&& g)) + kw.1 + kw.2
    let t2 := (rotr32 a 2 ^^^ rotr32 a 13 ^^^ rotr32 a 22) + ((a &&& b) ^^^ (a &&& c) ^^^ (b &&& c))
    valued ((t1 + t2) % 2 ^ 32) (fun x => valued ((d + t1) % 2 ^ 32) (fun y => sha256Rounds t [x, a, b, c, y, e, f, g]))
  | _ :: _, h => h

/-- One block of 64 bytes. -/
def sha256Block (h : List Nat) (b : List Byte) : List Nat :=
  let ws := (sha256Schedule 48 ((chunks 4 16 b).map ofBytesBE).reverse).reverse
  (h.zip (sha256Rounds (sha256K.zip ws) h)).map (fun p => valued ((p.1 + p.2) % 2 ^ 32) id)

/-- The SHA-256 digest of bytes, 32 bytes. -/
def sha256 (m : List Byte) : List Byte :=
  let p := m ++ [0x80] ++ List.replicate ((64 - (m.length + 9) % 64) % 64) 0 ++ toBytesBE 8 (8 * m.length)
  ((chunks 64 (p.length / 64) p).foldl sha256Block sha256Init).flatMap (toBytesBE 4)

/-! ### LM-OTS and LMS (RFC 8554): LMOTS_SHA256_N24_W4, LMS_SHA256_M24 -/

/-- The hash of the parameter sets: SHA-256 cut to 24 bytes. -/
def lmsHash (m : List Byte) : List Byte := (sha256 m).take 24

/-- R409: typecodes of the parameter sets: LMOTS_SHA256_N24_W4, and LMS_SHA256_M24 with a tree of 15 or of 20 levels. The spec gives the names, the
registry of RFC 8554 the codes (PRESUMED, log entry 28). -/
def otsType : Nat := 7
def lmsType (h : Nat) : Nat := if h == 20 then 13 else 12

/-- What every hash of an LMS key starts with: its identifier, a number and a 16-bit tag. -/
def lmsTag (id : List Byte) (q tag : Nat) : List Byte := id ++ toBytesBE 4 q ++ toBytesBE 2 tag

/-- Digit i of the chains: four bits, the upper ones of a byte first. -/
def otsDigit (b : List Byte) (i : Nat) : Nat := (b.getD (i / 2) 0).toNat >>> (4 - 4 * (i % 2)) % 16

/-- The 51 digits of a hash with its checksum. -/
def otsDigits (q : List Byte) : List Nat :=
  let sum := ((List.range 48).map (fun i => 15 - otsDigit q i)).sum
  (List.range 51).map (otsDigit (q ++ toBytesBE 2 (16 * sum)))

/-- A chain hashed on from position `j`, `n` times. -/
def otsChain (id : List Byte) (q i : Nat) : Nat → Nat → List Byte → List Byte
  | 0, _, x => x
  | n + 1, j, x => otsChain id q i n (j + 1) (lmsHash (lmsTag id q i ++ [BitVec.ofNat 8 j] ++ x))

/-- The digits of a message under its randomizer. -/
def otsMessage (id : List Byte) (q : Nat) (c m : List Byte) : List Nat := otsDigits (lmsHash (lmsTag id q 0x8181 ++ c ++ m))

/-- The public key that the ends of the chains give. -/
def otsEnds (id : List Byte) (q : Nat) (zs : List (List Byte)) : List Byte := lmsHash (lmsTag id q 0x8080 ++ zs.flatten)

/-- The key that a one-time signature (type, randomizer, 51 chain values) leads to. -/
def otsCandidate (id : List Byte) (q : Nat) (sig m : List Byte) : List Byte :=
  let ds := otsMessage id q ((sig.drop 4).take 24) m
  let ys := chunks 24 51 (sig.drop 28)
  otsEnds id q ((List.range 51).map (fun i => let d := ds.getD i 0; otsChain id q i (15 - d) d (ys.getD i [])))

/-- A leaf of a tree of `h` levels. -/
def lmsLeaf (id : List Byte) (h q : Nat) (key : List Byte) : List Byte := lmsHash (lmsTag id (2 ^ h + q) 0x8282 ++ key)

/-- An inner node. -/
def lmsInner (id : List Byte) (r : Nat) (left right : List Byte) : List Byte := lmsHash (lmsTag id r 0x8383 ++ left ++ right)

/-- The root that a leaf and its path lead to, from node `r` up. -/
def lmsClimb (id : List Byte) : Nat → List Byte → List (List Byte) → List Byte
  | _, x, [] => x
  | r, x, p :: ps => lmsClimb id (r / 2) (if r % 2 == 1 then lmsInner id (r / 2) p x else lmsInner id (r / 2) x p) ps

/-- A public key: types, identifier and root. -/
def lmsPublic (h : Nat) (id root : List Byte) : List Byte := toBytesBE 4 (lmsType h) ++ toBytesBE 4 otsType ++ id ++ root

/-- The public key that a signature (leaf number, one-time signature, type, path) of a tree of `h` levels leads to; none where its form is wrong. -/
def lmsCandidate (h : Nat) (id sig m : List Byte) : Option (List Byte) :=
  let q := ofBytesBE (sig.take 4)
  if sig.length != 1260 + 24 * h || ofBytesBE ((sig.drop 4).take 4) != otsType || ofBytesBE ((sig.drop 1256).take 4) != lmsType h || q ≥ 2 ^ h then none
  else some (lmsPublic h id (lmsClimb id (2 ^ h + q) (lmsLeaf id h q (otsCandidate id q (sig.drop 4) m)) (chunks 24 h (sig.drop 1260))))

/-- A signature verifies under a public key. -/
def lmsVerify (h : Nat) (key m sig : List Byte) : Bool := lmsCandidate h ((key.drop 8).take 16) sig m == some key

/-! ### The device's own trees (R409) -/

/-- RFC 8554, appendix A: the start of chain i of leaf q, from the tree's seed (PRESUMED, log entry 28). -/
def otsStart (id seed : List Byte) (q i : Nat) : List Byte := lmsHash (lmsTag id q i ++ [0xFF] ++ seed)

/-- The one-time public key of a leaf. -/
def otsPublic (id seed : List Byte) (q : Nat) : List Byte :=
  otsEnds id q ((List.range 51).map (fun i => otsChain id q i 15 0 (otsStart id seed q i)))

/-- The node numbered `r` of a tree of `h` levels, `k` levels above the leaves. -/
def lmsNode (id seed : List Byte) (h : Nat) : Nat → Nat → List Byte
  | 0, r => lmsLeaf id h (r - 2 ^ h) (otsPublic id seed (r - 2 ^ h))
  | k + 1, r => lmsInner id r (lmsNode id seed h k (2 * r)) (lmsNode id seed h k (2 * r + 1))

/-- The public key of a tree. -/
def lmsKey (id seed : List Byte) (h : Nat) : List Byte := lmsPublic h id (lmsNode id seed h h 1)

/-- A message signed with leaf q under a randomizer. -/
def lmsSign (id seed : List Byte) (h q : Nat) (c m : List Byte) : List Byte :=
  let ds := otsMessage id q c m
  toBytesBE 4 q ++ toBytesBE 4 otsType ++ c ++
    (List.range 51).flatMap (fun i => otsChain id q i (ds.getD i 0) 0 (otsStart id seed q i)) ++
    toBytesBE 4 (lmsType h) ++
    (List.range h).flatMap (fun k => let r := (2 ^ h + q) / 2 ^ k; lmsNode id seed h k (if r % 2 == 0 then r + 1 else r - 1))

/-! ### HSS with two levels (R409) -/

/-- The public key of an HSS key: the number of levels and the top tree's key, 52 bytes. -/
def hssKey (top : List Byte) : List Byte := toBytesBE 4 2 ++ top

/-- A signature: one signed public key, the top tree's signature over the bottom tree's key, that key, and the bottom tree's signature. -/
def hssJoin (topSig bottomKey bottomSig : List Byte) : List Byte := toBytesBE 4 1 ++ topSig ++ bottomKey ++ bottomSig

/-- R409, R410: an HSS signature verifies; only the structure of R409 is accepted. -/
def hssVerify (key m sig : List Byte) : Bool :=
  let bottom := (sig.drop 1624).take 48
  key.length == 52 && sig.length == 3412 && ofBytesBE (key.take 4) == 2 && ofBytesBE (sig.take 4) == 1 &&
    lmsVerify 15 (key.drop 4) bottom ((sig.drop 4).take 1620) && lmsVerify 20 bottom m (sig.drop 1672)

/-! ### P-384 (FIPS 186-5) -/

namespace P384

/-- The field's prime, the order of the base point, and the curve's constant b. -/
def p : Nat := 2 ^ 384 - 2 ^ 128 - 2 ^ 96 + 2 ^ 32 - 1
def n : Nat := 0xFFFFFFFFFFFFFFFFFFFFFFFFFFFFFFFFFFFFFFFFFFFFFFFFC7634D81F4372DDF581A0DB248B0A77AECEC196ACCC52973
def b : Nat := 0xB3312FA7E23EE7E4988E056BE3F82D19181D9C6EFE8141120314088F5013875AC656398D8A2ED19D2A85C8EDD3EC2AEF

/-- A point in Jacobian coordinates; z = 0 is the point at infinity. -/
structure Point where
  x : Nat
  y : Nat
  z : Nat
  deriving DecidableEq, Repr

/-- The base point. -/
def base : Point :=
  { x := 0xAA87CA22BE8B05378EB1C71EF320AD746E1D3B628BA79B9859F741E082542A385502F25DBF55296C3A545E3872760AB7
    y := 0x3617DE4A96262C6F5D9E98BF9292DC29F8F41DBD289A147CE9DA3113B5F0B8C00A60B1CE1D7E819D7A431D7C90EA0E5F
    z := 1 }

/-- A difference in the field. -/
def sub (a c : Nat) : Nat := (a + (p - c % p)) % p

/-- A power modulo `m`, for exponents of up to 384 bits. -/
def power (m a e : Nat) : Nat :=
  (List.range 384).reverse.foldl (fun r i => valued ((if e.testBit i then r * r % m * a else r * r) % m) id) 1

/-- The inverse modulo a prime. -/
def inverse (m a : Nat) : Nat := power m a (m - 2)

/-- A point with its coordinates worked out. -/
def point (x y z : Nat) : Point := valued x (fun x => valued y (fun y => valued z (fun z => ⟨x, y, z⟩)))

def double (a : Point) : Point :=
  let d := a.z * a.z % p
  let g := a.y * a.y % p
  let e := a.x * g % p
  let w := 3 * sub a.x d * (a.x + d) % p
  let x := sub (w * w) (8 * e)
  point x (sub (w * sub (4 * e) x) (8 * g * g)) (sub ((a.y + a.z) * (a.y + a.z)) (g + d))

def add (a c : Point) : Point :=
  if a.z == 0 then c
  else if c.z == 0 then a
  else
    let za := a.z * a.z % p
    let zc := c.z * c.z % p
    let u := a.x * zc % p
    let h := sub (c.x * za) u
    let s := a.y * zc * c.z % p
    let r := sub (c.y * za * a.z) s
    if h == 0 then (if r == 0 then double a else point 1 1 0)
    else
      let h2 := h * h % p
      let h3 := h2 * h % p
      let x := sub (r * r) (h3 + 2 * u * h2)
      point x (sub (r * sub (u * h2) x) (s * h3)) (a.z * c.z * h % p)

/-- A multiple of a point. -/
def times (k : Nat) (a : Point) : Point :=
  (List.range 384).reverse.foldl (fun r i => let d := double r; if k.testBit i then add d a else d) (point 1 1 0)

/-- The affine coordinates of a point that is not at infinity. -/
def affine (a : Point) : Nat × Nat :=
  let i := inverse p a.z
  (a.x * i * i % p, a.y * i * i * i % p)

/-- SEC 1: a point as 97 bytes, and the point of a key; none where it is no point of the curve. -/
def encode (a : Point) : List Byte := let q := affine a; [4] ++ toBytesBE 48 q.1 ++ toBytesBE 48 q.2
def decode (k : List Byte) : Option Point :=
  let x := ofBytesBE ((k.drop 1).take 48)
  let y := ofBytesBE (k.drop 49)
  if k.length == 97 && k.head? == some 4 && decide (x < p) && decide (y < p) && y * y % p == (x * x * x + (p - 3) * x + b) % p then some ⟨x, y, 1⟩
  else none

/-- FIPS 186-5, A.2.1 and A.3.1: a secret from 448 bits. -/
def secret (c : List Byte) : Nat := ofBytesBE c % (n - 1) + 1

/-- R410: a signature over SHA-384 of the bytes, r then s, with private key `d` and per-signature secret `k`. -/
def sign (d k : Nat) (m : List Byte) : List Byte :=
  let r := (affine (times k base)).1 % n
  toBytesBE 48 r ++ toBytesBE 48 (inverse n k * (ofBytesBE (sha384 m) + r * d) % n)

/-- R410: a signature verifies. -/
def verify (key m sig : List Byte) : Bool :=
  let r := ofBytesBE (sig.take 48)
  let s := ofBytesBE (sig.drop 48)
  match decode key with
  | none => false
  | some q =>
    if sig.length != 96 || r == 0 || s == 0 || r ≥ n || s ≥ n then false
    else
      let w := inverse n s
      let e := ofBytesBE (sha384 m)
      let a := add (times (e * w % n) base) (times (r * w % n) q)
      a.z != 0 && (affine a).1 % n == r

end P384

end Sys2Proof.Machine
end

