-- ==== Sys2Proof/Machine/Security.lean ====
section
/-! DEFINITION. Attestation, extension packages, debug unlock and the JTAG port (R407 to R423). -/
namespace Sys2Proof.Machine

/-! ### Attestation (R411 to R414) -/

namespace State

/-- R412: SHA-384 of fuse bits [1279:0] with identity_seed replaced by zeros. -/
def fuseDigest (s : State) : List Byte :=
  sha384 (toBytes 160 (pack [(s.part.serial.toNat, 128), (0, 256), (s.part.extAuthority.toNat, 384), (s.part.debugAuthority.toNat, 384),
    (s.part.lifecycle.toNat, 8), (0, 120)]))

/-- R413: a company's entry. -/
def companyEntry (s : State) (c : Nat) : List Byte :=
  let k := s.company c
  let hash := match k.script with | some p => p.hash.toNat | none => 0
  toBytes 128 (pack [(k.mode.code, 8), (b2n k.reproducible, 1), (0, 7), (b2n k.pair.isSome, 1), (0, 7), (b2n k.taint, 1), (0, 7),
    (k.chainCount, 32), (hash, 384), (k.chain.toNat, 384)])

/-- R414: an extension position. -/
def extensionEntry (s : State) (p : Nat) : List Byte :=
  match SMap.get none s.extensions p with
  | none => toBytes 64 0
  | some e => toBytes 64 (pack [(e.hash.toNat, 384), (e.id.toNat, 32), (e.version.toNat, 32)])

/-- R8, R408: key material under a label, in the context of the last power-on. -/
def derived (s : State) (label : List Byte) (bits : Nat) : List Byte :=
  kdf (toBytes 32 s.part.identitySeed.toNat) label (BitVec.ofNat 8 (b2n s.keyContext)) bits

/-- R408: the ECDSA private key, and the seed and identifier of the top tree. -/
def ecdsaSecret (s : State) : Nat := P384.secret (s.derived Config.ecdsaLabel 448)
def topIdentifier (s : State) : List Byte := (List.range 16).map (Config.lmsIdentifier (s.derived Config.lmsLabel 256))
def topSeed (s : State) : List Byte := (List.range 24).map (Config.lmsSeed (s.derived Config.lmsLabel 256))

/-- R409: identifier, seed and, for the signature over its key, randomizer of the bottom tree, from the draw at power-on. -/
def drawn (s : State) (lo n : Nat) : List Byte := (List.range n).map (fun i => Config.entropy s.bottomDraw (lo + i))
def bottomKey (s : State) : List Byte := lmsKey (s.drawn 0 16) (s.drawn 16 24) 20

/-- R408, R412: the part's public keys, 97 and 52 bytes. -/
def ecdsaPublic (s : State) : List Byte := P384.encode (P384.times s.ecdsaSecret P384.base)
def hssPublic (s : State) : List Byte := hssKey (lmsKey s.topIdentifier s.topSeed 15)

/-- R410: the ECDSA signature over bytes, with a per-signature secret of 448 bits from the entropy source. -/
def ecdsaSignature (s : State) (m : List Byte) : List Byte :=
  P384.sign s.ecdsaSecret (P384.secret ((List.range 56).map (Config.entropy s.fresh))) m

/-- R409, R410: the HSS signature over bytes with the next bottom leaf; its randomizer comes from the entropy source. -/
def hssSignature (s : State) (m : List Byte) : List Byte :=
  hssJoin (lmsSign s.topIdentifier s.topSeed 15 s.bootLeaf (s.drawn 40 24) s.bottomKey) s.bottomKey
    (lmsSign (s.drawn 0 16) (s.drawn 16 24) 20 s.bottomLeaf ((List.range 24).map (fun i => Config.entropy s.fresh (56 + i))) m)

/-- R412: the signed region, bytes 0x0000 to 0x15FF. -/
def reportBody (s : State) (nonce : List Byte) : List Byte :=
  let installed := (List.range 16).countP (fun p => (SMap.get none s.extensions p).isSome)
  let head := toBytes 16 (pack [(1, 16), (0, 16), (9216, 32), (s.part.rom.toNat, 32), (s.part.lifecycle.toNat, 8), (s.part.grade, 8),
    (s.scope.toNat, 8), (b2n (s.perturb.any (fun p => p.2.kind != 0)), 8)]) ++ toBytes 16 s.part.serial.toNat ++ nonce ++ s.fuseDigest ++
    toBytes 16 (pack [(s.now, 64), (s.chipId, 16), (s.interface.toNat, 8), (installed, 8), (s.part.bootCount, 32)]) ++
    toBytes 48 s.chain.toNat ++ toBytes 4 s.chainCount
  padTo 256 0 head ++ (List.range 32).flatMap s.companyEntry ++ (List.range 16).flatMap s.extensionEntry ++ padTo 128 0 s.ecdsaPublic ++
    padTo 128 0 s.hssPublic

/-- R410 to R412: the whole report, signed under both schemes. -/
def report (s : State) (nonce : List Byte) : List Byte :=
  let b := s.reportBody nonce
  padTo 9216 0 (b ++ s.ecdsaSignature b ++ s.hssSignature b)

end State

def attestSheet : Sheet :=
  { opcode := 0x80, deviceOnly := true, hasData := true, concerns := false, used := [(0, 32)]
    size := fun w => need (Cmd.length w ≥ 9216) St.badSize 4
    pre := fun s _ _ => firstFail [
      need (s.part.lifecycle != 0) St.wrongState noField,
      need s.bottomTree St.busy noField,
      need (s.bottomLeaf < 2 ^ 20 && s.bootLeaf < 4096) St.noResource noField]
    run := fun s _ w =>
      let r := s.report (toBytes 32 (Cmd.field w 0 32))
      .done { s.putReport (Cmd.dataAddr w) r with fresh := s.fresh + 1, bottomLeaf := s.bottomLeaf + 1 } 0 }

/-- R411. -/
def execAttest (ring : Nat) (s : State) : Answer := .next (s.serve ring attestSheet)

/-! ### LOAD_EXTENSION (R416, R417) -/

namespace Ext
/-! The header and directory of a package. -/
def items (b : List Byte) : Nat := numAt b 2 2
def id (b : List Byte) : Nat := numAt b 4 4
def version (b : List Byte) : Nat := numAt b 8 4
def length (b : List Byte) : Nat := numAt b 12 4
def minRom (b : List Byte) : Nat := numAt b 16 4
def entryAt (i : Nat) : Nat := 64 + 16 * i
def kind (b : List Byte) (i : Nat) : Nat := numAt b (entryAt i) 1
def number (b : List Byte) (i : Nat) : Nat := numAt b (entryAt i + 2) 2
def offset (b : List Byte) (i : Nat) : Nat := numAt b (entryAt i + 4) 4
def size (b : List Byte) (i : Nat) : Nat := numAt b (entryAt i + 8) 4
/-- The bytes of item i. -/
def item (b : List Byte) (i : Nat) : List Byte := (b.drop (offset b i)).take (size b i)
end Ext

/-- R410: both signatures over `signed` by the authority whose padded keys and signatures stand in `tail`, and whose keys hash to
`authority`. -/
def signedBy (authority : BitVec 384) (signed tail : List Byte) : Bool :=
  let ek := tail.take 97
  let hk := (tail.drop 128).take 52
  hashField (sha384 (ek ++ hk)) == authority && P384.verify ek signed ((tail.drop 192).take 96) &&
    hssVerify hk signed ((tail.drop 288).take 3412)

/-- R187, R416, R417: reserved fields and undefined kinds of a package and its tables. -/
def extReserved (b : List Byte) : Check :=
  firstFail [
    need (numAt b 0 2 == 1) St.reservedSet 0,
    need (numAt b 20 44 == 0) St.reservedSet (20 + lowByte (numAt b 20 44)),
    (List.range (Ext.items b)).findSome? (fun i => firstFail [
      need (1 ≤ Ext.kind b i && Ext.kind b i ≤ 3) St.reservedSet (Ext.entryAt i),
      need (numAt b (Ext.entryAt i + 1) 1 == 0) St.reservedSet (Ext.entryAt i + 1),
      if Ext.kind b i == 1 then reservedBits (numAt (Ext.item b i) 0 16) (maskOf 68 127) (Ext.offset b i) else none,
      need (numAt b (Ext.entryAt i + 12) 4 == 0) St.reservedSet (Ext.entryAt i + 12 + lowByte (numAt b (Ext.entryAt i + 12) 4))])]

/-- R417: an item is whole: inside the signed bytes, a table of 8,208 bytes, or a micro-program image that passes its own checks. -/
def extItemOk (b : List Byte) (i : Nat) : Bool :=
  Ext.offset b i + Ext.size b i ≤ Ext.length b &&
  (if Ext.kind b i == 1 then Ext.size b i == 8208 else (MicroProgram.check (Ext.item b i) (Ext.kind b i == 3) false (fun _ => true)).isNone)

namespace State

/-- The position of an installed package. -/
def extensionAt (s : State) (id : Nat) : Option Nat :=
  (List.range 16).find? (fun p => match SMap.get none s.extensions p with | some e => e.id.toNat == id | none => false)

/-- R417: the position a package takes: that of its id, or the first empty one. -/
def extensionPlace (s : State) (id : Nat) : Option Nat :=
  match s.extensionAt id with
  | some p => some p
  | none => (List.range 16).find? (fun p => (SMap.get none s.extensions p).isNone)

/-- R417: bytes of items that the store holds besides a position. -/
def extensionBytes (s : State) (but : Nat) : Nat :=
  ((List.range 16).map (fun p => if p == but then 0 else match SMap.get none s.extensions p with
    | some e => (e.items.map (·.2.2.length)).sum
    | none => 0)).sum

/-- R417: the checks of a package in their order. -/
def checkExtension (s : State) (b : List Byte) : Check :=
  let signed := b.take (Ext.length b)
  let items := List.range (Ext.items b)
  firstFail [
    need (b.length ≥ 64 && b.length == Ext.length b + 3700) St.badSize 12,
    need (signedBy s.part.extAuthority signed (b.drop (Ext.length b))) St.signature noField,
    need (s.part.lifecycle == 1 || s.part.lifecycle == 2) St.wrongState noField,
    extReserved b,
    need (Ext.items b ≥ 1) St.badSize 2,
    items.findSome? (fun i => need (extItemOk b i) St.badSize (Ext.entryAt i + 4)),
    need (Ext.minRom b ≤ s.part.rom.toNat) St.denied 16,
    need (match s.extensionAt (Ext.id b) with
      | some p => (match SMap.get none s.extensions p with | some e => decide (e.version.toNat < Ext.version b) | none => true)
      | none => true) St.denied 8,
    need (match s.extensionPlace (Ext.id b) with
      | some p => decide (s.extensionBytes p + (items.map (fun i => Ext.size b i)).sum ≤ 2 ^ 21)
      | none => false) St.noResource noField]

/-- R417: a package installed and measured. -/
def installExtension (s : State) (b : List Byte) : State :=
  let e : Extension :=
    { hash := hashField (sha384 b), id := BitVec.ofNat 32 (Ext.id b), version := BitVec.ofNat 32 (Ext.version b)
      items := (List.range (Ext.items b)).map (fun i => (Ext.kind b i, Ext.number b i, Ext.item b i)) }
  match s.extensionPlace (Ext.id b) with
  | none => s
  | some p =>
    ({ s with extensions := SMap.set none s.extensions p (some e) }).measureDevice
      (chainEntry 0x81 0 (s.knownItem [1, 2, 3] b) 0 0 0 (sha384 b))

end State

def loadExtensionSheet : Sheet :=
  { opcode := 0x81, deviceOnly := true, hasData := true, concerns := false
    size := fun w => need (Cmd.length w != 0) St.badSize 4
    pre := fun s _ w => s.checkExtension (s.block w)
    run := fun s _ w => .done (s.installExtension (s.block w)) 0 }

/-- R417. -/
def execLoadExtension (ring : Nat) (s : State) : Answer := .next (s.serve ring loadExtensionSheet)

/-! ### DEBUG_UNLOCK (R420 to R422) -/

def unlockSheet (hasData : Bool) (size : Nat → Check) (pre : State → Nat → Nat → Check) (run : State → Nat → Nat → Verdict) : Sheet :=
  { opcode := 0x90, deviceOnly := true, hasData := hasData, concerns := false, used := [(0, 1)]
    coded := fun w => need (Cmd.field w 0 1 ≤ 2) St.reservedSet (bodyAt 0)
    size := size
    pre := pre
    run := run }

/-- R420: 32 bytes from the entropy source. -/
def challengeSheet : Sheet :=
  unlockSheet false (fun _ => none) (fun _ _ _ => none) (fun s _ _ =>
    let c := (List.range 32).map (Config.entropy s.fresh)
    .done { s with challenge := some c, fresh := s.fresh + 1 } (ofBytes c))

def execChallenge (ring : Nat) (s : State) : Answer :=
  .next (s.serve ring challengeSheet (fun w => !([1, 2].contains (Cmd.field w 0 1))))

namespace State

/-- R421: what is wrong with a response to a challenge. -/
def checkResponse (s : State) (challenge b : List Byte) : Check :=
  let scope := numAt b 2 2
  firstFail [
    need (numAt b 0 2 == 1) St.reservedSet 0,
    reservedBits scope (maskOf 4 15) 2,
    need (numAt b 4 4 == 0) St.reservedSet (4 + lowByte (numAt b 4 4)),
    need (numAt b 56 8 == 0) St.reservedSet (56 + lowByte (numAt b 56 8)),
    need (!scope.testBit 2 || s.noneActive) St.busy 2,
    need (numAt b 8 16 == s.part.serial.toNat) St.signature 8,
    need (numAt b 24 32 == ofBytes challenge) St.signature 24,
    need (signedBy s.part.debugAuthority (b.take 64) (b.drop 64)) St.signature 64]

/-- R419, R421, R422: a response's scope granted. -/
def grant (s : State) (scope : Nat) : State :=
  let retire := scope.testBit 3 && (s.part.lifecycle == 1 || s.part.lifecycle == 2)
  { s with
    scope := s.scope ||| BitVec.ofNat 16 scope
    part := if retire then { s.part with lifecycle := 3 } else s.part }

/-- R330, R420, R421: what is wrong with a response: its length, that no challenge is outstanding, or its content. -/
def checkAnswer (s : State) (w : Nat) : Check :=
  match need (Cmd.length w == 3764) St.badSize 4, s.challenge with
  | some f, _ => some f
  | none, none => some (St.wrongState, noField)
  | none, some c => s.checkResponse c (s.block w)

/-- R420, R421: a response consumes the challenge whatever its outcome. -/
def respond (s : State) (ring w : Nat) : State :=
  let finish (t : State) (st off : Nat) := t.complete ring false 0x90 none (Cmd.tag w) st off 0
  let t := { s with challenge := none }
  match s.checkAnswer w with
  | some (st, off) => finish t st off
  | none => finish (t.grant (numAt (s.block w) 2 2)) St.ok noField

end State

def responseSheet : Sheet :=
  unlockSheet true (fun _ => none) (fun _ _ _ => none) (fun s ring w => .ended (s.respond ring w))

/-- R421. -/
def execResponse (ring : Nat) (s : State) : Answer := .next (s.serve ring responseSheet (fun w => Cmd.field w 0 1 == 1))

/-- R420, R423, R435: every scope clears, the JTAG port closes, and in PRODUCTION every perturbation slot is NONE. -/
def lockSheet : Sheet :=
  unlockSheet false (fun _ => none) (fun _ _ _ => none) (fun s _ _ =>
    let s := { s with scope := 0, perturb := if s.part.lifecycle == 1 then [] else s.perturb }
    .done (if s.part.lifecycle == 0 then s else { s with jtagIr := 1, extestPins := [], tdo := none }) 0)

def execLock (ring : Nat) (s : State) : Answer := .next (s.serve ring lockSheet (fun w => Cmd.field w 0 1 == 2))

/-! ### JTAG (R423) -/

/-- R389, R423: the port is open: never while the device is off, in reset, booting or in STANDBY. -/
def State.jtagOpen (s : State) : Bool :=
  (s.power == .run || s.power == .interval || s.power == .dim) && (s.part.lifecycle == 0 || s.scope.toNat.testBit 2)

/-- R423: while the port is closed, TDO is high impedance and the TAP stays in Test-Logic-Reset. -/
def State.jtag (s : State) (f : State → State) : State := if s.jtagOpen then f s else { s with tdo := none, jtagIr := 1, extestPins := [] }

/-- A register of the chain: its bits come out first, then those shifted in; what is left stays in it. -/
def shiftOut (reg tdi : List Bool) : List Bool := (reg ++ tdi).take tdi.length
def shiftLeft (reg tdi : List Bool) : List Bool := (reg ++ tdi).drop tdi.length

/-- R423: the one-bit bypass register. -/
def execBypass (tdi : List Bool) (s : State) : Answer :=
  .next (s.jtag (fun s => { s with jtagIr := 0, tdo := some (shiftOut [false] tdi), extestPins := [] }))

/-- R423: the 32-bit identification register, whose first bit is 1 (IEEE 1149.1). -/
def execIdcode (tdi : List Bool) (s : State) : Answer :=
  .next (s.jtag (fun s => { s with
    jtagIr := 1, tdo := some (shiftOut ((List.range 32).map (fun i => i == 0 || Config.idcodeBit i)) tdi), extestPins := [] }))

/-- R423: the balls' levels are captured in the boundary register, which takes the bits shifted in. -/
def execSamplePreload (pins tdi : List Bool) (s : State) : Answer :=
  .next (s.jtag (fun s => { s with jtagIr := 2, tdo := some (shiftOut pins tdi), boundary := shiftLeft pins tdi, extestPins := [] }))

/-- R423: as SAMPLE/PRELOAD, and the boundary register drives the balls. -/
def execExtest (pins tdi : List Bool) (s : State) : Answer :=
  .next (s.jtag (fun s => { s with
    jtagIr := 3, tdo := some (shiftOut pins tdi), boundary := shiftLeft pins tdi, extestPins := shiftLeft pins tdi }))

end Sys2Proof.Machine
end

