-- ==== Sys2Proof/Machine/Smbus.lean ====
section
/-! DEFINITION. The SMBus target (R445, R446): `smbus` holds the last answer; none is a NACK, an empty answer the ACK of a write. -/
namespace Sys2Proof.Machine

namespace State

/-- R445: a transaction whose error check passes and whose operand the table allows has its effect and is answered; any other is NACKed.
A part that is off does not answer. -/
def transaction (s : State) (pec ok : Bool) (effect : State → State) (answer : List Byte) : State :=
  if s.power == .off then s
  else if pec && ok then { (effect s) with smbus := some answer }
  else { s with smbus := none }

/-- R380, R446: from STANDBY the device boots without a power-on. -/
def wakeUp (s : State) : State := if s.power == .standby then { s with power := .booting, zeroing := 1 } else s

/-- R446: what READ_STATE returns. -/
def stateAnswer (s : State) : List Byte :=
  toBytes 4 (pack [(s.power.code, 8), (s.hpStatus, 8), (s.stretch, 2), (0, 6), (s.part.lifecycle.toNat, 8)])

end State

/-- R446. -/
def execWake (pec : Bool) (s : State) : Answer := .next (s.transaction pec true State.wakeUp [])

/-- R384, R446. -/
def execLinkReset (link : Nat) (pec : Bool) (s : State) : Answer :=
  .next (s.transaction pec (link < 16) (fun s => s.resetLink link) [])

/-- R446. -/
def execReadVid (pec : Bool) (s : State) : Answer := .next (s.transaction pec true id [BitVec.ofNat 8 s.part.vid])

/-- R446: zero until the device is ready. -/
def execReadTemp (district : Nat) (pec : Bool) (s : State) : Answer :=
  .next (s.transaction pec (district < 32) id (toBytes 2 (if s.ready then SMap.get 720 s.temps district else 0)))

/-- R446. -/
def execReadState (pec : Bool) (s : State) : Answer := .next (s.transaction pec true id s.stateAnswer)

/-- R446. -/
def execReadSerial (pec : Bool) (s : State) : Answer := .next (s.transaction pec true id (toBytes 16 s.part.serial.toNat))

end Sys2Proof.Machine
end

