-- ==== Sys2Proof/Machine/Update.lean ====
section
/-! DEFINITION. The owner's update: the optimizer over the master weights, the scale finder, the broadcast image, and the patrol scrub of the
Exchange bank, the foyer and idle slices (R155, R157, R203 to R206, R216, R259, R267 to R271, R273, R274, R296, R402). -/
namespace Sys2Proof.Machine

/-! ### Arrays of the Exchange bank -/

namespace State

/-- Bytes read from the Exchange bank unit by unit, or nothing where a unit is uncorrectable (R402). -/
def readBank (s : State) (unit n : Nat) : State × Option (List Byte) :=
  let (s, parts) := (List.range (ceilDiv n 64)).foldl (fun (p : State × Option (List (List Byte))) i =>
    match p.2 with
    | none => p
    | some ds =>
      match p.1.readUnit .exchange (64 * (unit + i)) (fun s => s.countChip 0x13 none 1) with
      | (s, none) => (s, none)
      | (s, some d) => (s, some (d :: ds))) (s, some [])
  (s, parts.map (fun ds => ds.reverse.flatten.take n))

/-- Several arrays read, each a first unit and a number of bytes. -/
def readArrays (s : State) : List (Nat × Nat) → State × Option (List (List Byte))
  | [] => (s, some [])
  | (u, n) :: t =>
    match s.readBank u n with
    | (s, none) => (s, none)
    | (s, some d) =>
      match s.readArrays t with
      | (s, some ds) => (s, some (d :: ds))
      | (s, none) => (s, none)

end State

/-- The posit32 words of an array. -/
def bankWords (d : List Byte) : List Nat := (chunks 4 (d.length / 4) d).map ofBytes

/-! ### The optimizer (R269, R267) -/

/-- What the update engine reads besides the elements: posit32, function tables of the ROM, the job's scalars; the prologue runs. -/
def engineCtx (job : Nat) (p : MicroProgram) : RowCtx :=
  { n := 32, dir := p.direction, tables := []
    params := (List.range 16).map (fun k => if k == 0 then 16 else if k ≥ 3 then BitVec.ofNat 32 (JobRec.scalar job k) else 0) }

/-- R269: an element at its start: the gradient, and W10 to W12 with the master weight and the moments, exact. -/
def engineElem (i g m a b : Nat) : Elem :=
  let wide (v : Nat) := toWide (posit 32 v)
  { index := i, input := wide g, w := SMap.setMany 0 [] [(10, wide m), (11, wide a), (12, wide b)] }

/-- R267, R269: the groups of 16 in order; an element whose gradient is NaR keeps its values. Each tuple holds the element's number, gradient,
master weight and moments. -/
def engineGroups (x : RowCtx) (ws : List StepWord) : RowRegs → List (List (Nat × Nat × Nat × Nat × Nat)) → List (Nat × Nat × Nat)
  | _, [] => []
  | r, g :: t =>
    let nar (e : Nat × Nat × Nat × Nat × Nat) : Bool := e.2.1 == 2 ^ 31
    let live := (g.filter (fun e => !nar e)).map (fun e => engineElem e.1 e.2.1 e.2.2.1 e.2.2.2.1 e.2.2.2.2)
    let (r, done) := runGroup x ws r live
    let back (e : Elem) (w : Nat) : Nat := roundPosit 32 .rne (wideVal (e.get w))
    let out := g.map (fun e => match done.find? (fun d => d.index == e.1) with
      | some d => (back d 10, back d 11, back d 12)
      | none => e.2.2)
    out ++ engineGroups x ws r t

/-- R269: one call over a bucket: the new master weights and moments, in element order. -/
def runEngine (job : Nat) (p : MicroProgram) (g m a b : List Nat) : List (Nat × Nat × Nat) :=
  let x := engineCtx job p
  let ws := p.steps.map StepWord.ofBits
  let es := (List.range g.length).zip (g.zip (m.zip (a.zip b)))
  engineGroups x ws (runPrologue x ws {}) (chunks 16 (g.length / 16 + 1) es)

/-! ### The scale finder (R205, R206) -/

/-- A history entry: EMPTY or an exponent. -/
def historyOf (b : Byte) : Option Int := if b = historyEmpty then none else some b.toInt
def historyByte (h : Option Int) : Byte := match h with | none => historyEmpty | some v => BitVec.ofInt 8 v

/-- R205: exponent of the largest magnitude of a channel, NaR and zero left out. -/
def channelTop (ws : List Exact) : Option Int :=
  (ws.filter Exact.isReal).foldl (fun t v => match t with
    | none => some v.log2
    | some a => some (max a v.log2)) none

/-- R205: the history of a channel with the newest entry in front, its exponent, and what the exponent would be unclamped. -/
def findScale (target : Int) (window : Nat) (old : List (Option Int)) (top : Option Int) : List (Option Int) × Int × Int :=
  let h := (top :: old).take window
  let best := (h.filterMap id).foldl (fun (t : Option Int) v => match t with | none => some v | some a => some (max a v)) none
  match best with
  | none => (h, 0, 0)
  | some e =>
    let v := e - target
    (h, max (-64) (min 63 v), v)

/-! ### The broadcast image (R270) -/

/-- How an update converts. -/
structure Conversion where
  stochastic : Bool
  seed : BitVec 64
  step : Nat
  tensor : Nat
  index : Nat
  deriving DecidableEq, Repr

/-- R36: an exact value lies outside the magnitudes of posit-n. -/
def saturates (n : Nat) (x : Exact) : Bool := (positCount n true x).clamp != 0

/-- R205, R270: one element converted: its encoding and counts. A saturation counts as a scale clamp where the unclamped exponent, `wanted`, would
not have saturated. -/
def Conversion.element (v : Conversion) (n : Nat) (scale wanted : Int) (i w : Nat) : Nat × ConvCount :=
  let x := (posit 32 w).scale (-scale)
  let md : Rounding := if v.stochastic then .stochastic (draw v.seed v.step v.tensor (v.index + i)) else .rne
  (roundPosit n md x, positCount n (!saturates n ((posit 32 w).scale (-wanted))) x)

/-- R205, R270: the value part and the exponents of an image, with the counts; `scales` are the exponents, as used and as wanted, by channel. -/
def imageBytes (v : Conversion) (i : ImageShape) (scales : List (Int × Int)) (ws : List Nat) : List Byte × ConvCount :=
  let total (l : List (Nat × ConvCount)) : ConvCount := l.foldl (fun a p => a.add p.2) {}
  let numbered := (List.range ws.length).zip ws
  if !i.finder then
    let n := if i.posit16 then 16 else 8
    let out := numbered.map (fun p => v.element n 0 0 p.1 p.2)
    (out.flatMap (fun p => toBytes (n / 8) p.1), total out)
  else
    let tail (e : Nat) : Bool := decide (e % i.channel ≥ i.channel - i.outliers)
    let out := numbered.map (fun p =>
      let (used, wanted) := scales.getD (p.1 / i.channel) (0, 0)
      (p.1, v.element (if tail p.1 then 16 else 8) used wanted p.1 p.2))
    let small := (out.filter (fun p => !tail p.1)).flatMap (fun p => toBytes 1 p.2.1)
    let wide := (out.filter (fun p => tail p.1)).flatMap (fun p => toBytes 2 p.2.1)
    let exps := scales.map (fun p => BitVec.setWidth 8 (BitVec.ofInt 7 p.1))
    (small ++ wide ++ exps, total (out.map (·.2)))

namespace State

/-- R205, R206: the finder over the master weights of a context: each channel's new history and its exponent. -/
def findScales (s : State) (x : Nat) (history : List Byte) (ws : List Nat) : List (List (Option Int) × Int × Int) :=
  let r := (s.context x).record.toNat
  let f := CtxRec.finder r
  let i := s.imageShape x
  let w := Finder.window f
  (List.range i.channels).map (fun j =>
    let old := ((history.drop (j * w)).take w).map historyOf
    findScale (Finder.target f) w old (channelTop (((ws.drop (j * i.channel)).take i.channel).map (posit 32))))

/-- R268, R270: the image made from master weights is stored and counted, and answered; the history is kept if `keep` says so. -/
def storeImage (s : State) (x : Nat) (history : List Byte) (ws : List Nat) (keep : Bool) : State × List Byte :=
  let k := s.context x
  let r := k.record.toNat
  let i := s.imageShape x
  let found := if i.finder then s.findScales x history ws else []
  let v : Conversion :=
    { stochastic := CtxRec.rounding r == 1, seed := JobRec.seed (s.job (s.contextJob x)).record.toNat, step := k.step,
      tensor := CtxRec.tensor r, index := CtxRec.indexBase r }
  let (d, n) := imageBytes v i (found.map (fun p => p.2)) ws
  let image := padTo (256 * i.flits) 0 d
  let s := s.putBank (CtxRec.image r) image
  let s := if keep && i.finder then s.putBytes .exchange (64 * CtxRec.history r) (found.flatMap (fun p => (padTo (Finder.window (CtxRec.finder r)) none p.1).map historyByte))
    else s
  ((s.calChip (CtxRec.tensor r) n).updContext x (fun k => { k with hasImage := true }), image)

/-! ### The choice of the next plan (R259) -/

/-- R259: in fast mode the plan with the least measured ticks; one not yet used in the epoch counts as 0. -/
def choosePlan (s : State) (x : Nat) : Nat :=
  if JobRec.reproducible (s.job (s.contextJob x)).record.toNat then s.fixedPlan x
  else
    let t := (s.context x).planTicks
    (List.range (DirEntry.plans (s.bucketEntry x))).foldl (fun b p => if SMap.get 0 t p < SMap.get 0 t b then p else b) 0

/-! ### The update (R267, R268, R271, R273, R274) -/

/-- R268, R273, R296: the update of a bucket is due: every gradient is staged and, under WITHHOLD, every sample settled; an update that a
cancelled context had begun is due as well. -/
def updateDue (s : State) (x : Nat) : Bool :=
  let k := s.context x
  s.contextLive x && PlanRec.isRoot (s.planRec x) && !s.isSecondary (s.contextJob x) &&
    (if k.state == .cancelled then k.cancelledUpdate && !s.fatal else s.jobRuns (s.contextJob x) && s.updateBegun x)

/-- R266, R267: the update is withheld. -/
def updateWithheld (s : State) (x : Nat) : Bool :=
  let k := s.context x
  let j := (s.job (s.contextJob x)).record.toNat
  (JobRec.haltStep j && k.narCount != 0) || (JobRec.withhold j && k.checked.any (fun c => c.2 == 1))

/-- R402: the update engine met an uncorrectable unit: the job is aborted and the bucket is not updated. -/
def updateFailed (s : State) (x : Nat) : State :=
  let step := (s.context x).step
  (s.updContext x (fun k => { k with cancelledUpdate := false })).abortJob (s.contextJob x) step 5

/-- R268 to R270: the optimizer, the finder and the conversion, with the image; the bucket's arrays are read whole first. -/
def runUpdate (s : State) (x : Nat) (p : MicroProgram) : State × Option (List Byte) :=
  let r := (s.context x).record.toNat
  let n := DirEntry.elements (s.bucketEntry x)
  let i := s.imageShape x
  let hist := if i.finder then historyBytes r i else 0
  match s.readArrays [(CtxRec.work r, 4 * n), (CtxRec.master r, 4 * n), (CtxRec.moment0 r, 4 * n), (CtxRec.moment1 r, 4 * n),
      (CtxRec.history r, hist)] with
  | (s, some [g, m, a, b, h]) =>
    let out := runEngine (s.job (s.contextJob x)).record.toNat p (bankWords g) (bankWords m) (bankWords a) (bankWords b)
    let s := s.putBank (CtxRec.master r) (out.flatMap (fun e => toBytes 4 e.1))
    let s := s.putBank (CtxRec.moment0 r) (out.flatMap (fun e => toBytes 4 e.2.1))
    let s := s.putBank (CtxRec.moment1 r) (out.flatMap (fun e => toBytes 4 e.2.2))
    let (s, image) := s.storeImage x h (out.map (·.1)) true
    (s, some image)
  | (s, _) => (s, none)

/-- R268: a withheld bucket: its stored image is read, or, where there is none, made from the unchanged master weights. -/
def withholdUpdate (s : State) (x : Nat) : State × Option (List Byte) :=
  let r := (s.context x).record.toNat
  let n := DirEntry.elements (s.bucketEntry x)
  let i := s.imageShape x
  if (s.context x).hasImage then s.readBank (CtxRec.image r) (256 * i.flits)
  else
    match s.readArrays [(CtxRec.master r, 4 * n), (CtxRec.history r, if i.finder then historyBytes r i else 0)] with
    | (s, some [m, h]) =>
      let (s, image) := s.storeImage x h (bankWords m) false
      (s, some image)
    | (s, _) => (s, none)

/-- R271, R272, R296: the owner's image sent to the children and to the secondary, in packets of up to 32 flits; the owner lands it too. -/
def broadcastImage (s : State) (x : Nat) (nextPlan : Nat) (image : List Byte) : State :=
  let n := image.length / 256
  let s := s.updContext x (fun k => { k with image := (List.range n).zip (chunks 256 n image) })
  (List.range (ceilDiv n 32)).foldl (fun s i =>
    let d := (image.drop (8192 * i)).take 8192
    (s.forwardDown x (0x400000 + 32 * i) nextPlan d).forwardPair x (0x400000 + 32 * i) nextPlan d) s

/-- R259, R271, R274: the update has ended or is withheld: its record is posted, and unless it was cancelled the image goes down and lands. -/
def endUpdate (s : State) (x : Nat) (withheld : Bool) (image : List Byte) : State :=
  let c := s.jobCompany (s.contextJob x)
  let cancelled := (s.context x).state == .cancelled
  let s := s.updContext x (fun k => { k with planTicks := SMap.set 0 k.planTicks k.plan k.reduceTicks, cancelledUpdate := false })
  let p := s.choosePlan x
  let n := s.nextCarriage
  let s := s.updContext x (fun k => { k with nextPlan := p, announced := some p })
  let s := s.postCompany c 5 (s.bucketBody x 1 withheld (!s.settled x) cancelled 0)
  if cancelled then s
  else
    let s := { s.updContext x (fun k => { k with state := .landing, landOrder := n }) with nextCarriage := n + 1 }
    s.broadcastImage x p image

end State

/-- R268, R394. -/
def execUpdate (context : Nat) (s : State) : Answer :=
  .next (if !s.updateDue context then s
    else s.throughExchange (fun s =>
      let held := s.updateWithheld context
      if held then
        match s.withholdUpdate context with
        | (t, some image) => t.endUpdate context true image
        | (t, none) => t.updateFailed context
      else
        match SMap.get none s.engine (CtxRec.optimizer (s.context context).record.toNat) with
        | none => s
        | some p =>
          match s.runUpdate context p with
          | (t, some image) => t.endUpdate context false image
          | (t, none) => t.updateFailed context))

/-! ### The patrol scrub (R155, R157, R402) -/

namespace State

/-- R401, R402: a foyer unit scrubbed word by word. -/
def scrubFoyer (s : State) (unit : Nat) : State :=
  let word (i : Nat) := 64 * unit + 8 * i
  let ws := (List.range 8).map word
  let s := ws.foldl (fun s a => if s.upset .foyer a == 1 then (s.setUpset .foyer a 0).countChip 0x14 none 1 else s) s
  if ws.any (fun a => s.upset .foyer a ≥ 2) then s.countChip 0x40 none 1 else s

/-- R157: the next Exchange-bank unit, with the foyer unit of the same number in its own round. -/
def scrubBank (s : State) : State :=
  let n := s.scrubNext
  let s := (s.scrubUnit .exchange (64 * n) (fun s => s.countChip 0x13 none 1)).scrubFoyer (n % 2 ^ 20)
  { s with scrubNext := (n + 1) % 2 ^ 27 }

/-- R155: the slice's company is idle, or it belongs to none. -/
def sliceIdle (s : State) (core : Nat) : Bool :=
  match s.companyOf core with
  | some c => s.companyIdle c
  | none => true

end State

/-- R155, R157, R382: the patrol scrub runs while the device is awake. -/
def execPatrolScrub (core : Option CoreId) (s : State) : Answer :=
  .next (if !s.awake then s
    else match core with
      | none => s.scrubBank
      | some k => if s.coreExists k && s.sliceIdle k then s.scrubSlice k else s)

end Sys2Proof.Machine
end

