-- ==== Sys2Proof/Machine/Dispatch.lean ====
section
/-! DEFINITION. The dispatch of a command to its meaning, one arm per row of the step table. -/

namespace Sys2Proof.Machine

/-- The effect of a command on everything but the queue. -/
def exec (i : Instr) (s : State) : Host.Outcome State Fault Refusal :=
  match i with
  | .seta core => Sys2Proof.Machine.execSeta core s
  | .adda core => Sys2Proof.Machine.execAdda core s
  | .setl core => Sys2Proof.Machine.execSetl core s
  | .loop core => Sys2Proof.Machine.execLoop core s
  | .waitOp core => Sys2Proof.Machine.execWaitOp core s
  | .nop core slot => Sys2Proof.Machine.execNop core slot s
  | .pass core => Sys2Proof.Machine.execPass core s
  | .passGroupLanding core => Sys2Proof.Machine.execPassGroupLanding core s
  | .strike core => Sys2Proof.Machine.execStrike core s
  | .dma core => Sys2Proof.Machine.execDma core s
  | .refresh core => Sys2Proof.Machine.execRefresh core s
  | .door core => Sys2Proof.Machine.execDoor core s
  | .send core => Sys2Proof.Machine.execSend core s
  | .recv core => Sys2Proof.Machine.execRecv core s
  | .call core => Sys2Proof.Machine.execCall core s
  | .actEndCheck core => Sys2Proof.Machine.execActEndCheck core s
  | .refreshMissed core => Sys2Proof.Machine.execRefreshMissed core s
  | .lateDelivery core => Sys2Proof.Machine.execLateDelivery core s
  | .streetUnitArrival core channel => Sys2Proof.Machine.execStreetUnitArrival core channel s
  | .linkUnitPass link => Sys2Proof.Machine.execLinkUnitPass link s
  | .handshakeWaitEnd core cycles => Sys2Proof.Machine.execHandshakeWaitEnd core cycles s
  | .forcedRefresh core => Sys2Proof.Machine.execForcedRefresh core s
  | .automaticRefresh core => Sys2Proof.Machine.execAutomaticRefresh core s
  | .actChoice company => Sys2Proof.Machine.execActChoice company s
  | .curtainHeld company => Sys2Proof.Machine.execCurtainHeld company s
  | .admission company => Sys2Proof.Machine.execAdmission company s
  | .admissionReevaluation company => Sys2Proof.Machine.execAdmissionReevaluation company s
  | .ballastHoldExpiry company => Sys2Proof.Machine.execBallastHoldExpiry company s
  | .ballastTaperEnd company => Sys2Proof.Machine.execBallastTaperEnd company s
  | .curtainUp company => Sys2Proof.Machine.execCurtainUp company s
  | .stopNotice core => Sys2Proof.Machine.execStopNotice core s
  | .companyHalted company => Sys2Proof.Machine.execCompanyHalted company s
  | .doorbell ring value => Sys2Proof.Machine.execDoorbell ring value s
  | .cplHeadWrite ring value => Sys2Proof.Machine.execCplHeadWrite ring value s
  | .counterClear channel counter => Sys2Proof.Machine.execCounterClear channel counter s
  | .registerWrite offset value => Sys2Proof.Machine.execRegisterWrite offset value s
  | .commandTake ring => Sys2Proof.Machine.execCommandTake ring s
  | .recordPost ring => Sys2Proof.Machine.execRecordPost ring s
  | .hello ring => Sys2Proof.Machine.execHello ring s
  | .setInterface ring => Sys2Proof.Machine.execSetInterface ring s
  | .queryDevice ring => Sys2Proof.Machine.execQueryDevice ring s
  | .deviceReset ring => Sys2Proof.Machine.execDeviceReset ring s
  | .formCompany ring => Sys2Proof.Machine.execFormCompany ring s
  | .disbandCompany ring => Sys2Proof.Machine.execDisbandCompany ring s
  | .resetCompany ring => Sys2Proof.Machine.execResetCompany ring s
  | .setMode ring => Sys2Proof.Machine.execSetMode ring s
  | .understudyPair ring => Sys2Proof.Machine.execUnderstudyPair ring s
  | .understudyPairTimeout company => Sys2Proof.Machine.execUnderstudyPairTimeout company s
  | .loadScript ring => Sys2Proof.Machine.execLoadScript ring s
  | .loadTables ring => Sys2Proof.Machine.execLoadTables ring s
  | .loadMicroprogramCores ring => Sys2Proof.Machine.execLoadMicroprogramCores ring s
  | .loadMicroprogramEngine ring => Sys2Proof.Machine.execLoadMicroprogramEngine ring s
  | .setCue ring => Sys2Proof.Machine.execSetCue ring s
  | .carriageIn ring => Sys2Proof.Machine.execCarriageIn ring s
  | .carriageOut ring => Sys2Proof.Machine.execCarriageOut ring s
  | .carriageUnitLanding carriage => Sys2Proof.Machine.execCarriageUnitLanding carriage s
  | .curtainUpAt ring => Sys2Proof.Machine.execCurtainUpAt ring s
  | .immediate ring => Sys2Proof.Machine.execImmediate ring s
  | .atCurtain ring => Sys2Proof.Machine.execAtCurtain ring s
  | .fabricConfig ring => Sys2Proof.Machine.execFabricConfig ring s
  | .loadPlan ring => Sys2Proof.Machine.execLoadPlan ring s
  | .loadDirectory ring => Sys2Proof.Machine.execLoadDirectory ring s
  | .setHouseBudget ring => Sys2Proof.Machine.execSetHouseBudget ring s
  | .run ring => Sys2Proof.Machine.execRun ring s
  | .interval ring => Sys2Proof.Machine.execInterval ring s
  | .dim ring => Sys2Proof.Machine.execDim ring s
  | .standby ring => Sys2Proof.Machine.execStandby ring s
  | .stateReached => Sys2Proof.Machine.execStateReached s
  | .dimWakeWave => Sys2Proof.Machine.execDimWakeWave s
  | .eventConfig ring => Sys2Proof.Machine.execEventConfig ring s
  | .eventRead ring => Sys2Proof.Machine.execEventRead ring s
  | .readFault ring => Sys2Proof.Machine.execReadFault ring s
  | .attest ring => Sys2Proof.Machine.execAttest ring s
  | .loadExtension ring => Sys2Proof.Machine.execLoadExtension ring s
  | .challenge ring => Sys2Proof.Machine.execChallenge ring s
  | .response ring => Sys2Proof.Machine.execResponse ring s
  | .lock ring => Sys2Proof.Machine.execLock ring s
  | .debugReadQuire ring => Sys2Proof.Machine.execDebugReadQuire ring s
  | .testPerturb ring => Sys2Proof.Machine.execTestPerturb ring s
  | .linkError slot => Sys2Proof.Machine.execLinkError slot s
  | .activate1 channel bank upper => Sys2Proof.Machine.execActivate1 channel bank upper s
  | .activate2 channel bank lower => Sys2Proof.Machine.execActivate2 channel bank lower s
  | .precharge channel bank => Sys2Proof.Machine.execPrecharge channel bank s
  | .prechargeAll channel => Sys2Proof.Machine.execPrechargeAll channel s
  | .read16 channel bank column overlap => Sys2Proof.Machine.execRead16 channel bank column overlap s
  | .read32 channel bank column overlap => Sys2Proof.Machine.execRead32 channel bank column overlap s
  | .write16 channel bank column data overlap => Sys2Proof.Machine.execWrite16 channel bank column data overlap s
  | .write32 channel bank column data overlap => Sys2Proof.Machine.execWrite32 channel bank column data overlap s
  | .maskedWrite channel bank column data mask overlap => Sys2Proof.Machine.execMaskedWrite channel bank column data mask overlap s
  | .modeRegisterWrite channel reg value => Sys2Proof.Machine.execModeRegisterWrite channel reg value s
  | .modeRegisterRead channel reg => Sys2Proof.Machine.execModeRegisterRead channel reg s
  | .cas channel op => Sys2Proof.Machine.execCas channel op s
  | .multiPurposeCommand channel op pattern => Sys2Proof.Machine.execMultiPurposeCommand channel op pattern s
  | .writeFifo channel data => Sys2Proof.Machine.execWriteFifo channel data s
  | .readFifo channel => Sys2Proof.Machine.execReadFifo channel s
  | .readDqCalibration channel => Sys2Proof.Machine.execReadDqCalibration channel s
  | .refreshAllBank channel => Sys2Proof.Machine.execRefreshAllBank channel s
  | .refreshPerBank channel bank => Sys2Proof.Machine.execRefreshPerBank channel bank s
  | .refreshManagement channel => Sys2Proof.Machine.execRefreshManagement channel s
  | .selfRefreshEntry channel => Sys2Proof.Machine.execSelfRefreshEntry channel s
  | .selfRefreshExit channel => Sys2Proof.Machine.execSelfRefreshExit channel s
  | .powerDownEntry channel => Sys2Proof.Machine.execPowerDownEntry channel s
  | .powerDownExit channel => Sys2Proof.Machine.execPowerDownExit channel s
  | .deepSleepEntry channel => Sys2Proof.Machine.execDeepSleepEntry channel s
  | .deepSleepExit channel => Sys2Proof.Machine.execDeepSleepExit channel s
  | .deselect channel => Sys2Proof.Machine.execDeselect channel s
  | .hostResetN level => Sys2Proof.Machine.execHostResetN level s
  | .channelInitialised channel => Sys2Proof.Machine.execChannelInitialised channel s
  | .powerOnReset => Sys2Proof.Machine.execPowerOnReset s
  | .resetN => Sys2Proof.Machine.execResetN s
  | .boot => Sys2Proof.Machine.execBoot s
  | .powerDown => Sys2Proof.Machine.execPowerDown s
  | .watchdog => Sys2Proof.Machine.execWatchdog s
  | .bottomTreeComplete => Sys2Proof.Machine.execBottomTreeComplete s
  | .wake pec => Sys2Proof.Machine.execWake pec s
  | .linkReset link pec => Sys2Proof.Machine.execLinkReset link pec s
  | .readVid pec => Sys2Proof.Machine.execReadVid pec s
  | .readTemp district pec => Sys2Proof.Machine.execReadTemp district pec s
  | .readState pec => Sys2Proof.Machine.execReadState pec s
  | .readSerial pec => Sys2Proof.Machine.execReadSerial pec s
  | .bypass tdi => Sys2Proof.Machine.execBypass tdi s
  | .idcode tdi => Sys2Proof.Machine.execIdcode tdi s
  | .samplePreload pins tdi => Sys2Proof.Machine.execSamplePreload pins tdi s
  | .extest pins tdi => Sys2Proof.Machine.execExtest pins tdi s
  | .temperatureReading readings => Sys2Proof.Machine.execTemperatureReading readings s
  | .vrHotN low => Sys2Proof.Machine.execVrHotN low s
  | .powerMeasurement watts => Sys2Proof.Machine.execPowerMeasurement watts s
  | .stretchLevelRise => Sys2Proof.Machine.execStretchLevelRise s
  | .stretchLevelFall => Sys2Proof.Machine.execStretchLevelFall s
  | .idle link frame => Sys2Proof.Machine.execIdle link frame s
  | .header link frame body => Sys2Proof.Machine.execHeader link frame body s
  | .flit link frame body => Sys2Proof.Machine.execFlit link frame body s
  | .rttProbe link frame body turnaround => Sys2Proof.Machine.execRttProbe link frame body turnaround s
  | .rttProbeTimer link fine => Sys2Proof.Machine.execRttProbeTimer link fine s
  | .rttReply link frame body fine => Sys2Proof.Machine.execRttReply link frame body fine s
  | .time link frame body => Sys2Proof.Machine.execTime link frame body s
  | .timeTimer link fine => Sys2Proof.Machine.execTimeTimer link fine s
  | .townSyncLost cause => Sys2Proof.Machine.execTownSyncLost cause s
  | .spareRequest link frame body => Sys2Proof.Machine.execSpareRequest link frame body s
  | .spareRequestTimer link => Sys2Proof.Machine.execSpareRequestTimer link s
  | .spareAck link frame body => Sys2Proof.Machine.execSpareAck link frame body s
  | .linkId link frame body => Sys2Proof.Machine.execLinkId link frame body s
  | .laneLoss link lane => Sys2Proof.Machine.execLaneLoss link lane s
  | .linkLost link => Sys2Proof.Machine.execLinkLost link s
  | .linkUp link => Sys2Proof.Machine.execLinkUp link s
  | .packetForward index => Sys2Proof.Machine.execPacketForward index s
  | .routeSwap => Sys2Proof.Machine.execRouteSwap s
  | .creditStarved company link vc => Sys2Proof.Machine.execCreditStarved company link vc s
  | .reduceUp link => Sys2Proof.Machine.execReduceUp link s
  | .shadowSample link => Sys2Proof.Machine.execShadowSample link s
  | .broadcastDown link => Sys2Proof.Machine.execBroadcastDown link s
  | .carriage link place => Sys2Proof.Machine.execCarriage link place s
  | .landed child job step epoch => Sys2Proof.Machine.execLanded child job step epoch s
  | .scene job step count epoch late => Sys2Proof.Machine.execScene job step count epoch late s
  | .sceneChange job => Sys2Proof.Machine.execSceneChange job s
  | .jobAbort job step => Sys2Proof.Machine.execJobAbort job step s
  | .contextTimeout context => Sys2Proof.Machine.execContextTimeout context s
  | .bucketTrigger context => Sys2Proof.Machine.execBucketTrigger context s
  | .bucketBufferRead context => Sys2Proof.Machine.execBucketBufferRead context s
  | .hop context => Sys2Proof.Machine.execHop context s
  | .shadowCheck context element => Sys2Proof.Machine.execShadowCheck context element s
  | .update context => Sys2Proof.Machine.execUpdate context s
  | .broadcastLanding context => Sys2Proof.Machine.execBroadcastLanding context s
  | .signatureExchange company sigs => Sys2Proof.Machine.execSignatureExchange company sigs s
  | .understudyPartnerStopped company => Sys2Proof.Machine.execUnderstudyPartnerStopped company s
  | .patrolScrub core => Sys2Proof.Machine.execPatrolScrub core s
  | .creditWithhold slot => Sys2Proof.Machine.execCreditWithhold slot s
  | .carriageAcknowledgement carriage => Sys2Proof.Machine.execCarriageAcknowledgement carriage s
  | .understudyPairExchange company role link rom extHashes scriptHash districts idle up free => Sys2Proof.Machine.execUnderstudyPairExchange company role link rom extHashes scriptHash districts idle up free s
  | .townRefEdge => Sys2Proof.Machine.execTownRefEdge s

end Sys2Proof.Machine
end

