-- ==== Sys2Proof/Safety.lean ====
section
/-! DEFINITION. What counts as a safe run, in the terms the claims use: every step answers a next state, and the state stays within the
bounds that the spec gives it. -/
namespace Sys2Proof.Machine

/-- A step that neither stops nor is refused. -/
def SafeStep (s : State) : Prop := ∃ t, step s = .next t

/-- The fuses of a part that no command burns or changes (R3, R407, R441): all but the lifecycle state and the count of boots. -/
def Part.fixed (p : Part) : Nat × BitVec 128 × BitVec 256 × BitVec 384 × BitVec 384 × Word × Nat :=
  (p.grade, p.serial, p.identitySeed, p.extAuthority, p.debugAuthority, p.rom, p.vid)

/-- A ring's bounds: at most 64 commands outstanding (R325), at most 1,024 event records waiting (R328). -/
structure Ring.Bounded (k : Ring) : Prop where
  taken : k.taken.length ≤ 64
  queue : k.queue.length ≤ 1024

/-- The bounds of a state: the memory keeps its canonical form; the rings keep theirs; the stretch level is 0 to 2 (R373); the house budget
keeps the ranges of SET_HOUSE_BUDGET, with fuse_max at 950 W (R355); the chip id is assignable or not assigned (R235). -/
structure State.Bounded (s : State) : Prop where
  mem : Memory.wf s.mem = true
  rings : ∀ r, (s.ring r).Bounded
  stretch : s.stretch ≤ 2
  fuse : s.fuseMax = 950
  sustained : 100 ≤ s.sustained ∧ s.sustained ≤ s.fuseMax
  peak : s.sustained ≤ s.peak ∧ s.peak ≤ 1150
  ramp : 1 ≤ s.ramp
  chip : s.chipId < 0x8000 ∨ s.chipId = 0xFFFF

/-! ### Situations that the claims name -/

/-- R323: an address outside every ring's completion slots. -/
def OutsideRecords (a : Nat) : Prop := ∀ r i, a < completionSlot r i ∨ completionSlot r i + 128 ≤ a

/-- `t` is `s` but for company `c`, the running set, event counters and the records they post. -/
structure Aside (c : Nat) (s t : State) : Prop where
  state : t = { s with
    mem := t.mem, upsets := t.upsets, rings := t.rings, cores := t.cores, companies := t.companies, running := t.running
    districtCounters := t.districtCounters, chipCounters := t.chipCounters }
  core : ∀ i, t.core i = { s.core i with counters := (t.core i).counters }
  others : ∀ d, d ≠ c → t.company d = s.company d
  bytes : ∀ a, OutsideRecords a → Memory.read t.mem a = Memory.read s.mem a
  errors : ∀ a, OutsideRecords a → SMap.get 0 t.upsets a = SMap.get 0 s.upsets a

/-- R88, R120, R122: core `c` stands at the cycle of its due bundle, within its act's running cycles, at the control slot, and nothing of R96, R109,
R137 or R393 stops the bundle. -/
structure BundleDue (s : State) (c : Nat) : Prop where
  running : (s.core c).run = .running
  phase : (s.core c).phase = 0
  code : (s.core c).bundle < (s.core c).code.length
  cycle : (s.core c).cycle = (s.core c).issueAt
  act : (s.core c).issueAt < s.scheduledCycles c
  street : s.streetBlock c 0 = none
  cadence : (s.core c).cadence < 2497
  fault : s.bundleFault c = none

/-- R120: the slots of core `c`'s due bundle before slot `i` have issued, and slot `i` holds operation code `op`. -/
structure SlotDue (s : State) (c i op : Nat) : Prop where
  running : (s.core c).run = .running
  phase : (s.core c).phase = i
  code : (s.core c).bundle < (s.core c).code.length
  op : Bundle.op (s.core c).dueBundle i = op

/-- R393, R401: no unit of DRAM is in error, no code port of the cores `l` is, and no code bank they prefetched failed. -/
structure Sound (l : List Nat) (s : State) : Prop where
  units : s.upsets = []
  port : ∀ x ∈ l, (s.sramErrors (fun e => e == .setting x 3)).1 = none
  bank : ∀ x ∈ l, ∀ b, (s.core x).idle = some b → b.failed = none

/-- R329, R330, R332: the ring's current command is this sheet's, its word is `w`, no fence holds it, and every check of it passes. -/
structure Serving (s : State) (ring w : Nat) (t : Sheet) (mine : Nat → Bool := fun _ => true) : Prop where
  current : ∃ c, s.current ring = some c ∧ c.word = w
  ready : s.ready = true
  opcode : Cmd.opcode w = t.opcode
  mine : mine w = true
  fence : Cmd.fence w = false ∨ (s.ring ring).taken.any (·.accepted) = false
  checks : s.checkCommand ring w t = none

/-- R223, R224, R233: what a link holds after the acknowledgement and the credits of a frame word. Of a packet that is acknowledged in part the
acknowledged frames are kept beside the replay buffer (R238). -/
def Link.heard (k : Link) (f : Nat) : Link :=
  let i := creditIndex (bitsOf f 59 2) (bitsOf f 61 1) (bitsOf f 62 5)
  let named (x : Frame) : Bool := x.seq == bitsOf f 46 12
  let left := (k.replay.dropWhile (fun x => !named x)).drop 1
  { k with
    replay := if k.replay.any named then left else k.replay
    front := if !k.replay.any named then k.front else if (left.head?.map (·.flit)) = some true then
      State.lastPacket (k.front ++ k.replay.take (k.replay.length - left.length)) else []
    credits := SMap.set 0 k.credits i (SMap.get 0 k.credits i + bitsOf f 67 7) }

/-- R222 to R225, R437: a good frame of a kind arrives on a link that is up, untouched by a codeword that could not be corrected and outside an
injected loss, and asks for no resend. -/
structure Arriving (s : State) (l kind f : Nat) (body : List Byte) : Prop where
  live : s.linkLive l = true
  intact : (s.link l).bad = 0
  heard : (s.link l).deafUntil ≤ s.now
  good : Fw.good f body = true
  kind : bitsOf f 32 2 = kind
  nak : f.testBit 58 = false

/-- R225: a LINK_CONTROL frame of a code. -/
structure Controlling (s : State) (l code f : Nat) (body : List Byte) : Prop extends Arriving s l 3 f body where
  seq : bitsOf f 34 12 = 0
  length : body.length = 32
  code : Lc.code (ofBytes body) = code
  clean : Lc.clean (ofBytes body) = true

/-- R309: the channel offset of a burst of an open row. -/
def burstAt (row bank col : Nat) : Nat := row * 32768 + (bank % 16) * 2048 + (col % 64) * 32

end Sys2Proof.Machine
end

