-- ==== Sys2Proof/Certificates/Slice0/Obligations.lean ====
section
/-! DEFINITION. The statements for the provers: what the commands of the GL1 block do, family by family. Each docstring names the rules it is
about; where a clause is the model's own choice it names the log entry. -/
open Sys2Proof Sys2Proof.Machine

/-- R332, R240. A step runs the command at the front of the queue on the rest of the queue; with an empty queue it is one town tick (model's
choice). Choices: log entry 2, log entry 1, log entry 87. -/
def Obligations.FrontCommand : Prop :=
  ∀ (s : State),
    (∀ c l, s.pending = c :: l → step s = exec c { s with pending := l }) ∧
    (s.pending = [] →
      ((s.power = .off ∨ s.power = .booting ∨ s.power = .standby) → step s = .next s) ∧
      (s.power ≠ .off → s.power ≠ .booting → s.power ≠ .standby →
        let due (k : Link) : Bool := k.nak || k.ackSent != k.rxSeq || !k.owed.isEmpty
        let words (u : State) : State := (List.range 16).foldl (fun u l => if u.linkLive l && due (u.link l) then u.sendFrame l 0 0 [] else u) u
        let u := words { s with town := { s.town with count := s.town.count + 1 } }
        let starving (u : State) (c : Nat) : Bool := u.outbox.any (fun p => p.waitingSince.isSome && Hdr.company p.header.toNat == c)
        step s = .next (if u.outbox.isEmpty then u
          else (List.range 32).foldl (fun u c => if starving u c then u.countChip 0x47 (some c) 1 else u) u)))

/-- R387. State.reset holds the reset values of the field tables; its moment (first power-on, boot under way) is the model's choice.
Choices: log entry 6, log entry 7. -/
def Obligations.ResetValues : Prop :=
  let s := State.reset
  (s.power = .booting ∧ s.ready = false ∧ s.fatal = false ∧ s.fatalRecord = 0 ∧ s.pending = [] ∧ s.mem = [] ∧ s.interface = 0 ∧
    s.attnMask = BitVec.allOnes 33) ∧
  (s.sustained = 950 ∧ s.peak = 1150 ∧ s.ramp = 50000 ∧ s.fuseMax = 950 ∧ s.running = [] ∧ s.stretch = 0 ∧ s.triggers = 0) ∧
  (s.chain = 0 ∧ s.chainCount = 0 ∧ s.scope = 0 ∧ s.challenge = none ∧ s.log.records = [] ∧ s.carriages = [] ∧ s.street = [] ∧
    s.chipId = 0xFFFF ∧ s.town.count = 0 ∧ s.town.synced = false ∧ s.town.master = false) ∧
  (∀ i, (s.ring i).state = (if i = 0 then .opened else .unformed) ∧ (s.ring i).cmdTail = 0 ∧ (s.ring i).cmdHead = 0 ∧
    (s.ring i).cplTail = 0 ∧ (s.ring i).cplHead = 0 ∧ (s.ring i).taken = [] ∧ (s.ring i).lost = 0 ∧ (s.ring i).badIndex = 0) ∧
  (∀ c, let k := s.company c
    k.mode = .unformed ∧ k.clock.active = 2 ∧ k.clock.shadow = 2 ∧ k.trap.active = 0 ∧ k.trap.shadow = 0 ∧ k.reproducible = false ∧
    k.taint = false ∧ k.step = 0 ∧ k.seed = 0 ∧ k.pair = none ∧ k.curtain = 0 ∧ k.watch = 0 ∧ k.script = none ∧ k.chain = 0) ∧
  (∀ c i, let k := s.core c
    k.run = .idle ∧ k.apronCfg i = 1 ∧ SMap.get 0 k.scale i = 0 ∧ SMap.get 0 k.quire i = 0 ∧ SMap.get 0 k.qstatus i = 0 ∧
    SMap.get 0 k.ql i = 0 ∧ SMap.get 0 k.qlStatus i = 0 ∧ SMap.get srReset k.sr i = 0x80000000 ∧
    (SMap.get {} k.tables i).header = 0x8000000080000000 ∧ (SMap.get {} k.counters i).config = 0 ∧
    (SMap.get {} k.counters i).value = 0 ∧ SMap.get 0 k.calSets i = 0 ∧ SMap.get none k.micro i = none) ∧
  (∀ l, let k := s.link l
    k.state = .down ∧ k.enabled = false ∧ k.txSeq = 0 ∧ k.rxSeq = 4095 ∧ k.replay = [] ∧ SMap.get 0 k.alloc l = 0) ∧
  (∀ j x, JobRec.valid (s.job j).record.toNat = false ∧ (s.context x).state = .opened ∧ s.routeEntry j x = 0xFFFFF) ∧
  (∀ c, (s.channel c).initialised = false ∧ (∀ b, SMap.get none (s.channel c).rows b = none) ∧
    (s.channel c).protocolErrors = 0 ∧ (s.channel c).refreshSeen = 0)

/-- R325, R328, R355, R235. The state after reset is within the bounds of every state, and a step from it answers a next state. -/
def Obligations.ResetIsBounded : Prop :=
State.reset.Bounded ∧ SafeStep State.reset

/-- R325, R328, R355, R373, R235. Every step, whatever the command, keeps the bounds of a state and the fuses of the part. -/
def Obligations.StepKeepsBounds : Prop :=
  ∀ (s t : State), s.Bounded → step s = .next t → t.Bounded ∧ t.part.fixed = s.part.fixed

/-- R330. From every state within the bounds every step, and every command, answers a next state; no command touches the queue behind it. -/
def Obligations.EveryStepCompletes : Prop :=
  (∀ (s : State), s.Bounded → ∃ t, step s = .next t ∧ t.pending = s.pending.tail) ∧
  (∀ (i : Instr) (s : State), s.Bounded → ∃ t, exec i s = .next t ∧ t.pending = s.pending ∧ t.part.fixed = s.part.fixed)

/-- R330, R331. A ring command that fails a check completes with that check's status and offset and does nothing else, for each of the 37
ring commands. -/
def Obligations.FailedCommandsComplete : Prop :=
  ∀ (s : State) (r w st off : Nat),
    let fails (t : Sheet) (mine : Nat → Bool) (a : Answer) : Prop :=
      (∃ c, s.current r = some c ∧ c.word = w) → s.ready = true → Cmd.opcode w = t.opcode → mine w = true →
      (Cmd.fence w = false ∨ (s.ring r).taken.any (·.accepted) = false) → s.checkCommand r w t = some (st, off) →
      a = .next (s.complete r false t.opcode (if r != 0 || t.concerns then some (Cmd.company w) else none) (Cmd.tag w) st off 0)
    fails (carriageSheet false) (fun _ => true) (exec (.carriageIn r) s) ∧
    fails (carriageSheet true) (fun _ => true) (exec (.carriageOut r) s) ∧
    fails formCompanySheet (fun _ => true) (exec (.formCompany r) s) ∧
    fails disbandCompanySheet (fun _ => true) (exec (.disbandCompany r) s) ∧
    fails resetCompanySheet (fun w => s.betweenBundles (Cmd.company w)) (exec (.resetCompany r) s) ∧
    fails setModeSheet (fun _ => true) (exec (.setMode r) s) ∧
    fails curtainUpAtSheet (fun _ => true) (exec (.curtainUpAt r) s) ∧
    fails (haltSheet haltNow) (fun w => Cmd.field w 0 1 != 1 && s.betweenBundles (Cmd.company w)) (exec (.immediate r) s) ∧
    fails (haltSheet haltAtCurtain) (fun w => Cmd.field w 0 1 == 1) (exec (.atCurtain r) s) ∧
    fails understudyPairSheet (fun w => (s.company (Cmd.company w)).pairWait.isNone) (exec (.understudyPair r) s) ∧
    fails helloSheet (fun _ => true) (exec (.hello r) s) ∧
    fails setInterfaceSheet (fun _ => true) (exec (.setInterface r) s) ∧
    fails queryDeviceSheet (fun _ => true) (exec (.queryDevice r) s) ∧
    fails readFaultSheet (fun _ => true) (exec (.readFault r) s) ∧
    fails setHouseBudgetSheet (fun _ => true) (exec (.setHouseBudget r) s) ∧
    fails eventConfigSheet (fun _ => true) (exec (.eventConfig r) s) ∧
    fails eventReadSheet (fun _ => true) (exec (.eventRead r) s) ∧
    fails debugReadQuireSheet (fun _ => true) (exec (.debugReadQuire r) s) ∧
    fails testPerturbSheet (fun _ => true) (exec (.testPerturb r) s) ∧
    fails fabricConfigSheet (fun _ => true) (exec (.fabricConfig r) s) ∧
    fails loadScriptSheet (fun _ => true) (exec (.loadScript r) s) ∧
    fails loadTablesSheet (fun _ => true) (exec (.loadTables r) s) ∧
    fails loadMicroCoresSheet (fun w => Cmd.field w 0 1 != 1) (exec (.loadMicroprogramCores r) s) ∧
    fails loadMicroEngineSheet (fun w => Cmd.field w 0 1 == 1) (exec (.loadMicroprogramEngine r) s) ∧
    fails setCueSheet (fun _ => true) (exec (.setCue r) s) ∧
    fails loadPlanSheet (fun w => !s.lateUpdate (PlanCmd.job w)) (exec (.loadPlan r) s) ∧
    fails loadDirectorySheet (fun w => !s.lateUpdate (PlanCmd.job w)) (exec (.loadDirectory r) s) ∧
    fails deviceResetSheet (fun _ => (List.range 32).all s.betweenBundles) (exec (.deviceReset r) s) ∧
    fails (enterStateSheet .run) (fun w => s.settledPower && !([1, 2, 3].contains (Cmd.field w 0 1))) (exec (.run r) s) ∧
    fails (enterStateSheet .interval) (fun w => s.settledPower && Cmd.field w 0 1 == 1) (exec (.interval r) s) ∧
    fails (enterStateSheet .dim) (fun w => s.settledPower && Cmd.field w 0 1 == 2) (exec (.dim r) s) ∧
    fails (enterStateSheet .standby) (fun w => s.settledPower && Cmd.field w 0 1 == 3) (exec (.standby r) s) ∧
    fails attestSheet (fun _ => true) (exec (.attest r) s) ∧
    fails loadExtensionSheet (fun _ => true) (exec (.loadExtension r) s) ∧
    fails challengeSheet (fun w => !([1, 2].contains (Cmd.field w 0 1))) (exec (.challenge r) s) ∧
    fails responseSheet (fun w => Cmd.field w 0 1 == 1) (exec (.response r) s) ∧
    fails lockSheet (fun w => Cmd.field w 0 1 == 2) (exec (.lock r) s)

/-- R123, R124, R125, R401. The control slot: NOP, SETA, ADDA, SETL, LOOP and WAIT at a due bundle, with everything else unchanged. -/
def Obligations.ControlSlotIssues : Prop :=
  (∀ (s : State) (c : Nat), BundleDue s c →
    let k := s.core c;
    let u := s.countIssueReads c;
    let x := Bundle.control k.dueBundle;
    let after := afterBundle k.l k.bundle k.loops;
    let next (wait : Nat) : Core :=
      { u.core c with nextBundle := after.1, loops := after.2.1, lwrites := k.lwrites ++ after.2.2, issueAt := k.cycle + 1 + wait, phase := 1 };
    u.core c = { k with counters := (u.core c).counters } ∧ (s.sram = [] → u = s) ∧
    (bitsOf x 27 5 = 0 → exec (.nop c 0) s = .next (u.setCore c (next 0))) ∧
    (bitsOf x 27 5 = 1 → exec (.seta c) s = .next (u.setCore c
      { next 0 with writes := k.writes ++ [(bitsOf x 22 5, BitVec.ofNat 32 (bitsOf x 0 22))], completed := max k.completed (k.cycle + 1) })) ∧
    (bitsOf x 27 5 = 2 → exec (.adda c) s = .next (u.setCore c
      { next 0 with
        writes := k.writes ++ [(bitsOf x 22 5, SMap.get 0 k.a (bitsOf x 17 5) + (BitVec.ofNat 17 x).signExtend 32)]
        completed := max k.completed (k.cycle + 1) })) ∧
    (bitsOf x 27 5 = 3 → exec (.setl c) s = .next (u.setCore c
      { next 0 with
        lwrites := k.lwrites ++ [(bitsOf x 24 3, BitVec.ofNat 24 x)] ++ after.2.2
        completed := max k.completed (k.cycle + 1) })) ∧
    (bitsOf x 27 5 = 5 → exec (.waitOp c) s = .next (u.setCore c
      { next (bitsOf x 0 24) with completed := max k.completed (k.cycle + 1 + bitsOf x 0 24) }))) ∧
  (∀ (s : State) (c : Nat), BundleDue s c →
    let k := s.core c;
    let u := s.countIssueReads c;
    let x := Bundle.control k.dueBundle;
    let skip := afterBundle k.l (bitsOf x 15 9) k.loops;
    bitsOf x 27 5 = 4 →
    (SMap.get 0 k.l (bitsOf x 24 3) ≠ 0 → exec (.loop c) s = .next (u.setCore c
      { u.core c with nextBundle := k.bundle + 1, loops := ⟨bitsOf x 24 3, k.bundle + 1, bitsOf x 15 9⟩ :: k.loops, issueAt := k.cycle + 1, phase := 1 })) ∧
    (SMap.get 0 k.l (bitsOf x 24 3) = 0 → exec (.loop c) s = .next (u.setCore c
      { u.core c with nextBundle := skip.1, loops := skip.2.1, lwrites := k.lwrites ++ skip.2.2, issueAt := k.cycle + 1, phase := 1 })))

/-- R72, R75, R77, R81, R118, R126, R127. The array slot: NOP, PASS and STRIKE put their operation in flight with operands from the bundle
and the address registers. -/
def Obligations.ArraySlotIssues : Prop :=
  ∀ (s : State) (c : Nat),
    let k := s.core c
    let x := Bundle.array k.dueBundle
    let n := formatBits (bitsOf x 58 2)
    let cols := if bitsOf x 51 2 == 0 then 16 else 8
    let col0 := if bitsOf x 51 2 == 2 then 8 else 0
    let reg (r : Nat) : Word := SMap.get 0 k.a r
    let adv (on : Bool) (r m : Nat) : List (Nat × Word) := if on then [(r, reg r + BitVec.ofNat 32 m)] else []
    (SlotDue s c 1 0 → exec (.nop c 1) s = .next (s.setCore c { k with phase := 2 })) ∧
    (SlotDue s c 1 1 → exec (.pass c) s = .next (s.setCore c { k with
      phase := 2
      flights := k.flights ++ [.pass {
        n := n, slot := BitVec.ofNat 4 (bitsOf x 54 4), accumulate := x.testBit 53, k := bitsOf x 37 12, col0 := col0, cols := cols
        aSrc := (reg (bitsOf x 32 5)).toNat % 16384, bSrc := (reg (bitsOf x 27 5)).toNat % 16384
        trapLapse := x.testBit 50, trapOverflow := x.testBit 49, issue := k.cycle, prog := 0, aRead := [], bRead := [] }]
      writes := (k.writes ++ adv (x.testBit 26) (bitsOf x 32 5) (4 * bitsOf x 37 12 * n)) ++
        adv (x.testBit 25) (bitsOf x 27 5) ((if cols == 16 then 4 else 2) * bitsOf x 37 12 * n) })) ∧
    (SlotDue s c 1 2 →
      let cfg := (SMap.get 1 k.apron (bitsOf x 48 3)).toNat
      let elem := SMap.get 0 k.apronElem (bitsOf x 48 3)
      exec (.strike c) s = .next (((s.setCore c { k with
        flights := k.flights ++ [.strike {
          slot := BitVec.ofNat 4 (bitsOf x 54 4), col0 := col0, cols := cols, cfg := bitsOf x 48 3
          dst := (reg (bitsOf x 43 5)).toNat % 16384, rexp := (reg (bitsOf x 38 5)).toNat % 16384, bias := (reg (bitsOf x 33 5)).toNat % 16384
          issue := k.cycle, rexpBytes := [], biasBytes := [], elem := elem, rows := [] }]
        apronFree := k.cycle + 16
        apronElem := SMap.set 0 k.apronElem (bitsOf x 48 3) ((elem + 16 * cols) % 2 ^ 40)
        writes := k.writes ++ adv (x.testBit 32) (bitsOf x 43 5)
          (16 * (cols * formatBits (bitsOf cfg 0 2) / 32) + if cfg.testBit 10 then 16 else 0) }).countCore c 4 1).updCore c
            (fun k => { k with phase := 2 })))

/-- R109, R128, R129, R130, R151, R153, R156. The DMA slot: NOP, DMA and DOOR put their transfer in flight, and a DMA to the stage store
reads its slice units at its issue. -/
def Obligations.DmaSlotIssues : Prop :=
  ∀ (s : State) (c : Nat),
    let k := s.core c
    let x := Bundle.dma k.dueBundle
    let d := (k.descs.getD (bitsOf x 52 8) 0).toNat
    let slice := bitsOf x 47 5
    let store := bitsOf x 42 5
    let reg (r : Nat) : Word := SMap.get 0 k.a r
    let adv (on : Bool) (r m : Nat) : List (Nat × Word) := if on then [(r, reg r + BitVec.ofNat 32 m)] else []
    let elem := SMap.get 0 k.descElem (bitsOf x 52 8)
    let f : DmaFlight :=
      { desc := BitVec.ofNat 256 d, slice := (BitVec.ofNat 32 (bitsOf d 32 32) + reg slice).toNat
        store := (bitsOf d 64 14 + (reg store).toNat) % 16384, issue := k.cycle, units := max (Dma.sliceUnits d) (Dma.storeUnits d)
        sliceUnits := Dma.sliceUnits d, storeUnits := Dma.storeUnits d, elem := elem, source := [], failed := [] }
    let k' : Core := { k with
      dmaFree := k.cycle + ceilDiv (4 * f.units) 3
      descElem := SMap.set 0 k.descElem (bitsOf x 52 8) ((elem + bitsOf d 112 12 * bitsOf d 96 16 * bitsOf d 80 16) % 2 ^ 40)
      writes := (k.writes ++ adv (x.testBit 41) slice (Dma.sliceSpan d)) ++ adv (x.testBit 40) store (Dma.storeSpan d) }
    (SlotDue s c 2 0 → exec (.nop c 2) s = .next (s.setCore c { k with phase := 3 })) ∧
    (SlotDue s c 2 1 → f.units = 0 → exec (.dma c) s = .next (s.setCore c { k' with completed := max k.completed k.cycle, phase := 3 })) ∧
    (SlotDue s c 2 1 → f.units ≠ 0 → d.testBit 0 = true →
      exec (.dma c) s = .next (s.setCore c { k' with flights := k.flights ++ [.dma f], phase := 3 })) ∧
    (SlotDue s c 2 1 → f.units ≠ 0 → d.testBit 0 = false →
      let read := (s.setCore c k').readSlice c f
      exec (.dma c) s = .next (read.1.updCore c (fun k =>
        { k with flights := k.flights ++ [.dma { f with source := read.2.1.flatten, failed := read.2.2 }], phase := 3 }))) ∧
    (SlotDue s c 2 3 →
      let cap := bitsOf x 44 12
      exec (.door c) s = .next (s.setCore c { k with
        flights := k.flights ++ [.door { channel := bitsOf x 57 3, toStore := x.testBit 56, capacity := cap, issue := k.cycle }]
        dmaFree := k.cycle + (if x.testBit 56 then 4 + cap else 8 + ceilDiv (4 * cap) 3)
        phase := 3 }))

/-- R130, R109. REFRESH refreshes the slice, occupies the DMA path for 64 running cycles and resets the cadence counter. -/
def Obligations.RefreshOccupiesTheDmaPath : Prop :=
  ∀ (s : State) (c : Nat), SlotDue s c 2 2 →
    let k := s.core c
    exec (.refresh c) s = .next (((s.setCore c { k with
      completed := max k.completed (k.cycle + 64), dmaFree := k.cycle + 64, cadence := 0, lastRefresh := s.now
      refreshPart := (k.refreshPart + 1) % 4096 }).countCore c 0x11 1).updCore c (fun k => { k with phase := 3 }))

/-- R131, R132, R162. The street slot: NOP, SEND and RECV put U units in flight and occupy the send or the receive path for U cycles.
Choices: log entry 16. -/
def Obligations.StreetSlotIssues : Prop :=
  ∀ (s : State) (c : Nat),
    let k := s.core c
    let x := Bundle.street k.dueBundle
    let ch := bitsOf x 39 6
    let r := bitsOf x 34 5
    let u := bitsOf x 21 12
    let f : StreetFlight :=
      { channel := ch, store := (SMap.get 0 k.a r).toNat % 16384, units := u, issue := k.cycle, done := 0, bundle := k.bundle }
    let writes := k.writes ++ if x.testBit 33 then [(r, SMap.get 0 k.a r + BitVec.ofNat 32 (16 * u))] else []
    (SlotDue s c 3 0 → exec (.nop c 3) s = .next (s.setCore c { k with phase := 4 })) ∧
    (SlotDue s c 3 1 → s.stampsFit c ch k.cycle u = false →
      exec (.send c) s = .next (s.setCore c { k with sendFree := k.cycle + u, writes := writes, phase := 4 })) ∧
    (SlotDue s c 3 1 → s.stampsFit c ch k.cycle u = true →
      let p := (s.setCore c { k with sendFree := k.cycle + u, writes := writes }).perturbed (fun p => p.kind == 1 && p.core == c && p.channel == ch)
      exec (.send c) s = .next (p.1.updCore c (fun k => { k with
        completed := if u = 0 then max k.completed k.cycle else k.completed
        flights := if u = 0 then k.flights else k.flights ++ [.send { f with delay := p.2 }]
        phase := 4 }))) ∧
    (SlotDue s c 3 2 → exec (.recv c) s = .next (s.setCore c { k with
      recvFree := k.cycle + u, writes := writes
      completed := if u = 0 then max k.completed k.cycle else k.completed
      flights := if u = 0 then k.flights else k.flights ++ [.recv f]
      phase := 4 }))

/-- R122, R133, R183. The row-unit slot: NOP and CALL, after which the bundle retires. -/
def Obligations.RowSlotIssuesAndRetires : Prop :=
  ∀ (s : State) (c : Nat),
    let k := s.core c
    let x := Bundle.row k.dueBundle
    let n := formatBits (bitsOf x 20 2)
    let addr (r : Nat) : Nat := (SMap.get 0 k.a r).toNat % 16384
    (SlotDue s c 4 0 → exec (.nop c 4) s = .next (s.retire c)) ∧
    (∀ p, SlotDue s c 4 1 → k.program (bitsOf x 37 8) = some p →
      let f : CallFlight :=
        { entry := bitsOf x 37 8, src := addr (bitsOf x 32 5), dst := addr (bitsOf x 27 5), aux := addr (bitsOf x 22 5), n := n
          count := bitsOf x 0 16, issue := k.cycle, depth := p.depth n, interval := p.interval n, params := [], outputs := [] }
      (f.count = 0 → exec (.call c) s = .next ((s.setCore c { k with completed := max k.completed k.cycle, rowFree := k.cycle }).retire c)) ∧
      (f.count ≠ 0 → exec (.call c) s = .next ((s.setCore c { k with
        flights := k.flights ++ [.call f], rowFree := k.cycle + f.depth + (ceilDiv f.count 16 - 1) * f.interval }).retire c)))

/-- R96, R163, R97, R98. Street units pass links and reach their buffers, and a handshake that ends late counts its cycles and sets the
taint. -/
def Obligations.StreetsMove : Prop :=
  (∀ (s : State),
    (∀ link i, s.nextOnLink link = some i →
      exec (.linkUnitPass link) s = .next { s with street := s.street.modify i (fun u => { u with links := u.links.drop 1 }) }) ∧
    (∀ core ch i u,
      ((List.range s.street.length).zip s.street).find? (fun p => p.2.links.isEmpty && p.2.receiver == core && p.2.rchannel == ch) = some (i, u) →
      let arrived := ({ s with street := s.street.eraseIdx i } : State).setCore core
        { s.core core with inbox := (s.core core).inbox ++ [{ channel := ch, due := u.due, data := u.data }] };
      (s.untaken core ch < 4 → (∀ e ∈ s.sram, e.1 ≠ .street core ch) → exec (.streetUnitArrival core ch) s = .next arrived) ∧
      (s.untaken core ch < 4 → (∃ e ∈ s.sram, e.1 = .street core ch) →
        exec (.streetUnitArrival core ch) s = .next (arrived.coreFault core 1 6 (2 ^ 31 + ch))) ∧
      (4 ≤ s.untaken core ch → (∀ v ∈ s.street, v.sender = u.sender → v.channel = u.channel → ∀ l ∈ u.last, v.standsAt l.1 = false) →
        exec (.streetUnitArrival core ch) s = .next { s with street := s.street.modify i (fun u => { u with links := u.last }) }))) ∧
  (∀ (s : State) (core c cycles : Nat) (send : Bool) (ch : Nat),
    (s.core core).run = .frozen send ch → s.companyOf core = some c →
    s.streetBlock core cycles = none →
      (cycles = 0 → exec (.handshakeWaitEnd core cycles) s = .next (s.setCore core { s.core core with run := .running, frozenFor := 0 })) ∧
      (0 < cycles → cycles ≤ 2 ^ 20 →
        exec (.handshakeWaitEnd core cycles) s = .next ((((s.countCore core 0x05 cycles).setTaint c).updCompany c
          (fun k => { k with late := k.late + cycles })).updCore core
            (fun k => { k with run := .running, frozenFor := 0, lag := k.lag + cycles }))))

/-- R97. A wait of more than 2^20 cycles raises LATE_DELIVERY with the waiting operation's bundle and street channel. -/
def Obligations.LateDeliveryStopsTheCore : Prop :=
  ∀ (s : State) (core c : Nat) (send : Bool) (ch : Nat),
    (s.core core).run = .frozen send ch → s.companyOf core = some c →
      let left := 2 ^ 20 - (s.core core).frozenFor
      s.streetBlock core left ≠ none →
      exec (.lateDelivery core) s = .next (((((s.countCore core 0x05 left).setTaint c).updCompany c
        (fun k => { k with late := k.late + left })).updCore core
          (fun k => { k with frozenFor := 2 ^ 20, lag := k.lag + left, issued := k.waitingBundle send ch })).coreFault core 0 8 ch)

/-- R109, R111, R112, R155, R156, R68, R88, R397. Refreshes outside bundles, the landing of a pass, the end of an act on a core and the
notice of a stop. Choices: log entry 18. -/
def Obligations.OutsideBundles : Prop :=
  (∀ (s : State) (core c : Nat),
    let k := s.core core;
    let refreshed : State := s.setCore core { k with lastRefresh := s.now, refreshPart := (k.refreshPart + 1) % 4096 };
    (k.run = .running → s.companyOf core = some c → k.lastRefresh + 1000 ≤ s.now →
      exec (.forcedRefresh core) s = .next (((refreshed.countCore core 0x12 1).setTaint c).updCompany c (fun k => { k with forced := k.forced + 1 }))) ∧
    (k.run = .idle → s.coreExists core = true → s.power = .run → s.fatal = false →
      exec (.automaticRefresh core) s = .next refreshed) ∧
    (k.run = .ended → s.coreExists core = true → s.power = .run → s.fatal = false →
      exec (.automaticRefresh core) s = .next (refreshed.scrubSlice core)) ∧
    (k.run = .running → k.phase = 0 → k.cadence = 2497 → k.cycle ≤ s.cycleLimit core → s.streetBlock core 0 = none →
      exec (.refreshMissed core) s = .next (s.faultBefore core 0 1 2497))) ∧
  (∀ (s : State) (core c : Nat),
    let k := s.core core;
    k.run = .running → k.phase = 0 → s.companyOf core = some c →
    (k.cycle < s.cycleLimit core → k.passing = true → k.landsNow = true →
      exec (.passGroupLanding core) s = .next ((s.openCycle core).closeCycle core)) ∧
    (k.cycle = s.scheduledCycles core → k.cadence < 2497 → k.code.length ≤ k.bundle → k.flights = [] → k.completed < k.cycle →
      (∃ d ∈ s.scriptCores c, d ≠ core ∧ (s.core d).run ≠ .ended) →
      exec (.actEndCheck core) s = .next (s.setCore core { k with run := .ended })) ∧
    (k.cycle = s.scheduledCycles core → k.cadence < 2497 → k.code.length ≤ k.bundle → k.flights = [] → k.completed < k.cycle →
      (∀ d ∈ s.scriptCores c, d ≠ core → (s.core d).run = .ended) → (s.company c).stopping = false →
      exec (.actEndCheck core) s = .next ((s.setCore core { k with run := .ended }).barrier c)) ∧
    (k.cycle = s.scheduledCycles core → k.cadence < 2497 → (k.bundle < k.code.length → k.cycle ≤ k.issueAt) →
      (k.bundle < k.code.length ∨ k.flights ≠ [] ∨ k.cycle ≤ k.completed) →
      exec (.actEndCheck core) s = .next (s.faultBefore core 0 2 5)) ∧
    ((s.company c).stopping = true → exec (.stopNotice core) s = .next (s.setCore core { k with run := .stopped })))

/-- R91, R99, R101. Step 3 chooses the first candidate act that is ready and step 4 freezes the pending cues. -/
def Obligations.ActIsChosen : Prop :=
  ∀ (s : State) (c a : Nat),
    let k := s.company c
    k.at_ = .choice → s.awake = true → k.stopping = false → k.haltCmds = [] → k.pairStop = none →
    s.intervalHolds = false → k.delayUntil ≤ s.now → s.sceneFirst c = false → s.chooseAct c = some a →
    (a ∈ s.candidates c ∧ a ∉ k.refused ∧ s.predsEnded c a = true ∧ s.waitingHold c a = none) ∧
    ∃ t, exec (.actChoice c) s = .next t ∧
      t.company c = { k with
        at_ := .admission a, admissionAt := s.now, cut := true
        clock := { k.clock with shadow := k.clock.held.getD k.clock.shadow, held := none, frozen := k.clock.pending }
        trap := { k.trap with shadow := k.trap.held.getD k.trap.shadow, held := none, frozen := k.trap.pending }
        plan := { k.plan with shadow := k.plan.held.getD k.plan.shadow, held := none, frozen := k.plan.pending } } ∧
      (∀ x ∈ s.scriptCores c, t.core x = { s.core x with
        tablesShadow := (s.core x).tablesHeld.getD (s.core x).tablesShadow, tablesHeld := none, tablesFrozen := (s.core x).tablesPending
        scaleShadow := SMap.setMany 0 (s.core x).scaleShadow (s.core x).scaleHeld, scaleHeld := [], scaleFrozen := (s.core x).scalePending
        apronShadow := SMap.setMany 1 (s.core x).apronShadow (s.core x).apronHeld, apronHeld := [], apronFrozen := (s.core x).apronPending }) ∧
      (∀ x, x ∉ s.scriptCores c → t.core x = s.core x) ∧ t = { s with cores := t.cores, companies := t.companies }

/-- R300, R347, R108, R335. A company asked to stop stops at step 3, and a curtain held for the watch interval is reported once. Choices:
log entry 38. -/
def Obligations.CurtainWaits : Prop :=
  (∀ (s : State) (c : Nat),
    (s.company c).at_ = .choice → s.awake = true → (s.company c).stopping = false →
    ((s.company c).haltCmds ≠ [] ∨ (s.company c).pairStop ≠ none) →
    exec (.actChoice c) s = .next (s.finishStop c)) ∧
  (∀ (s : State) (c a i kind name : Nat),
    let k := s.company c;
    k.at_ = .choice → k.watch ≠ 0 → k.heldPosted = false → k.curtainAt + k.watch.toNat ≤ s.now → s.chooseAct c = none → s.sceneFirst c = false →
    (s.candidates c).findSome? (fun a => if s.predsEnded c a then (s.waitingHold c a).map (fun h => (a, h)) else none) = some (a, i, kind, name) →
    exec (.curtainHeld c) s = .next ((s.setCompany c { k with heldPosted := true }).postCompany c 2
      (pack [(a, 12), (i, 2), (0, 2), (kind, 4), (name, 12), (s.now - k.curtainAt, 64)])))

/-- R99, R360, R361, R362, R363. Admission against the house budget: granted acts enter the running set and ramp; refused ones wait 10 µs; a
hopeless one is reported once. Choices: log entry 98. -/
def Obligations.AdmissionDecides : Prop :=
  ∀ (s : State) (c a : Nat),
    let k := s.company c
    (k.at_ = .admission a → s.awake = true → k.stopping = false → (k.reproducible = true → k.refusedAt = none) → c < 32 →
      (∀ d < 32, d ≠ c → State.atAdmission (s.company d) = true →
        k.admissionAt < (s.company d).admissionAt ∨ k.admissionAt = (s.company d).admissionAt ∧ c < d) →
      (s.admits c a = true → ∃ t, exec (.admission c) s = .next t ∧
        Aside c s t ∧
        t.running = s.running.filter (fun e => e.company != c) ++
          [⟨c, if s.isEmptyAct c a then 0 else (s.figures c a).mean, if s.isEmptyAct c a then 0 else (s.figures c a).peak, s.sustained, s.peak⟩] ∧
        ∃ first n, first = (if s.isEmptyAct c a then s.now else max s.now (k.taperEnd.getD 0)) ∧
          n = (if s.isEmptyAct c a then 0 else s.companyRamp c k.ballast (s.figures c a).first) ∧
          t.company c = { k with
            at_ := .ramp a first (first + n), refused := [], refusedAt := none, ballastSince := max k.ballastSince s.now
            ballastEnergy := (t.company c).ballastEnergy, taperFrees := false
            waves := if n = 0 then k.waves else k.waves.filter (fun v => decide (v.first + v.ticks > s.now)) ++
              [{ order := s.waveOrder c, first := first, ticks := n, before := k.ballast, after := (s.figures c a).first, taper := false }] }) ∧
      (s.admits c a = false → (k.unadmittable = true ∨ s.fitsBudget [] (s.figures c a) = true) →
        exec (.admission c) s = .next (s.setCompany c { k with
          refusedAt := some (s.now + 2500)
          refused := if k.reproducible then k.refused else k.refused ++ [a]
          at_ := if k.reproducible then k.at_ else .choice
          unadmittable := k.unadmittable })) ∧
      (s.admits c a = false → k.unadmittable = false → s.fitsBudget [] (s.figures c a) = false →
        ∃ u, exec (.admission c) s = .next (u.postDeviceFor c 0x23 (u.powerBody 5 c a)) ∧ u = s.setCompany c { k with
          refusedAt := some (s.now + 2500)
          refused := if k.reproducible then k.refused else k.refused ++ [a]
          at_ := if k.reproducible then k.at_ else .choice
          unadmittable := true })) ∧
    (∀ t, k.refusedAt = some t → t ≤ s.now →
      exec (.admissionReevaluation c) s = .next (s.setCompany c { k with refusedAt := none, refused := [], admissionAt := s.now }))

/-- R361, R362, R365, R369, R367. Ballast held 10 µs after an act tapers to zero, a company whose taper ends leaves the running set, and
waves run in the order of R367. Choices: log entry 96. -/
def Obligations.BallastTapers : Prop :=
  (∀ (s : State) (c : Nat),
    let k := s.company c;
    ((k.at_ = .choice ∨ (∃ a, k.at_ = .admission a) ∨ ∃ a f d, k.at_ = .ramp a f d ∧ s.isEmptyAct c a = true) → k.ballast ≠ 0 → k.taperEnd = none → k.actEndAt + 2500 ≤ s.now →
      ∃ t, exec (.ballastHoldExpiry c) s = .next t ∧ Aside c s t ∧ t.running = s.running ∧ t.company c = { k with
        ballast := 0, taperEnd := some (s.now + s.companyRamp c k.ballast 0), ballastSince := s.now + s.companyRamp c k.ballast 0
        ballastEnergy := (t.company c).ballastEnergy, taperFrees := false, waves := (t.company c).waves }) ∧
    (∀ e, k.taperEnd = some e → e ≤ s.now →
      ∃ t, exec (.ballastTaperEnd c) s = .next t ∧ t = { s with companies := t.companies, running := t.running } ∧
        t.running = (if k.taperFrees = true then s.running.filter (fun e => e.company != c) else s.running) ∧
        t.company c = { k with taperEnd := none, taperFrees := false } ∧
        ∀ d, d ≠ c → t.company d = { s.company d with refusedAt := (s.company d).refusedAt.map (fun _ => 0) })) ∧
  (∀ (s : State) (c : Nat),
    let mine (d : Nat) : Prop := d < 32 ∧ (s.company c).districts.toNat.testBit d = true;
    let temp (d : Nat) : Nat := SMap.get 720 s.temps d;
    (∀ d, d ∈ s.waveOrder c ↔ mine d) ∧
    ((s.company c).reproducible = true → (s.waveOrder c).Pairwise (fun d e => d < e)) ∧
    ((s.company c).reproducible = false → (s.waveOrder c).Pairwise (fun d e => temp d < temp e ∨ temp d = temp e ∧ d < e)))

/-- R81, R91, R93, R98, R99, R113, R117, R121, R208, R286, R347. CURTAIN_UP completes at every due curtain: the act starts, the frozen cues
apply, and every core of the script grid stands at cycle 0 of its block. Choices: log entry 36, log entry 99. -/
def Obligations.CurtainRises : Prop :=
  ∀ (s : State) (c a due at_ : Nat),
    let k := s.company c
    let cores := s.scriptCores c
    let slip := if k.reproducible then at_ - due else 0
    s.awake = true → k.stopping = false → s.curtainDue c = some (a, due, at_) →
    let up (k' : Company) : Company := { k with
      mode := .running, at_ := .none, cut := false, clock := k.clock.apply, trap := k.trap.apply, plan := k.plan.apply
      act := a, curtain := k.curtain + 1, step := if s.broadcastAct c a then k.step + 1 else k.step
      launching := false, launchCmd := none, upCount := at_, upCycles := Act.scheduled (s.actDesc c a)
      ballast := if s.isEmptyAct c a then k.ballast else 0
      landedNames := [], landedContexts := [], late := 0, forced := 0, slip := slip
      taint := k.taint || decide (slip > 0), actTaint := k.actTaint || decide (slip > 0), cues := s.frozenClasses c, comparedAt := none
      ballastEnergy := k'.ballastEnergy, ballastSince := k'.ballastSince }
    let frame (t : State) : Prop :=
      t = { s with
        mem := t.mem, upsets := t.upsets, rings := t.rings, cores := t.cores, companies := t.companies, districtCounters := t.districtCounters
        chipCounters := t.chipCounters, fresh := t.fresh } ∧
      (∀ x, OutsideRecords x → Memory.read t.mem x = Memory.read s.mem x ∧ SMap.get 0 t.upsets x = SMap.get 0 s.upsets x) ∧
      (∀ x, x ∉ cores → t.core x = { s.core x with counters := (t.core x).counters })
    (s.isEmptyAct c a = false → ∃ t, exec (.curtainUp c) s = .next t ∧ frame t ∧
      (∀ d, d ≠ c → t.company d = { s.company d with
        stopRecords := (t.company d).stopRecords, stopping := (t.company d).stopping, faults := (t.company d).faults
        primary := (t.company d).primary }) ∧
      t.company c = { up (t.company c) with
        stopRecords := (t.company c).stopRecords, stopping := (t.company c).stopping, faults := (t.company c).faults
        primary := (t.company c).primary } ∧
      (Sound cores s → t.company c = up (t.company c) ∧ (∀ d, d ≠ c → t.company d = s.company d) ∧
        ∀ x ∈ cores, (t.core x).run = .running ∧ (t.core x).cycle = 0 ∧ (t.core x).bundle = 0 ∧ (t.core x).phase = 0 ∧
          (t.core x).a = [] ∧ (t.core x).l = [] ∧ (t.core x).loops = [] ∧ (t.core x).flights = [] ∧ (t.core x).cadence = 0 ∧
          (t.core x).sig = mix (BitVec.ofNat 64 (a + 1)) ∧
          ∀ b, (s.core x).idle = some b → b.act = a → (t.core x).code = b.code ∧ (t.core x).descs = b.descs)) ∧
    (s.isEmptyAct c a = true → ∃ u, exec (.curtainUp c) s = .next (u.barrier c) ∧ frame u ∧ u.company c = up (u.company c) ∧
      (∀ d, d ≠ c → u.company d = s.company d) ∧
      ∀ x ∈ cores, (u.core x).run = .ended ∧ (u.core x).cycle = 0 ∧ (u.core x).a = [] ∧ (u.core x).l = [] ∧ (u.core x).holds = [] ∧
        (u.core x).flights = [] ∧ (u.core x).sig = mix (BitVec.ofNat 64 (a + 1)))

/-- R396, R399, R400. A company whose cores all stand finishes its stop: nothing of its curtain, its launch or its holds is left. Choices:
log entry 34. -/
def Obligations.CompanyStops : Prop :=
  ∀ (s : State) (c : Nat),
    (s.company c).stopping = true → s.allStopped c = true →
    ∃ t, exec (.companyHalted c) s = .next t ∧ t = s.finishStop c ∧
      let k := t.company c
      k.at_ = .none ∧ k.stopping = false ∧ k.launching = false ∧ k.launchCmd = none ∧ k.haltCmds = [] ∧ k.pairStop = none ∧
      k.refused = [] ∧ k.refusedAt = none ∧ k.landedNames = [] ∧ k.landedContexts = [] ∧ k.primary = none ∧ k.faults = 0 ∧
      k.stopRecords = []

/-- R298, R299, R300. Signatures of a pair are compared at a curtain; a difference stops the company; a partner's stop is told at the next
curtain. Choices: log entry 42. -/
def Obligations.UnderstudyCompares : Prop :=
  ∀ (s : State) (c : Nat) (p : Pair) (sigs : List (BitVec 64)),
    let k := s.company c
    let own := (s.scriptCores c).map (fun x => (s.core x).sig)
    k.pair = some p →
    (k.sigSent = false → exec (.signatureExchange c sigs) s = .next (s.setCompany c { k with partnerSigs := some sigs })) ∧
    (k.sigSent = true → sigs = own → exec (.signatureExchange c sigs) s = .next (s.setCompany c
      { k with partnerSigs := none, sigSent := false, comparedAt := some s.now })) ∧
    (∀ i, k.sigSent = true → sigs.length = own.length → i < own.length → sigs.getD i 0 ≠ own.getD i 0 → s.companyIdle c = false →
      ∃ u body, exec (.signatureExchange c sigs) s = .next ((u.postDeviceFor c 9 body).finishStop c false) ∧
        u = s.setCompany c { k with partnerSigs := none, sigSent := false }) ∧
    (s.companyIdle c = false → exec (.understudyPartnerStopped c) s = .next (s.setCompany c { k with
      pair := none, sigSent := false, partnerSigs := none, comparedAt := none, pairStop := some (0x0A, p.link) })) ∧
    (s.companyIdle c = true → ∃ u, exec (.understudyPartnerStopped c) s = .next (u.postDeviceFor c 0x0A (pack [(c, 5), (0, 3), (p.link, 4)])) ∧
      u = s.setCompany c { k with pair := none, sigSent := false, partnerSigs := none, comparedAt := none })

/-- R295, R342. UNDERSTUDY_PAIR waits for its partner and joins the pair, or is denied after one second or when the two chips differ.
Choices: log entry 53, log entry 42. -/
def Obligations.PairCommands : Prop :=
  (∀ (s : State) (w : Nat),
    let c := Cmd.company w;
    let k := s.company c;
    Serving s 0 w understudyPairSheet (fun w => (s.company (Cmd.company w)).pairWait.isNone) →
    (k.reproducible = true ∧ s.companyIdle c = true ∧ s.linkLive (Cmd.field w 1 1) = true ∧ s.pairFree (Cmd.field w 1 1) = true ∧
      ∃ far, (s.link (Cmd.field w 1 1)).neighbour = some (Cmd.field w 2 2, far)) ∧
    exec (.understudyPair 0) s = .next ((s.setCompany c { k with
      pairWait := some ⟨⟨Cmd.field w 0 1, Cmd.field w 1 1, Cmd.field w 2 2⟩, 0, BitVec.ofNat 32 (Cmd.tag w), s.now⟩ }).message c (Cmd.field w 2 2)
        ([6, c, Cmd.field w 0 1, Cmd.field w 1 1, s.part.rom.toNat, match k.script with | some x => x.hash.toNat | none => 0, k.districts.toNat] ++
          s.extHashes.map (·.toNat)))) ∧
  (∀ (s : State) (c : Nat) (w : PairWait),
    let k := s.company c;
    let hash : BitVec 384 := match k.script with | some p => p.hash | none => 0;
    k.pairWait = some w →
    (w.since + 250000000 ≤ s.now → exec (.understudyPairTimeout c) s =
      .next ((s.setCompany c { k with pairWait := none }).complete w.ring false 0x14 (some c) w.tag.toNat St.denied noField 0)) ∧
    (∀ link, s.linkLive w.pair.link = true → (s.link w.pair.link).neighbour = some (w.pair.partner, link) → k.reproducible = true →
      s.companyIdle c = true → s.pairFree w.pair.link = true → w.pair.role ≤ 1 →
      exec (.understudyPairExchange c (1 - w.pair.role) link s.part.rom.toNat s.extHashes hash k.districts true true true) s =
        .next ((s.setCompany c { k with pair := some w.pair, pairWait := none }).complete w.ring false 0x14 (some c) w.tag.toNat St.ok noField 0)) ∧
    (∀ link rom exts h d, s.linkLive w.pair.link = true → (s.link w.pair.link).neighbour = some (w.pair.partner, link) → k.reproducible = true →
      s.companyIdle c = true → (rom ≠ s.part.rom.toNat ∨ exts ≠ s.extHashes ∨ h ≠ hash ∨ d ≠ k.districts) →
      exec (.understudyPairExchange c (1 - w.pair.role) link rom exts h d true true true) s =
        .next ((s.setCompany c { k with pairWait := none }).complete w.ring false 0x14 (some c) w.tag.toNat St.denied noField 0)))

/-- R338, R339, R355, R371, R395, R351, R425, R432. HELLO, SET_INTERFACE, SET_HOUSE_BUDGET, READ_FAULT, QUERY_DEVICE, EVENT_READ and
DEBUG_READ_QUIRE complete with their bodies and reports. -/
def Obligations.DeviceCommandsComplete : Prop :=
  (∀ (s : State) (r w : Nat),
    let done (t : State) (op body : Nat) : State := t.complete 0 false op none (Cmd.tag w) St.ok noField body;
    (Serving s 0 w helloSheet →
      exec (.hello 0) s = .next (done s 1 (pack [(1, 8), (0x10, 64), (0, 56), (s.interface.toNat, 8), (1, 8), (1, 8), (1, 8),
        (s.part.rom.toNat, 32), (s.part.grade, 8)]))) ∧
    (Serving s 0 w setInterfaceSheet →
      Cmd.field w 0 1 = 0x10 ∧ exec (.setInterface 0) s = .next (done { s with interface := 0x10 } 2 0)) ∧
    (Serving s 0 w setHouseBudgetSheet →
      (100 ≤ Cmd.field w 0 4 ∧ Cmd.field w 0 4 ≤ s.fuseMax ∧ Cmd.field w 0 4 ≤ Cmd.field w 4 4 ∧ Cmd.field w 4 4 ≤ 1150 ∧ 1 ≤ Cmd.field w 8 4) ∧
      exec (.setHouseBudget 0) s = .next (done { s with
        sustained := Cmd.field w 0 4, peak := Cmd.field w 4 4, ramp := Cmd.field w 8 4
        companies := s.companies.map (fun p => (p.1, { p.2 with refusedAt := p.2.refusedAt.map (fun _ => 0) })) } 0x60 0)) ∧
    (∀ x, Serving s r w readFaultSheet →
      (if Cmd.field w 0 1 = 0 then (s.company (Cmd.company w)).log else s.log).find (Cmd.field w 4 4) = some x →
      exec (.readFault r) s = .next (s.complete r false 0x72 (some (Cmd.company w)) (Cmd.tag w) St.ok noField x.toNat))) ∧
  (∀ (s : State) (r w : Nat),
    let a := Cmd.dataAddr w;
    (∀ d, ∃ e, s.putReport a d = { s.putBytes .foyer a d with upsets := e } ∧
      ∀ x, x < a ∨ a + d.length ≤ x → SMap.get 0 e x = SMap.get 0 s.upsets x) ∧
    (Serving s 0 w queryDeviceSheet → 4096 ≤ Cmd.length w ∧
      exec (.queryDevice 0) s = .next ((s.queryPieces.foldl (fun t p => t.putReport (a + p.1) p.2)
        (s.putReport a (List.replicate 4096 0))).complete 0 false 3 none (Cmd.tag w) St.ok noField 0)) ∧
    (Serving s r w eventReadSheet →
      let t := Cmd.field w 0 1;
      let core := Cmd.field w 8 2;
      let is := (List.range (Cmd.field w 4 2)).map (Cmd.field w 2 2 + ·);
      let u := s.putReport a (is.flatMap (s.readEvent t core));
      let done (u : State) : State := u.complete r false 0x71 (some (Cmd.company w)) (Cmd.tag w) St.ok noField 0;
      (Cmd.field w 1 1 = 0 → exec (.eventRead r) s = .next (done u)) ∧
      (Cmd.field w 1 1 = 1 → exec (.eventRead r) s = .next (done (is.foldl (fun s i => s.clearEvent t core i) u)))) ∧
    (Serving s 0 w debugReadQuireSheet →
      let k := s.core (Cmd.field w 0 2);
      let slot := Cmd.field w 2 1;
      (s.scope.getLsbD 0 = true ∧ s.power ≠ .dim ∧ 256 * (slotBits slot / 8 + 8) ≤ Cmd.length w) ∧
      exec (.debugReadQuire 0) s = .next ((s.putReport a ((List.range 256).flatMap (fun cell =>
        toBytes (slotBits slot / 8) (k.slot cell slot) ++ toBytes 8 (k.status cell slot).bits.toNat))).complete
          0 false 0x91 (some (Cmd.company w)) (Cmd.tag w) St.ok noField 0)))

/-- R218, R424, R428, R436. EVENT_CONFIG configures counters and calibration sets, at once or at the curtain-up, and TEST_PERTURB sets a
control slot. -/
def Obligations.EventsAndPerturbations : Prop :=
  (∀ (s : State) (r w : Nat), Serving s r w eventConfigSheet →
    let i := Cmd.field w 1 1;
    let x := Cmd.field w 2 2;
    let config : BitVec 64 := BitVec.ofNat 64 (Cmd.field w 8 8);
    let threshold : BitVec 64 := BitVec.ofNat 64 (Cmd.field w 16 8);
    let counter : EventCounter := { config := config, value := 0, threshold := threshold, raised := false };
    let done (u : State) : Answer := .next (u.complete r false 0x70 (some (Cmd.company w)) (Cmd.tag w) St.ok noField 0);
    let quiet (core : Nat) : Prop := ∀ c, s.companyOf core = some c → s.inAct c = false;
    let wait (core t : Nat) : State := s.setCore core { s.core core with cfgQueue := (s.core core).cfgQueue ++ [⟨t, i, config, threshold⟩] };
    (Cmd.field w 0 1 = 0 → quiet x → exec (.eventConfig r) s = done (s.setCore x
      { s.core x with counters := SMap.set {} (s.core x).counters i counter })) ∧
    (∀ c, Cmd.field w 0 1 = 0 → s.companyOf x = some c → s.inAct c = true → exec (.eventConfig r) s = done (wait x 0)) ∧
    (Cmd.field w 0 1 = 1 → quiet (64 * x) → exec (.eventConfig r) s = done
      { s with districtCounters := SMap.set {} s.districtCounters (8 * x + i) counter }) ∧
    (∀ c, Cmd.field w 0 1 = 1 → s.companyOf (64 * x) = some c → s.inAct c = true → exec (.eventConfig r) s = done (wait (64 * x) 1)) ∧
    (Cmd.field w 0 1 = 2 → exec (.eventConfig r) s = done { s with chipCounters := SMap.set {} s.chipCounters i counter }) ∧
    (Cmd.field w 0 1 = 3 → quiet x → exec (.eventConfig r) s = done (s.setCore x
      { s.core x with calSets := SMap.set 0 (s.core x).calSets i (config.setWidth 256) })) ∧
    (∀ c, Cmd.field w 0 1 = 3 → s.companyOf x = some c → s.inAct c = true → exec (.eventConfig r) s = done (wait x 3)) ∧
    (Cmd.field w 0 1 = 4 → exec (.eventConfig r) s = done { s with chipCalSets := SMap.set 0 s.chipCalSets i (config.setWidth 256) }) ∧
    (Cmd.field w 0 1 = 5 → exec (.eventConfig r) s = done (s.setCompany (Cmd.company w)
      { s.company (Cmd.company w) with watch := config }))) ∧
  (∀ (s : State) (w : Nat), Serving s 0 w testPerturbSheet →
    let q : Perturb :=
      { kind := Cmd.field w 0 1, core := Cmd.field w 2 2, company := Cmd.field w 4 1, channel := Cmd.field w 5 1
        sub := Cmd.field w 6 1, lane := Cmd.field w 7 1, amount := Cmd.field w 8 4, left := Cmd.field w 12 4 };
    (s.part.lifecycle = 2 ∨ s.scope.getLsbD 1 = true) ∧
    exec (.testPerturb 0) s = .next (State.complete
      { s with perturb := SMap.set {} s.perturb (Cmd.field w 1 1) (if q.kind = 0 ∨ q.left = 0 then {} else q) }
      0 false 0x92 none (Cmd.tag w) St.ok noField 0))

/-- R283, R284, R342, R387, R415. FORM_COMPANY, DISBAND_COMPANY, RESET_COMPANY and SET_MODE. Choices: log entry 41. -/
def Obligations.CompanyCommandsComplete : Prop :=
  ∀ (s : State) (r w : Nat),
    let c := Cmd.company w
    let k := s.company c
    let done (r op : Nat) (t : State) : Answer := .next (t.complete r false op (some c) (Cmd.tag w) St.ok noField 0)
    (Serving s 0 w formCompanySheet →
      let mine (x : Nat) : Bool := (Cmd.field w 0 4).testBit (x / 64)
      Cmd.field w 0 4 ≠ 0 ∧ s.power ≠ .dim ∧ s.formed c = false ∧
      (∀ d, d < 32 → (Cmd.field w 0 4).testBit d = true → s.districtCompany d = none) ∧
      exec (.formCompany 0) s = done 0 0x10 ((((((s.clearStores mine).mapCores mine State.freshCore).clearDistricts mine).setCompany c
        { mode := .idle, districts := BitVec.ofNat 32 (Cmd.field w 0 4), avenues := BitVec.ofNat 128 (Cmd.field w 16 16),
          taperEnd := k.taperEnd, taperFrees := k.taperFrees, waves := k.waves, ballastEnergy := k.ballastEnergy }).setRing (1 + c) { state := .opened }))) ∧
    (Serving s 0 w disbandCompanySheet → k.pair = none →
      s.companyIdle c = true ∧ s.jobNames c = false ∧
      exec (.disbandCompany 0) s = done 0 0x11 ((s.setCompany c { k with mode := .unformed, districts := 0, avenues := 0 }).setRing (1 + c)
        { s.ring (1 + c) with state := .unformed })) ∧
    (Serving s r w resetCompanySheet (fun w => s.betweenBundles (Cmd.company w)) → s.companyIdle c = true → k.pair = none →
      let mine (x : Nat) : Bool := k.districts.toNat.testBit (x / 64)
      exec (.resetCompany r) s = done r 0x12 (((((s.clearStores mine false).mapCores mine State.resetCore).clearDistricts mine).setCompany c
        { k with mode := .idle, clock := ({} : Company).clock, trap := ({} : Company).trap, plan := ({} : Company).plan, curtain := 0, taint := false, landedNames := [], landedContexts := [] }))) ∧
    (Serving s r w setModeSheet →
      s.companyIdle c = true ∧
      let entry := chainEntry 0x13 c false 0 0 0 (sha384 (toBytes 24 (Cmd.field w 0 24)))
      exec (.setMode r) s = done r 0x13 (s.setCompany c { k with
        reproducible := Cmd.field w 0 1 == 1, step := BitVec.ofNat 48 (Cmd.field w 8 6), seed := BitVec.ofNat 64 (Cmd.field w 16 8)
        chain := chainNext k.chain entry, chainCount := (k.chainCount + 1) % 2 ^ 32 }))

/-- R347, R368. CURTAIN_UP_AT launches an idle company for its count, and HALT_COMPANY stops one now or at its curtain. -/
def Obligations.LaunchAndHalt : Prop :=
  ∀ (s : State) (r w : Nat),
    let c := Cmd.company w
    let k := s.company c
    let done (op : Nat) (t : State) : Answer := .next (t.complete r false op (some c) (Cmd.tag w) St.ok noField 0)
    (Serving s r w curtainUpAtSheet → Cmd.field w 8 4 = 0 → exec (.curtainUpAt r) s = done 0x40 s) ∧
    (Serving s r w curtainUpAtSheet → Cmd.field w 8 4 ≠ 0 →
      (s.companyIdle c = true ∧ s.power ≠ .dim ∧ s.now + 1000 ≤ Cmd.field w 0 8 ∧ (k.reproducible = true → s.town.synced = true)) ∧
      ∃ ramps, (k.reproducible = false → ramps = []) ∧
      exec (.curtainUpAt r) s = .next ((((s.updCores (s.companyCores c) (fun _ k => { k with idle := none })).setCompany c { k with
        mode := .launched, taint := false, actTaint := false, at_ := .choice, cut := false, ended := [], refused := [], refusedAt := none
        start := 0, repeats := Cmd.field w 8 4, launchAt := Cmd.field w 0 8, launching := true
        launchCmd := some ⟨r, 0x40, BitVec.ofNat 32 (Cmd.tag w)⟩, ramps := ramps, curtainAt := s.now, heldPosted := false
        unadmittable := false, comparedAt := none }).delayCurtain c).accept r)) ∧
    (Serving s r w (haltSheet haltNow) (fun w => Cmd.field w 0 1 != 1 && s.betweenBundles (Cmd.company w)) →
      exec (.immediate r) s = done 0x41 (if s.companyIdle c then s else s.finishStop c)) ∧
    (Serving s r w (haltSheet haltAtCurtain) (fun w => Cmd.field w 0 1 == 1) →
      let past : Prop := (∃ a, k.at_ = .admission a) ∨ ∃ a f e, k.at_ = .ramp a f e
      (s.companyIdle c = true → exec (.atCurtain r) s = done 0x41 s) ∧
      (s.companyIdle c = false → k.stopping = false → (k.mode = .launched ∨ past) → exec (.atCurtain r) s = done 0x41 (s.finishStop c)) ∧
      (s.companyIdle c = false → (k.stopping = true ∨ (k.mode ≠ .launched ∧ ¬past)) → exec (.atCurtain r) s = .next
        ((s.setCompany c { k with haltCmds := k.haltCmds ++ [⟨r, 0x41, BitVec.ofNat 32 (Cmd.tag w)⟩] }).accept r)))

/-- R149, R167, R345, R346, R437. CARRIAGE_IN and CARRIAGE_OUT that pass their checks queue a carriage with every field of their body.
Choices: log entry 49. -/
def Obligations.CarriagesAreAccepted : Prop :=
  ∀ (s : State) (r w : Nat),
    let c := Cmd.company w
    let bank : Bool := Cmd.field w 0 1 == 2
    let core := Cmd.field w 8 1 * 64 + Cmd.field w 9 1 * 8 + Cmd.field w 10 1
    let carriage (u : State) (late : Nat) (out : Bool) : Carriage :=
      { id := u.nextCarriage, ring := r, opcode := if out then 0x31 else 0x30, tag := BitVec.ofNat 32 (Cmd.tag w), out := out
        kind := Cmd.field w 0 1, srcType := Cmd.field w 1 1, dstType := Cmd.field w 2 1, rounding := Cmd.field w 3 1
        channel := Cmd.field w 4 1, holdName := if out then 0 else bitsOf w (256 + 8 * 6) 12, core := core
        company := if bank then none else some c, tensor := Cmd.field w 12 3, source := Cmd.field w 16 4, length := Cmd.field w 20 4
        dest := Cmd.field w 24 4, destChip := if out && Cmd.field w 28 2 != u.chipId then Cmd.field w 28 2 else 0xFFFF
        index := Cmd.field w 32 5, moved := 0, firstFail := none, fails := 0, notBefore := if late = 0 then 0 else u.now + late
        remote := false }
    let queued (u : State) (k : Carriage) : Answer :=
      .next (State.accept { u with carriages := u.carriages ++ [k], nextCarriage := u.nextCarriage + 1 } r)
    (Serving s r w (carriageSheet true) →
      (Cmd.field w 28 2 = 0xFFFF ∨ s.carriageCredits c = true) ∧ (bank = true → r = 0 ∧ c = 0) ∧
      exec (.carriageOut r) s = queued s (carriage s 0 true)) ∧
    (Serving s r w (carriageSheet false) → bank = true → exec (.carriageIn r) s = queued s (carriage s 0 false)) ∧
    (Serving s r w (carriageSheet false) → bank = false →
      let p := s.perturbed (fun p => p.kind == 4 && p.core == core && p.channel == Cmd.field w 4 1)
      exec (.carriageIn r) s = queued p.1 (carriage p.1 p.2 false))

/-- R343, R344, R415. LOAD_SCRIPT completes: a package that passes its checks becomes the script of an idle company and is measured.
Choices: log entry 48. -/
def Obligations.ScriptIsInstalled : Prop :=
  ∀ (s : State) (r w : Nat), Serving s r w loadScriptSheet →
    let c := Cmd.company w
    let k := s.company c
    let b := s.bytes .foyer (Cmd.dataAddr w) (Cmd.length w)
    let acts := List.range (Package.acts b)
    let refs := s.packageRefs c (Cmd.field w 0 4) b
    let placed := s.placeBlocks b refs
    let entry := chainEntry 0x20 c (s.knownItem [1, 2, 3] b) 0 0 0 (sha384 b)
    s.companyIdle c = true ∧
    exec (.loadScript r) s = .next (State.complete
      ((placed.updCores (s.companyCores c) (fun _ k => { k with idle := none })).setCompany c { k with
        script := some {
          hash := hashField (sha384 b), rows := Package.rows b, acts := acts.map (fun a => BitVec.ofNat 512 (Package.act b a))
          profiles := acts.map (fun a =>
            if Act.peakOffset (Package.act b a) = 0 then none else some (BitVec.ofNat 384 (numAt b (Act.peakOffset (Package.act b a)) 48)))
          blocks := refs.map (fun q => (q.1, some q.2.2)) }
        chain := chainNext k.chain entry, chainCount := (k.chainCount + 1) % 2 ^ 32 })
      r false 0x20 (some c) (Cmd.tag w) St.ok noField (hashField (sha384 b)).toNat) ∧
    placed = { s with mem := placed.mem, upsets := placed.upsets } ∧ (∀ x, x < 2 ^ 40 → Memory.read placed.mem x = Memory.read s.mem x) ∧
    refs.length = Package.acts b * (s.packageCores c (Package.rows b)).length

/-- R101, R181, R187, R269, R343, R415. LOAD_TABLES and both forms of LOAD_MICROPROGRAM complete: tables go to the shadow bank, programs
into cores or the engine's queue. -/
def Obligations.TablesAndProgramsAreLoaded : Prop :=
  ∀ (s : State) (r w : Nat),
    let c := Cmd.company w
    let done (r op : Nat) (t : State) : Answer := .next (t.complete r false op (some c) (Cmd.tag w) St.ok noField 0)
    let b := s.bytes .foyer (Cmd.dataAddr w) (Cmd.length w)
    let entry := Cmd.field w 1 1
    (Serving s r w loadTablesSheet →
      let bank : SMap Table := SMap.setMany {} [] ((List.range 4).map (fun k => (k, s.tableOf w k)))
      let t := [0, 1, 2, 3].foldl (fun (t : State) k => t.measureCompany c (chainEntry 0x21 c (s.knownItem [1, 2, 3] (s.tableOf w k).image)
        (Cmd.field w 4 4) (Cmd.field w 8 8) k (sha384 (s.tableOf w k).image))) (s.updCores (State.selected w) (fun _ k => k.loadTables bank))
      exec (.loadTables r) s = done r 0x21 t ∧ t = { s with cores := t.cores, companies := t.companies } ∧
        (∀ x ∈ State.selected w, t.core x = if (s.core x).tablesFrozen then { s.core x with tablesHeld := some bank }
          else { s.core x with tablesShadow := bank, tablesPending := true }) ∧
        (∀ x, x ∉ State.selected w → t.core x = s.core x) ∧
        (t.company c).chainCount = ((s.company c).chainCount + 4) % 2 ^ 32 ∧
        (∀ d, d ≠ c → t.company d = s.company d)) ∧
    (Serving s r w loadMicroCoresSheet (fun w => Cmd.field w 0 1 != 1) →
      16 ≤ entry ∧
      exec (.loadMicroprogramCores r) s = done r 0x22 ((s.updCores (State.selected w) (fun _ k =>
        if s.inAct c then { k with microQueue := k.microQueue ++ [(entry, MicroProgram.ofImage b)] } else k.install entry (MicroProgram.ofImage b))).measureCompany c
          (chainEntry 0x22 c (s.knownItem [1, 2, 3] b) (Cmd.field w 4 4) (Cmd.field w 8 8) entry (sha384 b)))) ∧
    (Serving s 0 w loadMicroEngineSheet (fun w => Cmd.field w 0 1 == 1) →
      let e := chainEntry 0x22 c (s.knownItem [1, 2, 3] b) (Cmd.field w 4 4) (Cmd.field w 8 8) entry (sha384 b)
      exec (.loadMicroprogramEngine 0) s = done 0 0x22 { s with
        engineQueue := s.engineQueue ++ [(entry, MicroProgram.ofImage b)], chain := chainNext s.chain e, chainCount := (s.chainCount + 1) % 2 ^ 32 })

/-- R80, R101, R102, R159, R202, R343. SET_CUE writes the shadow copy of its class: scale registers, apron configurations, CLOCK_PLAN, the
signal plan or TRAP_MASK. -/
def Obligations.CuesAreWritten : Prop :=
  ∀ (s : State) (r w : Nat), Serving s r w setCueSheet →
    let c := Cmd.company w
    let k := s.company c
    let b := s.bytes .foyer (Cmd.dataAddr w) (Cmd.length w)
    let first := Cmd.field w 16 2
    let v : Word := BitVec.ofNat 32 (Cmd.field w 20 4)
    let done (t : State) : Answer := .next (t.complete r false 0x23 (some c) (Cmd.tag w) St.ok noField 0)
    (Cmd.field w 0 1 = 1 → exec (.setCue r) s = done (s.updCores (State.selected w) (fun _ k =>
      k.writeScales (((List.range b.length).zip b).map (fun p => (first + p.1, p.2)))))) ∧
    (Cmd.field w 0 1 = 2 → exec (.setCue r) s = done (s.updCores (State.selected w) (fun _ k =>
      k.writeApron ((List.range (b.length / 16)).map (fun i => (first + i, BitVec.ofNat 128 (numAt b (16 * i) 16))))))) ∧
    (Cmd.field w 0 1 = 3 → exec (.setCue r) s = done (s.setCompany c { k with clock := k.clock.write v })) ∧
    (Cmd.field w 0 1 = 4 → exec (.setCue r) s = done (s.setCompany c { k with plan := k.plan.write (s.planOf c b) })) ∧
    (Cmd.field w 0 1 = 5 → exec (.setCue r) s = done (s.setCompany c { k with trap := k.trap.write v }))

/-- R225, R233, R236, R241, R246, R348. FABRIC_CONFIG applies each of its sections: chip id, enables, credits, routes, time and scene trees.
-/
def Obligations.FabricSectionsApply : Prop :=
  ∀ (s : State) (w : Nat), Serving s 0 w fabricConfigSheet →
    let b := s.bytes .foyer (Cmd.dataAddr w) (Cmd.length w)
    let done (t : State) : Answer := .next ((t.advertiseMore s).complete 0 false 0x50 none (Cmd.tag w) St.ok noField 0)
    (sectionIds w = [0] → exec (.fabricConfig 0) s = done { s with chipId := numAt b 8 2 }.tellId) ∧
    (sectionIds w = [1] → exec (.fabricConfig 0) s = done ((List.range 16).foldl (fun s l => s.enableLink l ((numAt b 8 2).testBit l)) s)) ∧
    (sectionIds w = [2] → exec (.fabricConfig 0) s = done ((List.range 16).foldl (fun s l => s.setLink l { s.link l with
      alloc := SMap.setMany 0 [] ((List.range 128).map (fun i => (i, creditField b 8 l (i / 32) (i % 32)))) }) s)) ∧
    (sectionIds w = [3] → s.now + 1000 ≤ Cmd.field w 8 8 ∧ exec (.fabricConfig 0) s = done { s with
      swapAt := some (Cmd.field w 8 8)
      routesShadow := SMap.setMany 0xFFFFF s.routesShadow ((List.range (numAt b 11 2)).map (fun i =>
        (numAt b 8 1 * 32768 + numAt b 9 2 + i, BitVec.ofNat 32 (numAt b (13 + 4 * i) 4)))) }) ∧
    (sectionIds w = [4] → numAt b 8 1 = 1 → exec (.fabricConfig 0) s = done (State.gainSync { s with town := { s.town with
      count := BitVec.ofNat 64 (numAt b 10 8), master := true, parent := none, onReference := false } })) ∧
    (sectionIds w = [4] → numAt b 8 1 = 0 → exec (.fabricConfig 0) s = done { s with town := { s.town with
      master := false, parent := some (numAt b 9 1), synced := false, agreed := 0 } }) ∧
    (sectionIds w = [5] → exec (.fabricConfig 0) s = done ((sceneRecords b (8 + numAt b 4 4) (numAt b 4 4) 8).foldl (fun s r =>
      (s.setJob (numAt b r 1) { s.job (numAt b r 1) with scene := some {
        root := numAt b (r + 1) 2, parent := numAt b (r + 3) 2, margin := numAt b (r + 5) 2
        children := (List.range (numAt b (r + 7) 2)).map (fun i => numAt b (r + 9 + 2 * i) 2) } }).sceneProgress (numAt b r 1)) s))

/-- R247, R255, R256, R348. LOAD_PLAN and LOAD_DIRECTORY apply at once for a job that does not run and wait for their step in a job that
does. Choices: log entry 93, log entry 59. -/
def Obligations.PlansAreLoaded : Prop :=
  ∀ (s : State) (w : Nat),
    let b := s.bytes .foyer (Cmd.dataAddr w) (Cmd.length w)
    let j := Cmd.field w 0 1
    let done (op : Nat) (t : State) : Answer := .next (t.complete 0 false op none (Cmd.tag w) St.ok noField 0)
    let plan : Load := {
      epoch := Cmd.field w 2 2, step := Cmd.field w 8 8, job := some (BitVec.ofNat 1024 (numAt b 0 128))
      plans := (List.range (Cmd.field w 20 2)).map (fun i => (Cmd.field w 16 4 + i, BitVec.ofNat 256 (numAt b (128 + 32 * i) 32)))
      contexts := (List.range (Cmd.field w 24 2)).map (fun i =>
        (numAt b (128 + 32 * Cmd.field w 20 2 + 136 * i) 2, BitVec.ofNat 1024 (numAt b (128 + 32 * Cmd.field w 20 2 + 136 * i + 8) 128))) }
    let directory : Load := {
      epoch := Cmd.field w 2 2, step := Cmd.field w 8 8
      entries := (List.range (Cmd.field w 20 4)).map (fun i => (Cmd.field w 16 4 + i, BitVec.ofNat 64 (numAt b (8 * i) 8))) }
    let entries : Prop := ∃ p ∈ s.directory, DirEntry.valid p.2.toNat = true ∧ DirEntry.job p.2.toNat = j
    (Serving s 0 w loadPlanSheet (fun w => !s.lateUpdate (Cmd.field w 0 1)) →
      (s.jobRuns j = true → exec (.loadPlan 0) s = done 0x51 (s.setJob j { s.job j with planLoad := some plan })) ∧
      (s.jobRuns j = false → exec (.loadPlan 0) s = done 0x51 ((s.activatePlan j plan).sceneProgress j))) ∧
    (Serving s 0 w loadDirectorySheet (fun w => !s.lateUpdate (Cmd.field w 0 1)) →
      (s.jobRuns j = true → entries → exec (.loadDirectory 0) s = done 0x52 (s.setJob j { s.job j with dirLoad := some directory })) ∧
      (s.jobRuns j = false ∨ ¬entries → exec (.loadDirectory 0) s = done 0x52 ((s.activateDirectory j directory).sceneProgress j)))

/-- R409, R411, R412, R417, R419, R420, R421, R422, R423, R435. ATTEST, LOAD_EXTENSION and the phases of DEBUG_UNLOCK. Choices: log entry
28, log entry 29. -/
def Obligations.AttestationAndUnlock : Prop :=
  (∀ (s : State) (w : Nat),
    let b := s.bytes .foyer (Cmd.dataAddr w) (Cmd.length w);
    let done (op : Nat) (t : State) : Answer := .next (t.complete 0 false op none (Cmd.tag w) St.ok noField 0);
    (Serving s 0 w attestSheet →
      (s.part.lifecycle ≠ 0 ∧ s.bottomTree = true ∧ s.bottomLeaf < 2 ^ 20 ∧ s.bootLeaf < 4096 ∧ 9216 ≤ Cmd.length w) ∧
      exec (.attest 0) s = done 0x80 { s.putReport (Cmd.dataAddr w) (s.report (toBytes 32 (Cmd.field w 0 32))) with
        fresh := s.fresh + 1, bottomLeaf := s.bottomLeaf + 1 }) ∧
    (Serving s 0 w loadExtensionSheet →
      signedBy s.part.extAuthority (b.take (numAt b 12 4)) (b.drop (numAt b 12 4)) = true ∧
      (s.part.lifecycle = 1 ∨ s.part.lifecycle = 2) ∧ numAt b 16 4 ≤ s.part.rom.toNat ∧
      ∃ p, s.extensionPlace (numAt b 4 4) = some p ∧
        let e := chainEntry 0x81 0 (s.knownItem [1, 2, 3] b) 0 0 0 (sha384 b);
        let items := (List.range (numAt b 2 2)).map (fun i => (Ext.kind b i, Ext.number b i, Ext.item b i));
        exec (.loadExtension 0) s = done 0x81 { s with
          extensions := SMap.set none s.extensions p (some
            { hash := hashField (sha384 b), id := BitVec.ofNat 32 (numAt b 4 4), version := BitVec.ofNat 32 (numAt b 8 4), items := items })
          chain := chainNext s.chain e, chainCount := (s.chainCount + 1) % 2 ^ 32 })) ∧
  (∀ (s : State) (w : Nat),
    let b := s.bytes .foyer (Cmd.dataAddr w) (Cmd.length w);
    let done (t : State) (st off body : Nat) : Answer := .next (t.complete 0 false 0x90 none (Cmd.tag w) st off body);
    let challenge := (List.range 32).map (Config.entropy s.fresh);
    let scope := numAt b 2 2;
    (Serving s 0 w challengeSheet (fun w => !([1, 2].contains (Cmd.field w 0 1))) →
      exec (.challenge 0) s = done { s with challenge := some challenge, fresh := s.fresh + 1 } St.ok noField (ofBytes challenge)) ∧
    (Serving s 0 w responseSheet (fun w => Cmd.field w 0 1 == 1) →
      (Cmd.length w ≠ 3764 → exec (.response 0) s = done { s with challenge := none } St.badSize 4 0) ∧
      (Cmd.length w = 3764 → s.challenge = none → exec (.response 0) s = done { s with challenge := none } St.wrongState noField 0) ∧
      ∀ c, Cmd.length w = 3764 → s.challenge = some c →
      (s.checkResponse c b = none → exec (.response 0) s = done { s with
        challenge := none, scope := s.scope ||| BitVec.ofNat 16 scope
        part := if scope.testBit 3 ∧ (s.part.lifecycle = 1 ∨ s.part.lifecycle = 2) then { s.part with lifecycle := 3 } else s.part } St.ok noField 0) ∧
      (∀ st off, s.checkResponse c b = some (st, off) → exec (.response 0) s = done { s with challenge := none } st off 0)) ∧
    (Serving s 0 w lockSheet (fun w => Cmd.field w 0 1 == 2) → exec (.lock 0) s = done { s with
      scope := 0
      perturb := if s.part.lifecycle = 1 then [] else s.perturb
      jtagIr := if s.part.lifecycle = 0 then s.jtagIr else 1
      extestPins := if s.part.lifecycle = 0 then s.extestPins else []
      tdo := if s.part.lifecycle = 0 then s.tdo else none } St.ok noField 0))

/-- R389, R423. The JTAG port shifts BYPASS, IDCODE, SAMPLE/PRELOAD and EXTEST while it is open, and falls back to IDCODE with TDO high
impedance otherwise. Choices: log entry 30. -/
def Obligations.BoundaryScan : Prop :=
  ∀ (s : State) (pins tdi : List Bool),
    let opened : Prop := (s.power = .run ∨ s.power = .interval ∨ s.power = .dim) ∧ (s.part.lifecycle = 0 ∨ s.scope.getLsbD 2 = true)
    let closed : Answer := .next { s with tdo := none, jtagIr := 1, extestPins := [] }
    let first (reg : List Bool) : List Bool := (reg ++ tdi).take tdi.length
    let rest (reg : List Bool) : List Bool := (reg ++ tdi).drop tdi.length
    (opened →
      exec (.bypass tdi) s = .next { s with jtagIr := 0, tdo := some (first [false]), extestPins := [] } ∧
      (∃ id : List Bool, id.length = 32 ∧ id.head? = some true ∧
        exec (.idcode tdi) s = .next { s with jtagIr := 1, tdo := some (first id), extestPins := [] }) ∧
      exec (.samplePreload pins tdi) s = .next { s with jtagIr := 2, tdo := some (first pins), boundary := rest pins, extestPins := [] } ∧
      exec (.extest pins tdi) s = .next { s with jtagIr := 3, tdo := some (first pins), boundary := rest pins, extestPins := rest pins }) ∧
    (¬opened → exec (.bypass tdi) s = closed ∧ exec (.idcode tdi) s = closed ∧ exec (.samplePreload pins tdi) s = closed ∧
      exec (.extest pins tdi) s = closed)

/-- R349, R380 to R383, R370, R385, R387. ENTER_STATE requests a transition, and STATE_REACHED, the wake wave and STANDBY complete it with
what each state keeps. -/
def Obligations.PowerStates : Prop :=
  (∀ (s : State) (w : Nat),
    let done : Answer := .next (s.complete 0 false 0x61 none (Cmd.tag w) St.ok noField 0);
    let on (target : PowerState) (waking : List Nat) : Answer :=
      .next { s with transition := some ⟨target, some ⟨0, 0x61, BitVec.ofNat 32 (Cmd.tag w)⟩⟩, waking := waking, wakeSince := s.now };
    let quiet : Prop := s.noneActive = true ∧ s.contextsQuiet = true;
    (Serving s 0 w (enterStateSheet .run) (fun w => s.settledPower && !([1, 2, 3].contains (Cmd.field w 0 1))) →
      (s.power = .run → exec (.run 0) s = done) ∧
      (s.power ≠ .run → exec (.run 0) s = on .run (if s.power = .dim then List.range 32 else []))) ∧
    (Serving s 0 w (enterStateSheet .interval) (fun w => s.settledPower && Cmd.field w 0 1 == 1) →
      (s.power = .interval → exec (.interval 0) s = done) ∧
      (s.power ≠ .interval → exec (.interval 0) s = on .interval (if s.power = .dim then List.range 32 else []))) ∧
    (Serving s 0 w (enterStateSheet .dim) (fun w => s.settledPower && Cmd.field w 0 1 == 2) →
      (s.power = .dim → exec (.dim 0) s = done) ∧ (s.power ≠ .dim → quiet ∧ exec (.dim 0) s = on .dim [])) ∧
    (Serving s 0 w (enterStateSheet .standby) (fun w => s.settledPower && Cmd.field w 0 1 == 3) →
      (s.power = .standby → exec (.standby 0) s = done) ∧ (s.power ≠ .standby → quiet ∧ exec (.standby 0) s = on .standby []))) ∧
  (∀ (s : State),
    (∀ t w, s.transition = some ⟨t, some w⟩ → s.transitionOver t = true → t ≠ .standby →
      let u := { s with power := t, transition := none, ready := s.ready || !s.fatal };
      exec .stateReached s = .next (State.complete (if s.power = .dim ∧ t ≠ .dim then u.clearCues else u)
        w.ring false w.opcode none w.tag.toNat St.ok noField 0)) ∧
    (∀ cmd, s.transition = some ⟨.standby, cmd⟩ → exec .stateReached s = .next { State.reset with
      pending := s.pending, fresh := s.fresh, part := s.part
      mem := s.mem.filter (fun p => decide (2 ^ 34 ≤ p.1) && decide (p.1 < 2 ^ 52))
      upsets := s.upsets.filter (fun p => decide (2 ^ 34 ≤ p.1) && decide (p.1 < 2 ^ 52))
      sram := s.sram.filter (fun e => State.bootError e.1), cores := s.cores.map (fun p => (p.1, State.freshCore p.2)), ready := false
      hostReset := s.hostReset
      power := .standby, sustained := s.sustained, peak := s.peak, ramp := s.ramp, fuseMax := s.fuseMax, triggers := s.triggers &&& 1
      temps := s.temps, watts := s.watts, bottomTree := s.bottomTree, bottomLeaf := s.bottomLeaf, bottomDraw := s.bottomDraw, bootLeaf := s.bootLeaf
      keyContext := s.keyContext, smbus := s.smbus, scrubNext := s.scrubNext }) ∧
    (∀ d rest, s.waking = d :: rest →
      let mine (k : Nat) : Bool := k / 64 == d;
      let wave := s.wakeSince + max (ceilDiv (125 * (32 - rest.length)) 2) (ceilDiv (375000 * (32 - rest.length)) s.ramp);
      (s.resetHeld = true ∨ s.now < wave → exec .dimWakeWave s = .next s) ∧
      (s.resetHeld = false → wave ≤ s.now → exec .dimWakeWave s = .next { (((s.clearStores mine).mapCores mine
        (fun k => { State.freshCore k with lastRefresh := s.now })).clearDistricts mine) with waking := rest })))

/-- R377, R378, R379, R383, R384, R386, R387, R408, R409. Power-on reset, power-down and RESET_N leave what the retention table keeps.
Choices: log entry 22. -/
def Obligations.WholeChipResets : Prop :=
  ∀ (s : State),
    let whole : State := { State.reset with
      pending := s.pending, fresh := s.fresh, part := s.part, sram := s.sram.filter (fun e => State.bootError e.1), ready := false
      hostReset := s.hostReset, power := .booting, fuseMax := s.fuseMax, triggers := s.triggers &&& 1, bootLeaf := s.bootLeaf }
    let powerOn (broken : Bool) : State := { whole with
      part := { s.part with bootCount := min (s.part.bootCount + 1) 4096 }
      bootLeaf := s.part.bootCount, fresh := s.fresh + 1, bottomDraw := s.fresh, keyContext := s.part.lifecycle == 3, resetHeld := true
      railsBroken := broken, waking := s.sleepers }
    s.sleepers = (if s.power = .interval ∨ s.power = .dim ∨ s.waking ≠ [] then List.range 32 else []) ∧
    exec .powerOnReset s = .next (powerOn (Config.railsBroken s.fresh)) ∧
    exec .powerDown s = .next { whole with power := .off } ∧
    (s.power ≠ .off → s.railsBroken = true → exec .resetN s = .next (powerOn false)) ∧
    (s.power ≠ .off → s.railsBroken = false → exec .resetN s = .next { whole with
      mem := s.mem.filter (fun p => decide (0 ≤ p.1) && decide (p.1 < 2 ^ 52))
      upsets := s.upsets.filter (fun p => decide (0 ≤ p.1) && decide (p.1 < 2 ^ 52))
      cores := s.cores.map (fun p => (p.1, State.freshCore p.2)), temps := s.temps, watts := s.watts, bottomTree := s.bottomTree
      bottomLeaf := s.bottomLeaf, bottomDraw := s.bottomDraw, keyContext := s.keyContext, smbus := s.smbus, scrubNext := s.scrubNext
      log := s.log, fatalRecord := s.fatalRecord, resetHeld := true, waking := s.sleepers
      zeroing := if s.power = .booting then s.zeroing else 0 })

/-- R377, R378, R383, R394, R409, R419, R349, R384, R385, R387. BOOT makes the chip ready or fatal, the bottom tree completes, and
DEVICE_RESET and the watchdog restart the stage manager. Choices: log entry 22, log entry 23. -/
def Obligations.BootsAndManagerResets : Prop :=
  (∀ (s : State), s.power = .booting →
    let fails (i : Nat) : Prop := ∃ e ∈ s.sram, e.1 = SramPlace.boot i;
    let zeroed (lo : Nat) : State := { s with
      mem := s.mem.filter (fun p => decide (lo ≤ p.1) && decide (p.1 < 2 ^ 52))
      upsets := s.upsets.filter (fun p => decide (lo ≤ p.1) && decide (p.1 < 2 ^ 52)) };
    let up (u : State) : State := { u with power := .run, zeroing := 0, wakeSince := s.now, ready := true };
    (s.resetHeld = true → exec .boot s = .next { s with resetHeld := false }) ∧
    (s.resetHeld = false → s.railsBroken = true → exec .boot s = .next s) ∧
    (s.resetHeld = false → s.railsBroken = false →
      (s.part.lifecycle.toNat ≤ 3 → ¬fails 1 → ¬fails 2 → s.triggers = 0 → s.riseArmed = false →
        (s.zeroing = 0 → exec .boot s = .next (up s)) ∧
        (s.zeroing = 1 → exec .boot s = .next (up (zeroed (2 ^ 34)))) ∧
        (2 ≤ s.zeroing → exec .boot s = .next (up { s with mem := [], upsets := [] }))) ∧
      ((3 < s.part.lifecycle.toNat ∨ fails 1) →
        exec .boot s = .next (State.fatalFault { s with power := .run, zeroing := 0, wakeSince := s.now } 4 1)) ∧
      (s.part.lifecycle.toNat ≤ 3 → ¬fails 1 → fails 2 →
        exec .boot s = .next (State.fatalFault { s.zeroMemory with power := .run, zeroing := 0, wakeSince := s.now } 4 2)))) ∧
  (∀ (s : State), s.ready = true → exec .bottomTreeComplete s = .next { s with bottomTree := true }) ∧
  (∀ (s : State) (w : Nat),
    let back (t : State) (cmd : Option Waiting) : Prop :=
      t.ready = false ∧ t.fatal = false ∧ t.power = .run ∧ t.transition = some ⟨.run, cmd⟩ ∧
      t.waking = s.sleepers ∧ t.wakeSince = t.now ∧ t.street = [] ∧ t.carriages = [] ∧ t.contexts = [] ∧
      t.plans = [] ∧ t.directory = [] ∧ t.engine = [] ∧ t.engineQueue = [] ∧ t.scope = 0 ∧ t.challenge = none ∧ t.perturb = [] ∧
      t.mem = s.mem.filter (fun p => decide (p.1 < 2 ^ 52)) ∧ t.districtCounters = [] ∧ t.jtagIr = 1 ∧ t.extestPins = [] ∧ t.tdo = none ∧
      (∀ p ∈ t.jobs, p.2 = { ({} : Job) with scene := p.2.scene }) ∧ ∀ e ∈ t.sram, State.coreStore (fun _ => true) true e.1 = false ∧ State.managerStore e.1 = false;
    (Serving s 0 w deviceResetSheet (fun _ => (List.range 32).all s.betweenBundles) →
      ∃ t, exec (.deviceReset 0) s = .next t ∧ back t (some ⟨0, 4, BitVec.ofNat 32 (Cmd.tag w)⟩) ∧ t.rings = [(0, { state := .opened })]) ∧
    (s.ready = true → (s.power = .run ∨ s.power = .interval ∨ s.power = .dim) → (∀ c, c < 32 → s.betweenBundles c = true) →
      let r := s.deviceRecord 6 2 0 s.log.next;
      ∃ t, exec .watchdog s = .next t ∧ back t none ∧
        t.rings = [(0, { state := .opened, queue := [t.deviceHeader 0x0C ++ toBytes 64 r.toNat] })]))

/-- R360, R372, R373, R374, R375, R394. VR_HOT_N, power and temperature trigger the hard limit; stretch levels rise and fall; a reading of
115 °C is fatal. Choices: log entry 32. -/
def Obligations.HardLimit : Prop :=
  (∀ (s : State),
    let v := s.settleRise;
    let recognised (t : BitVec 4) (u : State) : Prop :=
      (t ≠ 0 → v.stretch = 0 → u = (State.taintActive { v with
        triggers := t, stretchSince := v.now, stretch := 1, stretchAt := v.now, riseArmed := true, fellAt := none }).postPower
          (State.triggerCode { v with triggers := t }) 0 0) ∧
      (t = 0 ∨ v.stretch ≠ 0 → u = { v with triggers := t, stretchSince := if v.triggers ≠ 0 ∨ t ≠ 0 then v.now else v.stretchSince });
    (s.riseArmed = false ∨ s.now < s.stretchAt + 12500 → v = s) ∧
    (s.riseArmed = true → s.stretchAt + 12500 ≤ s.now → v =
      if s.stretch = 1 ∧ s.triggers ≠ 0 then State.postPower { s with riseArmed := false, stretch := 2 } s.triggerCode 0 0
      else { s with riseArmed := false }) ∧
    exec .stretchLevelRise s = .next v ∧
    (s.watches = true → ∃ u, exec (.vrHotN true) s = .next u ∧ recognised (s.triggers ||| 1) u) ∧
    (s.watches = true → ∃ u, exec (.vrHotN false) s = .next u ∧ recognised (s.triggers &&& 14) u) ∧
    (s.watches = false → ∀ low, exec (.vrHotN low) s = .next { s with triggers := if low then s.triggers ||| 1 else s.triggers &&& 14 }) ∧
    (s.stretch = 2 → s.triggers = 0 → s.stretchSince + 25000 ≤ s.now →
      exec .stretchLevelFall s = .next { s with stretch := 1, stretchSince := s.now, riseArmed := false }) ∧
    (s.stretch = 1 → s.triggers = 0 → s.stretchSince + 25000 ≤ s.now →
      let u := (List.range 32).foldl (fun s c => s.resumeRamp c) s;
      exec .stretchLevelFall s = .next (State.postPower { u with stretch := 0, stretchSince := u.now, riseArmed := false, fellAt := some u.now } 6 0 0))) ∧
  (∀ (s : State),
    let above (w : Nat) : Nat := if (s.running.map (·.sustained)).foldl max s.sustained < w then min (s.overSustained + 1) 10000 else 0;
    (∀ w, w < 2 ^ 16 → s.watches = true →
      let t : BitVec 4 := BitVec.ofNat 4 (s.triggers.toNat % 2 + 2 * (if (s.running.map (·.budgetPeak)).foldl max s.peak < w then 1 else 0) +
        4 * (if above w = 10000 then 1 else 0) + 8 * (if s.triggers.toNat.testBit 3 then 1 else 0));
      exec (.powerMeasurement w) s = .next (State.setTriggers { s with watts := w, overSustained := above w } t)) ∧
    (∀ rs : List Nat, s.power ≠ .off → s.power ≠ .standby → s.resetHeld = false →
      let r (d : Nat) : Nat := rs.getD d 720 % 65536;
      let u : State := { s with temps := SMap.setMany 720 s.temps ((List.range 32).map (fun d => (d, r d))) };
      (s.watches = false → (∀ d, d < 32 → r d < 1840) → exec (.temperatureReading rs) s = .next u) ∧
      (s.watches = true → (∀ d, d < 32 → r d < 1680) → exec (.temperatureReading rs) s = .next (u.setTriggers (u.triggers &&& 7))) ∧
      (s.watches = true → (∀ d, d < 32 → r d < 1840) → (∃ d, d < 32 ∧ 1680 ≤ r d) → exec (.temperatureReading rs) s = .next (u.setTriggers (u.triggers ||| 8))) ∧
      (∀ d, d < 32 → 1840 ≤ r d → (∀ e, e < d → r e < 1840) → exec (.temperatureReading rs) s = .next (u.fatalFault 5 d))))

/-- R380, R384, R446. The SMBus target answers WAKE, LINK_RESET, READ_VID, READ_TEMP, READ_STATE and READ_SERIAL, and NACKs a bad check
byte. Choices: log entry 31. -/
def Obligations.SmbusAnswers : Prop :=
  ∀ (s : State), s.power ≠ .off →
    let answer (b : List Byte) : Answer := .next { s with smbus := some b }
    (exec (.wake true) s = .next { s with
      power := if s.power = .standby then .booting else s.power
      zeroing := if s.power = .standby then 1 else s.zeroing, smbus := some [] }) ∧
    (∀ l, l < 16 → ∃ u, exec (.linkReset l true) s = .next { u with smbus := some [] } ∧
      u = ((s.setLink l (State.emptyLink (s.link l) (if (s.link l).enabled ∧ s.fatal = false then .training else .down))).dropPeers l)) ∧
    exec (.readVid true) s = answer [BitVec.ofNat 8 s.part.vid] ∧
    (∀ d, d < 32 → exec (.readTemp d true) s = answer (toBytes 2 (if s.ready then SMap.get 720 s.temps d else 0))) ∧
    exec (.readState true) s = answer (toBytes 4 (pack [(s.power.code, 8), (s.hpStatus, 8), (s.stretch, 2), (0, 6), (s.part.lifecycle.toNat, 8)])) ∧
    exec (.readSerial true) s = answer (toBytes 16 s.part.serial.toNat) ∧
    (∀ i ∈ [Instr.wake false, .readVid false, .readState false, .readSerial false], exec i s = .next { s with smbus := none }) ∧
    (∀ d, exec (.readTemp d false) s = .next { s with smbus := none } ∧ exec (.linkReset d false) s = .next { s with smbus := none })

/-- R222, R223, R224, R226, R233, R234. IDLE, HEADER and FLIT frames: acknowledgement and credits, naks and resends, sequence numbers,
packets put together, and every field of a sent frame word. Choices: log entry 92, log entry 54, log entry 19. -/
def Obligations.FramesArrive : Prop :=
  (∀ (s : State) (l : LinkId) (frame : BitVec 128) (body : List Byte),
    let f := frame.toNat;
    let seq := bitsOf f 34 12;
    let k := (s.link l).heard f;
    let k' : Link := { k with rxSeq := seq, nak := false, naked := false };
    let p : Packet := { header := BitVec.ofNat 256 (ofBytes body), payload := [] };
    let discarded (x : Link) : Link := { x with nak := x.nak || !x.naked, naked := true };
    let intact : Prop := (s.link l).bad = 0 ∧ (s.link l).deafUntil ≤ s.now;
    (Arriving s l 0 f [] → exec (.idle l frame) s = .next (s.setLink l k)) ∧
    (s.linkLive l = true → intact → Fw.good f [] = true → bitsOf f 32 2 = 0 → f.testBit 58 = true → (∀ x ∈ k.replay, x.resends < 8) →
      exec (.idle l frame) s = .next (((s.setLink l { k with
        replay := k.replay.map (fun x => { x with resends := x.resends + 1 })
        resent := (k.resent + k.replay.length) % 2 ^ 32 }).sendFrames l k.replay).countChip 0x42 (some l) k.replay.length)) ∧
    (s.linkLive l = true → intact → (Fw.good f [] = false ∨ bitsOf f 32 2 ≠ 0) →
      exec (.idle l frame) s = .next (s.setLink l (discarded (s.link l)))) ∧
    (s.linkLive l = true → ¬intact →
      exec (.idle l frame) s = .next (s.setLink l (discarded { s.link l with bad := (s.link l).bad - 128 }))) ∧
    (Arriving s l 1 f body → body.length = 32 →
      (seq = (k.rxSeq + 1) % 4096 → Hdr.flits p.header.toNat ≠ 0 → exec (.header l frame body) s = .next (s.setLink l { k' with rx := some p })) ∧
      (seq = (k.rxSeq + 1) % 4096 → Hdr.flits p.header.toNat = 0 →
        exec (.header l frame body) s = .next ((s.setLink l { k' with rx := none }).arrive l p)) ∧
      (seq ≠ (k.rxSeq + 1) % 4096 → exec (.header l frame body) s = .next (s.setLink l (discarded k)))) ∧
    (∀ r, Arriving s l 2 f body → body.length = 256 → k.rx = some r → seq = (k.rxSeq + 1) % 4096 →
      let q : Packet := { r with payload := r.payload ++ body };
      (q.payload.length < 256 * Hdr.flits r.header.toNat → exec (.flit l frame body) s = .next (s.setLink l { k' with rx := some q })) ∧
      (256 * Hdr.flits r.header.toNat ≤ q.payload.length →
        exec (.flit l frame body) s = .next ((s.setLink l { k' with rx := none }).arrive l q)))) ∧
  (∀ (s : State) (l : LinkId) (kind seq : Nat) (body : List Byte), kind < 4 → seq < 4096 →
    let k := s.link l;
    let w := State.frameWord k kind seq body;
    let owed := k.owed.headD (0, 0);
    s.sendFrame l kind seq body = s.setLink l { k with
      sent := k.sent ++ [(w, body)], nak := false, ackSent := k.rxSeq
      owed := match k.owed.head? with
        | some (i, n) => SMap.set 0 k.owed i (n - min n 127)
        | none => k.owed } ∧
    bitsOf w.toNat 0 32 = (crc32 (toBytes 12 (w.toNat / 2 ^ 32) ++ body)).toNat ∧
    bitsOf w.toNat 32 2 = kind ∧ bitsOf w.toNat 34 12 = seq ∧ bitsOf w.toNat 46 12 = k.rxSeq % 4096 ∧
    w.toNat.testBit 58 = k.nak ∧ bitsOf w.toNat 59 2 = owed.1 / 64 % 4 ∧ bitsOf w.toNat 61 1 = owed.1 / 32 % 2 ∧
    bitsOf w.toNat 62 5 = owed.1 % 32 ∧ bitsOf w.toNat 67 7 = min owed.2 127 ∧ bitsOf w.toNat 74 54 = 0 ∧
    Fw.good w.toNat body = true)

/-- R225, R238, R241. LINK_CONTROL frames: probes and replies measure the delay, TIME frames synchronise, spare requests and
acknowledgements move a lane, LINK_ID names the neighbour. -/
def Obligations.ControlFramesAct : Prop :=
  ∀ (s : State) (l : LinkId) (frame : BitVec 128) (body : List Byte) (n : Nat),
    let f := frame.toNat
    let b := ofBytes body
    let k := (s.link l).heard f
    let u := s.setLink l k
    let p := (bitsOf b 32 32, bitsOf b 64 64, bitsOf b 128 10)
    let trip := s.now * 1024 + n % 1024 - (bitsOf b 64 64 * 1024 + bitsOf b 128 10) - bitsOf b 144 32
    let lane := bitsOf b 8 4
    (∀ t : Word, Controlling s l 1 f body → exec (.rttProbe l frame body t) s = .next (u.sendFrame l 3 0
      (Lc.make 2 0 false (bitsOf b 32 32) (bitsOf b 64 64) (bitsOf b 128 10) t.toNat 0 0))) ∧
    (Controlling s l 2 f body → k.probes.contains p = true →
      exec (.rttReply l frame body n) s = .next (s.setLink l { k with probes := k.probes.filter (· != p), delay := trip / 2 })) ∧
    (Controlling s l 3 f body → s.town.parent = some l → s.town.master = false → b.testBit 12 = true →
      let est : Int := (bitsOf b 64 64 : Int) * 1024 + bitsOf b 128 10 + k.delay
      let steps : Int := (2 * (est - s.now * 1024) + 25600) / 51200
      (steps = 0 → s.town.synced = true → exec (.time l frame body) s = .next u) ∧
      (steps = 0 → s.town.onReference = true → exec (.time l frame body) s = .next u) ∧
      (steps = 0 → s.town.synced = false → s.town.onReference = false → s.town.agreed < 2 →
        exec (.time l frame body) s = .next { u with town := { s.town with agreed := s.town.agreed + 1 } }) ∧
      (steps = 0 → s.town.synced = false → s.town.onReference = false → 2 ≤ s.town.agreed →
        exec (.time l frame body) s = .next (State.postDevice { u with town := { s.town with synced := true, agreed := 3 } } 0x15 0)) ∧
      (steps ≠ 0 → s.town.synced = false →
        exec (.time l frame body) s = .next { u with town := { s.town with count := BitVec.ofInt 64 (s.now + 25 * steps), agreed := 0 } })) ∧
    (Controlling s l 4 f body → lane < 8 → k.spared = none → k.sparing = none →
      exec (.spareRequest l frame body) s = .next (((u.sendFrame l 3 0 (Lc.make 5 lane false 0 0 0 0 0 0)).updLink l (fun k => { k with
        spared := some lane, sparing := none, state := .upSpared })).postDevice 0x12 (l + 256 * lane))) ∧
    (Controlling s l 5 f body → k.sparing = some (lane, true) →
      exec (.spareAck l frame body) s = .next ((s.setLink l { k with spared := some lane, sparing := none, state := .upSpared }).postDevice
        0x12 (l + 256 * lane))) ∧
    (Controlling s l 6 f body → exec (.linkId l frame body) s = .next (s.setLink l { k with neighbour := some (bitsOf b 176 16, bitsOf b 192 4) }))

/-- R225, R238, R240, R241, R242. Timers send probes, TIME frames and spare requests; TOWN_REF edges and the loss of synchronisation set the
town clock and the taint. Choices: log entry 57. -/
def Obligations.TimersAndTownTime : Prop :=
  ∀ (s : State) (l : LinkId) (fine : Nat),
    let k := s.link l
    (s.linkLive l = true → exec (.rttProbeTimer l fine) s = .next ((s.sendFrame l 3 0 (Lc.make 1 0 false k.probeId s.now (fine % 1024) 0 0 0)).updLink l (fun k => { k with
      probes := k.probes ++ [(k.probeId, s.now, fine % 1024)], probeId := (k.probeId + 1) % 2 ^ 32 }))) ∧
    (s.linkLive l = true → (s.town.parent ≠ some l ∨ s.town.master = true) → exec (.timeTimer l fine) s = .next (s.sendFrame l 3 0
      (Lc.make 3 0 (s.town.synced || s.town.master) 0 s.now (fine % 1024) 0 0 0))) ∧
    (∀ lane, s.linkLive l = true → k.sparing = some (lane, true) → exec (.spareRequestTimer l) s = .next (s.sendFrame l 3 0
      (Lc.make 4 lane false 0 0 0 0 0 0))) ∧
    (∀ cause, 1 ≤ cause → cause ≤ 3 → s.town.synced = true →
      let u := (List.range 32).foldl (fun s c => if s.formed c && (s.company c).reproducible then s.setTaint c else s)
        { s with town := { s.town with synced := false, agreed := 0, onReference := cause == 1 || s.town.onReference } }
      exec (.townSyncLost cause) s = .next (u.postDevice 0x16 cause)) ∧
    (s.power ≠ .off → s.power ≠ .booting → s.power ≠ .standby →
      let u : State := { s with town := { s.town with count := BitVec.ofNat 64 ((s.now + 12) / 25 * 25), onReference := false } }
      (s.town.master = false ∨ s.town.synced = true → exec .townRefEdge s = .next u) ∧
      (s.town.master = true → s.town.synced = false → exec .townRefEdge s =
        .next (State.postDevice { u with town := { u.town with synced := true, agreed := 3 } } 0x15 0)))

/-- R221, R225, R235, R238, R437. Lane loss asks for the spare, a second one loses the link, a trained link comes up and says so, and
LINK_ERROR controls do what their kind says. Choices: log entry 56, log entry 92. -/
def Obligations.LanesAndLinks : Prop :=
  ∀ (s : State) (l : LinkId),
    let k := s.link l
    let lost := (State.postDevice { s.setLink l { State.emptyLink k .down with wasLost := true } with
      outbox := State.wholePackets (k.front ++ k.replay) ++ s.outbox } 0x13 l).dropPeers l
    (∀ lane, s.linkLive l = true → lane < 8 → k.spared = none → k.sparing = none →
      exec (.laneLoss l lane) s = .next ((s.setLink l { k with sparing := some (lane, true) }).sendFrame l 3 0
        (Lc.make 4 lane false 0 0 0 0 0 0))) ∧
    (∀ lane m, s.linkLive l = true → k.spared = some m → m ≠ lane → k.sparing ≠ some (lane, true) → exec (.laneLoss l lane) s = .next lost) ∧
    (s.linkLive l = true → exec (.linkLost l) s = .next lost) ∧
    (l < 16 → k.enabled = true → k.state = .training → s.fatal = false →
      let up := (s.setLink l { State.emptyLink k .up with wasLost := false, owed := s.advertised l }).sendFrame l 3 0
        (Lc.make 6 0 false 0 0 0 0 s.chipId l)
      (k.wasLost = false → exec (.linkUp l) s = .next up) ∧ (k.wasLost = true → exec (.linkUp l) s = .next (up.postDevice 0x14 l))) ∧
    (∀ slot, slot ≤ 15 →
      let q := SMap.get {} s.perturb slot
      let q' : Perturb := if q.left = 0xFFFFFFFF then q else if q.left ≤ 1 then {} else { q with left := q.left - 1 }
      let u := State.countChip { s with perturb := SMap.set {} s.perturb slot q' } 0x4D none 1
      q.kind = 5 → u.linkLive q.channel = true → q.amount ≠ 0 →
      (q.sub = 1 → exec (.linkError slot) s = .next (u.countChip 0x43 (some q.channel) 1)) ∧
      (q.sub = 2 → exec (.linkError slot) s = .next (u.updLink q.channel (fun k => { k with bad := k.bad + 5140 }))) ∧
      (q.sub = 3 → exec (.linkError slot) s = .next (u.loseLane q.channel q.lane)) ∧
      (q.sub = 4 → 500 ≤ q.amount → exec (.linkError slot) s = .next (u.loseLink q.channel)) ∧
      (q.sub = 4 → q.amount < 500 →
        exec (.linkError slot) s = .next (u.updLink q.channel (fun k => { k with deafUntil := max k.deafUntil (u.now + q.amount) }))))

/-- R229. A packet to be forwarded with no hops left is discarded, counted on FABRIC_TTL and its credits returned. -/
def Obligations.HopLimitDiscards : Prop :=
  ∀ (s : State) (i : Nat) (p : Packet), s.outbox[i]? = some p → s.flowFront i p = true → s.fatal = false →
    p.source ≠ none → Hdr.hops p.header.toNat = 0 →
      exec (.packetForward i) s = .next ((State.release { s with outbox := s.outbox.eraseIdx i } p).countChip 0x45 none 1)

/-- R230, R233, R234, R236, R237, R335, R437. Packets leave by their route with credits, wait for them, or are reported unreachable; routes
swap; starved companies are reported. Choices: log entry 97, log entry 55. -/
def Obligations.PacketsAndRoutes : Prop :=
  (∀ (s : State) (i : Nat) (p : Packet), s.outbox[i]? = some p → s.flowFront i p = true → s.fatal = false →
    (¬(p.source ≠ none ∧ Hdr.hops p.header.toNat = 0) → s.outPort p = none → p.unreachable = false →
      exec (.packetForward i) s = .next (State.postDevice { s with outbox := s.outbox.modify i (fun q => { q with unreachable := true }) }
        0x11 (Hdr.dest p.header.toNat + 65536 * Hdr.routeSet p.header.toNat))) ∧
    (∀ raise, ¬(p.source ≠ none ∧ Hdr.hops p.header.toNat = 0) → s.outPort p = some (16, raise) →
      exec (.packetForward i) s = .next (s.deliverHere i p)) ∧
    (∀ l raise, ¬(p.source ≠ none ∧ Hdr.hops p.header.toNat = 0) → s.outPort p = some (l, raise) → l ≠ 16 →
      let h := State.leavingHeader p raise;
      let k := s.link l;
      let c := creditIndex (Hdr.vc h) (Hdr.cls h) (Hdr.company h);
      let fs := State.packetFrames k.txSeq h p.payload p.source;
      let credits := if s.isWithheld (Hdr.company h) l (Hdr.vc h) then 0 else SMap.get 0 k.credits c;
      (credits < p.units → exec (.packetForward i) s = .next { s with
        outbox := s.outbox.modify i (fun q => if q.waitingSince.isSome then q else { q with waitingSince := some s.now }) }) ∧
      (p.units ≤ credits → k.replay.length + p.units ≤ 1024 →
        let t := (s.setLink l { k with
          credits := SMap.set 0 k.credits c (SMap.get 0 k.credits c - p.units)
          replay := k.replay ++ fs, txSeq := (k.txSeq + p.units) % 4096 }).sendFrames l fs;
        exec (.packetForward i) s = .next (State.release { t with outbox := t.outbox.eraseIdx i } p)))) ∧
  (∀ (s : State),
    (∀ n, s.swapAt = some n → n ≤ s.now → exec .routeSwap s = .next { s with
      routes := s.routesShadow, routesShadow := s.routes, swapAt := none
      outbox := s.outbox.map (fun p => { p with unreachable := false }) }) ∧
    (∀ c link vc i p t,
      let mine (p : Packet) : Bool := Hdr.company p.header.toNat == c && Hdr.vc p.header.toNat == vc && p.waitingSince.isSome &&
        (match s.outPort p with | some q => q.1 == link | none => false);
      s.outbox[i]? = some p → s.outbox.findIdx mine = i → p.waitingSince = some t → (s.company c).watch ≠ 0 →
      (s.company c).watch.toNat * (p.starved + 1) < s.now - t →
      exec (.creditStarved c link vc) s = .next (State.postCompany { s with outbox := s.outbox.modify i (fun q => { q with starved := q.starved + 1 }) }
        c 4 (link % 16 + 16 * (vc % 4) + 2 ^ 32 * (s.now - t)))) ∧
    (∀ slot, slot ≤ 15 →
      let q := SMap.get {} s.perturb slot;
      let q' : Perturb := if q.left = 0xFFFFFFFF then q else if q.left ≤ 1 then {} else { q with left := q.left - 1 };
      let u := State.countChip { s with perturb := SMap.set {} s.perturb slot q' } 0x4D none 1;
      (s.withheld.find? (fun w => w.1 == slot) = none → q.kind = 2 → q.amount ≠ 0 →
        exec (.creditWithhold slot) s = .next { u with withheld := s.withheld ++ [(slot, q.company, q.channel, q.sub)] }) ∧
      (∀ w, s.withheld.find? (fun w => w.1 == slot) = some w →
        exec (.creditWithhold slot) s = .next { (s.taintWithheld w) with withheld := s.withheld.filter (fun w => w.1 != slot) })))

/-- R304, R305, R309. ACTIVATE-1 and ACTIVATE-2 open a row, PRECHARGE closes one or all, and opening an open bank counts a protocol error.
Choices: log entry 20. -/
def Obligations.RowsOpenAndClose : Prop :=
  ∀ (s : State) (c bank x : Nat), s.channelOn c = true →
    let k := s.channel c
    let b := bank % 16
    exec (.activate1 c bank x) s = .next (s.setChannel c { k with half := SMap.set none k.half b (some (x % 4)) }) ∧
    (∀ u, SMap.get none k.half b = some u →
      let opened := s.setChannel c { k with rows := SMap.set none k.rows b (some (u * 16384 + x % 16384)), half := SMap.set none k.half b none }
      (SMap.get none k.rows b = none → exec (.activate2 c bank x) s = .next opened) ∧
      (SMap.get none k.rows b ≠ none → exec (.activate2 c bank x) s = .next (opened.countProtocolError c))) ∧
    exec (.precharge c bank) s = .next (s.setChannel c { k with rows := SMap.set none k.rows b none }) ∧
    exec (.prechargeAll c) s = .next (s.setChannel c { k with rows := [] })

/-- R305, R309, R310, R311, R312, R304, R313. Host bursts read and write the foyer at the place of their row, bank and column, with masks,
and touch nothing else. -/
def Obligations.HostReachesTheFoyer : Prop :=
  (∀ (s : State) (c bank col row : Nat), s.channelOn c = true → s.power ≠ .booting →
    SMap.get none (s.channel c).rows (bank % 16) = some row → row < 512 →
    let at_ (col : Nat) : Nat := c * 2 ^ 24 + row * 32768 + (bank % 16) * 2048 + (col % 64) * 32;
    let clean (a n : Nat) : Prop := ∀ i, i < n / 8 → s.upset .foyer (a + 8 * i) = 0;
    let answer (a n : Nat) : Answer :=
      .next (s.setChannel c { s.channel c with dq := (List.range n).map (fun i => Memory.read s.mem (a + i)) });
    (clean (at_ col) 32 → exec (.read16 c bank col false) s = answer (at_ col) 32) ∧
    (clean (at_ (col - col % 2)) 64 → exec (.read32 c bank col false) s = answer (at_ (col - col % 2)) 64)) ∧
  (∀ (s : State) (c bank col row : Nat) (data : List Byte) (mask : List Bool), s.channelOn c = true → s.power ≠ .booting →
    SMap.get none (s.channel c).rows (bank % 16) = some row → row < 512 →
    let at_ (col : Nat) : Nat := c * 2 ^ 24 + row * 32768 + (bank % 16) * 2048 + (col % 64) * 32;
    let clean (a n : Nat) : Prop := ∀ i, i < n / 8 → s.upset .foyer (a + 8 * i) = 0;
    let stores (i : Instr) (a n : Nat) (kept : Nat → Bool) : Prop :=
      ∃ t, exec i s = .next t ∧ t = { s with mem := t.mem } ∧
        (∀ j, j < n → Memory.read t.mem (a + j) = if kept j then Memory.read s.mem (a + j) else data.getD j 0) ∧
        (∀ b, b < a ∨ a + n ≤ b → Memory.read t.mem b = Memory.read s.mem b);
    (data.length = 32 → clean (at_ col) 32 → stores (.write16 c bank col data false) (at_ col) 32 (fun _ => false)) ∧
    (data.length = 64 → clean (at_ (col - col % 2)) 64 →
      stores (.write32 c bank col data false) (at_ (col - col % 2)) 64 (fun _ => false)) ∧
    (data.length = 32 → clean (at_ col) 32 →
      stores (.maskedWrite c bank col data mask false) (at_ col) 32 (fun j => mask.getD j false)))

/-- R313. A host that writes 32 bytes of the foyer and reads them back gets the bytes it wrote. -/
def Obligations.WriteThenRead : Prop :=
  ∀ (s : State) (c bank col row : Nat) (data : List Byte), s.channelOn c = true → s.power ≠ .booting →
    SMap.get none (s.channel c).rows (bank % 16) = some row → row < 512 → data.length = 32 →
    (∀ i, i < 4 → s.upset .foyer (c * 2 ^ 24 + row * 32768 + (bank % 16) * 2048 + (col % 64) * 32 + 8 * i) = 0) →
    ∃ t u, exec (.write16 c bank col data false) s = .next t ∧ exec (.read16 c bank col false) t = .next u ∧ (u.channel c).dq = data

/-- R303, R306, R307, R308, R304, R314, R317, R318. Mode registers, CAS, training, FIFO, calibration, refresh and hint commands of the host
port, and HOST_RESET_N. Choices: log entry 20, log entry 75, log entry 101. -/
def Obligations.HostPortCommands : Prop :=
  (∀ (s : State) (c : Nat), s.channelReady c = true →
    let k := s.channel c;
    let set (k : Channel) : Answer := .next (s.setChannel c k);
    (∀ r v, r ≤ 255 →
      let i := (if State.mrPerSetPoint r then bitsOf (SMap.get 0 k.mr 16).toNat 0 2 else 0) * 256 + r;
      exec (.modeRegisterWrite c r v) s = set { k with
        mr := SMap.set 0 k.mr i (BitVec.ofNat 8 (State.mrAccept (SMap.get 0 k.mr i).toNat v.toNat r)) } ∧
      exec (.modeRegisterRead c r) s = set { k with dq := [if r = 4 then 0x09 else if r = 8 then 0x19 else SMap.get 0 k.mr i] }) ∧
    (∀ op, 2 < op → exec (.cas c op) s = .next (s.countProtocolError c)) ∧
    (∀ op, op ≤ 1 → exec (.cas c op) s = set { k with wck := true }) ∧ exec (.cas c 2) s = set { k with wck := false } ∧
    (∀ pattern,
      exec (.multiPurposeCommand c 0 pattern) s = set { k with training := 1, dq := [pattern] } ∧
      exec (.multiPurposeCommand c 1 pattern) s = set { k with training := 2, dq := [pattern] } ∧
      exec (.multiPurposeCommand c 4 pattern) s = set { k with training := 0 } ∧
      (∀ op, 4 < op → exec (.multiPurposeCommand c op pattern) s = .next (s.countProtocolError c)) ∧
      ∀ op, op = 2 ∨ op = 3 → exec (.multiPurposeCommand c op pattern) s = set k) ∧
    (∀ data : List Byte, data.length = 32 → exec (.writeFifo c data) s = set { k with fifo := k.fifo ++ [data] }) ∧
    (∀ d t, k.fifo = d :: t → exec (.readFifo c) s = set { k with dq := d, fifo := t }) ∧
    exec (.readDqCalibration c) s = set { k with dq := calibrationBytes (fun r => (SMap.get 0 k.mr (s.mrIndex c r)).toNat) }) ∧
  (∀ (s : State) (c : Nat),
    let k := s.channel c;
    let entry (h : Nat) : Answer := .next ((s.setChannel c { k with hint := h, idleHints := min (k.idleHints + 1) 0xFFFFFFFF }).countChip 0x53 (some c) 1);
    let leave : Answer := .next (s.setChannel c { k with hint := 0 });
    let seen : Answer := .next ((s.setChannel c { k with refreshSeen := min (k.refreshSeen + 1) 0xFFFFFFFF }).countChip 0x52 (some c) 1);
    (s.channelOn c = true →
      exec (.refreshAllBank c) s = seen ∧ (∀ bank, exec (.refreshPerBank c bank) s = seen) ∧ exec (.refreshManagement c) s = seen ∧
      exec (.selfRefreshEntry c) s = entry 1 ∧ exec (.powerDownEntry c) s = entry 2 ∧ exec (.deepSleepEntry c) s = entry 3) ∧
    (s.portOn = true → c < 4 →
      (k.hint = 1 → exec (.selfRefreshExit c) s = leave) ∧ (k.hint = 2 → exec (.powerDownExit c) s = leave) ∧
      (k.hint = 3 → exec (.deepSleepExit c) s = leave) ∧
      exec (.channelInitialised c) s = .next (s.setChannel c { k with initialised := true })) ∧
    exec (.deselect c) s = .next s ∧
    exec (.hostResetN true) s = .next { s with hostReset := true } ∧
    (∃ t, exec (.hostResetN false) s = .next t ∧ t = { s with hostReset := false, channels := t.channels } ∧
      (∀ d, d < 4 → t.channel d = {
        unbackedReads := (s.channel d).unbackedReads, unbackedWrites := (s.channel d).unbackedWrites, refreshSeen := (s.channel d).refreshSeen
        idleHints := (s.channel d).idleHints, protocolErrors := (s.channel d).protocolErrors }) ∧
      ∀ d, 4 ≤ d → t.channel d = s.channel d))

/-- R314, R325, R326, R327. Doorbells and completion heads move the ring indexes or count a bad index; the channel counters clear; ATTN_MASK
is written. -/
def Obligations.RingRegistersAreWritten : Prop :=
  ∀ (s : State) (r : Nat) (v : Word), s.channelOn 0 = true → r ≤ 32 →
    let k := s.ring r
    let bad := min (k.badIndex + 1) 0xFFFFFFFF
    ((v - k.cmdHead).toNat ≤ 256 → k.state ≠ .indexError → exec (.doorbell r v) s = .next (s.setRing r { k with cmdTail := v })) ∧
    ((v - k.cmdHead).toNat ≤ 256 → k.state = .indexError → exec (.doorbell r v) s =
      .next (s.setRing r { k with cmdTail := v, state := if r = 0 ∨ s.formed (r - 1) = true then .opened else .unformed })) ∧
    (256 < (v - k.cmdHead).toNat → k.state ≠ .indexError → exec (.doorbell r v) s =
      .next ((s.setRing r { k with state := .indexError, badIndex := bad }).postDevice 0x20 r)) ∧
    (256 < (v - k.cmdHead).toNat → k.state = .indexError → exec (.doorbell r v) s = .next (s.setRing r { k with badIndex := bad })) ∧
    ((v - k.cplHead).toNat ≤ k.unread → exec (.cplHeadWrite r v) s = .next (s.setRing r { k with cplHead := v })) ∧
    (k.unread < (v - k.cplHead).toNat → exec (.cplHeadWrite r v) s = .next (s.setRing r { k with badIndex := bad })) ∧
    (∀ c, c < 4 →
      let n := s.channel c
      exec (.counterClear c 0) s = .next (s.setChannel c { n with unbackedReads := 0 }) ∧
      exec (.counterClear c 1) s = .next (s.setChannel c { n with unbackedWrites := 0 }) ∧
      exec (.counterClear c 2) s = .next (s.setChannel c { n with refreshSeen := 0 }) ∧
      exec (.counterClear c 3) s = .next (s.setChannel c { n with idleHints := 0 }) ∧
      exec (.counterClear c 4) s = .next (s.setChannel c { n with protocolErrors := 0 })) ∧
    (∀ m : BitVec 64, exec (.registerWrite 0xFF010 m) s = .next { s with attnMask := m.setWidth 33, sram := s.sram.filter (fun e => !State.controlWord 0xFF010 e.1) })

/-- R325, R328, R330. COMMAND_TAKE takes the next slot of a ring with room, and RECORD_POST posts waiting records and RECORDS_LOST. Choices:
log entry 94, log entry 103. -/
def Obligations.SlotsAreTakenAndRecordsPosted : Prop :=
  ∀ (s : State) (r : Nat), s.ready = true → r ≤ 32 →
    let k := s.ring r
    let slot := s.bytes .foyer (commandSlot r k.cmdHead.toNat) 128
    let w := ofBytes slot
    let taken := s.setRing r { k with cmdHead := k.cmdHead + 1, taken := k.taken ++ [{ bytes := slot }] }
    let company := if r = 0 then none else some (r - 1)
    (k.state ≠ .indexError → k.cmdHead ≠ k.cmdTail → k.taken.length < 64 → k.unread + k.taken.length < 256 → k.lostSince = 0 →
      ((∃ e ∈ s.sram, e.1 = SramPlace.managerMemory ∧ 2 ≤ e.2) → exec (.commandTake r) s = .next (s.fatalFault 2 0)) ∧
      ((∀ e ∈ s.sram, e.1 ≠ SramPlace.managerMemory) →
        (k.state = .opened → (∀ c, taken.current r = some c → Cmd.opcode c.word ∈ opcodes) → exec (.commandTake r) s = .next taken) ∧
        (k.state = .opened → k.taken = [] → Cmd.opcode w ∉ opcodes → exec (.commandTake r) s =
          .next (taken.postCompletion r false (Cmd.opcode w) company (Cmd.tag w) St.badOpcode 0 0)) ∧
        (k.state = .unformed → k.taken = [] → exec (.commandTake r) s =
          .next (taken.postCompletion r false (Cmd.opcode w) company (Cmd.tag w) St.wrongState noField 0)))) ∧
    (∀ x t, k.slotFree = true → k.lostSince = 0 → k.queue = x :: t →
      exec (.recordPost r) s = .next ((s.setRing r { k with queue := t }).writeRecord r (x.take 16 ++ toBytes 8 s.now ++ x.drop 24))) ∧
    (k.slotFree = true → k.lostSince ≠ 0 →
      let h := if r = 0 then s.deviceHeader 0x21 else s.recordHeader 0 0x21 2 (some (r - 1)) 0 0xFFFFFFFF
      exec (.recordPost r) s = .next ((s.setRing r { k with lostSince := 0 }).writeRecord r (h ++ toBytes 64 (k.lostSince % 2 ^ 32))))

/-- R107, R167, R168, R345, R346, R230, R232. Carriages move their units with conversion, complete or are acknowledged, and packets of a
remote carriage land. Choices: log entry 51, log entry 53. -/
def Obligations.CarriagesMove : Prop :=
  (∀ (s : State) (id : Nat) (c : Carriage), s.carriages.find? (fun d => d.id == id) = some c →
    let status (k : Carriage) : Nat := if k.fails = 0 then St.ok else St.uncorrectable;
    let noted (f : List Nat) (n : Nat) : Carriage := { c with
      moved := c.moved + n, fails := c.fails + f.length
      firstFail := match c.firstFail, f with | none, x :: _ => some (c.from_.2 + x) | o, _ => o };
    let settled (t : State) (k : Carriage) : State := if k.moved < c.units then t.putCarriage k
      else if c.destChip = 0xFFFF then (t.putCarriage k).endCarriage k (status k) else (t.putCarriage k).putCarriage { k with remote := true };
    (c.notBefore ≤ s.now → c.remote = false → c.units = 0 → s.emptyFree c = true →
      exec (.carriageUnitLanding id) s = .next (s.endCarriage c St.ok)) ∧
    (∀ u d f, c.notBefore ≤ s.now → c.remote = false → c.moved < c.units → s.carriageFree c = true → c.destChip = 0xFFFF →
      s.convertUnit c c.moved = (u, d, f) →
      (d = none → exec (.carriageUnitLanding id) s = .next (settled u (noted f 1))) ∧
      (∀ b, d = some b → ∃ t, exec (.carriageUnitLanding id) s = .next (settled t (noted f 1)) ∧ t = u.landUnit c c.moved b ∧
        (c.out = true → t.bytes .foyer (c.dest + 64 * c.moved) (padTo 64 0 b).length = padTo 64 0 b ∧
          ∀ a, (a < c.dest + 64 * c.moved ∨ c.dest + 64 * c.moved + (padTo 64 0 b).length ≤ a) → Memory.read t.mem a = Memory.read u.mem a))) ∧
    (∀ u d f, c.notBefore ≤ s.now → c.remote = false → c.moved < c.units → s.carriageFree c = true → c.destChip ≠ 0xFFFF →
      s.convertUnit c c.moved = (u, d, f) →
      let k : Carriage := { noted f 1 with flit := c.flit ++ [d] };
      let us := padTo 4 none k.flit;
      let whole := k.flit.length = 4 ∨ k.moved = c.units;
      (¬whole → exec (.carriageUnitLanding id) s = .next (u.putCarriage k)) ∧
      (whole → us.all Option.isNone = true → exec (.carriageUnitLanding id) s = .next (settled u { k with flit := [] })) ∧
      (whole → us.all Option.isNone = false → exec (.carriageUnitLanding id) s = .next (settled (u.emit {
        type := 4, company := c.company.getD 0, dest := c.destChip, context := c.id % 4096, seq := c.moved / 4
        step := match c.company with | some o => (u.company o).step.toNat | none => 0
        payload := padTo 256 0 (us.flatMap (fun x => padTo 64 0 (x.getD []))) ++
          if us.all Option.isSome then [] else padTo 256 0 (us.map (fun x => if x.isSome then 0 else 1)) }) { k with flit := [] }))) ∧
    (c.remote = true → exec (.carriageAcknowledgement id) s = .next (s.endCarriage c (status c))) ∧
    (∀ st, c.out = true → s.endCarriage c st = State.complete { s with carriages := s.carriages.filter (fun d => d.id != c.id) } c.ring true
      c.opcode c.company c.tag.toNat st noField (if st = St.uncorrectable then c.firstFail.getD 0 + 2 ^ 32 * c.fails else 0))) ∧
  (∀ (s : State) (l : LinkId) (i place : Nat) (p : Packet), s.arrived l (fun q => Hdr.type q.header.toNat == 4) = some (i, p) →
    let h := p.header.toNat;
    let us := carriageUnits h p.payload;
    (carriageKey h ∈ s.seen → exec (.carriage l place) s = .next ((s.takeArrived l i).countChip 0x46 none 1)) ∧
    (carriageKey h ∉ s.seen → place % 64 = 0 → (∀ u ∈ us, place + 64 * u.1 + 64 ≤ 2 ^ 26) →
      ∃ t : State, exec (.carriage l place) s = .next (t.message (Hdr.company h) (Hdr.src h) [7, Hdr.context h, Hdr.seq h]) ∧
        t = { (s.takeArrived l i).knowCarriage h with mem := t.mem, upsets := t.upsets } ∧ carriageKey h ∈ t.seen ∧
        (256 ≤ p.payload.length →
          (∀ u ∈ us, t.bytes .foyer (place + 64 * u.1) 64 = u.2) ∧
          ∀ a, (∀ u ∈ us, a < place + 64 * u.1 ∨ place + 64 * u.1 + 64 ≤ a) → Memory.read t.mem a = Memory.read s.mem a)))

/-- R251, R253, R260, R264, R265, R296, R402. A filled bucket triggers its context, its buffer is read in order, and contributors send their
samples. -/
def Obligations.BucketsTriggerAndAreRead : Prop :=
  ∀ (s : State) (x : Nat),
    let k := s.context x
    let j := s.contextJob x
    let p := s.planRec x
    let core := CtxRec.core k.record.toNat
    let triggered : State := { s.setContext x { k with
      fill := 0, trigger := some s.now, busySince := some (k.busySince.getD s.now), readOrder := s.nextCarriage
      state := if k.state = .opened then .reducing else k.state } with nextCarriage := s.nextCarriage + 1 }
    let read := s.readUnit (.slice core) (64 * (CtxRec.bufferBase k.record.toNat + k.read)) (fun s => s.countCore core 0x13 1)
    let f := k.read / 4
    let quiet : Prop := ∀ e ∈ s.sram, State.exchangeWord e.1 = false
    (s.triggerDue x = true → quiet → ((s.company (s.jobCompany j)).step.toNat ≠ k.step →
        exec (.bucketTrigger x) s = .next (s.abortJob j k.step 6)) ∧
      ((s.company (s.jobCompany j)).step.toNat = k.step →
        (PlanRec.contributes p = false ∨ PlanRec.isRoot p = true → exec (.bucketTrigger x) s = .next triggered) ∧
        (PlanRec.contributes p = true → PlanRec.isRoot p = false →
          (∀ u, triggered.rawSamples x = (u, none) → exec (.bucketTrigger x) s = .next (u.abortJob j k.step 5)) ∧
          (∀ u ms, triggered.rawSamples x = (u, some ms) → exec (.bucketTrigger x) s = .next (u.sendSamples x 0 ms))))) ∧
    (s.canRead x = true → s.contextFree x k.readOrder = true → quiet →
      (∀ u, read = (u, none) → exec (.bucketBufferRead x) s = .next (u.abortJob j k.step 5)) ∧
      (∀ u b, read = (u, some b) →
        let d := ((k.own.find? (fun o => o.1 == f)).map (·.2)).getD [] ++ b
        let rest := k.own.filter (fun o => o.1 != f)
        (PlanRec.role p = 1 ∧ d.length = 256 → exec (.bucketBufferRead x) s = .next ((u.setContext x { k with
          read := k.read + 1, own := rest, sending := k.sending ++ [d], f0 := f + 1 }).sendUp x)) ∧
        (¬(PlanRec.role p = 1 ∧ d.length = 256) → exec (.bucketBufferRead x) s = .next (u.setContext x { k with
          read := k.read + 1, own := rest ++ [(f, d)] })))) ∧
    (∀ o n, s.sramErrors State.exchangeWord = (some (.exchangeSram o), n) →
      (s.triggerDue x = true → exec (.bucketTrigger x) s = .next (s.fatalFault 1 o)) ∧
      (s.canRead x = true → s.contextFree x k.readOrder = true → exec (.bucketBufferRead x) s = .next (s.fatalFault 1 o))) ∧
    (∀ flit ms, ms ≠ [] → s.isSecondary j = false → s.sendSamples x flit ms =
      let d := ms.flatMap sampleBytes
      s.emit { type := 2, routeSet := 1, company := s.jobCompany j, dest := DirEntry.owner (s.bucketEntry x), job := j, context := x
               seq := 0x800000 + flit, plan := k.plan, step := k.step, payload := padTo (256 * ceilDiv d.length 256) 0 d })

/-- R260 to R262, R264, R265, R267, R268, R274, R394, R426. A hop sums the exact values of its inputs once: an adder rounds to posit16 by
round-to-odd and sends up, the owner stages posit32 in its work area. Choices: log entry 61, log entry 89. -/
def Obligations.FlitsAreSummed : Prop :=
  ∀ (s : State) (x : Nat) (ins : List (List Exact)), s.hopDue x = true → s.hopInputs x = some ins →
    let k := s.context x
    let p := s.planRec x
    let f := k.f0
    let qs := State.hopSums ins
    let e := s.sampleAt x (f / 32)
    let hit : Bool := e / 128 == f
    let quiet : Prop := ∀ e ∈ s.sram, State.exchangeWord e.1 = false
    let rest : Context := { k with own := k.own.filter (fun o => o.1 != f), window := k.window.filter (fun w => w.2.1 != f), f0 := f + 1 }
    (∀ o n, s.sramErrors State.exchangeWord = (some (.exchangeSram o), n) → exec (.hop x) s = .next (s.fatalFault 1 o)) ∧
    (quiet → PlanRec.role p = 2 →
      let outs := qs.map (roundPosit 16 .odd)
      let u := s.countChip 0x48 none (qs.map (fun q => (positCount 16 false q).clipped)).sum
      let ms := if hit then k.samples ++ [{ element := e, hop := true, rank := PlanRec.rank p, value := BitVec.ofNat 16 (outs.getD (e % 128) 0) }] else k.samples
      let base := if PlanRec.contributes p then ceilDiv (DirEntry.elements (s.bucketEntry x)) 131072 else 0
      let v (ms : List Sample) := u.setContext x { rest with samples := ms, sending := k.sending ++ [outs.flatMap (toBytes 2)] }
      let full := 32 ≤ ms.length ∨ f + 1 = DirEntry.flits (s.bucketEntry x)
      (¬full → exec (.hop x) s = .next ((v ms).sendUp x)) ∧
      (full → exec (.hop x) s = .next (((v []).sendSamples x (base + f / 32 / 32) ms).sendUp x))) ∧
    (quiet → PlanRec.role p ≠ 2 →
      let last : Bool := f + 1 == DirEntry.flits (s.bucketEntry x)
      let nars := (List.range 128).filter (fun i => (qs.getD i Exact.zero).isNar)
      let bank := s.putBank (CtxRec.work k.record.toNat + 8 * f) ((qs.map (roundPosit 32 .rne)).flatMap (toBytes 4))
      ∃ t, exec (.hop x) s = .next t ∧
        t = { (if hit then bank.noteSample x e else bank) with contexts := t.contexts, fresh := t.fresh } ∧
        (∀ d, d ≠ x → t.context d = s.context d) ∧
        ∃ ticks, t.context x = { rest with
          sums := if hit then k.sums ++ [(e, qs.getD (e % 128) Exact.zero)] else k.sums
          samples := (t.context x).samples
          firstNar := k.firstNar.or (nars.head?.map (128 * f + ·))
          narCount := k.narCount + nars.length
          state := if last then .updating else k.state
          reduceTicks := ticks } ∧
        (last = false → ticks = k.reduceTicks) ∧ (∀ a, last = true → k.trigger = some a → ticks = s.now - a))

/-- R167, R228, R232, R248, R251, R259, R262, R265, R271, R273, R296, R345. REDUCE_UP, SHADOW_SAMPLE and BROADCAST_DOWN packets: malformed,
late and repeated ones are discarded and counted, the others reach their context. Choices: log entry 63. -/
def Obligations.ReductionPacketsArrive : Prop :=
  ∀ (s : State) (l : LinkId) (i : Nat) (p : Packet),
    let h := p.header.toNat
    let x := Hdr.context h
    let k := s.context x
    let j := Hdr.job h
    let first (type : Nat) (able : Packet → Bool) : Prop := s.arrived l (s.meets type able) = some (i, p)
    let up (q : Packet) : Bool := (s.childOf (Hdr.context q.header.toNat) (Hdr.src q.header.toNat)).isSome &&
      (Hdr.flits q.header.toNat == 0 || decide (s.windowRoom q > 0))
    let shadow (q : Packet) : Bool := PlanRec.isRoot (s.planRec (Hdr.context q.header.toNat))
    let down (q : Packet) : Bool := !PlanRec.isRoot (s.planRec (Hdr.context q.header.toNat)) || s.isSecondary (s.contextJob (Hdr.context q.header.toNat))
    let all (a : Answer) : Prop := (first 1 up → exec (.reduceUp l) s = a) ∧ (first 2 shadow → exec (.shadowSample l) s = a) ∧
      (first 3 down → exec (.broadcastDown l) s = a)
    let quiet : Prop := ∀ e ∈ s.sram, State.exchangeWord e.1 = false
    let mine : Prop := quiet ∧ s.power ≠ .dim ∧ CtxRec.valid k.record.toNat = true ∧ s.contextJob x = j
    let known : State := { s with seen := if p.used = 0 then s.seen ++ [Hdr.key h] else s.seen }
    (∀ o n, s.sramErrors State.exchangeWord = (some (.exchangeSram o), n) → all (.next (s.fatalFault 1 o))) ∧
    (quiet → s.power ≠ .dim → CtxRec.valid k.record.toNat = true → s.contextJob x ≠ j → all (.next ((s.cutArrived l i).malformed l p))) ∧
    (mine → Hdr.step h < k.step → all (.next ((s.takeArrived l i).countChip 0x46 none 1))) ∧
    (mine → Hdr.step h = k.step → (s.job j).aborted ≠ none → all (.next ((s.takeArrived l i).countChip 0x4A none 1))) ∧
    (mine → Hdr.step h = k.step → s.jobRuns j = true → s.contextLive x = true → p.used = 0 → Hdr.key h ∈ s.seen →
      all (.next ((s.takeArrived l i).countChip 0x46 none 1))) ∧
    (mine → Hdr.step h = k.step → s.jobRuns j = true → s.contextLive x = true → (p.used = 0 → Hdr.key h ∉ s.seen) →
      (∀ c, first 1 up → s.childOf x (Hdr.src h) = some c →
        let n := s.windowRoom p
        let t := State.updLink (State.owe (known.setContext x { k with
            window := k.window ++ ((List.range n).zip (State.flitsLeft p)).map (fun q => (c, Hdr.seq h + p.used + q.1, q.2))
            state := if n ≠ 0 ∧ k.state = .opened then .reducing else k.state
            busySince := if n = 0 then k.busySince else some (k.busySince.getD s.now) }) l (Hdr.vc h) (Hdr.cls h) (Hdr.company h) n) l
          (fun z => { z with input := z.input.modify i (fun q => { q with used := p.used + n }) })
        exec (.reduceUp l) s = .next (if Hdr.flits h ≤ p.used + n then t.takeArrived l i else t)) ∧
      (first 2 shadow → exec (.shadowSample l) s = .next ((samplesOf p.payload).foldl (fun s m => s.noteSample x m.element)
        ((known.takeArrived l i).updContext x (fun z => { z with samples := z.samples ++ samplesOf p.payload })))) ∧
      (first 3 down →
        let start : Bool := !(State.flitsLeft p).isEmpty && (k.state == .opened || k.state == .reducing)
        let t := (known.takeArrived l i).setContext x { k with
          image := k.image ++ ((List.range (State.flitsLeft p).length).zip (State.flitsLeft p)).map (fun q => (Hdr.seq h - 0x400000 + q.1, q.2))
          nextPlan := Hdr.plan h, announced := some (Hdr.plan h)
          state := if start then .landing else k.state, landOrder := if start then s.nextCarriage else k.landOrder
          busySince := if start then some (k.busySince.getD s.now) else k.busySince }
        let u := if start then { t with nextCarriage := s.nextCarriage + 1 } else t
        exec (.broadcastDown l) s = .next (if u.isSecondary j then u
          else (u.forwardDown x (Hdr.seq h) (Hdr.plan h) p.payload).forwardPair x (Hdr.seq h) (Hdr.plan h) p.payload)))

/-- R207, R244, R245, R256, R259, R287, R296. LANDED reports climb the scene tree, the root names a count, and each chip changes scene at
it; a late scene taints. Choices: log entry 53, log entry 64. -/
def Obligations.ScenesChange : Prop :=
  ∀ (s : State) (j : Nat), s.jobRuns j = true →
    let k := s.job j
    let quiet : Prop := ∀ e ∈ s.sram, State.exchangeWord e.1 = false
    (∀ child step epoch t, k.scene = some t → child ∈ t.children → k.step ≤ step → (∀ r ∈ t.reports, r.1 = child → r.2.1 ≠ step) →
      exec (.landed child j step epoch) s = .next ((s.setJob j { k with
        scene := some { t with reports := t.reports ++ [(child, step, epoch)] } }).sceneProgress j)) ∧
    (∀ t, k.scene = some t → s.isSecondary j = false → t.sent ≠ some k.step → s.landedAll j = true →
      (∀ c ∈ t.children, ∃ r ∈ t.reports, r.1 = c ∧ r.2.1 = k.step) → (∀ r ∈ t.reports, r.2.1 = k.step → r.2.2 = s.nextEpoch j) →
      let u := s.setJob j { k with scene := some { t with sent := some k.step } }
      (t.root ≠ s.chipId → s.sceneProgress j = u.message (s.jobCompany j) t.parent [1, j, k.step, s.nextEpoch j]) ∧
      (t.root = s.chipId → s.sceneProgress j = (u.sendScene j k.step (s.now + t.margin) (s.nextEpoch j)).updJob j (fun z => { z with
        due := some (k.step, s.now + t.margin, s.nextEpoch j) }))) ∧
    (∀ count epoch, k.due = none →
      let bare : Prop := k.scene.map (·.margin) = some 0
      let u := s.sendScene j k.step count epoch
      let late (u : State) : State := if bare then u else (u.countChip 0x4C none 1).setTaint (s.jobCompany j)
      let w (u : State) : State := u.updJob j (fun z => { z with due := some (k.step, count, epoch) })
      let turned (u : State) : State := if u.exponentsHere j then u.applyScene j k.step epoch else u
      (s.now < count → ¬bare → exec (.scene j k.step count epoch false) s = .next (w u)) ∧
      (s.now < count → bare → quiet → exec (.scene j k.step count epoch false) s = .next (turned (w u))) ∧
      (count ≤ s.now → quiet → exec (.scene j k.step count epoch true) s = .next (turned (w (late u))))) ∧
    (∀ step count epoch, k.due = some (step, count, epoch) → (count ≤ s.now ∨ k.scene.map (·.margin) = some 0) → quiet →
      exec (.sceneChange j) s = .next (if s.exponentsHere j then s.applyScene j step epoch else s)) ∧
    (∀ x, (s.context x).state = .landed → s.passScene j x = s.setContext x (State.openContext (s.context x) ((s.context x).step + 1)
      (if JobRec.reproducible k.record.toNat then s.fixedPlan x else (s.context x).announced.getD (s.fixedPlan x))))

/-- R244, R273. A job aborts by a neighbour's JOB_ABORT or a context's timeout: its contexts are cancelled, its packets dropped, its
neighbours told, JOB_ABORTED posted. -/
def Obligations.JobsAbort : Prop :=
  ∀ (s : State) (j : Nat), s.jobRuns j = true →
    (exec (.jobAbort j (s.job j).step) s = .next (s.abortJob j (s.job j).step 2)) ∧
    (∀ step, (s.job j).step < step → exec (.jobAbort j step) s = .next (s.updJob j (fun k => { k with abortAt := some step }))) ∧
    (∀ x t, s.contextJob x = j → (s.context x).busySince = some t → s.contextLive x = true →
      JobRec.timeout (s.job j).record.toNat ≠ 0 → JobRec.timeout (s.job j).record.toNat * 65536 < s.now - t →
      exec (.contextTimeout x) s = .next (s.abortJob j (s.context x).step 3)) ∧
    (∀ step cause except, ∃ u : State, s.abortJob j step cause except = u.postDeviceFor (s.jobCompany j) 7 (s.abortBody j step cause) ∧
      u.job j = { s.job j with aborted := some cause } ∧ u.jobRuns j = false ∧
      (∀ x ∈ s.jobContexts j, (u.context x).state = .cancelled ∧ (u.context x).window = [] ∧ (u.context x).own = []) ∧
      (∀ x, x ∉ s.jobContexts j → u.context x = s.context x) ∧
      (let told := match (s.job j).scene with
        | none => []
        | some t => ((if t.root = s.chipId then [] else [t.parent]) ++ t.children).filter (fun c => except != some c)
      u.messages = s.messages ++ told.map (fun c => (c, [3, j, step])) ∧
      ∃ ps, u.outbox = s.outbox.filter (fun p => !State.isJobPacket j p) ++ ps ∧ ps.length = told.length) ∧
      (∀ l, l < 17 → (u.link l).input = (s.link l).input.filter (fun p => !State.isJobPacket j p)))

/-- R265, R266, R335, R155, R157, R207, R251, R272, R274, R401, R402. A sampled element is checked against its contributors' values and
bounds, broadcast units land in the slice, and stores are scrubbed. Choices: log entry 89, log entry 66. -/
def Obligations.SamplesAreChecked : Prop :=
  (∀ (s : State) (x e : Nat) (q : Exact),
    let k := s.context x;
    let p := s.planRec x;
    let ms := k.samples.filter (fun m => m.element == e);
    let raw := ms.filter (fun m => !m.hop && m.rank != ownRank);
    let hops := ms.filter (·.hop);
    let sum := ((ms.filter (fun m => !m.hop)).map (fun m => posit 16 m.value.toNat)).foldl Exact.add Exact.zero;
    let bound := hops.foldl (fun b m => b.add (gap16 m.value.toNat)) Exact.zero;
    let whole : Prop := raw.length = PlanRec.contributors p - b2n (PlanRec.contributes p) ∧
      hops.length = (if PlanRec.role p = 3 then PlanRec.adders p else 0) ∧
      (raw.map (·.rank)).sum + (if PlanRec.contributes p then PlanRec.rank p else 0) = PlanRec.contributors p * (PlanRec.contributors p - 1) / 2;
    let edge : Prop := q.isNar = true ∨ sum.isNar = true ∨ ∃ m ∈ hops, m.value = 0x8000 ∨ m.value = 0x7FFF ∨ m.value = 0x8001;
    let diff := q.add sum.neg;
    let checked (v : Nat) := (s.setContext x { k with checked := k.checked ++ [(e, v)] }).noteSample x e;
    let quiet : Prop := ∀ e ∈ s.sram, State.exchangeWord e.1 = false;
    k.sums.find? (fun a => a.1 == e) = some (e, q) → s.contextLive x = true → s.jobRuns (s.contextJob x) = true → PlanRec.isRoot p = true →
    (∀ c ∈ k.checked, c.1 ≠ e) → s.samplesArrived x e = true → quiet →
      (¬whole → exec (.shadowCheck x e) s = .next (checked 3)) ∧
      (whole → edge → exec (.shadowCheck x e) s = .next (checked 2)) ∧
      (whole → ¬edge → (diff.isZero = true ∨ Exact.lt diff.abs bound = true) → exec (.shadowCheck x e) s = .next (checked 0)) ∧
      (whole → ¬edge → diff.isZero = false → Exact.lt diff.abs bound = false → exec (.shadowCheck x e) s =
        .next ((checked 1).postCompany (s.jobCompany (s.contextJob x)) 8 ((checked 1).divergenceBody x e diff)))) ∧
  (∀ (s : State) (x : Nat),
    let k := s.context x;
    let i := s.imageShape x;
    let core := CtxRec.core k.record.toNat;
    let n := min 64 (i.valueBytes - 64 * k.landed);
    let unit := 64 * (CtxRec.landingBase k.record.toNat + k.landed);
    (∀ f, s.canLand x = true → s.contextFree x k.landOrder = true → (∀ e ∈ s.sram, State.exchangeWord e.1 = false) → s.imageFlit x (k.landed / 4) = some f →
      let d := padTo 64 0 (((f.drop (64 * (k.landed % 4))).take n).take 64);
      let t := State.setContext { s with mem := Memory.writeBytes s.mem ((Space.slice core).base + unit) d
                                         upsets := SMap.set 0 s.upsets ((Space.slice core).base + unit) 0 } x { k with landed := k.landed + 1 };
      (k.landed + 1 < i.valueUnits → exec (.broadcastLanding x) s = .next t) ∧
      (k.landed + 1 = i.valueUnits → exec (.broadcastLanding x) s = .next (t.finishLanding x))) ∧
    (s.awake = true → exec (.patrolScrub none) s = .next (s.scrubBank) ∧
      ∃ u, s.scrubBank = { u with scrubNext := (s.scrubNext + 1) % 2 ^ 27 } ∧
        u = (s.scrubUnit .exchange (64 * s.scrubNext) (fun s => s.countChip 0x13 none 1)).scrubFoyer (s.scrubNext % 2 ^ 20)) ∧
    (∀ c, s.awake = true → s.coreExists c = true → s.sliceIdle c = true →
      let first := (s.core c).scrubNext;
      exec (.patrolScrub (some c)) s = .next (((List.range 16).foldl (fun u j => u.scrubUnit (.slice c)
          (64 * ((first + j) % 786432)) (fun u => u.countCore c 0x13 1)) s).updCore c (fun z => { z with
        scrubNext := (first + 16) % 786432 }))) ∧
    (∀ sp off count, (s.upset sp off = 0 → s.scrubUnit sp off count = s) ∧
      (s.upset sp off = 1 → s.scrubUnit sp off count = (count s).writeUnit sp off (s.bytes sp off 64)) ∧
      (s.upset sp off = 2 → s.scrubUnit sp off count = s.countChip 0x40 none 1)))

/-- R259, R266 to R274, R402. An update runs its optimiser over master weights and moments of a bucket, or is withheld, and failures abort
the job. Choices: log entry 65. -/
def Obligations.UpdatesRun : Prop :=
  ∀ (s : State) (x : Nat), s.updateDue x = true →
    let j := s.contextJob x
    let rec_ := (s.job j).record.toNat
    let k := s.context x
    let r := k.record.toNat
    let held : Prop := (JobRec.haltStep rec_ = true ∧ k.narCount ≠ 0) ∨ (JobRec.withhold rec_ = true ∧ ∃ c ∈ k.checked, c.2 = 1)
    let quiet : Prop := ∀ e ∈ s.sram, State.exchangeWord e.1 = false
    let failed (t : State) := (t.updContext x (fun z => { z with cancelledUpdate := false })).abortJob (t.contextJob x) (t.context x).step 5
    (∀ o n, s.sramErrors State.exchangeWord = (some (.exchangeSram o), n) → exec (.update x) s = .next (s.fatalFault 1 o)) ∧
    (quiet → held → ∀ t image, s.withholdUpdate x = (t, image) → exec (.update x) s = .next (match image with
      | some d => t.endUpdate x true d
      | none => failed t)) ∧
    (quiet → ¬held → ∀ p t image, SMap.get none s.engine (CtxRec.optimizer r) = some p → s.runUpdate x p = (t, image) →
      exec (.update x) s = .next (match image with
        | some d => t.endUpdate x false d
        | none => failed t)) ∧
    (¬held → ∀ p t g m a b hist u1 u2 u3 u4 u5, 
      let n := DirEntry.elements (s.bucketEntry x)
      let bytes := if (s.imageShape x).finder then historyBytes r (s.imageShape x) else 0
      let out := runEngine rec_ p (bankWords g) (bankWords m) (bankWords a) (bankWords b)
      s.readBank (CtxRec.work r) (4 * n) = (u1, some g) → u1.readBank (CtxRec.master r) (4 * n) = (u2, some m) →
      u2.readBank (CtxRec.moment0 r) (4 * n) = (u3, some a) → u3.readBank (CtxRec.moment1 r) (4 * n) = (u4, some b) →
      u4.readBank (CtxRec.history r) bytes = (u5, some hist) →
      ∀ image, s.runUpdate x p = (t, some image) →
      (t, image) = (((u5.putBank (CtxRec.master r) (out.flatMap (fun e => toBytes 4 e.1))).putBank (CtxRec.moment0 r) (out.flatMap (fun e => toBytes 4 e.2.1))).putBank
        (CtxRec.moment1 r) (out.flatMap (fun e => toBytes 4 e.2.2))).storeImage x hist (out.map (·.1)) true)
end

