-- ==== Sys2Proof/Laws/Checks.lean ====
section
/-! SUPPORT. What a list of checks says once it has found nothing (R330). -/
namespace Sys2Proof.Machine

/-- A list of checks finds nothing only where each check finds nothing. -/
theorem firstFail_none (l : List Check) : firstFail l = none ↔ ∀ c ∈ l, c = none := by
  unfold firstFail
  simp [List.findSome?_eq_none_iff]

theorem need_none (b : Bool) (st off : Nat) : need b st off = none ↔ b = true := by
  unfold need
  split <;> simp_all

/-- A list of checks finds what its first failing check finds. -/
theorem firstFail_append (l₁ l₂ : List Check) (c : Nat × Nat) (h : ∀ x ∈ l₁, x = none) : firstFail (l₁ ++ some c :: l₂) = some c := by
  unfold firstFail
  induction l₁ with
  | nil => rfl
  | cons a t ih =>
    have ha : a = none := h a (by simp)
    subst ha
    exact ih fun x hx => h x (by simp [hx])

/-- What the last check of a command says, once all passed. -/
theorem State.checkCommand_pre {s : State} {r w : Nat} {t : Sheet} (h : s.checkCommand r w t = none) : t.pre s r w = none :=
  (firstFail_none _).mp h _ (by simp)

end Sys2Proof.Machine
end

