-- ==== Sys2Proof/Laws/SMap.lean ====
section
/-! SUPPORT. Laws of sparse maps: what a read finds after a write, and that every operation keeps the canonical form. -/
namespace Sys2Proof.SMap

variable {α : Type}

/-! ### Reads -/

@[simp] theorem get_nil (d : α) (i : Nat) : get d [] i = d := rfl

theorem get_cons (d : α) (k : Nat) (v : α) (t : SMap α) (i : Nat) : get d ((k, v) :: t) i = if k = i then v else get d t i := rfl

/-- A map of which no entry has the key reads the default. -/
theorem get_of_absent (d : α) (m : SMap α) (i : Nat) (h : ∀ p ∈ m, p.1 ≠ i) : get d m i = d := by
  induction m with
  | nil => rfl
  | cons p t ih =>
    obtain ⟨k, v⟩ := p
    have hk : k ≠ i := h (k, v) (by simp)
    rw [get_cons, if_neg hk]
    exact ih (fun q hq => h q (by simp [hq]))

@[simp] theorem get_erase_same (d : α) (m : SMap α) (i : Nat) : get d (erase m i) i = d := by
  apply get_of_absent
  intro p hp
  simpa [erase] using (List.mem_filter.mp hp).2

theorem get_erase_other (d : α) (m : SMap α) {i j : Nat} (h : i ≠ j) : get d (erase m i) j = get d m j := by
  induction m with
  | nil => rfl
  | cons p t ih =>
    obtain ⟨k, v⟩ := p
    by_cases hk : k = i
    · have : erase ((k, v) :: t) i = erase t i := by simp [erase, hk]
      rw [this, ih, get_cons, if_neg (by omega)]
    · have : erase ((k, v) :: t) i = (k, v) :: erase t i := by simp [erase, hk]
      rw [this, get_cons, get_cons, ih]

theorem get_insert_same (d : α) (m : SMap α) (i : Nat) (v : α) (h : ∀ p ∈ m, p.1 ≠ i) : get d (insert i v m) i = v := by
  induction m with
  | nil => simp [insert, get_cons]
  | cons p t ih =>
    obtain ⟨k, w⟩ := p
    have hk : k ≠ i := h (k, w) (by simp)
    simp only [insert]
    split
    · simp [get_cons]
    · rw [get_cons, if_neg hk]
      exact ih (fun q hq => h q (by simp [hq]))

theorem get_insert_other (d : α) (m : SMap α) {i j : Nat} (v : α) (h : i ≠ j) : get d (insert i v m) j = get d m j := by
  induction m with
  | nil => simp [insert, get_cons, h]
  | cons p t ih =>
    obtain ⟨k, w⟩ := p
    simp only [insert]
    split
    · simp [get_cons, h]
    · rw [get_cons, get_cons, ih]

theorem absent_erase (m : SMap α) (i : Nat) : ∀ p ∈ erase m i, p.1 ≠ i := by
  intro p hp
  simpa [erase] using (List.mem_filter.mp hp).2

variable [DecidableEq α]

/-- A read of the key just written finds the value. -/
@[simp] theorem get_set_same (d : α) (m : SMap α) (i : Nat) (v : α) : get d (set d m i v) i = v := by
  unfold set
  split
  · rename_i h
    rw [get_erase_same, h]
  · exact get_insert_same d _ i v (absent_erase m i)

/-- A read of another key finds what it found before. -/
theorem get_set_other (d : α) (m : SMap α) {i j : Nat} (v : α) (h : i ≠ j) : get d (set d m i v) j = get d m j := by
  unfold set
  split
  · exact get_erase_other d m h
  · rw [get_insert_other d _ v h, get_erase_other d m h]

/-- Both cases of a read after a write. -/
theorem get_set (d : α) (m : SMap α) (i j : Nat) (v : α) : get d (set d m i v) j = if i = j then v else get d m j := by
  by_cases h : i = j
  · subst h; simp
  · rw [get_set_other d m v h, if_neg h]

/-- A read of a key that none of several writes names. -/
theorem get_setMany_other (d : α) (ws : List (Nat × α)) (m : SMap α) (j : Nat) (h : ∀ w ∈ ws, w.1 ≠ j) :
    get d (setMany d m ws) j = get d m j := by
  induction ws generalizing m with
  | nil => rfl
  | cons w t ih =>
    obtain ⟨i, v⟩ := w
    rw [setMany, ih _ (fun q hq => h q (by simp [hq])), get_set_other d m v (h (i, v) (by simp))]

/-! ### The canonical form -/

/-- The canonical form in terms of lists: rising keys, and no default value. -/
theorem canon_iff (d : α) (m : SMap α) :
    canon d m = true ↔ List.Pairwise (fun p q : Nat × α => p.1 < q.1) m ∧ ∀ p ∈ m, p.2 ≠ d := by
  induction m with
  | nil => simp [canon]
  | cons p t ih =>
    obtain ⟨k, v⟩ := p
    cases t with
    | nil => simp [canon]
    | cons q u =>
      obtain ⟨k', v'⟩ := q
      simp only [canon, Bool.and_eq_true, decide_eq_true_eq, bne_iff_ne, ih, List.pairwise_cons, List.mem_cons]
      constructor
      · rintro ⟨⟨hk, hv⟩, ⟨hp, hq⟩, hd⟩
        refine ⟨⟨?_, hp, hq⟩, ?_⟩
        · rintro a (rfl | ha)
          · exact hk
          · exact Nat.lt_trans hk (hp a ha)
        · rintro a (rfl | ha)
          · exact hv
          · exact hd a ha
      · rintro ⟨⟨hk, hp, hq⟩, hd⟩
        exact ⟨⟨hk _ (Or.inl rfl), hd _ (Or.inl rfl)⟩, ⟨hp, hq⟩, fun a ha => hd a (Or.inr ha)⟩

theorem canon_nil (d : α) : canon d ([] : SMap α) = true := rfl

/-- Entries taken out leave the canonical form. -/
theorem canon_filter (d : α) (m : SMap α) (f : Nat × α → Bool) (h : canon d m = true) : canon d (m.filter f) = true := by
  rw [canon_iff] at h ⊢
  exact ⟨h.1.filter f, fun p hp => h.2 p (List.mem_filter.mp hp).1⟩

theorem canon_erase (d : α) (m : SMap α) (i : Nat) (h : canon d m = true) : canon d (erase m i) = true :=
  canon_filter d m _ h

theorem mem_insert (m : SMap α) (i : Nat) (v : α) (p : Nat × α) : p ∈ insert i v m ↔ p = (i, v) ∨ p ∈ m := by
  induction m with
  | nil => simp [insert]
  | cons q t ih =>
    obtain ⟨k, w⟩ := q
    simp only [insert]
    split
    · simp
    · simp only [List.mem_cons, ih]
      exact or_left_comm

theorem canon_insert (d : α) (m : SMap α) (i : Nat) (v : α) (hv : v ≠ d) (ha : ∀ p ∈ m, p.1 ≠ i) (h : canon d m = true) :
    canon d (insert i v m) = true := by
  rw [canon_iff] at h ⊢
  refine ⟨?_, ?_⟩
  · induction m with
    | nil => simp [insert]
    | cons q t ih =>
      obtain ⟨k, w⟩ := q
      have hk : k ≠ i := ha (k, w) (by simp)
      obtain ⟨hp, hd⟩ := h
      rw [List.pairwise_cons] at hp
      simp only [insert]
      split
      · rename_i hlt
        rw [List.pairwise_cons]
        refine ⟨?_, List.pairwise_cons.mpr hp⟩
        intro a hmem
        rcases List.mem_cons.mp hmem with rfl | hmem
        · exact hlt
        · exact Nat.lt_trans hlt (hp.1 a hmem)
      · rw [List.pairwise_cons]
        refine ⟨?_, ih (fun p hm => ha p (by simp [hm])) ⟨hp.2, fun p hm => hd p (by simp [hm])⟩⟩
        intro a hmem
        rcases (mem_insert t i v a).mp hmem with rfl | hmem
        · show k < i
          omega
        · exact hp.1 a hmem
  · intro p hp
    rcases (mem_insert m i v p).mp hp with rfl | hm
    · exact hv
    · exact h.2 p hm

/-- A write keeps the canonical form. -/
theorem canon_set (d : α) (m : SMap α) (i : Nat) (v : α) (h : canon d m = true) : canon d (set d m i v) = true := by
  unfold set
  split
  · exact canon_erase d m i h
  · rename_i hv
    exact canon_insert d _ i v hv (absent_erase m i) (canon_erase d m i h)

theorem canon_setMany (d : α) (ws : List (Nat × α)) (m : SMap α) (h : canon d m = true) : canon d (setMany d m ws) = true := by
  induction ws generalizing m with
  | nil => exact h
  | cons w t ih => exact ih _ (canon_set d m w.1 w.2 h)

theorem erase_erase (m : SMap α) (i : Nat) : erase (erase m i) i = erase m i := by simp [erase]
theorem erase_insert (m : SMap α) (i : Nat) (v : α) (h : ∀ p ∈ m, p.1 ≠ i) : erase (insert i v m) i = m := by
  induction m with
  | nil => simp [insert, erase]
  | cons p t ih =>
    obtain ⟨k, w⟩ := p
    have hk : k ≠ i := h (k, w) (by simp)
    have ht := ih fun q hq => h q (by simp [hq])
    have he : erase t i = t := List.filter_eq_self.mpr fun q hq => by simpa using h q (by simp [hq])
    simp only [insert]
    split
    · simp only [erase] at he; simp [erase, hk, he]
    · rw [show erase ((k, w) :: insert i v t) i = (k, w) :: erase (insert i v t) i by simp [erase, hk], ht]
/-- Only the last of two writes of one key counts. -/
@[simp] theorem set_set [DecidableEq α] (d : α) (m : SMap α) (i : Nat) (v w : α) : set d (set d m i v) i w = set d m i w := by
  have h : erase (set d m i v) i = erase m i := by
    unfold set
    split
    · exact erase_erase m i
    · exact erase_insert _ _ _ (absent_erase m i)
  unfold set at *
  simp only [h]

end Sys2Proof.SMap
end

