-- ==== Sys2Proof/Laws/Memory.lean ====
section
/-! SUPPORT. Laws of memory: reads after writes, the frame of a write, and that every operation over memory keeps the canonical form. -/
namespace Sys2Proof.Machine

namespace Memory

@[simp] theorem read_write_same (m : Memory) (a : Nat) (v : Byte) : read (write m a v) a = v := SMap.get_set_same 0 m a v

theorem read_write_other (m : Memory) {a b : Nat} (v : Byte) (h : a ≠ b) : read (write m a v) b = read m b := SMap.get_set_other 0 m v h

theorem read_write (m : Memory) (a b : Nat) (v : Byte) : read (write m a v) b = if a = b then v else read m b := SMap.get_set 0 m a b v

/-- A byte outside the bytes written reads as before. -/
theorem read_writeBytes_outside (d : List Byte) (m : Memory) (a b : Nat) (h : b < a ∨ a + d.length ≤ b) :
    read (writeBytes m a d) b = read m b := by
  induction d generalizing m a with
  | nil => rfl
  | cons v t ih =>
    simp only [List.length_cons] at h
    rw [writeBytes, ih _ _ (by omega), read_write_other _ _ (by omega)]

/-- A byte among the bytes written reads as written. -/
theorem read_writeBytes_inside (d : List Byte) (m : Memory) (a i : Nat) (h : i < d.length) :
    read (writeBytes m a d) (a + i) = d[i] := by
  induction d generalizing m a i with
  | nil => exact absurd h (by simp)
  | cons v t ih =>
    cases i with
    | zero => rw [writeBytes, read_writeBytes_outside _ _ _ _ (by omega)]; simp
    | succ j =>
      have hj : j < t.length := by simpa using h
      have := ih (write m a v) (a + 1) j hj
      rw [writeBytes]
      rw [show a + (j + 1) = a + 1 + j by omega, this]
      simp

@[simp] theorem length_readBytes (m : Memory) (a n : Nat) : (readBytes m a n).length = n := by
  induction n generalizing a with
  | zero => rfl
  | succ k ih => simp [readBytes, ih]

theorem getElem_readBytes (m : Memory) (a n i : Nat) (h : i < (readBytes m a n).length) : (readBytes m a n)[i] = read m (a + i) := by
  induction n generalizing a i with
  | zero => exact absurd h (by simp [readBytes])
  | succ k ih =>
    cases i with
    | zero => simp [readBytes]
    | succ j =>
      have := ih (a + 1) j (by simpa [readBytes] using h)
      simp only [readBytes, List.getElem_cons_succ, this]
      congr 1
      omega

/-- Bytes read where they were written are the bytes written. -/
theorem readBytes_writeBytes_same (m : Memory) (a : Nat) (d : List Byte) : readBytes (writeBytes m a d) a d.length = d := by
  apply List.ext_getElem (by simp)
  intro i h₁ h₂
  rw [getElem_readBytes, read_writeBytes_inside]

/-- Bytes read outside the bytes written are as before. -/
theorem readBytes_writeBytes_outside (m : Memory) (a b n : Nat) (d : List Byte) (h : b + n ≤ a ∨ a + d.length ≤ b) :
    readBytes (writeBytes m a d) b n = readBytes m b n := by
  apply List.ext_getElem (by simp)
  intro i h₁ h₂
  rw [length_readBytes] at h₁
  rw [getElem_readBytes, getElem_readBytes, read_writeBytes_outside _ _ _ _ (by omega)]

/-! ### The canonical form -/

theorem wf_write (m : Memory) (a : Nat) (v : Byte) (h : wf m = true) : wf (write m a v) = true := SMap.canon_set 0 m a v h

theorem wf_writeBytes (d : List Byte) (m : Memory) (a : Nat) (h : wf m = true) : wf (writeBytes m a d) = true := by
  induction d generalizing m a with
  | nil => exact h
  | cons v t ih => exact ih _ _ (wf_write m a v h)

theorem wf_filter (m : Memory) (f : Nat × Byte → Bool) (h : wf m = true) : wf (m.filter f) = true := SMap.canon_filter 0 m f h

end Memory

namespace State

/-! ### Spaces -/

theorem bytes_putBytes_same (s : State) (sp : Space) (off : Nat) (d : List Byte) : (s.putBytes sp off d).bytes sp off d.length = d :=
  Memory.readBytes_writeBytes_same _ _ _

theorem wf_putBytes (s : State) (sp : Space) (off : Nat) (d : List Byte) (h : Memory.wf s.mem = true) :
    Memory.wf (s.putBytes sp off d).mem = true := Memory.wf_writeBytes _ _ _ h

theorem wf_putWord (s : State) (core w : Nat) (v : Word) (h : Memory.wf s.mem = true) : Memory.wf (s.putWord core w v).mem = true :=
  wf_putBytes _ _ _ _ h

theorem wf_setUpset (s : State) (sp : Space) (off n : Nat) (h : Memory.wf s.mem = true) : Memory.wf (s.setUpset sp off n).mem = true := h

theorem wf_writeUnit (s : State) (sp : Space) (off : Nat) (d : List Byte) (h : Memory.wf s.mem = true) :
    Memory.wf (s.writeUnit sp off d).mem = true := wf_putBytes _ _ _ _ h

end State

end Sys2Proof.Machine
end

