-- ==== Sys2Proof/Laws/State.lean ====
section
/-! SUPPORT. One lemma per field per update of the state, true by rfl, and what the tables of the state read after one of them is written. -/
namespace Sys2Proof.Machine.State

/-! ### setCore -/

@[simp] theorem setCore_pending (s : State) (c : Nat) (k : Core) : (s.setCore c k).pending = s.pending := rfl
@[simp] theorem setCore_fresh (s : State) (c : Nat) (k : Core) : (s.setCore c k).fresh = s.fresh := rfl
@[simp] theorem setCore_part (s : State) (c : Nat) (k : Core) : (s.setCore c k).part = s.part := rfl
@[simp] theorem setCore_mem (s : State) (c : Nat) (k : Core) : (s.setCore c k).mem = s.mem := rfl
@[simp] theorem setCore_upsets (s : State) (c : Nat) (k : Core) : (s.setCore c k).upsets = s.upsets := rfl
@[simp] theorem setCore_sram (s : State) (c : Nat) (k : Core) : (s.setCore c k).sram = s.sram := rfl
@[simp] theorem setCore_companies (s : State) (c : Nat) (k : Core) : (s.setCore c k).companies = s.companies := rfl
@[simp] theorem setCore_street (s : State) (c : Nat) (k : Core) : (s.setCore c k).street = s.street := rfl
@[simp] theorem setCore_carriages (s : State) (c : Nat) (k : Core) : (s.setCore c k).carriages = s.carriages := rfl
@[simp] theorem setCore_nextCarriage (s : State) (c : Nat) (k : Core) : (s.setCore c k).nextCarriage = s.nextCarriage := rfl
@[simp] theorem setCore_rings (s : State) (c : Nat) (k : Core) : (s.setCore c k).rings = s.rings := rfl
@[simp] theorem setCore_interface (s : State) (c : Nat) (k : Core) : (s.setCore c k).interface = s.interface := rfl
@[simp] theorem setCore_ready (s : State) (c : Nat) (k : Core) : (s.setCore c k).ready = s.ready := rfl
@[simp] theorem setCore_fatal (s : State) (c : Nat) (k : Core) : (s.setCore c k).fatal = s.fatal := rfl
@[simp] theorem setCore_attnMask (s : State) (c : Nat) (k : Core) : (s.setCore c k).attnMask = s.attnMask := rfl
@[simp] theorem setCore_resetHeld (s : State) (c : Nat) (k : Core) : (s.setCore c k).resetHeld = s.resetHeld := rfl
@[simp] theorem setCore_railsBroken (s : State) (c : Nat) (k : Core) : (s.setCore c k).railsBroken = s.railsBroken := rfl
@[simp] theorem setCore_hostReset (s : State) (c : Nat) (k : Core) : (s.setCore c k).hostReset = s.hostReset := rfl
@[simp] theorem setCore_channels (s : State) (c : Nat) (k : Core) : (s.setCore c k).channels = s.channels := rfl
@[simp] theorem setCore_fatalRecord (s : State) (c : Nat) (k : Core) : (s.setCore c k).fatalRecord = s.fatalRecord := rfl
@[simp] theorem setCore_log (s : State) (c : Nat) (k : Core) : (s.setCore c k).log = s.log := rfl
@[simp] theorem setCore_power (s : State) (c : Nat) (k : Core) : (s.setCore c k).power = s.power := rfl
@[simp] theorem setCore_transition (s : State) (c : Nat) (k : Core) : (s.setCore c k).transition = s.transition := rfl
@[simp] theorem setCore_zeroing (s : State) (c : Nat) (k : Core) : (s.setCore c k).zeroing = s.zeroing := rfl
@[simp] theorem setCore_waking (s : State) (c : Nat) (k : Core) : (s.setCore c k).waking = s.waking := rfl
@[simp] theorem setCore_wakeSince (s : State) (c : Nat) (k : Core) : (s.setCore c k).wakeSince = s.wakeSince := rfl
@[simp] theorem setCore_sustained (s : State) (c : Nat) (k : Core) : (s.setCore c k).sustained = s.sustained := rfl
@[simp] theorem setCore_peak (s : State) (c : Nat) (k : Core) : (s.setCore c k).peak = s.peak := rfl
@[simp] theorem setCore_ramp (s : State) (c : Nat) (k : Core) : (s.setCore c k).ramp = s.ramp := rfl
@[simp] theorem setCore_fuseMax (s : State) (c : Nat) (k : Core) : (s.setCore c k).fuseMax = s.fuseMax := rfl
@[simp] theorem setCore_running (s : State) (c : Nat) (k : Core) : (s.setCore c k).running = s.running := rfl
@[simp] theorem setCore_stretch (s : State) (c : Nat) (k : Core) : (s.setCore c k).stretch = s.stretch := rfl
@[simp] theorem setCore_triggers (s : State) (c : Nat) (k : Core) : (s.setCore c k).triggers = s.triggers := rfl
@[simp] theorem setCore_stretchAt (s : State) (c : Nat) (k : Core) : (s.setCore c k).stretchAt = s.stretchAt := rfl
@[simp] theorem setCore_stretchSince (s : State) (c : Nat) (k : Core) : (s.setCore c k).stretchSince = s.stretchSince := rfl
@[simp] theorem setCore_riseArmed (s : State) (c : Nat) (k : Core) : (s.setCore c k).riseArmed = s.riseArmed := rfl
@[simp] theorem setCore_fellAt (s : State) (c : Nat) (k : Core) : (s.setCore c k).fellAt = s.fellAt := rfl
@[simp] theorem setCore_temps (s : State) (c : Nat) (k : Core) : (s.setCore c k).temps = s.temps := rfl
@[simp] theorem setCore_watts (s : State) (c : Nat) (k : Core) : (s.setCore c k).watts = s.watts := rfl
@[simp] theorem setCore_overSustained (s : State) (c : Nat) (k : Core) : (s.setCore c k).overSustained = s.overSustained := rfl
@[simp] theorem setCore_districtCounters (s : State) (c : Nat) (k : Core) : (s.setCore c k).districtCounters = s.districtCounters := rfl
@[simp] theorem setCore_chipCounters (s : State) (c : Nat) (k : Core) : (s.setCore c k).chipCounters = s.chipCounters := rfl
@[simp] theorem setCore_chipCalSets (s : State) (c : Nat) (k : Core) : (s.setCore c k).chipCalSets = s.chipCalSets := rfl
@[simp] theorem setCore_scope (s : State) (c : Nat) (k : Core) : (s.setCore c k).scope = s.scope := rfl
@[simp] theorem setCore_challenge (s : State) (c : Nat) (k : Core) : (s.setCore c k).challenge = s.challenge := rfl
@[simp] theorem setCore_extensions (s : State) (c : Nat) (k : Core) : (s.setCore c k).extensions = s.extensions := rfl
@[simp] theorem setCore_chain (s : State) (c : Nat) (k : Core) : (s.setCore c k).chain = s.chain := rfl
@[simp] theorem setCore_chainCount (s : State) (c : Nat) (k : Core) : (s.setCore c k).chainCount = s.chainCount := rfl
@[simp] theorem setCore_perturb (s : State) (c : Nat) (k : Core) : (s.setCore c k).perturb = s.perturb := rfl
@[simp] theorem setCore_withheld (s : State) (c : Nat) (k : Core) : (s.setCore c k).withheld = s.withheld := rfl
@[simp] theorem setCore_bottomTree (s : State) (c : Nat) (k : Core) : (s.setCore c k).bottomTree = s.bottomTree := rfl
@[simp] theorem setCore_bottomLeaf (s : State) (c : Nat) (k : Core) : (s.setCore c k).bottomLeaf = s.bottomLeaf := rfl
@[simp] theorem setCore_bottomDraw (s : State) (c : Nat) (k : Core) : (s.setCore c k).bottomDraw = s.bottomDraw := rfl
@[simp] theorem setCore_bootLeaf (s : State) (c : Nat) (k : Core) : (s.setCore c k).bootLeaf = s.bootLeaf := rfl
@[simp] theorem setCore_keyContext (s : State) (c : Nat) (k : Core) : (s.setCore c k).keyContext = s.keyContext := rfl
@[simp] theorem setCore_jtagIr (s : State) (c : Nat) (k : Core) : (s.setCore c k).jtagIr = s.jtagIr := rfl
@[simp] theorem setCore_boundary (s : State) (c : Nat) (k : Core) : (s.setCore c k).boundary = s.boundary := rfl
@[simp] theorem setCore_extestPins (s : State) (c : Nat) (k : Core) : (s.setCore c k).extestPins = s.extestPins := rfl
@[simp] theorem setCore_tdo (s : State) (c : Nat) (k : Core) : (s.setCore c k).tdo = s.tdo := rfl
@[simp] theorem setCore_smbus (s : State) (c : Nat) (k : Core) : (s.setCore c k).smbus = s.smbus := rfl
@[simp] theorem setCore_town (s : State) (c : Nat) (k : Core) : (s.setCore c k).town = s.town := rfl
@[simp] theorem setCore_chipId (s : State) (c : Nat) (k : Core) : (s.setCore c k).chipId = s.chipId := rfl
@[simp] theorem setCore_links (s : State) (c : Nat) (k : Core) : (s.setCore c k).links = s.links := rfl
@[simp] theorem setCore_routes (s : State) (c : Nat) (k : Core) : (s.setCore c k).routes = s.routes := rfl
@[simp] theorem setCore_routesShadow (s : State) (c : Nat) (k : Core) : (s.setCore c k).routesShadow = s.routesShadow := rfl
@[simp] theorem setCore_swapAt (s : State) (c : Nat) (k : Core) : (s.setCore c k).swapAt = s.swapAt := rfl
@[simp] theorem setCore_outbox (s : State) (c : Nat) (k : Core) : (s.setCore c k).outbox = s.outbox := rfl
@[simp] theorem setCore_seen (s : State) (c : Nat) (k : Core) : (s.setCore c k).seen = s.seen := rfl
@[simp] theorem setCore_messages (s : State) (c : Nat) (k : Core) : (s.setCore c k).messages = s.messages := rfl
@[simp] theorem setCore_jobs (s : State) (c : Nat) (k : Core) : (s.setCore c k).jobs = s.jobs := rfl
@[simp] theorem setCore_contexts (s : State) (c : Nat) (k : Core) : (s.setCore c k).contexts = s.contexts := rfl
@[simp] theorem setCore_plans (s : State) (c : Nat) (k : Core) : (s.setCore c k).plans = s.plans := rfl
@[simp] theorem setCore_directory (s : State) (c : Nat) (k : Core) : (s.setCore c k).directory = s.directory := rfl
@[simp] theorem setCore_engine (s : State) (c : Nat) (k : Core) : (s.setCore c k).engine = s.engine := rfl
@[simp] theorem setCore_engineQueue (s : State) (c : Nat) (k : Core) : (s.setCore c k).engineQueue = s.engineQueue := rfl
@[simp] theorem setCore_scrubNext (s : State) (c : Nat) (k : Core) : (s.setCore c k).scrubNext = s.scrubNext := rfl
@[simp] theorem setCore_company_of (s : State) (c : Nat) (k : Core) (i : Nat) : (s.setCore c k).company i = s.company i := rfl
@[simp] theorem setCore_ring_of (s : State) (c : Nat) (k : Core) (i : Nat) : (s.setCore c k).ring i = s.ring i := rfl
@[simp] theorem setCore_channel_of (s : State) (c : Nat) (k : Core) (i : Nat) : (s.setCore c k).channel i = s.channel i := rfl
@[simp] theorem setCore_link_of (s : State) (c : Nat) (k : Core) (i : Nat) : (s.setCore c k).link i = s.link i := rfl
@[simp] theorem setCore_job_of (s : State) (c : Nat) (k : Core) (i : Nat) : (s.setCore c k).job i = s.job i := rfl
@[simp] theorem setCore_context_of (s : State) (c : Nat) (k : Core) (i : Nat) : (s.setCore c k).context i = s.context i := rfl
@[simp] theorem setCore_now_of (s : State) (c : Nat) (k : Core) : (s.setCore c k).now = s.now := rfl

/-! ### updCore -/

@[simp] theorem updCore_pending (s : State) (c : Nat) (f : Core → Core) : (s.updCore c f).pending = s.pending := rfl
@[simp] theorem updCore_fresh (s : State) (c : Nat) (f : Core → Core) : (s.updCore c f).fresh = s.fresh := rfl
@[simp] theorem updCore_part (s : State) (c : Nat) (f : Core → Core) : (s.updCore c f).part = s.part := rfl
@[simp] theorem updCore_mem (s : State) (c : Nat) (f : Core → Core) : (s.updCore c f).mem = s.mem := rfl
@[simp] theorem updCore_upsets (s : State) (c : Nat) (f : Core → Core) : (s.updCore c f).upsets = s.upsets := rfl
@[simp] theorem updCore_sram (s : State) (c : Nat) (f : Core → Core) : (s.updCore c f).sram = s.sram := rfl
@[simp] theorem updCore_companies (s : State) (c : Nat) (f : Core → Core) : (s.updCore c f).companies = s.companies := rfl
@[simp] theorem updCore_street (s : State) (c : Nat) (f : Core → Core) : (s.updCore c f).street = s.street := rfl
@[simp] theorem updCore_carriages (s : State) (c : Nat) (f : Core → Core) : (s.updCore c f).carriages = s.carriages := rfl
@[simp] theorem updCore_nextCarriage (s : State) (c : Nat) (f : Core → Core) : (s.updCore c f).nextCarriage = s.nextCarriage := rfl
@[simp] theorem updCore_rings (s : State) (c : Nat) (f : Core → Core) : (s.updCore c f).rings = s.rings := rfl
@[simp] theorem updCore_interface (s : State) (c : Nat) (f : Core → Core) : (s.updCore c f).interface = s.interface := rfl
@[simp] theorem updCore_ready (s : State) (c : Nat) (f : Core → Core) : (s.updCore c f).ready = s.ready := rfl
@[simp] theorem updCore_fatal (s : State) (c : Nat) (f : Core → Core) : (s.updCore c f).fatal = s.fatal := rfl
@[simp] theorem updCore_attnMask (s : State) (c : Nat) (f : Core → Core) : (s.updCore c f).attnMask = s.attnMask := rfl
@[simp] theorem updCore_resetHeld (s : State) (c : Nat) (f : Core → Core) : (s.updCore c f).resetHeld = s.resetHeld := rfl
@[simp] theorem updCore_railsBroken (s : State) (c : Nat) (f : Core → Core) : (s.updCore c f).railsBroken = s.railsBroken := rfl
@[simp] theorem updCore_hostReset (s : State) (c : Nat) (f : Core → Core) : (s.updCore c f).hostReset = s.hostReset := rfl
@[simp] theorem updCore_channels (s : State) (c : Nat) (f : Core → Core) : (s.updCore c f).channels = s.channels := rfl
@[simp] theorem updCore_fatalRecord (s : State) (c : Nat) (f : Core → Core) : (s.updCore c f).fatalRecord = s.fatalRecord := rfl
@[simp] theorem updCore_log (s : State) (c : Nat) (f : Core → Core) : (s.updCore c f).log = s.log := rfl
@[simp] theorem updCore_power (s : State) (c : Nat) (f : Core → Core) : (s.updCore c f).power = s.power := rfl
@[simp] theorem updCore_transition (s : State) (c : Nat) (f : Core → Core) : (s.updCore c f).transition = s.transition := rfl
@[simp] theorem updCore_zeroing (s : State) (c : Nat) (f : Core → Core) : (s.updCore c f).zeroing = s.zeroing := rfl
@[simp] theorem updCore_waking (s : State) (c : Nat) (f : Core → Core) : (s.updCore c f).waking = s.waking := rfl
@[simp] theorem updCore_wakeSince (s : State) (c : Nat) (f : Core → Core) : (s.updCore c f).wakeSince = s.wakeSince := rfl
@[simp] theorem updCore_sustained (s : State) (c : Nat) (f : Core → Core) : (s.updCore c f).sustained = s.sustained := rfl
@[simp] theorem updCore_peak (s : State) (c : Nat) (f : Core → Core) : (s.updCore c f).peak = s.peak := rfl
@[simp] theorem updCore_ramp (s : State) (c : Nat) (f : Core → Core) : (s.updCore c f).ramp = s.ramp := rfl
@[simp] theorem updCore_fuseMax (s : State) (c : Nat) (f : Core → Core) : (s.updCore c f).fuseMax = s.fuseMax := rfl
@[simp] theorem updCore_running (s : State) (c : Nat) (f : Core → Core) : (s.updCore c f).running = s.running := rfl
@[simp] theorem updCore_stretch (s : State) (c : Nat) (f : Core → Core) : (s.updCore c f).stretch = s.stretch := rfl
@[simp] theorem updCore_triggers (s : State) (c : Nat) (f : Core → Core) : (s.updCore c f).triggers = s.triggers := rfl
@[simp] theorem updCore_stretchAt (s : State) (c : Nat) (f : Core → Core) : (s.updCore c f).stretchAt = s.stretchAt := rfl
@[simp] theorem updCore_stretchSince (s : State) (c : Nat) (f : Core → Core) : (s.updCore c f).stretchSince = s.stretchSince := rfl
@[simp] theorem updCore_riseArmed (s : State) (c : Nat) (f : Core → Core) : (s.updCore c f).riseArmed = s.riseArmed := rfl
@[simp] theorem updCore_fellAt (s : State) (c : Nat) (f : Core → Core) : (s.updCore c f).fellAt = s.fellAt := rfl
@[simp] theorem updCore_temps (s : State) (c : Nat) (f : Core → Core) : (s.updCore c f).temps = s.temps := rfl
@[simp] theorem updCore_watts (s : State) (c : Nat) (f : Core → Core) : (s.updCore c f).watts = s.watts := rfl
@[simp] theorem updCore_overSustained (s : State) (c : Nat) (f : Core → Core) : (s.updCore c f).overSustained = s.overSustained := rfl
@[simp] theorem updCore_districtCounters (s : State) (c : Nat) (f : Core → Core) : (s.updCore c f).districtCounters = s.districtCounters := rfl
@[simp] theorem updCore_chipCounters (s : State) (c : Nat) (f : Core → Core) : (s.updCore c f).chipCounters = s.chipCounters := rfl
@[simp] theorem updCore_chipCalSets (s : State) (c : Nat) (f : Core → Core) : (s.updCore c f).chipCalSets = s.chipCalSets := rfl
@[simp] theorem updCore_scope (s : State) (c : Nat) (f : Core → Core) : (s.updCore c f).scope = s.scope := rfl
@[simp] theorem updCore_challenge (s : State) (c : Nat) (f : Core → Core) : (s.updCore c f).challenge = s.challenge := rfl
@[simp] theorem updCore_extensions (s : State) (c : Nat) (f : Core → Core) : (s.updCore c f).extensions = s.extensions := rfl
@[simp] theorem updCore_chain (s : State) (c : Nat) (f : Core → Core) : (s.updCore c f).chain = s.chain := rfl
@[simp] theorem updCore_chainCount (s : State) (c : Nat) (f : Core → Core) : (s.updCore c f).chainCount = s.chainCount := rfl
@[simp] theorem updCore_perturb (s : State) (c : Nat) (f : Core → Core) : (s.updCore c f).perturb = s.perturb := rfl
@[simp] theorem updCore_withheld (s : State) (c : Nat) (f : Core → Core) : (s.updCore c f).withheld = s.withheld := rfl
@[simp] theorem updCore_bottomTree (s : State) (c : Nat) (f : Core → Core) : (s.updCore c f).bottomTree = s.bottomTree := rfl
@[simp] theorem updCore_bottomLeaf (s : State) (c : Nat) (f : Core → Core) : (s.updCore c f).bottomLeaf = s.bottomLeaf := rfl
@[simp] theorem updCore_bottomDraw (s : State) (c : Nat) (f : Core → Core) : (s.updCore c f).bottomDraw = s.bottomDraw := rfl
@[simp] theorem updCore_bootLeaf (s : State) (c : Nat) (f : Core → Core) : (s.updCore c f).bootLeaf = s.bootLeaf := rfl
@[simp] theorem updCore_keyContext (s : State) (c : Nat) (f : Core → Core) : (s.updCore c f).keyContext = s.keyContext := rfl
@[simp] theorem updCore_jtagIr (s : State) (c : Nat) (f : Core → Core) : (s.updCore c f).jtagIr = s.jtagIr := rfl
@[simp] theorem updCore_boundary (s : State) (c : Nat) (f : Core → Core) : (s.updCore c f).boundary = s.boundary := rfl
@[simp] theorem updCore_extestPins (s : State) (c : Nat) (f : Core → Core) : (s.updCore c f).extestPins = s.extestPins := rfl
@[simp] theorem updCore_tdo (s : State) (c : Nat) (f : Core → Core) : (s.updCore c f).tdo = s.tdo := rfl
@[simp] theorem updCore_smbus (s : State) (c : Nat) (f : Core → Core) : (s.updCore c f).smbus = s.smbus := rfl
@[simp] theorem updCore_town (s : State) (c : Nat) (f : Core → Core) : (s.updCore c f).town = s.town := rfl
@[simp] theorem updCore_chipId (s : State) (c : Nat) (f : Core → Core) : (s.updCore c f).chipId = s.chipId := rfl
@[simp] theorem updCore_links (s : State) (c : Nat) (f : Core → Core) : (s.updCore c f).links = s.links := rfl
@[simp] theorem updCore_routes (s : State) (c : Nat) (f : Core → Core) : (s.updCore c f).routes = s.routes := rfl
@[simp] theorem updCore_routesShadow (s : State) (c : Nat) (f : Core → Core) : (s.updCore c f).routesShadow = s.routesShadow := rfl
@[simp] theorem updCore_swapAt (s : State) (c : Nat) (f : Core → Core) : (s.updCore c f).swapAt = s.swapAt := rfl
@[simp] theorem updCore_outbox (s : State) (c : Nat) (f : Core → Core) : (s.updCore c f).outbox = s.outbox := rfl
@[simp] theorem updCore_seen (s : State) (c : Nat) (f : Core → Core) : (s.updCore c f).seen = s.seen := rfl
@[simp] theorem updCore_messages (s : State) (c : Nat) (f : Core → Core) : (s.updCore c f).messages = s.messages := rfl
@[simp] theorem updCore_jobs (s : State) (c : Nat) (f : Core → Core) : (s.updCore c f).jobs = s.jobs := rfl
@[simp] theorem updCore_contexts (s : State) (c : Nat) (f : Core → Core) : (s.updCore c f).contexts = s.contexts := rfl
@[simp] theorem updCore_plans (s : State) (c : Nat) (f : Core → Core) : (s.updCore c f).plans = s.plans := rfl
@[simp] theorem updCore_directory (s : State) (c : Nat) (f : Core → Core) : (s.updCore c f).directory = s.directory := rfl
@[simp] theorem updCore_engine (s : State) (c : Nat) (f : Core → Core) : (s.updCore c f).engine = s.engine := rfl
@[simp] theorem updCore_engineQueue (s : State) (c : Nat) (f : Core → Core) : (s.updCore c f).engineQueue = s.engineQueue := rfl
@[simp] theorem updCore_scrubNext (s : State) (c : Nat) (f : Core → Core) : (s.updCore c f).scrubNext = s.scrubNext := rfl
@[simp] theorem updCore_company_of (s : State) (c : Nat) (f : Core → Core) (i : Nat) : (s.updCore c f).company i = s.company i := rfl
@[simp] theorem updCore_ring_of (s : State) (c : Nat) (f : Core → Core) (i : Nat) : (s.updCore c f).ring i = s.ring i := rfl
@[simp] theorem updCore_channel_of (s : State) (c : Nat) (f : Core → Core) (i : Nat) : (s.updCore c f).channel i = s.channel i := rfl
@[simp] theorem updCore_link_of (s : State) (c : Nat) (f : Core → Core) (i : Nat) : (s.updCore c f).link i = s.link i := rfl
@[simp] theorem updCore_job_of (s : State) (c : Nat) (f : Core → Core) (i : Nat) : (s.updCore c f).job i = s.job i := rfl
@[simp] theorem updCore_context_of (s : State) (c : Nat) (f : Core → Core) (i : Nat) : (s.updCore c f).context i = s.context i := rfl
@[simp] theorem updCore_now_of (s : State) (c : Nat) (f : Core → Core) : (s.updCore c f).now = s.now := rfl

/-! ### setCompany -/

@[simp] theorem setCompany_pending (s : State) (c : Nat) (k : Company) : (s.setCompany c k).pending = s.pending := rfl
@[simp] theorem setCompany_fresh (s : State) (c : Nat) (k : Company) : (s.setCompany c k).fresh = s.fresh := rfl
@[simp] theorem setCompany_part (s : State) (c : Nat) (k : Company) : (s.setCompany c k).part = s.part := rfl
@[simp] theorem setCompany_mem (s : State) (c : Nat) (k : Company) : (s.setCompany c k).mem = s.mem := rfl
@[simp] theorem setCompany_upsets (s : State) (c : Nat) (k : Company) : (s.setCompany c k).upsets = s.upsets := rfl
@[simp] theorem setCompany_sram (s : State) (c : Nat) (k : Company) : (s.setCompany c k).sram = s.sram := rfl
@[simp] theorem setCompany_cores (s : State) (c : Nat) (k : Company) : (s.setCompany c k).cores = s.cores := rfl
@[simp] theorem setCompany_street (s : State) (c : Nat) (k : Company) : (s.setCompany c k).street = s.street := rfl
@[simp] theorem setCompany_carriages (s : State) (c : Nat) (k : Company) : (s.setCompany c k).carriages = s.carriages := rfl
@[simp] theorem setCompany_nextCarriage (s : State) (c : Nat) (k : Company) : (s.setCompany c k).nextCarriage = s.nextCarriage := rfl
@[simp] theorem setCompany_rings (s : State) (c : Nat) (k : Company) : (s.setCompany c k).rings = s.rings := rfl
@[simp] theorem setCompany_interface (s : State) (c : Nat) (k : Company) : (s.setCompany c k).interface = s.interface := rfl
@[simp] theorem setCompany_ready (s : State) (c : Nat) (k : Company) : (s.setCompany c k).ready = s.ready := rfl
@[simp] theorem setCompany_fatal (s : State) (c : Nat) (k : Company) : (s.setCompany c k).fatal = s.fatal := rfl
@[simp] theorem setCompany_attnMask (s : State) (c : Nat) (k : Company) : (s.setCompany c k).attnMask = s.attnMask := rfl
@[simp] theorem setCompany_resetHeld (s : State) (c : Nat) (k : Company) : (s.setCompany c k).resetHeld = s.resetHeld := rfl
@[simp] theorem setCompany_railsBroken (s : State) (c : Nat) (k : Company) : (s.setCompany c k).railsBroken = s.railsBroken := rfl
@[simp] theorem setCompany_hostReset (s : State) (c : Nat) (k : Company) : (s.setCompany c k).hostReset = s.hostReset := rfl
@[simp] theorem setCompany_channels (s : State) (c : Nat) (k : Company) : (s.setCompany c k).channels = s.channels := rfl
@[simp] theorem setCompany_fatalRecord (s : State) (c : Nat) (k : Company) : (s.setCompany c k).fatalRecord = s.fatalRecord := rfl
@[simp] theorem setCompany_log (s : State) (c : Nat) (k : Company) : (s.setCompany c k).log = s.log := rfl
@[simp] theorem setCompany_power (s : State) (c : Nat) (k : Company) : (s.setCompany c k).power = s.power := rfl
@[simp] theorem setCompany_transition (s : State) (c : Nat) (k : Company) : (s.setCompany c k).transition = s.transition := rfl
@[simp] theorem setCompany_zeroing (s : State) (c : Nat) (k : Company) : (s.setCompany c k).zeroing = s.zeroing := rfl
@[simp] theorem setCompany_waking (s : State) (c : Nat) (k : Company) : (s.setCompany c k).waking = s.waking := rfl
@[simp] theorem setCompany_wakeSince (s : State) (c : Nat) (k : Company) : (s.setCompany c k).wakeSince = s.wakeSince := rfl
@[simp] theorem setCompany_sustained (s : State) (c : Nat) (k : Company) : (s.setCompany c k).sustained = s.sustained := rfl
@[simp] theorem setCompany_peak (s : State) (c : Nat) (k : Company) : (s.setCompany c k).peak = s.peak := rfl
@[simp] theorem setCompany_ramp (s : State) (c : Nat) (k : Company) : (s.setCompany c k).ramp = s.ramp := rfl
@[simp] theorem setCompany_fuseMax (s : State) (c : Nat) (k : Company) : (s.setCompany c k).fuseMax = s.fuseMax := rfl
@[simp] theorem setCompany_running (s : State) (c : Nat) (k : Company) : (s.setCompany c k).running = s.running := rfl
@[simp] theorem setCompany_stretch (s : State) (c : Nat) (k : Company) : (s.setCompany c k).stretch = s.stretch := rfl
@[simp] theorem setCompany_triggers (s : State) (c : Nat) (k : Company) : (s.setCompany c k).triggers = s.triggers := rfl
@[simp] theorem setCompany_stretchAt (s : State) (c : Nat) (k : Company) : (s.setCompany c k).stretchAt = s.stretchAt := rfl
@[simp] theorem setCompany_stretchSince (s : State) (c : Nat) (k : Company) : (s.setCompany c k).stretchSince = s.stretchSince := rfl
@[simp] theorem setCompany_riseArmed (s : State) (c : Nat) (k : Company) : (s.setCompany c k).riseArmed = s.riseArmed := rfl
@[simp] theorem setCompany_fellAt (s : State) (c : Nat) (k : Company) : (s.setCompany c k).fellAt = s.fellAt := rfl
@[simp] theorem setCompany_temps (s : State) (c : Nat) (k : Company) : (s.setCompany c k).temps = s.temps := rfl
@[simp] theorem setCompany_watts (s : State) (c : Nat) (k : Company) : (s.setCompany c k).watts = s.watts := rfl
@[simp] theorem setCompany_overSustained (s : State) (c : Nat) (k : Company) : (s.setCompany c k).overSustained = s.overSustained := rfl
@[simp] theorem setCompany_districtCounters (s : State) (c : Nat) (k : Company) : (s.setCompany c k).districtCounters = s.districtCounters := rfl
@[simp] theorem setCompany_chipCounters (s : State) (c : Nat) (k : Company) : (s.setCompany c k).chipCounters = s.chipCounters := rfl
@[simp] theorem setCompany_chipCalSets (s : State) (c : Nat) (k : Company) : (s.setCompany c k).chipCalSets = s.chipCalSets := rfl
@[simp] theorem setCompany_scope (s : State) (c : Nat) (k : Company) : (s.setCompany c k).scope = s.scope := rfl
@[simp] theorem setCompany_challenge (s : State) (c : Nat) (k : Company) : (s.setCompany c k).challenge = s.challenge := rfl
@[simp] theorem setCompany_extensions (s : State) (c : Nat) (k : Company) : (s.setCompany c k).extensions = s.extensions := rfl
@[simp] theorem setCompany_chain (s : State) (c : Nat) (k : Company) : (s.setCompany c k).chain = s.chain := rfl
@[simp] theorem setCompany_chainCount (s : State) (c : Nat) (k : Company) : (s.setCompany c k).chainCount = s.chainCount := rfl
@[simp] theorem setCompany_perturb (s : State) (c : Nat) (k : Company) : (s.setCompany c k).perturb = s.perturb := rfl
@[simp] theorem setCompany_withheld (s : State) (c : Nat) (k : Company) : (s.setCompany c k).withheld = s.withheld := rfl
@[simp] theorem setCompany_bottomTree (s : State) (c : Nat) (k : Company) : (s.setCompany c k).bottomTree = s.bottomTree := rfl
@[simp] theorem setCompany_bottomLeaf (s : State) (c : Nat) (k : Company) : (s.setCompany c k).bottomLeaf = s.bottomLeaf := rfl
@[simp] theorem setCompany_bottomDraw (s : State) (c : Nat) (k : Company) : (s.setCompany c k).bottomDraw = s.bottomDraw := rfl
@[simp] theorem setCompany_bootLeaf (s : State) (c : Nat) (k : Company) : (s.setCompany c k).bootLeaf = s.bootLeaf := rfl
@[simp] theorem setCompany_keyContext (s : State) (c : Nat) (k : Company) : (s.setCompany c k).keyContext = s.keyContext := rfl
@[simp] theorem setCompany_jtagIr (s : State) (c : Nat) (k : Company) : (s.setCompany c k).jtagIr = s.jtagIr := rfl
@[simp] theorem setCompany_boundary (s : State) (c : Nat) (k : Company) : (s.setCompany c k).boundary = s.boundary := rfl
@[simp] theorem setCompany_extestPins (s : State) (c : Nat) (k : Company) : (s.setCompany c k).extestPins = s.extestPins := rfl
@[simp] theorem setCompany_tdo (s : State) (c : Nat) (k : Company) : (s.setCompany c k).tdo = s.tdo := rfl
@[simp] theorem setCompany_smbus (s : State) (c : Nat) (k : Company) : (s.setCompany c k).smbus = s.smbus := rfl
@[simp] theorem setCompany_town (s : State) (c : Nat) (k : Company) : (s.setCompany c k).town = s.town := rfl
@[simp] theorem setCompany_chipId (s : State) (c : Nat) (k : Company) : (s.setCompany c k).chipId = s.chipId := rfl
@[simp] theorem setCompany_links (s : State) (c : Nat) (k : Company) : (s.setCompany c k).links = s.links := rfl
@[simp] theorem setCompany_routes (s : State) (c : Nat) (k : Company) : (s.setCompany c k).routes = s.routes := rfl
@[simp] theorem setCompany_routesShadow (s : State) (c : Nat) (k : Company) : (s.setCompany c k).routesShadow = s.routesShadow := rfl
@[simp] theorem setCompany_swapAt (s : State) (c : Nat) (k : Company) : (s.setCompany c k).swapAt = s.swapAt := rfl
@[simp] theorem setCompany_outbox (s : State) (c : Nat) (k : Company) : (s.setCompany c k).outbox = s.outbox := rfl
@[simp] theorem setCompany_seen (s : State) (c : Nat) (k : Company) : (s.setCompany c k).seen = s.seen := rfl
@[simp] theorem setCompany_messages (s : State) (c : Nat) (k : Company) : (s.setCompany c k).messages = s.messages := rfl
@[simp] theorem setCompany_jobs (s : State) (c : Nat) (k : Company) : (s.setCompany c k).jobs = s.jobs := rfl
@[simp] theorem setCompany_contexts (s : State) (c : Nat) (k : Company) : (s.setCompany c k).contexts = s.contexts := rfl
@[simp] theorem setCompany_plans (s : State) (c : Nat) (k : Company) : (s.setCompany c k).plans = s.plans := rfl
@[simp] theorem setCompany_directory (s : State) (c : Nat) (k : Company) : (s.setCompany c k).directory = s.directory := rfl
@[simp] theorem setCompany_engine (s : State) (c : Nat) (k : Company) : (s.setCompany c k).engine = s.engine := rfl
@[simp] theorem setCompany_engineQueue (s : State) (c : Nat) (k : Company) : (s.setCompany c k).engineQueue = s.engineQueue := rfl
@[simp] theorem setCompany_scrubNext (s : State) (c : Nat) (k : Company) : (s.setCompany c k).scrubNext = s.scrubNext := rfl
@[simp] theorem setCompany_core_of (s : State) (c : Nat) (k : Company) (i : Nat) : (s.setCompany c k).core i = s.core i := rfl
@[simp] theorem setCompany_ring_of (s : State) (c : Nat) (k : Company) (i : Nat) : (s.setCompany c k).ring i = s.ring i := rfl
@[simp] theorem setCompany_channel_of (s : State) (c : Nat) (k : Company) (i : Nat) : (s.setCompany c k).channel i = s.channel i := rfl
@[simp] theorem setCompany_link_of (s : State) (c : Nat) (k : Company) (i : Nat) : (s.setCompany c k).link i = s.link i := rfl
@[simp] theorem setCompany_job_of (s : State) (c : Nat) (k : Company) (i : Nat) : (s.setCompany c k).job i = s.job i := rfl
@[simp] theorem setCompany_context_of (s : State) (c : Nat) (k : Company) (i : Nat) : (s.setCompany c k).context i = s.context i := rfl
@[simp] theorem setCompany_now_of (s : State) (c : Nat) (k : Company) : (s.setCompany c k).now = s.now := rfl

/-! ### updCompany -/

@[simp] theorem updCompany_pending (s : State) (c : Nat) (f : Company → Company) : (s.updCompany c f).pending = s.pending := rfl
@[simp] theorem updCompany_fresh (s : State) (c : Nat) (f : Company → Company) : (s.updCompany c f).fresh = s.fresh := rfl
@[simp] theorem updCompany_part (s : State) (c : Nat) (f : Company → Company) : (s.updCompany c f).part = s.part := rfl
@[simp] theorem updCompany_mem (s : State) (c : Nat) (f : Company → Company) : (s.updCompany c f).mem = s.mem := rfl
@[simp] theorem updCompany_upsets (s : State) (c : Nat) (f : Company → Company) : (s.updCompany c f).upsets = s.upsets := rfl
@[simp] theorem updCompany_sram (s : State) (c : Nat) (f : Company → Company) : (s.updCompany c f).sram = s.sram := rfl
@[simp] theorem updCompany_cores (s : State) (c : Nat) (f : Company → Company) : (s.updCompany c f).cores = s.cores := rfl
@[simp] theorem updCompany_street (s : State) (c : Nat) (f : Company → Company) : (s.updCompany c f).street = s.street := rfl
@[simp] theorem updCompany_carriages (s : State) (c : Nat) (f : Company → Company) : (s.updCompany c f).carriages = s.carriages := rfl
@[simp] theorem updCompany_nextCarriage (s : State) (c : Nat) (f : Company → Company) : (s.updCompany c f).nextCarriage = s.nextCarriage := rfl
@[simp] theorem updCompany_rings (s : State) (c : Nat) (f : Company → Company) : (s.updCompany c f).rings = s.rings := rfl
@[simp] theorem updCompany_interface (s : State) (c : Nat) (f : Company → Company) : (s.updCompany c f).interface = s.interface := rfl
@[simp] theorem updCompany_ready (s : State) (c : Nat) (f : Company → Company) : (s.updCompany c f).ready = s.ready := rfl
@[simp] theorem updCompany_fatal (s : State) (c : Nat) (f : Company → Company) : (s.updCompany c f).fatal = s.fatal := rfl
@[simp] theorem updCompany_attnMask (s : State) (c : Nat) (f : Company → Company) : (s.updCompany c f).attnMask = s.attnMask := rfl
@[simp] theorem updCompany_resetHeld (s : State) (c : Nat) (f : Company → Company) : (s.updCompany c f).resetHeld = s.resetHeld := rfl
@[simp] theorem updCompany_railsBroken (s : State) (c : Nat) (f : Company → Company) : (s.updCompany c f).railsBroken = s.railsBroken := rfl
@[simp] theorem updCompany_hostReset (s : State) (c : Nat) (f : Company → Company) : (s.updCompany c f).hostReset = s.hostReset := rfl
@[simp] theorem updCompany_channels (s : State) (c : Nat) (f : Company → Company) : (s.updCompany c f).channels = s.channels := rfl
@[simp] theorem updCompany_fatalRecord (s : State) (c : Nat) (f : Company → Company) : (s.updCompany c f).fatalRecord = s.fatalRecord := rfl
@[simp] theorem updCompany_log (s : State) (c : Nat) (f : Company → Company) : (s.updCompany c f).log = s.log := rfl
@[simp] theorem updCompany_power (s : State) (c : Nat) (f : Company → Company) : (s.updCompany c f).power = s.power := rfl
@[simp] theorem updCompany_transition (s : State) (c : Nat) (f : Company → Company) : (s.updCompany c f).transition = s.transition := rfl
@[simp] theorem updCompany_zeroing (s : State) (c : Nat) (f : Company → Company) : (s.updCompany c f).zeroing = s.zeroing := rfl
@[simp] theorem updCompany_waking (s : State) (c : Nat) (f : Company → Company) : (s.updCompany c f).waking = s.waking := rfl
@[simp] theorem updCompany_wakeSince (s : State) (c : Nat) (f : Company → Company) : (s.updCompany c f).wakeSince = s.wakeSince := rfl
@[simp] theorem updCompany_sustained (s : State) (c : Nat) (f : Company → Company) : (s.updCompany c f).sustained = s.sustained := rfl
@[simp] theorem updCompany_peak (s : State) (c : Nat) (f : Company → Company) : (s.updCompany c f).peak = s.peak := rfl
@[simp] theorem updCompany_ramp (s : State) (c : Nat) (f : Company → Company) : (s.updCompany c f).ramp = s.ramp := rfl
@[simp] theorem updCompany_fuseMax (s : State) (c : Nat) (f : Company → Company) : (s.updCompany c f).fuseMax = s.fuseMax := rfl
@[simp] theorem updCompany_running (s : State) (c : Nat) (f : Company → Company) : (s.updCompany c f).running = s.running := rfl
@[simp] theorem updCompany_stretch (s : State) (c : Nat) (f : Company → Company) : (s.updCompany c f).stretch = s.stretch := rfl
@[simp] theorem updCompany_triggers (s : State) (c : Nat) (f : Company → Company) : (s.updCompany c f).triggers = s.triggers := rfl
@[simp] theorem updCompany_stretchAt (s : State) (c : Nat) (f : Company → Company) : (s.updCompany c f).stretchAt = s.stretchAt := rfl
@[simp] theorem updCompany_stretchSince (s : State) (c : Nat) (f : Company → Company) : (s.updCompany c f).stretchSince = s.stretchSince := rfl
@[simp] theorem updCompany_riseArmed (s : State) (c : Nat) (f : Company → Company) : (s.updCompany c f).riseArmed = s.riseArmed := rfl
@[simp] theorem updCompany_fellAt (s : State) (c : Nat) (f : Company → Company) : (s.updCompany c f).fellAt = s.fellAt := rfl
@[simp] theorem updCompany_temps (s : State) (c : Nat) (f : Company → Company) : (s.updCompany c f).temps = s.temps := rfl
@[simp] theorem updCompany_watts (s : State) (c : Nat) (f : Company → Company) : (s.updCompany c f).watts = s.watts := rfl
@[simp] theorem updCompany_overSustained (s : State) (c : Nat) (f : Company → Company) : (s.updCompany c f).overSustained = s.overSustained := rfl
@[simp] theorem updCompany_districtCounters (s : State) (c : Nat) (f : Company → Company) : (s.updCompany c f).districtCounters = s.districtCounters := rfl
@[simp] theorem updCompany_chipCounters (s : State) (c : Nat) (f : Company → Company) : (s.updCompany c f).chipCounters = s.chipCounters := rfl
@[simp] theorem updCompany_chipCalSets (s : State) (c : Nat) (f : Company → Company) : (s.updCompany c f).chipCalSets = s.chipCalSets := rfl
@[simp] theorem updCompany_scope (s : State) (c : Nat) (f : Company → Company) : (s.updCompany c f).scope = s.scope := rfl
@[simp] theorem updCompany_challenge (s : State) (c : Nat) (f : Company → Company) : (s.updCompany c f).challenge = s.challenge := rfl
@[simp] theorem updCompany_extensions (s : State) (c : Nat) (f : Company → Company) : (s.updCompany c f).extensions = s.extensions := rfl
@[simp] theorem updCompany_chain (s : State) (c : Nat) (f : Company → Company) : (s.updCompany c f).chain = s.chain := rfl
@[simp] theorem updCompany_chainCount (s : State) (c : Nat) (f : Company → Company) : (s.updCompany c f).chainCount = s.chainCount := rfl
@[simp] theorem updCompany_perturb (s : State) (c : Nat) (f : Company → Company) : (s.updCompany c f).perturb = s.perturb := rfl
@[simp] theorem updCompany_withheld (s : State) (c : Nat) (f : Company → Company) : (s.updCompany c f).withheld = s.withheld := rfl
@[simp] theorem updCompany_bottomTree (s : State) (c : Nat) (f : Company → Company) : (s.updCompany c f).bottomTree = s.bottomTree := rfl
@[simp] theorem updCompany_bottomLeaf (s : State) (c : Nat) (f : Company → Company) : (s.updCompany c f).bottomLeaf = s.bottomLeaf := rfl
@[simp] theorem updCompany_bottomDraw (s : State) (c : Nat) (f : Company → Company) : (s.updCompany c f).bottomDraw = s.bottomDraw := rfl
@[simp] theorem updCompany_bootLeaf (s : State) (c : Nat) (f : Company → Company) : (s.updCompany c f).bootLeaf = s.bootLeaf := rfl
@[simp] theorem updCompany_keyContext (s : State) (c : Nat) (f : Company → Company) : (s.updCompany c f).keyContext = s.keyContext := rfl
@[simp] theorem updCompany_jtagIr (s : State) (c : Nat) (f : Company → Company) : (s.updCompany c f).jtagIr = s.jtagIr := rfl
@[simp] theorem updCompany_boundary (s : State) (c : Nat) (f : Company → Company) : (s.updCompany c f).boundary = s.boundary := rfl
@[simp] theorem updCompany_extestPins (s : State) (c : Nat) (f : Company → Company) : (s.updCompany c f).extestPins = s.extestPins := rfl
@[simp] theorem updCompany_tdo (s : State) (c : Nat) (f : Company → Company) : (s.updCompany c f).tdo = s.tdo := rfl
@[simp] theorem updCompany_smbus (s : State) (c : Nat) (f : Company → Company) : (s.updCompany c f).smbus = s.smbus := rfl
@[simp] theorem updCompany_town (s : State) (c : Nat) (f : Company → Company) : (s.updCompany c f).town = s.town := rfl
@[simp] theorem updCompany_chipId (s : State) (c : Nat) (f : Company → Company) : (s.updCompany c f).chipId = s.chipId := rfl
@[simp] theorem updCompany_links (s : State) (c : Nat) (f : Company → Company) : (s.updCompany c f).links = s.links := rfl
@[simp] theorem updCompany_routes (s : State) (c : Nat) (f : Company → Company) : (s.updCompany c f).routes = s.routes := rfl
@[simp] theorem updCompany_routesShadow (s : State) (c : Nat) (f : Company → Company) : (s.updCompany c f).routesShadow = s.routesShadow := rfl
@[simp] theorem updCompany_swapAt (s : State) (c : Nat) (f : Company → Company) : (s.updCompany c f).swapAt = s.swapAt := rfl
@[simp] theorem updCompany_outbox (s : State) (c : Nat) (f : Company → Company) : (s.updCompany c f).outbox = s.outbox := rfl
@[simp] theorem updCompany_seen (s : State) (c : Nat) (f : Company → Company) : (s.updCompany c f).seen = s.seen := rfl
@[simp] theorem updCompany_messages (s : State) (c : Nat) (f : Company → Company) : (s.updCompany c f).messages = s.messages := rfl
@[simp] theorem updCompany_jobs (s : State) (c : Nat) (f : Company → Company) : (s.updCompany c f).jobs = s.jobs := rfl
@[simp] theorem updCompany_contexts (s : State) (c : Nat) (f : Company → Company) : (s.updCompany c f).contexts = s.contexts := rfl
@[simp] theorem updCompany_plans (s : State) (c : Nat) (f : Company → Company) : (s.updCompany c f).plans = s.plans := rfl
@[simp] theorem updCompany_directory (s : State) (c : Nat) (f : Company → Company) : (s.updCompany c f).directory = s.directory := rfl
@[simp] theorem updCompany_engine (s : State) (c : Nat) (f : Company → Company) : (s.updCompany c f).engine = s.engine := rfl
@[simp] theorem updCompany_engineQueue (s : State) (c : Nat) (f : Company → Company) : (s.updCompany c f).engineQueue = s.engineQueue := rfl
@[simp] theorem updCompany_scrubNext (s : State) (c : Nat) (f : Company → Company) : (s.updCompany c f).scrubNext = s.scrubNext := rfl
@[simp] theorem updCompany_core_of (s : State) (c : Nat) (f : Company → Company) (i : Nat) : (s.updCompany c f).core i = s.core i := rfl
@[simp] theorem updCompany_ring_of (s : State) (c : Nat) (f : Company → Company) (i : Nat) : (s.updCompany c f).ring i = s.ring i := rfl
@[simp] theorem updCompany_channel_of (s : State) (c : Nat) (f : Company → Company) (i : Nat) : (s.updCompany c f).channel i = s.channel i := rfl
@[simp] theorem updCompany_link_of (s : State) (c : Nat) (f : Company → Company) (i : Nat) : (s.updCompany c f).link i = s.link i := rfl
@[simp] theorem updCompany_job_of (s : State) (c : Nat) (f : Company → Company) (i : Nat) : (s.updCompany c f).job i = s.job i := rfl
@[simp] theorem updCompany_context_of (s : State) (c : Nat) (f : Company → Company) (i : Nat) : (s.updCompany c f).context i = s.context i := rfl
@[simp] theorem updCompany_now_of (s : State) (c : Nat) (f : Company → Company) : (s.updCompany c f).now = s.now := rfl

/-! ### setRing -/

@[simp] theorem setRing_pending (s : State) (r : Nat) (k : Ring) : (s.setRing r k).pending = s.pending := rfl
@[simp] theorem setRing_fresh (s : State) (r : Nat) (k : Ring) : (s.setRing r k).fresh = s.fresh := rfl
@[simp] theorem setRing_part (s : State) (r : Nat) (k : Ring) : (s.setRing r k).part = s.part := rfl
@[simp] theorem setRing_mem (s : State) (r : Nat) (k : Ring) : (s.setRing r k).mem = s.mem := rfl
@[simp] theorem setRing_upsets (s : State) (r : Nat) (k : Ring) : (s.setRing r k).upsets = s.upsets := rfl
@[simp] theorem setRing_sram (s : State) (r : Nat) (k : Ring) : (s.setRing r k).sram = s.sram := rfl
@[simp] theorem setRing_cores (s : State) (r : Nat) (k : Ring) : (s.setRing r k).cores = s.cores := rfl
@[simp] theorem setRing_companies (s : State) (r : Nat) (k : Ring) : (s.setRing r k).companies = s.companies := rfl
@[simp] theorem setRing_street (s : State) (r : Nat) (k : Ring) : (s.setRing r k).street = s.street := rfl
@[simp] theorem setRing_carriages (s : State) (r : Nat) (k : Ring) : (s.setRing r k).carriages = s.carriages := rfl
@[simp] theorem setRing_nextCarriage (s : State) (r : Nat) (k : Ring) : (s.setRing r k).nextCarriage = s.nextCarriage := rfl
@[simp] theorem setRing_interface (s : State) (r : Nat) (k : Ring) : (s.setRing r k).interface = s.interface := rfl
@[simp] theorem setRing_ready (s : State) (r : Nat) (k : Ring) : (s.setRing r k).ready = s.ready := rfl
@[simp] theorem setRing_fatal (s : State) (r : Nat) (k : Ring) : (s.setRing r k).fatal = s.fatal := rfl
@[simp] theorem setRing_attnMask (s : State) (r : Nat) (k : Ring) : (s.setRing r k).attnMask = s.attnMask := rfl
@[simp] theorem setRing_resetHeld (s : State) (r : Nat) (k : Ring) : (s.setRing r k).resetHeld = s.resetHeld := rfl
@[simp] theorem setRing_railsBroken (s : State) (r : Nat) (k : Ring) : (s.setRing r k).railsBroken = s.railsBroken := rfl
@[simp] theorem setRing_hostReset (s : State) (r : Nat) (k : Ring) : (s.setRing r k).hostReset = s.hostReset := rfl
@[simp] theorem setRing_channels (s : State) (r : Nat) (k : Ring) : (s.setRing r k).channels = s.channels := rfl
@[simp] theorem setRing_fatalRecord (s : State) (r : Nat) (k : Ring) : (s.setRing r k).fatalRecord = s.fatalRecord := rfl
@[simp] theorem setRing_log (s : State) (r : Nat) (k : Ring) : (s.setRing r k).log = s.log := rfl
@[simp] theorem setRing_power (s : State) (r : Nat) (k : Ring) : (s.setRing r k).power = s.power := rfl
@[simp] theorem setRing_transition (s : State) (r : Nat) (k : Ring) : (s.setRing r k).transition = s.transition := rfl
@[simp] theorem setRing_zeroing (s : State) (r : Nat) (k : Ring) : (s.setRing r k).zeroing = s.zeroing := rfl
@[simp] theorem setRing_waking (s : State) (r : Nat) (k : Ring) : (s.setRing r k).waking = s.waking := rfl
@[simp] theorem setRing_wakeSince (s : State) (r : Nat) (k : Ring) : (s.setRing r k).wakeSince = s.wakeSince := rfl
@[simp] theorem setRing_sustained (s : State) (r : Nat) (k : Ring) : (s.setRing r k).sustained = s.sustained := rfl
@[simp] theorem setRing_peak (s : State) (r : Nat) (k : Ring) : (s.setRing r k).peak = s.peak := rfl
@[simp] theorem setRing_ramp (s : State) (r : Nat) (k : Ring) : (s.setRing r k).ramp = s.ramp := rfl
@[simp] theorem setRing_fuseMax (s : State) (r : Nat) (k : Ring) : (s.setRing r k).fuseMax = s.fuseMax := rfl
@[simp] theorem setRing_running (s : State) (r : Nat) (k : Ring) : (s.setRing r k).running = s.running := rfl
@[simp] theorem setRing_stretch (s : State) (r : Nat) (k : Ring) : (s.setRing r k).stretch = s.stretch := rfl
@[simp] theorem setRing_triggers (s : State) (r : Nat) (k : Ring) : (s.setRing r k).triggers = s.triggers := rfl
@[simp] theorem setRing_stretchAt (s : State) (r : Nat) (k : Ring) : (s.setRing r k).stretchAt = s.stretchAt := rfl
@[simp] theorem setRing_stretchSince (s : State) (r : Nat) (k : Ring) : (s.setRing r k).stretchSince = s.stretchSince := rfl
@[simp] theorem setRing_riseArmed (s : State) (r : Nat) (k : Ring) : (s.setRing r k).riseArmed = s.riseArmed := rfl
@[simp] theorem setRing_fellAt (s : State) (r : Nat) (k : Ring) : (s.setRing r k).fellAt = s.fellAt := rfl
@[simp] theorem setRing_temps (s : State) (r : Nat) (k : Ring) : (s.setRing r k).temps = s.temps := rfl
@[simp] theorem setRing_watts (s : State) (r : Nat) (k : Ring) : (s.setRing r k).watts = s.watts := rfl
@[simp] theorem setRing_overSustained (s : State) (r : Nat) (k : Ring) : (s.setRing r k).overSustained = s.overSustained := rfl
@[simp] theorem setRing_districtCounters (s : State) (r : Nat) (k : Ring) : (s.setRing r k).districtCounters = s.districtCounters := rfl
@[simp] theorem setRing_chipCounters (s : State) (r : Nat) (k : Ring) : (s.setRing r k).chipCounters = s.chipCounters := rfl
@[simp] theorem setRing_chipCalSets (s : State) (r : Nat) (k : Ring) : (s.setRing r k).chipCalSets = s.chipCalSets := rfl
@[simp] theorem setRing_scope (s : State) (r : Nat) (k : Ring) : (s.setRing r k).scope = s.scope := rfl
@[simp] theorem setRing_challenge (s : State) (r : Nat) (k : Ring) : (s.setRing r k).challenge = s.challenge := rfl
@[simp] theorem setRing_extensions (s : State) (r : Nat) (k : Ring) : (s.setRing r k).extensions = s.extensions := rfl
@[simp] theorem setRing_chain (s : State) (r : Nat) (k : Ring) : (s.setRing r k).chain = s.chain := rfl
@[simp] theorem setRing_chainCount (s : State) (r : Nat) (k : Ring) : (s.setRing r k).chainCount = s.chainCount := rfl
@[simp] theorem setRing_perturb (s : State) (r : Nat) (k : Ring) : (s.setRing r k).perturb = s.perturb := rfl
@[simp] theorem setRing_withheld (s : State) (r : Nat) (k : Ring) : (s.setRing r k).withheld = s.withheld := rfl
@[simp] theorem setRing_bottomTree (s : State) (r : Nat) (k : Ring) : (s.setRing r k).bottomTree = s.bottomTree := rfl
@[simp] theorem setRing_bottomLeaf (s : State) (r : Nat) (k : Ring) : (s.setRing r k).bottomLeaf = s.bottomLeaf := rfl
@[simp] theorem setRing_bottomDraw (s : State) (r : Nat) (k : Ring) : (s.setRing r k).bottomDraw = s.bottomDraw := rfl
@[simp] theorem setRing_bootLeaf (s : State) (r : Nat) (k : Ring) : (s.setRing r k).bootLeaf = s.bootLeaf := rfl
@[simp] theorem setRing_keyContext (s : State) (r : Nat) (k : Ring) : (s.setRing r k).keyContext = s.keyContext := rfl
@[simp] theorem setRing_jtagIr (s : State) (r : Nat) (k : Ring) : (s.setRing r k).jtagIr = s.jtagIr := rfl
@[simp] theorem setRing_boundary (s : State) (r : Nat) (k : Ring) : (s.setRing r k).boundary = s.boundary := rfl
@[simp] theorem setRing_extestPins (s : State) (r : Nat) (k : Ring) : (s.setRing r k).extestPins = s.extestPins := rfl
@[simp] theorem setRing_tdo (s : State) (r : Nat) (k : Ring) : (s.setRing r k).tdo = s.tdo := rfl
@[simp] theorem setRing_smbus (s : State) (r : Nat) (k : Ring) : (s.setRing r k).smbus = s.smbus := rfl
@[simp] theorem setRing_town (s : State) (r : Nat) (k : Ring) : (s.setRing r k).town = s.town := rfl
@[simp] theorem setRing_chipId (s : State) (r : Nat) (k : Ring) : (s.setRing r k).chipId = s.chipId := rfl
@[simp] theorem setRing_links (s : State) (r : Nat) (k : Ring) : (s.setRing r k).links = s.links := rfl
@[simp] theorem setRing_routes (s : State) (r : Nat) (k : Ring) : (s.setRing r k).routes = s.routes := rfl
@[simp] theorem setRing_routesShadow (s : State) (r : Nat) (k : Ring) : (s.setRing r k).routesShadow = s.routesShadow := rfl
@[simp] theorem setRing_swapAt (s : State) (r : Nat) (k : Ring) : (s.setRing r k).swapAt = s.swapAt := rfl
@[simp] theorem setRing_outbox (s : State) (r : Nat) (k : Ring) : (s.setRing r k).outbox = s.outbox := rfl
@[simp] theorem setRing_seen (s : State) (r : Nat) (k : Ring) : (s.setRing r k).seen = s.seen := rfl
@[simp] theorem setRing_messages (s : State) (r : Nat) (k : Ring) : (s.setRing r k).messages = s.messages := rfl
@[simp] theorem setRing_jobs (s : State) (r : Nat) (k : Ring) : (s.setRing r k).jobs = s.jobs := rfl
@[simp] theorem setRing_contexts (s : State) (r : Nat) (k : Ring) : (s.setRing r k).contexts = s.contexts := rfl
@[simp] theorem setRing_plans (s : State) (r : Nat) (k : Ring) : (s.setRing r k).plans = s.plans := rfl
@[simp] theorem setRing_directory (s : State) (r : Nat) (k : Ring) : (s.setRing r k).directory = s.directory := rfl
@[simp] theorem setRing_engine (s : State) (r : Nat) (k : Ring) : (s.setRing r k).engine = s.engine := rfl
@[simp] theorem setRing_engineQueue (s : State) (r : Nat) (k : Ring) : (s.setRing r k).engineQueue = s.engineQueue := rfl
@[simp] theorem setRing_scrubNext (s : State) (r : Nat) (k : Ring) : (s.setRing r k).scrubNext = s.scrubNext := rfl
@[simp] theorem setRing_core_of (s : State) (r : Nat) (k : Ring) (i : Nat) : (s.setRing r k).core i = s.core i := rfl
@[simp] theorem setRing_company_of (s : State) (r : Nat) (k : Ring) (i : Nat) : (s.setRing r k).company i = s.company i := rfl
@[simp] theorem setRing_channel_of (s : State) (r : Nat) (k : Ring) (i : Nat) : (s.setRing r k).channel i = s.channel i := rfl
@[simp] theorem setRing_link_of (s : State) (r : Nat) (k : Ring) (i : Nat) : (s.setRing r k).link i = s.link i := rfl
@[simp] theorem setRing_job_of (s : State) (r : Nat) (k : Ring) (i : Nat) : (s.setRing r k).job i = s.job i := rfl
@[simp] theorem setRing_context_of (s : State) (r : Nat) (k : Ring) (i : Nat) : (s.setRing r k).context i = s.context i := rfl
@[simp] theorem setRing_now_of (s : State) (r : Nat) (k : Ring) : (s.setRing r k).now = s.now := rfl

/-! ### updRing -/

@[simp] theorem updRing_pending (s : State) (r : Nat) (f : Ring → Ring) : (s.updRing r f).pending = s.pending := rfl
@[simp] theorem updRing_fresh (s : State) (r : Nat) (f : Ring → Ring) : (s.updRing r f).fresh = s.fresh := rfl
@[simp] theorem updRing_part (s : State) (r : Nat) (f : Ring → Ring) : (s.updRing r f).part = s.part := rfl
@[simp] theorem updRing_mem (s : State) (r : Nat) (f : Ring → Ring) : (s.updRing r f).mem = s.mem := rfl
@[simp] theorem updRing_upsets (s : State) (r : Nat) (f : Ring → Ring) : (s.updRing r f).upsets = s.upsets := rfl
@[simp] theorem updRing_sram (s : State) (r : Nat) (f : Ring → Ring) : (s.updRing r f).sram = s.sram := rfl
@[simp] theorem updRing_cores (s : State) (r : Nat) (f : Ring → Ring) : (s.updRing r f).cores = s.cores := rfl
@[simp] theorem updRing_companies (s : State) (r : Nat) (f : Ring → Ring) : (s.updRing r f).companies = s.companies := rfl
@[simp] theorem updRing_street (s : State) (r : Nat) (f : Ring → Ring) : (s.updRing r f).street = s.street := rfl
@[simp] theorem updRing_carriages (s : State) (r : Nat) (f : Ring → Ring) : (s.updRing r f).carriages = s.carriages := rfl
@[simp] theorem updRing_nextCarriage (s : State) (r : Nat) (f : Ring → Ring) : (s.updRing r f).nextCarriage = s.nextCarriage := rfl
@[simp] theorem updRing_interface (s : State) (r : Nat) (f : Ring → Ring) : (s.updRing r f).interface = s.interface := rfl
@[simp] theorem updRing_ready (s : State) (r : Nat) (f : Ring → Ring) : (s.updRing r f).ready = s.ready := rfl
@[simp] theorem updRing_fatal (s : State) (r : Nat) (f : Ring → Ring) : (s.updRing r f).fatal = s.fatal := rfl
@[simp] theorem updRing_attnMask (s : State) (r : Nat) (f : Ring → Ring) : (s.updRing r f).attnMask = s.attnMask := rfl
@[simp] theorem updRing_resetHeld (s : State) (r : Nat) (f : Ring → Ring) : (s.updRing r f).resetHeld = s.resetHeld := rfl
@[simp] theorem updRing_railsBroken (s : State) (r : Nat) (f : Ring → Ring) : (s.updRing r f).railsBroken = s.railsBroken := rfl
@[simp] theorem updRing_hostReset (s : State) (r : Nat) (f : Ring → Ring) : (s.updRing r f).hostReset = s.hostReset := rfl
@[simp] theorem updRing_channels (s : State) (r : Nat) (f : Ring → Ring) : (s.updRing r f).channels = s.channels := rfl
@[simp] theorem updRing_fatalRecord (s : State) (r : Nat) (f : Ring → Ring) : (s.updRing r f).fatalRecord = s.fatalRecord := rfl
@[simp] theorem updRing_log (s : State) (r : Nat) (f : Ring → Ring) : (s.updRing r f).log = s.log := rfl
@[simp] theorem updRing_power (s : State) (r : Nat) (f : Ring → Ring) : (s.updRing r f).power = s.power := rfl
@[simp] theorem updRing_transition (s : State) (r : Nat) (f : Ring → Ring) : (s.updRing r f).transition = s.transition := rfl
@[simp] theorem updRing_zeroing (s : State) (r : Nat) (f : Ring → Ring) : (s.updRing r f).zeroing = s.zeroing := rfl
@[simp] theorem updRing_waking (s : State) (r : Nat) (f : Ring → Ring) : (s.updRing r f).waking = s.waking := rfl
@[simp] theorem updRing_wakeSince (s : State) (r : Nat) (f : Ring → Ring) : (s.updRing r f).wakeSince = s.wakeSince := rfl
@[simp] theorem updRing_sustained (s : State) (r : Nat) (f : Ring → Ring) : (s.updRing r f).sustained = s.sustained := rfl
@[simp] theorem updRing_peak (s : State) (r : Nat) (f : Ring → Ring) : (s.updRing r f).peak = s.peak := rfl
@[simp] theorem updRing_ramp (s : State) (r : Nat) (f : Ring → Ring) : (s.updRing r f).ramp = s.ramp := rfl
@[simp] theorem updRing_fuseMax (s : State) (r : Nat) (f : Ring → Ring) : (s.updRing r f).fuseMax = s.fuseMax := rfl
@[simp] theorem updRing_running (s : State) (r : Nat) (f : Ring → Ring) : (s.updRing r f).running = s.running := rfl
@[simp] theorem updRing_stretch (s : State) (r : Nat) (f : Ring → Ring) : (s.updRing r f).stretch = s.stretch := rfl
@[simp] theorem updRing_triggers (s : State) (r : Nat) (f : Ring → Ring) : (s.updRing r f).triggers = s.triggers := rfl
@[simp] theorem updRing_stretchAt (s : State) (r : Nat) (f : Ring → Ring) : (s.updRing r f).stretchAt = s.stretchAt := rfl
@[simp] theorem updRing_stretchSince (s : State) (r : Nat) (f : Ring → Ring) : (s.updRing r f).stretchSince = s.stretchSince := rfl
@[simp] theorem updRing_riseArmed (s : State) (r : Nat) (f : Ring → Ring) : (s.updRing r f).riseArmed = s.riseArmed := rfl
@[simp] theorem updRing_fellAt (s : State) (r : Nat) (f : Ring → Ring) : (s.updRing r f).fellAt = s.fellAt := rfl
@[simp] theorem updRing_temps (s : State) (r : Nat) (f : Ring → Ring) : (s.updRing r f).temps = s.temps := rfl
@[simp] theorem updRing_watts (s : State) (r : Nat) (f : Ring → Ring) : (s.updRing r f).watts = s.watts := rfl
@[simp] theorem updRing_overSustained (s : State) (r : Nat) (f : Ring → Ring) : (s.updRing r f).overSustained = s.overSustained := rfl
@[simp] theorem updRing_districtCounters (s : State) (r : Nat) (f : Ring → Ring) : (s.updRing r f).districtCounters = s.districtCounters := rfl
@[simp] theorem updRing_chipCounters (s : State) (r : Nat) (f : Ring → Ring) : (s.updRing r f).chipCounters = s.chipCounters := rfl
@[simp] theorem updRing_chipCalSets (s : State) (r : Nat) (f : Ring → Ring) : (s.updRing r f).chipCalSets = s.chipCalSets := rfl
@[simp] theorem updRing_scope (s : State) (r : Nat) (f : Ring → Ring) : (s.updRing r f).scope = s.scope := rfl
@[simp] theorem updRing_challenge (s : State) (r : Nat) (f : Ring → Ring) : (s.updRing r f).challenge = s.challenge := rfl
@[simp] theorem updRing_extensions (s : State) (r : Nat) (f : Ring → Ring) : (s.updRing r f).extensions = s.extensions := rfl
@[simp] theorem updRing_chain (s : State) (r : Nat) (f : Ring → Ring) : (s.updRing r f).chain = s.chain := rfl
@[simp] theorem updRing_chainCount (s : State) (r : Nat) (f : Ring → Ring) : (s.updRing r f).chainCount = s.chainCount := rfl
@[simp] theorem updRing_perturb (s : State) (r : Nat) (f : Ring → Ring) : (s.updRing r f).perturb = s.perturb := rfl
@[simp] theorem updRing_withheld (s : State) (r : Nat) (f : Ring → Ring) : (s.updRing r f).withheld = s.withheld := rfl
@[simp] theorem updRing_bottomTree (s : State) (r : Nat) (f : Ring → Ring) : (s.updRing r f).bottomTree = s.bottomTree := rfl
@[simp] theorem updRing_bottomLeaf (s : State) (r : Nat) (f : Ring → Ring) : (s.updRing r f).bottomLeaf = s.bottomLeaf := rfl
@[simp] theorem updRing_bottomDraw (s : State) (r : Nat) (f : Ring → Ring) : (s.updRing r f).bottomDraw = s.bottomDraw := rfl
@[simp] theorem updRing_bootLeaf (s : State) (r : Nat) (f : Ring → Ring) : (s.updRing r f).bootLeaf = s.bootLeaf := rfl
@[simp] theorem updRing_keyContext (s : State) (r : Nat) (f : Ring → Ring) : (s.updRing r f).keyContext = s.keyContext := rfl
@[simp] theorem updRing_jtagIr (s : State) (r : Nat) (f : Ring → Ring) : (s.updRing r f).jtagIr = s.jtagIr := rfl
@[simp] theorem updRing_boundary (s : State) (r : Nat) (f : Ring → Ring) : (s.updRing r f).boundary = s.boundary := rfl
@[simp] theorem updRing_extestPins (s : State) (r : Nat) (f : Ring → Ring) : (s.updRing r f).extestPins = s.extestPins := rfl
@[simp] theorem updRing_tdo (s : State) (r : Nat) (f : Ring → Ring) : (s.updRing r f).tdo = s.tdo := rfl
@[simp] theorem updRing_smbus (s : State) (r : Nat) (f : Ring → Ring) : (s.updRing r f).smbus = s.smbus := rfl
@[simp] theorem updRing_town (s : State) (r : Nat) (f : Ring → Ring) : (s.updRing r f).town = s.town := rfl
@[simp] theorem updRing_chipId (s : State) (r : Nat) (f : Ring → Ring) : (s.updRing r f).chipId = s.chipId := rfl
@[simp] theorem updRing_links (s : State) (r : Nat) (f : Ring → Ring) : (s.updRing r f).links = s.links := rfl
@[simp] theorem updRing_routes (s : State) (r : Nat) (f : Ring → Ring) : (s.updRing r f).routes = s.routes := rfl
@[simp] theorem updRing_routesShadow (s : State) (r : Nat) (f : Ring → Ring) : (s.updRing r f).routesShadow = s.routesShadow := rfl
@[simp] theorem updRing_swapAt (s : State) (r : Nat) (f : Ring → Ring) : (s.updRing r f).swapAt = s.swapAt := rfl
@[simp] theorem updRing_outbox (s : State) (r : Nat) (f : Ring → Ring) : (s.updRing r f).outbox = s.outbox := rfl
@[simp] theorem updRing_seen (s : State) (r : Nat) (f : Ring → Ring) : (s.updRing r f).seen = s.seen := rfl
@[simp] theorem updRing_messages (s : State) (r : Nat) (f : Ring → Ring) : (s.updRing r f).messages = s.messages := rfl
@[simp] theorem updRing_jobs (s : State) (r : Nat) (f : Ring → Ring) : (s.updRing r f).jobs = s.jobs := rfl
@[simp] theorem updRing_contexts (s : State) (r : Nat) (f : Ring → Ring) : (s.updRing r f).contexts = s.contexts := rfl
@[simp] theorem updRing_plans (s : State) (r : Nat) (f : Ring → Ring) : (s.updRing r f).plans = s.plans := rfl
@[simp] theorem updRing_directory (s : State) (r : Nat) (f : Ring → Ring) : (s.updRing r f).directory = s.directory := rfl
@[simp] theorem updRing_engine (s : State) (r : Nat) (f : Ring → Ring) : (s.updRing r f).engine = s.engine := rfl
@[simp] theorem updRing_engineQueue (s : State) (r : Nat) (f : Ring → Ring) : (s.updRing r f).engineQueue = s.engineQueue := rfl
@[simp] theorem updRing_scrubNext (s : State) (r : Nat) (f : Ring → Ring) : (s.updRing r f).scrubNext = s.scrubNext := rfl
@[simp] theorem updRing_core_of (s : State) (r : Nat) (f : Ring → Ring) (i : Nat) : (s.updRing r f).core i = s.core i := rfl
@[simp] theorem updRing_company_of (s : State) (r : Nat) (f : Ring → Ring) (i : Nat) : (s.updRing r f).company i = s.company i := rfl
@[simp] theorem updRing_channel_of (s : State) (r : Nat) (f : Ring → Ring) (i : Nat) : (s.updRing r f).channel i = s.channel i := rfl
@[simp] theorem updRing_link_of (s : State) (r : Nat) (f : Ring → Ring) (i : Nat) : (s.updRing r f).link i = s.link i := rfl
@[simp] theorem updRing_job_of (s : State) (r : Nat) (f : Ring → Ring) (i : Nat) : (s.updRing r f).job i = s.job i := rfl
@[simp] theorem updRing_context_of (s : State) (r : Nat) (f : Ring → Ring) (i : Nat) : (s.updRing r f).context i = s.context i := rfl
@[simp] theorem updRing_now_of (s : State) (r : Nat) (f : Ring → Ring) : (s.updRing r f).now = s.now := rfl

/-! ### setChannel -/

@[simp] theorem setChannel_pending (s : State) (c : Nat) (k : Channel) : (s.setChannel c k).pending = s.pending := rfl
@[simp] theorem setChannel_fresh (s : State) (c : Nat) (k : Channel) : (s.setChannel c k).fresh = s.fresh := rfl
@[simp] theorem setChannel_part (s : State) (c : Nat) (k : Channel) : (s.setChannel c k).part = s.part := rfl
@[simp] theorem setChannel_mem (s : State) (c : Nat) (k : Channel) : (s.setChannel c k).mem = s.mem := rfl
@[simp] theorem setChannel_upsets (s : State) (c : Nat) (k : Channel) : (s.setChannel c k).upsets = s.upsets := rfl
@[simp] theorem setChannel_sram (s : State) (c : Nat) (k : Channel) : (s.setChannel c k).sram = s.sram := rfl
@[simp] theorem setChannel_cores (s : State) (c : Nat) (k : Channel) : (s.setChannel c k).cores = s.cores := rfl
@[simp] theorem setChannel_companies (s : State) (c : Nat) (k : Channel) : (s.setChannel c k).companies = s.companies := rfl
@[simp] theorem setChannel_street (s : State) (c : Nat) (k : Channel) : (s.setChannel c k).street = s.street := rfl
@[simp] theorem setChannel_carriages (s : State) (c : Nat) (k : Channel) : (s.setChannel c k).carriages = s.carriages := rfl
@[simp] theorem setChannel_nextCarriage (s : State) (c : Nat) (k : Channel) : (s.setChannel c k).nextCarriage = s.nextCarriage := rfl
@[simp] theorem setChannel_rings (s : State) (c : Nat) (k : Channel) : (s.setChannel c k).rings = s.rings := rfl
@[simp] theorem setChannel_interface (s : State) (c : Nat) (k : Channel) : (s.setChannel c k).interface = s.interface := rfl
@[simp] theorem setChannel_ready (s : State) (c : Nat) (k : Channel) : (s.setChannel c k).ready = s.ready := rfl
@[simp] theorem setChannel_fatal (s : State) (c : Nat) (k : Channel) : (s.setChannel c k).fatal = s.fatal := rfl
@[simp] theorem setChannel_attnMask (s : State) (c : Nat) (k : Channel) : (s.setChannel c k).attnMask = s.attnMask := rfl
@[simp] theorem setChannel_resetHeld (s : State) (c : Nat) (k : Channel) : (s.setChannel c k).resetHeld = s.resetHeld := rfl
@[simp] theorem setChannel_railsBroken (s : State) (c : Nat) (k : Channel) : (s.setChannel c k).railsBroken = s.railsBroken := rfl
@[simp] theorem setChannel_hostReset (s : State) (c : Nat) (k : Channel) : (s.setChannel c k).hostReset = s.hostReset := rfl
@[simp] theorem setChannel_fatalRecord (s : State) (c : Nat) (k : Channel) : (s.setChannel c k).fatalRecord = s.fatalRecord := rfl
@[simp] theorem setChannel_log (s : State) (c : Nat) (k : Channel) : (s.setChannel c k).log = s.log := rfl
@[simp] theorem setChannel_power (s : State) (c : Nat) (k : Channel) : (s.setChannel c k).power = s.power := rfl
@[simp] theorem setChannel_transition (s : State) (c : Nat) (k : Channel) : (s.setChannel c k).transition = s.transition := rfl
@[simp] theorem setChannel_zeroing (s : State) (c : Nat) (k : Channel) : (s.setChannel c k).zeroing = s.zeroing := rfl
@[simp] theorem setChannel_waking (s : State) (c : Nat) (k : Channel) : (s.setChannel c k).waking = s.waking := rfl
@[simp] theorem setChannel_wakeSince (s : State) (c : Nat) (k : Channel) : (s.setChannel c k).wakeSince = s.wakeSince := rfl
@[simp] theorem setChannel_sustained (s : State) (c : Nat) (k : Channel) : (s.setChannel c k).sustained = s.sustained := rfl
@[simp] theorem setChannel_peak (s : State) (c : Nat) (k : Channel) : (s.setChannel c k).peak = s.peak := rfl
@[simp] theorem setChannel_ramp (s : State) (c : Nat) (k : Channel) : (s.setChannel c k).ramp = s.ramp := rfl
@[simp] theorem setChannel_fuseMax (s : State) (c : Nat) (k : Channel) : (s.setChannel c k).fuseMax = s.fuseMax := rfl
@[simp] theorem setChannel_running (s : State) (c : Nat) (k : Channel) : (s.setChannel c k).running = s.running := rfl
@[simp] theorem setChannel_stretch (s : State) (c : Nat) (k : Channel) : (s.setChannel c k).stretch = s.stretch := rfl
@[simp] theorem setChannel_triggers (s : State) (c : Nat) (k : Channel) : (s.setChannel c k).triggers = s.triggers := rfl
@[simp] theorem setChannel_stretchAt (s : State) (c : Nat) (k : Channel) : (s.setChannel c k).stretchAt = s.stretchAt := rfl
@[simp] theorem setChannel_stretchSince (s : State) (c : Nat) (k : Channel) : (s.setChannel c k).stretchSince = s.stretchSince := rfl
@[simp] theorem setChannel_riseArmed (s : State) (c : Nat) (k : Channel) : (s.setChannel c k).riseArmed = s.riseArmed := rfl
@[simp] theorem setChannel_fellAt (s : State) (c : Nat) (k : Channel) : (s.setChannel c k).fellAt = s.fellAt := rfl
@[simp] theorem setChannel_temps (s : State) (c : Nat) (k : Channel) : (s.setChannel c k).temps = s.temps := rfl
@[simp] theorem setChannel_watts (s : State) (c : Nat) (k : Channel) : (s.setChannel c k).watts = s.watts := rfl
@[simp] theorem setChannel_overSustained (s : State) (c : Nat) (k : Channel) : (s.setChannel c k).overSustained = s.overSustained := rfl
@[simp] theorem setChannel_districtCounters (s : State) (c : Nat) (k : Channel) : (s.setChannel c k).districtCounters = s.districtCounters := rfl
@[simp] theorem setChannel_chipCounters (s : State) (c : Nat) (k : Channel) : (s.setChannel c k).chipCounters = s.chipCounters := rfl
@[simp] theorem setChannel_chipCalSets (s : State) (c : Nat) (k : Channel) : (s.setChannel c k).chipCalSets = s.chipCalSets := rfl
@[simp] theorem setChannel_scope (s : State) (c : Nat) (k : Channel) : (s.setChannel c k).scope = s.scope := rfl
@[simp] theorem setChannel_challenge (s : State) (c : Nat) (k : Channel) : (s.setChannel c k).challenge = s.challenge := rfl
@[simp] theorem setChannel_extensions (s : State) (c : Nat) (k : Channel) : (s.setChannel c k).extensions = s.extensions := rfl
@[simp] theorem setChannel_chain (s : State) (c : Nat) (k : Channel) : (s.setChannel c k).chain = s.chain := rfl
@[simp] theorem setChannel_chainCount (s : State) (c : Nat) (k : Channel) : (s.setChannel c k).chainCount = s.chainCount := rfl
@[simp] theorem setChannel_perturb (s : State) (c : Nat) (k : Channel) : (s.setChannel c k).perturb = s.perturb := rfl
@[simp] theorem setChannel_withheld (s : State) (c : Nat) (k : Channel) : (s.setChannel c k).withheld = s.withheld := rfl
@[simp] theorem setChannel_bottomTree (s : State) (c : Nat) (k : Channel) : (s.setChannel c k).bottomTree = s.bottomTree := rfl
@[simp] theorem setChannel_bottomLeaf (s : State) (c : Nat) (k : Channel) : (s.setChannel c k).bottomLeaf = s.bottomLeaf := rfl
@[simp] theorem setChannel_bottomDraw (s : State) (c : Nat) (k : Channel) : (s.setChannel c k).bottomDraw = s.bottomDraw := rfl
@[simp] theorem setChannel_bootLeaf (s : State) (c : Nat) (k : Channel) : (s.setChannel c k).bootLeaf = s.bootLeaf := rfl
@[simp] theorem setChannel_keyContext (s : State) (c : Nat) (k : Channel) : (s.setChannel c k).keyContext = s.keyContext := rfl
@[simp] theorem setChannel_jtagIr (s : State) (c : Nat) (k : Channel) : (s.setChannel c k).jtagIr = s.jtagIr := rfl
@[simp] theorem setChannel_boundary (s : State) (c : Nat) (k : Channel) : (s.setChannel c k).boundary = s.boundary := rfl
@[simp] theorem setChannel_extestPins (s : State) (c : Nat) (k : Channel) : (s.setChannel c k).extestPins = s.extestPins := rfl
@[simp] theorem setChannel_tdo (s : State) (c : Nat) (k : Channel) : (s.setChannel c k).tdo = s.tdo := rfl
@[simp] theorem setChannel_smbus (s : State) (c : Nat) (k : Channel) : (s.setChannel c k).smbus = s.smbus := rfl
@[simp] theorem setChannel_town (s : State) (c : Nat) (k : Channel) : (s.setChannel c k).town = s.town := rfl
@[simp] theorem setChannel_chipId (s : State) (c : Nat) (k : Channel) : (s.setChannel c k).chipId = s.chipId := rfl
@[simp] theorem setChannel_links (s : State) (c : Nat) (k : Channel) : (s.setChannel c k).links = s.links := rfl
@[simp] theorem setChannel_routes (s : State) (c : Nat) (k : Channel) : (s.setChannel c k).routes = s.routes := rfl
@[simp] theorem setChannel_routesShadow (s : State) (c : Nat) (k : Channel) : (s.setChannel c k).routesShadow = s.routesShadow := rfl
@[simp] theorem setChannel_swapAt (s : State) (c : Nat) (k : Channel) : (s.setChannel c k).swapAt = s.swapAt := rfl
@[simp] theorem setChannel_outbox (s : State) (c : Nat) (k : Channel) : (s.setChannel c k).outbox = s.outbox := rfl
@[simp] theorem setChannel_seen (s : State) (c : Nat) (k : Channel) : (s.setChannel c k).seen = s.seen := rfl
@[simp] theorem setChannel_messages (s : State) (c : Nat) (k : Channel) : (s.setChannel c k).messages = s.messages := rfl
@[simp] theorem setChannel_jobs (s : State) (c : Nat) (k : Channel) : (s.setChannel c k).jobs = s.jobs := rfl
@[simp] theorem setChannel_contexts (s : State) (c : Nat) (k : Channel) : (s.setChannel c k).contexts = s.contexts := rfl
@[simp] theorem setChannel_plans (s : State) (c : Nat) (k : Channel) : (s.setChannel c k).plans = s.plans := rfl
@[simp] theorem setChannel_directory (s : State) (c : Nat) (k : Channel) : (s.setChannel c k).directory = s.directory := rfl
@[simp] theorem setChannel_engine (s : State) (c : Nat) (k : Channel) : (s.setChannel c k).engine = s.engine := rfl
@[simp] theorem setChannel_engineQueue (s : State) (c : Nat) (k : Channel) : (s.setChannel c k).engineQueue = s.engineQueue := rfl
@[simp] theorem setChannel_scrubNext (s : State) (c : Nat) (k : Channel) : (s.setChannel c k).scrubNext = s.scrubNext := rfl
@[simp] theorem setChannel_core_of (s : State) (c : Nat) (k : Channel) (i : Nat) : (s.setChannel c k).core i = s.core i := rfl
@[simp] theorem setChannel_company_of (s : State) (c : Nat) (k : Channel) (i : Nat) : (s.setChannel c k).company i = s.company i := rfl
@[simp] theorem setChannel_ring_of (s : State) (c : Nat) (k : Channel) (i : Nat) : (s.setChannel c k).ring i = s.ring i := rfl
@[simp] theorem setChannel_link_of (s : State) (c : Nat) (k : Channel) (i : Nat) : (s.setChannel c k).link i = s.link i := rfl
@[simp] theorem setChannel_job_of (s : State) (c : Nat) (k : Channel) (i : Nat) : (s.setChannel c k).job i = s.job i := rfl
@[simp] theorem setChannel_context_of (s : State) (c : Nat) (k : Channel) (i : Nat) : (s.setChannel c k).context i = s.context i := rfl
@[simp] theorem setChannel_now_of (s : State) (c : Nat) (k : Channel) : (s.setChannel c k).now = s.now := rfl

/-! ### updChannel -/

@[simp] theorem updChannel_pending (s : State) (c : Nat) (f : Channel → Channel) : (s.updChannel c f).pending = s.pending := rfl
@[simp] theorem updChannel_fresh (s : State) (c : Nat) (f : Channel → Channel) : (s.updChannel c f).fresh = s.fresh := rfl
@[simp] theorem updChannel_part (s : State) (c : Nat) (f : Channel → Channel) : (s.updChannel c f).part = s.part := rfl
@[simp] theorem updChannel_mem (s : State) (c : Nat) (f : Channel → Channel) : (s.updChannel c f).mem = s.mem := rfl
@[simp] theorem updChannel_upsets (s : State) (c : Nat) (f : Channel → Channel) : (s.updChannel c f).upsets = s.upsets := rfl
@[simp] theorem updChannel_sram (s : State) (c : Nat) (f : Channel → Channel) : (s.updChannel c f).sram = s.sram := rfl
@[simp] theorem updChannel_cores (s : State) (c : Nat) (f : Channel → Channel) : (s.updChannel c f).cores = s.cores := rfl
@[simp] theorem updChannel_companies (s : State) (c : Nat) (f : Channel → Channel) : (s.updChannel c f).companies = s.companies := rfl
@[simp] theorem updChannel_street (s : State) (c : Nat) (f : Channel → Channel) : (s.updChannel c f).street = s.street := rfl
@[simp] theorem updChannel_carriages (s : State) (c : Nat) (f : Channel → Channel) : (s.updChannel c f).carriages = s.carriages := rfl
@[simp] theorem updChannel_nextCarriage (s : State) (c : Nat) (f : Channel → Channel) : (s.updChannel c f).nextCarriage = s.nextCarriage := rfl
@[simp] theorem updChannel_rings (s : State) (c : Nat) (f : Channel → Channel) : (s.updChannel c f).rings = s.rings := rfl
@[simp] theorem updChannel_interface (s : State) (c : Nat) (f : Channel → Channel) : (s.updChannel c f).interface = s.interface := rfl
@[simp] theorem updChannel_ready (s : State) (c : Nat) (f : Channel → Channel) : (s.updChannel c f).ready = s.ready := rfl
@[simp] theorem updChannel_fatal (s : State) (c : Nat) (f : Channel → Channel) : (s.updChannel c f).fatal = s.fatal := rfl
@[simp] theorem updChannel_attnMask (s : State) (c : Nat) (f : Channel → Channel) : (s.updChannel c f).attnMask = s.attnMask := rfl
@[simp] theorem updChannel_resetHeld (s : State) (c : Nat) (f : Channel → Channel) : (s.updChannel c f).resetHeld = s.resetHeld := rfl
@[simp] theorem updChannel_railsBroken (s : State) (c : Nat) (f : Channel → Channel) : (s.updChannel c f).railsBroken = s.railsBroken := rfl
@[simp] theorem updChannel_hostReset (s : State) (c : Nat) (f : Channel → Channel) : (s.updChannel c f).hostReset = s.hostReset := rfl
@[simp] theorem updChannel_fatalRecord (s : State) (c : Nat) (f : Channel → Channel) : (s.updChannel c f).fatalRecord = s.fatalRecord := rfl
@[simp] theorem updChannel_log (s : State) (c : Nat) (f : Channel → Channel) : (s.updChannel c f).log = s.log := rfl
@[simp] theorem updChannel_power (s : State) (c : Nat) (f : Channel → Channel) : (s.updChannel c f).power = s.power := rfl
@[simp] theorem updChannel_transition (s : State) (c : Nat) (f : Channel → Channel) : (s.updChannel c f).transition = s.transition := rfl
@[simp] theorem updChannel_zeroing (s : State) (c : Nat) (f : Channel → Channel) : (s.updChannel c f).zeroing = s.zeroing := rfl
@[simp] theorem updChannel_waking (s : State) (c : Nat) (f : Channel → Channel) : (s.updChannel c f).waking = s.waking := rfl
@[simp] theorem updChannel_wakeSince (s : State) (c : Nat) (f : Channel → Channel) : (s.updChannel c f).wakeSince = s.wakeSince := rfl
@[simp] theorem updChannel_sustained (s : State) (c : Nat) (f : Channel → Channel) : (s.updChannel c f).sustained = s.sustained := rfl
@[simp] theorem updChannel_peak (s : State) (c : Nat) (f : Channel → Channel) : (s.updChannel c f).peak = s.peak := rfl
@[simp] theorem updChannel_ramp (s : State) (c : Nat) (f : Channel → Channel) : (s.updChannel c f).ramp = s.ramp := rfl
@[simp] theorem updChannel_fuseMax (s : State) (c : Nat) (f : Channel → Channel) : (s.updChannel c f).fuseMax = s.fuseMax := rfl
@[simp] theorem updChannel_running (s : State) (c : Nat) (f : Channel → Channel) : (s.updChannel c f).running = s.running := rfl
@[simp] theorem updChannel_stretch (s : State) (c : Nat) (f : Channel → Channel) : (s.updChannel c f).stretch = s.stretch := rfl
@[simp] theorem updChannel_triggers (s : State) (c : Nat) (f : Channel → Channel) : (s.updChannel c f).triggers = s.triggers := rfl
@[simp] theorem updChannel_stretchAt (s : State) (c : Nat) (f : Channel → Channel) : (s.updChannel c f).stretchAt = s.stretchAt := rfl
@[simp] theorem updChannel_stretchSince (s : State) (c : Nat) (f : Channel → Channel) : (s.updChannel c f).stretchSince = s.stretchSince := rfl
@[simp] theorem updChannel_riseArmed (s : State) (c : Nat) (f : Channel → Channel) : (s.updChannel c f).riseArmed = s.riseArmed := rfl
@[simp] theorem updChannel_fellAt (s : State) (c : Nat) (f : Channel → Channel) : (s.updChannel c f).fellAt = s.fellAt := rfl
@[simp] theorem updChannel_temps (s : State) (c : Nat) (f : Channel → Channel) : (s.updChannel c f).temps = s.temps := rfl
@[simp] theorem updChannel_watts (s : State) (c : Nat) (f : Channel → Channel) : (s.updChannel c f).watts = s.watts := rfl
@[simp] theorem updChannel_overSustained (s : State) (c : Nat) (f : Channel → Channel) : (s.updChannel c f).overSustained = s.overSustained := rfl
@[simp] theorem updChannel_districtCounters (s : State) (c : Nat) (f : Channel → Channel) : (s.updChannel c f).districtCounters = s.districtCounters := rfl
@[simp] theorem updChannel_chipCounters (s : State) (c : Nat) (f : Channel → Channel) : (s.updChannel c f).chipCounters = s.chipCounters := rfl
@[simp] theorem updChannel_chipCalSets (s : State) (c : Nat) (f : Channel → Channel) : (s.updChannel c f).chipCalSets = s.chipCalSets := rfl
@[simp] theorem updChannel_scope (s : State) (c : Nat) (f : Channel → Channel) : (s.updChannel c f).scope = s.scope := rfl
@[simp] theorem updChannel_challenge (s : State) (c : Nat) (f : Channel → Channel) : (s.updChannel c f).challenge = s.challenge := rfl
@[simp] theorem updChannel_extensions (s : State) (c : Nat) (f : Channel → Channel) : (s.updChannel c f).extensions = s.extensions := rfl
@[simp] theorem updChannel_chain (s : State) (c : Nat) (f : Channel → Channel) : (s.updChannel c f).chain = s.chain := rfl
@[simp] theorem updChannel_chainCount (s : State) (c : Nat) (f : Channel → Channel) : (s.updChannel c f).chainCount = s.chainCount := rfl
@[simp] theorem updChannel_perturb (s : State) (c : Nat) (f : Channel → Channel) : (s.updChannel c f).perturb = s.perturb := rfl
@[simp] theorem updChannel_withheld (s : State) (c : Nat) (f : Channel → Channel) : (s.updChannel c f).withheld = s.withheld := rfl
@[simp] theorem updChannel_bottomTree (s : State) (c : Nat) (f : Channel → Channel) : (s.updChannel c f).bottomTree = s.bottomTree := rfl
@[simp] theorem updChannel_bottomLeaf (s : State) (c : Nat) (f : Channel → Channel) : (s.updChannel c f).bottomLeaf = s.bottomLeaf := rfl
@[simp] theorem updChannel_bottomDraw (s : State) (c : Nat) (f : Channel → Channel) : (s.updChannel c f).bottomDraw = s.bottomDraw := rfl
@[simp] theorem updChannel_bootLeaf (s : State) (c : Nat) (f : Channel → Channel) : (s.updChannel c f).bootLeaf = s.bootLeaf := rfl
@[simp] theorem updChannel_keyContext (s : State) (c : Nat) (f : Channel → Channel) : (s.updChannel c f).keyContext = s.keyContext := rfl
@[simp] theorem updChannel_jtagIr (s : State) (c : Nat) (f : Channel → Channel) : (s.updChannel c f).jtagIr = s.jtagIr := rfl
@[simp] theorem updChannel_boundary (s : State) (c : Nat) (f : Channel → Channel) : (s.updChannel c f).boundary = s.boundary := rfl
@[simp] theorem updChannel_extestPins (s : State) (c : Nat) (f : Channel → Channel) : (s.updChannel c f).extestPins = s.extestPins := rfl
@[simp] theorem updChannel_tdo (s : State) (c : Nat) (f : Channel → Channel) : (s.updChannel c f).tdo = s.tdo := rfl
@[simp] theorem updChannel_smbus (s : State) (c : Nat) (f : Channel → Channel) : (s.updChannel c f).smbus = s.smbus := rfl
@[simp] theorem updChannel_town (s : State) (c : Nat) (f : Channel → Channel) : (s.updChannel c f).town = s.town := rfl
@[simp] theorem updChannel_chipId (s : State) (c : Nat) (f : Channel → Channel) : (s.updChannel c f).chipId = s.chipId := rfl
@[simp] theorem updChannel_links (s : State) (c : Nat) (f : Channel → Channel) : (s.updChannel c f).links = s.links := rfl
@[simp] theorem updChannel_routes (s : State) (c : Nat) (f : Channel → Channel) : (s.updChannel c f).routes = s.routes := rfl
@[simp] theorem updChannel_routesShadow (s : State) (c : Nat) (f : Channel → Channel) : (s.updChannel c f).routesShadow = s.routesShadow := rfl
@[simp] theorem updChannel_swapAt (s : State) (c : Nat) (f : Channel → Channel) : (s.updChannel c f).swapAt = s.swapAt := rfl
@[simp] theorem updChannel_outbox (s : State) (c : Nat) (f : Channel → Channel) : (s.updChannel c f).outbox = s.outbox := rfl
@[simp] theorem updChannel_seen (s : State) (c : Nat) (f : Channel → Channel) : (s.updChannel c f).seen = s.seen := rfl
@[simp] theorem updChannel_messages (s : State) (c : Nat) (f : Channel → Channel) : (s.updChannel c f).messages = s.messages := rfl
@[simp] theorem updChannel_jobs (s : State) (c : Nat) (f : Channel → Channel) : (s.updChannel c f).jobs = s.jobs := rfl
@[simp] theorem updChannel_contexts (s : State) (c : Nat) (f : Channel → Channel) : (s.updChannel c f).contexts = s.contexts := rfl
@[simp] theorem updChannel_plans (s : State) (c : Nat) (f : Channel → Channel) : (s.updChannel c f).plans = s.plans := rfl
@[simp] theorem updChannel_directory (s : State) (c : Nat) (f : Channel → Channel) : (s.updChannel c f).directory = s.directory := rfl
@[simp] theorem updChannel_engine (s : State) (c : Nat) (f : Channel → Channel) : (s.updChannel c f).engine = s.engine := rfl
@[simp] theorem updChannel_engineQueue (s : State) (c : Nat) (f : Channel → Channel) : (s.updChannel c f).engineQueue = s.engineQueue := rfl
@[simp] theorem updChannel_scrubNext (s : State) (c : Nat) (f : Channel → Channel) : (s.updChannel c f).scrubNext = s.scrubNext := rfl
@[simp] theorem updChannel_core_of (s : State) (c : Nat) (f : Channel → Channel) (i : Nat) : (s.updChannel c f).core i = s.core i := rfl
@[simp] theorem updChannel_company_of (s : State) (c : Nat) (f : Channel → Channel) (i : Nat) : (s.updChannel c f).company i = s.company i := rfl
@[simp] theorem updChannel_ring_of (s : State) (c : Nat) (f : Channel → Channel) (i : Nat) : (s.updChannel c f).ring i = s.ring i := rfl
@[simp] theorem updChannel_link_of (s : State) (c : Nat) (f : Channel → Channel) (i : Nat) : (s.updChannel c f).link i = s.link i := rfl
@[simp] theorem updChannel_job_of (s : State) (c : Nat) (f : Channel → Channel) (i : Nat) : (s.updChannel c f).job i = s.job i := rfl
@[simp] theorem updChannel_context_of (s : State) (c : Nat) (f : Channel → Channel) (i : Nat) : (s.updChannel c f).context i = s.context i := rfl
@[simp] theorem updChannel_now_of (s : State) (c : Nat) (f : Channel → Channel) : (s.updChannel c f).now = s.now := rfl

/-! ### setLink -/

@[simp] theorem setLink_pending (s : State) (l : Nat) (k : Link) : (s.setLink l k).pending = s.pending := rfl
@[simp] theorem setLink_fresh (s : State) (l : Nat) (k : Link) : (s.setLink l k).fresh = s.fresh := rfl
@[simp] theorem setLink_part (s : State) (l : Nat) (k : Link) : (s.setLink l k).part = s.part := rfl
@[simp] theorem setLink_mem (s : State) (l : Nat) (k : Link) : (s.setLink l k).mem = s.mem := rfl
@[simp] theorem setLink_upsets (s : State) (l : Nat) (k : Link) : (s.setLink l k).upsets = s.upsets := rfl
@[simp] theorem setLink_sram (s : State) (l : Nat) (k : Link) : (s.setLink l k).sram = s.sram := rfl
@[simp] theorem setLink_cores (s : State) (l : Nat) (k : Link) : (s.setLink l k).cores = s.cores := rfl
@[simp] theorem setLink_companies (s : State) (l : Nat) (k : Link) : (s.setLink l k).companies = s.companies := rfl
@[simp] theorem setLink_street (s : State) (l : Nat) (k : Link) : (s.setLink l k).street = s.street := rfl
@[simp] theorem setLink_carriages (s : State) (l : Nat) (k : Link) : (s.setLink l k).carriages = s.carriages := rfl
@[simp] theorem setLink_nextCarriage (s : State) (l : Nat) (k : Link) : (s.setLink l k).nextCarriage = s.nextCarriage := rfl
@[simp] theorem setLink_rings (s : State) (l : Nat) (k : Link) : (s.setLink l k).rings = s.rings := rfl
@[simp] theorem setLink_interface (s : State) (l : Nat) (k : Link) : (s.setLink l k).interface = s.interface := rfl
@[simp] theorem setLink_ready (s : State) (l : Nat) (k : Link) : (s.setLink l k).ready = s.ready := rfl
@[simp] theorem setLink_fatal (s : State) (l : Nat) (k : Link) : (s.setLink l k).fatal = s.fatal := rfl
@[simp] theorem setLink_attnMask (s : State) (l : Nat) (k : Link) : (s.setLink l k).attnMask = s.attnMask := rfl
@[simp] theorem setLink_resetHeld (s : State) (l : Nat) (k : Link) : (s.setLink l k).resetHeld = s.resetHeld := rfl
@[simp] theorem setLink_railsBroken (s : State) (l : Nat) (k : Link) : (s.setLink l k).railsBroken = s.railsBroken := rfl
@[simp] theorem setLink_hostReset (s : State) (l : Nat) (k : Link) : (s.setLink l k).hostReset = s.hostReset := rfl
@[simp] theorem setLink_channels (s : State) (l : Nat) (k : Link) : (s.setLink l k).channels = s.channels := rfl
@[simp] theorem setLink_fatalRecord (s : State) (l : Nat) (k : Link) : (s.setLink l k).fatalRecord = s.fatalRecord := rfl
@[simp] theorem setLink_log (s : State) (l : Nat) (k : Link) : (s.setLink l k).log = s.log := rfl
@[simp] theorem setLink_power (s : State) (l : Nat) (k : Link) : (s.setLink l k).power = s.power := rfl
@[simp] theorem setLink_transition (s : State) (l : Nat) (k : Link) : (s.setLink l k).transition = s.transition := rfl
@[simp] theorem setLink_zeroing (s : State) (l : Nat) (k : Link) : (s.setLink l k).zeroing = s.zeroing := rfl
@[simp] theorem setLink_waking (s : State) (l : Nat) (k : Link) : (s.setLink l k).waking = s.waking := rfl
@[simp] theorem setLink_wakeSince (s : State) (l : Nat) (k : Link) : (s.setLink l k).wakeSince = s.wakeSince := rfl
@[simp] theorem setLink_sustained (s : State) (l : Nat) (k : Link) : (s.setLink l k).sustained = s.sustained := rfl
@[simp] theorem setLink_peak (s : State) (l : Nat) (k : Link) : (s.setLink l k).peak = s.peak := rfl
@[simp] theorem setLink_ramp (s : State) (l : Nat) (k : Link) : (s.setLink l k).ramp = s.ramp := rfl
@[simp] theorem setLink_fuseMax (s : State) (l : Nat) (k : Link) : (s.setLink l k).fuseMax = s.fuseMax := rfl
@[simp] theorem setLink_running (s : State) (l : Nat) (k : Link) : (s.setLink l k).running = s.running := rfl
@[simp] theorem setLink_stretch (s : State) (l : Nat) (k : Link) : (s.setLink l k).stretch = s.stretch := rfl
@[simp] theorem setLink_triggers (s : State) (l : Nat) (k : Link) : (s.setLink l k).triggers = s.triggers := rfl
@[simp] theorem setLink_stretchAt (s : State) (l : Nat) (k : Link) : (s.setLink l k).stretchAt = s.stretchAt := rfl
@[simp] theorem setLink_stretchSince (s : State) (l : Nat) (k : Link) : (s.setLink l k).stretchSince = s.stretchSince := rfl
@[simp] theorem setLink_riseArmed (s : State) (l : Nat) (k : Link) : (s.setLink l k).riseArmed = s.riseArmed := rfl
@[simp] theorem setLink_fellAt (s : State) (l : Nat) (k : Link) : (s.setLink l k).fellAt = s.fellAt := rfl
@[simp] theorem setLink_temps (s : State) (l : Nat) (k : Link) : (s.setLink l k).temps = s.temps := rfl
@[simp] theorem setLink_watts (s : State) (l : Nat) (k : Link) : (s.setLink l k).watts = s.watts := rfl
@[simp] theorem setLink_overSustained (s : State) (l : Nat) (k : Link) : (s.setLink l k).overSustained = s.overSustained := rfl
@[simp] theorem setLink_districtCounters (s : State) (l : Nat) (k : Link) : (s.setLink l k).districtCounters = s.districtCounters := rfl
@[simp] theorem setLink_chipCounters (s : State) (l : Nat) (k : Link) : (s.setLink l k).chipCounters = s.chipCounters := rfl
@[simp] theorem setLink_chipCalSets (s : State) (l : Nat) (k : Link) : (s.setLink l k).chipCalSets = s.chipCalSets := rfl
@[simp] theorem setLink_scope (s : State) (l : Nat) (k : Link) : (s.setLink l k).scope = s.scope := rfl
@[simp] theorem setLink_challenge (s : State) (l : Nat) (k : Link) : (s.setLink l k).challenge = s.challenge := rfl
@[simp] theorem setLink_extensions (s : State) (l : Nat) (k : Link) : (s.setLink l k).extensions = s.extensions := rfl
@[simp] theorem setLink_chain (s : State) (l : Nat) (k : Link) : (s.setLink l k).chain = s.chain := rfl
@[simp] theorem setLink_chainCount (s : State) (l : Nat) (k : Link) : (s.setLink l k).chainCount = s.chainCount := rfl
@[simp] theorem setLink_perturb (s : State) (l : Nat) (k : Link) : (s.setLink l k).perturb = s.perturb := rfl
@[simp] theorem setLink_withheld (s : State) (l : Nat) (k : Link) : (s.setLink l k).withheld = s.withheld := rfl
@[simp] theorem setLink_bottomTree (s : State) (l : Nat) (k : Link) : (s.setLink l k).bottomTree = s.bottomTree := rfl
@[simp] theorem setLink_bottomLeaf (s : State) (l : Nat) (k : Link) : (s.setLink l k).bottomLeaf = s.bottomLeaf := rfl
@[simp] theorem setLink_bottomDraw (s : State) (l : Nat) (k : Link) : (s.setLink l k).bottomDraw = s.bottomDraw := rfl
@[simp] theorem setLink_bootLeaf (s : State) (l : Nat) (k : Link) : (s.setLink l k).bootLeaf = s.bootLeaf := rfl
@[simp] theorem setLink_keyContext (s : State) (l : Nat) (k : Link) : (s.setLink l k).keyContext = s.keyContext := rfl
@[simp] theorem setLink_jtagIr (s : State) (l : Nat) (k : Link) : (s.setLink l k).jtagIr = s.jtagIr := rfl
@[simp] theorem setLink_boundary (s : State) (l : Nat) (k : Link) : (s.setLink l k).boundary = s.boundary := rfl
@[simp] theorem setLink_extestPins (s : State) (l : Nat) (k : Link) : (s.setLink l k).extestPins = s.extestPins := rfl
@[simp] theorem setLink_tdo (s : State) (l : Nat) (k : Link) : (s.setLink l k).tdo = s.tdo := rfl
@[simp] theorem setLink_smbus (s : State) (l : Nat) (k : Link) : (s.setLink l k).smbus = s.smbus := rfl
@[simp] theorem setLink_town (s : State) (l : Nat) (k : Link) : (s.setLink l k).town = s.town := rfl
@[simp] theorem setLink_chipId (s : State) (l : Nat) (k : Link) : (s.setLink l k).chipId = s.chipId := rfl
@[simp] theorem setLink_routes (s : State) (l : Nat) (k : Link) : (s.setLink l k).routes = s.routes := rfl
@[simp] theorem setLink_routesShadow (s : State) (l : Nat) (k : Link) : (s.setLink l k).routesShadow = s.routesShadow := rfl
@[simp] theorem setLink_swapAt (s : State) (l : Nat) (k : Link) : (s.setLink l k).swapAt = s.swapAt := rfl
@[simp] theorem setLink_outbox (s : State) (l : Nat) (k : Link) : (s.setLink l k).outbox = s.outbox := rfl
@[simp] theorem setLink_seen (s : State) (l : Nat) (k : Link) : (s.setLink l k).seen = s.seen := rfl
@[simp] theorem setLink_messages (s : State) (l : Nat) (k : Link) : (s.setLink l k).messages = s.messages := rfl
@[simp] theorem setLink_jobs (s : State) (l : Nat) (k : Link) : (s.setLink l k).jobs = s.jobs := rfl
@[simp] theorem setLink_contexts (s : State) (l : Nat) (k : Link) : (s.setLink l k).contexts = s.contexts := rfl
@[simp] theorem setLink_plans (s : State) (l : Nat) (k : Link) : (s.setLink l k).plans = s.plans := rfl
@[simp] theorem setLink_directory (s : State) (l : Nat) (k : Link) : (s.setLink l k).directory = s.directory := rfl
@[simp] theorem setLink_engine (s : State) (l : Nat) (k : Link) : (s.setLink l k).engine = s.engine := rfl
@[simp] theorem setLink_engineQueue (s : State) (l : Nat) (k : Link) : (s.setLink l k).engineQueue = s.engineQueue := rfl
@[simp] theorem setLink_scrubNext (s : State) (l : Nat) (k : Link) : (s.setLink l k).scrubNext = s.scrubNext := rfl
@[simp] theorem setLink_core_of (s : State) (l : Nat) (k : Link) (i : Nat) : (s.setLink l k).core i = s.core i := rfl
@[simp] theorem setLink_company_of (s : State) (l : Nat) (k : Link) (i : Nat) : (s.setLink l k).company i = s.company i := rfl
@[simp] theorem setLink_ring_of (s : State) (l : Nat) (k : Link) (i : Nat) : (s.setLink l k).ring i = s.ring i := rfl
@[simp] theorem setLink_channel_of (s : State) (l : Nat) (k : Link) (i : Nat) : (s.setLink l k).channel i = s.channel i := rfl
@[simp] theorem setLink_job_of (s : State) (l : Nat) (k : Link) (i : Nat) : (s.setLink l k).job i = s.job i := rfl
@[simp] theorem setLink_context_of (s : State) (l : Nat) (k : Link) (i : Nat) : (s.setLink l k).context i = s.context i := rfl
@[simp] theorem setLink_now_of (s : State) (l : Nat) (k : Link) : (s.setLink l k).now = s.now := rfl

/-! ### updLink -/

@[simp] theorem updLink_pending (s : State) (l : Nat) (f : Link → Link) : (s.updLink l f).pending = s.pending := rfl
@[simp] theorem updLink_fresh (s : State) (l : Nat) (f : Link → Link) : (s.updLink l f).fresh = s.fresh := rfl
@[simp] theorem updLink_part (s : State) (l : Nat) (f : Link → Link) : (s.updLink l f).part = s.part := rfl
@[simp] theorem updLink_mem (s : State) (l : Nat) (f : Link → Link) : (s.updLink l f).mem = s.mem := rfl
@[simp] theorem updLink_upsets (s : State) (l : Nat) (f : Link → Link) : (s.updLink l f).upsets = s.upsets := rfl
@[simp] theorem updLink_sram (s : State) (l : Nat) (f : Link → Link) : (s.updLink l f).sram = s.sram := rfl
@[simp] theorem updLink_cores (s : State) (l : Nat) (f : Link → Link) : (s.updLink l f).cores = s.cores := rfl
@[simp] theorem updLink_companies (s : State) (l : Nat) (f : Link → Link) : (s.updLink l f).companies = s.companies := rfl
@[simp] theorem updLink_street (s : State) (l : Nat) (f : Link → Link) : (s.updLink l f).street = s.street := rfl
@[simp] theorem updLink_carriages (s : State) (l : Nat) (f : Link → Link) : (s.updLink l f).carriages = s.carriages := rfl
@[simp] theorem updLink_nextCarriage (s : State) (l : Nat) (f : Link → Link) : (s.updLink l f).nextCarriage = s.nextCarriage := rfl
@[simp] theorem updLink_rings (s : State) (l : Nat) (f : Link → Link) : (s.updLink l f).rings = s.rings := rfl
@[simp] theorem updLink_interface (s : State) (l : Nat) (f : Link → Link) : (s.updLink l f).interface = s.interface := rfl
@[simp] theorem updLink_ready (s : State) (l : Nat) (f : Link → Link) : (s.updLink l f).ready = s.ready := rfl
@[simp] theorem updLink_fatal (s : State) (l : Nat) (f : Link → Link) : (s.updLink l f).fatal = s.fatal := rfl
@[simp] theorem updLink_attnMask (s : State) (l : Nat) (f : Link → Link) : (s.updLink l f).attnMask = s.attnMask := rfl
@[simp] theorem updLink_resetHeld (s : State) (l : Nat) (f : Link → Link) : (s.updLink l f).resetHeld = s.resetHeld := rfl
@[simp] theorem updLink_railsBroken (s : State) (l : Nat) (f : Link → Link) : (s.updLink l f).railsBroken = s.railsBroken := rfl
@[simp] theorem updLink_hostReset (s : State) (l : Nat) (f : Link → Link) : (s.updLink l f).hostReset = s.hostReset := rfl
@[simp] theorem updLink_channels (s : State) (l : Nat) (f : Link → Link) : (s.updLink l f).channels = s.channels := rfl
@[simp] theorem updLink_fatalRecord (s : State) (l : Nat) (f : Link → Link) : (s.updLink l f).fatalRecord = s.fatalRecord := rfl
@[simp] theorem updLink_log (s : State) (l : Nat) (f : Link → Link) : (s.updLink l f).log = s.log := rfl
@[simp] theorem updLink_power (s : State) (l : Nat) (f : Link → Link) : (s.updLink l f).power = s.power := rfl
@[simp] theorem updLink_transition (s : State) (l : Nat) (f : Link → Link) : (s.updLink l f).transition = s.transition := rfl
@[simp] theorem updLink_zeroing (s : State) (l : Nat) (f : Link → Link) : (s.updLink l f).zeroing = s.zeroing := rfl
@[simp] theorem updLink_waking (s : State) (l : Nat) (f : Link → Link) : (s.updLink l f).waking = s.waking := rfl
@[simp] theorem updLink_wakeSince (s : State) (l : Nat) (f : Link → Link) : (s.updLink l f).wakeSince = s.wakeSince := rfl
@[simp] theorem updLink_sustained (s : State) (l : Nat) (f : Link → Link) : (s.updLink l f).sustained = s.sustained := rfl
@[simp] theorem updLink_peak (s : State) (l : Nat) (f : Link → Link) : (s.updLink l f).peak = s.peak := rfl
@[simp] theorem updLink_ramp (s : State) (l : Nat) (f : Link → Link) : (s.updLink l f).ramp = s.ramp := rfl
@[simp] theorem updLink_fuseMax (s : State) (l : Nat) (f : Link → Link) : (s.updLink l f).fuseMax = s.fuseMax := rfl
@[simp] theorem updLink_running (s : State) (l : Nat) (f : Link → Link) : (s.updLink l f).running = s.running := rfl
@[simp] theorem updLink_stretch (s : State) (l : Nat) (f : Link → Link) : (s.updLink l f).stretch = s.stretch := rfl
@[simp] theorem updLink_triggers (s : State) (l : Nat) (f : Link → Link) : (s.updLink l f).triggers = s.triggers := rfl
@[simp] theorem updLink_stretchAt (s : State) (l : Nat) (f : Link → Link) : (s.updLink l f).stretchAt = s.stretchAt := rfl
@[simp] theorem updLink_stretchSince (s : State) (l : Nat) (f : Link → Link) : (s.updLink l f).stretchSince = s.stretchSince := rfl
@[simp] theorem updLink_riseArmed (s : State) (l : Nat) (f : Link → Link) : (s.updLink l f).riseArmed = s.riseArmed := rfl
@[simp] theorem updLink_fellAt (s : State) (l : Nat) (f : Link → Link) : (s.updLink l f).fellAt = s.fellAt := rfl
@[simp] theorem updLink_temps (s : State) (l : Nat) (f : Link → Link) : (s.updLink l f).temps = s.temps := rfl
@[simp] theorem updLink_watts (s : State) (l : Nat) (f : Link → Link) : (s.updLink l f).watts = s.watts := rfl
@[simp] theorem updLink_overSustained (s : State) (l : Nat) (f : Link → Link) : (s.updLink l f).overSustained = s.overSustained := rfl
@[simp] theorem updLink_districtCounters (s : State) (l : Nat) (f : Link → Link) : (s.updLink l f).districtCounters = s.districtCounters := rfl
@[simp] theorem updLink_chipCounters (s : State) (l : Nat) (f : Link → Link) : (s.updLink l f).chipCounters = s.chipCounters := rfl
@[simp] theorem updLink_chipCalSets (s : State) (l : Nat) (f : Link → Link) : (s.updLink l f).chipCalSets = s.chipCalSets := rfl
@[simp] theorem updLink_scope (s : State) (l : Nat) (f : Link → Link) : (s.updLink l f).scope = s.scope := rfl
@[simp] theorem updLink_challenge (s : State) (l : Nat) (f : Link → Link) : (s.updLink l f).challenge = s.challenge := rfl
@[simp] theorem updLink_extensions (s : State) (l : Nat) (f : Link → Link) : (s.updLink l f).extensions = s.extensions := rfl
@[simp] theorem updLink_chain (s : State) (l : Nat) (f : Link → Link) : (s.updLink l f).chain = s.chain := rfl
@[simp] theorem updLink_chainCount (s : State) (l : Nat) (f : Link → Link) : (s.updLink l f).chainCount = s.chainCount := rfl
@[simp] theorem updLink_perturb (s : State) (l : Nat) (f : Link → Link) : (s.updLink l f).perturb = s.perturb := rfl
@[simp] theorem updLink_withheld (s : State) (l : Nat) (f : Link → Link) : (s.updLink l f).withheld = s.withheld := rfl
@[simp] theorem updLink_bottomTree (s : State) (l : Nat) (f : Link → Link) : (s.updLink l f).bottomTree = s.bottomTree := rfl
@[simp] theorem updLink_bottomLeaf (s : State) (l : Nat) (f : Link → Link) : (s.updLink l f).bottomLeaf = s.bottomLeaf := rfl
@[simp] theorem updLink_bottomDraw (s : State) (l : Nat) (f : Link → Link) : (s.updLink l f).bottomDraw = s.bottomDraw := rfl
@[simp] theorem updLink_bootLeaf (s : State) (l : Nat) (f : Link → Link) : (s.updLink l f).bootLeaf = s.bootLeaf := rfl
@[simp] theorem updLink_keyContext (s : State) (l : Nat) (f : Link → Link) : (s.updLink l f).keyContext = s.keyContext := rfl
@[simp] theorem updLink_jtagIr (s : State) (l : Nat) (f : Link → Link) : (s.updLink l f).jtagIr = s.jtagIr := rfl
@[simp] theorem updLink_boundary (s : State) (l : Nat) (f : Link → Link) : (s.updLink l f).boundary = s.boundary := rfl
@[simp] theorem updLink_extestPins (s : State) (l : Nat) (f : Link → Link) : (s.updLink l f).extestPins = s.extestPins := rfl
@[simp] theorem updLink_tdo (s : State) (l : Nat) (f : Link → Link) : (s.updLink l f).tdo = s.tdo := rfl
@[simp] theorem updLink_smbus (s : State) (l : Nat) (f : Link → Link) : (s.updLink l f).smbus = s.smbus := rfl
@[simp] theorem updLink_town (s : State) (l : Nat) (f : Link → Link) : (s.updLink l f).town = s.town := rfl
@[simp] theorem updLink_chipId (s : State) (l : Nat) (f : Link → Link) : (s.updLink l f).chipId = s.chipId := rfl
@[simp] theorem updLink_routes (s : State) (l : Nat) (f : Link → Link) : (s.updLink l f).routes = s.routes := rfl
@[simp] theorem updLink_routesShadow (s : State) (l : Nat) (f : Link → Link) : (s.updLink l f).routesShadow = s.routesShadow := rfl
@[simp] theorem updLink_swapAt (s : State) (l : Nat) (f : Link → Link) : (s.updLink l f).swapAt = s.swapAt := rfl
@[simp] theorem updLink_outbox (s : State) (l : Nat) (f : Link → Link) : (s.updLink l f).outbox = s.outbox := rfl
@[simp] theorem updLink_seen (s : State) (l : Nat) (f : Link → Link) : (s.updLink l f).seen = s.seen := rfl
@[simp] theorem updLink_messages (s : State) (l : Nat) (f : Link → Link) : (s.updLink l f).messages = s.messages := rfl
@[simp] theorem updLink_jobs (s : State) (l : Nat) (f : Link → Link) : (s.updLink l f).jobs = s.jobs := rfl
@[simp] theorem updLink_contexts (s : State) (l : Nat) (f : Link → Link) : (s.updLink l f).contexts = s.contexts := rfl
@[simp] theorem updLink_plans (s : State) (l : Nat) (f : Link → Link) : (s.updLink l f).plans = s.plans := rfl
@[simp] theorem updLink_directory (s : State) (l : Nat) (f : Link → Link) : (s.updLink l f).directory = s.directory := rfl
@[simp] theorem updLink_engine (s : State) (l : Nat) (f : Link → Link) : (s.updLink l f).engine = s.engine := rfl
@[simp] theorem updLink_engineQueue (s : State) (l : Nat) (f : Link → Link) : (s.updLink l f).engineQueue = s.engineQueue := rfl
@[simp] theorem updLink_scrubNext (s : State) (l : Nat) (f : Link → Link) : (s.updLink l f).scrubNext = s.scrubNext := rfl
@[simp] theorem updLink_core_of (s : State) (l : Nat) (f : Link → Link) (i : Nat) : (s.updLink l f).core i = s.core i := rfl
@[simp] theorem updLink_company_of (s : State) (l : Nat) (f : Link → Link) (i : Nat) : (s.updLink l f).company i = s.company i := rfl
@[simp] theorem updLink_ring_of (s : State) (l : Nat) (f : Link → Link) (i : Nat) : (s.updLink l f).ring i = s.ring i := rfl
@[simp] theorem updLink_channel_of (s : State) (l : Nat) (f : Link → Link) (i : Nat) : (s.updLink l f).channel i = s.channel i := rfl
@[simp] theorem updLink_job_of (s : State) (l : Nat) (f : Link → Link) (i : Nat) : (s.updLink l f).job i = s.job i := rfl
@[simp] theorem updLink_context_of (s : State) (l : Nat) (f : Link → Link) (i : Nat) : (s.updLink l f).context i = s.context i := rfl
@[simp] theorem updLink_now_of (s : State) (l : Nat) (f : Link → Link) : (s.updLink l f).now = s.now := rfl

/-! ### setJob -/

@[simp] theorem setJob_pending (s : State) (j : Nat) (k : Job) : (s.setJob j k).pending = s.pending := rfl
@[simp] theorem setJob_fresh (s : State) (j : Nat) (k : Job) : (s.setJob j k).fresh = s.fresh := rfl
@[simp] theorem setJob_part (s : State) (j : Nat) (k : Job) : (s.setJob j k).part = s.part := rfl
@[simp] theorem setJob_mem (s : State) (j : Nat) (k : Job) : (s.setJob j k).mem = s.mem := rfl
@[simp] theorem setJob_upsets (s : State) (j : Nat) (k : Job) : (s.setJob j k).upsets = s.upsets := rfl
@[simp] theorem setJob_sram (s : State) (j : Nat) (k : Job) : (s.setJob j k).sram = s.sram := rfl
@[simp] theorem setJob_cores (s : State) (j : Nat) (k : Job) : (s.setJob j k).cores = s.cores := rfl
@[simp] theorem setJob_companies (s : State) (j : Nat) (k : Job) : (s.setJob j k).companies = s.companies := rfl
@[simp] theorem setJob_street (s : State) (j : Nat) (k : Job) : (s.setJob j k).street = s.street := rfl
@[simp] theorem setJob_carriages (s : State) (j : Nat) (k : Job) : (s.setJob j k).carriages = s.carriages := rfl
@[simp] theorem setJob_nextCarriage (s : State) (j : Nat) (k : Job) : (s.setJob j k).nextCarriage = s.nextCarriage := rfl
@[simp] theorem setJob_rings (s : State) (j : Nat) (k : Job) : (s.setJob j k).rings = s.rings := rfl
@[simp] theorem setJob_interface (s : State) (j : Nat) (k : Job) : (s.setJob j k).interface = s.interface := rfl
@[simp] theorem setJob_ready (s : State) (j : Nat) (k : Job) : (s.setJob j k).ready = s.ready := rfl
@[simp] theorem setJob_fatal (s : State) (j : Nat) (k : Job) : (s.setJob j k).fatal = s.fatal := rfl
@[simp] theorem setJob_attnMask (s : State) (j : Nat) (k : Job) : (s.setJob j k).attnMask = s.attnMask := rfl
@[simp] theorem setJob_resetHeld (s : State) (j : Nat) (k : Job) : (s.setJob j k).resetHeld = s.resetHeld := rfl
@[simp] theorem setJob_railsBroken (s : State) (j : Nat) (k : Job) : (s.setJob j k).railsBroken = s.railsBroken := rfl
@[simp] theorem setJob_hostReset (s : State) (j : Nat) (k : Job) : (s.setJob j k).hostReset = s.hostReset := rfl
@[simp] theorem setJob_channels (s : State) (j : Nat) (k : Job) : (s.setJob j k).channels = s.channels := rfl
@[simp] theorem setJob_fatalRecord (s : State) (j : Nat) (k : Job) : (s.setJob j k).fatalRecord = s.fatalRecord := rfl
@[simp] theorem setJob_log (s : State) (j : Nat) (k : Job) : (s.setJob j k).log = s.log := rfl
@[simp] theorem setJob_power (s : State) (j : Nat) (k : Job) : (s.setJob j k).power = s.power := rfl
@[simp] theorem setJob_transition (s : State) (j : Nat) (k : Job) : (s.setJob j k).transition = s.transition := rfl
@[simp] theorem setJob_zeroing (s : State) (j : Nat) (k : Job) : (s.setJob j k).zeroing = s.zeroing := rfl
@[simp] theorem setJob_waking (s : State) (j : Nat) (k : Job) : (s.setJob j k).waking = s.waking := rfl
@[simp] theorem setJob_wakeSince (s : State) (j : Nat) (k : Job) : (s.setJob j k).wakeSince = s.wakeSince := rfl
@[simp] theorem setJob_sustained (s : State) (j : Nat) (k : Job) : (s.setJob j k).sustained = s.sustained := rfl
@[simp] theorem setJob_peak (s : State) (j : Nat) (k : Job) : (s.setJob j k).peak = s.peak := rfl
@[simp] theorem setJob_ramp (s : State) (j : Nat) (k : Job) : (s.setJob j k).ramp = s.ramp := rfl
@[simp] theorem setJob_fuseMax (s : State) (j : Nat) (k : Job) : (s.setJob j k).fuseMax = s.fuseMax := rfl
@[simp] theorem setJob_running (s : State) (j : Nat) (k : Job) : (s.setJob j k).running = s.running := rfl
@[simp] theorem setJob_stretch (s : State) (j : Nat) (k : Job) : (s.setJob j k).stretch = s.stretch := rfl
@[simp] theorem setJob_triggers (s : State) (j : Nat) (k : Job) : (s.setJob j k).triggers = s.triggers := rfl
@[simp] theorem setJob_stretchAt (s : State) (j : Nat) (k : Job) : (s.setJob j k).stretchAt = s.stretchAt := rfl
@[simp] theorem setJob_stretchSince (s : State) (j : Nat) (k : Job) : (s.setJob j k).stretchSince = s.stretchSince := rfl
@[simp] theorem setJob_riseArmed (s : State) (j : Nat) (k : Job) : (s.setJob j k).riseArmed = s.riseArmed := rfl
@[simp] theorem setJob_fellAt (s : State) (j : Nat) (k : Job) : (s.setJob j k).fellAt = s.fellAt := rfl
@[simp] theorem setJob_temps (s : State) (j : Nat) (k : Job) : (s.setJob j k).temps = s.temps := rfl
@[simp] theorem setJob_watts (s : State) (j : Nat) (k : Job) : (s.setJob j k).watts = s.watts := rfl
@[simp] theorem setJob_overSustained (s : State) (j : Nat) (k : Job) : (s.setJob j k).overSustained = s.overSustained := rfl
@[simp] theorem setJob_districtCounters (s : State) (j : Nat) (k : Job) : (s.setJob j k).districtCounters = s.districtCounters := rfl
@[simp] theorem setJob_chipCounters (s : State) (j : Nat) (k : Job) : (s.setJob j k).chipCounters = s.chipCounters := rfl
@[simp] theorem setJob_chipCalSets (s : State) (j : Nat) (k : Job) : (s.setJob j k).chipCalSets = s.chipCalSets := rfl
@[simp] theorem setJob_scope (s : State) (j : Nat) (k : Job) : (s.setJob j k).scope = s.scope := rfl
@[simp] theorem setJob_challenge (s : State) (j : Nat) (k : Job) : (s.setJob j k).challenge = s.challenge := rfl
@[simp] theorem setJob_extensions (s : State) (j : Nat) (k : Job) : (s.setJob j k).extensions = s.extensions := rfl
@[simp] theorem setJob_chain (s : State) (j : Nat) (k : Job) : (s.setJob j k).chain = s.chain := rfl
@[simp] theorem setJob_chainCount (s : State) (j : Nat) (k : Job) : (s.setJob j k).chainCount = s.chainCount := rfl
@[simp] theorem setJob_perturb (s : State) (j : Nat) (k : Job) : (s.setJob j k).perturb = s.perturb := rfl
@[simp] theorem setJob_withheld (s : State) (j : Nat) (k : Job) : (s.setJob j k).withheld = s.withheld := rfl
@[simp] theorem setJob_bottomTree (s : State) (j : Nat) (k : Job) : (s.setJob j k).bottomTree = s.bottomTree := rfl
@[simp] theorem setJob_bottomLeaf (s : State) (j : Nat) (k : Job) : (s.setJob j k).bottomLeaf = s.bottomLeaf := rfl
@[simp] theorem setJob_bottomDraw (s : State) (j : Nat) (k : Job) : (s.setJob j k).bottomDraw = s.bottomDraw := rfl
@[simp] theorem setJob_bootLeaf (s : State) (j : Nat) (k : Job) : (s.setJob j k).bootLeaf = s.bootLeaf := rfl
@[simp] theorem setJob_keyContext (s : State) (j : Nat) (k : Job) : (s.setJob j k).keyContext = s.keyContext := rfl
@[simp] theorem setJob_jtagIr (s : State) (j : Nat) (k : Job) : (s.setJob j k).jtagIr = s.jtagIr := rfl
@[simp] theorem setJob_boundary (s : State) (j : Nat) (k : Job) : (s.setJob j k).boundary = s.boundary := rfl
@[simp] theorem setJob_extestPins (s : State) (j : Nat) (k : Job) : (s.setJob j k).extestPins = s.extestPins := rfl
@[simp] theorem setJob_tdo (s : State) (j : Nat) (k : Job) : (s.setJob j k).tdo = s.tdo := rfl
@[simp] theorem setJob_smbus (s : State) (j : Nat) (k : Job) : (s.setJob j k).smbus = s.smbus := rfl
@[simp] theorem setJob_town (s : State) (j : Nat) (k : Job) : (s.setJob j k).town = s.town := rfl
@[simp] theorem setJob_chipId (s : State) (j : Nat) (k : Job) : (s.setJob j k).chipId = s.chipId := rfl
@[simp] theorem setJob_links (s : State) (j : Nat) (k : Job) : (s.setJob j k).links = s.links := rfl
@[simp] theorem setJob_routes (s : State) (j : Nat) (k : Job) : (s.setJob j k).routes = s.routes := rfl
@[simp] theorem setJob_routesShadow (s : State) (j : Nat) (k : Job) : (s.setJob j k).routesShadow = s.routesShadow := rfl
@[simp] theorem setJob_swapAt (s : State) (j : Nat) (k : Job) : (s.setJob j k).swapAt = s.swapAt := rfl
@[simp] theorem setJob_outbox (s : State) (j : Nat) (k : Job) : (s.setJob j k).outbox = s.outbox := rfl
@[simp] theorem setJob_seen (s : State) (j : Nat) (k : Job) : (s.setJob j k).seen = s.seen := rfl
@[simp] theorem setJob_messages (s : State) (j : Nat) (k : Job) : (s.setJob j k).messages = s.messages := rfl
@[simp] theorem setJob_contexts (s : State) (j : Nat) (k : Job) : (s.setJob j k).contexts = s.contexts := rfl
@[simp] theorem setJob_plans (s : State) (j : Nat) (k : Job) : (s.setJob j k).plans = s.plans := rfl
@[simp] theorem setJob_directory (s : State) (j : Nat) (k : Job) : (s.setJob j k).directory = s.directory := rfl
@[simp] theorem setJob_engine (s : State) (j : Nat) (k : Job) : (s.setJob j k).engine = s.engine := rfl
@[simp] theorem setJob_engineQueue (s : State) (j : Nat) (k : Job) : (s.setJob j k).engineQueue = s.engineQueue := rfl
@[simp] theorem setJob_scrubNext (s : State) (j : Nat) (k : Job) : (s.setJob j k).scrubNext = s.scrubNext := rfl
@[simp] theorem setJob_core_of (s : State) (j : Nat) (k : Job) (i : Nat) : (s.setJob j k).core i = s.core i := rfl
@[simp] theorem setJob_company_of (s : State) (j : Nat) (k : Job) (i : Nat) : (s.setJob j k).company i = s.company i := rfl
@[simp] theorem setJob_ring_of (s : State) (j : Nat) (k : Job) (i : Nat) : (s.setJob j k).ring i = s.ring i := rfl
@[simp] theorem setJob_channel_of (s : State) (j : Nat) (k : Job) (i : Nat) : (s.setJob j k).channel i = s.channel i := rfl
@[simp] theorem setJob_link_of (s : State) (j : Nat) (k : Job) (i : Nat) : (s.setJob j k).link i = s.link i := rfl
@[simp] theorem setJob_context_of (s : State) (j : Nat) (k : Job) (i : Nat) : (s.setJob j k).context i = s.context i := rfl
@[simp] theorem setJob_now_of (s : State) (j : Nat) (k : Job) : (s.setJob j k).now = s.now := rfl

/-! ### updJob -/

@[simp] theorem updJob_pending (s : State) (j : Nat) (f : Job → Job) : (s.updJob j f).pending = s.pending := rfl
@[simp] theorem updJob_fresh (s : State) (j : Nat) (f : Job → Job) : (s.updJob j f).fresh = s.fresh := rfl
@[simp] theorem updJob_part (s : State) (j : Nat) (f : Job → Job) : (s.updJob j f).part = s.part := rfl
@[simp] theorem updJob_mem (s : State) (j : Nat) (f : Job → Job) : (s.updJob j f).mem = s.mem := rfl
@[simp] theorem updJob_upsets (s : State) (j : Nat) (f : Job → Job) : (s.updJob j f).upsets = s.upsets := rfl
@[simp] theorem updJob_sram (s : State) (j : Nat) (f : Job → Job) : (s.updJob j f).sram = s.sram := rfl
@[simp] theorem updJob_cores (s : State) (j : Nat) (f : Job → Job) : (s.updJob j f).cores = s.cores := rfl
@[simp] theorem updJob_companies (s : State) (j : Nat) (f : Job → Job) : (s.updJob j f).companies = s.companies := rfl
@[simp] theorem updJob_street (s : State) (j : Nat) (f : Job → Job) : (s.updJob j f).street = s.street := rfl
@[simp] theorem updJob_carriages (s : State) (j : Nat) (f : Job → Job) : (s.updJob j f).carriages = s.carriages := rfl
@[simp] theorem updJob_nextCarriage (s : State) (j : Nat) (f : Job → Job) : (s.updJob j f).nextCarriage = s.nextCarriage := rfl
@[simp] theorem updJob_rings (s : State) (j : Nat) (f : Job → Job) : (s.updJob j f).rings = s.rings := rfl
@[simp] theorem updJob_interface (s : State) (j : Nat) (f : Job → Job) : (s.updJob j f).interface = s.interface := rfl
@[simp] theorem updJob_ready (s : State) (j : Nat) (f : Job → Job) : (s.updJob j f).ready = s.ready := rfl
@[simp] theorem updJob_fatal (s : State) (j : Nat) (f : Job → Job) : (s.updJob j f).fatal = s.fatal := rfl
@[simp] theorem updJob_attnMask (s : State) (j : Nat) (f : Job → Job) : (s.updJob j f).attnMask = s.attnMask := rfl
@[simp] theorem updJob_resetHeld (s : State) (j : Nat) (f : Job → Job) : (s.updJob j f).resetHeld = s.resetHeld := rfl
@[simp] theorem updJob_railsBroken (s : State) (j : Nat) (f : Job → Job) : (s.updJob j f).railsBroken = s.railsBroken := rfl
@[simp] theorem updJob_hostReset (s : State) (j : Nat) (f : Job → Job) : (s.updJob j f).hostReset = s.hostReset := rfl
@[simp] theorem updJob_channels (s : State) (j : Nat) (f : Job → Job) : (s.updJob j f).channels = s.channels := rfl
@[simp] theorem updJob_fatalRecord (s : State) (j : Nat) (f : Job → Job) : (s.updJob j f).fatalRecord = s.fatalRecord := rfl
@[simp] theorem updJob_log (s : State) (j : Nat) (f : Job → Job) : (s.updJob j f).log = s.log := rfl
@[simp] theorem updJob_power (s : State) (j : Nat) (f : Job → Job) : (s.updJob j f).power = s.power := rfl
@[simp] theorem updJob_transition (s : State) (j : Nat) (f : Job → Job) : (s.updJob j f).transition = s.transition := rfl
@[simp] theorem updJob_zeroing (s : State) (j : Nat) (f : Job → Job) : (s.updJob j f).zeroing = s.zeroing := rfl
@[simp] theorem updJob_waking (s : State) (j : Nat) (f : Job → Job) : (s.updJob j f).waking = s.waking := rfl
@[simp] theorem updJob_wakeSince (s : State) (j : Nat) (f : Job → Job) : (s.updJob j f).wakeSince = s.wakeSince := rfl
@[simp] theorem updJob_sustained (s : State) (j : Nat) (f : Job → Job) : (s.updJob j f).sustained = s.sustained := rfl
@[simp] theorem updJob_peak (s : State) (j : Nat) (f : Job → Job) : (s.updJob j f).peak = s.peak := rfl
@[simp] theorem updJob_ramp (s : State) (j : Nat) (f : Job → Job) : (s.updJob j f).ramp = s.ramp := rfl
@[simp] theorem updJob_fuseMax (s : State) (j : Nat) (f : Job → Job) : (s.updJob j f).fuseMax = s.fuseMax := rfl
@[simp] theorem updJob_running (s : State) (j : Nat) (f : Job → Job) : (s.updJob j f).running = s.running := rfl
@[simp] theorem updJob_stretch (s : State) (j : Nat) (f : Job → Job) : (s.updJob j f).stretch = s.stretch := rfl
@[simp] theorem updJob_triggers (s : State) (j : Nat) (f : Job → Job) : (s.updJob j f).triggers = s.triggers := rfl
@[simp] theorem updJob_stretchAt (s : State) (j : Nat) (f : Job → Job) : (s.updJob j f).stretchAt = s.stretchAt := rfl
@[simp] theorem updJob_stretchSince (s : State) (j : Nat) (f : Job → Job) : (s.updJob j f).stretchSince = s.stretchSince := rfl
@[simp] theorem updJob_riseArmed (s : State) (j : Nat) (f : Job → Job) : (s.updJob j f).riseArmed = s.riseArmed := rfl
@[simp] theorem updJob_fellAt (s : State) (j : Nat) (f : Job → Job) : (s.updJob j f).fellAt = s.fellAt := rfl
@[simp] theorem updJob_temps (s : State) (j : Nat) (f : Job → Job) : (s.updJob j f).temps = s.temps := rfl
@[simp] theorem updJob_watts (s : State) (j : Nat) (f : Job → Job) : (s.updJob j f).watts = s.watts := rfl
@[simp] theorem updJob_overSustained (s : State) (j : Nat) (f : Job → Job) : (s.updJob j f).overSustained = s.overSustained := rfl
@[simp] theorem updJob_districtCounters (s : State) (j : Nat) (f : Job → Job) : (s.updJob j f).districtCounters = s.districtCounters := rfl
@[simp] theorem updJob_chipCounters (s : State) (j : Nat) (f : Job → Job) : (s.updJob j f).chipCounters = s.chipCounters := rfl
@[simp] theorem updJob_chipCalSets (s : State) (j : Nat) (f : Job → Job) : (s.updJob j f).chipCalSets = s.chipCalSets := rfl
@[simp] theorem updJob_scope (s : State) (j : Nat) (f : Job → Job) : (s.updJob j f).scope = s.scope := rfl
@[simp] theorem updJob_challenge (s : State) (j : Nat) (f : Job → Job) : (s.updJob j f).challenge = s.challenge := rfl
@[simp] theorem updJob_extensions (s : State) (j : Nat) (f : Job → Job) : (s.updJob j f).extensions = s.extensions := rfl
@[simp] theorem updJob_chain (s : State) (j : Nat) (f : Job → Job) : (s.updJob j f).chain = s.chain := rfl
@[simp] theorem updJob_chainCount (s : State) (j : Nat) (f : Job → Job) : (s.updJob j f).chainCount = s.chainCount := rfl
@[simp] theorem updJob_perturb (s : State) (j : Nat) (f : Job → Job) : (s.updJob j f).perturb = s.perturb := rfl
@[simp] theorem updJob_withheld (s : State) (j : Nat) (f : Job → Job) : (s.updJob j f).withheld = s.withheld := rfl
@[simp] theorem updJob_bottomTree (s : State) (j : Nat) (f : Job → Job) : (s.updJob j f).bottomTree = s.bottomTree := rfl
@[simp] theorem updJob_bottomLeaf (s : State) (j : Nat) (f : Job → Job) : (s.updJob j f).bottomLeaf = s.bottomLeaf := rfl
@[simp] theorem updJob_bottomDraw (s : State) (j : Nat) (f : Job → Job) : (s.updJob j f).bottomDraw = s.bottomDraw := rfl
@[simp] theorem updJob_bootLeaf (s : State) (j : Nat) (f : Job → Job) : (s.updJob j f).bootLeaf = s.bootLeaf := rfl
@[simp] theorem updJob_keyContext (s : State) (j : Nat) (f : Job → Job) : (s.updJob j f).keyContext = s.keyContext := rfl
@[simp] theorem updJob_jtagIr (s : State) (j : Nat) (f : Job → Job) : (s.updJob j f).jtagIr = s.jtagIr := rfl
@[simp] theorem updJob_boundary (s : State) (j : Nat) (f : Job → Job) : (s.updJob j f).boundary = s.boundary := rfl
@[simp] theorem updJob_extestPins (s : State) (j : Nat) (f : Job → Job) : (s.updJob j f).extestPins = s.extestPins := rfl
@[simp] theorem updJob_tdo (s : State) (j : Nat) (f : Job → Job) : (s.updJob j f).tdo = s.tdo := rfl
@[simp] theorem updJob_smbus (s : State) (j : Nat) (f : Job → Job) : (s.updJob j f).smbus = s.smbus := rfl
@[simp] theorem updJob_town (s : State) (j : Nat) (f : Job → Job) : (s.updJob j f).town = s.town := rfl
@[simp] theorem updJob_chipId (s : State) (j : Nat) (f : Job → Job) : (s.updJob j f).chipId = s.chipId := rfl
@[simp] theorem updJob_links (s : State) (j : Nat) (f : Job → Job) : (s.updJob j f).links = s.links := rfl
@[simp] theorem updJob_routes (s : State) (j : Nat) (f : Job → Job) : (s.updJob j f).routes = s.routes := rfl
@[simp] theorem updJob_routesShadow (s : State) (j : Nat) (f : Job → Job) : (s.updJob j f).routesShadow = s.routesShadow := rfl
@[simp] theorem updJob_swapAt (s : State) (j : Nat) (f : Job → Job) : (s.updJob j f).swapAt = s.swapAt := rfl
@[simp] theorem updJob_outbox (s : State) (j : Nat) (f : Job → Job) : (s.updJob j f).outbox = s.outbox := rfl
@[simp] theorem updJob_seen (s : State) (j : Nat) (f : Job → Job) : (s.updJob j f).seen = s.seen := rfl
@[simp] theorem updJob_messages (s : State) (j : Nat) (f : Job → Job) : (s.updJob j f).messages = s.messages := rfl
@[simp] theorem updJob_contexts (s : State) (j : Nat) (f : Job → Job) : (s.updJob j f).contexts = s.contexts := rfl
@[simp] theorem updJob_plans (s : State) (j : Nat) (f : Job → Job) : (s.updJob j f).plans = s.plans := rfl
@[simp] theorem updJob_directory (s : State) (j : Nat) (f : Job → Job) : (s.updJob j f).directory = s.directory := rfl
@[simp] theorem updJob_engine (s : State) (j : Nat) (f : Job → Job) : (s.updJob j f).engine = s.engine := rfl
@[simp] theorem updJob_engineQueue (s : State) (j : Nat) (f : Job → Job) : (s.updJob j f).engineQueue = s.engineQueue := rfl
@[simp] theorem updJob_scrubNext (s : State) (j : Nat) (f : Job → Job) : (s.updJob j f).scrubNext = s.scrubNext := rfl
@[simp] theorem updJob_core_of (s : State) (j : Nat) (f : Job → Job) (i : Nat) : (s.updJob j f).core i = s.core i := rfl
@[simp] theorem updJob_company_of (s : State) (j : Nat) (f : Job → Job) (i : Nat) : (s.updJob j f).company i = s.company i := rfl
@[simp] theorem updJob_ring_of (s : State) (j : Nat) (f : Job → Job) (i : Nat) : (s.updJob j f).ring i = s.ring i := rfl
@[simp] theorem updJob_channel_of (s : State) (j : Nat) (f : Job → Job) (i : Nat) : (s.updJob j f).channel i = s.channel i := rfl
@[simp] theorem updJob_link_of (s : State) (j : Nat) (f : Job → Job) (i : Nat) : (s.updJob j f).link i = s.link i := rfl
@[simp] theorem updJob_context_of (s : State) (j : Nat) (f : Job → Job) (i : Nat) : (s.updJob j f).context i = s.context i := rfl
@[simp] theorem updJob_now_of (s : State) (j : Nat) (f : Job → Job) : (s.updJob j f).now = s.now := rfl

/-! ### setContext -/

@[simp] theorem setContext_pending (s : State) (x : Nat) (k : Context) : (s.setContext x k).pending = s.pending := rfl
@[simp] theorem setContext_fresh (s : State) (x : Nat) (k : Context) : (s.setContext x k).fresh = s.fresh := rfl
@[simp] theorem setContext_part (s : State) (x : Nat) (k : Context) : (s.setContext x k).part = s.part := rfl
@[simp] theorem setContext_mem (s : State) (x : Nat) (k : Context) : (s.setContext x k).mem = s.mem := rfl
@[simp] theorem setContext_upsets (s : State) (x : Nat) (k : Context) : (s.setContext x k).upsets = s.upsets := rfl
@[simp] theorem setContext_sram (s : State) (x : Nat) (k : Context) : (s.setContext x k).sram = s.sram := rfl
@[simp] theorem setContext_cores (s : State) (x : Nat) (k : Context) : (s.setContext x k).cores = s.cores := rfl
@[simp] theorem setContext_companies (s : State) (x : Nat) (k : Context) : (s.setContext x k).companies = s.companies := rfl
@[simp] theorem setContext_street (s : State) (x : Nat) (k : Context) : (s.setContext x k).street = s.street := rfl
@[simp] theorem setContext_carriages (s : State) (x : Nat) (k : Context) : (s.setContext x k).carriages = s.carriages := rfl
@[simp] theorem setContext_nextCarriage (s : State) (x : Nat) (k : Context) : (s.setContext x k).nextCarriage = s.nextCarriage := rfl
@[simp] theorem setContext_rings (s : State) (x : Nat) (k : Context) : (s.setContext x k).rings = s.rings := rfl
@[simp] theorem setContext_interface (s : State) (x : Nat) (k : Context) : (s.setContext x k).interface = s.interface := rfl
@[simp] theorem setContext_ready (s : State) (x : Nat) (k : Context) : (s.setContext x k).ready = s.ready := rfl
@[simp] theorem setContext_fatal (s : State) (x : Nat) (k : Context) : (s.setContext x k).fatal = s.fatal := rfl
@[simp] theorem setContext_attnMask (s : State) (x : Nat) (k : Context) : (s.setContext x k).attnMask = s.attnMask := rfl
@[simp] theorem setContext_resetHeld (s : State) (x : Nat) (k : Context) : (s.setContext x k).resetHeld = s.resetHeld := rfl
@[simp] theorem setContext_railsBroken (s : State) (x : Nat) (k : Context) : (s.setContext x k).railsBroken = s.railsBroken := rfl
@[simp] theorem setContext_hostReset (s : State) (x : Nat) (k : Context) : (s.setContext x k).hostReset = s.hostReset := rfl
@[simp] theorem setContext_channels (s : State) (x : Nat) (k : Context) : (s.setContext x k).channels = s.channels := rfl
@[simp] theorem setContext_fatalRecord (s : State) (x : Nat) (k : Context) : (s.setContext x k).fatalRecord = s.fatalRecord := rfl
@[simp] theorem setContext_log (s : State) (x : Nat) (k : Context) : (s.setContext x k).log = s.log := rfl
@[simp] theorem setContext_power (s : State) (x : Nat) (k : Context) : (s.setContext x k).power = s.power := rfl
@[simp] theorem setContext_transition (s : State) (x : Nat) (k : Context) : (s.setContext x k).transition = s.transition := rfl
@[simp] theorem setContext_zeroing (s : State) (x : Nat) (k : Context) : (s.setContext x k).zeroing = s.zeroing := rfl
@[simp] theorem setContext_waking (s : State) (x : Nat) (k : Context) : (s.setContext x k).waking = s.waking := rfl
@[simp] theorem setContext_wakeSince (s : State) (x : Nat) (k : Context) : (s.setContext x k).wakeSince = s.wakeSince := rfl
@[simp] theorem setContext_sustained (s : State) (x : Nat) (k : Context) : (s.setContext x k).sustained = s.sustained := rfl
@[simp] theorem setContext_peak (s : State) (x : Nat) (k : Context) : (s.setContext x k).peak = s.peak := rfl
@[simp] theorem setContext_ramp (s : State) (x : Nat) (k : Context) : (s.setContext x k).ramp = s.ramp := rfl
@[simp] theorem setContext_fuseMax (s : State) (x : Nat) (k : Context) : (s.setContext x k).fuseMax = s.fuseMax := rfl
@[simp] theorem setContext_running (s : State) (x : Nat) (k : Context) : (s.setContext x k).running = s.running := rfl
@[simp] theorem setContext_stretch (s : State) (x : Nat) (k : Context) : (s.setContext x k).stretch = s.stretch := rfl
@[simp] theorem setContext_triggers (s : State) (x : Nat) (k : Context) : (s.setContext x k).triggers = s.triggers := rfl
@[simp] theorem setContext_stretchAt (s : State) (x : Nat) (k : Context) : (s.setContext x k).stretchAt = s.stretchAt := rfl
@[simp] theorem setContext_stretchSince (s : State) (x : Nat) (k : Context) : (s.setContext x k).stretchSince = s.stretchSince := rfl
@[simp] theorem setContext_riseArmed (s : State) (x : Nat) (k : Context) : (s.setContext x k).riseArmed = s.riseArmed := rfl
@[simp] theorem setContext_fellAt (s : State) (x : Nat) (k : Context) : (s.setContext x k).fellAt = s.fellAt := rfl
@[simp] theorem setContext_temps (s : State) (x : Nat) (k : Context) : (s.setContext x k).temps = s.temps := rfl
@[simp] theorem setContext_watts (s : State) (x : Nat) (k : Context) : (s.setContext x k).watts = s.watts := rfl
@[simp] theorem setContext_overSustained (s : State) (x : Nat) (k : Context) : (s.setContext x k).overSustained = s.overSustained := rfl
@[simp] theorem setContext_districtCounters (s : State) (x : Nat) (k : Context) : (s.setContext x k).districtCounters = s.districtCounters := rfl
@[simp] theorem setContext_chipCounters (s : State) (x : Nat) (k : Context) : (s.setContext x k).chipCounters = s.chipCounters := rfl
@[simp] theorem setContext_chipCalSets (s : State) (x : Nat) (k : Context) : (s.setContext x k).chipCalSets = s.chipCalSets := rfl
@[simp] theorem setContext_scope (s : State) (x : Nat) (k : Context) : (s.setContext x k).scope = s.scope := rfl
@[simp] theorem setContext_challenge (s : State) (x : Nat) (k : Context) : (s.setContext x k).challenge = s.challenge := rfl
@[simp] theorem setContext_extensions (s : State) (x : Nat) (k : Context) : (s.setContext x k).extensions = s.extensions := rfl
@[simp] theorem setContext_chain (s : State) (x : Nat) (k : Context) : (s.setContext x k).chain = s.chain := rfl
@[simp] theorem setContext_chainCount (s : State) (x : Nat) (k : Context) : (s.setContext x k).chainCount = s.chainCount := rfl
@[simp] theorem setContext_perturb (s : State) (x : Nat) (k : Context) : (s.setContext x k).perturb = s.perturb := rfl
@[simp] theorem setContext_withheld (s : State) (x : Nat) (k : Context) : (s.setContext x k).withheld = s.withheld := rfl
@[simp] theorem setContext_bottomTree (s : State) (x : Nat) (k : Context) : (s.setContext x k).bottomTree = s.bottomTree := rfl
@[simp] theorem setContext_bottomLeaf (s : State) (x : Nat) (k : Context) : (s.setContext x k).bottomLeaf = s.bottomLeaf := rfl
@[simp] theorem setContext_bottomDraw (s : State) (x : Nat) (k : Context) : (s.setContext x k).bottomDraw = s.bottomDraw := rfl
@[simp] theorem setContext_bootLeaf (s : State) (x : Nat) (k : Context) : (s.setContext x k).bootLeaf = s.bootLeaf := rfl
@[simp] theorem setContext_keyContext (s : State) (x : Nat) (k : Context) : (s.setContext x k).keyContext = s.keyContext := rfl
@[simp] theorem setContext_jtagIr (s : State) (x : Nat) (k : Context) : (s.setContext x k).jtagIr = s.jtagIr := rfl
@[simp] theorem setContext_boundary (s : State) (x : Nat) (k : Context) : (s.setContext x k).boundary = s.boundary := rfl
@[simp] theorem setContext_extestPins (s : State) (x : Nat) (k : Context) : (s.setContext x k).extestPins = s.extestPins := rfl
@[simp] theorem setContext_tdo (s : State) (x : Nat) (k : Context) : (s.setContext x k).tdo = s.tdo := rfl
@[simp] theorem setContext_smbus (s : State) (x : Nat) (k : Context) : (s.setContext x k).smbus = s.smbus := rfl
@[simp] theorem setContext_town (s : State) (x : Nat) (k : Context) : (s.setContext x k).town = s.town := rfl
@[simp] theorem setContext_chipId (s : State) (x : Nat) (k : Context) : (s.setContext x k).chipId = s.chipId := rfl
@[simp] theorem setContext_links (s : State) (x : Nat) (k : Context) : (s.setContext x k).links = s.links := rfl
@[simp] theorem setContext_routes (s : State) (x : Nat) (k : Context) : (s.setContext x k).routes = s.routes := rfl
@[simp] theorem setContext_routesShadow (s : State) (x : Nat) (k : Context) : (s.setContext x k).routesShadow = s.routesShadow := rfl
@[simp] theorem setContext_swapAt (s : State) (x : Nat) (k : Context) : (s.setContext x k).swapAt = s.swapAt := rfl
@[simp] theorem setContext_outbox (s : State) (x : Nat) (k : Context) : (s.setContext x k).outbox = s.outbox := rfl
@[simp] theorem setContext_seen (s : State) (x : Nat) (k : Context) : (s.setContext x k).seen = s.seen := rfl
@[simp] theorem setContext_messages (s : State) (x : Nat) (k : Context) : (s.setContext x k).messages = s.messages := rfl
@[simp] theorem setContext_jobs (s : State) (x : Nat) (k : Context) : (s.setContext x k).jobs = s.jobs := rfl
@[simp] theorem setContext_plans (s : State) (x : Nat) (k : Context) : (s.setContext x k).plans = s.plans := rfl
@[simp] theorem setContext_directory (s : State) (x : Nat) (k : Context) : (s.setContext x k).directory = s.directory := rfl
@[simp] theorem setContext_engine (s : State) (x : Nat) (k : Context) : (s.setContext x k).engine = s.engine := rfl
@[simp] theorem setContext_engineQueue (s : State) (x : Nat) (k : Context) : (s.setContext x k).engineQueue = s.engineQueue := rfl
@[simp] theorem setContext_scrubNext (s : State) (x : Nat) (k : Context) : (s.setContext x k).scrubNext = s.scrubNext := rfl
@[simp] theorem setContext_core_of (s : State) (x : Nat) (k : Context) (i : Nat) : (s.setContext x k).core i = s.core i := rfl
@[simp] theorem setContext_company_of (s : State) (x : Nat) (k : Context) (i : Nat) : (s.setContext x k).company i = s.company i := rfl
@[simp] theorem setContext_ring_of (s : State) (x : Nat) (k : Context) (i : Nat) : (s.setContext x k).ring i = s.ring i := rfl
@[simp] theorem setContext_channel_of (s : State) (x : Nat) (k : Context) (i : Nat) : (s.setContext x k).channel i = s.channel i := rfl
@[simp] theorem setContext_link_of (s : State) (x : Nat) (k : Context) (i : Nat) : (s.setContext x k).link i = s.link i := rfl
@[simp] theorem setContext_job_of (s : State) (x : Nat) (k : Context) (i : Nat) : (s.setContext x k).job i = s.job i := rfl
@[simp] theorem setContext_now_of (s : State) (x : Nat) (k : Context) : (s.setContext x k).now = s.now := rfl

/-! ### updContext -/

@[simp] theorem updContext_pending (s : State) (x : Nat) (f : Context → Context) : (s.updContext x f).pending = s.pending := rfl
@[simp] theorem updContext_fresh (s : State) (x : Nat) (f : Context → Context) : (s.updContext x f).fresh = s.fresh := rfl
@[simp] theorem updContext_part (s : State) (x : Nat) (f : Context → Context) : (s.updContext x f).part = s.part := rfl
@[simp] theorem updContext_mem (s : State) (x : Nat) (f : Context → Context) : (s.updContext x f).mem = s.mem := rfl
@[simp] theorem updContext_upsets (s : State) (x : Nat) (f : Context → Context) : (s.updContext x f).upsets = s.upsets := rfl
@[simp] theorem updContext_sram (s : State) (x : Nat) (f : Context → Context) : (s.updContext x f).sram = s.sram := rfl
@[simp] theorem updContext_cores (s : State) (x : Nat) (f : Context → Context) : (s.updContext x f).cores = s.cores := rfl
@[simp] theorem updContext_companies (s : State) (x : Nat) (f : Context → Context) : (s.updContext x f).companies = s.companies := rfl
@[simp] theorem updContext_street (s : State) (x : Nat) (f : Context → Context) : (s.updContext x f).street = s.street := rfl
@[simp] theorem updContext_carriages (s : State) (x : Nat) (f : Context → Context) : (s.updContext x f).carriages = s.carriages := rfl
@[simp] theorem updContext_nextCarriage (s : State) (x : Nat) (f : Context → Context) : (s.updContext x f).nextCarriage = s.nextCarriage := rfl
@[simp] theorem updContext_rings (s : State) (x : Nat) (f : Context → Context) : (s.updContext x f).rings = s.rings := rfl
@[simp] theorem updContext_interface (s : State) (x : Nat) (f : Context → Context) : (s.updContext x f).interface = s.interface := rfl
@[simp] theorem updContext_ready (s : State) (x : Nat) (f : Context → Context) : (s.updContext x f).ready = s.ready := rfl
@[simp] theorem updContext_fatal (s : State) (x : Nat) (f : Context → Context) : (s.updContext x f).fatal = s.fatal := rfl
@[simp] theorem updContext_attnMask (s : State) (x : Nat) (f : Context → Context) : (s.updContext x f).attnMask = s.attnMask := rfl
@[simp] theorem updContext_resetHeld (s : State) (x : Nat) (f : Context → Context) : (s.updContext x f).resetHeld = s.resetHeld := rfl
@[simp] theorem updContext_railsBroken (s : State) (x : Nat) (f : Context → Context) : (s.updContext x f).railsBroken = s.railsBroken := rfl
@[simp] theorem updContext_hostReset (s : State) (x : Nat) (f : Context → Context) : (s.updContext x f).hostReset = s.hostReset := rfl
@[simp] theorem updContext_channels (s : State) (x : Nat) (f : Context → Context) : (s.updContext x f).channels = s.channels := rfl
@[simp] theorem updContext_fatalRecord (s : State) (x : Nat) (f : Context → Context) : (s.updContext x f).fatalRecord = s.fatalRecord := rfl
@[simp] theorem updContext_log (s : State) (x : Nat) (f : Context → Context) : (s.updContext x f).log = s.log := rfl
@[simp] theorem updContext_power (s : State) (x : Nat) (f : Context → Context) : (s.updContext x f).power = s.power := rfl
@[simp] theorem updContext_transition (s : State) (x : Nat) (f : Context → Context) : (s.updContext x f).transition = s.transition := rfl
@[simp] theorem updContext_zeroing (s : State) (x : Nat) (f : Context → Context) : (s.updContext x f).zeroing = s.zeroing := rfl
@[simp] theorem updContext_waking (s : State) (x : Nat) (f : Context → Context) : (s.updContext x f).waking = s.waking := rfl
@[simp] theorem updContext_wakeSince (s : State) (x : Nat) (f : Context → Context) : (s.updContext x f).wakeSince = s.wakeSince := rfl
@[simp] theorem updContext_sustained (s : State) (x : Nat) (f : Context → Context) : (s.updContext x f).sustained = s.sustained := rfl
@[simp] theorem updContext_peak (s : State) (x : Nat) (f : Context → Context) : (s.updContext x f).peak = s.peak := rfl
@[simp] theorem updContext_ramp (s : State) (x : Nat) (f : Context → Context) : (s.updContext x f).ramp = s.ramp := rfl
@[simp] theorem updContext_fuseMax (s : State) (x : Nat) (f : Context → Context) : (s.updContext x f).fuseMax = s.fuseMax := rfl
@[simp] theorem updContext_running (s : State) (x : Nat) (f : Context → Context) : (s.updContext x f).running = s.running := rfl
@[simp] theorem updContext_stretch (s : State) (x : Nat) (f : Context → Context) : (s.updContext x f).stretch = s.stretch := rfl
@[simp] theorem updContext_triggers (s : State) (x : Nat) (f : Context → Context) : (s.updContext x f).triggers = s.triggers := rfl
@[simp] theorem updContext_stretchAt (s : State) (x : Nat) (f : Context → Context) : (s.updContext x f).stretchAt = s.stretchAt := rfl
@[simp] theorem updContext_stretchSince (s : State) (x : Nat) (f : Context → Context) : (s.updContext x f).stretchSince = s.stretchSince := rfl
@[simp] theorem updContext_riseArmed (s : State) (x : Nat) (f : Context → Context) : (s.updContext x f).riseArmed = s.riseArmed := rfl
@[simp] theorem updContext_fellAt (s : State) (x : Nat) (f : Context → Context) : (s.updContext x f).fellAt = s.fellAt := rfl
@[simp] theorem updContext_temps (s : State) (x : Nat) (f : Context → Context) : (s.updContext x f).temps = s.temps := rfl
@[simp] theorem updContext_watts (s : State) (x : Nat) (f : Context → Context) : (s.updContext x f).watts = s.watts := rfl
@[simp] theorem updContext_overSustained (s : State) (x : Nat) (f : Context → Context) : (s.updContext x f).overSustained = s.overSustained := rfl
@[simp] theorem updContext_districtCounters (s : State) (x : Nat) (f : Context → Context) : (s.updContext x f).districtCounters = s.districtCounters := rfl
@[simp] theorem updContext_chipCounters (s : State) (x : Nat) (f : Context → Context) : (s.updContext x f).chipCounters = s.chipCounters := rfl
@[simp] theorem updContext_chipCalSets (s : State) (x : Nat) (f : Context → Context) : (s.updContext x f).chipCalSets = s.chipCalSets := rfl
@[simp] theorem updContext_scope (s : State) (x : Nat) (f : Context → Context) : (s.updContext x f).scope = s.scope := rfl
@[simp] theorem updContext_challenge (s : State) (x : Nat) (f : Context → Context) : (s.updContext x f).challenge = s.challenge := rfl
@[simp] theorem updContext_extensions (s : State) (x : Nat) (f : Context → Context) : (s.updContext x f).extensions = s.extensions := rfl
@[simp] theorem updContext_chain (s : State) (x : Nat) (f : Context → Context) : (s.updContext x f).chain = s.chain := rfl
@[simp] theorem updContext_chainCount (s : State) (x : Nat) (f : Context → Context) : (s.updContext x f).chainCount = s.chainCount := rfl
@[simp] theorem updContext_perturb (s : State) (x : Nat) (f : Context → Context) : (s.updContext x f).perturb = s.perturb := rfl
@[simp] theorem updContext_withheld (s : State) (x : Nat) (f : Context → Context) : (s.updContext x f).withheld = s.withheld := rfl
@[simp] theorem updContext_bottomTree (s : State) (x : Nat) (f : Context → Context) : (s.updContext x f).bottomTree = s.bottomTree := rfl
@[simp] theorem updContext_bottomLeaf (s : State) (x : Nat) (f : Context → Context) : (s.updContext x f).bottomLeaf = s.bottomLeaf := rfl
@[simp] theorem updContext_bottomDraw (s : State) (x : Nat) (f : Context → Context) : (s.updContext x f).bottomDraw = s.bottomDraw := rfl
@[simp] theorem updContext_bootLeaf (s : State) (x : Nat) (f : Context → Context) : (s.updContext x f).bootLeaf = s.bootLeaf := rfl
@[simp] theorem updContext_keyContext (s : State) (x : Nat) (f : Context → Context) : (s.updContext x f).keyContext = s.keyContext := rfl
@[simp] theorem updContext_jtagIr (s : State) (x : Nat) (f : Context → Context) : (s.updContext x f).jtagIr = s.jtagIr := rfl
@[simp] theorem updContext_boundary (s : State) (x : Nat) (f : Context → Context) : (s.updContext x f).boundary = s.boundary := rfl
@[simp] theorem updContext_extestPins (s : State) (x : Nat) (f : Context → Context) : (s.updContext x f).extestPins = s.extestPins := rfl
@[simp] theorem updContext_tdo (s : State) (x : Nat) (f : Context → Context) : (s.updContext x f).tdo = s.tdo := rfl
@[simp] theorem updContext_smbus (s : State) (x : Nat) (f : Context → Context) : (s.updContext x f).smbus = s.smbus := rfl
@[simp] theorem updContext_town (s : State) (x : Nat) (f : Context → Context) : (s.updContext x f).town = s.town := rfl
@[simp] theorem updContext_chipId (s : State) (x : Nat) (f : Context → Context) : (s.updContext x f).chipId = s.chipId := rfl
@[simp] theorem updContext_links (s : State) (x : Nat) (f : Context → Context) : (s.updContext x f).links = s.links := rfl
@[simp] theorem updContext_routes (s : State) (x : Nat) (f : Context → Context) : (s.updContext x f).routes = s.routes := rfl
@[simp] theorem updContext_routesShadow (s : State) (x : Nat) (f : Context → Context) : (s.updContext x f).routesShadow = s.routesShadow := rfl
@[simp] theorem updContext_swapAt (s : State) (x : Nat) (f : Context → Context) : (s.updContext x f).swapAt = s.swapAt := rfl
@[simp] theorem updContext_outbox (s : State) (x : Nat) (f : Context → Context) : (s.updContext x f).outbox = s.outbox := rfl
@[simp] theorem updContext_seen (s : State) (x : Nat) (f : Context → Context) : (s.updContext x f).seen = s.seen := rfl
@[simp] theorem updContext_messages (s : State) (x : Nat) (f : Context → Context) : (s.updContext x f).messages = s.messages := rfl
@[simp] theorem updContext_jobs (s : State) (x : Nat) (f : Context → Context) : (s.updContext x f).jobs = s.jobs := rfl
@[simp] theorem updContext_plans (s : State) (x : Nat) (f : Context → Context) : (s.updContext x f).plans = s.plans := rfl
@[simp] theorem updContext_directory (s : State) (x : Nat) (f : Context → Context) : (s.updContext x f).directory = s.directory := rfl
@[simp] theorem updContext_engine (s : State) (x : Nat) (f : Context → Context) : (s.updContext x f).engine = s.engine := rfl
@[simp] theorem updContext_engineQueue (s : State) (x : Nat) (f : Context → Context) : (s.updContext x f).engineQueue = s.engineQueue := rfl
@[simp] theorem updContext_scrubNext (s : State) (x : Nat) (f : Context → Context) : (s.updContext x f).scrubNext = s.scrubNext := rfl
@[simp] theorem updContext_core_of (s : State) (x : Nat) (f : Context → Context) (i : Nat) : (s.updContext x f).core i = s.core i := rfl
@[simp] theorem updContext_company_of (s : State) (x : Nat) (f : Context → Context) (i : Nat) : (s.updContext x f).company i = s.company i := rfl
@[simp] theorem updContext_ring_of (s : State) (x : Nat) (f : Context → Context) (i : Nat) : (s.updContext x f).ring i = s.ring i := rfl
@[simp] theorem updContext_channel_of (s : State) (x : Nat) (f : Context → Context) (i : Nat) : (s.updContext x f).channel i = s.channel i := rfl
@[simp] theorem updContext_link_of (s : State) (x : Nat) (f : Context → Context) (i : Nat) : (s.updContext x f).link i = s.link i := rfl
@[simp] theorem updContext_job_of (s : State) (x : Nat) (f : Context → Context) (i : Nat) : (s.updContext x f).job i = s.job i := rfl
@[simp] theorem updContext_now_of (s : State) (x : Nat) (f : Context → Context) : (s.updContext x f).now = s.now := rfl

/-! ### putBytes -/

@[simp] theorem putBytes_pending (s : State) (sp : Space) (off : Nat) (d : List Byte) : (s.putBytes sp off d).pending = s.pending := rfl
@[simp] theorem putBytes_fresh (s : State) (sp : Space) (off : Nat) (d : List Byte) : (s.putBytes sp off d).fresh = s.fresh := rfl
@[simp] theorem putBytes_part (s : State) (sp : Space) (off : Nat) (d : List Byte) : (s.putBytes sp off d).part = s.part := rfl
@[simp] theorem putBytes_upsets (s : State) (sp : Space) (off : Nat) (d : List Byte) : (s.putBytes sp off d).upsets = s.upsets := rfl
@[simp] theorem putBytes_sram (s : State) (sp : Space) (off : Nat) (d : List Byte) : (s.putBytes sp off d).sram = s.sram := rfl
@[simp] theorem putBytes_cores (s : State) (sp : Space) (off : Nat) (d : List Byte) : (s.putBytes sp off d).cores = s.cores := rfl
@[simp] theorem putBytes_companies (s : State) (sp : Space) (off : Nat) (d : List Byte) : (s.putBytes sp off d).companies = s.companies := rfl
@[simp] theorem putBytes_street (s : State) (sp : Space) (off : Nat) (d : List Byte) : (s.putBytes sp off d).street = s.street := rfl
@[simp] theorem putBytes_carriages (s : State) (sp : Space) (off : Nat) (d : List Byte) : (s.putBytes sp off d).carriages = s.carriages := rfl
@[simp] theorem putBytes_nextCarriage (s : State) (sp : Space) (off : Nat) (d : List Byte) : (s.putBytes sp off d).nextCarriage = s.nextCarriage := rfl
@[simp] theorem putBytes_rings (s : State) (sp : Space) (off : Nat) (d : List Byte) : (s.putBytes sp off d).rings = s.rings := rfl
@[simp] theorem putBytes_interface (s : State) (sp : Space) (off : Nat) (d : List Byte) : (s.putBytes sp off d).interface = s.interface := rfl
@[simp] theorem putBytes_ready (s : State) (sp : Space) (off : Nat) (d : List Byte) : (s.putBytes sp off d).ready = s.ready := rfl
@[simp] theorem putBytes_fatal (s : State) (sp : Space) (off : Nat) (d : List Byte) : (s.putBytes sp off d).fatal = s.fatal := rfl
@[simp] theorem putBytes_attnMask (s : State) (sp : Space) (off : Nat) (d : List Byte) : (s.putBytes sp off d).attnMask = s.attnMask := rfl
@[simp] theorem putBytes_resetHeld (s : State) (sp : Space) (off : Nat) (d : List Byte) : (s.putBytes sp off d).resetHeld = s.resetHeld := rfl
@[simp] theorem putBytes_railsBroken (s : State) (sp : Space) (off : Nat) (d : List Byte) : (s.putBytes sp off d).railsBroken = s.railsBroken := rfl
@[simp] theorem putBytes_hostReset (s : State) (sp : Space) (off : Nat) (d : List Byte) : (s.putBytes sp off d).hostReset = s.hostReset := rfl
@[simp] theorem putBytes_channels (s : State) (sp : Space) (off : Nat) (d : List Byte) : (s.putBytes sp off d).channels = s.channels := rfl
@[simp] theorem putBytes_fatalRecord (s : State) (sp : Space) (off : Nat) (d : List Byte) : (s.putBytes sp off d).fatalRecord = s.fatalRecord := rfl
@[simp] theorem putBytes_log (s : State) (sp : Space) (off : Nat) (d : List Byte) : (s.putBytes sp off d).log = s.log := rfl
@[simp] theorem putBytes_power (s : State) (sp : Space) (off : Nat) (d : List Byte) : (s.putBytes sp off d).power = s.power := rfl
@[simp] theorem putBytes_transition (s : State) (sp : Space) (off : Nat) (d : List Byte) : (s.putBytes sp off d).transition = s.transition := rfl
@[simp] theorem putBytes_zeroing (s : State) (sp : Space) (off : Nat) (d : List Byte) : (s.putBytes sp off d).zeroing = s.zeroing := rfl
@[simp] theorem putBytes_waking (s : State) (sp : Space) (off : Nat) (d : List Byte) : (s.putBytes sp off d).waking = s.waking := rfl
@[simp] theorem putBytes_wakeSince (s : State) (sp : Space) (off : Nat) (d : List Byte) : (s.putBytes sp off d).wakeSince = s.wakeSince := rfl
@[simp] theorem putBytes_sustained (s : State) (sp : Space) (off : Nat) (d : List Byte) : (s.putBytes sp off d).sustained = s.sustained := rfl
@[simp] theorem putBytes_peak (s : State) (sp : Space) (off : Nat) (d : List Byte) : (s.putBytes sp off d).peak = s.peak := rfl
@[simp] theorem putBytes_ramp (s : State) (sp : Space) (off : Nat) (d : List Byte) : (s.putBytes sp off d).ramp = s.ramp := rfl
@[simp] theorem putBytes_fuseMax (s : State) (sp : Space) (off : Nat) (d : List Byte) : (s.putBytes sp off d).fuseMax = s.fuseMax := rfl
@[simp] theorem putBytes_running (s : State) (sp : Space) (off : Nat) (d : List Byte) : (s.putBytes sp off d).running = s.running := rfl
@[simp] theorem putBytes_stretch (s : State) (sp : Space) (off : Nat) (d : List Byte) : (s.putBytes sp off d).stretch = s.stretch := rfl
@[simp] theorem putBytes_triggers (s : State) (sp : Space) (off : Nat) (d : List Byte) : (s.putBytes sp off d).triggers = s.triggers := rfl
@[simp] theorem putBytes_stretchAt (s : State) (sp : Space) (off : Nat) (d : List Byte) : (s.putBytes sp off d).stretchAt = s.stretchAt := rfl
@[simp] theorem putBytes_stretchSince (s : State) (sp : Space) (off : Nat) (d : List Byte) : (s.putBytes sp off d).stretchSince = s.stretchSince := rfl
@[simp] theorem putBytes_riseArmed (s : State) (sp : Space) (off : Nat) (d : List Byte) : (s.putBytes sp off d).riseArmed = s.riseArmed := rfl
@[simp] theorem putBytes_fellAt (s : State) (sp : Space) (off : Nat) (d : List Byte) : (s.putBytes sp off d).fellAt = s.fellAt := rfl
@[simp] theorem putBytes_temps (s : State) (sp : Space) (off : Nat) (d : List Byte) : (s.putBytes sp off d).temps = s.temps := rfl
@[simp] theorem putBytes_watts (s : State) (sp : Space) (off : Nat) (d : List Byte) : (s.putBytes sp off d).watts = s.watts := rfl
@[simp] theorem putBytes_overSustained (s : State) (sp : Space) (off : Nat) (d : List Byte) : (s.putBytes sp off d).overSustained = s.overSustained := rfl
@[simp] theorem putBytes_districtCounters (s : State) (sp : Space) (off : Nat) (d : List Byte) : (s.putBytes sp off d).districtCounters = s.districtCounters := rfl
@[simp] theorem putBytes_chipCounters (s : State) (sp : Space) (off : Nat) (d : List Byte) : (s.putBytes sp off d).chipCounters = s.chipCounters := rfl
@[simp] theorem putBytes_chipCalSets (s : State) (sp : Space) (off : Nat) (d : List Byte) : (s.putBytes sp off d).chipCalSets = s.chipCalSets := rfl
@[simp] theorem putBytes_scope (s : State) (sp : Space) (off : Nat) (d : List Byte) : (s.putBytes sp off d).scope = s.scope := rfl
@[simp] theorem putBytes_challenge (s : State) (sp : Space) (off : Nat) (d : List Byte) : (s.putBytes sp off d).challenge = s.challenge := rfl
@[simp] theorem putBytes_extensions (s : State) (sp : Space) (off : Nat) (d : List Byte) : (s.putBytes sp off d).extensions = s.extensions := rfl
@[simp] theorem putBytes_chain (s : State) (sp : Space) (off : Nat) (d : List Byte) : (s.putBytes sp off d).chain = s.chain := rfl
@[simp] theorem putBytes_chainCount (s : State) (sp : Space) (off : Nat) (d : List Byte) : (s.putBytes sp off d).chainCount = s.chainCount := rfl
@[simp] theorem putBytes_perturb (s : State) (sp : Space) (off : Nat) (d : List Byte) : (s.putBytes sp off d).perturb = s.perturb := rfl
@[simp] theorem putBytes_withheld (s : State) (sp : Space) (off : Nat) (d : List Byte) : (s.putBytes sp off d).withheld = s.withheld := rfl
@[simp] theorem putBytes_bottomTree (s : State) (sp : Space) (off : Nat) (d : List Byte) : (s.putBytes sp off d).bottomTree = s.bottomTree := rfl
@[simp] theorem putBytes_bottomLeaf (s : State) (sp : Space) (off : Nat) (d : List Byte) : (s.putBytes sp off d).bottomLeaf = s.bottomLeaf := rfl
@[simp] theorem putBytes_bottomDraw (s : State) (sp : Space) (off : Nat) (d : List Byte) : (s.putBytes sp off d).bottomDraw = s.bottomDraw := rfl
@[simp] theorem putBytes_bootLeaf (s : State) (sp : Space) (off : Nat) (d : List Byte) : (s.putBytes sp off d).bootLeaf = s.bootLeaf := rfl
@[simp] theorem putBytes_keyContext (s : State) (sp : Space) (off : Nat) (d : List Byte) : (s.putBytes sp off d).keyContext = s.keyContext := rfl
@[simp] theorem putBytes_jtagIr (s : State) (sp : Space) (off : Nat) (d : List Byte) : (s.putBytes sp off d).jtagIr = s.jtagIr := rfl
@[simp] theorem putBytes_boundary (s : State) (sp : Space) (off : Nat) (d : List Byte) : (s.putBytes sp off d).boundary = s.boundary := rfl
@[simp] theorem putBytes_extestPins (s : State) (sp : Space) (off : Nat) (d : List Byte) : (s.putBytes sp off d).extestPins = s.extestPins := rfl
@[simp] theorem putBytes_tdo (s : State) (sp : Space) (off : Nat) (d : List Byte) : (s.putBytes sp off d).tdo = s.tdo := rfl
@[simp] theorem putBytes_smbus (s : State) (sp : Space) (off : Nat) (d : List Byte) : (s.putBytes sp off d).smbus = s.smbus := rfl
@[simp] theorem putBytes_town (s : State) (sp : Space) (off : Nat) (d : List Byte) : (s.putBytes sp off d).town = s.town := rfl
@[simp] theorem putBytes_chipId (s : State) (sp : Space) (off : Nat) (d : List Byte) : (s.putBytes sp off d).chipId = s.chipId := rfl
@[simp] theorem putBytes_links (s : State) (sp : Space) (off : Nat) (d : List Byte) : (s.putBytes sp off d).links = s.links := rfl
@[simp] theorem putBytes_routes (s : State) (sp : Space) (off : Nat) (d : List Byte) : (s.putBytes sp off d).routes = s.routes := rfl
@[simp] theorem putBytes_routesShadow (s : State) (sp : Space) (off : Nat) (d : List Byte) : (s.putBytes sp off d).routesShadow = s.routesShadow := rfl
@[simp] theorem putBytes_swapAt (s : State) (sp : Space) (off : Nat) (d : List Byte) : (s.putBytes sp off d).swapAt = s.swapAt := rfl
@[simp] theorem putBytes_outbox (s : State) (sp : Space) (off : Nat) (d : List Byte) : (s.putBytes sp off d).outbox = s.outbox := rfl
@[simp] theorem putBytes_seen (s : State) (sp : Space) (off : Nat) (d : List Byte) : (s.putBytes sp off d).seen = s.seen := rfl
@[simp] theorem putBytes_messages (s : State) (sp : Space) (off : Nat) (d : List Byte) : (s.putBytes sp off d).messages = s.messages := rfl
@[simp] theorem putBytes_jobs (s : State) (sp : Space) (off : Nat) (d : List Byte) : (s.putBytes sp off d).jobs = s.jobs := rfl
@[simp] theorem putBytes_contexts (s : State) (sp : Space) (off : Nat) (d : List Byte) : (s.putBytes sp off d).contexts = s.contexts := rfl
@[simp] theorem putBytes_plans (s : State) (sp : Space) (off : Nat) (d : List Byte) : (s.putBytes sp off d).plans = s.plans := rfl
@[simp] theorem putBytes_directory (s : State) (sp : Space) (off : Nat) (d : List Byte) : (s.putBytes sp off d).directory = s.directory := rfl
@[simp] theorem putBytes_engine (s : State) (sp : Space) (off : Nat) (d : List Byte) : (s.putBytes sp off d).engine = s.engine := rfl
@[simp] theorem putBytes_engineQueue (s : State) (sp : Space) (off : Nat) (d : List Byte) : (s.putBytes sp off d).engineQueue = s.engineQueue := rfl
@[simp] theorem putBytes_scrubNext (s : State) (sp : Space) (off : Nat) (d : List Byte) : (s.putBytes sp off d).scrubNext = s.scrubNext := rfl
@[simp] theorem putBytes_core_of (s : State) (sp : Space) (off : Nat) (d : List Byte) (i : Nat) : (s.putBytes sp off d).core i = s.core i := rfl
@[simp] theorem putBytes_company_of (s : State) (sp : Space) (off : Nat) (d : List Byte) (i : Nat) : (s.putBytes sp off d).company i = s.company i := rfl
@[simp] theorem putBytes_ring_of (s : State) (sp : Space) (off : Nat) (d : List Byte) (i : Nat) : (s.putBytes sp off d).ring i = s.ring i := rfl
@[simp] theorem putBytes_channel_of (s : State) (sp : Space) (off : Nat) (d : List Byte) (i : Nat) : (s.putBytes sp off d).channel i = s.channel i := rfl
@[simp] theorem putBytes_link_of (s : State) (sp : Space) (off : Nat) (d : List Byte) (i : Nat) : (s.putBytes sp off d).link i = s.link i := rfl
@[simp] theorem putBytes_job_of (s : State) (sp : Space) (off : Nat) (d : List Byte) (i : Nat) : (s.putBytes sp off d).job i = s.job i := rfl
@[simp] theorem putBytes_context_of (s : State) (sp : Space) (off : Nat) (d : List Byte) (i : Nat) : (s.putBytes sp off d).context i = s.context i := rfl
@[simp] theorem putBytes_now_of (s : State) (sp : Space) (off : Nat) (d : List Byte) : (s.putBytes sp off d).now = s.now := rfl

/-! ### putWord -/

@[simp] theorem putWord_pending (s : State) (core w : Nat) (v : Word) : (s.putWord core w v).pending = s.pending := rfl
@[simp] theorem putWord_fresh (s : State) (core w : Nat) (v : Word) : (s.putWord core w v).fresh = s.fresh := rfl
@[simp] theorem putWord_part (s : State) (core w : Nat) (v : Word) : (s.putWord core w v).part = s.part := rfl
@[simp] theorem putWord_upsets (s : State) (core w : Nat) (v : Word) : (s.putWord core w v).upsets = s.upsets := rfl
@[simp] theorem putWord_sram (s : State) (core w : Nat) (v : Word) : (s.putWord core w v).sram = s.sram := rfl
@[simp] theorem putWord_cores (s : State) (core w : Nat) (v : Word) : (s.putWord core w v).cores = s.cores := rfl
@[simp] theorem putWord_companies (s : State) (core w : Nat) (v : Word) : (s.putWord core w v).companies = s.companies := rfl
@[simp] theorem putWord_street (s : State) (core w : Nat) (v : Word) : (s.putWord core w v).street = s.street := rfl
@[simp] theorem putWord_carriages (s : State) (core w : Nat) (v : Word) : (s.putWord core w v).carriages = s.carriages := rfl
@[simp] theorem putWord_nextCarriage (s : State) (core w : Nat) (v : Word) : (s.putWord core w v).nextCarriage = s.nextCarriage := rfl
@[simp] theorem putWord_rings (s : State) (core w : Nat) (v : Word) : (s.putWord core w v).rings = s.rings := rfl
@[simp] theorem putWord_interface (s : State) (core w : Nat) (v : Word) : (s.putWord core w v).interface = s.interface := rfl
@[simp] theorem putWord_ready (s : State) (core w : Nat) (v : Word) : (s.putWord core w v).ready = s.ready := rfl
@[simp] theorem putWord_fatal (s : State) (core w : Nat) (v : Word) : (s.putWord core w v).fatal = s.fatal := rfl
@[simp] theorem putWord_attnMask (s : State) (core w : Nat) (v : Word) : (s.putWord core w v).attnMask = s.attnMask := rfl
@[simp] theorem putWord_resetHeld (s : State) (core w : Nat) (v : Word) : (s.putWord core w v).resetHeld = s.resetHeld := rfl
@[simp] theorem putWord_railsBroken (s : State) (core w : Nat) (v : Word) : (s.putWord core w v).railsBroken = s.railsBroken := rfl
@[simp] theorem putWord_hostReset (s : State) (core w : Nat) (v : Word) : (s.putWord core w v).hostReset = s.hostReset := rfl
@[simp] theorem putWord_channels (s : State) (core w : Nat) (v : Word) : (s.putWord core w v).channels = s.channels := rfl
@[simp] theorem putWord_fatalRecord (s : State) (core w : Nat) (v : Word) : (s.putWord core w v).fatalRecord = s.fatalRecord := rfl
@[simp] theorem putWord_log (s : State) (core w : Nat) (v : Word) : (s.putWord core w v).log = s.log := rfl
@[simp] theorem putWord_power (s : State) (core w : Nat) (v : Word) : (s.putWord core w v).power = s.power := rfl
@[simp] theorem putWord_transition (s : State) (core w : Nat) (v : Word) : (s.putWord core w v).transition = s.transition := rfl
@[simp] theorem putWord_zeroing (s : State) (core w : Nat) (v : Word) : (s.putWord core w v).zeroing = s.zeroing := rfl
@[simp] theorem putWord_waking (s : State) (core w : Nat) (v : Word) : (s.putWord core w v).waking = s.waking := rfl
@[simp] theorem putWord_wakeSince (s : State) (core w : Nat) (v : Word) : (s.putWord core w v).wakeSince = s.wakeSince := rfl
@[simp] theorem putWord_sustained (s : State) (core w : Nat) (v : Word) : (s.putWord core w v).sustained = s.sustained := rfl
@[simp] theorem putWord_peak (s : State) (core w : Nat) (v : Word) : (s.putWord core w v).peak = s.peak := rfl
@[simp] theorem putWord_ramp (s : State) (core w : Nat) (v : Word) : (s.putWord core w v).ramp = s.ramp := rfl
@[simp] theorem putWord_fuseMax (s : State) (core w : Nat) (v : Word) : (s.putWord core w v).fuseMax = s.fuseMax := rfl
@[simp] theorem putWord_running (s : State) (core w : Nat) (v : Word) : (s.putWord core w v).running = s.running := rfl
@[simp] theorem putWord_stretch (s : State) (core w : Nat) (v : Word) : (s.putWord core w v).stretch = s.stretch := rfl
@[simp] theorem putWord_triggers (s : State) (core w : Nat) (v : Word) : (s.putWord core w v).triggers = s.triggers := rfl
@[simp] theorem putWord_stretchAt (s : State) (core w : Nat) (v : Word) : (s.putWord core w v).stretchAt = s.stretchAt := rfl
@[simp] theorem putWord_stretchSince (s : State) (core w : Nat) (v : Word) : (s.putWord core w v).stretchSince = s.stretchSince := rfl
@[simp] theorem putWord_riseArmed (s : State) (core w : Nat) (v : Word) : (s.putWord core w v).riseArmed = s.riseArmed := rfl
@[simp] theorem putWord_fellAt (s : State) (core w : Nat) (v : Word) : (s.putWord core w v).fellAt = s.fellAt := rfl
@[simp] theorem putWord_temps (s : State) (core w : Nat) (v : Word) : (s.putWord core w v).temps = s.temps := rfl
@[simp] theorem putWord_watts (s : State) (core w : Nat) (v : Word) : (s.putWord core w v).watts = s.watts := rfl
@[simp] theorem putWord_overSustained (s : State) (core w : Nat) (v : Word) : (s.putWord core w v).overSustained = s.overSustained := rfl
@[simp] theorem putWord_districtCounters (s : State) (core w : Nat) (v : Word) : (s.putWord core w v).districtCounters = s.districtCounters := rfl
@[simp] theorem putWord_chipCounters (s : State) (core w : Nat) (v : Word) : (s.putWord core w v).chipCounters = s.chipCounters := rfl
@[simp] theorem putWord_chipCalSets (s : State) (core w : Nat) (v : Word) : (s.putWord core w v).chipCalSets = s.chipCalSets := rfl
@[simp] theorem putWord_scope (s : State) (core w : Nat) (v : Word) : (s.putWord core w v).scope = s.scope := rfl
@[simp] theorem putWord_challenge (s : State) (core w : Nat) (v : Word) : (s.putWord core w v).challenge = s.challenge := rfl
@[simp] theorem putWord_extensions (s : State) (core w : Nat) (v : Word) : (s.putWord core w v).extensions = s.extensions := rfl
@[simp] theorem putWord_chain (s : State) (core w : Nat) (v : Word) : (s.putWord core w v).chain = s.chain := rfl
@[simp] theorem putWord_chainCount (s : State) (core w : Nat) (v : Word) : (s.putWord core w v).chainCount = s.chainCount := rfl
@[simp] theorem putWord_perturb (s : State) (core w : Nat) (v : Word) : (s.putWord core w v).perturb = s.perturb := rfl
@[simp] theorem putWord_withheld (s : State) (core w : Nat) (v : Word) : (s.putWord core w v).withheld = s.withheld := rfl
@[simp] theorem putWord_bottomTree (s : State) (core w : Nat) (v : Word) : (s.putWord core w v).bottomTree = s.bottomTree := rfl
@[simp] theorem putWord_bottomLeaf (s : State) (core w : Nat) (v : Word) : (s.putWord core w v).bottomLeaf = s.bottomLeaf := rfl
@[simp] theorem putWord_bottomDraw (s : State) (core w : Nat) (v : Word) : (s.putWord core w v).bottomDraw = s.bottomDraw := rfl
@[simp] theorem putWord_bootLeaf (s : State) (core w : Nat) (v : Word) : (s.putWord core w v).bootLeaf = s.bootLeaf := rfl
@[simp] theorem putWord_keyContext (s : State) (core w : Nat) (v : Word) : (s.putWord core w v).keyContext = s.keyContext := rfl
@[simp] theorem putWord_jtagIr (s : State) (core w : Nat) (v : Word) : (s.putWord core w v).jtagIr = s.jtagIr := rfl
@[simp] theorem putWord_boundary (s : State) (core w : Nat) (v : Word) : (s.putWord core w v).boundary = s.boundary := rfl
@[simp] theorem putWord_extestPins (s : State) (core w : Nat) (v : Word) : (s.putWord core w v).extestPins = s.extestPins := rfl
@[simp] theorem putWord_tdo (s : State) (core w : Nat) (v : Word) : (s.putWord core w v).tdo = s.tdo := rfl
@[simp] theorem putWord_smbus (s : State) (core w : Nat) (v : Word) : (s.putWord core w v).smbus = s.smbus := rfl
@[simp] theorem putWord_town (s : State) (core w : Nat) (v : Word) : (s.putWord core w v).town = s.town := rfl
@[simp] theorem putWord_chipId (s : State) (core w : Nat) (v : Word) : (s.putWord core w v).chipId = s.chipId := rfl
@[simp] theorem putWord_links (s : State) (core w : Nat) (v : Word) : (s.putWord core w v).links = s.links := rfl
@[simp] theorem putWord_routes (s : State) (core w : Nat) (v : Word) : (s.putWord core w v).routes = s.routes := rfl
@[simp] theorem putWord_routesShadow (s : State) (core w : Nat) (v : Word) : (s.putWord core w v).routesShadow = s.routesShadow := rfl
@[simp] theorem putWord_swapAt (s : State) (core w : Nat) (v : Word) : (s.putWord core w v).swapAt = s.swapAt := rfl
@[simp] theorem putWord_outbox (s : State) (core w : Nat) (v : Word) : (s.putWord core w v).outbox = s.outbox := rfl
@[simp] theorem putWord_seen (s : State) (core w : Nat) (v : Word) : (s.putWord core w v).seen = s.seen := rfl
@[simp] theorem putWord_messages (s : State) (core w : Nat) (v : Word) : (s.putWord core w v).messages = s.messages := rfl
@[simp] theorem putWord_jobs (s : State) (core w : Nat) (v : Word) : (s.putWord core w v).jobs = s.jobs := rfl
@[simp] theorem putWord_contexts (s : State) (core w : Nat) (v : Word) : (s.putWord core w v).contexts = s.contexts := rfl
@[simp] theorem putWord_plans (s : State) (core w : Nat) (v : Word) : (s.putWord core w v).plans = s.plans := rfl
@[simp] theorem putWord_directory (s : State) (core w : Nat) (v : Word) : (s.putWord core w v).directory = s.directory := rfl
@[simp] theorem putWord_engine (s : State) (core w : Nat) (v : Word) : (s.putWord core w v).engine = s.engine := rfl
@[simp] theorem putWord_engineQueue (s : State) (core w : Nat) (v : Word) : (s.putWord core w v).engineQueue = s.engineQueue := rfl
@[simp] theorem putWord_scrubNext (s : State) (core w : Nat) (v : Word) : (s.putWord core w v).scrubNext = s.scrubNext := rfl
@[simp] theorem putWord_core_of (s : State) (core w : Nat) (v : Word) (i : Nat) : (s.putWord core w v).core i = s.core i := rfl
@[simp] theorem putWord_company_of (s : State) (core w : Nat) (v : Word) (i : Nat) : (s.putWord core w v).company i = s.company i := rfl
@[simp] theorem putWord_ring_of (s : State) (core w : Nat) (v : Word) (i : Nat) : (s.putWord core w v).ring i = s.ring i := rfl
@[simp] theorem putWord_channel_of (s : State) (core w : Nat) (v : Word) (i : Nat) : (s.putWord core w v).channel i = s.channel i := rfl
@[simp] theorem putWord_link_of (s : State) (core w : Nat) (v : Word) (i : Nat) : (s.putWord core w v).link i = s.link i := rfl
@[simp] theorem putWord_job_of (s : State) (core w : Nat) (v : Word) (i : Nat) : (s.putWord core w v).job i = s.job i := rfl
@[simp] theorem putWord_context_of (s : State) (core w : Nat) (v : Word) (i : Nat) : (s.putWord core w v).context i = s.context i := rfl
@[simp] theorem putWord_now_of (s : State) (core w : Nat) (v : Word) : (s.putWord core w v).now = s.now := rfl

/-! ### setUpset -/

@[simp] theorem setUpset_pending (s : State) (sp : Space) (off n : Nat) : (s.setUpset sp off n).pending = s.pending := rfl
@[simp] theorem setUpset_fresh (s : State) (sp : Space) (off n : Nat) : (s.setUpset sp off n).fresh = s.fresh := rfl
@[simp] theorem setUpset_part (s : State) (sp : Space) (off n : Nat) : (s.setUpset sp off n).part = s.part := rfl
@[simp] theorem setUpset_mem (s : State) (sp : Space) (off n : Nat) : (s.setUpset sp off n).mem = s.mem := rfl
@[simp] theorem setUpset_sram (s : State) (sp : Space) (off n : Nat) : (s.setUpset sp off n).sram = s.sram := rfl
@[simp] theorem setUpset_cores (s : State) (sp : Space) (off n : Nat) : (s.setUpset sp off n).cores = s.cores := rfl
@[simp] theorem setUpset_companies (s : State) (sp : Space) (off n : Nat) : (s.setUpset sp off n).companies = s.companies := rfl
@[simp] theorem setUpset_street (s : State) (sp : Space) (off n : Nat) : (s.setUpset sp off n).street = s.street := rfl
@[simp] theorem setUpset_carriages (s : State) (sp : Space) (off n : Nat) : (s.setUpset sp off n).carriages = s.carriages := rfl
@[simp] theorem setUpset_nextCarriage (s : State) (sp : Space) (off n : Nat) : (s.setUpset sp off n).nextCarriage = s.nextCarriage := rfl
@[simp] theorem setUpset_rings (s : State) (sp : Space) (off n : Nat) : (s.setUpset sp off n).rings = s.rings := rfl
@[simp] theorem setUpset_interface (s : State) (sp : Space) (off n : Nat) : (s.setUpset sp off n).interface = s.interface := rfl
@[simp] theorem setUpset_ready (s : State) (sp : Space) (off n : Nat) : (s.setUpset sp off n).ready = s.ready := rfl
@[simp] theorem setUpset_fatal (s : State) (sp : Space) (off n : Nat) : (s.setUpset sp off n).fatal = s.fatal := rfl
@[simp] theorem setUpset_attnMask (s : State) (sp : Space) (off n : Nat) : (s.setUpset sp off n).attnMask = s.attnMask := rfl
@[simp] theorem setUpset_resetHeld (s : State) (sp : Space) (off n : Nat) : (s.setUpset sp off n).resetHeld = s.resetHeld := rfl
@[simp] theorem setUpset_railsBroken (s : State) (sp : Space) (off n : Nat) : (s.setUpset sp off n).railsBroken = s.railsBroken := rfl
@[simp] theorem setUpset_hostReset (s : State) (sp : Space) (off n : Nat) : (s.setUpset sp off n).hostReset = s.hostReset := rfl
@[simp] theorem setUpset_channels (s : State) (sp : Space) (off n : Nat) : (s.setUpset sp off n).channels = s.channels := rfl
@[simp] theorem setUpset_fatalRecord (s : State) (sp : Space) (off n : Nat) : (s.setUpset sp off n).fatalRecord = s.fatalRecord := rfl
@[simp] theorem setUpset_log (s : State) (sp : Space) (off n : Nat) : (s.setUpset sp off n).log = s.log := rfl
@[simp] theorem setUpset_power (s : State) (sp : Space) (off n : Nat) : (s.setUpset sp off n).power = s.power := rfl
@[simp] theorem setUpset_transition (s : State) (sp : Space) (off n : Nat) : (s.setUpset sp off n).transition = s.transition := rfl
@[simp] theorem setUpset_zeroing (s : State) (sp : Space) (off n : Nat) : (s.setUpset sp off n).zeroing = s.zeroing := rfl
@[simp] theorem setUpset_waking (s : State) (sp : Space) (off n : Nat) : (s.setUpset sp off n).waking = s.waking := rfl
@[simp] theorem setUpset_wakeSince (s : State) (sp : Space) (off n : Nat) : (s.setUpset sp off n).wakeSince = s.wakeSince := rfl
@[simp] theorem setUpset_sustained (s : State) (sp : Space) (off n : Nat) : (s.setUpset sp off n).sustained = s.sustained := rfl
@[simp] theorem setUpset_peak (s : State) (sp : Space) (off n : Nat) : (s.setUpset sp off n).peak = s.peak := rfl
@[simp] theorem setUpset_ramp (s : State) (sp : Space) (off n : Nat) : (s.setUpset sp off n).ramp = s.ramp := rfl
@[simp] theorem setUpset_fuseMax (s : State) (sp : Space) (off n : Nat) : (s.setUpset sp off n).fuseMax = s.fuseMax := rfl
@[simp] theorem setUpset_running (s : State) (sp : Space) (off n : Nat) : (s.setUpset sp off n).running = s.running := rfl
@[simp] theorem setUpset_stretch (s : State) (sp : Space) (off n : Nat) : (s.setUpset sp off n).stretch = s.stretch := rfl
@[simp] theorem setUpset_triggers (s : State) (sp : Space) (off n : Nat) : (s.setUpset sp off n).triggers = s.triggers := rfl
@[simp] theorem setUpset_stretchAt (s : State) (sp : Space) (off n : Nat) : (s.setUpset sp off n).stretchAt = s.stretchAt := rfl
@[simp] theorem setUpset_stretchSince (s : State) (sp : Space) (off n : Nat) : (s.setUpset sp off n).stretchSince = s.stretchSince := rfl
@[simp] theorem setUpset_riseArmed (s : State) (sp : Space) (off n : Nat) : (s.setUpset sp off n).riseArmed = s.riseArmed := rfl
@[simp] theorem setUpset_fellAt (s : State) (sp : Space) (off n : Nat) : (s.setUpset sp off n).fellAt = s.fellAt := rfl
@[simp] theorem setUpset_temps (s : State) (sp : Space) (off n : Nat) : (s.setUpset sp off n).temps = s.temps := rfl
@[simp] theorem setUpset_watts (s : State) (sp : Space) (off n : Nat) : (s.setUpset sp off n).watts = s.watts := rfl
@[simp] theorem setUpset_overSustained (s : State) (sp : Space) (off n : Nat) : (s.setUpset sp off n).overSustained = s.overSustained := rfl
@[simp] theorem setUpset_districtCounters (s : State) (sp : Space) (off n : Nat) : (s.setUpset sp off n).districtCounters = s.districtCounters := rfl
@[simp] theorem setUpset_chipCounters (s : State) (sp : Space) (off n : Nat) : (s.setUpset sp off n).chipCounters = s.chipCounters := rfl
@[simp] theorem setUpset_chipCalSets (s : State) (sp : Space) (off n : Nat) : (s.setUpset sp off n).chipCalSets = s.chipCalSets := rfl
@[simp] theorem setUpset_scope (s : State) (sp : Space) (off n : Nat) : (s.setUpset sp off n).scope = s.scope := rfl
@[simp] theorem setUpset_challenge (s : State) (sp : Space) (off n : Nat) : (s.setUpset sp off n).challenge = s.challenge := rfl
@[simp] theorem setUpset_extensions (s : State) (sp : Space) (off n : Nat) : (s.setUpset sp off n).extensions = s.extensions := rfl
@[simp] theorem setUpset_chain (s : State) (sp : Space) (off n : Nat) : (s.setUpset sp off n).chain = s.chain := rfl
@[simp] theorem setUpset_chainCount (s : State) (sp : Space) (off n : Nat) : (s.setUpset sp off n).chainCount = s.chainCount := rfl
@[simp] theorem setUpset_perturb (s : State) (sp : Space) (off n : Nat) : (s.setUpset sp off n).perturb = s.perturb := rfl
@[simp] theorem setUpset_withheld (s : State) (sp : Space) (off n : Nat) : (s.setUpset sp off n).withheld = s.withheld := rfl
@[simp] theorem setUpset_bottomTree (s : State) (sp : Space) (off n : Nat) : (s.setUpset sp off n).bottomTree = s.bottomTree := rfl
@[simp] theorem setUpset_bottomLeaf (s : State) (sp : Space) (off n : Nat) : (s.setUpset sp off n).bottomLeaf = s.bottomLeaf := rfl
@[simp] theorem setUpset_bottomDraw (s : State) (sp : Space) (off n : Nat) : (s.setUpset sp off n).bottomDraw = s.bottomDraw := rfl
@[simp] theorem setUpset_bootLeaf (s : State) (sp : Space) (off n : Nat) : (s.setUpset sp off n).bootLeaf = s.bootLeaf := rfl
@[simp] theorem setUpset_keyContext (s : State) (sp : Space) (off n : Nat) : (s.setUpset sp off n).keyContext = s.keyContext := rfl
@[simp] theorem setUpset_jtagIr (s : State) (sp : Space) (off n : Nat) : (s.setUpset sp off n).jtagIr = s.jtagIr := rfl
@[simp] theorem setUpset_boundary (s : State) (sp : Space) (off n : Nat) : (s.setUpset sp off n).boundary = s.boundary := rfl
@[simp] theorem setUpset_extestPins (s : State) (sp : Space) (off n : Nat) : (s.setUpset sp off n).extestPins = s.extestPins := rfl
@[simp] theorem setUpset_tdo (s : State) (sp : Space) (off n : Nat) : (s.setUpset sp off n).tdo = s.tdo := rfl
@[simp] theorem setUpset_smbus (s : State) (sp : Space) (off n : Nat) : (s.setUpset sp off n).smbus = s.smbus := rfl
@[simp] theorem setUpset_town (s : State) (sp : Space) (off n : Nat) : (s.setUpset sp off n).town = s.town := rfl
@[simp] theorem setUpset_chipId (s : State) (sp : Space) (off n : Nat) : (s.setUpset sp off n).chipId = s.chipId := rfl
@[simp] theorem setUpset_links (s : State) (sp : Space) (off n : Nat) : (s.setUpset sp off n).links = s.links := rfl
@[simp] theorem setUpset_routes (s : State) (sp : Space) (off n : Nat) : (s.setUpset sp off n).routes = s.routes := rfl
@[simp] theorem setUpset_routesShadow (s : State) (sp : Space) (off n : Nat) : (s.setUpset sp off n).routesShadow = s.routesShadow := rfl
@[simp] theorem setUpset_swapAt (s : State) (sp : Space) (off n : Nat) : (s.setUpset sp off n).swapAt = s.swapAt := rfl
@[simp] theorem setUpset_outbox (s : State) (sp : Space) (off n : Nat) : (s.setUpset sp off n).outbox = s.outbox := rfl
@[simp] theorem setUpset_seen (s : State) (sp : Space) (off n : Nat) : (s.setUpset sp off n).seen = s.seen := rfl
@[simp] theorem setUpset_messages (s : State) (sp : Space) (off n : Nat) : (s.setUpset sp off n).messages = s.messages := rfl
@[simp] theorem setUpset_jobs (s : State) (sp : Space) (off n : Nat) : (s.setUpset sp off n).jobs = s.jobs := rfl
@[simp] theorem setUpset_contexts (s : State) (sp : Space) (off n : Nat) : (s.setUpset sp off n).contexts = s.contexts := rfl
@[simp] theorem setUpset_plans (s : State) (sp : Space) (off n : Nat) : (s.setUpset sp off n).plans = s.plans := rfl
@[simp] theorem setUpset_directory (s : State) (sp : Space) (off n : Nat) : (s.setUpset sp off n).directory = s.directory := rfl
@[simp] theorem setUpset_engine (s : State) (sp : Space) (off n : Nat) : (s.setUpset sp off n).engine = s.engine := rfl
@[simp] theorem setUpset_engineQueue (s : State) (sp : Space) (off n : Nat) : (s.setUpset sp off n).engineQueue = s.engineQueue := rfl
@[simp] theorem setUpset_scrubNext (s : State) (sp : Space) (off n : Nat) : (s.setUpset sp off n).scrubNext = s.scrubNext := rfl
@[simp] theorem setUpset_core_of (s : State) (sp : Space) (off n : Nat) (i : Nat) : (s.setUpset sp off n).core i = s.core i := rfl
@[simp] theorem setUpset_company_of (s : State) (sp : Space) (off n : Nat) (i : Nat) : (s.setUpset sp off n).company i = s.company i := rfl
@[simp] theorem setUpset_ring_of (s : State) (sp : Space) (off n : Nat) (i : Nat) : (s.setUpset sp off n).ring i = s.ring i := rfl
@[simp] theorem setUpset_channel_of (s : State) (sp : Space) (off n : Nat) (i : Nat) : (s.setUpset sp off n).channel i = s.channel i := rfl
@[simp] theorem setUpset_link_of (s : State) (sp : Space) (off n : Nat) (i : Nat) : (s.setUpset sp off n).link i = s.link i := rfl
@[simp] theorem setUpset_job_of (s : State) (sp : Space) (off n : Nat) (i : Nat) : (s.setUpset sp off n).job i = s.job i := rfl
@[simp] theorem setUpset_context_of (s : State) (sp : Space) (off n : Nat) (i : Nat) : (s.setUpset sp off n).context i = s.context i := rfl
@[simp] theorem setUpset_now_of (s : State) (sp : Space) (off n : Nat) : (s.setUpset sp off n).now = s.now := rfl

/-! ### Tables of the state -/

@[simp] theorem core_setCore_same (s : State) (c : Nat) (k : Core) : (s.setCore c k).core c = k := SMap.get_set_same _ _ _ _
theorem core_setCore (s : State) (c i : Nat) (k : Core) : (s.setCore c k).core i = if c = i then k else s.core i := SMap.get_set _ _ _ _ _
theorem core_setCore_other (s : State) {c i : Nat} (k : Core) (h : c ≠ i) : (s.setCore c k).core i = s.core i := SMap.get_set_other _ _ _ h
@[simp] theorem core_updCore_same (s : State) (c : Nat) (f : Core → Core) : (s.updCore c f).core c = f (s.core c) := SMap.get_set_same _ _ _ _
theorem core_updCore (s : State) (c i : Nat) (f : Core → Core) : (s.updCore c f).core i = if c = i then f (s.core c) else s.core i :=
  SMap.get_set _ _ _ _ _
theorem core_updCore_other (s : State) {c i : Nat} (f : Core → Core) (h : c ≠ i) : (s.updCore c f).core i = s.core i := SMap.get_set_other _ _ _ h

@[simp] theorem company_setCompany_same (s : State) (c : Nat) (k : Company) : (s.setCompany c k).company c = k := SMap.get_set_same _ _ _ _
theorem company_setCompany (s : State) (c i : Nat) (k : Company) : (s.setCompany c k).company i = if c = i then k else s.company i := SMap.get_set _ _ _ _ _
theorem company_setCompany_other (s : State) {c i : Nat} (k : Company) (h : c ≠ i) : (s.setCompany c k).company i = s.company i := SMap.get_set_other _ _ _ h
@[simp] theorem company_updCompany_same (s : State) (c : Nat) (f : Company → Company) : (s.updCompany c f).company c = f (s.company c) := SMap.get_set_same _ _ _ _
theorem company_updCompany (s : State) (c i : Nat) (f : Company → Company) : (s.updCompany c f).company i = if c = i then f (s.company c) else s.company i :=
  SMap.get_set _ _ _ _ _
theorem company_updCompany_other (s : State) {c i : Nat} (f : Company → Company) (h : c ≠ i) : (s.updCompany c f).company i = s.company i := SMap.get_set_other _ _ _ h

@[simp] theorem ring_setRing_same (s : State) (r : Nat) (k : Ring) : (s.setRing r k).ring r = k := SMap.get_set_same _ _ _ _
theorem ring_setRing (s : State) (r i : Nat) (k : Ring) : (s.setRing r k).ring i = if r = i then k else s.ring i := SMap.get_set _ _ _ _ _
theorem ring_setRing_other (s : State) {r i : Nat} (k : Ring) (h : r ≠ i) : (s.setRing r k).ring i = s.ring i := SMap.get_set_other _ _ _ h
@[simp] theorem ring_updRing_same (s : State) (r : Nat) (f : Ring → Ring) : (s.updRing r f).ring r = f (s.ring r) := SMap.get_set_same _ _ _ _
theorem ring_updRing (s : State) (r i : Nat) (f : Ring → Ring) : (s.updRing r f).ring i = if r = i then f (s.ring r) else s.ring i :=
  SMap.get_set _ _ _ _ _
theorem ring_updRing_other (s : State) {r i : Nat} (f : Ring → Ring) (h : r ≠ i) : (s.updRing r f).ring i = s.ring i := SMap.get_set_other _ _ _ h

@[simp] theorem channel_setChannel_same (s : State) (c : Nat) (k : Channel) : (s.setChannel c k).channel c = k := SMap.get_set_same _ _ _ _
theorem channel_setChannel (s : State) (c i : Nat) (k : Channel) : (s.setChannel c k).channel i = if c = i then k else s.channel i := SMap.get_set _ _ _ _ _
theorem channel_setChannel_other (s : State) {c i : Nat} (k : Channel) (h : c ≠ i) : (s.setChannel c k).channel i = s.channel i := SMap.get_set_other _ _ _ h
@[simp] theorem channel_updChannel_same (s : State) (c : Nat) (f : Channel → Channel) : (s.updChannel c f).channel c = f (s.channel c) := SMap.get_set_same _ _ _ _
theorem channel_updChannel (s : State) (c i : Nat) (f : Channel → Channel) : (s.updChannel c f).channel i = if c = i then f (s.channel c) else s.channel i :=
  SMap.get_set _ _ _ _ _
theorem channel_updChannel_other (s : State) {c i : Nat} (f : Channel → Channel) (h : c ≠ i) : (s.updChannel c f).channel i = s.channel i := SMap.get_set_other _ _ _ h

@[simp] theorem link_setLink_same (s : State) (l : Nat) (k : Link) : (s.setLink l k).link l = k := SMap.get_set_same _ _ _ _
theorem link_setLink (s : State) (l i : Nat) (k : Link) : (s.setLink l k).link i = if l = i then k else s.link i := SMap.get_set _ _ _ _ _
theorem link_setLink_other (s : State) {l i : Nat} (k : Link) (h : l ≠ i) : (s.setLink l k).link i = s.link i := SMap.get_set_other _ _ _ h
@[simp] theorem link_updLink_same (s : State) (l : Nat) (f : Link → Link) : (s.updLink l f).link l = f (s.link l) := SMap.get_set_same _ _ _ _
theorem link_updLink (s : State) (l i : Nat) (f : Link → Link) : (s.updLink l f).link i = if l = i then f (s.link l) else s.link i :=
  SMap.get_set _ _ _ _ _
theorem link_updLink_other (s : State) {l i : Nat} (f : Link → Link) (h : l ≠ i) : (s.updLink l f).link i = s.link i := SMap.get_set_other _ _ _ h

@[simp] theorem job_setJob_same (s : State) (j : Nat) (k : Job) : (s.setJob j k).job j = k := SMap.get_set_same _ _ _ _
theorem job_setJob (s : State) (j i : Nat) (k : Job) : (s.setJob j k).job i = if j = i then k else s.job i := SMap.get_set _ _ _ _ _
theorem job_setJob_other (s : State) {j i : Nat} (k : Job) (h : j ≠ i) : (s.setJob j k).job i = s.job i := SMap.get_set_other _ _ _ h
@[simp] theorem job_updJob_same (s : State) (j : Nat) (f : Job → Job) : (s.updJob j f).job j = f (s.job j) := SMap.get_set_same _ _ _ _
theorem job_updJob (s : State) (j i : Nat) (f : Job → Job) : (s.updJob j f).job i = if j = i then f (s.job j) else s.job i :=
  SMap.get_set _ _ _ _ _
theorem job_updJob_other (s : State) {j i : Nat} (f : Job → Job) (h : j ≠ i) : (s.updJob j f).job i = s.job i := SMap.get_set_other _ _ _ h

@[simp] theorem context_setContext_same (s : State) (x : Nat) (k : Context) : (s.setContext x k).context x = k := SMap.get_set_same _ _ _ _
theorem context_setContext (s : State) (x i : Nat) (k : Context) : (s.setContext x k).context i = if x = i then k else s.context i := SMap.get_set _ _ _ _ _
theorem context_setContext_other (s : State) {x i : Nat} (k : Context) (h : x ≠ i) : (s.setContext x k).context i = s.context i := SMap.get_set_other _ _ _ h
@[simp] theorem context_updContext_same (s : State) (x : Nat) (f : Context → Context) : (s.updContext x f).context x = f (s.context x) := SMap.get_set_same _ _ _ _
theorem context_updContext (s : State) (x i : Nat) (f : Context → Context) : (s.updContext x f).context i = if x = i then f (s.context x) else s.context i :=
  SMap.get_set _ _ _ _ _
theorem context_updContext_other (s : State) {x i : Nat} (f : Context → Context) (h : x ≠ i) : (s.updContext x f).context i = s.context i := SMap.get_set_other _ _ _ h

@[simp] theorem setCore_setCore (s : State) (c : Nat) (k k' : Core) : (s.setCore c k).setCore c k' = s.setCore c k' := by
  simp only [setCore, SMap.set_set]
@[simp] theorem setCompany_setCompany (s : State) (c : Nat) (k k' : Company) : (s.setCompany c k).setCompany c k' = s.setCompany c k' := by
  simp only [setCompany, SMap.set_set]
@[simp] theorem setRing_setRing (s : State) (c : Nat) (k k' : Ring) : (s.setRing c k).setRing c k' = s.setRing c k' := by
  simp only [setRing, SMap.set_set]
@[simp] theorem setLink_setLink (s : State) (c : Nat) (k k' : Link) : (s.setLink c k).setLink c k' = s.setLink c k' := by
  simp only [setLink, SMap.set_set]
@[simp] theorem setJob_setJob (s : State) (c : Nat) (k k' : Job) : (s.setJob c k).setJob c k' = s.setJob c k' := by
  simp only [setJob, SMap.set_set]
@[simp] theorem setContext_setContext (s : State) (c : Nat) (k k' : Context) : (s.setContext c k).setContext c k' = s.setContext c k' := by
  simp only [setContext, SMap.set_set]
@[simp] theorem setChannel_setChannel (s : State) (c : Nat) (k k' : Channel) : (s.setChannel c k).setChannel c k' = s.setChannel c k' := by
  simp only [setChannel, SMap.set_set]

end Sys2Proof.Machine.State
end

