-- ==== Sys2Proof/Laws/Frames.lean ====
section
/-! SUPPORT. What the operations shared by many meanings change, said once: posting a record, counting an event, counting a conversion,
reading and writing a unit of DRAM. -/
set_option linter.all false
namespace Sys2Proof.Machine

/-! ### Posting (R326, R328) -/

/-- `t` is `s` but for the rings and their completion slots: what posting a record changes. -/
structure Posts (s t : State) : Prop where
  state : t = { s with mem := t.mem, upsets := t.upsets, rings := t.rings }
  bytes : ∀ a, OutsideRecords a → Memory.read t.mem a = Memory.read s.mem a
  errors : ∀ a, OutsideRecords a → SMap.get 0 t.upsets a = SMap.get 0 s.upsets a
  clean : s.upsets = [] → t.upsets = []

theorem Posts.refl (s : State) : Posts s s := ⟨rfl, fun _ _ => rfl, fun _ _ => rfl, id⟩

theorem Posts.trans {s t u : State} (h : Posts s t) (k : Posts t u) : Posts s u :=
  ⟨by rw [k.state, h.state], fun a ha => (k.bytes a ha).trans (h.bytes a ha), fun a ha => (k.errors a ha).trans (h.errors a ha),
   fun e => k.clean (h.clean e)⟩

theorem Posts.company {s t : State} (h : Posts s t) (c : Nat) : t.company c = s.company c := by rw [h.state]; rfl

theorem Posts.core {s t : State} (h : Posts s t) (c : Nat) : t.core c = s.core c := by rw [h.state]; rfl

theorem length_toBytes (n v : Nat) : (toBytes n v).length = n := by
  induction n generalizing v with
  | zero => rfl
  | succ k ih => simp [toBytes, ih]

theorem length_padTo {α : Type} (n : Nat) (x : α) (l : List α) (h : l.length ≤ n) : (padTo n x l).length = n := by
  unfold padTo; simp; omega

/-- Check bits renewed over a range of the foyer leave every other place alone. -/
theorem renewWords_get (l : List Nat) (s : State) (off a : Nat) (h : ∀ i ∈ l, a ≠ off + 8 * i) :
    SMap.get 0 (l.foldl (fun s i => s.setUpset .foyer (off + 8 * i) 0) s).upsets a = SMap.get 0 s.upsets a := by
  induction l generalizing s with
  | nil => rfl
  | cons x t ih =>
    rw [List.foldl_cons, ih _ fun i hi => h i (by simp [hi])]
    have hx := h x (by simp)
    have hb : Space.base .foyer + (off + 8 * x) ≠ a := by simp only [Space.base]; omega
    exact SMap.get_set_other 0 s.upsets 0 hb

theorem renewWords_state (l : List Nat) (s : State) (off : Nat) :
    ∃ u, l.foldl (fun s i => s.setUpset .foyer (off + 8 * i) 0) s = { s with upsets := u } := by
  induction l generalizing s with
  | nil => exact ⟨_, rfl⟩
  | cons x t ih => obtain ⟨u, h⟩ := ih (s.setUpset .foyer (off + 8 * x) 0); exact ⟨u, by rw [List.foldl_cons, h]; rfl⟩

/-- R401: what renewing check bits of the foyer changes. -/
theorem State.renewFoyer_spec (s : State) (off n : Nat) :
    ∃ u, s.renewFoyer off n = { s with upsets := u } ∧ (∀ a, (a < off ∨ off + n ≤ a) → SMap.get 0 u a = SMap.get 0 s.upsets a) ∧
      (s.upsets = [] → u = []) := by
  unfold State.renewFoyer
  split
  · exact ⟨_, rfl, fun _ _ => rfl, id⟩
  · rename_i hne
    obtain ⟨u, h⟩ := renewWords_state (List.range (n / 8)) s off
    refine ⟨u, h, fun a ha => ?_, fun e => absurd (by rw [e]; rfl) hne⟩
    have hg := renewWords_get (List.range (n / 8)) s off a fun i hi => by rw [List.mem_range] at hi; omega
    rw [h] at hg; exact hg

theorem State.writeRecord_posts (s : State) (r : Nat) (x : List Byte) (h : x.length ≤ 128) : Posts s (s.writeRecord r x) := by
  obtain ⟨u, hu, he, hc⟩ := (s.putBytes .foyer (completionSlot r (s.ring r).cplTail.toNat) (padTo 128 0 x)).renewFoyer_spec
    (completionSlot r (s.ring r).cplTail.toNat) 128
  unfold State.writeRecord
  dsimp only
  rw [hu]
  refine ⟨rfl, fun a ha => Memory.read_writeBytes_outside _ _ _ _ ?_, fun a ha => he a (ha r _), hc⟩
  rw [length_padTo _ _ _ h]
  simpa [Space.base] using ha r (s.ring r).cplTail.toNat

theorem State.setRing_posts (s : State) (r : Nat) (k : Ring) : Posts s (s.setRing r k) := ⟨rfl, fun _ _ => rfl, fun _ _ => rfl, id⟩

theorem State.updRing_posts (s : State) (r : Nat) (f : Ring → Ring) : Posts s (s.updRing r f) := ⟨rfl, fun _ _ => rfl, fun _ _ => rfl, id⟩

theorem State.postRecord_posts (s : State) (r : Nat) (x : List Byte) (h : x.length ≤ 128) : Posts s (s.postRecord r x) := by
  unfold State.postRecord
  dsimp only
  repeat' split
  · exact State.writeRecord_posts _ _ _ h
  · exact State.setRing_posts _ _ _
  · exact State.setRing_posts _ _ _

theorem State.length_record (s : State) (a b c : Nat) (d : Option Nat) (e f body : Nat) :
    (s.recordHeader a b c d e f ++ toBytes 64 body).length ≤ 128 := by
  simp [State.recordHeader, length_toBytes]

theorem State.length_deviceRecord (s : State) (a body : Nat) : (s.deviceHeader a ++ toBytes 64 body).length ≤ 128 := by
  simp [State.deviceHeader, length_toBytes]

theorem State.postCompany_posts (s : State) (c code body : Nat) : Posts s (s.postCompany c code body) :=
  State.postRecord_posts _ _ _ (State.length_record ..)

theorem State.postDevice_posts (s : State) (code body : Nat) : Posts s (s.postDevice code body) :=
  State.postRecord_posts _ _ _ (State.length_deviceRecord ..)

theorem State.postDeviceFor_posts (s : State) (c code body : Nat) : Posts s (s.postDeviceFor c code body) :=
  State.postRecord_posts _ _ _ (State.length_record ..)

theorem State.postThreshold_posts (s : State) (c : Option Nat) (body : Nat) : Posts s (s.postThreshold c body) := by
  unfold State.postThreshold
  split
  · exact State.postCompany_posts _ _ _ _
  · exact State.postDevice_posts _ _ _

theorem State.postCompletion_posts (s : State) (r : Nat) (accepted : Bool) (opcode : Nat) (company : Option Nat) (tag status offset body : Nat) :
    Posts s (s.postCompletion r accepted opcode company tag status offset body) :=
  (State.updRing_posts s r _).trans (State.writeRecord_posts _ _ _ (State.length_record ..))

theorem foldl_posts {α : Type} (l : List α) (f : State → α → State) (s : State) (hf : ∀ s a, Posts s (f s a)) : Posts s (l.foldl f s) := by
  induction l generalizing s with
  | nil => exact Posts.refl s
  | cons a t ih => exact (hf s a).trans (ih _)

theorem State.dismissOne_posts (s : State) (r : Nat) : Posts s (s.dismissOne r) := by
  unfold State.dismissOne
  dsimp only
  repeat' split
  all_goals first | exact Posts.refl s | exact s.postCompletion_posts ..

theorem State.dismiss_posts (s : State) (r : Nat) : Posts s (s.dismiss r) := foldl_posts _ _ _ fun s _ => s.dismissOne_posts r

theorem State.complete_posts (s : State) (r : Nat) (accepted : Bool) (opcode : Nat) (company : Option Nat) (tag status offset body : Nat) :
    Posts s (s.complete r accepted opcode company tag status offset body) :=
  (s.postCompletion_posts ..).trans (State.dismiss_posts _ _)

theorem State.completeWaiting_posts (s : State) (w : Option Waiting) (c st : Nat) : Posts s (s.completeWaiting w c st) := by
  unfold State.completeWaiting
  split
  · exact Posts.refl s
  · exact State.complete_posts _ _ _ _ _ _ _ _ _

/-- A posted record leaves the commands that are outstanding. -/
theorem State.postRecord_taken (s : State) (r i : Nat) (x : List Byte) : ((s.postRecord r x).ring i).taken = (s.ring i).taken := by
  have hw : ((s.writeRecord r x).ring i).taken = (s.ring i).taken := by
    obtain ⟨u, hu, _⟩ := (s.putBytes .foyer (completionSlot r (s.ring r).cplTail.toNat) (padTo 128 0 x)).renewFoyer_spec
      (completionSlot r (s.ring r).cplTail.toNat) 128
    unfold State.writeRecord
    dsimp only
    rw [hu, State.ring_setRing]
    split
    · subst_vars; rfl
    · rfl
  unfold State.postRecord
  dsimp only
  repeat' split
  · exact hw
  all_goals
    rw [State.ring_setRing]
    split
    · subst_vars; rfl
    · rfl

/-! ### Counting (R424 to R430) -/

/-- `t` is `s` but for event counters and the records they post. -/
structure Counts (s t : State) : Prop where
  state : t = { s with
    mem := t.mem, upsets := t.upsets, rings := t.rings, cores := t.cores, districtCounters := t.districtCounters, chipCounters := t.chipCounters }
  core : ∀ i, t.core i = { s.core i with counters := (t.core i).counters }
  bytes : ∀ a, OutsideRecords a → Memory.read t.mem a = Memory.read s.mem a
  errors : ∀ a, OutsideRecords a → SMap.get 0 t.upsets a = SMap.get 0 s.upsets a
  clean : s.upsets = [] → t.upsets = []

theorem Counts.refl (s : State) : Counts s s := ⟨rfl, fun _ => rfl, fun _ _ => rfl, fun _ _ => rfl, id⟩

theorem Counts.trans {s t u : State} (h : Counts s t) (k : Counts t u) : Counts s u :=
  ⟨by rw [k.state, h.state], fun i => by rw [k.core, h.core], fun a ha => (k.bytes a ha).trans (h.bytes a ha),
   fun a ha => (k.errors a ha).trans (h.errors a ha), fun e => k.clean (h.clean e)⟩

theorem Posts.counts {s t : State} (h : Posts s t) : Counts s t :=
  ⟨by rw [h.state], fun i => by rw [h.state]; rfl, h.bytes, h.errors, h.clean⟩

theorem foldl_counts {α : Type} (l : List α) (f : State → α → State) (s : State) (hf : ∀ s a, Counts s (f s a)) : Counts s (l.foldl f s) := by
  induction l generalizing s with
  | nil => exact Counts.refl s
  | cons a t ih => exact (hf s a).trans (ih _)

/-- The counters of a core written. -/
theorem State.setCounters_counts (s : State) (c : Nat) (m : SMap EventCounter) : Counts s (s.updCore c (fun k => { k with counters := m })) :=
  ⟨rfl, fun i => by
    rw [State.updCore, State.core_setCore]
    split
    · subst_vars; rfl
    · rfl, fun _ _ => rfl, fun _ _ => rfl, id⟩

theorem State.countOnCore_counts (s : State) (core src n : Nat) : Counts s (s.countOnCore core src n) := by
  refine foldl_counts _ _ _ fun s i => ?_
  split
  rename_i k hit _
  have h := s.setCounters_counts core (SMap.set {} (s.core core).counters i k)
  dsimp only
  split
  · exact h.trans (State.postThreshold_posts _ _ _).counts
  · exact h

theorem State.countOnDistrict_counts (s : State) (d src n : Nat) : Counts s (s.countOnDistrict d src n) := by
  refine foldl_counts _ _ _ fun s i => ?_
  split
  rename_i k hit _
  have h : Counts s { s with districtCounters := SMap.set {} s.districtCounters (d * 8 + i) k } :=
    ⟨rfl, fun _ => rfl, fun _ _ => rfl, fun _ _ => rfl, id⟩
  dsimp only
  split
  · exact h.trans (State.postThreshold_posts _ _ _).counts
  · exact h

theorem State.countOnChip_counts (s : State) (f : Option Nat) (src n : Nat) : Counts s (s.countOnChip f src n) := by
  refine foldl_counts _ _ _ fun s i => ?_
  dsimp only
  split
  · have h : Counts s { s with chipCounters := SMap.set {} s.chipCounters i (bumpCounter (SMap.get {} s.chipCounters i) src n).1 } :=
      ⟨rfl, fun _ => rfl, fun _ _ => rfl, fun _ _ => rfl, id⟩
    split
    · exact h.trans (State.postDevice_posts _ _ _).counts
    · exact h
  · exact Counts.refl s

theorem State.countCore_counts (s : State) (core src n : Nat) : Counts s (s.countCore core src n) := by
  unfold State.countCore
  split
  · exact Counts.refl s
  · exact ((s.countOnCore_counts _ _ _).trans (State.countOnDistrict_counts _ _ _ _)).trans (State.countOnChip_counts _ _ _ _)

theorem State.countChip_counts (s : State) (src : Nat) (f : Option Nat) (n : Nat) : Counts s (s.countChip src f n) := by
  unfold State.countChip
  split
  · exact Counts.refl s
  · exact State.countOnChip_counts _ _ _ _

/-- An event counted leaves the commands that are outstanding. -/
theorem State.countChip_taken (s : State) (src i n : Nat) (f : Option Nat) : ((s.countChip src f n).ring i).taken = (s.ring i).taken := by
  unfold State.countChip
  split
  · rfl
  · unfold State.countOnChip
    generalize List.range 64 = l
    induction l generalizing s with
    | nil => rfl
    | cons a t ih =>
      rw [List.foldl_cons, ih]
      dsimp only
      split
      · split
        · exact (State.postRecord_taken _ 0 i _).trans rfl
        · rfl
      · rfl

theorem Counts.company {s t : State} (h : Counts s t) (c : Nat) : t.company c = s.company c := by rw [h.state]; rfl

/-- R425: an event of no number changes nothing. -/
theorem State.countCore_zero (s : State) (core src : Nat) : s.countCore core src 0 = s := rfl

theorem State.countChip_zero (s : State) (src : Nat) (f : Option Nat) : s.countChip src f 0 = s := rfl

/-! ### Ballast (R365, R369) -/

/-- What counting ballast energy changes: counters, and the company's energy remainder. -/
theorem State.chargeBallast_spec (s : State) (c a b n : Nat) :
    ∃ e, Counts (s.setCompany c { s.company c with ballastEnergy := e }) (s.chargeBallast c a b n) :=
  ⟨_, State.countChip_counts _ _ _ _⟩

theorem Aside.refl (c : Nat) (s : State) : Aside c s s := ⟨rfl, fun _ => rfl, fun _ _ => rfl, fun _ _ => rfl, fun _ _ => rfl⟩

theorem Aside.trans {c : Nat} {s t u : State} (h : Aside c s t) (k : Aside c t u) : Aside c s u :=
  ⟨by rw [k.state, h.state], fun i => by rw [k.core, h.core], fun d hd => (k.others d hd).trans (h.others d hd),
   fun a ha => (k.bytes a ha).trans (h.bytes a ha), fun a ha => (k.errors a ha).trans (h.errors a ha)⟩

theorem Counts.aside {s t : State} (c : Nat) (h : Counts s t) : Aside c s t :=
  ⟨by rw [h.state], h.core, fun d _ => h.company d, h.bytes, h.errors⟩

theorem State.setCompany_aside (s : State) (c : Nat) (k : Company) : Aside c s (s.setCompany c k) :=
  ⟨rfl, fun _ => rfl, fun d hd => State.company_setCompany_other _ _ (Ne.symm hd), fun _ _ => rfl, fun _ _ => rfl⟩

theorem State.setRunning_aside (s : State) (c : Nat) (r : List RunEntry) : Aside c s { s with running := r } :=
  ⟨rfl, fun _ => rfl, fun _ _ => rfl, fun _ _ => rfl, fun _ _ => rfl⟩

theorem State.chargeBallast_aside (s : State) (c a b n : Nat) : Aside c s (s.chargeBallast c a b n) := by
  obtain ⟨e, h⟩ := s.chargeBallast_spec c a b n
  exact (s.setCompany_aside c _).trans (h.aside c)

theorem State.holdBallast_aside (s : State) (c level t : Nat) : Aside c s (s.holdBallast c level t) :=
  (s.chargeBallast_aside c level level _).trans (State.setCompany_aside _ _ _)

theorem State.updCompany_aside (s : State) (c : Nat) (f : Company → Company) : Aside c s (s.updCompany c f) := s.setCompany_aside c _

theorem State.addWaves_aside (s : State) (c first n a b : Nat) (t : Bool) : Aside c s (s.addWaves c first n a b t) := by
  unfold State.addWaves
  dsimp only
  first | exact s.updCompany_aside c _ | (split; exacts [Aside.refl c s, s.updCompany_aside c _])

theorem State.startTaper_aside (s : State) (c level : Nat) (frees : Bool) : Aside c s (s.startTaper c level frees) := by
  unfold State.startTaper
  dsimp only
  exact ((s.chargeBallast_aside c level 0 _).trans (State.addWaves_aside _ _ _ _ _ _ _)).trans (State.updCompany_aside _ _ _)

theorem State.holdBallast_spec (s : State) (c level t : Nat) :
    ∃ e b u, s.holdBallast c level t = u ∧ u.company c = { s.company c with ballastEnergy := e, ballastSince := b } ∧
      u = { s with mem := u.mem, upsets := u.upsets, rings := u.rings, cores := u.cores, companies := u.companies, districtCounters := u.districtCounters,
                   chipCounters := u.chipCounters } ∧ b = max (s.company c).ballastSince t := by
  obtain ⟨e, h⟩ := s.chargeBallast_spec c level level (t - (s.company c).ballastSince)
  refine ⟨e, max (s.company c).ballastSince t, _, rfl, ?_, ?_, rfl⟩
  · unfold State.holdBallast
    rw [State.updCompany, State.company_setCompany_same, h.company, State.company_setCompany_same]
  · unfold State.holdBallast
    dsimp only
    generalize s.chargeBallast c level level (t - (s.company c).ballastSince) = v at h
    rw [h.state]; rfl

/-- What joining waves changes: the company's waves. -/
theorem State.addWaves_spec (s : State) (c first n a b : Nat) (t : Bool) :
    ∃ w, s.addWaves c first n a b t = s.setCompany c { s.company c with waves := w } ∨ s.addWaves c first n a b t = s ∧ w = (s.company c).waves := by
  unfold State.addWaves
  dsimp only
  split
  · exact ⟨_, Or.inr ⟨rfl, rfl⟩⟩
  · exact ⟨_, Or.inl rfl⟩

theorem State.startTaper_spec (s : State) (c level : Nat) (frees : Bool) :
    ∃ e w u, s.startTaper c level frees = u ∧
      (let z := max s.now ((s.company c).taperEnd.getD 0) + s.companyRamp c level 0
       u.company c = { s.company c with ballastEnergy := e, waves := w, ballast := 0, taperEnd := some z, taperFrees := frees, ballastSince := z }) ∧
      u = { s with mem := u.mem, upsets := u.upsets, rings := u.rings, cores := u.cores, companies := u.companies, districtCounters := u.districtCounters,
                   chipCounters := u.chipCounters } := by
  obtain ⟨e, h⟩ := s.chargeBallast_spec c level 0 (s.companyRamp c level 0)
  obtain ⟨w, hw⟩ := (s.chargeBallast c level 0 (s.companyRamp c level 0)).addWaves_spec c (max s.now ((s.company c).taperEnd.getD 0))
    (s.companyRamp c level 0) level 0 true
  refine ⟨e, w, _, rfl, ?_, ?_⟩
  · unfold State.startTaper
    dsimp only
    rw [State.updCompany, State.company_setCompany_same]
    rcases hw with hw | ⟨hw, rfl⟩
    · rw [hw, State.company_setCompany_same, h.company, State.company_setCompany_same]
    · rw [hw, h.company, State.company_setCompany_same]
  · unfold State.startTaper
    dsimp only
    rcases hw with hw | ⟨hw, rfl⟩ <;> rw [hw] <;>
      (generalize s.chargeBallast c level 0 (s.companyRamp c level 0) = v at h; rw [h.state]; rfl)

/-! ### Units of DRAM (R155, R426) -/

/-- What a read of a unit changes: the counters of a corrected error, and the counter of free values. -/
theorem State.readUnit_spec (s : State) (sp : Space) (off : Nat) (count : State → State) (h : ∀ s, Counts s (count s)) :
    Counts s (s.readUnit sp off count).1 ∨ (s.readUnit sp off count).1 = { s with fresh := s.fresh + 1 } := by
  unfold State.readUnit
  dsimp only
  split
  · exact Or.inl (Counts.refl s)
  · exact Or.inl (h s)
  · exact Or.inl (Counts.refl s)
  · right; split <;> rfl

theorem updCores_spec (l : List Nat) (s : State) (f : Nat → Core → Core) (hf : ∀ x k, f x (f x k) = f x k) :
    ((s.updCores l f) = { s with cores := (s.updCores l f).cores }) ∧
    (∀ x ∈ l, (s.updCores l f).core x = f x (s.core x)) ∧ (∀ x, x ∉ l → (s.updCores l f).core x = s.core x) := by
  induction l generalizing s with
  | nil => exact ⟨rfl, fun _ h => absurd h (by simp), fun _ _ => rfl⟩
  | cons y t ih =>
    have e : s.updCores (y :: t) f = (s.updCore y (f y)).updCores t f := rfl
    rw [e]
    obtain ⟨h1, h2, h3⟩ := ih (s.updCore y (f y))
    refine ⟨by rw [h1]; rfl, fun x hx => ?_, fun x hx => ?_⟩
    · by_cases hm : x ∈ t
      · rw [h2 x hm]
        by_cases hy : y = x
        · subst hy; simp [State.updCore, hf]
        · rw [State.updCore, State.core_setCore_other _ _ hy]
      · rw [h3 x hm]
        have : x = y := by rcases List.mem_cons.mp hx with h | h; exact h; exact absurd h hm
        subst this; simp [State.updCore]
    · have hn : y ≠ x := fun h => hx (by simp [h])
      rw [h3 x (fun h => hx (by simp [h])), State.updCore, State.core_setCore_other _ _ hn]

/-- `t` is `s` but for its memory. -/
def MemOnly (s t : State) : Prop := t = { s with mem := t.mem, upsets := t.upsets }

theorem MemOnly.refl (s : State) : MemOnly s s := rfl

theorem MemOnly.trans {s t u : State} (h : MemOnly s t) (k : MemOnly t u) : MemOnly s u := by
  unfold MemOnly at *; rw [k, h]

theorem foldl_mem {α : Type} (l : List α) (f : State → α → State) (s : State) (hf : ∀ s a, MemOnly s (f s a)) : MemOnly s (l.foldl f s) := by
  induction l generalizing s with
  | nil => exact MemOnly.refl s
  | cons a t ih => exact (hf s a).trans (ih _)

theorem writeUnit_mem (s : State) (sp : Space) (off : Nat) (d : List Byte) : MemOnly s (s.writeUnit sp off d) := rfl

theorem putUnits_mem (s : State) (core unit : Nat) (d : List Byte) : MemOnly s (s.putUnits core unit d) :=
  foldl_mem _ _ _ fun _ _ => writeUnit_mem _ _ _ _

theorem setUpsets_mem (l : List Nat) (sp : Space) (f : Nat → Nat) (s : State) :
    (l.foldl (fun s i => s.setUpset sp (f i) 0) s).mem = s.mem := by
  induction l generalizing s with
  | nil => rfl
  | cons a t ih => exact (ih _).trans rfl

/-- `t` is `s` but for counters, the records they post, and the count of free values: what reading DRAM changes. -/
def Reads (s t : State) : Prop := t = { s with
  mem := t.mem, upsets := t.upsets, rings := t.rings, cores := t.cores, districtCounters := t.districtCounters, chipCounters := t.chipCounters
  fresh := t.fresh }

theorem Reads.refl (s : State) : Reads s s := rfl

theorem Reads.trans {s t u : State} (h : Reads s t) (k : Reads t u) : Reads s u := by
  unfold Reads at *; rw [k, h]

theorem Counts.reads {s t : State} (h : Counts s t) : Reads s t := by
  unfold Reads; rw [h.state]

theorem readUnit_reads (s : State) (sp : Space) (off : Nat) (count : State → State) (h : ∀ s, Counts s (count s)) :
    Reads s (s.readUnit sp off count).1 := by
  rcases s.readUnit_spec sp off count h with e | e
  · exact e.reads
  · rw [e]; rfl

theorem readBank_reads (s : State) (unit n : Nat) : Reads s (s.readBank unit n).1 := by
  unfold State.readBank
  dsimp only
  generalize List.range (ceilDiv n 64) = l
  suffices h : ∀ (l : List Nat) (p : State × Option (List (List Byte))), Reads p.1 (l.foldl (fun (p : State × Option (List (List Byte))) i =>
    match p.2 with
    | none => p
    | some ds =>
      match p.1.readUnit .exchange (64 * (unit + i)) (fun s => s.countChip 0x13 none 1) with
      | (s, none) => (s, none)
      | (s, some d) => (s, some (d :: ds))) p).1 from h l (s, some [])
  intro l
  induction l with
  | nil => exact fun p => Reads.refl _
  | cons a t ih =>
    intro p
    rw [List.foldl_cons]
    refine Reads.trans ?_ (ih _)
    obtain ⟨s, ds⟩ := p
    cases ds with
    | none => exact Reads.refl _
    | some ds =>
      have h := readUnit_reads s .exchange (64 * (unit + a)) (fun s => s.countChip 0x13 none 1) (fun s => s.countChip_counts _ _ _)
      dsimp only
      generalize s.readUnit _ _ _ = r at h
      obtain ⟨u, d⟩ := r
      cases d <;> exact h

theorem reads_of {a b : State} {d} {u n : Nat} (e : a.readBank u n = (b, d)) : Reads a b := by
  have := readBank_reads a u n
  rw [e] at this; exact this

end Sys2Proof.Machine
end

