-- ==== Sys2Proof/Laws/Cores.lean ====
section
/-! SUPPORT. A core at its due bundle: the slot to issue, the step of a slot, and what the start of a core changes. -/
set_option linter.all false
namespace Sys2Proof.Machine

theorem SlotDue.ready {s : State} {c i op : Nat} (h : SlotDue s c i op) (hi : i ≠ 0) : s.slotReady c i = true := by
  unfold State.slotReady
  simp [h.running, h.phase, h.code, hi]

theorem slotStep_due {s : State} {c i op : Nat} (f : State → State) (h : SlotDue s c i op) (hi : i ≠ 0) (h4 : i ≠ 4) :
    s.slotStep c i op f = (f s).updCore c (fun k => { k with phase := i + 1 }) := by
  unfold State.slotStep
  simp [h.op, State.coreRuns, h.running, h.phase, hi, h4, h.ready hi, Nat.not_le.mpr h.code]

theorem readyBundle_due {s : State} {c : Nat} (h : BundleDue s c) : s.readyBundle c = s.countIssueReads c := by
  have ha : s.advance c (min (s.core c).issueAt (s.scheduledCycles c)) = s := by
    rw [Nat.min_eq_left (Nat.le_of_lt h.act)]
    unfold State.advance State.runTo; simp [h.cycle]
  have ho : s.openCycle c = s := by
    unfold State.openCycle; simp [State.coreRuns, h.running, h.street, Nat.not_le.mpr h.cadence]
  have hn : ¬s.scheduledCycles c ≤ (s.core c).issueAt := Nat.not_le.mpr h.act
  unfold State.readyBundle
  simp [ha, ho, h.running, h.cycle, State.coreRuns, h.fault, hn]

/-- What counting the issue's corrected reads leaves of the core. -/
theorem countIssueReads_core (s : State) (c : Nat) : (s.countIssueReads c).core c = { s.core c with counters := ((s.countIssueReads c).core c).counters } :=
  (s.countCore_counts c 0x14 _).core c

theorem countIssueReads_none {s : State} {c : Nat} (h : s.sram = []) : s.countIssueReads c = s := by
  unfold State.countIssueReads
  rw [h]
  exact State.countCore_zero s c 0x14

theorem slotStep_control {s : State} {c op : Nat} (f : State → State) (h : BundleDue s c) (ho : Bundle.op (s.core c).dueBundle 0 = op) :
    s.slotStep c 0 op f = (f (s.countIssueReads c)).updCore c (fun k => { k with phase := 1 }) := by
  have hk := countIssueReads_core s c
  generalize e : s.countIssueReads c = u at hk
  have hr : u.slotReady c 0 = true := by
    unfold State.slotReady; rw [hk]; simp [h.running, h.phase, h.cycle, h.code]
  unfold State.slotStep
  simp [ho, State.coreRuns, h.running, h.phase, Nat.not_le.mpr h.code, readyBundle_due h, e, hr]

theorem updCore_updCore (s : State) (c : Nat) (f g : Core → Core) : (s.updCore c f).updCore c g = s.updCore c (fun k => g (f k)) := by
  have h : (s.setCore c (f (s.core c))).core c = f (s.core c) := State.core_setCore_same _ _ _
  unfold State.updCore; rw [h]; simp [State.setCore]

theorem updCore_next (s : State) (c : Nat) (f : Core → Core) (k : Core) (h : f (s.core c) = k) :
    (Host.Outcome.next (s.updCore c f) : Answer) = .next (s.setCore c k) := by rw [← h]; rfl

theorem adv_core (k : Core) (on : Bool) (r n : Nat) : k.advanceReg on r n =
    { k with writes := k.writes ++ if on then [(r, SMap.get 0 k.a r + BitVec.ofNat 32 n)] else [] } := by
  unfold Core.advanceReg; split
  · rfl
  · simp

theorem slotStep_due4 {s : State} {c op : Nat} (f : State → State) (h : SlotDue s c 4 op) :
    s.slotStep c 4 op f = (f s).retire c := by
  unfold State.slotStep
  simp [h.op, State.coreRuns, h.running, h.phase, h.ready (by decide : 4 ≠ 0), Nat.not_le.mpr h.code]

theorem get_mapVal {α : Type} (d : α) (f : Nat → α → α) (m : List (Nat × α)) (k : Nat) (h : f k d = d) :
    SMap.get d (m.map (fun p => (p.1, f p.1 p.2))) k = f k (SMap.get d m k) := by
  induction m with
  | nil => exact h.symm
  | cons p t ih =>
    obtain ⟨i, v⟩ := p
    simp only [SMap.get, List.map_cons]
    split
    · subst_vars; rfl
    · exact ih

/-- R362: what prompting the others leaves of a company. -/
theorem State.promptOthers_company (s : State) (c d : Nat) : (s.promptOthers c).company d =
    (fun (i : Nat) (k : Company) => if i == c then k else { k with refusedAt := k.refusedAt.map (fun _ => 0) }) d (s.company d) :=
  get_mapVal ({} : Company) (fun i k => if i == c then k else { k with refusedAt := k.refusedAt.map (fun _ => 0) }) s.companies d (by
    cases h : (d == c)
    · simp only [h]; rfl
    · simp only [h]; rfl)

theorem State.promptOthers_same (s : State) (c : Nat) : (s.promptOthers c).company c = s.company c := by
  rw [State.promptOthers_company]; simp

theorem State.promptOthers_other (s : State) {c d : Nat} (h : d ≠ c) :
    (s.promptOthers c).company d = { s.company d with refusedAt := (s.company d).refusedAt.map (fun _ => 0) } := by
  rw [State.promptOthers_company]; simp [h]

/-- What a curtain-up of company `c` on the cores `l` may change: those cores, the company, counters, records, free values drawn; and of
another company what a fault writes. -/
structure Stirs (l : List Nat) (c : Nat) (s t : State) : Prop where
  state : t = { s with
    mem := t.mem, upsets := t.upsets, rings := t.rings, cores := t.cores, companies := t.companies, districtCounters := t.districtCounters
    chipCounters := t.chipCounters, fresh := t.fresh }
  bytes : ∀ x, OutsideRecords x → Memory.read t.mem x = Memory.read s.mem x
  errors : ∀ x, OutsideRecords x → SMap.get 0 t.upsets x = SMap.get 0 s.upsets x
  core : ∀ x, x ∉ l → t.core x = { s.core x with counters := (t.core x).counters }
  others : ∀ d, d ≠ c → t.company d = { s.company d with
    stopRecords := (t.company d).stopRecords, stopping := (t.company d).stopping, faults := (t.company d).faults, primary := (t.company d).primary }
  same : Sound l s → ∀ d, d ≠ c → t.company d = s.company d
  sound : Sound l s → Sound l t

theorem Stirs.refl (l : List Nat) (c : Nat) (s : State) : Stirs l c s s :=
  ⟨rfl, fun _ _ => rfl, fun _ _ => rfl, fun _ _ => rfl, fun _ _ => rfl, fun _ _ _ => rfl, id⟩

theorem Stirs.trans {l : List Nat} {c : Nat} {s t u : State} (h : Stirs l c s t) (k : Stirs l c t u) : Stirs l c s u :=
  ⟨by rw [k.state, h.state], fun a ha => (k.bytes a ha).trans (h.bytes a ha), fun a ha => (k.errors a ha).trans (h.errors a ha),
   fun i hi => by rw [k.core i hi, h.core i hi], fun d hd => by rw [k.others d hd, h.others d hd],
   fun hu d hd => (k.same (h.sound hu) d hd).trans (h.same hu d hd), fun hu => k.sound (h.sound hu)⟩

theorem Counts.stirs {s t : State} (l : List Nat) (c : Nat) (h : Counts s t) : Stirs l c s t :=
  ⟨by rw [h.state], h.bytes, h.errors, fun i _ => h.core i, fun d _ => by rw [h.company d], fun _ d _ => h.company d,
   fun hs => ⟨h.clean hs.units, fun x hx => by rw [h.state]; exact hs.port x hx, fun x hx b hb => hs.bank x hx b (by rw [h.core] at hb; exact hb)⟩⟩

theorem State.setCompany_stirs (l : List Nat) (s : State) (c : Nat) (k : Company) : Stirs l c s (s.setCompany c k) :=
  ⟨rfl, fun _ _ => rfl, fun _ _ => rfl, fun _ _ => rfl, fun d hd => by rw [State.company_setCompany_other _ _ (Ne.symm hd)],
   fun _ d hd => State.company_setCompany_other _ _ (Ne.symm hd), fun h => ⟨h.units, h.port, h.bank⟩⟩

theorem State.updCore_stirs {l : List Nat} (c : Nat) (s : State) {x : Nat} (hx : x ∈ l) (f : Core → Core)
    (hf : ∀ k b, (f k).idle = some b → k.idle = some b ∨ b.failed = none) : Stirs l c s (s.updCore x f) :=
  ⟨rfl, fun _ _ => rfl, fun _ _ => rfl,
   fun i hi => by rw [State.updCore, State.core_setCore_other _ _ (fun q : x = i => hi (by rw [← q]; exact hx))], fun _ _ => rfl, fun _ _ _ => rfl,
   fun h => ⟨h.units, h.port, fun y hy b hb => by
    by_cases q : x = y
    · subst q
      rw [State.updCore, State.core_setCore_same] at hb
      exact (hf _ b hb).elim (h.bank x hy b) id
    · rw [State.updCore, State.core_setCore_other _ _ q] at hb
      exact h.bank y hy b hb⟩⟩

theorem foldl_stirs {α : Type} {l : List Nat} {c : Nat} (m : List α) (f : State → α → State) (s : State)
    (hf : ∀ s, ∀ a ∈ m, Stirs l c s (f s a)) : Stirs l c s (m.foldl f s) := by
  induction m generalizing s with
  | nil => exact Stirs.refl l c s
  | cons a t ih => exact (hf s a (by simp)).trans (ih _ fun s b hb => hf s b (by simp [hb]))

theorem State.chargeBallast_stirs (l : List Nat) (s : State) (c a b n : Nat) : Stirs l c s (s.chargeBallast c a b n) := by
  obtain ⟨e, h⟩ := s.chargeBallast_spec c a b n
  exact (State.setCompany_stirs l s c _).trans (h.stirs l c)

theorem State.curtainEnergy_stirs (l : List Nat) (s : State) (c t : Nat) : Stirs l c s (s.curtainEnergy c t) := by
  unfold State.curtainEnergy
  dsimp only
  split
  · exact Stirs.refl l c s
  · exact ((State.chargeBallast_stirs l _ c _ _ _).trans (State.chargeBallast_stirs l _ c _ _ _)).trans (State.setCompany_stirs l _ c _)
  · exact (State.chargeBallast_stirs l _ c _ _ _).trans (State.setCompany_stirs l _ c _)

/-- R396: what a contained fault of a core of `l` changes. -/
theorem State.coreFault_frame {l : List Nat} (c : Nat) (s : State) {x : Nat} (hx : x ∈ l) (a b d : Nat) :
    s.coreFault x a b d = { s with cores := (s.coreFault x a b d).cores, companies := (s.coreFault x a b d).companies } ∧
    (∀ i, i ∉ l → (s.coreFault x a b d).core i = s.core i) ∧
    ∀ e, (s.coreFault x a b d).company e = { s.company e with
      stopRecords := ((s.coreFault x a b d).company e).stopRecords, stopping := ((s.coreFault x a b d).company e).stopping
      faults := ((s.coreFault x a b d).company e).faults, primary := ((s.coreFault x a b d).company e).primary } := by
  have h (u : State) (i : Nat) (hi : i ∉ l) (f : Core → Core) : (u.updCore x f).core i = u.core i := by
    rw [State.updCore, State.core_setCore_other _ _ (fun q : x = i => hi (by rw [← q]; exact hx))]
  unfold State.coreFault
  split
  · exact ⟨rfl, fun i hi => h s i hi _, fun _ => rfl⟩
  · rename_i co _
    refine ⟨rfl, fun i hi => ?_, fun i => ?_⟩
    · exact h s i hi (fun k => { k with run := .stopped })
    by_cases q : co = i
    · subst q
      show ((s.updCore x _).updCompany co _).company co = _
      rw [State.updCompany, State.company_setCompany_same]
      rfl
    · show ((s.updCore x _).updCompany co _).company i = _
      rw [State.updCompany, State.company_setCompany_other _ _ q]; rfl

/-- A fault after what a curtain-up did, where the curtain-up began unsound. -/
theorem startFault {l : List Nat} {c : Nat} {s t : State} (h : Stirs l c s t) {x : Nat} (hx : x ∈ l) (hs : ¬Sound l s) (a b d : Nat) :
    Stirs l c s (t.coreFault x a b d) := by
  have k := State.coreFault_frame c t hx a b d
  exact ⟨by rw [k.1, h.state], fun a ha => by rw [k.1]; exact h.bytes a ha, fun a ha => by rw [k.1]; exact h.errors a ha,
    fun i hi => by rw [k.2.1 i hi]; exact h.core i hi, fun d hd => by rw [k.2.2 d, h.others d hd], fun q => absurd q hs, fun q => absurd q hs⟩

theorem State.readUnit_stirs (l : List Nat) (c : Nat) (s : State) (sp : Space) (off : Nat) (count : State → State) (h : ∀ s, Counts s (count s)) :
    Stirs l c s (s.readUnit sp off count).1 := by
  rcases s.readUnit_spec sp off count h with h | h
  · exact h.stirs l c
  · rw [h]; exact ⟨rfl, fun _ _ => rfl, fun _ _ => rfl, fun _ _ => rfl, fun _ _ => rfl, fun _ _ _ => rfl, fun h => ⟨h.units, h.port, h.bank⟩⟩

/-- A block read unit by unit: what it may change, and, where no unit is in error, that none fails. -/
theorem State.readBlock_spec (l : List Nat) (c : Nat) (s : State) (core u n : Nat) : Stirs l c s (s.readBlock core u n).1 ∧
    (s.upsets = [] → (s.readBlock core u n).1 = s ∧ (s.readBlock core u n).2.2 = none) := by
  unfold State.readBlock
  generalize List.range _ = m
  generalize hp : ((s, [], none) : State × List Byte × Option Nat) = p
  have h0 : Stirs l c s p.1 ∧ (s.upsets = [] → p.1 = s ∧ p.2.2 = none) := by rw [← hp]; exact ⟨Stirs.refl l c s, fun _ => ⟨rfl, rfl⟩⟩
  clear hp
  induction m generalizing p with
  | nil => exact h0
  | cons x t ih =>
    refine ih _ ?_
    have h := State.readUnit_stirs l c p.1 (.slice core) (64 * (u + x)) (fun s => s.countCore core 0x13 1) (fun s => s.countCore_counts _ _ _)
    have hq : p.1.upsets = [] → (p.1).readUnit (.slice core) (64 * (u + x)) (fun s => s.countCore core 0x13 1) =
        (p.1, some (p.1.bytes (.slice core) (64 * (u + x)) 64)) := by
      intro e
      have : p.1.upset (.slice core) (64 * (u + x)) = 0 := by unfold State.upset; rw [e]; rfl
      unfold State.readUnit
      rw [this]
      rfl
    dsimp only
    split <;> rename_i e <;> rw [e] at h hq
    · exact ⟨h0.1.trans h, fun e => ⟨(Prod.mk.inj (hq (by rw [(h0.2 e).1]; exact e))).1.trans (h0.2 e).1, (h0.2 e).2⟩⟩
    · exact ⟨h0.1.trans h, fun e => (by cases (Prod.mk.inj (hq (by rw [(h0.2 e).1]; exact e))).2)⟩

/-- R121, R208: a core at cycle 0 of an act. -/
structure AtStart (act : Nat) (k : Core) : Prop where
  run : k.run = .running
  cycle : k.cycle = 0
  bundle : k.bundle = 0
  phase : k.phase = 0
  a : k.a = []
  l : k.l = []
  loops : k.loops = []
  flights : k.flights = []
  cadence : k.cadence = 0
  sig : k.sig = mix (BitVec.ofNat 64 (act + 1))

/-- A bank read from the slice: what it may change, and, where no unit is in error, that it did not fail. -/
theorem State.loadBank_spec (l : List Nat) (e : Nat) (s : State) (c a x : Nat) : Stirs l e s (s.loadBank c a x).1 ∧
    (s.upsets = [] → (s.loadBank c a x).1 = s ∧ (s.loadBank c a x).2.failed = none) := by
  unfold State.loadBank
  exact State.readBlock_spec l e s x _ _

theorem State.codeFor_spec {l : List Nat} (e : Nat) (s : State) (c a : Nat) {x : Nat} (hx : x ∈ l) : Stirs l e s (s.codeFor c a x).1 ∧
    (Sound l s → (s.codeFor c a x).1 = s ∧ (s.codeFor c a x).2.failed = none) ∧
    ∀ b, (s.core x).idle = some b → b.act = a → (s.codeFor c a x).2 = b := by
  obtain ⟨h1, h2⟩ := State.loadBank_spec l e s c a x
  unfold State.codeFor
  split
  · split
    · rename_i b hb _
      exact ⟨Stirs.refl l e s, fun h => ⟨rfl, h.bank x hx b hb⟩, fun d hd _ => Option.some.inj (hb.symm.trans hd)⟩
    · rename_i b hb hn
      refine ⟨h1, fun h => h2 h.units, fun d hd ha => absurd ?_ hn⟩
      rw [Option.some.inj (hb.symm.trans hd)]; exact beq_iff_eq.mpr ha
  · rename_i hb
    exact ⟨h1, fun h => h2 h.units, fun d hd _ => by rw [hb] at hd; cases hd⟩

theorem State.prefetch_spec {l : List Nat} (e : Nat) (s : State) (c a : Nat) {x : Nat} (hx : x ∈ l) :
    (∃ u i, Stirs l e s u ∧ s.prefetch c a x = u.updCore x (fun k => { k with idle := i }) ∧
      (s.upsets = [] → u = s ∧ ∀ b, i = some b → b.failed = none)) := by
  have h (n : Nat) : ∃ u i, Stirs l e s u ∧ (if a + 1 < n then
      (s.loadBank c (a + 1) x).1.updCore x (fun k => { k with idle := some (s.loadBank c (a + 1) x).2 })
      else s.updCore x (fun k => { k with idle := none })) = u.updCore x (fun k => { k with idle := i }) ∧
      (s.upsets = [] → u = s ∧ ∀ b, i = some b → b.failed = none) := by
    split
    · obtain ⟨h1, h2⟩ := State.loadBank_spec l e s c (a + 1) x
      exact ⟨_, _, h1, rfl, fun h => ⟨(h2 h).1, fun b hb => by rw [← Option.some.inj hb]; exact (h2 h).2⟩⟩
    · exact ⟨s, none, Stirs.refl l e s, rfl, fun _ => ⟨rfl, fun _ hb => by cases hb⟩⟩
  exact h _

/-- The cores `x` of a company stand at the start of act `a` once `x` has started, whatever the order. -/
theorem State.startCore_spec {l : List Nat} (e c : Nat) (s : State) (a : Nat) {x : Nat} (hx : x ∈ l) : Stirs l e s (s.startCore c a x) ∧
    (Sound l s → AtStart a ((s.startCore c a x).core x) ∧ (∀ y, AtStart a (s.core y) → AtStart a ((s.startCore c a x).core y)) ∧
      ∀ b, (s.core x).idle = some b → b.act = a → ((s.startCore c a x).core x).code = b.code ∧ ((s.startCore c a x).core x).descs = b.descs) := by
  obtain ⟨h1, h2, hbank⟩ := State.codeFor_spec e s c a hx
  unfold State.startCore
  dsimp only
  generalize s.codeFor c a x = p at h1 h2 hbank ⊢
  have hb := State.updCore_stirs e p.1 hx (fun k => k.begin a p.2.code p.2.descs) fun _ _ => Or.inl
  generalize hv : p.1.updCore x (fun k => k.begin a p.2.code p.2.descs) = v at hb
  obtain ⟨u, i, h3, h4, h5⟩ := State.prefetch_spec e v c a hx
  have hp : v.upsets = p.1.upsets := by rw [← hv]; rfl
  have hf : Stirs l e u (v.prefetch c a x) ∨ ¬Sound l s := by
    by_cases hs : Sound l s
    · refine Or.inl ?_
      rw [h4]
      refine State.updCore_stirs e u hx _ fun k b hb' => Or.inr ?_
      exact (h5 (by rw [hp, (h2 hs).1]; exact hs.units)).2 b hb'
    · exact Or.inr hs
  have key : Stirs l e s (v.prefetch c a x) := by
    rcases hf with h | hs
    · exact ((h1.trans hb).trans h3).trans h
    · have h := (h1.trans hb).trans h3
      rw [h4]
      refine ⟨by rw [h.state]; rfl, h.bytes, h.errors, fun y hy => ?_, h.others, fun q => absurd q hs, fun q => absurd q hs⟩
      rw [State.updCore, State.core_setCore_other _ _ (fun q : x = y => hy (by rw [← q]; exact hx))]
      exact h.core y hy
  have hsram : (v.prefetch c a x).sram = s.sram := by rw [key.state]
  have at_ : Sound l s → AtStart a ((v.prefetch c a x).core x) ∧ (∀ y, AtStart a (s.core y) → AtStart a ((v.prefetch c a x).core y)) ∧
      ∀ b, (s.core x).idle = some b → b.act = a → ((v.prefetch c a x).core x).code = b.code ∧ ((v.prefetch c a x).core x).descs = b.descs := by
    intro hs
    have hu : u = v := (h5 (by rw [hp, (h2 hs).1]; exact hs.units)).1
    rw [h4, hu, ← hv, (h2 hs).1]
    refine ⟨?_, fun y hy => ?_, fun b hb ha => ?_⟩
    · rw [State.updCore, State.core_setCore_same, State.updCore, State.core_setCore_same]
      exact ⟨rfl, rfl, rfl, rfl, rfl, rfl, rfl, rfl, rfl, rfl⟩
    rotate_left
    · rw [State.updCore, State.core_setCore_same, State.updCore, State.core_setCore_same, hbank b hb ha]
      exact ⟨rfl, rfl⟩
    · by_cases q : x = y
      · subst q
        rw [State.updCore, State.core_setCore_same, State.updCore, State.core_setCore_same]
        exact ⟨rfl, rfl, rfl, rfl, rfl, rfl, rfl, rfl, rfl, rfl⟩
      · rw [State.updCore, State.core_setCore_other _ _ q, State.updCore, State.core_setCore_other _ _ q]; exact hy
  split
  · rename_i w q
    have hs : ¬Sound l s := fun h => by rw [(h2 h).2] at q; cases q
    exact ⟨startFault key hx hs _ _ _, fun h => absurd h hs⟩
  · split
    · rename_i w q
      have hs : ¬Sound l s := fun h => by
        have := h.port x hx
        unfold State.sramErrors at this q
        rw [hsram] at q
        rw [this] at q; cases q
      exact ⟨startFault key hx hs _ _ _, fun h => absurd h hs⟩
    · exact ⟨key, at_⟩

theorem State.applyConfigs_stirs {l : List Nat} (c : Nat) (s : State) {x : Nat} (hx : x ∈ l) :
    Stirs l c s (s.applyConfigs x) ∧ (s.applyConfigs x).companies = s.companies := by
  unfold State.applyConfigs
  dsimp only
  have h : ∀ (m : List QueuedConfig) (u : State), Stirs l c u (m.foldl (fun s q => s.applyConfig x q) u) ∧
      (m.foldl (fun s q => s.applyConfig x q) u).companies = u.companies := by
    intro m
    induction m with
    | nil => exact fun u => ⟨Stirs.refl l c u, rfl⟩
    | cons q t ih =>
      intro u
      have hq : Stirs l c u (u.applyConfig x q) ∧ (u.applyConfig x q).companies = u.companies := by
        unfold State.applyConfig
        split
        · exact ⟨State.updCore_stirs c u hx _ fun _ _ => Or.inl, rfl⟩
        · exact ⟨⟨rfl, fun _ _ => rfl, fun _ _ => rfl, fun _ _ => rfl, fun _ _ => rfl, fun _ _ _ => rfl, fun h => ⟨h.units, h.port, h.bank⟩⟩, rfl⟩
        · exact ⟨State.updCore_stirs c u hx _ fun _ _ => Or.inl, rfl⟩
        · exact ⟨Stirs.refl l c u, rfl⟩
      exact ⟨hq.1.trans (ih _).1, (ih _).2.trans hq.2⟩
  exact ⟨(State.updCore_stirs c s hx (fun k => { k with cfgQueue := [] }) fun _ _ => Or.inl).trans (h _ _).1, (h _ _).2⟩

theorem foldl_comp (l : List Nat) (f : State → Nat → State) (s : State) (hf : ∀ s, ∀ a ∈ l, (f s a).companies = s.companies) :
    (l.foldl f s).companies = s.companies := by
  induction l generalizing s with
  | nil => rfl
  | cons a t ih => rw [List.foldl_cons, ih _ (fun s b hb => hf s b (by simp [hb])), hf s a (by simp)]

theorem State.curtainEnergy_company (s : State) (c t : Nat) :
    ∃ e b, (s.curtainEnergy c t).company c = { s.company c with ballastEnergy := e, ballastSince := b } := by
  unfold State.curtainEnergy
  dsimp only
  split
  · exact ⟨(s.company c).ballastEnergy, (s.company c).ballastSince, rfl⟩
  · rename_i st dn _
    generalize s.ballastAt c t = lv
    generalize s.rampClock st t = pa
    obtain ⟨e, h⟩ := s.chargeBallast_spec c (s.company c).ballast lv (min pa dn - st)
    obtain ⟨e', h'⟩ := (s.chargeBallast c (s.company c).ballast lv (min pa dn - st)).chargeBallast_spec c lv lv (t - min pa dn)
    refine ⟨e', t, ?_⟩
    rw [State.updCompany, State.company_setCompany_same, h'.company, State.company_setCompany_same, h.company, State.company_setCompany_same]
  · obtain ⟨e, b, u, hu, hc, _⟩ := s.holdBallast_spec c (s.company c).ballast t
    exact ⟨e, b, by rw [hu, hc]⟩

theorem foldl_startCore (e c a : Nat) {l : List Nat} (m : List Nat) (s : State) (hm : ∀ x ∈ m, x ∈ l) :
    Stirs l e s (m.foldl (fun s x => s.startCore c a x) s) ∧
    (Sound l s → (∀ x ∈ m, AtStart a ((m.foldl (fun s x => s.startCore c a x) s).core x)) ∧
      ∀ y, AtStart a (s.core y) → AtStart a ((m.foldl (fun s x => s.startCore c a x) s).core y)) := by
  induction m generalizing s with
  | nil => exact ⟨Stirs.refl l e s, fun _ => ⟨fun x h => (by cases h), fun y h => h⟩⟩
  | cons x t ih =>
    obtain ⟨h1, h2⟩ := State.startCore_spec e c s a (hm x (by simp))
    obtain ⟨h3, h4⟩ := ih (s.startCore c a x) (fun y hy => hm y (by simp [hy]))
    refine ⟨h1.trans h3, fun hu => ?_⟩
    obtain ⟨h5, h6, _⟩ := h2 hu
    obtain ⟨h7, h8⟩ := h4 (h1.sound hu)
    refine ⟨fun y hy => ?_, fun y hy => h8 y (h6 y hy)⟩
    rcases List.mem_cons.mp hy with rfl | hy
    · exact h8 _ h5
    · exact h7 y hy

theorem foldl_startCore_company (c a : Nat) (m : List Nat) (s : State) (d : Nat) : (m.foldl (fun s x => s.startCore c a x) s).company d =
    { s.company d with
      stopRecords := ((m.foldl (fun s x => s.startCore c a x) s).company d).stopRecords
      stopping := ((m.foldl (fun s x => s.startCore c a x) s).company d).stopping
      faults := ((m.foldl (fun s x => s.startCore c a x) s).company d).faults
      primary := ((m.foldl (fun s x => s.startCore c a x) s).company d).primary } :=
  (foldl_startCore (d + 1) c a m s (fun _ h => h)).1.others d (by omega)

theorem Sound.sub {l m : List Nat} {s : State} (h : Sound l s) (hm : ∀ x ∈ m, x ∈ l) : Sound m s :=
  ⟨h.units, fun x hx => h.port x (hm x hx), fun x hx => h.bank x (hm x hx)⟩

theorem foldl_same {α β : Type} (g : State → β) (m : List α) (f : State → α → State) (s : State) (h : ∀ s, ∀ a ∈ m, g (f s a) = g s) :
    g (m.foldl f s) = g s := by
  induction m generalizing s with
  | nil => rfl
  | cons a t ih => rw [List.foldl_cons, ih _ (fun s b hb => h s b (by simp [hb])), h s a (by simp)]

/-- R93: each core that has prefetched the act runs what its idle bank held. -/
theorem foldl_startCore_code (c a : Nat) {l : List Nat} (m : List Nat) (s : State) (hm : ∀ x ∈ m, x ∈ l) (hn : m.Nodup) (hs : Sound l s) :
    ∀ x ∈ m, ∀ b, (s.core x).idle = some b → b.act = a →
      ((m.foldl (fun s x => s.startCore c a x) s).core x).code = b.code ∧ ((m.foldl (fun s x => s.startCore c a x) s).core x).descs = b.descs := by
  induction m generalizing s with
  | nil => exact fun x h => by cases h
  | cons y t ih =>
    obtain ⟨h1, h2⟩ := State.startCore_spec c c s a (hm y (by simp))
    obtain ⟨hy, ht⟩ := List.nodup_cons.mp hn
    have h3 := (State.startCore_spec c c s a (List.mem_singleton.mpr (rfl : y = y))).1
    intro x hx b hb ha
    rw [List.foldl_cons]
    by_cases q : x = y
    · subst q
      have h4 : ∀ (t : List Nat) (u : State), x ∉ t → ((t.foldl (fun s x => s.startCore c a x) u).core x).code = (u.core x).code ∧
          ((t.foldl (fun s x => s.startCore c a x) u).core x).descs = (u.core x).descs := by
        intro t u hxt
        have := foldl_same (fun u : State => ((u.core x).code, (u.core x).descs)) t (fun s x => s.startCore c a x) u (fun u z hz => by
          have := (State.startCore_spec c c u a (List.mem_singleton.mpr (rfl : z = z))).1.core x (by simp; rintro rfl; exact hxt hz)
          show (((u.startCore c a z).core x).code, ((u.startCore c a z).core x).descs) = ((u.core x).code, (u.core x).descs)
          rw [this])
        exact ⟨(Prod.mk.inj this).1, (Prod.mk.inj this).2⟩
      rw [(h4 t _ hy).1, (h4 t _ hy).2]
      exact (h2 hs).2.2 b hb ha
    · have hx' : x ∈ t := by rcases List.mem_cons.mp hx with e | e; exact absurd e q; exact e
      refine ih _ (fun z hz => hm z (by simp [hz])) ht (h1.sound hs) x hx' b ?_ ha
      rw [h3.core x (by simpa using q)]; exact hb

/-- An update of each of some cores, once. -/
theorem updCores_once (l : List Nat) (s : State) (f : Nat → Core → Core) (hn : l.Nodup) :
    ((s.updCores l f) = { s with cores := (s.updCores l f).cores }) ∧
    (∀ x ∈ l, (s.updCores l f).core x = f x (s.core x)) ∧ (∀ x, x ∉ l → (s.updCores l f).core x = s.core x) := by
  induction l generalizing s with
  | nil => exact ⟨rfl, fun _ h => absurd h (by simp), fun _ _ => rfl⟩
  | cons y t ih =>
    obtain ⟨hy, ht⟩ := List.nodup_cons.mp hn
    have e : s.updCores (y :: t) f = (s.updCore y (f y)).updCores t f := rfl
    rw [e]
    obtain ⟨h1, h2, h3⟩ := ih (s.updCore y (f y)) ht
    refine ⟨by rw [h1]; rfl, fun x hx => ?_, fun x hx => ?_⟩
    · rcases List.mem_cons.mp hx with rfl | hx
      · rw [h3 x hy, State.updCore, State.core_setCore_same]
      · rw [h2 x hx, State.updCore, State.core_setCore_other _ _ (fun q => hy (by rw [q]; exact hx))]
    · rw [h3 x (fun h => hx (by simp [h])), State.updCore, State.core_setCore_other _ _ (fun q => hx (by simp [q]))]

theorem State.curtainEnergy_aside (s : State) (c t : Nat) : Aside c s (s.curtainEnergy c t) := by
  unfold State.curtainEnergy
  dsimp only
  split
  · exact Aside.refl c s
  · exact ((State.chargeBallast_aside _ c _ _ _).trans (State.chargeBallast_aside _ c _ _ _)).trans (State.updCompany_aside _ c _)
  · exact State.holdBallast_aside _ c _ _

theorem scriptCores_nodup (s : State) (c : Nat) : (s.scriptCores c).Nodup := (List.nodup_range.filter _).filter _

theorem State.applyConfigs_idle (s : State) (x y : Nat) : ((s.applyConfigs x).core y).idle = (s.core y).idle := by
  unfold State.applyConfigs
  refine (foldl_same (fun s : State => (s.core y).idle) _ _ _ fun u q _ => ?_).trans ?_
  · unfold State.applyConfig
    split
    all_goals first | rfl | (unfold State.updCore; rw [State.core_setCore]; split; subst_vars; rfl; rfl)
  · unfold State.updCore; rw [State.core_setCore]; split; subst_vars; rfl; rfl

end Sys2Proof.Machine
end

