-- ==== Sys2Proof/Laws/Company.lean ====
section
/-! SUPPORT. The comparison of a pair's signatures at a curtain. -/
set_option linter.all false
namespace Sys2Proof.Machine

theorem range_getD (l : List (BitVec 64)) : (List.range l.length).map (fun i => l.getD i 0) = l := by
  apply List.ext_getElem
  · simp
  · intro i h1 h2
    simp [List.getD_eq_getElem?_getD, List.getElem?_eq_getElem h2]

theorem zip_same {α : Type} (l : List α) (p : α × α) (h : p ∈ l.zip l) : p.1 = p.2 := by
  induction l with
  | nil => simp at h
  | cons a t ih =>
    rw [List.zip_cons_cons, List.mem_cons] at h
    rcases h with rfl | h
    · rfl
    · exact ih h

theorem zip_differ (xs : List Nat) (ys zs : List (BitVec 64)) (i : Nat) (hx : xs.length = ys.length) (hz : zs.length = ys.length)
    (hi : i < ys.length) (hne : zs.getD i 0 ≠ ys.getD i 0) : ∃ x y z, (x, y, z) ∈ xs.zip (ys.zip zs) ∧ y ≠ z := by
  have h1 : i < xs.length := by omega
  have h2 : i < zs.length := by omega
  refine ⟨xs[i], ys[i], zs[i], ?_, fun e => hne ?_⟩
  · rw [List.mem_iff_getElem]
    exact ⟨i, by simp; omega, by simp⟩
  · simp [List.getD_eq_getElem?_getD, List.getElem?_eq_getElem h2, List.getElem?_eq_getElem hi, e]

/-- What a comparison of signatures does (R298, R299). -/
theorem compareSignatures_wait {u : State} {c : Nat} (h : (u.company c).sigSent = false) : u.compareSignatures c = u := by
  unfold State.compareSignatures
  dsimp only
  split
  · rw [h]; rfl
  · rfl

theorem compareSignatures_same {u : State} {c : Nat} {p : Pair} (hp : (u.company c).pair = some p) (hs : (u.company c).sigSent = true)
    (hq : (u.company c).partnerSigs = some (u.signatures c)) :
    u.compareSignatures c = u.setCompany c { u.company c with sigSent := false, partnerSigs := none, comparedAt := some u.now } := by
  have hr : ((u.scriptCores c).zip ((u.signatures c).zip ((List.range (u.signatures c).length).map (fun i => (u.signatures c).getD i 0)))).filter
      (fun r => r.2.1 != r.2.2) = [] := by
    rw [range_getD, List.filter_eq_nil_iff]
    intro a ha
    simp [zip_same _ _ (List.of_mem_zip ha).2]
  generalize hR : u.setCompany c { u.company c with sigSent := false, partnerSigs := none, comparedAt := some u.now } = R
  unfold State.compareSignatures
  dsimp only
  rw [hp, hq]
  dsimp only
  rw [hs, hr]
  rw [if_neg (by decide)]
  simp only [State.updCompany, State.company_setCompany_same, State.setCompany_setCompany]
  rw [← hR]
  rfl

theorem compareSignatures_differ {u : State} {c i : Nat} {p : Pair} {sigs : List (BitVec 64)} (hp : (u.company c).pair = some p)
    (hs : (u.company c).sigSent = true) (hq : (u.company c).partnerSigs = some sigs) (hl : sigs.length = (u.signatures c).length)
    (hi : i < (u.signatures c).length) (hne : sigs.getD i 0 ≠ (u.signatures c).getD i 0) (hid : u.companyIdle c = false) :
    ∃ body, u.compareSignatures c =
      ((u.setCompany c { u.company c with sigSent := false, partnerSigs := none }).postDeviceFor c 9 body).finishStop c false := by
  have hlen : (u.scriptCores c).length = (u.signatures c).length := by simp [State.signatures]
  have hr : ((u.scriptCores c).zip ((u.signatures c).zip ((List.range (u.signatures c).length).map (fun i => sigs.getD i 0)))).filter
      (fun r => r.2.1 != r.2.2) ≠ [] := by
    obtain ⟨x, y, z, hx, hyz⟩ := zip_differ (u.scriptCores c) (u.signatures c) sigs i hlen hl hi hne
    rw [← hl, range_getD]
    intro hn
    rw [List.filter_eq_nil_iff] at hn
    exact hn _ hx (by simpa using hyz)
  have hR : u.updCompany c (fun k => { k with sigSent := false, partnerSigs := none }) =
    u.setCompany c { u.company c with sigSent := false, partnerSigs := none } := rfl
  have hI : ∀ x, ((u.setCompany c { u.company c with sigSent := false, partnerSigs := none }).postDeviceFor c 9 x).companyIdle c = false := by
    intro x
    rw [State.companyIdle, (State.postDeviceFor_posts _ _ _ _).company c, State.company_setCompany_same]
    exact hid
  generalize u.setCompany c { u.company c with sigSent := false, partnerSigs := none } = R at hR hI
  unfold State.compareSignatures
  dsimp only
  rw [hp, hq, hs]
  dsimp only
  rw [hR]
  generalize List.filter _ _ = d at hr
  cases d with
  | nil => exact absurd rfl hr
  | cons r d =>
    dsimp only
    rw [if_neg (by decide), hI]
    exact ⟨_, rfl⟩

theorem signatures_setCompany (s : State) (c : Nat) (k : Company) (h : k.script = (s.company c).script) (hd : k.districts = (s.company c).districts) (ha : k.avenues = (s.company c).avenues) :
    (s.setCompany c k).signatures c = s.signatures c := by
  have e : (s.setCompany c k).scriptCores c = s.scriptCores c := by
    simp [State.scriptCores, State.companyCores, State.scriptRows, State.coreExists, State.gridRows, h, hd, ha]
  unfold State.signatures; rw [e]; rfl

theorem State.addWaves_facts (s : State) (c f n a b : Nat) (t : Bool) : (s.addWaves c f n a b t).running = s.running ∧
    (s.addWaves c f n a b t).company c = { s.company c with
      waves := if n = 0 then (s.company c).waves
        else (s.company c).waves.filter (fun w => decide (w.first + w.ticks > s.now)) ++ [⟨s.waveOrder c, f, n, a, b, t⟩] } := by
  unfold State.addWaves
  by_cases e : n = 0 <;> simp [e, State.updCompany]

end Sys2Proof.Machine
end

