-- ==== Sys2Proof/Laws/Serve.lean ====
section
/-! SUPPORT. A command at the front of a ring that passes its checks does what its sheet says. -/
set_option linter.all false
namespace Sys2Proof.Machine

variable {s : State} {ring w : Nat} {t : Sheet} {mine : Nat → Bool}

/-- R329, R332: a ready manager starts a command that no fence holds. -/
theorem mayStart_of (hr : s.ready = true) (hf : Cmd.fence w = false ∨ (s.ring ring).taken.any (·.accepted) = false) :
    s.mayStart ring w = true := by
  unfold State.mayStart; rcases hf with e | e <;> simp [hr, e]

/-- A command that passes its checks does what its sheet says. -/
theorem Serving.serve (h : Serving s ring w t mine) : s.serve ring t mine = match t.run s ring w with
    | .done s body => s.complete ring false t.opcode (State.recordCompany ring w t) (Cmd.tag w) St.ok noField body
    | .failed st off => s.complete ring false t.opcode (State.recordCompany ring w t) (Cmd.tag w) st off 0
    | .accepted s => s.accept ring
    | .ended s => s := by
  obtain ⟨c, hc, hw⟩ := h.current
  unfold State.serve
  rw [hc]
  dsimp only
  rw [hw, if_neg (by simp [mayStart_of h.ready h.fence, h.opcode, h.mine]), h.checks]
  try rfl

theorem Serving.done (h : Serving s ring w t mine) {u : State} {body : Nat} (e : t.run s ring w = .done u body) :
    (Host.Outcome.next (s.serve ring t mine) : Answer) =
      .next (u.complete ring false t.opcode (State.recordCompany ring w t) (Cmd.tag w) St.ok noField body) := by rw [h.serve, e]

theorem Serving.accepted (h : Serving s ring w t mine) {u : State} (e : t.run s ring w = .accepted u) :
    (Host.Outcome.next (s.serve ring t mine) : Answer) = .next (u.accept ring) := by rw [h.serve, e]

theorem State.recordCompany_concerns (h : t.concerns = true) : State.recordCompany ring w t = some (Cmd.company w) := by
  unfold State.recordCompany; simp [h]

theorem Serving.pre (h : Serving s ring w t mine) : t.pre s ring w = none := State.checkCommand_pre h.checks

theorem Serving.size (h : Serving s ring w t mine) : t.size w = none :=
  (firstFail_none _).mp h.checks _ (by simp)

/-- A command whose record names its company. -/
theorem Serving.doneFor (h : Serving s ring w t mine) {u : State} {body : Nat} (e : t.run s ring w = .done u body) (hc : t.concerns = true) :
    (Host.Outcome.next (s.serve ring t mine) : Answer) =
      .next (u.complete ring false t.opcode (some (Cmd.company w)) (Cmd.tag w) St.ok noField body) := by
  rw [h.done e, State.recordCompany_concerns hc]

theorem Serving.ended (h : Serving s ring w t mine) {u : State} (e : t.run s ring w = .ended u) :
    (Host.Outcome.next (s.serve ring t mine) : Answer) = .next u := by rw [h.serve, e]

/-- A command that fails a check completes with that check's status and offset, and does nothing else (R330, R331). -/
theorem State.serve_fails {st off : Nat} (hc : ∃ c, s.current ring = some c ∧ c.word = w) (hr : s.ready = true) (ho : Cmd.opcode w = t.opcode)
    (hm : mine w = true) (hf : Cmd.fence w = false ∨ (s.ring ring).taken.any (·.accepted) = false)
    (hk : s.checkCommand ring w t = some (st, off)) :
    s.serve ring t mine = s.complete ring false t.opcode (State.recordCompany ring w t) (Cmd.tag w) st off 0 := by
  obtain ⟨c, hc, hw⟩ := hc
  unfold State.serve
  rw [hc]
  dsimp only
  rw [hw, if_neg (by simp [mayStart_of hr hf, ho, hm]), hk]

end Sys2Proof.Machine
end

