-- ==== Sys2Proof/Laws/Loading.lean ====
section
/-! SUPPORT. The measurement chain, and what the installation of a script changes. -/
set_option linter.all false
namespace Sys2Proof.Machine

theorem chain_spec (s : State) (c : Nat) (e : List Byte) : s.measureCompany c e =
    s.setCompany c { s.company c with chain := chainNext (s.company c).chain e, chainCount := ((s.company c).chainCount + 1) % 2 ^ 32 } := rfl

/-- A slice write leaves what lies below the slices. -/
theorem writeUnit_low (s : State) (core off : Nat) (d : List Byte) (x : Nat) (h : x < 2 ^ 40) :
    Memory.read (s.writeUnit (.slice core) off d).mem x = Memory.read s.mem x :=
  Memory.read_writeBytes_outside _ _ _ _ (Or.inl (by show x < 2 ^ 40 + core * 2 ^ 26 + off; omega))

theorem foldl_low {α : Type} (l : List α) (f : State → α → State) (s : State) (x : Nat)
    (hf : ∀ s a, Memory.read (f s a).mem x = Memory.read s.mem x) : Memory.read (l.foldl f s).mem x = Memory.read s.mem x := by
  induction l generalizing s with
  | nil => rfl
  | cons a t ih => exact (ih _).trans (hf s a)

theorem putUnits_low (s : State) (core unit : Nat) (d : List Byte) (x : Nat) (h : x < 2 ^ 40) :
    Memory.read (s.putUnits core unit d).mem x = Memory.read s.mem x :=
  foldl_low _ _ _ _ fun _ _ => writeUnit_low _ _ _ _ _ h

theorem placeBlocks_mem (s : State) (b : List Byte) (refs : List (Nat × Nat × BlockRef)) : MemOnly s (s.placeBlocks b refs) :=
  foldl_mem _ _ _ fun _ _ => putUnits_mem _ _ _ _

theorem placeBlocks_low (s : State) (b : List Byte) (refs : List (Nat × Nat × BlockRef)) (x : Nat) (h : x < 2 ^ 40) :
    Memory.read (s.placeBlocks b refs).mem x = Memory.read s.mem x :=
  foldl_low _ _ _ _ fun _ _ => putUnits_low _ _ _ _ _ h

theorem length_packageRefs (s : State) (c base : Nat) (b : List Byte) :
    (s.packageRefs c base b).length = Package.acts b * (s.packageCores c (Package.rows b)).length := by
  unfold State.packageRefs
  simp [List.length_flatMap, List.map_const', List.sum_replicate_nat]

/-- R343, R344, R415: what the installation of a script makes of a state. -/
theorem installScript_eq (s : State) (c base : Nat) (b : List Byte) : s.installScript c base b =
    ((s.placeBlocks b (s.packageRefs c base b)).updCores (s.companyCores c) (fun _ k => { k with idle := none })).setCompany c { s.company c with
      script := some {
        hash := hashField (sha384 b), rows := Package.rows b, acts := (List.range (Package.acts b)).map (fun a => BitVec.ofNat 512 (Package.act b a))
        profiles := (List.range (Package.acts b)).map (fun a =>
          if Act.peakOffset (Package.act b a) = 0 then none else some (BitVec.ofNat 384 (numAt b (Act.peakOffset (Package.act b a)) 48)))
        blocks := (s.packageRefs c base b).map (fun r => (r.1, some r.2.2)) }
      chain := chainNext (s.company c).chain (chainEntry 0x20 c (s.knownItem [1, 2, 3] b) 0 0 0 (sha384 b))
      chainCount := ((s.company c).chainCount + 1) % 2 ^ 32 } := by
  unfold State.installScript
  dsimp only
  have h := placeBlocks_mem s b (s.packageRefs c base b)
  generalize s.placeBlocks b (s.packageRefs c base b) = u at h ⊢
  have hc : u.companyCores c = s.companyCores c := by unfold MemOnly at h; rw [h]; rfl
  have hk : u.company c = s.company c := by unfold MemOnly at h; rw [h]; rfl
  have hx : u.extensions = s.extensions := by unfold MemOnly at h; rw [h]
  rw [hc]
  obtain ⟨h1, _, _⟩ := updCores_spec (s.companyCores c) u (fun _ k => { k with idle := none }) (fun _ _ => rfl)
  generalize u.updCores (s.companyCores c) (fun _ k => { k with idle := none }) = v at h1 ⊢
  have hv : v.company c = s.company c := by rw [h1]; exact hk
  have he : v.knownItem [1, 2, 3] b = s.knownItem [1, 2, 3] b := by
    have : v.extensions = s.extensions := by rw [h1]; exact hx
    unfold State.knownItem
    simp only [this]
  rw [chain_spec, he]
  simp only [State.updCompany, State.setCompany_setCompany, State.company_setCompany_same, hv, beq_iff_eq]

end Sys2Proof.Machine
end

