-- ==== Sys2Proof/Laws/Chip.lean ====
section
/-! SUPPORT. Boot, resets, the triggers of the hard limit. -/
set_option linter.all false
namespace Sys2Proof.Machine

theorem mapCores_companies (s : State) (mine : Nat → Bool) (f : Core → Core) : (s.mapCores mine f).companies = s.companies := by
  unfold State.mapCores
  generalize s.cores.filter _ = l
  induction l generalizing s with
  | nil => rfl
  | cons p t ih => rw [List.foldl_cons, ih]; rfl

/-- R373: no rise of the stretch level is looked for yet, or any more. -/
theorem settleRise_idle {s : State} (h : s.riseArmed = false ∨ s.now < s.stretchAt + 12500) : s.settleRise = s := by
  unfold State.settleRise
  rw [if_pos]
  simp only [Bool.or_eq_true, Bool.not_eq_true', decide_eq_true_eq]
  exact h

/-- R373: 50 µs after a recognition that raised the level to 1. -/
theorem settleRise_due {s : State} (h : s.riseArmed = true) (hn : s.stretchAt + 12500 ≤ s.now) : s.settleRise =
    if s.stretch = 1 ∧ s.triggers ≠ 0 then State.postPower { s with riseArmed := false, stretch := 2 } s.triggerCode 0 0
    else { s with riseArmed := false } := by
  unfold State.settleRise
  rw [if_neg (by simp [h]; omega)]
  dsimp only
  by_cases k : s.stretch = 1 ∧ s.triggers ≠ 0
  · have e : s.triggers ≠ 0#4 := k.2
    rw [if_pos (by simp [k.1, e]), if_pos k]; rfl
  · rw [if_neg (by intro e; apply k; simpa using e), if_neg k]

theorem setTriggers_zero (s : State) (h : s.triggers = 0) : s.setTriggers s.triggers = s.settleRise := by
  have ht : s.settleRise.triggers = 0 := by
    rw [← h]
    unfold State.settleRise
    split
    · rfl
    · dsimp only
      split
      · rw [State.postPower, (State.postDevice_posts _ _ _).state]
      · rfl
  unfold State.setTriggers
  rw [h]
  simp only [true_or, if_true]
  generalize s.settleRise = u at ht
  rw [ht]
  cases u; cases ht; rfl

/-- R378, R419: nothing of ROM, fuses and DRAM stack fails the boot. -/
theorem bootFailure_none {s : State} (hl : s.part.lifecycle.toNat ≤ 3) (h1 : ∀ e ∈ s.sram, e.1 ≠ .boot 1) (h2 : ∀ e ∈ s.sram, e.1 ≠ .boot 2) :
    s.bootFailure = none := by
  have k (i : Nat) (h : ∀ e ∈ s.sram, e.1 ≠ .boot i) : s.sram.any (fun e => e.1 == .boot i) = false := by
    rw [List.any_eq_false]; intro e he; simpa using h e he
  unfold State.bootFailure
  simp [k 1 h1, k 2 h2, Nat.not_lt.mpr hl]

theorem boot_ok {s : State} (hp : s.power = .booting) (hh : s.resetHeld = false) (hr : s.railsBroken = false) (hb : s.bootFailure = none) :
    execBoot s = .next (State.setTriggers { s.zeroMemory with power := .run, zeroing := 0, wakeSince := s.now, ready := true } s.zeroMemory.triggers) := by
  unfold execBoot
  rw [if_neg (by simp [hp]), if_neg (by simp [hh]), if_neg (by simp [hr])]
  simp only [hb]
  rfl

theorem filter_none {α : Type} (l : List α) (p : α → Bool) (h : ∀ a, p a = false) : l.filter p = [] :=
  List.filter_eq_nil_iff.mpr fun a _ => by simp [h]

theorem stopAll_mem (s : State) : s.stopAll.mem = s.mem := by unfold State.stopAll; rfl

theorem clearDistricts_all (s : State) : (s.clearDistricts (fun _ => true)).districtCounters = [] := filter_none _ _ fun _ => rfl

theorem recognised_spec (s : State) (t : BitVec 4) :
    let v := s.settleRise
    (t ≠ 0 → v.stretch = 0 → s.setTriggers t = (State.taintActive { v with
      triggers := t, stretchSince := v.now, stretch := 1, stretchAt := v.now, riseArmed := true, fellAt := none }).postPower
        (State.triggerCode { v with triggers := t }) 0 0) ∧
    (t = 0 ∨ v.stretch ≠ 0 → s.setTriggers t = { v with triggers := t, stretchSince := if v.triggers ≠ 0 ∨ t ≠ 0 then v.now else v.stretchSince }) := by
  intro v
  refine ⟨fun h k => ?_, fun h => ?_⟩
  · have hb : (v.triggers != 0 || t != 0) = true := by
      rw [Bool.or_eq_true]; right; exact bne_iff_ne.mpr h
    have : s.settleRise = v := rfl
    clear_value v
    unfold State.setTriggers
    rw [this]
    dsimp only
    rw [if_neg (fun e => e.elim h fun e => e k), hb]
    rfl
  · have : s.settleRise = v := rfl
    clear_value v
    unfold State.setTriggers
    rw [this]
    dsimp only
    rw [if_pos h]
    simp only [Bool.or_eq_true, bne_iff_ne]

theorem mask_low (t : BitVec 4) : t &&& ~~~(BitVec.ofNat 4 (2 ^ 3)) = t &&& 7 := by revert t; decide

theorem rs_map (rs : List Nat) (p : Nat → Bool) : ((List.range 32).map (fun d => (d, rs.getD d 720 % 65536))).any (fun r => p r.2) = true ↔
    ∃ d, d < 32 ∧ p (rs.getD d 720 % 65536) = true := by
  rw [List.any_eq_true]
  constructor
  · rintro ⟨x, hx, hp⟩
    obtain ⟨d, hd, rfl⟩ := List.mem_map.mp hx
    exact ⟨d, List.mem_range.mp hd, hp⟩
  · rintro ⟨d, hd, hp⟩
    exact ⟨_, List.mem_map.mpr ⟨d, List.mem_range.mpr hd, rfl⟩, hp⟩

theorem find_none (rs : List Nat) (h : ∀ d, d < 32 → rs.getD d 720 % 65536 < 1840) :
    ((List.range 32).map (fun d => (d, rs.getD d 720 % 65536))).find? (fun r => decide (r.2 ≥ 1840)) = none := by
  rw [List.find?_eq_none]
  intro x hx
  obtain ⟨d, hd, rfl⟩ := List.mem_map.mp hx
  have := h d (List.mem_range.mp hd)
  simpa using this

theorem find_first (n d : Nat) (hd : d < n) (f : Nat → Nat) (h : 1840 ≤ f d) (hb : ∀ e, e < d → f e < 1840) :
    ((List.range n).map (fun d => (d, f d))).find? (fun r => decide (r.2 ≥ 1840)) = some (d, f d) := by
  rw [List.find?_eq_some_iff_append]
  refine ⟨by simpa using h, (List.range d).map (fun d => (d, f d)), ((List.range' (d + 1) (n - (d + 1))).map (fun d => (d, f d))), ?_, ?_⟩
  · have : List.range n = List.range d ++ d :: List.range' (d + 1) (n - (d + 1)) := by
      rw [List.range_eq_range', List.range_eq_range', show n = d + (1 + (n - (d + 1))) by omega, ← List.range'_append, ← List.range'_append]
      simp only [List.range'_one, Nat.zero_add, Nat.mul_one, Nat.one_mul, List.singleton_append]
      congr 3; omega
    rw [this, List.map_append, List.map_cons]
  · intro x hx
    obtain ⟨e, he, rfl⟩ := List.mem_map.mp hx
    have := hb e (List.mem_range.mp he)
    simpa using this

end Sys2Proof.Machine
end

