-- ==== Sys2Proof/Laws/Links.lean ====
section
/-! SUPPORT. What a frame does to the link at which it arrives. -/
set_option linter.all false
namespace Sys2Proof.Machine

theorem dropWhile_findIdx {α : Type} (p : α → Bool) (l : List α) (i : Nat) (h : l.findIdx? p = some i) :
    l.dropWhile (fun x => !p x) = l.drop i ∧ i < l.length := by
  induction l generalizing i with
  | nil => simp at h
  | cons a t ih =>
    rw [List.findIdx?_cons] at h
    by_cases e : p a = true
    · simp [e] at h; subst h; simp [e]
    · simp [e] at h
      obtain ⟨j, hj, rfl⟩ := h
      obtain ⟨h1, h2⟩ := ih j hj
      simp [e, h1, h2]

theorem acked_heard (k : Link) (a : Nat) : State.Link.acked k a =
    let named (x : Frame) : Bool := x.seq == a
    let left := (k.replay.dropWhile (fun x => !named x)).drop 1
    { k with
      replay := if k.replay.any named then left else k.replay
      front := if !k.replay.any named then k.front else if (left.head?.map Frame.flit) = some true then
        State.lastPacket (k.front ++ k.replay.take (k.replay.length - left.length)) else [] } := by
  unfold State.Link.acked
  split
  · rename_i e
    have h : k.replay.any (fun f => f.seq == a) = false := by
      rw [List.findIdx?_eq_none_iff] at e; rw [List.any_eq_false]; intro x hx; simp [e x hx]
    simp only [h]; rfl
  · rename_i i e
    obtain ⟨h1, h2⟩ := dropWhile_findIdx _ _ _ e
    have h : k.replay.any (fun f => f.seq == a) = true := by
      rw [List.findIdx?_eq_some_iff_getElem] at e
      obtain ⟨hi, hp, _⟩ := e
      exact List.any_eq_true.mpr ⟨_, List.getElem_mem hi, hp⟩
    dsimp only
    rw [h1, h, List.drop_drop]
    have hl : k.replay.length - (List.drop (i + 1) k.replay).length = i + 1 := by rw [List.length_drop]; omega
    simp only [hl, if_true, Bool.not_true, Bool.false_eq_true, if_false, beq_iff_eq]

theorem heedWord_heard {s : State} {l f : Nat} (h : f.testBit 58 = false) : s.heedWord l f = s.setLink l ((s.link l).heard f) := by
  unfold State.heedWord
  have : Fw.nak f = false := h
  simp only [this, Bool.false_eq_true, if_false, State.updLink, acked_heard]
  rfl

/-- R222, R437: a frame that nothing touched. -/
theorem received_intact {s : State} {l bits : Nat} (hb : (s.link l).bad = 0) (hd : (s.link l).deafUntil ≤ s.now) (lost run : State → State) :
    s.received l bits lost run = run s := by
  unfold State.received
  dsimp only
  rw [if_pos (by simp [hb, hd])]

theorem linkLive_setLink {s : State} {l : Nat} {k : Link} (h : k.state = (s.link l).state) : (s.setLink l k).linkLive l = s.linkLive l := by
  unfold State.linkLive; rw [State.link_setLink_same, h]

theorem controlFrame_heard {s : State} {l code f : Nat} {body : List Byte} (h : Controlling s l code f body) (run : State → Nat → State) :
    s.controlFrame l code f body run = run (s.setLink l ((s.link l).heard f)) (ofBytes body) := by
  have h1 := h.good
  have h2 : Fw.kind f = 3 := h.kind
  unfold State.controlFrame
  dsimp only
  rw [if_neg (by simp [h.live]), received_intact h.intact h.heard, if_neg (by simp [h1, h2, h.length, h.code, h.clean]), heedWord_heard h.nak, if_pos]
  exact (linkLive_setLink (k := (s.link l).heard f) rfl).trans h.live

theorem packetFrame_heard {s : State} {l kind f : Nat} {body : List Byte} (h : Arriving s l kind f body)
    (hl : body.length = if kind == 1 then 32 else 256) :
    s.packetFrame l kind f body = (s.setLink l ((s.link l).heard f)).takeFrame l f (kind == 2) body := by
  have h1 := h.good
  have h2 : Fw.kind f = kind := h.kind
  unfold State.packetFrame
  dsimp only
  rw [if_neg (by simp [h.live]), received_intact h.intact h.heard, if_neg (by simp [h1, h2, hl]), heedWord_heard h.nak, if_pos]
  exact (linkLive_setLink (k := (s.link l).heard f) rfl).trans h.live

end Sys2Proof.Machine
end

