-- ==== Sys2Proof/Laws/HostPort.lean ====
section
/-! SUPPORT. Bursts of the host port to the foyer. -/
set_option linter.all false
namespace Sys2Proof.Machine

theorem read_foldl_other (ws : List (Nat × Byte)) (m : Memory) (a : Nat) (h : ∀ w ∈ ws, w.1 ≠ a) :
    Memory.read (ws.foldl (fun m w => Memory.write m w.1 w.2) m) a = Memory.read m a := by
  induction ws generalizing m with
  | nil => rfl
  | cons w t ih =>
    rw [List.foldl_cons, ih _ (fun x hx => h x (by simp [hx])), Memory.read_write_other _ _ (h w (by simp))]

theorem read_foldl_hit (ws : List (Nat × Byte)) (m : Memory) (a : Nat) (v : Byte) (h : (a, v) ∈ ws) (hu : ∀ w ∈ ws, w.1 = a → w.2 = v) :
    Memory.read (ws.foldl (fun m w => Memory.write m w.1 w.2) m) a = v := by
  induction ws generalizing m with
  | nil => simp at h
  | cons w t ih =>
    rw [List.foldl_cons]
    by_cases hm : (a, v) ∈ t
    · exact ih _ hm fun x hx => hu x (by simp [hx])
    · have hw : (a, v) = w := by rcases List.mem_cons.mp h with e | e; exact e; exact absurd e hm
      by_cases hk : ∃ x ∈ t, x.1 = a
      · obtain ⟨x, hx, hxa⟩ := hk
        have : x.2 = v := hu x (by simp [hx]) hxa
        exact absurd (by rw [← hxa, ← this]; exact hx) hm
      · rw [read_foldl_other _ _ _ (fun x hx e => hk ⟨x, hx, e⟩), ← hw]
        exact Memory.read_write_same _ _ _

theorem mem_enabled (off : Nat) (data : List Byte) (mask : List Bool) (w : Nat × Byte) :
    w ∈ State.enabled off data mask ↔ ∃ i, i < data.length ∧ mask.getD i false = false ∧ w = (off + i, data.getD i 0) := by
  unfold State.enabled
  rw [List.mem_filterMap]
  constructor
  · rintro ⟨p, hp, hw⟩
    obtain ⟨i, hi, he⟩ := List.mem_iff_getElem.mp hp
    rw [List.getElem_zip] at he
    simp only [List.length_zip, List.length_range, Nat.min_self] at hi
    have h1 : p.1 = i := by rw [← he]; simp
    have h2 : p.2 = data.getD i 0 := by rw [← he]; simp [List.getD_eq_getElem?_getD, List.getElem?_eq_getElem hi]
    split at hw
    · cases hw
    · rename_i hm
      refine ⟨i, hi, ?_, ?_⟩
      · rw [← h1]; simpa using hm
      · have := Option.some.inj hw; rw [← this, h1, h2]
  · rintro ⟨i, hi, hm, rfl⟩
    refine ⟨(i, data.getD i 0), ?_, ?_⟩
    · rw [List.mem_iff_getElem]
      refine ⟨i, by simpa using hi, ?_⟩
      rw [List.getElem_zip]
      simp [List.getD_eq_getElem?_getD, List.getElem?_eq_getElem hi]
    · simp only [hm]; rfl

theorem enabled_lt (off : Nat) (data : List Byte) (mask : List Bool) {w : Nat × Byte} (h : w ∈ State.enabled off data mask) :
    w.1 < off + data.length := by
  obtain ⟨i, hi, _, rfl⟩ := (mem_enabled _ _ _ _).mp h
  simp only; omega

theorem writeControl_nil (s : State) : s.writeControl [] = s := by
  have h1 : ∀ (l : List Nat) (s : State), l.foldl (fun s r =>
    let s := if ([] : List (Nat × Byte)).any (fun w => 64 * r ≤ w.1 && w.1 < 64 * r + 4) then s.ringDoorbell r (BitVec.ofNat 32 (State.mergeBytes (s.ring r).cmdTail.toNat (64 * r) 4 [])) else s
    if ([] : List (Nat × Byte)).any (fun w => 64 * r + 24 ≤ w.1 && w.1 < 64 * r + 24 + 4) then s.ringConsume r (BitVec.ofNat 32 (State.mergeBytes (s.ring r).cplHead.toNat (64 * r + 24) 4 [])) else s) s = s := by
    intro l
    induction l with
    | nil => intro s; rfl
    | cons a t ih => intro s; rw [List.foldl_cons]; exact ih s
  have h2 : ∀ (l : List Nat) (s : State), l.foldl (fun s i =>
    if ([] : List (Nat × Byte)).any (fun w => 0xFF100 + 0x20 * (i / 5) + 4 * (i % 5) ≤ w.1 && w.1 < 0xFF100 + 0x20 * (i / 5) + 4 * (i % 5) + 4) then s.clearCounter (i / 5) (i % 5) else s) s = s := by
    intro l
    induction l with
    | nil => intro s; rfl
    | cons a t ih => intro s; rw [List.foldl_cons]; exact ih s
  unfold State.writeControl
  dsimp only
  rw [h1, h2]
  rfl

theorem target_foyer {c off : Nat} (h : off < 2 ^ 24) : State.target c off = some (.inl (c * 2 ^ 24 + off)) := if_pos h

theorem hostByte_foyer {s : State} {c off : Nat} (h : off < 2 ^ 24) (hb : s.power ≠ .booting) :
    s.hostByte c off = some (Memory.read s.mem (c * 2 ^ 24 + off)) := by
  unfold State.hostByte
  rw [target_foyer h]
  dsimp only
  rw [if_neg (by simpa using hb)]

theorem filterMap_map {α β : Type} {l : List α} {g : α → β} {f : α → Option β} (h : ∀ a ∈ l, f a = some (g a)) : l.filterMap f = l.map g := by
  induction l with
  | nil => rfl
  | cons a t ih => rw [List.filterMap_cons, h a (by simp), List.map_cons, ← ih fun x hx => h x (by simp [hx])]

theorem filterMap_none {α β : Type} {l : List α} {f : α → Option β} (h : ∀ a ∈ l, f a = none) : l.filterMap f = [] :=
  List.filterMap_eq_nil_iff.mpr h

/-- A write burst to the foyer changes the enabled bytes of the memory. -/
theorem hostWrite_foyer {s : State} {c bank col n row : Nat} {data : List Byte} {mask : List Bool} (ho : s.channelOn c = true)
    (hr : SMap.get none (s.channel c).rows (bank % 16) = some row) (hn : data.length = n)
    (hlt : burstAt row bank (if n == 64 then col - col % 2 else col) + n ≤ 2 ^ 24) (hb : s.power ≠ .booting)
    (hu : ∀ i, i < n / 8 → s.upset .foyer (c * 2 ^ 24 + burstAt row bank (if n == 64 then col - col % 2 else col) + 8 * i) = 0) :
    s.hostWrite c bank col n data mask false = { s with
      mem := ((State.enabled (burstAt row bank (if n == 64 then col - col % 2 else col)) data mask).map (fun w => (c * 2 ^ 24 + w.1, w.2))).foldl
        (fun m w => Memory.write m w.1 w.2) s.mem } := by
  have hoff : s.burstOffset c bank (if n == 64 then col - col % 2 else col) = some (burstAt row bank (if n == 64 then col - col % 2 else col)) := by
    unfold State.burstOffset; rw [hr]; rfl
  have hpad : padTo n 0 (data.take n) = data := by
    unfold padTo; simp [← hn]
  unfold State.hostWrite
  rw [if_neg (by simp [ho]), if_neg (by decide), hoff]
  dsimp only
  rw [hpad]
  generalize burstAt row bank (if n == 64 then col - col % 2 else col) = off at hlt hu
  have hlt' : ∀ w ∈ State.enabled off data mask, w.1 < 2 ^ 24 := fun w hw => by have := enabled_lt _ _ _ hw; omega
  generalize State.enabled off data mask = ws at hlt'
  have h3 : ws.any (fun w => (s.hostByte c w.1).isNone) = false := by
    rw [List.any_eq_false]
    intro w hw
    rw [hostByte_foyer (hlt' w hw) hb]
    exact Bool.false_ne_true
  have h4 : ∀ (l : List (Nat × Byte)) (s : State), l.foldl (fun s w => { s with mem := Memory.write s.mem w.1 w.2 }) s =
      { s with mem := l.foldl (fun m w => Memory.write m w.1 w.2) s.mem } := by
    intro l
    induction l with
    | nil => intro s; rfl
    | cons w t ih => intro s; rw [List.foldl_cons, ih]; rfl
  have h5 : ∀ (t : State), t.upsets = s.upsets → (List.range (n / 8)).foldl (fun s i =>
      match State.target c (off + 8 * i) with
      | some (.inl a) => s.settleWord a ((ws.map (fun w => (c * 2 ^ 24 + w.1, w.2))).countP (fun w => decide (a ≤ w.1) && decide (w.1 < a + 8)))
      | _ => s) t = t := by
    intro t ht
    have : ∀ l : List Nat, (∀ i ∈ l, i < n / 8) → l.foldl (fun s i =>
      match State.target c (off + 8 * i) with
      | some (.inl a) => s.settleWord a ((ws.map (fun w => (c * 2 ^ 24 + w.1, w.2))).countP (fun w => decide (a ≤ w.1) && decide (w.1 < a + 8)))
      | _ => s) t = t := by
      intro l
      induction l with
      | nil => intro _; rfl
      | cons i r ih =>
        intro hl
        have hi := hl i (by simp)
        rw [List.foldl_cons, target_foyer (by omega)]
        dsimp only
        have : t.settleWord (c * 2 ^ 24 + (off + 8 * i)) ((ws.map (fun w => (c * 2 ^ 24 + w.1, w.2))).countP (fun w => decide (c * 2 ^ 24 + (off + 8 * i) ≤ w.1) && decide (w.1 < c * 2 ^ 24 + (off + 8 * i) + 8))) = t := by
          unfold State.settleWord
          have hz : t.upset .foyer (c * 2 ^ 24 + (off + 8 * i)) = 0 := by
            have := hu i hi
            unfold State.upset at this ⊢
            rw [ht, ← Nat.add_assoc (c * 2 ^ 24)]; exact this
          rw [hz]; rfl
        rw [this]
        exact ih fun j hj => hl j (by simp [hj])
    exact this _ fun i hi => List.mem_range.mp hi
  rw [h3]
  simp only [Bool.false_eq_true, if_false]
  have hm := filterMap_map (l := ws) (g := fun w => (c * 2 ^ 24 + w.1, w.2)) (f := fun w => match State.target c w.1 with | some (.inl a) => some (a, w.2) | _ => none)
    fun w hw => by rw [target_foyer (hlt' w hw)]
  have hz := filterMap_none (l := ws) (f := fun w => match State.target c w.1 with | some (.inr o) => some (o, w.2) | _ => none)
    fun w hw => by rw [target_foyer (hlt' w hw)]
  refine (Eq.trans (b := State.writeControl (List.foldl (fun s i =>
      match State.target c (off + 8 * i) with
      | some (.inl a) => s.settleWord a ((ws.map (fun w => (c * 2 ^ 24 + w.1, w.2))).countP (fun w => decide (a ≤ w.1) && decide (w.1 < a + 8)))
      | _ => s) ((ws.map (fun w => (c * 2 ^ 24 + w.1, w.2))).foldl (fun (s : State) w => { s with mem := Memory.write s.mem w.1 w.2 }) s) (List.range (n / 8))) []) ?_ ?_)
  · rw [← hm, ← hz]
    try rfl
  · rw [h4]
    exact (congrArg (fun t => State.writeControl t []) (h5 { s with mem := (ws.map (fun w => (c * 2 ^ 24 + w.1, w.2))).foldl (fun m w => Memory.write m w.1 w.2) s.mem } rfl)).trans (writeControl_nil _)

theorem burst_end {row bank col : Nat} (h : row < 512) : burstAt row bank col + 32 ≤ 2 ^ 24 := by
  unfold burstAt; omega

theorem burst_end2 {row bank col : Nat} (h : row < 512) : burstAt row bank (col - col % 2) + 64 ≤ 2 ^ 24 := by
  unfold burstAt; omega

theorem hostRead_foyer {s : State} {c bank col n row : Nat} (ho : s.channelOn c = true)
    (hr : SMap.get none (s.channel c).rows (bank % 16) = some row)
    (hlt : burstAt row bank (if n == 64 then col - col % 2 else col) + n ≤ 2 ^ 24) (hb : s.power ≠ .booting)
    (hu : ∀ i, i < n / 8 → s.upset .foyer (c * 2 ^ 24 + burstAt row bank (if n == 64 then col - col % 2 else col) + 8 * i) = 0) :
    s.hostRead c bank col n false = s.setChannel c { s.channel c with
      dq := (List.range n).map (fun i => Memory.read s.mem (c * 2 ^ 24 + burstAt row bank (if n == 64 then col - col % 2 else col) + i)) } := by
  have hoff : s.burstOffset c bank (if n == 64 then col - col % 2 else col) = some (burstAt row bank (if n == 64 then col - col % 2 else col)) := by
    unfold State.burstOffset; rw [hr]; rfl
  unfold State.hostRead
  rw [if_neg (by simp [ho]), if_neg (by decide), hoff]
  dsimp only
  generalize burstAt row bank (if n == 64 then col - col % 2 else col) = off at hlt hu
  have h1 : (List.range n).map (fun i => s.hostByte c (off + i)) = (List.range n).map (fun i => some (Memory.read s.mem (c * 2 ^ 24 + off + i))) := by
    apply List.map_congr_left
    intro i hi
    have := List.mem_range.mp hi
    rw [hostByte_foyer (by omega) hb, Nat.add_assoc]
  have h2 : ((List.range n).map (fun i => some (Memory.read s.mem (c * 2 ^ 24 + off + i)))).any Option.isNone = false := by
    rw [List.any_eq_false]
    intro x hx
    obtain ⟨i, _, rfl⟩ := List.mem_map.mp hx
    exact Bool.false_ne_true
  have hlt8 : ∀ i, i < n / 8 → off + 8 * i < 2 ^ 24 := fun i hi => by omega
  have hu' : ∀ i, i < n / 8 → s.upset .foyer (c * 2 ^ 24 + (off + 8 * i)) = 0 := fun i hi => by rw [← Nat.add_assoc]; exact hu i hi
  have h3 : s.correctedWords c off n = 0 := by
    unfold State.correctedWords
    have : ∀ l : List Nat, (∀ i ∈ l, i < n / 8) → ∀ k, l.foldl (fun k i =>
        match State.target c (off + 8 * i) with
        | some (.inl a) => if s.upset .foyer a == 1 && s.power != PowerState.booting then k + 1 else k
        | some (.inr o) => k + s.sram.countP (fun (e : SramPlace × Nat) => State.controlWord o e.1 && e.2 == 1)
        | none => k) k = k := by
      intro l
      induction l with
      | nil => intro _ k; rfl
      | cons i r ih =>
        intro hl k
        have hi := hl i (by simp)
        rw [List.foldl_cons, target_foyer (hlt8 i hi)]
        dsimp only
        rw [hu' i hi]
        exact ih (fun j hj => hl j (by simp [hj])) k
    exact this _ (fun i hi => List.mem_range.mp hi) 0
  have h4 : s.failingWord c off n = none := by
    unfold State.failingWord
    rw [List.findSome?_eq_none_iff]
    intro i hi
    have hi' := List.mem_range.mp hi
    rw [target_foyer (hlt8 i hi')]
    dsimp only
    rw [hu' i hi']
    rfl
  rw [h1, h2, h3, h4]
  simp only [Bool.false_eq_true, if_false, State.countChip_zero, List.map_map]
  rfl

theorem stored {s : State} {off : Nat} (base n : Nat) (data : List Byte) (mask : List Bool) (hn : data.length = n) :
    let m := ((State.enabled off data mask).map (fun w => (base + w.1, w.2))).foldl (fun m w => Memory.write m w.1 w.2) s.mem
    (∀ j, j < n → Memory.read m (base + off + j) = if mask.getD j false then Memory.read s.mem (base + off + j) else data.getD j 0) ∧
    (∀ b, b < base + off ∨ base + off + n ≤ b → Memory.read m b = Memory.read s.mem b) := by
  intro m
  refine ⟨fun j hj => ?_, fun b hb => ?_⟩
  · cases hm : mask.getD j false with
    | true =>
      refine (read_foldl_other _ _ _ fun w hw e => ?_).trans rfl
      obtain ⟨x, hx, rfl⟩ := List.mem_map.mp hw
      obtain ⟨i, hi, hk, rfl⟩ := (mem_enabled _ _ _ _).mp hx
      have : i = j := by simp only at e; omega
      subst this
      rw [hm] at hk; cases hk
    | false =>
      refine (read_foldl_hit _ _ _ (data.getD j 0) ?_ ?_).trans rfl
      · refine List.mem_map.mpr ⟨(off + j, data.getD j 0), (mem_enabled _ _ _ _).mpr ⟨j, hn ▸ hj, hm, rfl⟩, ?_⟩
        simp only [Nat.add_assoc]
      · intro w hw e
        obtain ⟨x, hx, rfl⟩ := List.mem_map.mp hw
        obtain ⟨i, hi, hk, rfl⟩ := (mem_enabled _ _ _ _).mp hx
        have : i = j := by simp only at e; omega
        subst this; rfl
  · refine read_foldl_other _ _ _ fun w hw e => ?_
    obtain ⟨x, hx, rfl⟩ := List.mem_map.mp hw
    obtain ⟨i, hi, hk, rfl⟩ := (mem_enabled _ _ _ _).mp hx
    simp only at e; omega

theorem updChannels_spec (l : List Nat) (s : State) (f : Channel → Channel) (hf : ∀ k, f (f k) = f k) :
    ((l.foldl (fun s c => s.updChannel c f) s) = { s with channels := (l.foldl (fun s c => s.updChannel c f) s).channels }) ∧
    (∀ x ∈ l, (l.foldl (fun s c => s.updChannel c f) s).channel x = f (s.channel x)) ∧
    (∀ x, x ∉ l → (l.foldl (fun s c => s.updChannel c f) s).channel x = s.channel x) := by
  induction l generalizing s with
  | nil => exact ⟨rfl, fun _ h => absurd h (by simp), fun _ _ => rfl⟩
  | cons y t ih =>
    simp only [List.foldl_cons]
    obtain ⟨h1, h2, h3⟩ := ih (s.updChannel y f)
    refine ⟨by rw [h1]; rfl, fun x hx => ?_, fun x hx => ?_⟩
    · by_cases hm : x ∈ t
      · rw [h2 x hm]
        by_cases hy : y = x
        · subst hy; simp [State.updChannel, hf]
        · rw [State.updChannel, State.channel_setChannel_other _ _ hy]
      · rw [h3 x hm]
        have : x = y := by rcases List.mem_cons.mp hx with h | h; exact h; exact absurd h hm
        subst this; simp [State.updChannel]
    · have hn : y ≠ x := fun h => hx (by simp [h])
      rw [h3 x (fun h => hx (by simp [h])), State.updChannel, State.channel_setChannel_other _ _ hn]

end Sys2Proof.Machine
end

