-- ==== Sys2Proof/Laws/Kept.lean ====
section
/-! SUPPORT. The bounds of a state (State.Bounded) and the fuses that no command changes, as one predicate `Kept`, with the rules by which a
function of the state keeps it. -/
namespace Sys2Proof.Machine

/-- What no command changes: the fuses, and the queue of waiting commands. -/
abbrev Unchanged := (Nat × BitVec 128 × BitVec 256 × BitVec 384 × BitVec 384 × Word × Nat) × List Instr

/-- The state lies within its bounds, and its fixed fuses and its queue are `q`. -/
structure Kept (q : Unchanged) (s : State) : Prop where
  bounded : s.Bounded
  same : (s.part.fixed, s.pending) = q

variable {q : Unchanged}

/-- A state that differs only in other fields. -/
theorem Kept.like {s t : State} (h : Kept q s) (hp : t.part = s.part) (hm : t.mem = s.mem) (hr : t.rings = s.rings)
    (hs : t.stretch = s.stretch) (hb : t.sustained = s.sustained) (hk : t.peak = s.peak) (hl : t.ramp = s.ramp)
    (hf : t.fuseMax = s.fuseMax) (hc : t.chipId = s.chipId) (hq : t.pending = s.pending) : Kept q t where
  bounded :=
    { mem := by rw [hm]; exact h.bounded.mem
      rings := fun r => by
        have : t.ring r = s.ring r := by unfold State.ring; rw [hr]
        rw [this]; exact h.bounded.rings r
      stretch := by rw [hs]; exact h.bounded.stretch
      fuse := by rw [hf]; exact h.bounded.fuse
      sustained := by rw [hb, hf]; exact h.bounded.sustained
      peak := by rw [hb, hk]; exact h.bounded.peak
      ramp := by rw [hl]; exact h.bounded.ramp
      chip := by rw [hc]; exact h.bounded.chip }
  same := by rw [hp, hq]; exact h.same

/-- Another memory in canonical form. -/
theorem Kept.memory {s : State} (h : Kept q s) (m : Memory) (hm : Memory.wf m = true) : Kept q { s with mem := m } where
  bounded := { h.bounded with mem := hm }
  same := h.same

/-- A ring within its bounds written. -/
theorem State.setRing_kept (s : State) (r : Nat) (k : Ring) (h : Kept q s) (hk : k.Bounded) : Kept q (s.setRing r k) where
  bounded := { h.bounded with
    rings := fun i => by
      rw [State.ring_setRing]
      split
      · exact hk
      · exact h.bounded.rings i }
  same := h.same

theorem State.updRing_kept (s : State) (r : Nat) (f : Ring → Ring) (h : Kept q s) (hf : ∀ k : Ring, k.Bounded → (f k).Bounded) :
    Kept q (s.updRing r f) := State.setRing_kept s r _ h (hf _ (h.bounded.rings r))

/-! ### Values that hold a state -/

/-- A state with a result beside it. -/
def KeptFst {α : Type} (q : Unchanged) (p : State × α) : Prop := Kept q p.1

/-- The state of a core's cycle. -/
def KeptCycle (q : Unchanged) (y : Cycle) : Prop := Kept q y.s

/-- The state with which a command that passes its checks goes on. -/
def KeptVerdict (q : Unchanged) : Verdict → Prop
  | .done t _ => Kept q t
  | .failed _ _ => True
  | .accepted t => Kept q t
  | .ended t => Kept q t

/-- A command's sheet keeps what it is given, where the checks of the command passed. -/
def Sheet.Keeps (q : Unchanged) (t : Sheet) : Prop := ∀ s r w, Kept q s → s.checkCommand r w t = none → KeptVerdict q (t.run s r w)

/-- A meaning answers a next state, and keeps. -/
def KeptAnswer (q : Unchanged) (a : Answer) : Prop := ∃ t, a = .next t ∧ Kept q t

theorem keptFst_mk {α : Type} (s : State) (a : α) : KeptFst q (s, a) = Kept q s := rfl

theorem KeptFst.fst {α : Type} {p : State × α} (h : KeptFst q p) : Kept q p.1 := h

theorem KeptFst.eq {α : Type} {p : State × α} {s : State} {a : α} (h : KeptFst q p) (e : p = (s, a)) : Kept q s := by rw [e] at h; exact h

theorem keptCycle_mk (s : State) (k : List Flight) (f : List CycleFault) (g : List (Nat × Nat × Word)) (c : List (Nat × ConvCount))
    (l : List (PassFlight × List Nat)) :
    KeptCycle q (Cycle.mk s k f g c l) = Kept q s := rfl

theorem KeptCycle.s {y : Cycle} (h : KeptCycle q y) : Kept q y.s := h

theorem keptVerdict_done (s : State) (b : Nat) : KeptVerdict q (.done s b) = Kept q s := rfl
theorem keptVerdict_failed (a b : Nat) : KeptVerdict q (.failed a b) = True := rfl
theorem keptVerdict_accepted (s : State) : KeptVerdict q (.accepted s) = Kept q s := rfl
theorem keptVerdict_ended (s : State) : KeptVerdict q (.ended s) = Kept q s := rfl

theorem keptAnswer_next (s : State) : KeptAnswer q (.next s) = Kept q s :=
  propext ⟨fun ⟨_, e, h⟩ => by cases e; exact h, fun h => ⟨s, rfl, h⟩⟩

/-! ### Folds -/

theorem foldl_kept {α : Type} (l : List α) (f : State → α → State) (s : State) (h : Kept q s)
    (hf : ∀ t a, Kept q t → Kept q (f t a)) : Kept q (l.foldl f s) := by
  induction l generalizing s with
  | nil => exact h
  | cons a l ih => exact ih _ (hf s a h)

theorem foldl_keptFst {α β : Type} (l : List α) (f : State × β → α → State × β) (p : State × β) (h : KeptFst q p)
    (hf : ∀ t b a, Kept q t → KeptFst q (f (t, b) a)) : KeptFst q (l.foldl f p) := by
  induction l generalizing p with
  | nil => exact h
  | cons a l ih => exact ih _ (hf p.1 p.2 a h)

theorem foldl_keptCycle {α : Type} (l : List α) (f : Cycle → α → Cycle) (y : Cycle) (h : KeptCycle q y)
    (hf : ∀ t a, KeptCycle q t → KeptCycle q (f t a)) : KeptCycle q (l.foldl f y) := by
  induction l generalizing y with
  | nil => exact h
  | cons a l ih => exact ih _ (hf y a h)

/-! ### Records of the state -/

/-- `Kept` of the ten fields it reads. -/
def KeptFields (q : Unchanged) (pending : List Instr) (part : Part) (mem : Memory) (rings : SMap Ring) (stretch sustained peak ramp fuseMax chipId : Nat) : Prop :=
  Kept q { State.reset with pending, part, mem, rings, stretch, sustained, peak, ramp, fuseMax, chipId }

/-- A state written field by field. -/
theorem kept_mk {x0 x1 x2 x3 x4 x5 x6 x7 x8 x9 x10 x11 x12 x13 x14 x15 x16 x17 x18 x19 x20 x21 x22 x23 x24 x25 x26 x27 x28 x29 x30 x31 x32 x33 x34 x35 x36 x37 x38 x39 x40 x41 x42 x43 x44 x45 x46 x47 x48 x49 x50 x51 x52 x53 x54 x55 x56 x57 x58 x59 x60 x61 x62 x63 x64 x65 x66 x67 x68 x69 x70 x71 x72 x73 x74 x75 x76} :
    Kept q (State.mk x0 x1 x2 x3 x4 x5 x6 x7 x8 x9 x10 x11 x12 x13 x14 x15 x16 x17 x18 x19 x20 x21 x22 x23 x24 x25 x26 x27 x28 x29 x30 x31 x32 x33 x34 x35 x36 x37 x38 x39 x40 x41 x42 x43 x44 x45 x46 x47 x48 x49 x50 x51 x52 x53 x54 x55 x56 x57 x58 x59 x60 x61 x62 x63 x64 x65 x66 x67 x68 x69 x70 x71 x72 x73 x74 x75 x76) =
      KeptFields q x0 x2 x3 x11 x32 x27 x28 x29 x30 x62 :=
  propext ⟨fun h => h.like rfl rfl rfl rfl rfl rfl rfl rfl rfl rfl, fun h => Kept.like h rfl rfl rfl rfl rfl rfl rfl rfl rfl rfl⟩

theorem Kept.fields {s : State} (h : Kept q s) :
    KeptFields q s.pending s.part s.mem s.rings s.stretch s.sustained s.peak s.ramp s.fuseMax s.chipId :=
  h.like rfl rfl rfl rfl rfl rfl rfl rfl rfl rfl

theorem Kept.fieldsMem {s : State} (h : Kept q s) {m : Memory} (hm : Memory.wf m = true) :
    KeptFields q s.pending s.part m s.rings s.stretch s.sustained s.peak s.ramp s.fuseMax s.chipId :=
  (h.memory m hm).like rfl rfl rfl rfl rfl rfl rfl rfl rfl rfl

end Sys2Proof.Machine
end

