-- ==== Sys2Proof/Laws/KeptOps.lean ====
section
/-! SUPPORT. What keeps the bounds of a state, its fuses and its queue (`Kept`): memory, rings, records, streets, packets, jobs and carriages. -/
set_option linter.all false
namespace Sys2Proof.Machine
variable {q : Unchanged}

/-! ### Machine/Ops -/

theorem State.putBytes_kept (s : State) (sp : Space) (off : Nat) (d : List Byte) (h : Kept q s) : Kept q (s.putBytes sp off d) :=
  h.memory _ (Memory.wf_writeBytes _ _ _ h.bounded.mem)

theorem State.putWord_kept (s : State) (a1 : Nat) (a2 : Nat) (a3 : Word) (h : Kept q s) : Kept q (State.putWord s a1 a2 a3) := by
  unfold State.putWord
  repeat' (with_reducible first | assumption | apply State.putBytes_kept)

theorem State.setUpset_kept (s : State) (a1 : Space) (a2 : Nat) (a3 : Nat) (h : Kept q s) : Kept q (State.setUpset s a1 a2 a3) := by
  unfold State.setUpset
  repeat' first | with_reducible assumption | (simp -zeta only [↓kept_mk]) | (with_reducible refine Kept.fields ?_)

theorem State.sramRenew_kept (s : State) (a1 : (SramPlace → Bool)) (h : Kept q s) : Kept q (State.sramRenew s a1) := by
  unfold State.sramRenew
  repeat' first | with_reducible assumption | (simp -zeta only [↓kept_mk]) | (with_reducible refine Kept.fields ?_)

theorem State.renewFoyer_kept (s : State) (a1 : Nat) (a2 : Nat) (h : Kept q s) : Kept q (State.renewFoyer s a1 a2) := by
  unfold State.renewFoyer
  repeat' first | (with_reducible first | assumption | apply State.setUpset_kept | apply foldl_kept) | split | intro _

theorem State.readUnit_kept (s : State) (a1 : Space) (a2 : Nat) (a3 : (State → State)) (h : Kept q s) (ha3 : ∀ x0, Kept q x0 → Kept q (a3 x0)) : KeptFst q (State.readUnit s a1 a2 a3) := by
  unfold State.readUnit
  repeat' first
    | (with_reducible first | assumption | apply ha3)
    | (simp -zeta only [↓kept_mk, ↓keptFst_mk])
    | (with_reducible refine Kept.fields ?_)
    | split
    | (extract_lets +onlyGivenNames x; refine have hx : Kept q x := ?_; ?_; rotate_left; clear_value x; rotate_right; unfold x)
    | (extract_lets +onlyGivenNames x; clear_value x)

theorem State.readUnit_kept_eq {s : State} {a1 : Space} {a2 : Nat} {a3 : (State → State)} {t : State} {y : Option (List Byte)} (k : KeptFst q (State.readUnit s a1 a2 a3)) (e : State.readUnit s a1 a2 a3 = (t, y)) : Kept q t := k.eq e

theorem State.writeUnit_kept (s : State) (a1 : Space) (a2 : Nat) (a3 : List Byte) (h : Kept q s) : Kept q (State.writeUnit s a1 a2 a3) := by
  unfold State.writeUnit
  repeat' (with_reducible first | assumption | apply State.setUpset_kept | apply State.putBytes_kept)

theorem State.setCore_kept (s : State) (a1 : Nat) (a2 : Core) (h : Kept q s) : Kept q (State.setCore s a1 a2) := by
  unfold State.setCore
  repeat' first | with_reducible assumption | (simp -zeta only [↓kept_mk]) | (with_reducible refine Kept.fields ?_)

theorem State.updCore_kept (s : State) (a1 : Nat) (a2 : (Core → Core)) (h : Kept q s) : Kept q (State.updCore s a1 a2) := by
  unfold State.updCore
  repeat' (with_reducible first | assumption | apply State.setCore_kept)

theorem State.setCompany_kept (s : State) (a1 : Nat) (a2 : Company) (h : Kept q s) : Kept q (State.setCompany s a1 a2) := by
  unfold State.setCompany
  repeat' first | with_reducible assumption | (simp -zeta only [↓kept_mk]) | (with_reducible refine Kept.fields ?_)

theorem State.updCompany_kept (s : State) (a1 : Nat) (a2 : (Company → Company)) (h : Kept q s) : Kept q (State.updCompany s a1 a2) := by
  unfold State.updCompany
  repeat' (with_reducible first | assumption | apply State.setCompany_kept)

theorem State.updCores_kept (s : State) (a1 : List Nat) (a2 : (Nat → Core → Core)) (h : Kept q s) : Kept q (State.updCores s a1 a2) := by
  unfold State.updCores
  repeat' first | (with_reducible first | assumption | apply State.updCore_kept | apply foldl_kept) | intro _

theorem State.setTaint_kept (s : State) (a1 : Nat) (h : Kept q s) : Kept q (State.setTaint s a1) := by
  unfold State.setTaint
  repeat' (with_reducible first | assumption | apply State.updCompany_kept)

theorem State.writeRecord_kept (s : State) (r : Nat) (rec : List Byte) (h : Kept q s) : Kept q (s.writeRecord r rec) := by
  have h1 := State.renewFoyer_kept _ (completionSlot r (s.ring r).cplTail.toNat) 128
    (State.putBytes_kept s .foyer (completionSlot r (s.ring r).cplTail.toNat) (padTo 128 0 rec) h)
  unfold State.writeRecord
  dsimp only
  exact State.setRing_kept _ _ _ h1 ⟨(h.bounded.rings r).taken, (h.bounded.rings r).queue⟩

theorem State.postRecord_kept (s : State) (r : Nat) (rec : List Byte) (h : Kept q s) : Kept q (s.postRecord r rec) := by
  have hr := h.bounded.rings r
  unfold State.postRecord
  dsimp only
  split
  · exact State.writeRecord_kept _ _ _ h
  · split
    · rename_i hl
      exact State.setRing_kept _ _ _ h ⟨hr.taken, by simp only [List.length_append, List.length_singleton]; omega⟩
    · exact State.setRing_kept _ _ _ h ⟨hr.taken, hr.queue⟩

theorem State.postCompany_kept (s : State) (a1 : Nat) (a2 : Nat) (a3 : Nat) (h : Kept q s) : Kept q (State.postCompany s a1 a2 a3) := by
  unfold State.postCompany
  repeat' (with_reducible first | assumption | apply State.postRecord_kept)

theorem State.postDevice_kept (s : State) (a1 : Nat) (a2 : Nat) (h : Kept q s) : Kept q (State.postDevice s a1 a2) := by
  unfold State.postDevice
  repeat' (with_reducible first | assumption | apply State.postRecord_kept)

theorem State.postDeviceFor_kept (s : State) (a1 : Nat) (a2 : Nat) (a3 : Nat) (h : Kept q s) : Kept q (State.postDeviceFor s a1 a2 a3) := by
  unfold State.postDeviceFor
  repeat' (with_reducible first | assumption | apply State.postRecord_kept)

theorem State.postThreshold_kept (s : State) (a1 : Option Nat) (a2 : Nat) (h : Kept q s) : Kept q (State.postThreshold s a1 a2) := by
  unfold State.postThreshold
  repeat' first | (with_reducible first | assumption | apply State.postCompany_kept | apply State.postDevice_kept) | split

theorem State.countOnCore_kept (s : State) (a1 : Nat) (a2 : Nat) (a3 : Nat) (h : Kept q s) : Kept q (State.countOnCore s a1 a2 a3) := by
  unfold State.countOnCore
  repeat' first | (with_reducible first | assumption | apply State.updCore_kept | apply State.postThreshold_kept | apply foldl_kept) | split | intro _

theorem State.countOnDistrict_kept (s : State) (a1 : Nat) (a2 : Nat) (a3 : Nat) (h : Kept q s) : Kept q (State.countOnDistrict s a1 a2 a3) := by
  unfold State.countOnDistrict
  repeat' first
    | (with_reducible first | assumption | apply State.postThreshold_kept | apply foldl_kept)
    | (simp -zeta only [↓kept_mk])
    | (with_reducible refine Kept.fields ?_)
    | split
    | intro _
    | (extract_lets +onlyGivenNames x; refine have hx : Kept q x := ?_; ?_; rotate_left; clear_value x; rotate_right; unfold x)

theorem State.countOnChip_kept (s : State) (a1 : Option Nat) (a2 : Nat) (a3 : Nat) (h : Kept q s) : Kept q (State.countOnChip s a1 a2 a3) := by
  unfold State.countOnChip
  repeat' first
    | (with_reducible first | assumption | apply State.postDevice_kept | apply foldl_kept)
    | (simp -zeta only [↓kept_mk])
    | (with_reducible refine Kept.fields ?_)
    | split
    | intro _
    | (extract_lets +onlyGivenNames x; refine have hx : Kept q x := ?_; ?_; rotate_left; clear_value x; rotate_right; unfold x)
    | (extract_lets +onlyGivenNames x; clear_value x)

theorem State.countCore_kept (s : State) (a1 : Nat) (a2 : Nat) (a3 : Nat) (h : Kept q s) : Kept q (State.countCore s a1 a2 a3) := by
  unfold State.countCore
  repeat' first
    | (with_reducible first | assumption | apply State.countOnChip_kept | apply State.countOnDistrict_kept | apply State.countOnCore_kept)
    | split

theorem State.countChip_kept (s : State) (a1 : Nat) (a2 : Option Nat) (a3 : Nat) (h : Kept q s) : Kept q (State.countChip s a1 a2 a3) := by
  unfold State.countChip
  repeat' first | (with_reducible first | assumption | apply State.countOnChip_kept) | split

theorem State.calCore_kept (s : State) (a1 : Nat) (a2 : List (Nat × ConvCount)) (h : Kept q s) : Kept q (State.calCore s a1 a2) := by
  unfold State.calCore
  repeat' first
    | (with_reducible first | assumption | apply State.updCore_kept | apply State.postCompany_kept | apply foldl_kept)
    | split
    | intro _
    | (extract_lets +onlyGivenNames x; refine have hx : Kept q x := ?_; ?_; rotate_left; clear_value x; rotate_right; unfold x)

theorem State.calChip_kept (s : State) (a1 : Nat) (a2 : ConvCount) (h : Kept q s) : Kept q (State.calChip s a1 a2) := by
  unfold State.calChip
  repeat' first
    | (with_reducible first | assumption | apply State.postDevice_kept | apply foldl_kept)
    | (simp -zeta only [↓kept_mk])
    | (with_reducible refine Kept.fields ?_)
    | split
    | intro _
    | (extract_lets +onlyGivenNames x; refine have hx : Kept q x := ?_; ?_; rotate_left; clear_value x; rotate_right; unfold x)

theorem State.countConv_kept (s : State) (a1 : Nat) (a2 : ConvCount) (h : Kept q s) : Kept q (State.countConv s a1 a2) := by
  unfold State.countConv
  repeat' (with_reducible first | assumption | apply State.countCore_kept)

theorem State.coreFault_kept (s : State) (a1 : Nat) (a2 : Nat) (a3 : Nat) (a4 : Nat) (h : Kept q s) : Kept q (State.coreFault s a1 a2 a3 a4) := by
  unfold State.coreFault
  repeat' first | (with_reducible first | assumption | apply State.updCore_kept | apply State.updCompany_kept) | split

theorem State.deviceFault_kept (s : State) (a1 : Nat) (a2 : Nat) (h : Kept q s) : Kept q (State.deviceFault s a1 a2) := by
  unfold State.deviceFault
  repeat' first
    | (with_reducible first | assumption | apply State.postDevice_kept)
    | (simp -zeta only [↓kept_mk])
    | (with_reducible refine Kept.fields ?_)

theorem State.perturbed_kept (s : State) (a1 : (Perturb → Bool)) (h : Kept q s) : KeptFst q (State.perturbed s a1) := by
  unfold State.perturbed
  repeat' first
    | (with_reducible first | assumption | apply State.countChip_kept | apply foldl_keptFst)
    | (simp -zeta only [↓kept_mk, ↓keptFst_mk])
    | (with_reducible refine Kept.fields ?_)
    | split
    | intro _
    | (extract_lets +onlyGivenNames x; refine have hx : Kept q x := ?_; ?_; rotate_left; clear_value x; rotate_right; unfold x)
    | (extract_lets +onlyGivenNames x; clear_value x)

theorem State.perturbed_kept_eq {s : State} {a1 : (Perturb → Bool)} {t : State} {y : Nat} (k : KeptFst q (State.perturbed s a1)) (e : State.perturbed s a1 = (t, y)) : Kept q t := k.eq e

theorem State.fatalFault_kept (s : State) (a1 : Nat) (a2 : Nat) (h : Kept q s) : Kept q (State.fatalFault s a1 a2) := by
  unfold State.fatalFault
  repeat' first
    | (with_reducible first | assumption | apply State.postDevice_kept)
    | (simp -zeta only [↓kept_mk])
    | (with_reducible refine Kept.fields ?_)
    | split
    | (extract_lets +onlyGivenNames x; refine have hx : Kept q x := ?_; ?_; rotate_left; clear_value x; rotate_right; unfold x)
    | (extract_lets +onlyGivenNames x; clear_value x)

theorem State.managerWorks_kept (s : State) (a1 : (State → State)) (h : Kept q s) (ha1 : ∀ x0, Kept q x0 → Kept q (a1 x0)) : Kept q (State.managerWorks s a1) := by
  unfold State.managerWorks
  repeat' first | (with_reducible first | assumption | apply ha1 | apply State.fatalFault_kept | apply State.countChip_kept) | split

/-! ### Machine/Records -/

theorem State.postCompletion_kept (s : State) (r : Nat) (accepted : Bool) (opcode : Nat) (company : Option Nat) (tag status offset body : Nat)
    (h : Kept q s) : Kept q (s.postCompletion r accepted opcode company tag status offset body) :=
  State.writeRecord_kept _ _ _ (State.updRing_kept _ _ _ h fun _ hk => ⟨Nat.le_trans List.length_eraseP_le hk.taken, hk.queue⟩)

theorem State.dismissOne_kept (s : State) (a1 : Nat) (h : Kept q s) : Kept q (State.dismissOne s a1) := by
  unfold State.dismissOne
  repeat' first | (with_reducible first | assumption | apply State.postCompletion_kept) | split | (extract_lets +onlyGivenNames x; clear_value x)

theorem State.dismiss_kept (s : State) (a1 : Nat) (h : Kept q s) : Kept q (State.dismiss s a1) := by
  unfold State.dismiss
  repeat' first | (with_reducible first | assumption | apply State.dismissOne_kept | apply foldl_kept) | intro _

theorem State.complete_kept (s : State) (r : Nat) (accepted : Bool) (opcode : Nat) (company : Option Nat) (tag status offset body : Nat)
    (h : Kept q s) : Kept q (s.complete r accepted opcode company tag status offset body) :=
  State.dismiss_kept _ _ (State.postCompletion_kept _ _ _ _ _ _ _ _ _ h)

theorem State.completeWaiting_kept (s : State) (a1 : Option Waiting) (a2 : Nat) (a3 : Nat) (h : Kept q s) : Kept q (State.completeWaiting s a1 a2 a3) := by
  unfold State.completeWaiting
  repeat' first | (with_reducible first | assumption | apply State.complete_kept) | split

theorem State.setContext_kept (s : State) (a1 : Nat) (a2 : Context) (h : Kept q s) : Kept q (State.setContext s a1 a2) := by
  unfold State.setContext
  repeat' first | with_reducible assumption | (simp -zeta only [↓kept_mk]) | (with_reducible refine Kept.fields ?_)

theorem State.updContext_kept (s : State) (a1 : Nat) (a2 : (Context → Context)) (h : Kept q s) : Kept q (State.updContext s a1 a2) := by
  unfold State.updContext
  repeat' (with_reducible first | assumption | apply State.setContext_kept)

theorem State.setJob_kept (s : State) (a1 : Nat) (a2 : Job) (h : Kept q s) : Kept q (State.setJob s a1 a2) := by
  unfold State.setJob
  repeat' first | with_reducible assumption | (simp -zeta only [↓kept_mk]) | (with_reducible refine Kept.fields ?_)

theorem State.updJob_kept (s : State) (a1 : Nat) (a2 : (Job → Job)) (h : Kept q s) : Kept q (State.updJob s a1 a2) := by
  unfold State.updJob
  repeat' (with_reducible first | assumption | apply State.setJob_kept)

theorem State.noteBucketWrite_kept (s : State) (a1 : Nat) (a2 : Nat) (h : Kept q s) : Kept q (State.noteBucketWrite s a1 a2) := by
  unfold State.noteBucketWrite
  repeat' first
    | (with_reducible first | assumption | apply State.countCore_kept | apply State.setContext_kept | apply foldl_kept)
    | split
    | intro _
    | (extract_lets +onlyGivenNames x; clear_value x)

/-! ### Machine/Streets -/

theorem State.launchUnit_kept (s : State) (a1 : Nat) (a2 : Nat) (a3 : Nat) (a4 : Nat) (a5 : List Byte) (h : Kept q s) : Kept q (State.launchUnit s a1 a2 a3 a4 a5) := by
  unfold State.launchUnit
  repeat' first
    | (with_reducible first | assumption | apply State.countCore_kept)
    | (simp -zeta only [↓kept_mk])
    | (with_reducible refine Kept.fields ?_)

theorem State.inboxTake_kept (s : State) (a1 : Nat) (a2 : Nat) (h : Kept q s) : Kept q (State.inboxTake s a1 a2) := by
  unfold State.inboxTake
  repeat' first | (with_reducible first | assumption | apply State.updCore_kept) | split

theorem State.passUnit_kept (s : State) (a1 : Nat) (h : Kept q s) : Kept q (State.passUnit s a1) := by
  unfold State.passUnit
  repeat' first | with_reducible assumption | (simp -zeta only [↓kept_mk]) | (with_reducible refine Kept.fields ?_)

theorem execLinkUnitPass_kept (a0 : Nat) (s : State) (h : Kept q s) : KeptAnswer q (execLinkUnitPass a0 s) := by
  unfold execLinkUnitPass
  repeat' first | (with_reducible first | assumption | apply State.passUnit_kept) | (simp -zeta only [↓kept_mk, ↓keptAnswer_next]) | split

/-! ### Machine/Stage -/

theorem State.storeWord_kept (s : State) (a1 : Nat) (a2 : Nat) (a3 : Word) (h : Kept q s) : Kept q (State.storeWord s a1 a2 a3) := by
  unfold State.storeWord
  repeat' first
    | (with_reducible first | assumption | apply State.putWord_kept | apply State.setUpset_kept)
    | split
    | (extract_lets +onlyGivenNames x; refine have hx : Kept q x := ?_; ?_; rotate_left; clear_value x; rotate_right; unfold x)

theorem State.storeWords_kept (s : State) (a1 : Nat) (a2 : Nat) (a3 : List Word) (h : Kept q s) : Kept q (State.storeWords s a1 a2 a3) := by
  unfold State.storeWords
  repeat' first | (with_reducible first | assumption | apply State.storeWord_kept | apply foldl_kept) | intro _

/-! ### Machine/Packets -/

theorem State.setLink_kept (s : State) (a1 : Nat) (a2 : Link) (h : Kept q s) : Kept q (State.setLink s a1 a2) := by
  unfold State.setLink
  repeat' first | with_reducible assumption | (simp -zeta only [↓kept_mk]) | (with_reducible refine Kept.fields ?_)

theorem State.updLink_kept (s : State) (a1 : Nat) (a2 : (Link → Link)) (h : Kept q s) : Kept q (State.updLink s a1 a2) := by
  unfold State.updLink
  repeat' (with_reducible first | assumption | apply State.setLink_kept)

theorem State.emit_kept (s : State) (a1 : Letter) (h : Kept q s) : Kept q (State.emit s a1) := by
  unfold State.emit
  repeat' first | with_reducible assumption | (simp -zeta only [↓kept_mk]) | (with_reducible refine Kept.fields ?_)

theorem State.message_kept (s : State) (a1 : Nat) (a2 : Nat) (a3 : List Nat) (h : Kept q s) : Kept q (State.message s a1 a2 a3) := by
  unfold State.message
  repeat' first | (with_reducible first | assumption | apply State.emit_kept) | (simp -zeta only [↓kept_mk]) | (with_reducible refine Kept.fields ?_)

theorem State.owe_kept (s : State) (a1 : Nat) (a2 : Nat) (a3 : Nat) (a4 : Nat) (a5 : Nat) (h : Kept q s) : Kept q (State.owe s a1 a2 a3 a4 a5) := by
  unfold State.owe
  repeat' first | (with_reducible first | assumption | apply State.updLink_kept) | split

theorem State.release_kept (s : State) (a1 : Packet) (h : Kept q s) : Kept q (State.release s a1) := by
  unfold State.release
  repeat' first | (with_reducible first | assumption | apply State.owe_kept) | split

theorem State.sendFrame_kept (s : State) (a1 : Nat) (a2 : Nat) (a3 : Nat) (a4 : List Byte) (h : Kept q s) : Kept q (State.sendFrame s a1 a2 a3 a4) := by
  unfold State.sendFrame
  repeat' (with_reducible first | assumption | apply State.updLink_kept)

theorem State.sendControl_kept (s : State) (a1 : Nat) (a2 : List Byte) (h : Kept q s) : Kept q (State.sendControl s a1 a2) := by
  unfold State.sendControl
  repeat' (with_reducible first | assumption | apply State.sendFrame_kept)

theorem State.postMalformed_kept (s : State) (a1 : Nat) (h : Kept q s) : Kept q (State.postMalformed s a1) := by
  unfold State.postMalformed
  repeat' (with_reducible first | assumption | apply State.postDevice_kept)

theorem State.takeArrived_kept (s : State) (a1 : Nat) (a2 : Nat) (h : Kept q s) : Kept q (State.takeArrived s a1 a2) := by
  unfold State.takeArrived
  repeat' first | (with_reducible first | assumption | apply State.release_kept | apply State.updLink_kept) | split

/-! ### Machine/Jobs -/

theorem State.sendScene_kept (s : State) (a1 : Nat) (a2 : Nat) (a3 : Nat) (a4 : Nat) (h : Kept q s) : Kept q (State.sendScene s a1 a2 a3 a4) := by
  unfold State.sendScene
  repeat' first | (with_reducible first | assumption | apply State.message_kept | apply foldl_kept) | intro _

theorem State.sceneProgress_kept (s : State) (a1 : Nat) (h : Kept q s) : Kept q (State.sceneProgress s a1) := by
  unfold State.sceneProgress
  repeat' first
    | (with_reducible first | assumption | apply State.updJob_kept | apply State.postDevice_kept | apply State.sendScene_kept | apply State.message_kept)
    | split
    | (extract_lets +onlyGivenNames x; refine have hx : Kept q x := ?_; ?_; rotate_left; clear_value x; rotate_right; unfold x)
    | (extract_lets +onlyGivenNames x; clear_value x)

theorem State.throughExchange_kept (s : State) (a1 : (State → State)) (h : Kept q s) (ha1 : ∀ x0, Kept q x0 → Kept q (a1 x0)) : Kept q (State.throughExchange s a1) := by
  unfold State.throughExchange
  repeat' first | (with_reducible first | assumption | apply ha1 | apply State.fatalFault_kept | apply State.countChip_kept) | split

theorem State.dropJobPackets_kept (s : State) (a1 : Nat) (h : Kept q s) : Kept q (State.dropJobPackets s a1) := by
  unfold State.dropJobPackets
  repeat' first
    | (with_reducible first | assumption | apply State.release_kept | apply State.updLink_kept | apply foldl_kept)
    | (simp -zeta only [↓kept_mk])
    | (with_reducible refine Kept.fields ?_)
    | split
    | intro _
    | (extract_lets +onlyGivenNames x; clear_value x)

theorem State.cancelContext_kept (s : State) (a1 : Nat) (h : Kept q s) : Kept q (State.cancelContext s a1) := by
  unfold State.cancelContext
  repeat' (with_reducible first | assumption | apply State.updContext_kept)

theorem State.spreadAbort_kept (s : State) (a1 : Nat) (a2 : Nat) (a3 : Option Nat) (h : Kept q s) : Kept q (State.spreadAbort s a1 a2 a3) := by
  unfold State.spreadAbort
  repeat' first | (with_reducible first | assumption | apply State.message_kept | apply foldl_kept) | split | intro _

theorem State.abortJob_kept (s : State) (a1 : Nat) (a2 : Nat) (a3 : Nat) (a4 : Option Nat) (h : Kept q s) : Kept q (State.abortJob s a1 a2 a3 a4) := by
  unfold State.abortJob
  repeat' first
    | (with_reducible first | assumption | apply State.updJob_kept | apply State.cancelContext_kept | apply State.spreadAbort_kept | apply State.dropJobPackets_kept | apply State.postDeviceFor_kept | apply foldl_kept)
    | split

theorem State.abortCompanyJobs_kept (s : State) (a1 : Nat) (h : Kept q s) : Kept q (State.abortCompanyJobs s a1) := by
  unfold State.abortCompanyJobs
  repeat' first | (with_reducible first | assumption | apply State.abortJob_kept | apply foldl_kept) | split | intro _

theorem State.sendUp_kept (s : State) (a1 : Nat) (h : Kept q s) : Kept q (State.sendUp s a1) := by
  unfold State.sendUp
  repeat' first
    | (with_reducible first | assumption | apply State.setContext_kept | apply State.countChip_kept | apply State.emit_kept)
    | split
    | (extract_lets +onlyGivenNames x; refine have hx : Kept q x := ?_; ?_; rotate_left; clear_value x; rotate_right; unfold x)
    | (extract_lets +onlyGivenNames x; clear_value x)

theorem State.forwardDown_kept (s : State) (a1 : Nat) (a2 : Nat) (a3 : Nat) (a4 : List Byte) (h : Kept q s) : Kept q (State.forwardDown s a1 a2 a3 a4) := by
  unfold State.forwardDown
  repeat' first | (with_reducible first | assumption | apply State.emit_kept | apply foldl_kept) | intro _

theorem State.forwardPair_kept (s : State) (a1 : Nat) (a2 : Nat) (a3 : Nat) (a4 : List Byte) (h : Kept q s) : Kept q (State.forwardPair s a1 a2 a3 a4) := by
  unfold State.forwardPair
  repeat' first | (with_reducible first | assumption | apply State.emit_kept) | split | (extract_lets +onlyGivenNames x; clear_value x)

/-! ### Machine/Queued -/

theorem State.readFoyerUnit_kept (s : State) (a1 : Nat) (h : Kept q s) : KeptFst q (State.readFoyerUnit s a1) := by
  unfold State.readFoyerUnit
  repeat' first
    | (with_reducible first | assumption | apply State.countChip_kept)
    | (simp -zeta only [↓kept_mk, ↓keptFst_mk])
    | split
    | (extract_lets +onlyGivenNames x; clear_value x)

theorem State.readFoyerUnit_kept_eq {s : State} {a1 : Nat} {t : State} {y : Option (List Byte)} (k : KeptFst q (State.readFoyerUnit s a1)) (e : State.readFoyerUnit s a1 = (t, y)) : Kept q t := k.eq e

theorem State.readSource_kept (s : State) (a1 : Carriage) (a2 : Nat) (a3 : Bool) (h : Kept q s) : KeptFst q (State.readSource s a1 a2 a3) := by
  unfold State.readSource
  repeat' first
    | (with_reducible first | assumption | apply State.readFoyerUnit_kept | apply State.readUnit_kept | apply State.countCore_kept | apply State.countChip_kept | apply KeptFst.fst)
    | (simp -zeta only [↓kept_mk, ↓keptFst_mk])
    | split
    | intro _

theorem State.readSource_kept_eq {s : State} {a1 : Carriage} {a2 : Nat} {a3 : Bool} {t : State} {y : Option (List Byte)} (k : KeptFst q (State.readSource s a1 a2 a3)) (e : State.readSource s a1 a2 a3 = (t, y)) : Kept q t := k.eq e

theorem State.gather_kept (s : State) (a1 : Carriage) (a2 : Nat) (h : Kept q s) : KeptFst q (State.gather s a1 a2) := by
  unfold State.gather
  repeat' first
    | (with_reducible first | assumption | refine State.readSource_kept_eq ?_ (by assumption) | apply State.readSource_kept | apply foldl_keptFst | apply KeptFst.fst)
    | (simp -zeta only [↓kept_mk, ↓keptFst_mk])
    | split
    | intro _
    | (extract_lets +onlyGivenNames x; clear_value x)

theorem State.gather_kept_eq {s : State} {a1 : Carriage} {a2 : Nat} {t : State} {y : Option (List Byte) × List Nat} (k : KeptFst q (State.gather s a1 a2)) (e : State.gather s a1 a2 = (t, y)) : Kept q t := k.eq e

theorem State.countCarriage_kept (s : State) (a1 : Carriage) (a2 : ConvCount) (h : Kept q s) : Kept q (State.countCarriage s a1 a2) := by
  unfold State.countCarriage
  repeat' first | (with_reducible first | assumption | apply State.countConv_kept | apply State.calCore_kept | apply State.calChip_kept) | split

theorem State.restoreImage_kept (s : State) (a1 : Nat) (h : Kept q s) : Kept q (State.restoreImage s a1) := by
  unfold State.restoreImage
  repeat' first | (with_reducible first | assumption | apply State.updContext_kept | apply foldl_kept) | intro _

theorem State.landUnit_kept (s : State) (a1 : Carriage) (a2 : Nat) (a3 : List Byte) (h : Kept q s) : Kept q (State.landUnit s a1 a2 a3) := by
  unfold State.landUnit
  repeat' first
    | (with_reducible first | assumption | apply State.storeWords_kept | apply State.renewFoyer_kept | apply State.putBytes_kept | apply State.restoreImage_kept | apply State.writeUnit_kept)
    | split

theorem State.convertUnit_kept (s : State) (a1 : Carriage) (a2 : Nat) (h : Kept q s) : KeptFst q (State.convertUnit s a1 a2) := by
  unfold State.convertUnit
  repeat' first
    | (with_reducible first | assumption | refine State.gather_kept_eq ?_ (by assumption) | apply State.gather_kept | apply State.countCarriage_kept)
    | (simp -zeta only [↓kept_mk, ↓keptFst_mk])
    | split
    | (extract_lets +onlyGivenNames x; clear_value x)

theorem State.convertUnit_kept_eq {s : State} {a1 : Carriage} {a2 : Nat} {t : State} {y : Option (List Byte) × List Nat} (k : KeptFst q (State.convertUnit s a1 a2)) (e : State.convertUnit s a1 a2 = (t, y)) : Kept q t := k.eq e

theorem State.putCarriage_kept (s : State) (a1 : Carriage) (h : Kept q s) : Kept q (State.putCarriage s a1) := by
  unfold State.putCarriage
  repeat' first | with_reducible assumption | (simp -zeta only [↓kept_mk]) | (with_reducible refine Kept.fields ?_)

theorem State.endCarriage_kept (s : State) (a1 : Carriage) (a2 : Nat) (h : Kept q s) : Kept q (State.endCarriage s a1 a2) := by
  unfold State.endCarriage
  repeat' first
    | (with_reducible first | assumption | apply State.setTaint_kept | apply State.updCompany_kept | apply State.complete_kept)
    | (simp -zeta only [↓kept_mk])
    | (with_reducible refine Kept.fields ?_)
    | split

theorem State.finishCarriage_kept (s : State) (a1 : Carriage) (h : Kept q s) : Kept q (State.finishCarriage s a1) := by
  unfold State.finishCarriage
  repeat' first | (with_reducible first | assumption | apply State.putCarriage_kept | apply State.endCarriage_kept) | split

theorem State.sendFlit_kept (s : State) (a1 : Carriage) (h : Kept q s) : Kept q (State.sendFlit s a1) := by
  unfold State.sendFlit
  repeat' first | (with_reducible first | assumption | apply State.emit_kept) | split | (extract_lets +onlyGivenNames x; clear_value x)

theorem State.moveCarriage_kept (s : State) (a1 : Nat) (h : Kept q s) : Kept q (State.moveCarriage s a1) := by
  unfold State.moveCarriage
  repeat' first
    | (with_reducible first | assumption | refine State.convertUnit_kept_eq ?_ (by assumption) | apply State.convertUnit_kept | apply State.landUnit_kept | apply State.finishCarriage_kept | apply State.putCarriage_kept | apply State.sendFlit_kept | apply KeptFst.fst)
    | split
    | (extract_lets +onlyGivenNames x; clear_value x)

theorem State.readBucket_kept (s : State) (a1 : Nat) (h : Kept q s) : Kept q (State.readBucket s a1) := by
  unfold State.readBucket
  repeat' first
    | (with_reducible first | assumption | refine State.readUnit_kept_eq ?_ (by assumption) | apply State.readUnit_kept | apply State.countCore_kept | apply State.abortJob_kept | apply State.sendUp_kept | apply State.setContext_kept)
    | split
    | intro _
    | (extract_lets +onlyGivenNames x; clear_value x)

theorem State.finishLanding_kept (s : State) (a1 : Nat) (h : Kept q s) : Kept q (State.finishLanding s a1) := by
  unfold State.finishLanding
  repeat' first
    | (with_reducible first | assumption | apply State.setContext_kept | apply State.countChip_kept | apply State.updCompany_kept | apply State.postCompany_kept | apply State.sceneProgress_kept)
    | split
    | (extract_lets +onlyGivenNames x; clear_value x)

theorem State.landBucket_kept (s : State) (a1 : Nat) (h : Kept q s) : Kept q (State.landBucket s a1) := by
  unfold State.landBucket
  repeat' (with_reducible first | assumption | apply State.writeUnit_kept | apply State.finishLanding_kept | apply State.updContext_kept)

theorem State.finishEmpties_kept (s : State) (a1 : Nat) (a2 : Nat) (h : Kept q s) : Kept q (State.finishEmpties s a1 a2) := by
  unfold State.finishEmpties
  repeat' first | (with_reducible first | assumption | apply State.endCarriage_kept | apply foldl_kept) | split | intro _

theorem State.moveItem_kept (s : State) (a1 : DoorItem) (h : Kept q s) : Kept q (State.moveItem s a1) := by
  unfold State.moveItem
  repeat' first
    | (with_reducible first | assumption | apply State.moveCarriage_kept | apply State.throughExchange_kept | apply State.readBucket_kept | apply State.landBucket_kept)
    | split
    | intro _

theorem State.doorMove_kept (s : State) (core channel : Nat) (toStore : Bool) (cap : Nat) (h : Kept q s) :
    KeptFst q (s.doorMove core channel toStore cap) := by
  induction cap generalizing s with
  | zero => exact h
  | succ n ih =>
    have k := State.finishEmpties_kept s core channel h
    unfold State.doorMove
    dsimp only
    split
    · exact k
    · exact ih _ (State.moveItem_kept _ _ k)

theorem State.doorMove_kept_eq {s : State} {core channel : Nat} {toStore : Bool} {cap : Nat} {t : State} {y : Nat}
    (k : KeptFst q (s.doorMove core channel toStore cap)) (e : s.doorMove core channel toStore cap = (t, y)) : Kept q t := k.eq e

theorem execCarriageUnitLanding_kept (a0 : Nat) (s : State) (h : Kept q s) : KeptAnswer q (execCarriageUnitLanding a0 s) := by
  unfold execCarriageUnitLanding
  repeat' first
    | (with_reducible first | assumption | apply State.endCarriage_kept | apply State.moveCarriage_kept)
    | (simp -zeta only [↓kept_mk, ↓keptAnswer_next])
    | split

theorem execBucketBufferRead_kept (a0 : Nat) (s : State) (h : Kept q s) : KeptAnswer q (execBucketBufferRead a0 s) := by
  unfold execBucketBufferRead
  repeat' first
    | (with_reducible first | assumption | apply State.throughExchange_kept | apply State.readBucket_kept)
    | (simp -zeta only [↓kept_mk, ↓keptAnswer_next])
    | split
    | intro _

theorem execBroadcastLanding_kept (a0 : Nat) (s : State) (h : Kept q s) : KeptAnswer q (execBroadcastLanding a0 s) := by
  unfold execBroadcastLanding
  repeat' first
    | (with_reducible first | assumption | apply State.throughExchange_kept | apply State.landBucket_kept)
    | (simp -zeta only [↓kept_mk, ↓keptAnswer_next])
    | split
    | intro _

theorem execCarriageAcknowledgement_kept (a0 : Nat) (s : State) (h : Kept q s) : KeptAnswer q (execCarriageAcknowledgement a0 s) := by
  unfold execCarriageAcknowledgement
  repeat' first | (with_reducible first | assumption | apply State.endCarriage_kept) | (simp -zeta only [↓kept_mk, ↓keptAnswer_next]) | split

end Sys2Proof.Machine
end

