-- ==== Sys2Proof/Laws/KeptCore.lean ====
section
/-! SUPPORT. What keeps the bounds of a state, its fuses and its queue (`Kept`): a core: its cycles, its slots, its bundles. -/
set_option linter.all false
namespace Sys2Proof.Machine
variable {q : Unchanged}

/-! ### Machine/Engine -/

theorem Cycle.fault_kept (y : Cycle) (a1 : Nat) (a2 : Nat) (a3 : Nat) (h : KeptCycle q y) : KeptCycle q (Cycle.fault y a1 a2 a3) := by
  unfold Cycle.fault
  repeat' first | (with_reducible first | assumption | apply KeptCycle.s) | (simp -zeta only [↓kept_mk, ↓keptCycle_mk])

theorem Cycle.go_kept (y : Cycle) (a1 : Flight) (h : KeptCycle q y) : KeptCycle q (Cycle.go y a1) := by
  unfold Cycle.go
  repeat' first | (with_reducible first | assumption | apply KeptCycle.s) | (simp -zeta only [↓kept_mk, ↓keptCycle_mk])

theorem Cycle.sign_kept (y : Cycle) (a1 : Nat) (a2 : Nat) (a3 : Word) (h : KeptCycle q y) : KeptCycle q (Cycle.sign y a1 a2 a3) := by
  unfold Cycle.sign
  repeat' first | (with_reducible first | assumption | apply KeptCycle.s) | (simp -zeta only [↓kept_mk, ↓keptCycle_mk])

theorem Cycle.reads_kept (y : Cycle) (a1 : Nat) (a2 : Nat) (a3 : (SramPlace → Option Nat)) (h : KeptCycle q y) : KeptCycle q (Cycle.reads y a1 a2 a3).1 := by
  unfold Cycle.reads
  repeat' first
    | (with_reducible first | assumption | apply State.countCore_kept | apply Cycle.fault_kept | apply foldl_keptCycle | apply KeptCycle.s)
    | (simp -zeta only [↓kept_mk, ↓keptCycle_mk])
    | intro _

theorem Cycle.readsSetting_kept (y : Cycle) (a1 : Nat) (a2 : Nat) (h : KeptCycle q y) : KeptCycle q (Cycle.readsSetting y a1 a2).1 := by
  unfold Cycle.readsSetting
  repeat' (with_reducible first | assumption | apply Cycle.reads_kept)

theorem Cycle.readsQuire_kept (y : Cycle) (a1 : Nat) (a2 : Nat) (a3 : List Nat) (h : KeptCycle q y) : KeptCycle q (Cycle.readsQuire y a1 a2 a3).1 := by
  unfold Cycle.readsQuire
  repeat' (with_reducible first | assumption | apply Cycle.reads_kept)

theorem Cycle.finish_kept (y : Cycle) (a1 : Nat) (a2 : Nat) (h : KeptCycle q y) : KeptCycle q (Cycle.finish y a1 a2) := by
  unfold Cycle.finish
  repeat' first | (with_reducible first | assumption | apply State.updCore_kept | apply KeptCycle.s) | (simp -zeta only [↓kept_mk, ↓keptCycle_mk])

theorem Cycle.writeSigned_kept (y : Cycle) (a1 : Nat) (a2 : Nat) (a3 : List (Nat × Word)) (h : KeptCycle q y) : KeptCycle q (Cycle.writeSigned y a1 a2 a3) := by
  unfold Cycle.writeSigned
  repeat' first
    | (with_reducible first | assumption | apply State.storeWord_kept | apply foldl_kept | apply KeptCycle.s)
    | (simp -zeta only [↓kept_mk, ↓keptCycle_mk])
    | intro _
    | (extract_lets +onlyGivenNames x; refine have hx : Kept q x := ?_; ?_; rotate_left; clear_value x; rotate_right; unfold x)
    | (extract_lets +onlyGivenNames x; clear_value x)

theorem Cycle.convert_kept (y : Cycle) (a1 : Nat) (a2 : Nat) (a3 : ConvCount) (h : KeptCycle q y) : KeptCycle q (Cycle.convert y a1 a2 a3) := by
  unfold Cycle.convert
  repeat' first
    | (with_reducible first | assumption | apply State.countConv_kept | apply State.calCore_kept | apply KeptCycle.s)
    | (simp -zeta only [↓kept_mk, ↓keptCycle_mk])

theorem Cycle.pass_kept (y : Cycle) (a1 : State) (a2 : Nat) (a3 : Nat) (a4 : Bool) (a5 : PassFlight) (h : KeptCycle q y) : KeptCycle q (Cycle.pass y a1 a2 a3 a4 a5) := by
  unfold Cycle.pass
  repeat' first
    | (with_reducible first | assumption | apply Cycle.readsQuire_kept | apply State.sramRenew_kept | apply State.setCore_kept | apply State.countCore_kept | apply Cycle.finish_kept | apply Cycle.go_kept | apply KeptCycle.s)
    | (simp -zeta only [↓kept_mk, ↓keptCycle_mk])
    | split
    | (extract_lets +onlyGivenNames x; clear_value x)

theorem Cycle.traps_kept (y : Cycle) (a1 : State) (a2 : Nat) (h : KeptCycle q y) : KeptCycle q (Cycle.traps y a1 a2) := by
  unfold Cycle.traps
  repeat' first
    | (with_reducible first | assumption | apply Cycle.readsSetting_kept | apply Cycle.fault_kept | apply foldl_keptCycle)
    | split
    | intro _

theorem Cycle.strikeRead_kept (y : Cycle) (a1 : State) (a2 : Nat) (a3 : Nat) (a4 : Nat) (a5 : StrikeFlight) (h : KeptCycle q y) : KeptCycle q (Cycle.strikeRead y a1 a2 a3 a4 a5).1 := by
  unfold Cycle.strikeRead
  repeat' first
    | (with_reducible first | assumption | apply State.countCore_kept | apply Cycle.readsQuire_kept | apply Cycle.readsSetting_kept | apply State.updCore_kept | apply KeptCycle.s)
    | (simp -zeta only [↓kept_mk, ↓keptCycle_mk])
    | split
    | (extract_lets +onlyGivenNames x; refine have hx : KeptCycle q x := ?_; ?_; rotate_left; clear_value x; rotate_right; unfold x)
    | (extract_lets +onlyGivenNames x; clear_value x)

theorem Cycle.strikeTable_kept (y : Cycle) (a1 : Nat) (a2 : Nat) (a3 : Nat) (a4 : StrikeFlight) (h : KeptCycle q y) : KeptCycle q (Cycle.strikeTable y a1 a2 a3 a4) := by
  unfold Cycle.strikeTable
  repeat' first | (with_reducible first | assumption | apply Cycle.reads_kept) | split

theorem Cycle.strikeConvert_kept (y : Cycle) (a1 : State) (a2 : Nat) (a3 : Nat) (a4 : Nat) (a5 : StrikeFlight) (h : KeptCycle q y) : KeptCycle q (Cycle.strikeConvert y a1 a2 a3 a4 a5).1 := by
  unfold Cycle.strikeConvert
  repeat' first
    | (with_reducible first | assumption | apply State.setCore_kept | apply Cycle.convert_kept | apply KeptCycle.s)
    | (simp -zeta only [↓kept_mk, ↓keptCycle_mk])
    | split

theorem Cycle.strike_kept (y : Cycle) (s0 : State) (core x : Nat) (bad : Bool) (f : StrikeFlight) (h : KeptCycle q y) :
    KeptCycle q (y.strike s0 core x bad f) := by
  unfold Cycle.strike
  extract_lets cfg y0 bias rexp f' p p' f2 y'
  have hp : KeptCycle q p'.1 := Cycle.strikeConvert_kept _ _ _ _ _ _ (Cycle.strikeRead_kept _ _ _ _ _ _ (Cycle.strikeTable_kept _ _ _ _ _ h))
  have hy : KeptCycle q y' := by
    unfold y'
    split
    · exact hp
    · split
      · exact hp
      · exact Cycle.writeSigned_kept _ _ _ _ hp
  split
  · exact Cycle.finish_kept _ _ _ hy
  · exact Cycle.go_kept _ _ hy

theorem Cycle.dmaIn_kept (y : Cycle) (a1 : State) (a2 : Nat) (a3 : Nat) (a4 : Bool) (a5 : DmaFlight) (h : KeptCycle q y) : KeptCycle q (Cycle.dmaIn y a1 a2 a3 a4 a5) := by
  unfold Cycle.dmaIn
  repeat' first
    | (with_reducible first | assumption | apply Cycle.fault_kept | apply Cycle.writeSigned_kept | apply Cycle.convert_kept | apply Cycle.finish_kept | apply Cycle.go_kept)
    | split

theorem Cycle.dmaOut_kept (y : Cycle) (a1 : State) (a2 : Nat) (a3 : Nat) (a4 : Bool) (a5 : DmaFlight) (h : KeptCycle q y) : KeptCycle q (Cycle.dmaOut y a1 a2 a3 a4 a5) := by
  unfold Cycle.dmaOut
  repeat' first
    | (with_reducible first | assumption | apply Cycle.convert_kept | apply State.noteBucketWrite_kept | apply State.writeUnit_kept | apply Cycle.finish_kept | apply Cycle.go_kept | apply KeptCycle.s)
    | (simp -zeta only [↓kept_mk, ↓keptCycle_mk])
    | split
    | (extract_lets +onlyGivenNames x; refine have hx : KeptCycle q x := ?_; ?_; rotate_left; clear_value x; rotate_right; unfold x)
    | (extract_lets +onlyGivenNames x; clear_value x)

theorem Cycle.door_kept (y : Cycle) (a1 : Nat) (a2 : Nat) (a3 : Bool) (a4 : DoorFlight) (h : KeptCycle q y) : KeptCycle q (Cycle.door y a1 a2 a3 a4) := by
  unfold Cycle.door
  repeat' first
    | (with_reducible first | assumption | apply State.doorMove_kept | apply State.countCore_kept | apply Cycle.finish_kept | apply Cycle.go_kept | apply KeptFst.fst | apply KeptCycle.s)
    | (simp -zeta only [↓kept_mk, ↓keptFst_mk, ↓keptCycle_mk])
    | split
    | (extract_lets +onlyGivenNames x; clear_value x)

theorem Cycle.send_kept (y : Cycle) (a1 : State) (a2 : Nat) (a3 : Nat) (a4 : Bool) (a5 : StreetFlight) (h : KeptCycle q y) : KeptCycle q (Cycle.send y a1 a2 a3 a4 a5) := by
  unfold Cycle.send
  repeat' first
    | (with_reducible first | assumption | apply Cycle.go_kept | apply State.launchUnit_kept | apply Cycle.finish_kept | apply KeptCycle.s)
    | (simp -zeta only [↓kept_mk, ↓keptCycle_mk])
    | split

theorem Cycle.recv_kept (y : Cycle) (a1 : Nat) (a2 : Nat) (a3 : Bool) (a4 : StreetFlight) (h : KeptCycle q y) : KeptCycle q (Cycle.recv y a1 a2 a3 a4) := by
  unfold Cycle.recv
  repeat' first
    | (with_reducible first | assumption | apply Cycle.go_kept | apply State.inboxTake_kept | apply State.storeWords_kept | apply Cycle.finish_kept | apply KeptCycle.s)
    | (simp -zeta only [↓kept_mk, ↓keptCycle_mk])
    | split

theorem Cycle.writeOutput_kept (s : State) (a1 : Nat) (a2 : Nat) (a3 : List Byte) (h : Kept q s) : Kept q (Cycle.writeOutput s a1 a2 a3) := by
  unfold Cycle.writeOutput
  repeat' (with_reducible first | assumption | apply State.storeWords_kept)

theorem Cycle.callGroup_kept (y : Cycle) (a1 : State) (a2 : Nat) (a3 : MicroProgram) (a4 : CallFlight) (a5 : Nat) (h : KeptCycle q y) : KeptCycle q (Cycle.callGroup y a1 a2 a3 a4 a5).1 := by
  unfold Cycle.callGroup
  repeat' first
    | (with_reducible first | assumption | apply State.countConv_kept | apply State.countCore_kept | apply State.setCore_kept | apply KeptCycle.s)
    | (simp -zeta only [↓kept_mk, ↓keptCycle_mk])
    | (extract_lets +onlyGivenNames x; refine have hx : Kept q x := ?_; ?_; rotate_left; clear_value x; rotate_right; unfold x)
    | (extract_lets +onlyGivenNames x; clear_value x)

theorem Cycle.call_kept (y : Cycle) (a1 : State) (a2 : Nat) (a3 : Nat) (a4 : Nat) (a5 : List Acc) (a6 : CallFlight) (h : KeptCycle q y) : KeptCycle q (Cycle.call y a1 a2 a3 a4 a5 a6) := by
  unfold Cycle.call
  repeat' first
    | (with_reducible first | assumption | apply Cycle.reads_kept | apply Cycle.callGroup_kept | apply Cycle.writeOutput_kept | apply Cycle.finish_kept | apply Cycle.go_kept | apply KeptCycle.s)
    | (simp -zeta only [↓kept_mk, ↓keptCycle_mk])
    | split
    | (extract_lets +onlyGivenNames x; clear_value x)

theorem Cycle.run_kept (s : State) (a1 : Nat) (a2 : Nat) (a3 : Bool) (a4 : List Acc) (y : Cycle) (a6 : Nat) (a7 : Flight) (h : KeptCycle q y) : KeptCycle q (Cycle.run s a1 a2 a3 a4 y a6 a7) := by
  unfold Cycle.run
  repeat' first
    | (with_reducible first | assumption | apply Cycle.go_kept | apply Cycle.pass_kept | apply Cycle.strike_kept | apply Cycle.dmaOut_kept | apply Cycle.dmaIn_kept | apply Cycle.door_kept | apply Cycle.send_kept | apply Cycle.recv_kept | apply Cycle.call_kept)
    | split

theorem State.cycleWork_kept (s : State) (a1 : Nat) (h : Kept q s) : KeptFst q (State.cycleWork s a1) := by
  unfold State.cycleWork
  repeat' first
    | (with_reducible first | assumption | apply Cycle.run_kept | apply Cycle.traps_kept | apply State.calCore_kept | apply Cycle.fault_kept | apply State.updCore_kept | apply State.countCore_kept | apply foldl_keptCycle | apply KeptCycle.s)
    | (simp -zeta only [↓kept_mk, ↓keptFst_mk, ↓keptCycle_mk])
    | split
    | intro _
    | (extract_lets +onlyGivenNames x; refine have hx : Kept q x := ?_; ?_; rotate_left; clear_value x; rotate_right; unfold x)
    | (extract_lets +onlyGivenNames x; refine have hx : KeptCycle q x := ?_; ?_; rotate_left; clear_value x; rotate_right; unfold x)
    | (extract_lets +onlyGivenNames x; clear_value x)

theorem State.cycleWork_kept_eq {s : State} {a1 : Nat} {t : State} {y : Option CycleFault} (k : KeptFst q (State.cycleWork s a1)) (e : State.cycleWork s a1 = (t, y)) : Kept q t := k.eq e

theorem State.countRunning_kept (s : State) (a1 : Nat) (a2 : Nat) (h : Kept q s) : Kept q (State.countRunning s a1 a2) := by
  unfold State.countRunning
  repeat' first
    | (with_reducible first | assumption | apply State.countCore_kept | apply State.updCompany_kept | apply State.setTaint_kept)
    | split
    | (extract_lets +onlyGivenNames x; refine have hx : Kept q x := ?_; ?_; rotate_left; clear_value x; rotate_right; unfold x)

theorem State.faultBefore_kept (s : State) (a1 : Nat) (a2 : Nat) (a3 : Nat) (a4 : Nat) (h : Kept q s) : Kept q (State.faultBefore s a1 a2 a3 a4) := by
  unfold State.faultBefore
  repeat' first
    | (with_reducible first | assumption | apply State.updCore_kept | apply State.coreFault_kept)
    | split
    | (extract_lets +onlyGivenNames x; refine have hx : Kept q x := ?_; ?_; rotate_left; clear_value x; rotate_right; unfold x)
    | (extract_lets +onlyGivenNames x; clear_value x)

theorem State.openCycle_kept (s : State) (a1 : Nat) (h : Kept q s) : Kept q (State.openCycle s a1) := by
  unfold State.openCycle
  repeat' first | (with_reducible first | assumption | apply State.updCore_kept | apply State.faultBefore_kept) | split

theorem State.overrun_kept (s : State) (a1 : Nat) (h : Kept q s) : Kept q (State.overrun s a1) := by
  unfold State.overrun
  repeat' first | (with_reducible first | assumption | apply State.faultBefore_kept) | split

theorem State.closeCycle_kept (s : State) (a1 : Nat) (h : Kept q s) : Kept q (State.closeCycle s a1) := by
  unfold State.closeCycle
  repeat' first
    | (with_reducible first | assumption | refine State.cycleWork_kept_eq ?_ (by assumption) | apply State.cycleWork_kept | apply State.countRunning_kept | apply State.coreFault_kept | apply State.updCore_kept)
    | split

theorem State.runTo_kept (s : State) (core limit fuel : Nat) (h : Kept q s) : Kept q (s.runTo core limit fuel) := by
  induction fuel generalizing s with
  | zero => exact h
  | succ n ih =>
    unfold State.runTo
    split
    · exact h
    · dsimp only
      split
      · exact ih _ (State.updCore_kept _ _ _ (State.countRunning_kept _ _ _ h))
      · exact ih _ (State.closeCycle_kept _ _ (State.openCycle_kept _ _ h))

theorem State.advance_kept (s : State) (a1 : Nat) (a2 : Nat) (h : Kept q s) : Kept q (State.advance s a1 a2) := by
  unfold State.advance
  repeat' (with_reducible first | assumption | apply State.runTo_kept)

/-! ### Machine/Bundle -/

theorem State.countIssueReads_kept (s : State) (a1 : Nat) (h : Kept q s) : Kept q (State.countIssueReads s a1) := by
  unfold State.countIssueReads
  repeat' (with_reducible first | assumption | apply State.countCore_kept)

theorem State.readyBundle_kept (s : State) (a1 : Nat) (h : Kept q s) : Kept q (State.readyBundle s a1) := by
  unfold State.readyBundle
  repeat' first
    | (with_reducible first | assumption | apply State.advance_kept | apply State.overrun_kept | apply State.openCycle_kept | apply State.faultBefore_kept | apply State.countIssueReads_kept)
    | split
    | (extract_lets +onlyGivenNames x; refine have hx : Kept q x := ?_; ?_; rotate_left; clear_value x; rotate_right; unfold x)
    | (extract_lets +onlyGivenNames x; clear_value x)

theorem State.retire_kept (s : State) (a1 : Nat) (h : Kept q s) : Kept q (State.retire s a1) := by
  unfold State.retire
  repeat' first
    | (with_reducible first | assumption | apply State.updCore_kept | refine State.cycleWork_kept_eq ?_ (by assumption) | apply State.cycleWork_kept | apply State.countRunning_kept | apply State.coreFault_kept)
    | split
    | (extract_lets +onlyGivenNames x; refine have hx : Kept q x := ?_; ?_; rotate_left; clear_value x; rotate_right; unfold x)
    | (extract_lets +onlyGivenNames x; clear_value x)

theorem State.slotStep_kept (s : State) (a1 : Nat) (a2 : Nat) (a3 : Nat) (a4 : (State → State)) (h : Kept q s) (ha4 : ∀ x0, Kept q x0 → Kept q (a4 x0)) : Kept q (State.slotStep s a1 a2 a3 a4) := by
  unfold State.slotStep
  repeat' first
    | (with_reducible first | assumption | apply ha4 | apply State.readyBundle_kept | apply State.retire_kept | apply State.updCore_kept)
    | split
    | (extract_lets +onlyGivenNames x; refine have hx : Kept q x := ?_; ?_; rotate_left; clear_value x; rotate_right; unfold x)
    | (extract_lets +onlyGivenNames x; clear_value x)

theorem execNop_kept (a0 : Nat) (a1 : Nat) (s : State) (h : Kept q s) : KeptAnswer q (execNop a0 a1 s) := by
  unfold execNop
  repeat' first
    | (with_reducible first | assumption | apply State.slotStep_kept | apply State.updCore_kept)
    | (simp -zeta only [↓kept_mk, ↓keptAnswer_next])
    | split
    | intro _

theorem execSeta_kept (a0 : Nat) (s : State) (h : Kept q s) : KeptAnswer q (execSeta a0 s) := by
  unfold execSeta
  repeat' first
    | (with_reducible first | assumption | apply State.slotStep_kept | apply State.updCore_kept)
    | (simp -zeta only [↓kept_mk, ↓keptAnswer_next])
    | intro _

theorem execAdda_kept (a0 : Nat) (s : State) (h : Kept q s) : KeptAnswer q (execAdda a0 s) := by
  unfold execAdda
  repeat' first
    | (with_reducible first | assumption | apply State.slotStep_kept | apply State.updCore_kept)
    | (simp -zeta only [↓kept_mk, ↓keptAnswer_next])
    | intro _

theorem execSetl_kept (a0 : Nat) (s : State) (h : Kept q s) : KeptAnswer q (execSetl a0 s) := by
  unfold execSetl
  repeat' first
    | (with_reducible first | assumption | apply State.slotStep_kept | apply State.updCore_kept)
    | (simp -zeta only [↓kept_mk, ↓keptAnswer_next])
    | intro _

theorem execLoop_kept (a0 : Nat) (s : State) (h : Kept q s) : KeptAnswer q (execLoop a0 s) := by
  unfold execLoop
  repeat' first
    | (with_reducible first | assumption | apply State.slotStep_kept | apply State.updCore_kept)
    | (simp -zeta only [↓kept_mk, ↓keptAnswer_next])
    | intro _

theorem execWaitOp_kept (a0 : Nat) (s : State) (h : Kept q s) : KeptAnswer q (execWaitOp a0 s) := by
  unfold execWaitOp
  repeat' first
    | (with_reducible first | assumption | apply State.slotStep_kept | apply State.updCore_kept)
    | (simp -zeta only [↓kept_mk, ↓keptAnswer_next])
    | intro _

/-! ### Machine/Slots -/

theorem execPass_kept (a0 : Nat) (s : State) (h : Kept q s) : KeptAnswer q (execPass a0 s) := by
  unfold execPass
  repeat' first
    | (with_reducible first | assumption | apply State.slotStep_kept | apply State.updCore_kept)
    | (simp -zeta only [↓kept_mk, ↓keptAnswer_next])
    | intro _

theorem execStrike_kept (a0 : Nat) (s : State) (h : Kept q s) : KeptAnswer q (execStrike a0 s) := by
  unfold execStrike
  repeat' first
    | (with_reducible first | assumption | apply State.slotStep_kept | apply State.countCore_kept | apply State.updCore_kept)
    | (simp -zeta only [↓kept_mk, ↓keptAnswer_next])
    | intro _

theorem State.readSlice_kept (s : State) (a1 : Nat) (a2 : DmaFlight) (h : Kept q s) : KeptFst q (State.readSlice s a1 a2) := by
  unfold State.readSlice
  repeat' first
    | (with_reducible first | assumption | refine State.readUnit_kept_eq ?_ (by assumption) | apply State.readUnit_kept | apply State.countCore_kept | apply foldl_keptFst)
    | (simp -zeta only [↓kept_mk, ↓keptFst_mk])
    | split
    | intro _

theorem State.readSlice_kept_eq {s : State} {a1 : Nat} {a2 : DmaFlight} {t : State} {y : List (List Byte) × List Nat} (k : KeptFst q (State.readSlice s a1 a2)) (e : State.readSlice s a1 a2 = (t, y)) : Kept q t := k.eq e

theorem State.issueDma_kept (s : State) (a1 : Nat) (h : Kept q s) : Kept q (State.issueDma s a1) := by
  unfold State.issueDma
  repeat' first
    | (with_reducible first | assumption | apply State.setCore_kept | apply State.readSlice_kept | apply State.countConv_kept | apply State.calCore_kept | apply State.updCore_kept | apply KeptFst.fst)
    | split
    | (extract_lets +onlyGivenNames x; clear_value x)

theorem execDma_kept (a0 : Nat) (s : State) (h : Kept q s) : KeptAnswer q (execDma a0 s) := by
  unfold execDma
  repeat' first
    | (with_reducible first | assumption | apply State.slotStep_kept | apply State.issueDma_kept)
    | (simp -zeta only [↓kept_mk, ↓keptAnswer_next])
    | intro _

theorem execRefresh_kept (a0 : Nat) (s : State) (h : Kept q s) : KeptAnswer q (execRefresh a0 s) := by
  unfold execRefresh
  repeat' first
    | (with_reducible first | assumption | apply State.slotStep_kept | apply State.countCore_kept | apply State.updCore_kept)
    | (simp -zeta only [↓kept_mk, ↓keptAnswer_next])
    | intro _

theorem execDoor_kept (a0 : Nat) (s : State) (h : Kept q s) : KeptAnswer q (execDoor a0 s) := by
  unfold execDoor
  repeat' first
    | (with_reducible first | assumption | apply State.slotStep_kept | apply State.updCore_kept)
    | (simp -zeta only [↓kept_mk, ↓keptAnswer_next])
    | intro _

theorem State.issueSend_kept (s : State) (a1 : Nat) (h : Kept q s) : Kept q (State.issueSend s a1) := by
  unfold State.issueSend
  repeat' first
    | (with_reducible first | assumption | apply State.setCore_kept | apply State.perturbed_kept | apply State.updCore_kept | apply KeptFst.fst)
    | split
    | (extract_lets +onlyGivenNames x; clear_value x)

theorem execSend_kept (a0 : Nat) (s : State) (h : Kept q s) : KeptAnswer q (execSend a0 s) := by
  unfold execSend
  repeat' first
    | (with_reducible first | assumption | apply State.slotStep_kept | apply State.issueSend_kept)
    | (simp -zeta only [↓kept_mk, ↓keptAnswer_next])
    | intro _

theorem execRecv_kept (a0 : Nat) (s : State) (h : Kept q s) : KeptAnswer q (execRecv a0 s) := by
  unfold execRecv
  repeat' first
    | (with_reducible first | assumption | apply State.slotStep_kept | apply State.updCore_kept)
    | (simp -zeta only [↓kept_mk, ↓keptAnswer_next])
    | intro _

theorem execCall_kept (a0 : Nat) (s : State) (h : Kept q s) : KeptAnswer q (execCall a0 s) := by
  unfold execCall
  repeat' first
    | (with_reducible first | assumption | apply State.slotStep_kept | apply State.updCore_kept)
    | (simp -zeta only [↓kept_mk, ↓keptAnswer_next])
    | intro _

theorem State.scrubUnit_kept (s : State) (a1 : Space) (a2 : Nat) (a3 : (State → State)) (h : Kept q s) (ha3 : ∀ x0, Kept q x0 → Kept q (a3 x0)) : Kept q (State.scrubUnit s a1 a2 a3) := by
  unfold State.scrubUnit
  repeat' first
    | (with_reducible first | assumption | refine State.readUnit_kept_eq ?_ (by assumption) | apply State.readUnit_kept | apply State.writeUnit_kept | apply State.countChip_kept)
    | split

theorem State.scrubSlice_kept (s : State) (a1 : Nat) (h : Kept q s) : Kept q (State.scrubSlice s a1) := by
  unfold State.scrubSlice
  repeat' first
    | (with_reducible first | assumption | apply State.scrubUnit_kept | apply State.countCore_kept | apply State.updCore_kept | apply foldl_kept)
    | intro _

theorem State.runToLanding_kept (s : State) (core limit fuel : Nat) (h : Kept q s) : ∀ t, s.runToLanding core limit fuel = some t → Kept q t := by
  induction fuel generalizing s with
  | zero => intro t e; cases e
  | succ n ih =>
    intro t e
    unfold State.runToLanding at e
    dsimp only at e
    split at e
    · cases e; exact h
    · split at e
      · cases e
      · split at e
        · cases e; exact State.closeCycle_kept _ _ (State.openCycle_kept _ _ h)
        · exact ih _ (State.closeCycle_kept _ _ (State.openCycle_kept _ _ h)) t e

theorem execPassGroupLanding_kept (core : Nat) (s : State) (h : Kept q s) : KeptAnswer q (execPassGroupLanding core s) := by
  unfold execPassGroupLanding
  rw [keptAnswer_next]
  dsimp only
  split
  · exact h
  · cases e : s.runToLanding core (s.cycleLimit core) (s.cycleLimit core - (s.core core).cycle) with
    | none => exact h
    | some t => exact State.runToLanding_kept _ _ _ _ h t e

theorem execRefreshMissed_kept (a0 : Nat) (s : State) (h : Kept q s) : KeptAnswer q (execRefreshMissed a0 s) := by
  unfold execRefreshMissed
  repeat' first
    | (with_reducible first | assumption | apply State.openCycle_kept | apply State.advance_kept)
    | (simp -zeta only [↓kept_mk, ↓keptAnswer_next])
    | split
    | (extract_lets +onlyGivenNames x; clear_value x)

theorem execLateDelivery_kept (a0 : Nat) (s : State) (h : Kept q s) : KeptAnswer q (execLateDelivery a0 s) := by
  unfold execLateDelivery
  repeat' first
    | (with_reducible first | assumption | apply State.setTaint_kept | apply State.countCore_kept | apply State.updCompany_kept | apply State.updCore_kept | apply State.coreFault_kept)
    | (simp -zeta only [↓kept_mk, ↓keptAnswer_next])
    | split
    | (extract_lets +onlyGivenNames x; clear_value x)

theorem execStreetUnitArrival_kept (a0 : Nat) (a1 : Nat) (s : State) (h : Kept q s) : KeptAnswer q (execStreetUnitArrival a0 a1 s) := by
  unfold execStreetUnitArrival
  repeat' first
    | (with_reducible first | assumption | apply State.updCore_kept | apply State.coreFault_kept)
    | (simp -zeta only [↓kept_mk, ↓keptAnswer_next])
    | (with_reducible refine Kept.fields ?_)
    | split
    | (extract_lets +onlyGivenNames x; refine have hx : Kept q x := ?_; ?_; rotate_left; clear_value x; rotate_right; unfold x)

theorem execHandshakeWaitEnd_kept (a0 : Nat) (a1 : Nat) (s : State) (h : Kept q s) : KeptAnswer q (execHandshakeWaitEnd a0 a1 s) := by
  unfold execHandshakeWaitEnd
  repeat' first
    | (with_reducible first | assumption | apply State.updCore_kept | apply State.setTaint_kept | apply State.countCore_kept | apply State.updCompany_kept)
    | (simp -zeta only [↓kept_mk, ↓keptAnswer_next])
    | split

theorem execForcedRefresh_kept (a0 : Nat) (s : State) (h : Kept q s) : KeptAnswer q (execForcedRefresh a0 s) := by
  unfold execForcedRefresh
  repeat' first
    | (with_reducible first | assumption | apply State.updCore_kept | apply State.updCompany_kept | apply State.setTaint_kept | apply State.countCore_kept)
    | (simp -zeta only [↓kept_mk, ↓keptAnswer_next])
    | split
    | (extract_lets +onlyGivenNames x; clear_value x)

theorem execAutomaticRefresh_kept (a0 : Nat) (s : State) (h : Kept q s) : KeptAnswer q (execAutomaticRefresh a0 s) := by
  unfold execAutomaticRefresh
  repeat' first
    | (with_reducible first | assumption | apply State.updCore_kept | apply State.scrubSlice_kept)
    | (simp -zeta only [↓kept_mk, ↓keptAnswer_next])
    | split
    | (extract_lets +onlyGivenNames x; clear_value x)

theorem execStopNotice_kept (a0 : Nat) (s : State) (h : Kept q s) : KeptAnswer q (execStopNotice a0 s) := by
  unfold execStopNotice
  repeat' first
    | (with_reducible first | assumption | apply State.updCore_kept)
    | (simp -zeta only [↓kept_mk, ↓keptAnswer_next])
    | split
    | (extract_lets +onlyGivenNames x; clear_value x)

end Sys2Proof.Machine
end

