-- ==== Sys2Proof/Laws/KeptHost.lean ====
section
/-! SUPPORT. What keeps the bounds of a state, its fuses and its queue (`Kept`): the host port and the commands to the device. -/
set_option linter.all false
namespace Sys2Proof.Machine
variable {q : Unchanged}

/-! ### Machine/HostPort -/

theorem State.setChannel_kept (s : State) (a1 : Nat) (a2 : Channel) (h : Kept q s) : Kept q (State.setChannel s a1 a2) := by
  unfold State.setChannel
  repeat' first | with_reducible assumption | (simp -zeta only [↓kept_mk]) | (with_reducible refine Kept.fields ?_)

theorem State.updChannel_kept (s : State) (a1 : Nat) (a2 : (Channel → Channel)) (h : Kept q s) : Kept q (State.updChannel s a1 a2) := by
  unfold State.updChannel
  repeat' (with_reducible first | assumption | apply State.setChannel_kept)

theorem State.countUnbackedRead_kept (s : State) (a1 : Nat) (h : Kept q s) : Kept q (State.countUnbackedRead s a1) := by
  unfold State.countUnbackedRead
  repeat' (with_reducible first | assumption | apply State.countChip_kept | apply State.updChannel_kept)

theorem State.countUnbackedWrite_kept (s : State) (a1 : Nat) (h : Kept q s) : Kept q (State.countUnbackedWrite s a1) := by
  unfold State.countUnbackedWrite
  repeat' (with_reducible first | assumption | apply State.countChip_kept | apply State.updChannel_kept)

theorem State.countRefreshSeen_kept (s : State) (a1 : Nat) (h : Kept q s) : Kept q (State.countRefreshSeen s a1) := by
  unfold State.countRefreshSeen
  repeat' (with_reducible first | assumption | apply State.countChip_kept | apply State.updChannel_kept)

theorem State.countIdleHint_kept (s : State) (a1 : Nat) (h : Kept q s) : Kept q (State.countIdleHint s a1) := by
  unfold State.countIdleHint
  repeat' (with_reducible first | assumption | apply State.countChip_kept | apply State.updChannel_kept)

theorem State.countProtocolError_kept (s : State) (a1 : Nat) (h : Kept q s) : Kept q (State.countProtocolError s a1) := by
  unfold State.countProtocolError
  repeat' (with_reducible first | assumption | apply State.countChip_kept | apply State.updChannel_kept)

theorem State.ringDoorbell_kept (s : State) (r : Nat) (v : Word) (h : Kept q s) : Kept q (s.ringDoorbell r v) := by
  have hr := h.bounded.rings r
  unfold State.ringDoorbell
  dsimp only
  repeat' split
  · exact h
  · exact State.setRing_kept _ _ _ h ⟨hr.taken, hr.queue⟩
  · exact State.setRing_kept _ _ _ h ⟨hr.taken, hr.queue⟩
  · exact State.setRing_kept _ _ _ h ⟨hr.taken, hr.queue⟩
  · exact State.postDevice_kept _ _ _ (State.setRing_kept _ _ _ h ⟨hr.taken, hr.queue⟩)

theorem State.ringConsume_kept (s : State) (r : Nat) (v : Word) (h : Kept q s) : Kept q (s.ringConsume r v) := by
  have hr := h.bounded.rings r
  unfold State.ringConsume
  dsimp only
  repeat' split
  · exact h
  · exact State.setRing_kept _ _ _ h ⟨hr.taken, hr.queue⟩
  · exact State.setRing_kept _ _ _ h ⟨hr.taken, hr.queue⟩

theorem State.clearCounter_kept (s : State) (a1 : Nat) (a2 : Nat) (h : Kept q s) : Kept q (State.clearCounter s a1 a2) := by
  unfold State.clearCounter
  repeat' first | (with_reducible first | assumption | apply State.updChannel_kept) | split

theorem State.hostRead_kept (s : State) (a1 : Nat) (a2 : Nat) (a3 : Nat) (a4 : Nat) (a5 : Bool) (h : Kept q s) : Kept q (State.hostRead s a1 a2 a3 a4 a5) := by
  unfold State.hostRead
  repeat' first
    | (with_reducible first | assumption | apply State.countProtocolError_kept | apply State.updChannel_kept | apply State.countUnbackedRead_kept | apply State.countChip_kept | apply State.fatalFault_kept)
    | split

theorem State.settleWord_kept (s : State) (a1 : Nat) (a2 : Nat) (h : Kept q s) : Kept q (State.settleWord s a1 a2) := by
  unfold State.settleWord
  repeat' first
    | (with_reducible first | assumption | apply State.setUpset_kept | apply State.countChip_kept)
    | split
    | (extract_lets +onlyGivenNames x; clear_value x)

theorem State.settleControl_kept (s : State) (a1 : Nat) (a2 : Nat) (h : Kept q s) : Kept q (State.settleControl s a1 a2) := by
  unfold State.settleControl
  repeat' first
    | (with_reducible first | assumption | apply State.sramRenew_kept | apply State.countChip_kept)
    | split
    | (extract_lets +onlyGivenNames x; clear_value x)

theorem State.writeControl_kept (s : State) (a1 : List (Nat × Byte)) (h : Kept q s) : Kept q (State.writeControl s a1) := by
  unfold State.writeControl
  repeat' first
    | (with_reducible first | assumption | apply State.ringDoorbell_kept | apply State.ringConsume_kept | apply State.clearCounter_kept | apply State.settleControl_kept | apply foldl_kept)
    | (simp -zeta only [↓kept_mk])
    | (with_reducible refine Kept.fields ?_)
    | split
    | intro _

theorem State.hostWrite_kept (s : State) (a1 : Nat) (a2 : Nat) (a3 : Nat) (a4 : Nat) (a5 : List Byte) (a6 : List Bool) (a7 : Bool) (h : Kept q s) : Kept q (State.hostWrite s a1 a2 a3 a4 a5 a6 a7) := by
  unfold State.hostWrite
  repeat' first
    | (with_reducible first | assumption | apply State.countProtocolError_kept | apply State.settleWord_kept | apply State.writeControl_kept | apply State.countUnbackedWrite_kept | refine Kept.fieldsMem ?_ (Memory.wf_write _ _ _ (Kept.bounded (q := q) ?_).mem) | apply foldl_kept)
    | (simp -zeta only [↓kept_mk])
    | split
    | intro _
    | (extract_lets +onlyGivenNames x; clear_value x)

theorem execActivate1_kept (a0 : Nat) (a1 : Nat) (a2 : Nat) (s : State) (h : Kept q s) : KeptAnswer q (execActivate1 a0 a1 a2 s) := by
  unfold execActivate1
  repeat' first | (with_reducible first | assumption | apply State.updChannel_kept) | (simp -zeta only [↓kept_mk, ↓keptAnswer_next]) | split

theorem execActivate2_kept (a0 : Nat) (a1 : Nat) (a2 : Nat) (s : State) (h : Kept q s) : KeptAnswer q (execActivate2 a0 a1 a2 s) := by
  unfold execActivate2
  repeat' first
    | (with_reducible first | assumption | apply State.updChannel_kept | apply State.countProtocolError_kept)
    | (simp -zeta only [↓kept_mk, ↓keptAnswer_next])
    | split
    | (extract_lets +onlyGivenNames x; clear_value x)

theorem execPrecharge_kept (a0 : Nat) (a1 : Nat) (s : State) (h : Kept q s) : KeptAnswer q (execPrecharge a0 a1 s) := by
  unfold execPrecharge
  repeat' first | (with_reducible first | assumption | apply State.updChannel_kept) | (simp -zeta only [↓kept_mk, ↓keptAnswer_next]) | split

theorem execPrechargeAll_kept (a0 : Nat) (s : State) (h : Kept q s) : KeptAnswer q (execPrechargeAll a0 s) := by
  unfold execPrechargeAll
  repeat' first | (with_reducible first | assumption | apply State.updChannel_kept) | (simp -zeta only [↓kept_mk, ↓keptAnswer_next]) | split

theorem execRead16_kept (a0 : Nat) (a1 : Nat) (a2 : Nat) (a3 : Bool) (s : State) (h : Kept q s) : KeptAnswer q (execRead16 a0 a1 a2 a3 s) := by
  unfold execRead16
  repeat' first | (with_reducible first | assumption | apply State.hostRead_kept) | (simp -zeta only [↓kept_mk, ↓keptAnswer_next])

theorem execRead32_kept (a0 : Nat) (a1 : Nat) (a2 : Nat) (a3 : Bool) (s : State) (h : Kept q s) : KeptAnswer q (execRead32 a0 a1 a2 a3 s) := by
  unfold execRead32
  repeat' first | (with_reducible first | assumption | apply State.hostRead_kept) | (simp -zeta only [↓kept_mk, ↓keptAnswer_next])

theorem execWrite16_kept (a0 : Nat) (a1 : Nat) (a2 : Nat) (a3 : List Byte) (a4 : Bool) (s : State) (h : Kept q s) : KeptAnswer q (execWrite16 a0 a1 a2 a3 a4 s) := by
  unfold execWrite16
  repeat' first | (with_reducible first | assumption | apply State.hostWrite_kept) | (simp -zeta only [↓kept_mk, ↓keptAnswer_next])

theorem execWrite32_kept (a0 : Nat) (a1 : Nat) (a2 : Nat) (a3 : List Byte) (a4 : Bool) (s : State) (h : Kept q s) : KeptAnswer q (execWrite32 a0 a1 a2 a3 a4 s) := by
  unfold execWrite32
  repeat' first | (with_reducible first | assumption | apply State.hostWrite_kept) | (simp -zeta only [↓kept_mk, ↓keptAnswer_next])

theorem execMaskedWrite_kept (a0 : Nat) (a1 : Nat) (a2 : Nat) (a3 : List Byte) (a4 : List Bool) (a5 : Bool) (s : State) (h : Kept q s) : KeptAnswer q (execMaskedWrite a0 a1 a2 a3 a4 a5 s) := by
  unfold execMaskedWrite
  repeat' first | (with_reducible first | assumption | apply State.hostWrite_kept) | (simp -zeta only [↓kept_mk, ↓keptAnswer_next])

theorem execModeRegisterWrite_kept (a0 : Nat) (a1 : Nat) (a2 : Byte) (s : State) (h : Kept q s) : KeptAnswer q (execModeRegisterWrite a0 a1 a2 s) := by
  unfold execModeRegisterWrite
  repeat' first | (with_reducible first | assumption | apply State.updChannel_kept) | (simp -zeta only [↓kept_mk, ↓keptAnswer_next]) | split

theorem execModeRegisterRead_kept (a0 : Nat) (a1 : Nat) (s : State) (h : Kept q s) : KeptAnswer q (execModeRegisterRead a0 a1 s) := by
  unfold execModeRegisterRead
  repeat' first | (with_reducible first | assumption | apply State.updChannel_kept) | (simp -zeta only [↓kept_mk, ↓keptAnswer_next]) | split

theorem execCas_kept (a0 : Nat) (a1 : Nat) (s : State) (h : Kept q s) : KeptAnswer q (execCas a0 a1 s) := by
  unfold execCas
  repeat' first
    | (with_reducible first | assumption | apply State.countProtocolError_kept | apply State.updChannel_kept)
    | (simp -zeta only [↓kept_mk, ↓keptAnswer_next])
    | split

theorem execMultiPurposeCommand_kept (a0 : Nat) (a1 : Nat) (a2 : Byte) (s : State) (h : Kept q s) : KeptAnswer q (execMultiPurposeCommand a0 a1 a2 s) := by
  unfold execMultiPurposeCommand
  repeat' first
    | (with_reducible first | assumption | apply State.countProtocolError_kept | apply State.updChannel_kept)
    | (simp -zeta only [↓kept_mk, ↓keptAnswer_next])
    | split

theorem execWriteFifo_kept (a0 : Nat) (a1 : List Byte) (s : State) (h : Kept q s) : KeptAnswer q (execWriteFifo a0 a1 s) := by
  unfold execWriteFifo
  repeat' first | (with_reducible first | assumption | apply State.updChannel_kept) | (simp -zeta only [↓kept_mk, ↓keptAnswer_next]) | split

theorem execReadFifo_kept (a0 : Nat) (s : State) (h : Kept q s) : KeptAnswer q (execReadFifo a0 s) := by
  unfold execReadFifo
  repeat' first | (with_reducible first | assumption | apply State.updChannel_kept) | (simp -zeta only [↓kept_mk, ↓keptAnswer_next]) | split

theorem execReadDqCalibration_kept (a0 : Nat) (s : State) (h : Kept q s) : KeptAnswer q (execReadDqCalibration a0 s) := by
  unfold execReadDqCalibration
  repeat' first | (with_reducible first | assumption | apply State.updChannel_kept) | (simp -zeta only [↓kept_mk, ↓keptAnswer_next]) | split

theorem execRefreshAllBank_kept (a0 : Nat) (s : State) (h : Kept q s) : KeptAnswer q (execRefreshAllBank a0 s) := by
  unfold execRefreshAllBank
  repeat' first | (with_reducible first | assumption | apply State.countRefreshSeen_kept) | (simp -zeta only [↓kept_mk, ↓keptAnswer_next]) | split

theorem execRefreshPerBank_kept (a0 : Nat) (a1 : Nat) (s : State) (h : Kept q s) : KeptAnswer q (execRefreshPerBank a0 a1 s) := by
  unfold execRefreshPerBank
  repeat' first | (with_reducible first | assumption | apply State.countRefreshSeen_kept) | (simp -zeta only [↓kept_mk, ↓keptAnswer_next]) | split

theorem execRefreshManagement_kept (a0 : Nat) (s : State) (h : Kept q s) : KeptAnswer q (execRefreshManagement a0 s) := by
  unfold execRefreshManagement
  repeat' first | (with_reducible first | assumption | apply State.countRefreshSeen_kept) | (simp -zeta only [↓kept_mk, ↓keptAnswer_next]) | split

theorem State.beginHint_kept (s : State) (a1 : Nat) (a2 : Nat) (h : Kept q s) : Kept q (State.beginHint s a1 a2) := by
  unfold State.beginHint
  repeat' first | (with_reducible first | assumption | apply State.countIdleHint_kept | apply State.updChannel_kept) | split

theorem State.endHint_kept (s : State) (a1 : Nat) (a2 : Nat) (h : Kept q s) : Kept q (State.endHint s a1 a2) := by
  unfold State.endHint
  repeat' first | (with_reducible first | assumption | apply State.updChannel_kept) | split

theorem execSelfRefreshEntry_kept (a0 : Nat) (s : State) (h : Kept q s) : KeptAnswer q (execSelfRefreshEntry a0 s) := by
  unfold execSelfRefreshEntry
  repeat' first | (with_reducible first | assumption | apply State.beginHint_kept) | (simp -zeta only [↓kept_mk, ↓keptAnswer_next])

theorem execSelfRefreshExit_kept (a0 : Nat) (s : State) (h : Kept q s) : KeptAnswer q (execSelfRefreshExit a0 s) := by
  unfold execSelfRefreshExit
  repeat' first | (with_reducible first | assumption | apply State.endHint_kept) | (simp -zeta only [↓kept_mk, ↓keptAnswer_next])

theorem execPowerDownEntry_kept (a0 : Nat) (s : State) (h : Kept q s) : KeptAnswer q (execPowerDownEntry a0 s) := by
  unfold execPowerDownEntry
  repeat' first | (with_reducible first | assumption | apply State.beginHint_kept) | (simp -zeta only [↓kept_mk, ↓keptAnswer_next])

theorem execPowerDownExit_kept (a0 : Nat) (s : State) (h : Kept q s) : KeptAnswer q (execPowerDownExit a0 s) := by
  unfold execPowerDownExit
  repeat' first | (with_reducible first | assumption | apply State.endHint_kept) | (simp -zeta only [↓kept_mk, ↓keptAnswer_next])

theorem execDeepSleepEntry_kept (a0 : Nat) (s : State) (h : Kept q s) : KeptAnswer q (execDeepSleepEntry a0 s) := by
  unfold execDeepSleepEntry
  repeat' first | (with_reducible first | assumption | apply State.beginHint_kept) | (simp -zeta only [↓kept_mk, ↓keptAnswer_next])

theorem execDeepSleepExit_kept (a0 : Nat) (s : State) (h : Kept q s) : KeptAnswer q (execDeepSleepExit a0 s) := by
  unfold execDeepSleepExit
  repeat' first | (with_reducible first | assumption | apply State.endHint_kept) | (simp -zeta only [↓kept_mk, ↓keptAnswer_next])

theorem execDeselect_kept (a0 : Nat) (s : State) (h : Kept q s) : KeptAnswer q (execDeselect a0 s) := by
  unfold execDeselect
  repeat' first | with_reducible assumption | (simp -zeta only [↓kept_mk, ↓keptAnswer_next])

theorem State.resetChannels_kept (s : State) (h : Kept q s) : Kept q (State.resetChannels s) := by
  unfold State.resetChannels
  repeat' first | (with_reducible first | assumption | apply State.updChannel_kept | apply foldl_kept) | intro _

theorem execHostResetN_kept (a0 : Bool) (s : State) (h : Kept q s) : KeptAnswer q (execHostResetN a0 s) := by
  unfold execHostResetN
  repeat' first
    | (with_reducible first | assumption | apply State.resetChannels_kept)
    | (simp -zeta only [↓kept_mk, ↓keptAnswer_next])
    | (with_reducible refine Kept.fields ?_)
    | split
    | (extract_lets +onlyGivenNames x; refine have hx : Kept q x := ?_; ?_; rotate_left; clear_value x; rotate_right; unfold x)

theorem execChannelInitialised_kept (a0 : Nat) (s : State) (h : Kept q s) : KeptAnswer q (execChannelInitialised a0 s) := by
  unfold execChannelInitialised
  repeat' first | (with_reducible first | assumption | apply State.updChannel_kept) | (simp -zeta only [↓kept_mk, ↓keptAnswer_next]) | split

theorem execDoorbell_kept (a0 : Nat) (a1 : Word) (s : State) (h : Kept q s) : KeptAnswer q (execDoorbell a0 a1 s) := by
  unfold execDoorbell
  repeat' first | (with_reducible first | assumption | apply State.ringDoorbell_kept) | (simp -zeta only [↓kept_mk, ↓keptAnswer_next]) | split

theorem execCplHeadWrite_kept (a0 : Nat) (a1 : Word) (s : State) (h : Kept q s) : KeptAnswer q (execCplHeadWrite a0 a1 s) := by
  unfold execCplHeadWrite
  repeat' first | (with_reducible first | assumption | apply State.ringConsume_kept) | (simp -zeta only [↓kept_mk, ↓keptAnswer_next]) | split

theorem execCounterClear_kept (a0 : Nat) (a1 : Nat) (s : State) (h : Kept q s) : KeptAnswer q (execCounterClear a0 a1 s) := by
  unfold execCounterClear
  repeat' first | (with_reducible first | assumption | apply State.clearCounter_kept) | (simp -zeta only [↓kept_mk, ↓keptAnswer_next]) | split

theorem execRegisterWrite_kept (a0 : Nat) (a1 : BitVec 64) (s : State) (h : Kept q s) : KeptAnswer q (execRegisterWrite a0 a1 s) := by
  unfold execRegisterWrite
  repeat' first
    | (with_reducible first | assumption | apply State.writeControl_kept | apply State.countUnbackedWrite_kept)
    | (simp -zeta only [↓kept_mk, ↓keptAnswer_next])
    | split
    | (extract_lets +onlyGivenNames x; clear_value x)

theorem execRecordPost_kept (ring : Nat) (s : State) (h : Kept q s) : KeptAnswer q (execRecordPost ring s) := by
  have hr := h.bounded.rings ring
  unfold execRecordPost
  rw [keptAnswer_next]
  split
  · exact h
  · split
    · exact State.writeRecord_kept _ _ _ (State.setRing_kept _ _ _ h ⟨hr.taken, hr.queue⟩)
    · split
      · exact h
      · rename_i e
        exact State.writeRecord_kept _ _ _ (State.setRing_kept _ _ _ h
          ⟨hr.taken, Nat.le_trans (by rw [e]; exact Nat.le_succ _) hr.queue⟩)

/-! ### Machine/Rings -/

theorem State.accept_kept (s : State) (r : Nat) (h : Kept q s) : Kept q (s.accept r) :=
  State.dismiss_kept _ _ (State.updRing_kept _ _ _ h fun _ hk => ⟨by simpa using hk.taken, hk.queue⟩)

theorem State.serve_kept (s : State) (ring : Nat) (t : Sheet) (mine : Nat → Bool) (h : Kept q s) (ht : t.Keeps q) :
    Kept q (s.serve ring t mine) := by
  unfold State.serve
  split
  · exact h
  · dsimp only
    split
    · exact h
    · split
      · exact State.complete_kept _ _ _ _ _ _ _ _ _ h
      · rename_i hc
        have hv := ht s ring _ h hc
        split
        · rename_i e; rw [e] at hv; exact State.complete_kept _ _ _ _ _ _ _ _ _ hv
        · exact State.complete_kept _ _ _ _ _ _ _ _ _ h
        · rename_i e; rw [e] at hv; exact State.accept_kept _ _ hv
        · rename_i e; rw [e] at hv; exact hv

theorem State.putReport_kept (s : State) (a1 : Nat) (a2 : List Byte) (h : Kept q s) : Kept q (State.putReport s a1 a2) := by
  unfold State.putReport
  repeat' (with_reducible first | assumption | apply State.renewFoyer_kept | apply State.putBytes_kept)

theorem execCommandTake_kept (ring : Nat) (s : State) (h : Kept q s) : KeptAnswer q (execCommandTake ring s) := by
  unfold execCommandTake
  rw [keptAnswer_next]
  dsimp only
  split
  · exact h
  · rename_i hc
    have hl : (s.ring ring).taken.length < 64 := by simp only [Bool.or_eq_true, decide_eq_true_eq, not_or] at hc; omega
    unfold State.managerWorks
    split
    · exact State.fatalFault_kept _ _ _ h
    · rename_i n _
      have k := State.countChip_kept s 0x14 none n h
      have ht := s.countChip_taken 0x14 ring n none
      refine State.dismiss_kept _ _ (State.setRing_kept _ _ _ k ⟨?_, (k.bounded.rings ring).queue⟩)
      rw [List.length_append, List.length_singleton, ht]; exact hl

/-! ### Machine/DeviceCmds -/

theorem helloSheet_kept   : (helloSheet).Keeps q := by
  intro s r w h hk
  unfold helloSheet 
  dsimp -zeta only
  repeat' first
    | with_reducible assumption
    | (simp -zeta only [↓kept_mk, ↓keptVerdict_done, ↓keptVerdict_failed, ↓keptVerdict_accepted, ↓keptVerdict_ended])

theorem execHello_kept (a0 : Nat) (s : State) (h : Kept q s) : KeptAnswer q (execHello a0 s) := by
  unfold execHello
  repeat' first
    | (with_reducible first | assumption | apply State.serve_kept | apply helloSheet_kept)
    | (simp -zeta only [↓kept_mk, ↓keptAnswer_next])

theorem setInterfaceSheet_kept   : (setInterfaceSheet).Keeps q := by
  intro s r w h hk
  unfold setInterfaceSheet 
  dsimp -zeta only
  repeat' first
    | with_reducible assumption
    | (simp -zeta only [↓kept_mk, ↓keptVerdict_done, ↓keptVerdict_failed, ↓keptVerdict_accepted, ↓keptVerdict_ended])
    | (with_reducible refine Kept.fields ?_)

theorem execSetInterface_kept (a0 : Nat) (s : State) (h : Kept q s) : KeptAnswer q (execSetInterface a0 s) := by
  unfold execSetInterface
  repeat' first
    | (with_reducible first | assumption | apply State.serve_kept | apply setInterfaceSheet_kept)
    | (simp -zeta only [↓kept_mk, ↓keptAnswer_next])

theorem queryDeviceSheet_kept   : (queryDeviceSheet).Keeps q := by
  intro s r w h hk
  unfold queryDeviceSheet 
  dsimp -zeta only
  repeat' first
    | (with_reducible first | assumption | apply State.putReport_kept | apply foldl_kept)
    | (simp -zeta only [↓kept_mk, ↓keptVerdict_done, ↓keptVerdict_failed, ↓keptVerdict_accepted, ↓keptVerdict_ended])
    | intro _
    | (extract_lets +onlyGivenNames x; clear_value x)

theorem execQueryDevice_kept (a0 : Nat) (s : State) (h : Kept q s) : KeptAnswer q (execQueryDevice a0 s) := by
  unfold execQueryDevice
  repeat' first
    | (with_reducible first | assumption | apply State.serve_kept | apply queryDeviceSheet_kept)
    | (simp -zeta only [↓kept_mk, ↓keptAnswer_next])

theorem readFaultSheet_kept   : (readFaultSheet).Keeps q := by
  intro s r w h hk
  unfold readFaultSheet 
  dsimp -zeta only
  repeat' first
    | with_reducible assumption
    | (simp -zeta only [↓kept_mk, ↓keptVerdict_done, ↓keptVerdict_failed, ↓keptVerdict_accepted, ↓keptVerdict_ended])

theorem execReadFault_kept (a0 : Nat) (s : State) (h : Kept q s) : KeptAnswer q (execReadFault a0 s) := by
  unfold execReadFault
  repeat' first
    | (with_reducible first | assumption | apply State.serve_kept | apply readFaultSheet_kept)
    | (simp -zeta only [↓kept_mk, ↓keptAnswer_next])

theorem setHouseBudgetSheet_kept : setHouseBudgetSheet.Keeps q := by
  intro s r w h hk
  have hp := (firstFail_none _).mp (State.checkCommand_pre hk)
  have h1 := (need_none _ _ _).mp (hp _ (List.mem_cons_self ..))
  have h2 := (need_none _ _ _).mp (hp _ (List.mem_cons_of_mem _ (List.mem_cons_self ..)))
  have h3 := (need_none _ _ _).mp (hp _ (List.mem_cons_of_mem _ (List.mem_cons_of_mem _ (List.mem_cons_self ..))))
  simp only [Bool.and_eq_true, decide_eq_true_eq] at h1 h2 h3
  exact ⟨{ h.bounded with sustained := h1, peak := h2, ramp := h3 }, h.same⟩

theorem execSetHouseBudget_kept (a0 : Nat) (s : State) (h : Kept q s) : KeptAnswer q (execSetHouseBudget a0 s) := by
  unfold execSetHouseBudget
  repeat' first
    | (with_reducible first | assumption | apply State.serve_kept | apply setHouseBudgetSheet_kept)
    | (simp -zeta only [↓kept_mk, ↓keptAnswer_next])

theorem State.applyConfig_kept (s : State) (a1 : Nat) (a2 : QueuedConfig) (h : Kept q s) : Kept q (State.applyConfig s a1 a2) := by
  unfold State.applyConfig
  repeat' first
    | (with_reducible first | assumption | apply State.updCore_kept)
    | (simp -zeta only [↓kept_mk])
    | (with_reducible refine Kept.fields ?_)
    | split

theorem State.applyConfigs_kept (s : State) (a1 : Nat) (h : Kept q s) : Kept q (State.applyConfigs s a1) := by
  unfold State.applyConfigs
  repeat' first | (with_reducible first | assumption | apply State.updCore_kept | apply State.applyConfig_kept | apply foldl_kept) | intro _

theorem eventConfigSheet_kept   : (eventConfigSheet).Keeps q := by
  intro s r w h hk
  unfold eventConfigSheet 
  dsimp -zeta only
  repeat' first
    | (with_reducible first | assumption | apply State.updCompany_kept | apply State.updCore_kept | apply State.applyConfig_kept)
    | (simp -zeta only [↓kept_mk, ↓keptVerdict_done, ↓keptVerdict_failed, ↓keptVerdict_accepted, ↓keptVerdict_ended])
    | (with_reducible refine Kept.fields ?_)
    | split
    | (extract_lets +onlyGivenNames x; clear_value x)

theorem execEventConfig_kept (a0 : Nat) (s : State) (h : Kept q s) : KeptAnswer q (execEventConfig a0 s) := by
  unfold execEventConfig
  repeat' first
    | (with_reducible first | assumption | apply State.serve_kept | apply eventConfigSheet_kept)
    | (simp -zeta only [↓kept_mk, ↓keptAnswer_next])

theorem State.clearEvent_kept (s : State) (a1 : Nat) (a2 : Nat) (a3 : Nat) (h : Kept q s) : Kept q (State.clearEvent s a1 a2 a3) := by
  unfold State.clearEvent
  repeat' first
    | (with_reducible first | assumption | apply State.updCore_kept)
    | (simp -zeta only [↓kept_mk])
    | (with_reducible refine Kept.fields ?_)
    | split
    | (extract_lets +onlyGivenNames x; clear_value x)

theorem eventReadSheet_kept   : (eventReadSheet).Keeps q := by
  intro s r w h hk
  unfold eventReadSheet 
  dsimp -zeta only
  repeat' first
    | (with_reducible first | assumption | apply State.putReport_kept | apply State.clearEvent_kept | apply foldl_kept)
    | (simp -zeta only [↓kept_mk, ↓keptVerdict_done, ↓keptVerdict_failed, ↓keptVerdict_accepted, ↓keptVerdict_ended])
    | split
    | intro _
    | (extract_lets +onlyGivenNames x; refine have hx : Kept q x := ?_; ?_; rotate_left; clear_value x; rotate_right; unfold x)
    | (extract_lets +onlyGivenNames x; clear_value x)

theorem execEventRead_kept (a0 : Nat) (s : State) (h : Kept q s) : KeptAnswer q (execEventRead a0 s) := by
  unfold execEventRead
  repeat' first
    | (with_reducible first | assumption | apply State.serve_kept | apply eventReadSheet_kept)
    | (simp -zeta only [↓kept_mk, ↓keptAnswer_next])

theorem debugReadQuireSheet_kept   : (debugReadQuireSheet).Keeps q := by
  intro s r w h hk
  unfold debugReadQuireSheet 
  dsimp -zeta only
  repeat' first
    | (with_reducible first | assumption | apply State.putReport_kept)
    | (simp -zeta only [↓kept_mk, ↓keptVerdict_done, ↓keptVerdict_failed, ↓keptVerdict_accepted, ↓keptVerdict_ended])
    | (extract_lets +onlyGivenNames x; clear_value x)

theorem execDebugReadQuire_kept (a0 : Nat) (s : State) (h : Kept q s) : KeptAnswer q (execDebugReadQuire a0 s) := by
  unfold execDebugReadQuire
  repeat' first
    | (with_reducible first | assumption | apply State.serve_kept | apply debugReadQuireSheet_kept)
    | (simp -zeta only [↓kept_mk, ↓keptAnswer_next])

theorem testPerturbSheet_kept   : (testPerturbSheet).Keeps q := by
  intro s r w h hk
  unfold testPerturbSheet 
  dsimp -zeta only
  repeat' first
    | with_reducible assumption
    | (simp -zeta only [↓kept_mk, ↓keptVerdict_done, ↓keptVerdict_failed, ↓keptVerdict_accepted, ↓keptVerdict_ended])
    | (with_reducible refine Kept.fields ?_)
    | (extract_lets +onlyGivenNames x; clear_value x)

theorem execTestPerturb_kept (a0 : Nat) (s : State) (h : Kept q s) : KeptAnswer q (execTestPerturb a0 s) := by
  unfold execTestPerturb
  repeat' first
    | (with_reducible first | assumption | apply State.serve_kept | apply testPerturbSheet_kept)
    | (simp -zeta only [↓kept_mk, ↓keptAnswer_next])

end Sys2Proof.Machine
end

