-- ==== Sys2Proof/Laws/KeptCompany.lean ====
section
/-! SUPPORT. What keeps the bounds of a state, its fuses and its queue (`Kept`): companies, their curtains and what is loaded into them. -/
set_option linter.all false
namespace Sys2Proof.Machine
variable {q : Unchanged}

/-! ### Machine/Budget -/

theorem State.addWaves_kept (s : State) (a1 : Nat) (a2 : Nat) (a3 : Nat) (a4 : Nat) (a5 : Nat) (a6 : Bool) (h : Kept q s) : Kept q (State.addWaves s a1 a2 a3 a4 a5 a6) := by
  unfold State.addWaves
  repeat' first | (with_reducible first | assumption | apply State.updCompany_kept) | split

theorem State.chargeBallast_kept (s : State) (a1 : Nat) (a2 : Nat) (a3 : Nat) (a4 : Nat) (h : Kept q s) : Kept q (State.chargeBallast s a1 a2 a3 a4) := by
  unfold State.chargeBallast
  repeat' (with_reducible first | assumption | apply State.updCompany_kept | apply State.countChip_kept)

theorem State.holdBallast_kept (s : State) (a1 : Nat) (a2 : Nat) (a3 : Nat) (h : Kept q s) : Kept q (State.holdBallast s a1 a2 a3) := by
  unfold State.holdBallast
  repeat' (with_reducible first | assumption | apply State.updCompany_kept | apply State.chargeBallast_kept)

theorem State.curtainEnergy_kept (s : State) (a1 : Nat) (a2 : Nat) (h : Kept q s) : Kept q (State.curtainEnergy s a1 a2) := by
  unfold State.curtainEnergy
  repeat' first
    | (with_reducible first | assumption | apply State.chargeBallast_kept | apply State.updCompany_kept | apply State.holdBallast_kept)
    | split
    | (extract_lets +onlyGivenNames x; clear_value x)

theorem State.startTaper_kept (s : State) (a1 : Nat) (a2 : Nat) (a3 : Bool) (h : Kept q s) : Kept q (State.startTaper s a1 a2 a3) := by
  unfold State.startTaper
  repeat' (with_reducible first | assumption | apply State.addWaves_kept | apply State.chargeBallast_kept | apply State.updCompany_kept)

theorem State.enterRunning_kept (s : State) (a1 : Nat) (a2 : Figures) (h : Kept q s) : Kept q (State.enterRunning s a1 a2) := by
  unfold State.enterRunning
  repeat' first | with_reducible assumption | (simp -zeta only [↓kept_mk]) | (with_reducible refine Kept.fields ?_)

theorem State.leaveRunning_kept (s : State) (a1 : Nat) (h : Kept q s) : Kept q (State.leaveRunning s a1) := by
  unfold State.leaveRunning
  repeat' first | with_reducible assumption | (simp -zeta only [↓kept_mk]) | (with_reducible refine Kept.fields ?_)

theorem State.promptOthers_kept (s : State) (a1 : Nat) (h : Kept q s) : Kept q (State.promptOthers s a1) := by
  unfold State.promptOthers
  repeat' first | with_reducible assumption | (simp -zeta only [↓kept_mk]) | (with_reducible refine Kept.fields ?_)

theorem State.postPower_kept (s : State) (a1 : Nat) (a2 : Nat) (a3 : Nat) (h : Kept q s) : Kept q (State.postPower s a1 a2 a3) := by
  unfold State.postPower
  repeat' (with_reducible first | assumption | apply State.postDevice_kept)

/-! ### Machine/Curtain -/

theorem State.endPair_kept (s : State) (a1 : Nat) (a2 : Bool) (h : Kept q s) : Kept q (State.endPair s a1 a2) := by
  unfold State.endPair
  repeat' first | (with_reducible first | assumption | apply State.updCompany_kept | apply State.message_kept) | split

theorem State.dropStreets_kept (s : State) (a1 : Nat) (h : Kept q s) : Kept q (State.dropStreets s a1) := by
  unfold State.dropStreets
  repeat' first
    | with_reducible assumption
    | (simp -zeta only [↓kept_mk])
    | (with_reducible refine Kept.fields ?_)
    | (extract_lets +onlyGivenNames x; clear_value x)

theorem State.haltCarriages_kept (s : State) (a1 : Nat) (h : Kept q s) : Kept q (State.haltCarriages s a1) := by
  unfold State.haltCarriages
  repeat' first | (with_reducible first | assumption | apply State.endCarriage_kept | apply foldl_kept) | intro _

theorem State.completeAll_kept (s : State) (a1 : Nat) (a2 : List Waiting) (a3 : Nat) (h : Kept q s) : Kept q (State.completeAll s a1 a2 a3) := by
  unfold State.completeAll
  repeat' first | (with_reducible first | assumption | apply State.completeWaiting_kept | apply foldl_kept) | intro _

theorem State.postPairStop_kept (s : State) (a1 : Nat) (a2 : Option (Nat × Nat)) (h : Kept q s) : Kept q (State.postPairStop s a1 a2) := by
  unfold State.postPairStop
  repeat' first | (with_reducible first | assumption | apply State.postDeviceFor_kept) | split

theorem State.finishStop_kept (s : State) (a1 : Nat) (a2 : Bool) (h : Kept q s) : Kept q (State.finishStop s a1 a2) := by
  unfold State.finishStop
  repeat' first
    | (with_reducible first | assumption | apply State.curtainEnergy_kept | apply State.updCores_kept | apply State.updCompany_kept | apply State.dropStreets_kept | apply State.haltCarriages_kept | apply State.abortCompanyJobs_kept | apply State.completeWaiting_kept | apply State.startTaper_kept | apply State.completeAll_kept | apply State.endPair_kept | apply State.postPairStop_kept | apply State.postCompany_kept)
    | split
    | (extract_lets +onlyGivenNames x; clear_value x)

theorem State.compareSignatures_kept (s : State) (a1 : Nat) (h : Kept q s) : Kept q (State.compareSignatures s a1) := by
  unfold State.compareSignatures
  repeat' first
    | (with_reducible first | assumption | apply State.updCompany_kept | apply State.postDeviceFor_kept | apply State.abortCompanyJobs_kept | apply State.finishStop_kept)
    | split
    | (extract_lets +onlyGivenNames x; refine have hx : Kept q x := ?_; ?_; rotate_left; clear_value x; rotate_right; unfold x)
    | (extract_lets +onlyGivenNames x; clear_value x)

theorem State.delayCurtain_kept (s : State) (a1 : Nat) (h : Kept q s) : Kept q (State.delayCurtain s a1) := by
  unfold State.delayCurtain
  repeat' first
    | (with_reducible first | assumption | refine State.perturbed_kept_eq ?_ (by assumption) | apply State.perturbed_kept | apply State.updCompany_kept | apply State.setTaint_kept)
    | split

theorem State.scriptEnd_kept (s : State) (a1 : Nat) (h : Kept q s) : Kept q (State.scriptEnd s a1) := by
  unfold State.scriptEnd
  repeat' first
    | (with_reducible first | assumption | apply State.updCores_kept | apply State.startTaper_kept | apply State.postPairStop_kept | apply State.completeAll_kept | apply State.updCompany_kept)

theorem State.barrier_kept (s : State) (a1 : Nat) (h : Kept q s) : Kept q (State.barrier s a1) := by
  unfold State.barrier
  repeat' first
    | (with_reducible first | assumption | apply State.postCompany_kept | apply State.updCompany_kept | apply State.message_kept | apply State.promptOthers_kept | apply State.scriptEnd_kept | apply State.delayCurtain_kept | apply State.setTaint_kept | apply State.compareSignatures_kept)
    | split

theorem execActEndCheck_kept (a0 : Nat) (s : State) (h : Kept q s) : KeptAnswer q (execActEndCheck a0 s) := by
  unfold execActEndCheck
  repeat' first
    | (with_reducible first | assumption | apply State.advance_kept | apply State.overrun_kept | apply State.updCore_kept | apply State.barrier_kept)
    | (simp -zeta only [↓kept_mk, ↓keptAnswer_next])
    | split
    | (extract_lets +onlyGivenNames x; refine have hx : Kept q x := ?_; ?_; rotate_left; clear_value x; rotate_right; unfold x)
    | (extract_lets +onlyGivenNames x; clear_value x)

theorem State.cutCues_kept (s : State) (a1 : Nat) (h : Kept q s) : Kept q (State.cutCues s a1) := by
  unfold State.cutCues
  repeat' first | (with_reducible first | assumption | apply State.updCompany_kept | apply State.updCores_kept) | split

theorem execActChoice_kept (a0 : Nat) (s : State) (h : Kept q s) : KeptAnswer q (execActChoice a0 s) := by
  unfold execActChoice
  repeat' first
    | (with_reducible first | assumption | apply State.finishStop_kept | apply State.updCompany_kept | apply State.cutCues_kept)
    | (simp -zeta only [↓kept_mk, ↓keptAnswer_next])
    | split
    | (extract_lets +onlyGivenNames x; clear_value x)

theorem execCurtainHeld_kept (a0 : Nat) (s : State) (h : Kept q s) : KeptAnswer q (execCurtainHeld a0 s) := by
  unfold execCurtainHeld
  repeat' first
    | (with_reducible first | assumption | apply State.postCompany_kept | apply State.updCompany_kept)
    | (simp -zeta only [↓kept_mk, ↓keptAnswer_next])
    | split
    | (extract_lets +onlyGivenNames x; clear_value x)

theorem State.grantAct_kept (s : State) (a1 : Nat) (a2 : Nat) (h : Kept q s) : Kept q (State.grantAct s a1 a2) := by
  unfold State.grantAct
  repeat' first
    | (with_reducible first | assumption | apply State.holdBallast_kept | apply State.addWaves_kept | apply State.enterRunning_kept | apply State.updCompany_kept)

theorem State.refuse_kept (s : State) (a1 : Nat) (a2 : Nat) (h : Kept q s) : Kept q (State.refuse s a1 a2) := by
  unfold State.refuse
  repeat' first
    | (with_reducible first | assumption | apply State.updCompany_kept | apply State.postDeviceFor_kept)
    | split
    | (extract_lets +onlyGivenNames x; clear_value x)

theorem execAdmission_kept (a0 : Nat) (s : State) (h : Kept q s) : KeptAnswer q (execAdmission a0 s) := by
  unfold execAdmission
  repeat' first
    | (with_reducible first | assumption | apply State.grantAct_kept | apply State.refuse_kept)
    | (simp -zeta only [↓kept_mk, ↓keptAnswer_next])
    | split
    | (extract_lets +onlyGivenNames x; clear_value x)

theorem execAdmissionReevaluation_kept (a0 : Nat) (s : State) (h : Kept q s) : KeptAnswer q (execAdmissionReevaluation a0 s) := by
  unfold execAdmissionReevaluation
  repeat' first
    | (with_reducible first | assumption | apply State.updCompany_kept)
    | (simp -zeta only [↓kept_mk, ↓keptAnswer_next])
    | split
    | (extract_lets +onlyGivenNames x; clear_value x)

theorem execBallastHoldExpiry_kept (a0 : Nat) (s : State) (h : Kept q s) : KeptAnswer q (execBallastHoldExpiry a0 s) := by
  unfold execBallastHoldExpiry
  repeat' first
    | (with_reducible first | assumption | apply State.startTaper_kept | apply State.holdBallast_kept)
    | (simp -zeta only [↓kept_mk, ↓keptAnswer_next])
    | split
    | (extract_lets +onlyGivenNames x; clear_value x)

theorem execBallastTaperEnd_kept (a0 : Nat) (s : State) (h : Kept q s) : KeptAnswer q (execBallastTaperEnd a0 s) := by
  unfold execBallastTaperEnd
  repeat' first
    | (with_reducible first | assumption | apply State.updCompany_kept | apply State.leaveRunning_kept | apply State.promptOthers_kept)
    | (simp -zeta only [↓kept_mk, ↓keptAnswer_next])
    | split
    | (extract_lets +onlyGivenNames x; clear_value x)

theorem State.readBlock_kept (s : State) (a1 : Nat) (a2 : Nat) (a3 : Nat) (h : Kept q s) : KeptFst q (State.readBlock s a1 a2 a3) := by
  unfold State.readBlock
  repeat' first
    | (with_reducible first | assumption | refine State.readUnit_kept_eq ?_ (by assumption) | apply State.readUnit_kept | apply State.countCore_kept | apply foldl_keptFst)
    | (simp -zeta only [↓kept_mk, ↓keptFst_mk])
    | split
    | intro _

theorem State.readBlock_kept_eq {s : State} {a1 : Nat} {a2 : Nat} {a3 : Nat} {t : State} {y : List Byte × Option Nat} (k : KeptFst q (State.readBlock s a1 a2 a3)) (e : State.readBlock s a1 a2 a3 = (t, y)) : Kept q t := k.eq e

theorem State.loadBank_kept (s : State) (a1 : Nat) (a2 : Nat) (a3 : Nat) (h : Kept q s) : KeptFst q (State.loadBank s a1 a2 a3) := by
  unfold State.loadBank
  repeat' first
    | (with_reducible first | assumption | apply State.readBlock_kept | apply KeptFst.fst)
    | (simp -zeta only [↓kept_mk, ↓keptFst_mk])
    | (extract_lets +onlyGivenNames x; clear_value x)

theorem State.loadBank_kept_eq {s : State} {a1 : Nat} {a2 : Nat} {a3 : Nat} {t : State} {y : CodeBank} (k : KeptFst q (State.loadBank s a1 a2 a3)) (e : State.loadBank s a1 a2 a3 = (t, y)) : Kept q t := k.eq e

theorem State.codeFor_kept (s : State) (a1 : Nat) (a2 : Nat) (a3 : Nat) (h : Kept q s) : KeptFst q (State.codeFor s a1 a2 a3) := by
  unfold State.codeFor
  repeat' first | (with_reducible first | assumption | apply State.loadBank_kept) | (simp -zeta only [↓kept_mk, ↓keptFst_mk]) | split

theorem State.codeFor_kept_eq {s : State} {a1 : Nat} {a2 : Nat} {a3 : Nat} {t : State} {y : CodeBank} (k : KeptFst q (State.codeFor s a1 a2 a3)) (e : State.codeFor s a1 a2 a3 = (t, y)) : Kept q t := k.eq e

theorem State.prefetch_kept (s : State) (a1 : Nat) (a2 : Nat) (a3 : Nat) (h : Kept q s) : Kept q (State.prefetch s a1 a2 a3) := by
  unfold State.prefetch
  repeat' first
    | (with_reducible first | assumption | refine State.loadBank_kept_eq ?_ (by assumption) | apply State.loadBank_kept | apply State.updCore_kept)
    | split
    | (extract_lets +onlyGivenNames x; clear_value x)

theorem State.startCore_kept (s : State) (a1 : Nat) (a2 : Nat) (a3 : Nat) (h : Kept q s) : Kept q (State.startCore s a1 a2 a3) := by
  unfold State.startCore
  repeat' first
    | (with_reducible first | assumption | refine State.codeFor_kept_eq ?_ (by assumption) | apply State.codeFor_kept | apply State.prefetch_kept | apply State.updCore_kept | apply State.coreFault_kept)
    | split
    | (extract_lets +onlyGivenNames x; refine have hx : Kept q x := ?_; ?_; rotate_left; clear_value x; rotate_right; unfold x)

theorem State.raiseCurtain_kept (s : State) (a1 : Nat) (a2 : Nat) (a3 : Nat) (a4 : Nat) (h : Kept q s) : Kept q (State.raiseCurtain s a1 a2 a3 a4) := by
  unfold State.raiseCurtain
  repeat' first
    | (with_reducible first | assumption | apply State.curtainEnergy_kept | apply State.updCores_kept | apply State.applyConfigs_kept | apply State.updCompany_kept | apply State.completeWaiting_kept | apply State.barrier_kept | apply State.startCore_kept | apply foldl_kept)
    | split
    | intro _
    | (extract_lets +onlyGivenNames x; clear_value x)

theorem execCurtainUp_kept (a0 : Nat) (s : State) (h : Kept q s) : KeptAnswer q (execCurtainUp a0 s) := by
  unfold execCurtainUp
  repeat' first | (with_reducible first | assumption | apply State.raiseCurtain_kept) | (simp -zeta only [↓kept_mk, ↓keptAnswer_next]) | split

theorem execCompanyHalted_kept (a0 : Nat) (s : State) (h : Kept q s) : KeptAnswer q (execCompanyHalted a0 s) := by
  unfold execCompanyHalted
  repeat' first | (with_reducible first | assumption | apply State.finishStop_kept) | (simp -zeta only [↓kept_mk, ↓keptAnswer_next]) | split

theorem execSignatureExchange_kept (a0 : Nat) (a1 : List (BitVec 64)) (s : State) (h : Kept q s) : KeptAnswer q (execSignatureExchange a0 a1 s) := by
  unfold execSignatureExchange
  repeat' first
    | (with_reducible first | assumption | apply State.compareSignatures_kept | apply State.updCompany_kept)
    | (simp -zeta only [↓kept_mk, ↓keptAnswer_next])
    | split

theorem State.losePair_kept (s : State) (a1 : Nat) (a2 : Nat) (h : Kept q s) : Kept q (State.losePair s a1 a2) := by
  unfold State.losePair
  repeat' first
    | (with_reducible first | assumption | apply State.endPair_kept | apply State.postPairStop_kept | apply State.updCompany_kept)
    | split
    | (extract_lets +onlyGivenNames x; refine have hx : Kept q x := ?_; ?_; rotate_left; clear_value x; rotate_right; unfold x)

theorem execUnderstudyPartnerStopped_kept (a0 : Nat) (s : State) (h : Kept q s) : KeptAnswer q (execUnderstudyPartnerStopped a0 s) := by
  unfold execUnderstudyPartnerStopped
  repeat' first | (with_reducible first | assumption | apply State.losePair_kept) | (simp -zeta only [↓kept_mk, ↓keptAnswer_next])

/-! ### Machine/Companies -/

theorem State.measureCompany_kept (s : State) (a1 : Nat) (a2 : List Byte) (h : Kept q s) : Kept q (State.measureCompany s a1 a2) := by
  unfold State.measureCompany
  repeat' (with_reducible first | assumption | apply State.updCompany_kept)

theorem State.measureDevice_kept (s : State) (a1 : List Byte) (h : Kept q s) : Kept q (State.measureDevice s a1) := by
  unfold State.measureDevice
  repeat' first | with_reducible assumption | (simp -zeta only [↓kept_mk]) | (with_reducible refine Kept.fields ?_)

theorem State.clearStores_kept (s : State) (mine : Nat → Bool) (tables : Bool) (h : Kept q s) : Kept q (s.clearStores mine tables) :=
  State.sramRenew_kept _ _ ((h.memory _ (SMap.canon_filter _ _ _ h.bounded.mem)).like rfl rfl rfl rfl rfl rfl rfl rfl rfl rfl)

theorem State.mapCores_kept (s : State) (a1 : (Nat → Bool)) (a2 : (Core → Core)) (h : Kept q s) : Kept q (State.mapCores s a1 a2) := by
  unfold State.mapCores
  repeat' first | (with_reducible first | assumption | apply State.setCore_kept | apply foldl_kept) | intro _

theorem State.clearDistricts_kept (s : State) (a1 : (Nat → Bool)) (h : Kept q s) : Kept q (State.clearDistricts s a1) := by
  unfold State.clearDistricts
  repeat' first | with_reducible assumption | (simp -zeta only [↓kept_mk]) | (with_reducible refine Kept.fields ?_)

theorem State.formCompany_kept (s : State) (c mask avenues : Nat) (h : Kept q s) : Kept q (s.formCompany c mask avenues) :=
  State.setRing_kept _ _ _ (State.setCompany_kept _ _ _ (State.clearDistricts_kept _ _ (State.mapCores_kept _ _ _ (State.clearStores_kept _ _ _ h))))
    ⟨Nat.zero_le _, Nat.zero_le _⟩

theorem State.disbandCompany_kept (s : State) (c : Nat) (h : Kept q s) : Kept q (s.disbandCompany c) :=
  State.updRing_kept _ _ _ (State.updCompany_kept _ _ _ (State.endPair_kept _ _ _ h)) fun k hk => (⟨hk.taken, hk.queue⟩ : Ring.Bounded { k with state := .unformed })

theorem formCompanySheet_kept   : (formCompanySheet).Keeps q := by
  intro s r w h hk
  unfold formCompanySheet 
  dsimp -zeta only
  repeat' first
    | (with_reducible first | assumption | apply State.formCompany_kept)
    | (simp -zeta only [↓kept_mk, ↓keptVerdict_done, ↓keptVerdict_failed, ↓keptVerdict_accepted, ↓keptVerdict_ended])

theorem execFormCompany_kept (a0 : Nat) (s : State) (h : Kept q s) : KeptAnswer q (execFormCompany a0 s) := by
  unfold execFormCompany
  repeat' first
    | (with_reducible first | assumption | apply State.serve_kept | apply formCompanySheet_kept)
    | (simp -zeta only [↓kept_mk, ↓keptAnswer_next])

theorem disbandCompanySheet_kept   : (disbandCompanySheet).Keeps q := by
  intro s r w h hk
  unfold disbandCompanySheet 
  dsimp -zeta only
  repeat' first
    | (with_reducible first | assumption | apply State.disbandCompany_kept)
    | (simp -zeta only [↓kept_mk, ↓keptVerdict_done, ↓keptVerdict_failed, ↓keptVerdict_accepted, ↓keptVerdict_ended])

theorem execDisbandCompany_kept (a0 : Nat) (s : State) (h : Kept q s) : KeptAnswer q (execDisbandCompany a0 s) := by
  unfold execDisbandCompany
  repeat' first
    | (with_reducible first | assumption | apply State.serve_kept | apply disbandCompanySheet_kept)
    | (simp -zeta only [↓kept_mk, ↓keptAnswer_next])

theorem State.resetCompany_kept (s : State) (a1 : Nat) (h : Kept q s) : Kept q (State.resetCompany s a1) := by
  unfold State.resetCompany
  repeat' first
    | (with_reducible first | assumption | apply State.endPair_kept | apply State.finishStop_kept | apply State.clearDistricts_kept | apply State.mapCores_kept | apply State.clearStores_kept | apply State.updCompany_kept)
    | split

theorem resetCompanySheet_kept   : (resetCompanySheet).Keeps q := by
  intro s r w h hk
  unfold resetCompanySheet 
  dsimp -zeta only
  repeat' first
    | (with_reducible first | assumption | apply State.resetCompany_kept)
    | (simp -zeta only [↓kept_mk, ↓keptVerdict_done, ↓keptVerdict_failed, ↓keptVerdict_accepted, ↓keptVerdict_ended])

theorem execResetCompany_kept (a0 : Nat) (s : State) (h : Kept q s) : KeptAnswer q (execResetCompany a0 s) := by
  unfold execResetCompany
  repeat' first
    | (with_reducible first | assumption | apply State.serve_kept | apply resetCompanySheet_kept)
    | (simp -zeta only [↓kept_mk, ↓keptAnswer_next])

theorem setModeSheet_kept   : (setModeSheet).Keeps q := by
  intro s r w h hk
  unfold setModeSheet 
  dsimp -zeta only
  repeat' first
    | (with_reducible first | assumption | apply State.updCompany_kept | apply State.measureCompany_kept)
    | (simp -zeta only [↓kept_mk, ↓keptVerdict_done, ↓keptVerdict_failed, ↓keptVerdict_accepted, ↓keptVerdict_ended])
    | (extract_lets +onlyGivenNames x; refine have hx : Kept q x := ?_; ?_; rotate_left; clear_value x; rotate_right; unfold x)
    | (extract_lets +onlyGivenNames x; clear_value x)

theorem execSetMode_kept (a0 : Nat) (s : State) (h : Kept q s) : KeptAnswer q (execSetMode a0 s) := by
  unfold execSetMode
  repeat' first
    | (with_reducible first | assumption | apply State.serve_kept | apply setModeSheet_kept)
    | (simp -zeta only [↓kept_mk, ↓keptAnswer_next])

theorem State.launch_kept (s : State) (a1 : Nat) (a2 : Nat) (a3 : Word) (a4 : Nat) (a5 : Nat) (h : Kept q s) : Kept q (State.launch s a1 a2 a3 a4 a5) := by
  unfold State.launch
  repeat' (with_reducible first | assumption | apply State.updCores_kept | apply State.updCompany_kept | apply State.delayCurtain_kept)

theorem curtainUpAtSheet_kept   : (curtainUpAtSheet).Keeps q := by
  intro s r w h hk
  unfold curtainUpAtSheet 
  dsimp -zeta only
  repeat' first
    | (with_reducible first | assumption | apply State.launch_kept)
    | (simp -zeta only [↓kept_mk, ↓keptVerdict_done, ↓keptVerdict_failed, ↓keptVerdict_accepted, ↓keptVerdict_ended])
    | split

theorem execCurtainUpAt_kept (a0 : Nat) (s : State) (h : Kept q s) : KeptAnswer q (execCurtainUpAt a0 s) := by
  unfold execCurtainUpAt
  repeat' first
    | (with_reducible first | assumption | apply State.serve_kept | apply curtainUpAtSheet_kept)
    | (simp -zeta only [↓kept_mk, ↓keptAnswer_next])

theorem haltSheet_kept (a0 : (State → Nat → Nat → Verdict))  (ha0 : ∀ x0 x1 x2, Kept q x0 → KeptVerdict q (a0 x0 x1 x2)) : (haltSheet a0).Keeps q := by
  intro s r w h hk
  unfold haltSheet 
  dsimp -zeta only
  repeat' (with_reducible first | assumption | apply ha0)

theorem haltNow_kept (s : State) (a1 : Nat) (a2 : Nat) (h : Kept q s) : KeptVerdict q (haltNow s a1 a2) := by
  unfold haltNow
  repeat' first
    | (with_reducible first | assumption | apply State.finishStop_kept)
    | (simp -zeta only [↓kept_mk, ↓keptVerdict_done, ↓keptVerdict_failed, ↓keptVerdict_accepted, ↓keptVerdict_ended])
    | split

theorem haltAtCurtain_kept (s : State) (a1 : Nat) (a2 : Nat) (h : Kept q s) : KeptVerdict q (haltAtCurtain s a1 a2) := by
  unfold haltAtCurtain
  repeat' first
    | (with_reducible first | assumption | apply State.finishStop_kept | apply State.updCompany_kept)
    | (simp -zeta only [↓kept_mk, ↓keptVerdict_done, ↓keptVerdict_failed, ↓keptVerdict_accepted, ↓keptVerdict_ended])
    | split
    | (extract_lets +onlyGivenNames x; clear_value x)

theorem execImmediate_kept (a0 : Nat) (s : State) (h : Kept q s) : KeptAnswer q (execImmediate a0 s) := by
  unfold execImmediate
  repeat' first
    | (with_reducible first | assumption | apply State.serve_kept | apply haltSheet_kept | apply haltNow_kept)
    | (simp -zeta only [↓kept_mk, ↓keptAnswer_next])

theorem execAtCurtain_kept (a0 : Nat) (s : State) (h : Kept q s) : KeptAnswer q (execAtCurtain a0 s) := by
  unfold execAtCurtain
  repeat' first
    | (with_reducible first | assumption | apply State.serve_kept | apply haltSheet_kept | apply haltAtCurtain_kept)
    | (simp -zeta only [↓kept_mk, ↓keptAnswer_next])

theorem understudyPairSheet_kept   : (understudyPairSheet).Keeps q := by
  intro s r w h hk
  unfold understudyPairSheet 
  dsimp -zeta only
  repeat' first
    | (with_reducible first | assumption | apply State.updCompany_kept | apply State.message_kept)
    | (simp -zeta only [↓kept_mk, ↓keptVerdict_done, ↓keptVerdict_failed, ↓keptVerdict_accepted, ↓keptVerdict_ended])
    | (extract_lets +onlyGivenNames x; refine have hx : Kept q x := ?_; ?_; rotate_left; clear_value x; rotate_right; unfold x)
    | (extract_lets +onlyGivenNames x; clear_value x)

theorem execUnderstudyPair_kept (a0 : Nat) (s : State) (h : Kept q s) : KeptAnswer q (execUnderstudyPair a0 s) := by
  unfold execUnderstudyPair
  repeat' first
    | (with_reducible first | assumption | apply State.serve_kept | apply understudyPairSheet_kept)
    | (simp -zeta only [↓kept_mk, ↓keptAnswer_next])

theorem State.endPairWait_kept (s : State) (a1 : Nat) (a2 : PairWait) (a3 : Nat) (h : Kept q s) : Kept q (State.endPairWait s a1 a2 a3) := by
  unfold State.endPairWait
  repeat' (with_reducible first | assumption | apply State.complete_kept | apply State.updCompany_kept)

theorem execUnderstudyPairTimeout_kept (a0 : Nat) (s : State) (h : Kept q s) : KeptAnswer q (execUnderstudyPairTimeout a0 s) := by
  unfold execUnderstudyPairTimeout
  repeat' first | (with_reducible first | assumption | apply State.endPairWait_kept) | (simp -zeta only [↓kept_mk, ↓keptAnswer_next]) | split

theorem execUnderstudyPairExchange_kept (a0 : Nat) (a1 : Nat) (a2 : Nat) (a3 : Nat) (a4 : List (BitVec 384)) (a5 : BitVec 384) (a6 : Word) (a7 : Bool) (a8 : Bool) (a9 : Bool) (s : State) (h : Kept q s) : KeptAnswer q (execUnderstudyPairExchange a0 a1 a2 a3 a4 a5 a6 a7 a8 a9 s) := by
  unfold execUnderstudyPairExchange
  repeat' first
    | (with_reducible first | assumption | apply State.endPairWait_kept | apply State.updCompany_kept)
    | (simp -zeta only [↓kept_mk, ↓keptAnswer_next])
    | split
    | (extract_lets +onlyGivenNames x; clear_value x)

/-! ### Machine/CarriageCmds -/

theorem State.acceptCarriage_kept (s : State) (a1 : Bool) (a2 : Nat) (a3 : Nat) (h : Kept q s) : Kept q (State.acceptCarriage s a1 a2 a3) := by
  unfold State.acceptCarriage
  repeat' first
    | (with_reducible first | assumption | apply State.perturbed_kept | apply KeptFst.fst)
    | (simp -zeta only [↓kept_mk, ↓keptFst_mk])
    | (with_reducible refine Kept.fields ?_)
    | split
    | (extract_lets +onlyGivenNames x; clear_value x)

theorem carriageSheet_kept (a0 : Bool)  : (carriageSheet a0).Keeps q := by
  intro s r w h hk
  unfold carriageSheet 
  dsimp -zeta only
  repeat' first
    | (with_reducible first | assumption | apply State.acceptCarriage_kept)
    | (simp -zeta only [↓kept_mk, ↓keptVerdict_done, ↓keptVerdict_failed, ↓keptVerdict_accepted, ↓keptVerdict_ended])

theorem execCarriageIn_kept (a0 : Nat) (s : State) (h : Kept q s) : KeptAnswer q (execCarriageIn a0 s) := by
  unfold execCarriageIn
  repeat' first
    | (with_reducible first | assumption | apply State.serve_kept | apply carriageSheet_kept)
    | (simp -zeta only [↓kept_mk, ↓keptAnswer_next])

theorem execCarriageOut_kept (a0 : Nat) (s : State) (h : Kept q s) : KeptAnswer q (execCarriageOut a0 s) := by
  unfold execCarriageOut
  repeat' first
    | (with_reducible first | assumption | apply State.serve_kept | apply carriageSheet_kept)
    | (simp -zeta only [↓kept_mk, ↓keptAnswer_next])

/-! ### Machine/Loading -/

theorem State.putUnits_kept (s : State) (a1 : Nat) (a2 : Nat) (a3 : List Byte) (h : Kept q s) : Kept q (State.putUnits s a1 a2 a3) := by
  unfold State.putUnits
  repeat' first | (with_reducible first | assumption | apply State.writeUnit_kept | apply foldl_kept) | intro _

theorem State.placeBlocks_kept (s : State) (a1 : List Byte) (a2 : List (Nat × Nat × BlockRef)) (h : Kept q s) : Kept q (State.placeBlocks s a1 a2) := by
  unfold State.placeBlocks
  repeat' first | (with_reducible first | assumption | apply State.putUnits_kept | apply foldl_kept) | intro _

theorem State.installScript_kept (s : State) (a1 : Nat) (a2 : Nat) (a3 : List Byte) (h : Kept q s) : Kept q (State.installScript s a1 a2 a3) := by
  unfold State.installScript
  repeat' first
    | (with_reducible first | assumption | apply State.placeBlocks_kept | apply State.updCores_kept | apply State.measureCompany_kept | apply State.updCompany_kept)

theorem loadScriptSheet_kept   : (loadScriptSheet).Keeps q := by
  intro s r w h hk
  unfold loadScriptSheet 
  dsimp -zeta only
  repeat' first
    | (with_reducible first | assumption | apply State.installScript_kept)
    | (simp -zeta only [↓kept_mk, ↓keptVerdict_done, ↓keptVerdict_failed, ↓keptVerdict_accepted, ↓keptVerdict_ended])
    | (extract_lets +onlyGivenNames x; clear_value x)

theorem execLoadScript_kept (a0 : Nat) (s : State) (h : Kept q s) : KeptAnswer q (execLoadScript a0 s) := by
  unfold execLoadScript
  repeat' first
    | (with_reducible first | assumption | apply State.serve_kept | apply loadScriptSheet_kept)
    | (simp -zeta only [↓kept_mk, ↓keptAnswer_next])

theorem loadTablesSheet_kept   : (loadTablesSheet).Keeps q := by
  intro s r w h hk
  unfold loadTablesSheet 
  dsimp -zeta only
  repeat' first
    | (with_reducible first | assumption | apply State.updCores_kept | apply State.measureCompany_kept | apply foldl_kept)
    | (simp -zeta only [↓kept_mk, ↓keptVerdict_done, ↓keptVerdict_failed, ↓keptVerdict_accepted, ↓keptVerdict_ended])
    | intro _
    | (extract_lets +onlyGivenNames x; refine have hx : Kept q x := ?_; ?_; rotate_left; clear_value x; rotate_right; unfold x)
    | (extract_lets +onlyGivenNames x; clear_value x)

theorem execLoadTables_kept (a0 : Nat) (s : State) (h : Kept q s) : KeptAnswer q (execLoadTables a0 s) := by
  unfold execLoadTables
  repeat' first
    | (with_reducible first | assumption | apply State.serve_kept | apply loadTablesSheet_kept)
    | (simp -zeta only [↓kept_mk, ↓keptAnswer_next])

theorem loadMicroSheet_kept (a0 : Bool) (a1 : (State → Nat → Nat → Check)) (a2 : (State → Nat → Nat → Verdict))  (ha2 : ∀ x0 x1 x2, Kept q x0 → KeptVerdict q (a2 x0 x1 x2)) : (loadMicroSheet a0 a1 a2).Keeps q := by
  intro s r w h hk
  unfold loadMicroSheet 
  dsimp -zeta only
  repeat' (with_reducible first | assumption | apply ha2)

theorem loadMicroCoresSheet_kept   : (loadMicroCoresSheet).Keeps q := by
  intro s r w h hk
  unfold loadMicroCoresSheet loadMicroSheet
  dsimp -zeta only
  repeat' first
    | (with_reducible first | assumption | apply State.updCores_kept | apply State.measureCompany_kept)
    | (simp -zeta only [↓kept_mk, ↓keptVerdict_done, ↓keptVerdict_failed, ↓keptVerdict_accepted, ↓keptVerdict_ended])
    | (extract_lets +onlyGivenNames x; refine have hx : Kept q x := ?_; ?_; rotate_left; clear_value x; rotate_right; unfold x)
    | (extract_lets +onlyGivenNames x; clear_value x)

theorem execLoadMicroprogramCores_kept (a0 : Nat) (s : State) (h : Kept q s) : KeptAnswer q (execLoadMicroprogramCores a0 s) := by
  unfold execLoadMicroprogramCores
  repeat' first
    | (with_reducible first | assumption | apply State.serve_kept | apply loadMicroCoresSheet_kept)
    | (simp -zeta only [↓kept_mk, ↓keptAnswer_next])

theorem loadMicroEngineSheet_kept   : (loadMicroEngineSheet).Keeps q := by
  intro s r w h hk
  unfold loadMicroEngineSheet loadMicroSheet
  dsimp -zeta only
  repeat' first
    | (with_reducible first | assumption | apply State.measureDevice_kept)
    | (simp -zeta only [↓kept_mk, ↓keptVerdict_done, ↓keptVerdict_failed, ↓keptVerdict_accepted, ↓keptVerdict_ended])
    | (with_reducible refine Kept.fields ?_)
    | (extract_lets +onlyGivenNames x; refine have hx : Kept q x := ?_; ?_; rotate_left; clear_value x; rotate_right; unfold x)
    | (extract_lets +onlyGivenNames x; clear_value x)

theorem execLoadMicroprogramEngine_kept (a0 : Nat) (s : State) (h : Kept q s) : KeptAnswer q (execLoadMicroprogramEngine a0 s) := by
  unfold execLoadMicroprogramEngine
  repeat' first
    | (with_reducible first | assumption | apply State.serve_kept | apply loadMicroEngineSheet_kept)
    | (simp -zeta only [↓kept_mk, ↓keptAnswer_next])

theorem State.setCue_kept (s : State) (a1 : Nat) (h : Kept q s) : Kept q (State.setCue s a1) := by
  unfold State.setCue
  repeat' first | (with_reducible first | assumption | apply State.updCores_kept | apply State.updCompany_kept) | split

theorem setCueSheet_kept   : (setCueSheet).Keeps q := by
  intro s r w h hk
  unfold setCueSheet 
  dsimp -zeta only
  repeat' first
    | (with_reducible first | assumption | apply State.setCue_kept)
    | (simp -zeta only [↓kept_mk, ↓keptVerdict_done, ↓keptVerdict_failed, ↓keptVerdict_accepted, ↓keptVerdict_ended])

theorem execSetCue_kept (a0 : Nat) (s : State) (h : Kept q s) : KeptAnswer q (execSetCue a0 s) := by
  unfold execSetCue
  repeat' first
    | (with_reducible first | assumption | apply State.serve_kept | apply setCueSheet_kept)
    | (simp -zeta only [↓kept_mk, ↓keptAnswer_next])

end Sys2Proof.Machine
end

