-- ==== Sys2Proof/Laws/KeptFabric.lean ====
section
/-! SUPPORT. What keeps the bounds of a state, its fuses and its queue (`Kept`): links, routes and plans. -/
set_option linter.all false
namespace Sys2Proof.Machine
variable {q : Unchanged}

/-! ### Machine/Links -/

theorem State.loseSync_kept (s : State) (a1 : Nat) (h : Kept q s) : Kept q (State.loseSync s a1) := by
  unfold State.loseSync
  repeat' first
    | (with_reducible first | assumption | apply State.setTaint_kept | apply State.postDevice_kept | apply foldl_kept)
    | (simp -zeta only [↓kept_mk])
    | (with_reducible refine Kept.fields ?_)
    | split
    | intro _

theorem State.gainSync_kept (s : State) (h : Kept q s) : Kept q (State.gainSync s) := by
  unfold State.gainSync
  repeat' first
    | (with_reducible first | assumption | apply State.postDevice_kept)
    | (simp -zeta only [↓kept_mk])
    | (with_reducible refine Kept.fields ?_)

theorem State.dropPeers_kept (s : State) (a1 : Nat) (h : Kept q s) : Kept q (State.dropPeers s a1) := by
  unfold State.dropPeers
  repeat' first
    | (with_reducible first | assumption | apply State.losePair_kept | apply State.loseSync_kept | apply foldl_kept)
    | split
    | intro _
    | (extract_lets +onlyGivenNames x; refine have hx : Kept q x := ?_; ?_; rotate_left; clear_value x; rotate_right; unfold x)

theorem State.loseLink_kept (s : State) (a1 : Nat) (h : Kept q s) : Kept q (State.loseLink s a1) := by
  unfold State.loseLink
  repeat' first
    | (with_reducible first | assumption | apply State.setLink_kept | apply State.dropPeers_kept | apply State.postDevice_kept)
    | (simp -zeta only [↓kept_mk])
    | (with_reducible refine Kept.fields ?_)
    | split

theorem State.resetLink_kept (s : State) (a1 : Nat) (h : Kept q s) : Kept q (State.resetLink s a1) := by
  unfold State.resetLink
  repeat' (with_reducible first | assumption | apply State.dropPeers_kept | apply State.setLink_kept)

theorem State.loseLane_kept (s : State) (a1 : Nat) (a2 : Nat) (h : Kept q s) : Kept q (State.loseLane s a1 a2) := by
  unfold State.loseLane
  repeat' first
    | (with_reducible first | assumption | apply State.loseLink_kept | apply State.sendControl_kept | apply State.setLink_kept)
    | split
    | (extract_lets +onlyGivenNames x; clear_value x)

theorem State.spareLane_kept (s : State) (a1 : Nat) (a2 : Nat) (h : Kept q s) : Kept q (State.spareLane s a1 a2) := by
  unfold State.spareLane
  repeat' (with_reducible first | assumption | apply State.postDevice_kept | apply State.updLink_kept)

theorem State.sendFrames_kept (s : State) (a1 : Nat) (a2 : List Frame) (h : Kept q s) : Kept q (State.sendFrames s a1 a2) := by
  unfold State.sendFrames
  repeat' first | (with_reducible first | assumption | apply State.sendFrame_kept | apply foldl_kept) | intro _

theorem State.resend_kept (s : State) (a1 : Nat) (h : Kept q s) : Kept q (State.resend s a1) := by
  unfold State.resend
  repeat' first
    | (with_reducible first | assumption | apply State.loseLink_kept | apply State.setLink_kept | apply State.countChip_kept | apply State.sendFrames_kept)
    | split
    | (extract_lets +onlyGivenNames x; clear_value x)

theorem State.heedWord_kept (s : State) (a1 : Nat) (a2 : Nat) (h : Kept q s) : Kept q (State.heedWord s a1 a2) := by
  unfold State.heedWord
  repeat' first | (with_reducible first | assumption | apply State.updLink_kept | apply State.resend_kept) | split

theorem State.discardFrame_kept (s : State) (a1 : Nat) (h : Kept q s) : Kept q (State.discardFrame s a1) := by
  unfold State.discardFrame
  repeat' (with_reducible first | assumption | apply State.updLink_kept)

theorem State.received_kept (s : State) (a1 : Nat) (a2 : Nat) (a3 : (State → State)) (a4 : (State → State)) (h : Kept q s) (ha3 : ∀ x0, Kept q x0 → Kept q (a3 x0)) (ha4 : ∀ x0, Kept q x0 → Kept q (a4 x0)) : Kept q (State.received s a1 a2 a3 a4) := by
  unfold State.received
  repeat' first
    | (with_reducible first | assumption | apply ha3 | apply ha4 | apply State.updLink_kept)
    | split
    | (extract_lets +onlyGivenNames x; clear_value x)

theorem State.malformed_kept (s : State) (a1 : Nat) (a2 : Packet) (h : Kept q s) : Kept q (State.malformed s a1 a2) := by
  unfold State.malformed
  repeat' first
    | (with_reducible first | assumption | apply State.owe_kept | apply State.countChip_kept | apply State.postMalformed_kept | apply State.abortJob_kept)
    | split
    | (extract_lets +onlyGivenNames x; refine have hx : Kept q x := ?_; ?_; rotate_left; clear_value x; rotate_right; unfold x)
    | (extract_lets +onlyGivenNames x; clear_value x)

theorem State.arrive_kept (s : State) (a1 : Nat) (a2 : Packet) (h : Kept q s) : Kept q (State.arrive s a1 a2) := by
  unfold State.arrive
  repeat' first
    | (with_reducible first | assumption | apply State.malformed_kept | apply State.owe_kept | apply State.updLink_kept)
    | (simp -zeta only [↓kept_mk])
    | (with_reducible refine Kept.fields ?_)
    | split
    | (extract_lets +onlyGivenNames x; clear_value x)

theorem State.takeFrame_kept (s : State) (a1 : Nat) (a2 : Nat) (a3 : Bool) (a4 : List Byte) (h : Kept q s) : Kept q (State.takeFrame s a1 a2 a3 a4) := by
  unfold State.takeFrame
  repeat' first
    | (with_reducible first | assumption | apply State.discardFrame_kept | apply State.setLink_kept | apply State.arrive_kept)
    | split
    | (extract_lets +onlyGivenNames x; clear_value x)

theorem execIdle_kept (a0 : LinkId) (a1 : BitVec 128) (s : State) (h : Kept q s) : KeptAnswer q (execIdle a0 a1 s) := by
  unfold execIdle
  repeat' first
    | (with_reducible first | assumption | apply State.received_kept | apply State.discardFrame_kept | apply State.heedWord_kept)
    | (simp -zeta only [↓kept_mk, ↓keptAnswer_next])
    | split
    | intro _

theorem State.packetFrame_kept (s : State) (a1 : Nat) (a2 : Nat) (a3 : Nat) (a4 : List Byte) (h : Kept q s) : Kept q (State.packetFrame s a1 a2 a3 a4) := by
  unfold State.packetFrame
  repeat' first
    | (with_reducible first | assumption | apply State.received_kept | apply State.discardFrame_kept | apply State.heedWord_kept | apply State.takeFrame_kept)
    | split
    | intro _
    | (extract_lets +onlyGivenNames x; refine have hx : Kept q x := ?_; ?_; rotate_left; clear_value x; rotate_right; unfold x)

theorem execHeader_kept (a0 : LinkId) (a1 : BitVec 128) (a2 : List Byte) (s : State) (h : Kept q s) : KeptAnswer q (execHeader a0 a1 a2 s) := by
  unfold execHeader
  repeat' first | (with_reducible first | assumption | apply State.packetFrame_kept) | (simp -zeta only [↓kept_mk, ↓keptAnswer_next])

theorem execFlit_kept (a0 : LinkId) (a1 : BitVec 128) (a2 : List Byte) (s : State) (h : Kept q s) : KeptAnswer q (execFlit a0 a1 a2 s) := by
  unfold execFlit
  repeat' first | (with_reducible first | assumption | apply State.packetFrame_kept) | (simp -zeta only [↓kept_mk, ↓keptAnswer_next])

theorem State.controlFrame_kept (s : State) (a1 : Nat) (a2 : Nat) (a3 : Nat) (a4 : List Byte) (a5 : (State → Nat → State)) (h : Kept q s) (ha5 : ∀ x0 x1, Kept q x0 → Kept q (a5 x0 x1)) : Kept q (State.controlFrame s a1 a2 a3 a4 a5) := by
  unfold State.controlFrame
  repeat' first
    | (with_reducible first | assumption | apply ha5 | apply State.countChip_kept | apply State.received_kept | apply State.heedWord_kept)
    | split
    | intro _
    | (extract_lets +onlyGivenNames x; refine have hx : Kept q x := ?_; ?_; rotate_left; clear_value x; rotate_right; unfold x)

theorem execRttProbe_kept (a0 : LinkId) (a1 : BitVec 128) (a2 : List Byte) (a3 : Word) (s : State) (h : Kept q s) : KeptAnswer q (execRttProbe a0 a1 a2 a3 s) := by
  unfold execRttProbe
  repeat' first
    | (with_reducible first | assumption | apply State.controlFrame_kept | apply State.sendControl_kept)
    | (simp -zeta only [↓kept_mk, ↓keptAnswer_next])
    | intro _

theorem execRttProbeTimer_kept (a0 : LinkId) (a1 : Nat) (s : State) (h : Kept q s) : KeptAnswer q (execRttProbeTimer a0 a1 s) := by
  unfold execRttProbeTimer
  repeat' first
    | (with_reducible first | assumption | apply State.sendControl_kept | apply State.updLink_kept)
    | (simp -zeta only [↓kept_mk, ↓keptAnswer_next])
    | split

theorem execRttReply_kept (a0 : LinkId) (a1 : BitVec 128) (a2 : List Byte) (a3 : Nat) (s : State) (h : Kept q s) : KeptAnswer q (execRttReply a0 a1 a2 a3 s) := by
  unfold execRttReply
  repeat' first
    | (with_reducible first | assumption | apply State.controlFrame_kept | apply State.updLink_kept)
    | (simp -zeta only [↓kept_mk, ↓keptAnswer_next])
    | split
    | intro _
    | (extract_lets +onlyGivenNames x; clear_value x)

theorem State.takeTime_kept (s : State) (a1 : Nat) (a2 : Nat) (a3 : Nat) (h : Kept q s) : Kept q (State.takeTime s a1 a2 a3) := by
  unfold State.takeTime
  repeat' first
    | (with_reducible first | assumption | apply State.gainSync_kept | apply State.loseSync_kept)
    | (simp -zeta only [↓kept_mk])
    | (with_reducible refine Kept.fields ?_)
    | split
    | (extract_lets +onlyGivenNames x; refine have hx : Kept q x := ?_; ?_; rotate_left; clear_value x; rotate_right; unfold x)
    | (extract_lets +onlyGivenNames x; clear_value x)

theorem execTime_kept (a0 : LinkId) (a1 : BitVec 128) (a2 : List Byte) (s : State) (h : Kept q s) : KeptAnswer q (execTime a0 a1 a2 s) := by
  unfold execTime
  repeat' first
    | (with_reducible first | assumption | apply State.controlFrame_kept | apply State.takeTime_kept)
    | (simp -zeta only [↓kept_mk, ↓keptAnswer_next])
    | split
    | intro _

theorem execTimeTimer_kept (a0 : LinkId) (a1 : Nat) (s : State) (h : Kept q s) : KeptAnswer q (execTimeTimer a0 a1 s) := by
  unfold execTimeTimer
  repeat' first | (with_reducible first | assumption | apply State.sendControl_kept) | (simp -zeta only [↓kept_mk, ↓keptAnswer_next]) | split

theorem execTownSyncLost_kept (a0 : Nat) (s : State) (h : Kept q s) : KeptAnswer q (execTownSyncLost a0 s) := by
  unfold execTownSyncLost
  repeat' first | (with_reducible first | assumption | apply State.loseSync_kept) | (simp -zeta only [↓kept_mk, ↓keptAnswer_next]) | split

theorem execTownRefEdge_kept (s : State) (h : Kept q s) : KeptAnswer q (execTownRefEdge s) := by
  unfold execTownRefEdge
  repeat' first
    | (with_reducible first | assumption | apply State.gainSync_kept)
    | (simp -zeta only [↓kept_mk, ↓keptAnswer_next])
    | (with_reducible refine Kept.fields ?_)
    | split
    | (extract_lets +onlyGivenNames x; refine have hx : Kept q x := ?_; ?_; rotate_left; clear_value x; rotate_right; unfold x)
    | (extract_lets +onlyGivenNames x; clear_value x)

theorem execSpareRequest_kept (a0 : LinkId) (a1 : BitVec 128) (a2 : List Byte) (s : State) (h : Kept q s) : KeptAnswer q (execSpareRequest a0 a1 a2 s) := by
  unfold execSpareRequest
  repeat' first
    | (with_reducible first | assumption | apply State.controlFrame_kept | apply State.loseLink_kept | apply State.sendControl_kept | apply State.spareLane_kept)
    | (simp -zeta only [↓kept_mk, ↓keptAnswer_next])
    | split
    | intro _
    | (extract_lets +onlyGivenNames x; clear_value x)

theorem execSpareRequestTimer_kept (a0 : LinkId) (s : State) (h : Kept q s) : KeptAnswer q (execSpareRequestTimer a0 s) := by
  unfold execSpareRequestTimer
  repeat' first | (with_reducible first | assumption | apply State.sendControl_kept) | (simp -zeta only [↓kept_mk, ↓keptAnswer_next]) | split

theorem execSpareAck_kept (a0 : LinkId) (a1 : BitVec 128) (a2 : List Byte) (s : State) (h : Kept q s) : KeptAnswer q (execSpareAck a0 a1 a2 s) := by
  unfold execSpareAck
  repeat' first
    | (with_reducible first | assumption | apply State.controlFrame_kept | apply State.spareLane_kept)
    | (simp -zeta only [↓kept_mk, ↓keptAnswer_next])
    | split
    | intro _

theorem execLinkId_kept (a0 : LinkId) (a1 : BitVec 128) (a2 : List Byte) (s : State) (h : Kept q s) : KeptAnswer q (execLinkId a0 a1 a2 s) := by
  unfold execLinkId
  repeat' first
    | (with_reducible first | assumption | apply State.controlFrame_kept | apply State.updLink_kept)
    | (simp -zeta only [↓kept_mk, ↓keptAnswer_next])
    | intro _

theorem execLaneLoss_kept (a0 : LinkId) (a1 : Nat) (s : State) (h : Kept q s) : KeptAnswer q (execLaneLoss a0 a1 s) := by
  unfold execLaneLoss
  repeat' first | (with_reducible first | assumption | apply State.loseLane_kept) | (simp -zeta only [↓kept_mk, ↓keptAnswer_next])

theorem execLinkLost_kept (a0 : LinkId) (s : State) (h : Kept q s) : KeptAnswer q (execLinkLost a0 s) := by
  unfold execLinkLost
  repeat' first | (with_reducible first | assumption | apply State.loseLink_kept) | (simp -zeta only [↓kept_mk, ↓keptAnswer_next])

theorem execLinkUp_kept (a0 : LinkId) (s : State) (h : Kept q s) : KeptAnswer q (execLinkUp a0 s) := by
  unfold execLinkUp
  repeat' first
    | (with_reducible first | assumption | apply State.setLink_kept | apply State.sendControl_kept | apply State.postDevice_kept)
    | (simp -zeta only [↓kept_mk, ↓keptAnswer_next])
    | split
    | (extract_lets +onlyGivenNames x; clear_value x)

theorem State.injectError_kept (s : State) (a1 : Perturb) (h : Kept q s) : Kept q (State.injectError s a1) := by
  unfold State.injectError
  repeat' first
    | (with_reducible first | assumption | apply State.countChip_kept | apply State.updLink_kept | apply State.loseLane_kept | apply State.loseLink_kept)
    | split

theorem State.takeOccurrence_kept (s : State) (a1 : Nat) (h : Kept q s) : Kept q (State.takeOccurrence s a1) := by
  unfold State.takeOccurrence
  repeat' first
    | (with_reducible first | assumption | apply State.countChip_kept)
    | (simp -zeta only [↓kept_mk])
    | (with_reducible refine Kept.fields ?_)

theorem execLinkError_kept (a0 : Nat) (s : State) (h : Kept q s) : KeptAnswer q (execLinkError a0 s) := by
  unfold execLinkError
  repeat' first
    | (with_reducible first | assumption | apply State.injectError_kept | apply State.takeOccurrence_kept)
    | (simp -zeta only [↓kept_mk, ↓keptAnswer_next])
    | split
    | (extract_lets +onlyGivenNames x; clear_value x)

theorem State.updOutbox_kept (s : State) (a1 : Nat) (a2 : (Packet → Packet)) (h : Kept q s) : Kept q (State.updOutbox s a1 a2) := by
  unfold State.updOutbox
  repeat' first | with_reducible assumption | (simp -zeta only [↓kept_mk]) | (with_reducible refine Kept.fields ?_)

theorem State.leaveBy_kept (s : State) (a1 : Nat) (a2 : Packet) (a3 : Nat) (a4 : Bool) (h : Kept q s) : Kept q (State.leaveBy s a1 a2 a3 a4) := by
  unfold State.leaveBy
  repeat' first
    | (with_reducible first | assumption | apply State.updOutbox_kept | apply State.sendFrames_kept | apply State.setLink_kept | apply State.release_kept)
    | (simp -zeta only [↓kept_mk])
    | (with_reducible refine Kept.fields ?_)
    | split
    | (extract_lets +onlyGivenNames x; clear_value x)

theorem State.deliverHere_kept (s : State) (a1 : Nat) (a2 : Packet) (h : Kept q s) : Kept q (State.deliverHere s a1 a2) := by
  unfold State.deliverHere
  repeat' first
    | (with_reducible first | assumption | apply State.release_kept | apply State.updLink_kept)
    | (simp -zeta only [↓kept_mk])
    | (with_reducible refine Kept.fields ?_)
    | split

theorem execPacketForward_kept (a0 : Nat) (s : State) (h : Kept q s) : KeptAnswer q (execPacketForward a0 s) := by
  unfold execPacketForward
  repeat' first
    | (with_reducible first | assumption | apply State.countChip_kept | apply State.release_kept | apply State.deliverHere_kept | apply State.leaveBy_kept | apply State.postDevice_kept | apply State.updOutbox_kept)
    | (simp -zeta only [↓kept_mk, ↓keptAnswer_next])
    | (with_reducible refine Kept.fields ?_)
    | split
    | (extract_lets +onlyGivenNames x; clear_value x)

theorem execRouteSwap_kept (s : State) (h : Kept q s) : KeptAnswer q (execRouteSwap s) := by
  unfold execRouteSwap
  repeat' first | with_reducible assumption | (simp -zeta only [↓kept_mk, ↓keptAnswer_next]) | (with_reducible refine Kept.fields ?_) | split

theorem execCreditStarved_kept (a0 : Nat) (a1 : Nat) (a2 : Nat) (s : State) (h : Kept q s) : KeptAnswer q (execCreditStarved a0 a1 a2 s) := by
  unfold execCreditStarved
  repeat' first
    | (with_reducible first | assumption | apply State.postCompany_kept | apply State.updOutbox_kept)
    | (simp -zeta only [↓kept_mk, ↓keptAnswer_next])
    | split
    | (extract_lets +onlyGivenNames x; clear_value x)

theorem State.taintWithheld_kept (s : State) (a1 : Nat × Nat × Nat × Nat) (h : Kept q s) : Kept q (State.taintWithheld s a1) := by
  unfold State.taintWithheld
  repeat' first | (with_reducible first | assumption | apply State.setTaint_kept) | split | (extract_lets +onlyGivenNames x; clear_value x)

theorem execCreditWithhold_kept (a0 : Nat) (s : State) (h : Kept q s) : KeptAnswer q (execCreditWithhold a0 s) := by
  unfold execCreditWithhold
  repeat' first
    | (with_reducible first | assumption | apply State.taintWithheld_kept | apply State.takeOccurrence_kept)
    | (simp -zeta only [↓kept_mk, ↓keptAnswer_next])
    | (with_reducible refine Kept.fields ?_)
    | split
    | (extract_lets +onlyGivenNames x; refine have hx : Kept q x := ?_; ?_; rotate_left; clear_value x; rotate_right; unfold x)
    | (extract_lets +onlyGivenNames x; clear_value x)

theorem State.tick_kept (s : State) (h : Kept q s) : Kept q (State.tick s) := by
  unfold State.tick
  repeat' first
    | (with_reducible first | assumption | apply State.sendFrame_kept | apply State.countChip_kept | apply foldl_kept)
    | (simp -zeta only [↓kept_mk])
    | (with_reducible refine Kept.fields ?_)
    | split
    | intro _
    | (extract_lets +onlyGivenNames x; refine have hx : Kept q x := ?_; ?_; rotate_left; clear_value x; rotate_right; unfold x)
    | (extract_lets +onlyGivenNames x; clear_value x)

/-! ### Machine/FabricCmds -/

theorem State.enableLink_kept (s : State) (a1 : Nat) (a2 : Bool) (h : Kept q s) : Kept q (State.enableLink s a1 a2) := by
  unfold State.enableLink
  repeat' first
    | (with_reducible first | assumption | apply State.setLink_kept | apply State.dropPeers_kept)
    | split
    | (extract_lets +onlyGivenNames x; clear_value x)

theorem State.advertiseMore_kept (s : State) (a1 : State) (h : Kept q s) : Kept q (State.advertiseMore s a1) := by
  unfold State.advertiseMore
  repeat' first
    | (with_reducible first | assumption | apply State.updLink_kept | apply foldl_kept)
    | split
    | intro _
    | (extract_lets +onlyGivenNames x; clear_value x)

theorem State.tellId_kept (s : State) (h : Kept q s) : Kept q (State.tellId s) := by
  unfold State.tellId
  repeat' first | (with_reducible first | assumption | apply State.sendControl_kept | apply foldl_kept) | split | intro _

theorem State.applySection_kept (s : State) (w : Nat) (b : List Byte) (p : Nat × Nat × Nat) (h : Kept q s)
    (hp : p.1 = 0 → numAt b p.2.1 2 < 0x8000) : Kept q (s.applySection w b p) := by
  unfold State.applySection
  extract_lets o
  split
  · rename_i e
    exact State.tellId_kept _ ⟨{ h.bounded with chip := Or.inl (hp e) }, h.same⟩
  · exact foldl_kept _ _ _ h fun _ _ h => State.enableLink_kept _ _ _ h
  · exact foldl_kept _ _ _ h fun _ _ h => State.updLink_kept _ _ _ h
  · exact h.like rfl rfl rfl rfl rfl rfl rfl rfl rfl rfl
  · split
    · exact State.gainSync_kept _ (h.like rfl rfl rfl rfl rfl rfl rfl rfl rfl rfl)
    · exact h.like rfl rfl rfl rfl rfl rfl rfl rfl rfl rfl
  · exact foldl_kept _ _ _ h fun _ _ h => State.sceneProgress_kept _ _ (State.updJob_kept _ _ _ h)

theorem foldl_kept_mem {α : Type} (l : List α) (f : State → α → State) (s : State) (h : Kept q s)
    (hf : ∀ t, ∀ a ∈ l, Kept q t → Kept q (f t a)) : Kept q (l.foldl f s) := by
  induction l generalizing s with
  | nil => exact h
  | cons a l ih => exact ih _ (hf s a (List.mem_cons_self ..) h) fun t b hb => hf t b (List.mem_cons_of_mem _ hb)

/-- R235: a chip id that passed the checks of its section is assignable. -/
theorem State.checkSections_id {s : State} {w : Nat} {b : List Byte} (ids : List Nat) (o : Nat) (h : s.checkSections w b ids o = none) :
    ∀ p ∈ sectionsOf b ids o, p.1 = 0 → numAt b p.2.1 2 < 0x8000 := by
  induction ids generalizing o with
  | nil => intro p hp; cases hp
  | cons i t ih =>
    have hc := (firstFail_none _).mp h
    intro p hp hz
    rcases List.mem_cons.mp hp with rfl | hp
    · have h5 : s.checkSection w b i (o + 8) (numAt b (o + 4) 4) = none := hc _ (by simp)
      obtain rfl : i = 0 := hz
      have := (need_none _ _ _).mp ((firstFail_none _).mp h5 (need (decide (numAt b (o + 8) 2 < 0x8000)) St.reservedSet (o + 8)) (by simp))
      simpa using this
    · exact ih _ (hc _ (by simp)) p hp hz

theorem State.applySections_kept (s : State) (w : Nat) (h : Kept q s) (hc : s.checkSections w (s.block w) (sectionIds w) 0 = none) :
    Kept q (s.applySections w) :=
  State.advertiseMore_kept _ _ (foldl_kept_mem _ _ _ h fun _ p hp ht => State.applySection_kept _ _ _ _ ht (State.checkSections_id _ _ hc p hp))

theorem fabricConfigSheet_kept : fabricConfigSheet.Keeps q := by
  intro s r w h hk
  exact State.applySections_kept _ _ h ((firstFail_none _).mp (State.checkCommand_pre hk) _ (by simp))

theorem execFabricConfig_kept (a0 : Nat) (s : State) (h : Kept q s) : KeptAnswer q (execFabricConfig a0 s) := by
  unfold execFabricConfig
  repeat' first
    | (with_reducible first | assumption | apply State.serve_kept | apply fabricConfigSheet_kept)
    | (simp -zeta only [↓kept_mk, ↓keptAnswer_next])

/-! ### Machine/Plans -/

theorem State.emptyHistory_kept (s : State) (a1 : Nat) (h : Kept q s) : Kept q (State.emptyHistory s a1) := by
  unfold State.emptyHistory
  repeat' first | (with_reducible first | assumption | apply State.putBytes_kept) | split | (extract_lets +onlyGivenNames x; clear_value x)

theorem State.openContexts_kept (s : State) (a1 : Nat) (a2 : Bool) (h : Kept q s) : Kept q (State.openContexts s a1 a2) := by
  unfold State.openContexts
  repeat' first | (with_reducible first | assumption | apply State.setContext_kept | apply foldl_kept) | intro _

theorem State.relink_kept (s : State) (h : Kept q s) : Kept q (State.relink s) := by
  unfold State.relink
  repeat' first
    | (with_reducible first | assumption | apply State.emptyHistory_kept | apply State.updContext_kept | apply foldl_kept)
    | split
    | intro _
    | (extract_lets +onlyGivenNames x; clear_value x)

theorem State.activatePlan_kept (s : State) (a1 : Nat) (a2 : Load) (h : Kept q s) : Kept q (State.activatePlan s a1 a2) := by
  unfold State.activatePlan
  repeat' first
    | (with_reducible first | assumption | apply State.emptyHistory_kept | apply State.updContext_kept | apply State.relink_kept | apply State.updJob_kept | apply State.openContexts_kept | apply foldl_kept)
    | (simp -zeta only [↓kept_mk])
    | (with_reducible refine Kept.fields ?_)
    | intro _

theorem State.activateDirectory_kept (s : State) (a1 : Nat) (a2 : Load) (h : Kept q s) : Kept q (State.activateDirectory s a1 a2) := by
  unfold State.activateDirectory
  repeat' first
    | (with_reducible first | assumption | apply State.relink_kept | apply State.updJob_kept | apply State.openContexts_kept)
    | (simp -zeta only [↓kept_mk])
    | (with_reducible refine Kept.fields ?_)
    | split
    | (extract_lets +onlyGivenNames x; refine have hx : Kept q x := ?_; ?_; rotate_left; clear_value x; rotate_right; unfold x)

theorem State.activateLoads_kept (s : State) (a1 : Nat) (a2 : Nat) (h : Kept q s) : Kept q (State.activateLoads s a1 a2) := by
  unfold State.activateLoads
  repeat' first
    | (with_reducible first | assumption | apply State.activatePlan_kept | apply State.activateDirectory_kept)
    | split
    | (extract_lets +onlyGivenNames x; clear_value x)

theorem State.writePlan_kept (s : State) (a1 : Nat) (a2 : Load) (h : Kept q s) : Kept q (State.writePlan s a1 a2) := by
  unfold State.writePlan
  repeat' first
    | (with_reducible first | assumption | apply State.updJob_kept | apply State.sceneProgress_kept | apply State.activatePlan_kept)
    | split

theorem State.writeDirectory_kept (s : State) (a1 : Nat) (a2 : Load) (h : Kept q s) : Kept q (State.writeDirectory s a1 a2) := by
  unfold State.writeDirectory
  repeat' first
    | (with_reducible first | assumption | apply State.updJob_kept | apply State.sceneProgress_kept | apply State.activateDirectory_kept)
    | split

theorem loadPlanSheet_kept   : (loadPlanSheet).Keeps q := by
  intro s r w h hk
  unfold loadPlanSheet 
  dsimp -zeta only
  repeat' first
    | (with_reducible first | assumption | apply State.writePlan_kept)
    | (simp -zeta only [↓kept_mk, ↓keptVerdict_done, ↓keptVerdict_failed, ↓keptVerdict_accepted, ↓keptVerdict_ended])

theorem execLoadPlan_kept (a0 : Nat) (s : State) (h : Kept q s) : KeptAnswer q (execLoadPlan a0 s) := by
  unfold execLoadPlan
  repeat' first
    | (with_reducible first | assumption | apply State.serve_kept | apply loadPlanSheet_kept)
    | (simp -zeta only [↓kept_mk, ↓keptAnswer_next])

theorem loadDirectorySheet_kept   : (loadDirectorySheet).Keeps q := by
  intro s r w h hk
  unfold loadDirectorySheet 
  dsimp -zeta only
  repeat' first
    | (with_reducible first | assumption | apply State.writeDirectory_kept)
    | (simp -zeta only [↓kept_mk, ↓keptVerdict_done, ↓keptVerdict_failed, ↓keptVerdict_accepted, ↓keptVerdict_ended])

theorem execLoadDirectory_kept (a0 : Nat) (s : State) (h : Kept q s) : KeptAnswer q (execLoadDirectory a0 s) := by
  unfold execLoadDirectory
  repeat' first
    | (with_reducible first | assumption | apply State.serve_kept | apply loadDirectorySheet_kept)
    | (simp -zeta only [↓kept_mk, ↓keptAnswer_next])

end Sys2Proof.Machine
end

