-- ==== Sys2Proof/Laws/KeptChip.lean ====
section
/-! SUPPORT. What keeps the bounds of a state, its fuses and its queue (`Kept`): power, resets, the hard limit and the security of the chip. -/
set_option linter.all false
namespace Sys2Proof.Machine
variable {q : Unchanged}

/-! ### Machine/HardLimit -/

theorem State.taintActive_kept (s : State) (h : Kept q s) : Kept q (State.taintActive s) := by
  unfold State.taintActive
  repeat' first
    | (with_reducible first | assumption | apply State.setTaint_kept | apply foldl_kept)
    | split
    | intro _
    | (extract_lets +onlyGivenNames x; clear_value x)

theorem State.settleRise_kept (s : State) (h : Kept q s) : Kept q s.settleRise := by
  unfold State.settleRise
  split
  · exact h
  · dsimp only
    split
    · exact State.postPower_kept _ _ _ _ ⟨{ h.bounded with stretch := Nat.le_refl 2 }, h.same⟩
    · exact h.like rfl rfl rfl rfl rfl rfl rfl rfl rfl rfl

theorem State.setTriggers_kept (s : State) (t : BitVec 4) (h : Kept q s) : Kept q (s.setTriggers t) := by
  unfold State.setTriggers
  extract_lets s0 now s1 s2
  have h1 : Kept q s1 := (State.settleRise_kept s h).like rfl rfl rfl rfl rfl rfl rfl rfl rfl rfl
  split
  · exact h1
  · have h2 : Kept q s2 := ⟨{ h1.bounded with stretch := (by decide : 1 ≤ 2) }, h1.same⟩
    exact State.postPower_kept _ _ _ _ (State.taintActive_kept _ h2)

theorem State.setTrigger_kept (s : State) (a1 : Nat) (a2 : Bool) (h : Kept q s) : Kept q (State.setTrigger s a1 a2) := by
  unfold State.setTrigger
  repeat' (with_reducible first | assumption | apply State.setTriggers_kept)

theorem State.resumeRamp_kept (s : State) (a1 : Nat) (h : Kept q s) : Kept q (State.resumeRamp s a1) := by
  unfold State.resumeRamp
  repeat' first | (with_reducible first | assumption | apply State.updCompany_kept | apply State.chargeBallast_kept) | split

theorem execTemperatureReading_kept (a0 : List Nat) (s : State) (h : Kept q s) : KeptAnswer q (execTemperatureReading a0 s) := by
  unfold execTemperatureReading
  repeat' first
    | (with_reducible first | assumption | apply State.fatalFault_kept | apply State.setTrigger_kept)
    | (simp -zeta only [↓kept_mk, ↓keptAnswer_next])
    | (with_reducible refine Kept.fields ?_)
    | split
    | (extract_lets +onlyGivenNames x; refine have hx : Kept q x := ?_; ?_; rotate_left; clear_value x; rotate_right; unfold x)
    | (extract_lets +onlyGivenNames x; clear_value x)

theorem execVrHotN_kept (a0 : Bool) (s : State) (h : Kept q s) : KeptAnswer q (execVrHotN a0 s) := by
  unfold execVrHotN
  repeat' first
    | (with_reducible first | assumption | apply State.setTrigger_kept)
    | (simp -zeta only [↓kept_mk, ↓keptAnswer_next])
    | (with_reducible refine Kept.fields ?_)
    | split

theorem execPowerMeasurement_kept (a0 : Nat) (s : State) (h : Kept q s) : KeptAnswer q (execPowerMeasurement a0 s) := by
  unfold execPowerMeasurement
  repeat' first
    | (with_reducible first | assumption | apply State.setTriggers_kept)
    | (simp -zeta only [↓kept_mk, ↓keptAnswer_next])
    | (with_reducible refine Kept.fields ?_)
    | split

theorem execStretchLevelRise_kept (s : State) (h : Kept q s) : KeptAnswer q (execStretchLevelRise s) := by
  unfold execStretchLevelRise
  repeat' first | (with_reducible first | assumption | apply State.settleRise_kept) | (simp -zeta only [↓kept_mk, ↓keptAnswer_next])

theorem execStretchLevelFall_kept (s : State) (h : Kept q s) : KeptAnswer q (execStretchLevelFall s) := by
  unfold execStretchLevelFall
  rw [keptAnswer_next]
  split
  · exact h
  · split
    · dsimp only
      have k : Kept q ((List.range 32).foldl (fun s c => s.resumeRamp c) s) := foldl_kept _ _ _ h fun _ _ h => State.resumeRamp_kept _ _ h
      generalize (List.range 32).foldl (fun s c => State.resumeRamp s c) s = t at k ⊢
      exact State.postPower_kept _ _ _ _ ⟨{ k.bounded with stretch := Nat.zero_le 2 }, k.same⟩
    · exact ⟨{ h.bounded with stretch := Nat.le_trans (Nat.sub_le _ _) h.bounded.stretch }, h.same⟩

/-! ### Machine/PowerStates -/

theorem State.wakeDistrict_kept (s : State) (a1 : Nat) (h : Kept q s) : Kept q (State.wakeDistrict s a1) := by
  unfold State.wakeDistrict
  repeat' (with_reducible first | assumption | apply State.clearDistricts_kept | apply State.mapCores_kept | apply State.clearStores_kept)

theorem State.clearCues_kept (s : State) (h : Kept q s) : Kept q (State.clearCues s) := by
  unfold State.clearCues
  repeat' first
    | with_reducible assumption
    | (simp -zeta only [↓kept_mk])
    | (with_reducible refine Kept.fields ?_)
    | (extract_lets +onlyGivenNames x; clear_value x)

theorem State.wholeReset_kept (s : State) (h : Kept q s) : Kept q s.wholeReset where
  bounded :=
    { mem := rfl
      rings := fun r => by
        have : s.wholeReset.ring r = SMap.get {} [(0, { state := .opened })] r := rfl
        rw [this, SMap.get]
        split <;> exact ⟨Nat.zero_le _, Nat.zero_le _⟩
      stretch := Nat.zero_le _
      fuse := h.bounded.fuse
      sustained := ⟨(by decide : 100 ≤ 950), Nat.le_of_eq h.bounded.fuse.symm⟩
      peak := (by decide : 950 ≤ 1150 ∧ 1150 ≤ 1150)
      ramp := (by decide : 1 ≤ 50000)
      chip := Or.inr rfl }
  same := h.same

theorem State.poweredReset_kept (s : State) (mem : Memory) (upsets : SMap Nat) (h : Kept q s) (hm : Memory.wf mem = true) :
    Kept q (s.poweredReset mem upsets) :=
  ((State.wholeReset_kept _ h).memory mem hm).like rfl rfl rfl rfl rfl rfl rfl rfl rfl rfl

theorem State.warmReset_kept (s : State) (h : Kept q s) : Kept q s.warmReset :=
  (State.poweredReset_kept _ _ (s.keptUpsets 0) h (SMap.canon_filter _ _ _ h.bounded.mem)).like rfl rfl rfl rfl rfl rfl rfl rfl rfl rfl

theorem State.powerOn_kept (s : State) (broken : Bool) (h : Kept q s) : Kept q (s.powerOn broken) :=
  have k := State.wholeReset_kept s h
  ⟨⟨k.bounded.mem, k.bounded.rings, k.bounded.stretch, k.bounded.fuse, k.bounded.sustained, k.bounded.peak, k.bounded.ramp, k.bounded.chip⟩, h.same⟩

theorem State.enterStandby_kept (s : State) (h : Kept q s) : Kept q s.enterStandby :=
  have k := State.poweredReset_kept _ (s.keptMemory (2 ^ 34)) (s.keptUpsets (2 ^ 34)) h (SMap.canon_filter _ _ _ h.bounded.mem)
  ⟨{ mem := k.bounded.mem, rings := k.bounded.rings, stretch := k.bounded.stretch, fuse := k.bounded.fuse, chip := k.bounded.chip,
     sustained := h.bounded.sustained, peak := h.bounded.peak, ramp := h.bounded.ramp }, k.same⟩

theorem State.stopAll_kept (s : State) (h : Kept q s) : Kept q s.stopAll := by
  unfold State.stopAll
  extract_lets t u
  have ht : Kept q t := foldl_kept _ _ _ h fun _ _ h => by
    split
    · exact h
    · split
      · exact State.endPair_kept _ _ _ h
      · exact State.finishStop_kept _ _ _ h
  have hu : Kept q u := foldl_kept _ _ _ ht fun _ _ h => by
    split
    · exact State.abortJob_kept _ _ _ _ _ h
    · exact h
  clear_value u
  exact ⟨{ hu.bounded with mem := h.bounded.mem, rings := h.bounded.rings }, hu.same⟩

theorem State.managerReset_kept (s : State) (cmd : Option Waiting) (h : Kept q s) : Kept q (s.managerReset cmd) := by
  have k : Kept q (((s.stopAll.clearStores (fun _ => true)).clearDistricts (fun _ => true)).sramRenew State.managerStore) :=
    State.sramRenew_kept _ _ (State.clearDistricts_kept _ _ (State.clearStores_kept _ _ _ (State.stopAll_kept _ h)))
  unfold State.managerReset
  dsimp only
  generalize ((s.stopAll.clearStores (fun _ => true)).clearDistricts (fun _ => true)).sramRenew State.managerStore = u at k
  refine ⟨⟨k.bounded.mem, fun r => ?_, k.bounded.stretch, k.bounded.fuse, k.bounded.sustained, k.bounded.peak, k.bounded.ramp, k.bounded.chip⟩, k.same⟩
  show (SMap.get ({} : Ring) [(0, { state := .opened })] r).Bounded
  rw [SMap.get]
  split <;> exact ⟨Nat.zero_le _, Nat.zero_le _⟩

theorem deviceResetSheet_kept   : (deviceResetSheet).Keeps q := by
  intro s r w h hk
  unfold deviceResetSheet 
  dsimp -zeta only
  repeat' first
    | (with_reducible first | assumption | apply State.managerReset_kept)
    | (simp -zeta only [↓kept_mk, ↓keptVerdict_done, ↓keptVerdict_failed, ↓keptVerdict_accepted, ↓keptVerdict_ended])

theorem execDeviceReset_kept (a0 : Nat) (s : State) (h : Kept q s) : KeptAnswer q (execDeviceReset a0 s) := by
  unfold execDeviceReset
  repeat' first
    | (with_reducible first | assumption | apply State.serve_kept | apply deviceResetSheet_kept)
    | (simp -zeta only [↓kept_mk, ↓keptAnswer_next])

theorem execWatchdog_kept (s : State) (h : Kept q s) : KeptAnswer q (execWatchdog s) := by
  unfold execWatchdog
  rw [keptAnswer_next]
  split
  · exact h
  · have k := State.managerReset_kept s none h
    generalize s.managerReset none = u at k
    refine State.updRing_kept _ _ _ (k.like rfl rfl rfl rfl rfl rfl rfl rfl rfl rfl) fun _ hk => ⟨hk.taken, ?_⟩
    exact (by decide : 1 ≤ 1024)

theorem execPowerOnReset_kept (s : State) (h : Kept q s) : KeptAnswer q (execPowerOnReset s) := by
  unfold execPowerOnReset
  repeat' first | (with_reducible first | assumption | apply State.powerOn_kept) | (simp -zeta only [↓kept_mk, ↓keptAnswer_next])

theorem execResetN_kept (s : State) (h : Kept q s) : KeptAnswer q (execResetN s) := by
  unfold execResetN
  repeat' first
    | (with_reducible first | assumption | apply State.powerOn_kept | apply State.warmReset_kept)
    | (simp -zeta only [↓kept_mk, ↓keptAnswer_next])
    | (with_reducible refine Kept.fields ?_)
    | split
    | (extract_lets +onlyGivenNames x; refine have hx : Kept q x := ?_; ?_; rotate_left; clear_value x; rotate_right; unfold x)

theorem execPowerDown_kept (s : State) (h : Kept q s) : KeptAnswer q (execPowerDown s) := by
  unfold execPowerDown
  rw [keptAnswer_next]
  exact (State.wholeReset_kept s h).like rfl rfl rfl rfl rfl rfl rfl rfl rfl rfl

theorem State.zeroMemory_kept (s : State) (h : Kept q s) : Kept q s.zeroMemory := by
  unfold State.zeroMemory
  split
  · exact h
  · exact (h.memory _ (SMap.canon_filter _ _ _ h.bounded.mem)).like rfl rfl rfl rfl rfl rfl rfl rfl rfl rfl
  · exact (h.memory [] rfl).like rfl rfl rfl rfl rfl rfl rfl rfl rfl rfl

theorem execBoot_kept (s : State) (h : Kept q s) : KeptAnswer q (execBoot s) := by
  unfold execBoot
  repeat' first
    | (with_reducible first | assumption | apply State.zeroMemory_kept | apply State.fatalFault_kept | apply State.setTriggers_kept)
    | (simp -zeta only [↓kept_mk, ↓keptAnswer_next])
    | (with_reducible refine Kept.fields ?_)
    | split
    | (extract_lets +onlyGivenNames x; refine have hx : Kept q x := ?_; ?_; rotate_left; clear_value x; rotate_right; unfold x)
    | (extract_lets +onlyGivenNames x; clear_value x)

theorem execBottomTreeComplete_kept (s : State) (h : Kept q s) : KeptAnswer q (execBottomTreeComplete s) := by
  unfold execBottomTreeComplete
  repeat' first | with_reducible assumption | (simp -zeta only [↓kept_mk, ↓keptAnswer_next]) | (with_reducible refine Kept.fields ?_) | split

theorem State.beginTransition_kept (s : State) (a1 : PowerState) (a2 : Nat) (a3 : Nat) (h : Kept q s) : Kept q (State.beginTransition s a1 a2 a3) := by
  unfold State.beginTransition
  repeat' first | with_reducible assumption | (simp -zeta only [↓kept_mk]) | (with_reducible refine Kept.fields ?_)

theorem enterStateSheet_kept (a0 : PowerState)  : (enterStateSheet a0).Keeps q := by
  intro s r w h hk
  unfold enterStateSheet 
  dsimp -zeta only
  repeat' first
    | (with_reducible first | assumption | apply State.beginTransition_kept)
    | (simp -zeta only [↓kept_mk, ↓keptVerdict_done, ↓keptVerdict_failed, ↓keptVerdict_accepted, ↓keptVerdict_ended])
    | split

theorem execRun_kept (a0 : Nat) (s : State) (h : Kept q s) : KeptAnswer q (execRun a0 s) := by
  unfold execRun
  repeat' first
    | (with_reducible first | assumption | apply State.serve_kept | apply enterStateSheet_kept)
    | (simp -zeta only [↓kept_mk, ↓keptAnswer_next])

theorem execInterval_kept (a0 : Nat) (s : State) (h : Kept q s) : KeptAnswer q (execInterval a0 s) := by
  unfold execInterval
  repeat' first
    | (with_reducible first | assumption | apply State.serve_kept | apply enterStateSheet_kept)
    | (simp -zeta only [↓kept_mk, ↓keptAnswer_next])

theorem execDim_kept (a0 : Nat) (s : State) (h : Kept q s) : KeptAnswer q (execDim a0 s) := by
  unfold execDim
  repeat' first
    | (with_reducible first | assumption | apply State.serve_kept | apply enterStateSheet_kept)
    | (simp -zeta only [↓kept_mk, ↓keptAnswer_next])

theorem execStandby_kept (a0 : Nat) (s : State) (h : Kept q s) : KeptAnswer q (execStandby a0 s) := by
  unfold execStandby
  repeat' first
    | (with_reducible first | assumption | apply State.serve_kept | apply enterStateSheet_kept)
    | (simp -zeta only [↓kept_mk, ↓keptAnswer_next])

theorem execStateReached_kept (s : State) (h : Kept q s) : KeptAnswer q (execStateReached s) := by
  unfold execStateReached
  repeat' first
    | (with_reducible first | assumption | apply State.enterStandby_kept | apply State.clearCues_kept | apply State.complete_kept)
    | (simp -zeta only [↓kept_mk, ↓keptAnswer_next])
    | (with_reducible refine Kept.fields ?_)
    | split
    | (extract_lets +onlyGivenNames x; refine have hx : Kept q x := ?_; ?_; rotate_left; clear_value x; rotate_right; unfold x)
    | (extract_lets +onlyGivenNames x; clear_value x)

theorem execDimWakeWave_kept (s : State) (h : Kept q s) : KeptAnswer q (execDimWakeWave s) := by
  unfold execDimWakeWave
  repeat' first
    | (with_reducible first | assumption | apply State.wakeDistrict_kept)
    | (simp -zeta only [↓kept_mk, ↓keptAnswer_next])
    | (with_reducible refine Kept.fields ?_)
    | split
    | (extract_lets +onlyGivenNames x; refine have hx : Kept q x := ?_; ?_; rotate_left; clear_value x; rotate_right; unfold x)

/-! ### Machine/Security -/

theorem attestSheet_kept   : (attestSheet).Keeps q := by
  intro s r w h hk
  unfold attestSheet 
  dsimp -zeta only
  repeat' first
    | (with_reducible first | assumption | apply State.putReport_kept)
    | (simp -zeta only [↓kept_mk, ↓keptVerdict_done, ↓keptVerdict_failed, ↓keptVerdict_accepted, ↓keptVerdict_ended])
    | (with_reducible refine Kept.fields ?_)
    | (extract_lets +onlyGivenNames x; refine have hx : Kept q x := ?_; ?_; rotate_left; clear_value x; rotate_right; unfold x)
    | (extract_lets +onlyGivenNames x; clear_value x)

theorem execAttest_kept (a0 : Nat) (s : State) (h : Kept q s) : KeptAnswer q (execAttest a0 s) := by
  unfold execAttest
  repeat' first
    | (with_reducible first | assumption | apply State.serve_kept | apply attestSheet_kept)
    | (simp -zeta only [↓kept_mk, ↓keptAnswer_next])

theorem State.installExtension_kept (s : State) (a1 : List Byte) (h : Kept q s) : Kept q (State.installExtension s a1) := by
  unfold State.installExtension
  repeat' first
    | (with_reducible first | assumption | apply State.measureDevice_kept)
    | (simp -zeta only [↓kept_mk])
    | (with_reducible refine Kept.fields ?_)
    | split

theorem loadExtensionSheet_kept   : (loadExtensionSheet).Keeps q := by
  intro s r w h hk
  unfold loadExtensionSheet 
  dsimp -zeta only
  repeat' first
    | (with_reducible first | assumption | apply State.installExtension_kept)
    | (simp -zeta only [↓kept_mk, ↓keptVerdict_done, ↓keptVerdict_failed, ↓keptVerdict_accepted, ↓keptVerdict_ended])

theorem execLoadExtension_kept (a0 : Nat) (s : State) (h : Kept q s) : KeptAnswer q (execLoadExtension a0 s) := by
  unfold execLoadExtension
  repeat' first
    | (with_reducible first | assumption | apply State.serve_kept | apply loadExtensionSheet_kept)
    | (simp -zeta only [↓kept_mk, ↓keptAnswer_next])

theorem unlockSheet_kept (a0 : Bool) (a1 : (Nat → Check)) (a2 : (State → Nat → Nat → Check)) (a3 : (State → Nat → Nat → Verdict))  (ha3 : ∀ x0 x1 x2, Kept q x0 → KeptVerdict q (a3 x0 x1 x2)) : (unlockSheet a0 a1 a2 a3).Keeps q := by
  intro s r w h hk
  unfold unlockSheet 
  dsimp -zeta only
  repeat' (with_reducible first | assumption | apply ha3)

theorem challengeSheet_kept   : (challengeSheet).Keeps q := by
  intro s r w h hk
  unfold challengeSheet unlockSheet
  dsimp -zeta only
  repeat' first
    | with_reducible assumption
    | (simp -zeta only [↓kept_mk, ↓keptVerdict_done, ↓keptVerdict_failed, ↓keptVerdict_accepted, ↓keptVerdict_ended])
    | (with_reducible refine Kept.fields ?_)
    | (extract_lets +onlyGivenNames x; clear_value x)

theorem execChallenge_kept (a0 : Nat) (s : State) (h : Kept q s) : KeptAnswer q (execChallenge a0 s) := by
  unfold execChallenge
  repeat' first
    | (with_reducible first | assumption | apply State.serve_kept | apply challengeSheet_kept)
    | (simp -zeta only [↓kept_mk, ↓keptAnswer_next])

theorem State.grant_kept (s : State) (scope : Nat) (h : Kept q s) : Kept q (s.grant scope) := by
  unfold State.grant
  dsimp only
  split
  · exact ⟨⟨h.bounded.mem, h.bounded.rings, h.bounded.stretch, h.bounded.fuse, h.bounded.sustained, h.bounded.peak, h.bounded.ramp, h.bounded.chip⟩, h.same⟩
  · exact h.like rfl rfl rfl rfl rfl rfl rfl rfl rfl rfl

theorem State.respond_kept (s : State) (a1 : Nat) (a2 : Nat) (h : Kept q s) : Kept q (State.respond s a1 a2) := by
  unfold State.respond
  repeat' first
    | (with_reducible first | assumption | apply State.complete_kept | apply State.grant_kept)
    | (simp -zeta only [↓kept_mk])
    | (with_reducible refine Kept.fields ?_)
    | split
    | (extract_lets +onlyGivenNames x; clear_value x)

theorem responseSheet_kept   : (responseSheet).Keeps q := by
  intro s r w h hk
  unfold responseSheet unlockSheet
  dsimp -zeta only
  repeat' first
    | (with_reducible first | assumption | apply State.respond_kept)
    | (simp -zeta only [↓kept_mk, ↓keptVerdict_done, ↓keptVerdict_failed, ↓keptVerdict_accepted, ↓keptVerdict_ended])

theorem execResponse_kept (a0 : Nat) (s : State) (h : Kept q s) : KeptAnswer q (execResponse a0 s) := by
  unfold execResponse
  repeat' first
    | (with_reducible first | assumption | apply State.serve_kept | apply responseSheet_kept)
    | (simp -zeta only [↓kept_mk, ↓keptAnswer_next])

theorem lockSheet_kept   : (lockSheet).Keeps q := by
  intro s r w h hk
  unfold lockSheet unlockSheet
  dsimp -zeta only
  repeat' first
    | with_reducible assumption
    | (simp -zeta only [↓kept_mk, ↓keptVerdict_done, ↓keptVerdict_failed, ↓keptVerdict_accepted, ↓keptVerdict_ended])
    | (with_reducible refine Kept.fields ?_)
    | split
    | (extract_lets +onlyGivenNames x; refine have hx : Kept q x := ?_; ?_; rotate_left; clear_value x; rotate_right; unfold x)

theorem execLock_kept (a0 : Nat) (s : State) (h : Kept q s) : KeptAnswer q (execLock a0 s) := by
  unfold execLock
  repeat' first | (with_reducible first | assumption | apply State.serve_kept | apply lockSheet_kept) | (simp -zeta only [↓kept_mk, ↓keptAnswer_next])

theorem State.jtag_kept (s : State) (a1 : (State → State)) (h : Kept q s) (ha1 : ∀ x0, Kept q x0 → Kept q (a1 x0)) : Kept q (State.jtag s a1) := by
  unfold State.jtag
  repeat' first | (with_reducible first | assumption | apply ha1) | (simp -zeta only [↓kept_mk]) | (with_reducible refine Kept.fields ?_) | split

theorem execBypass_kept (a0 : List Bool) (s : State) (h : Kept q s) : KeptAnswer q (execBypass a0 s) := by
  unfold execBypass
  repeat' first
    | (with_reducible first | assumption | apply State.jtag_kept)
    | (simp -zeta only [↓kept_mk, ↓keptAnswer_next])
    | (with_reducible refine Kept.fields ?_)
    | intro _

theorem execIdcode_kept (a0 : List Bool) (s : State) (h : Kept q s) : KeptAnswer q (execIdcode a0 s) := by
  unfold execIdcode
  repeat' first
    | (with_reducible first | assumption | apply State.jtag_kept)
    | (simp -zeta only [↓kept_mk, ↓keptAnswer_next])
    | (with_reducible refine Kept.fields ?_)
    | intro _

theorem execSamplePreload_kept (a0 : List Bool) (a1 : List Bool) (s : State) (h : Kept q s) : KeptAnswer q (execSamplePreload a0 a1 s) := by
  unfold execSamplePreload
  repeat' first
    | (with_reducible first | assumption | apply State.jtag_kept)
    | (simp -zeta only [↓kept_mk, ↓keptAnswer_next])
    | (with_reducible refine Kept.fields ?_)
    | intro _

theorem execExtest_kept (a0 : List Bool) (a1 : List Bool) (s : State) (h : Kept q s) : KeptAnswer q (execExtest a0 a1 s) := by
  unfold execExtest
  repeat' first
    | (with_reducible first | assumption | apply State.jtag_kept)
    | (simp -zeta only [↓kept_mk, ↓keptAnswer_next])
    | (with_reducible refine Kept.fields ?_)
    | intro _

/-! ### Machine/Smbus -/

theorem State.transaction_kept (s : State) (a1 : Bool) (a2 : Bool) (a3 : (State → State)) (a4 : List Byte) (h : Kept q s) (ha3 : ∀ x0, Kept q x0 → Kept q (a3 x0)) : Kept q (State.transaction s a1 a2 a3 a4) := by
  unfold State.transaction
  repeat' first
    | (with_reducible first | assumption | apply ha3)
    | (simp -zeta only [↓kept_mk])
    | (with_reducible refine Kept.fields ?_)
    | split
    | (extract_lets +onlyGivenNames x; refine have hx : Kept q x := ?_; ?_; rotate_left; clear_value x; rotate_right; unfold x)

theorem State.wakeUp_kept (s : State) (h : Kept q s) : Kept q (State.wakeUp s) := by
  unfold State.wakeUp
  repeat' first | with_reducible assumption | (simp -zeta only [↓kept_mk]) | (with_reducible refine Kept.fields ?_) | split

theorem execWake_kept (a0 : Bool) (s : State) (h : Kept q s) : KeptAnswer q (execWake a0 s) := by
  unfold execWake
  repeat' first
    | (with_reducible first | assumption | apply State.transaction_kept | apply State.wakeUp_kept)
    | (simp -zeta only [↓kept_mk, ↓keptAnswer_next])

theorem execLinkReset_kept (a0 : Nat) (a1 : Bool) (s : State) (h : Kept q s) : KeptAnswer q (execLinkReset a0 a1 s) := by
  unfold execLinkReset
  repeat' first
    | (with_reducible first | assumption | apply State.transaction_kept | apply State.resetLink_kept)
    | (simp -zeta only [↓kept_mk, ↓keptAnswer_next])
    | intro _

theorem execReadVid_kept (a0 : Bool) (s : State) (h : Kept q s) : KeptAnswer q (execReadVid a0 s) := by
  unfold execReadVid
  repeat' first
    | (with_reducible first | assumption | apply State.transaction_kept | (show Kept q (id _); unfold id; assumption))
    | (simp -zeta only [↓kept_mk, ↓keptAnswer_next])
    | intro _

theorem execReadTemp_kept (a0 : Nat) (a1 : Bool) (s : State) (h : Kept q s) : KeptAnswer q (execReadTemp a0 a1 s) := by
  unfold execReadTemp
  repeat' first
    | (with_reducible first | assumption | apply State.transaction_kept | (show Kept q (id _); unfold id; assumption))
    | (simp -zeta only [↓kept_mk, ↓keptAnswer_next])
    | intro _

theorem execReadState_kept (a0 : Bool) (s : State) (h : Kept q s) : KeptAnswer q (execReadState a0 s) := by
  unfold execReadState
  repeat' first
    | (with_reducible first | assumption | apply State.transaction_kept | (show Kept q (id _); unfold id; assumption))
    | (simp -zeta only [↓kept_mk, ↓keptAnswer_next])
    | intro _

theorem execReadSerial_kept (a0 : Bool) (s : State) (h : Kept q s) : KeptAnswer q (execReadSerial a0 s) := by
  unfold execReadSerial
  repeat' first
    | (with_reducible first | assumption | apply State.transaction_kept | (show Kept q (id _); unfold id; assumption))
    | (simp -zeta only [↓kept_mk, ↓keptAnswer_next])
    | intro _

end Sys2Proof.Machine
end

