-- ==== Sys2Proof/Laws/KeptReduction.lean ====
section
/-! SUPPORT. What keeps the bounds of a state, its fuses and its queue (`Kept`): the reduction and the update. -/
set_option linter.all false
namespace Sys2Proof.Machine
variable {q : Unchanged}

/-! ### Machine/Reduction -/

theorem State.sendSamples_kept (s : State) (a1 : Nat) (a2 : Nat) (a3 : List Sample) (h : Kept q s) : Kept q (State.sendSamples s a1 a2 a3) := by
  unfold State.sendSamples
  repeat' first
    | (with_reducible first | assumption | apply State.countChip_kept | apply State.emit_kept)
    | split
    | (extract_lets +onlyGivenNames x; clear_value x)

theorem State.rawSamples_kept (s : State) (a1 : Nat) (h : Kept q s) : KeptFst q (State.rawSamples s a1) := by
  unfold State.rawSamples
  repeat' first
    | (with_reducible first | assumption | refine State.readUnit_kept_eq ?_ (by assumption) | apply State.readUnit_kept | apply State.countCore_kept | apply foldl_keptFst)
    | (simp -zeta only [↓kept_mk, ↓keptFst_mk])
    | split
    | intro _
    | (extract_lets +onlyGivenNames x; clear_value x)

theorem State.rawSamples_kept_eq {s : State} {a1 : Nat} {t : State} {y : Option (List Sample)} (k : KeptFst q (State.rawSamples s a1)) (e : State.rawSamples s a1 = (t, y)) : Kept q t := k.eq e

theorem State.trigger_kept (s : State) (a1 : Nat) (h : Kept q s) : Kept q (State.trigger s a1) := by
  unfold State.trigger
  repeat' first
    | (with_reducible first | assumption | apply State.abortJob_kept | apply State.setContext_kept | refine State.rawSamples_kept_eq ?_ (by assumption) | apply State.rawSamples_kept | apply State.sendSamples_kept)
    | (simp -zeta only [↓kept_mk, ↓keptFst_mk])
    | (with_reducible refine Kept.fields ?_)
    | split
    | (extract_lets +onlyGivenNames x; refine have hx : Kept q x := ?_; ?_; rotate_left; clear_value x; rotate_right; unfold x)
    | (extract_lets +onlyGivenNames x; clear_value x)

theorem execBucketTrigger_kept (a0 : Nat) (s : State) (h : Kept q s) : KeptAnswer q (execBucketTrigger a0 s) := by
  unfold execBucketTrigger
  repeat' first
    | (with_reducible first | assumption | apply State.throughExchange_kept | apply State.trigger_kept)
    | (simp -zeta only [↓kept_mk, ↓keptAnswer_next])
    | split
    | intro _

theorem State.hopUp_kept (s : State) (a1 : Nat) (a2 : List Exact) (h : Kept q s) : Kept q (State.hopUp s a1 a2) := by
  unfold State.hopUp
  repeat' first
    | (with_reducible first | assumption | apply State.countChip_kept | apply State.setContext_kept | apply State.sendSamples_kept | apply State.sendUp_kept)
    | split

theorem State.putBank_kept (s : State) (a1 : Nat) (a2 : List Byte) (h : Kept q s) : Kept q (State.putBank s a1 a2) := by
  unfold State.putBank
  repeat' first | (with_reducible first | assumption | apply State.writeUnit_kept | apply foldl_kept) | intro _

theorem State.noteSample_kept (s : State) (a1 : Nat) (a2 : Nat) (h : Kept q s) : Kept q (State.noteSample s a1 a2) := by
  unfold State.noteSample
  repeat' first
    | (with_reducible first | assumption | apply State.writeUnit_kept)
    | (simp -zeta only [↓kept_mk])
    | (with_reducible refine Kept.fields ?_)
    | split
    | (extract_lets +onlyGivenNames x; clear_value x)

theorem State.hopOwner_kept (s : State) (a1 : Nat) (a2 : List Exact) (h : Kept q s) : Kept q (State.hopOwner s a1 a2) := by
  unfold State.hopOwner
  repeat' first
    | (with_reducible first | assumption | apply State.putBank_kept | apply State.noteSample_kept | apply State.setContext_kept)
    | (simp -zeta only [↓kept_mk])
    | (with_reducible refine Kept.fields ?_)
    | split

theorem execHop_kept (a0 : Nat) (s : State) (h : Kept q s) : KeptAnswer q (execHop a0 s) := by
  unfold execHop
  repeat' first
    | (with_reducible first | assumption | apply State.throughExchange_kept | apply State.hopUp_kept | apply State.hopOwner_kept)
    | (simp -zeta only [↓kept_mk, ↓keptAnswer_next])
    | split
    | intro _

theorem State.cutArrived_kept (s : State) (a1 : Nat) (a2 : Nat) (h : Kept q s) : Kept q (State.cutArrived s a1 a2) := by
  unfold State.cutArrived
  repeat' (with_reducible first | assumption | apply State.updLink_kept)

theorem State.know_kept (s : State) (a1 : Packet) (h : Kept q s) : Kept q (State.know s a1) := by
  unfold State.know
  repeat' first | with_reducible assumption | (simp -zeta only [↓kept_mk]) | (with_reducible refine Kept.fields ?_) | split

theorem State.handleArrived_kept (s : State) (a1 : Nat) (a2 : Nat) (a3 : (Packet → Bool)) (a4 : (State → Nat → Packet → State)) (h : Kept q s) (ha4 : ∀ x0 x1 x2, Kept q x0 → Kept q (a4 x0 x1 x2)) : Kept q (State.handleArrived s a1 a2 a3 a4) := by
  unfold State.handleArrived
  repeat' first
    | (with_reducible first | assumption | apply ha4 | apply State.countChip_kept | apply State.takeArrived_kept | apply State.malformed_kept | apply State.cutArrived_kept | apply State.know_kept)
    | split
    | (extract_lets +onlyGivenNames x; clear_value x)

theorem State.takeReduce_kept (s : State) (a1 : Nat) (a2 : Nat) (a3 : Packet) (h : Kept q s) : Kept q (State.takeReduce s a1 a2 a3) := by
  unfold State.takeReduce
  repeat' first
    | (with_reducible first | assumption | apply State.updContext_kept | apply State.updLink_kept | apply State.owe_kept | apply State.takeArrived_kept)
    | split
    | (extract_lets +onlyGivenNames x; clear_value x)

theorem State.handle_kept (s : State) (a1 : Nat) (a2 : Nat) (a3 : (Packet → Bool)) (a4 : (State → Nat → Packet → State)) (h : Kept q s) (ha4 : ∀ x0 x1 x2, Kept q x0 → Kept q (a4 x0 x1 x2)) : Kept q (State.handle s a1 a2 a3 a4) := by
  unfold State.handle
  repeat' first | (with_reducible first | assumption | apply State.throughExchange_kept | apply State.handleArrived_kept) | split | intro _

theorem execReduceUp_kept (a0 : LinkId) (s : State) (h : Kept q s) : KeptAnswer q (execReduceUp a0 s) := by
  unfold execReduceUp
  repeat' first
    | (with_reducible first | assumption | apply State.handle_kept | apply State.takeReduce_kept)
    | (simp -zeta only [↓kept_mk, ↓keptAnswer_next])
    | intro _

theorem execShadowSample_kept (a0 : LinkId) (s : State) (h : Kept q s) : KeptAnswer q (execShadowSample a0 s) := by
  unfold execShadowSample
  repeat' first
    | (with_reducible first | assumption | apply State.handle_kept | apply State.noteSample_kept | apply State.updContext_kept | apply State.takeArrived_kept | apply foldl_kept)
    | (simp -zeta only [↓kept_mk, ↓keptAnswer_next])
    | intro _

theorem State.takeBroadcast_kept (s : State) (a1 : Nat) (a2 : Nat) (a3 : Packet) (h : Kept q s) : Kept q (State.takeBroadcast s a1 a2 a3) := by
  unfold State.takeBroadcast
  repeat' first
    | (with_reducible first | assumption | apply State.takeArrived_kept | apply State.setContext_kept | apply State.forwardPair_kept | apply State.forwardDown_kept)
    | (simp -zeta only [↓kept_mk])
    | (with_reducible refine Kept.fields ?_)
    | split
    | (extract_lets +onlyGivenNames x; refine have hx : Kept q x := ?_; ?_; rotate_left; clear_value x; rotate_right; unfold x)
    | (extract_lets +onlyGivenNames x; clear_value x)

theorem execBroadcastDown_kept (a0 : LinkId) (s : State) (h : Kept q s) : KeptAnswer q (execBroadcastDown a0 s) := by
  unfold execBroadcastDown
  repeat' first
    | (with_reducible first | assumption | apply State.handle_kept | apply State.takeBroadcast_kept)
    | (simp -zeta only [↓kept_mk, ↓keptAnswer_next])
    | intro _

theorem State.knowCarriage_kept (s : State) (a1 : Nat) (h : Kept q s) : Kept q (State.knowCarriage s a1) := by
  unfold State.knowCarriage
  repeat' first
    | with_reducible assumption
    | (simp -zeta only [↓kept_mk])
    | (with_reducible refine Kept.fields ?_)
    | (extract_lets +onlyGivenNames x; clear_value x)

theorem State.landCarriage_kept (s : State) (a1 : Nat) (a2 : List (Nat × List Byte)) (h : Kept q s) : Kept q (State.landCarriage s a1 a2) := by
  unfold State.landCarriage
  repeat' first | (with_reducible first | assumption | apply State.renewFoyer_kept | apply State.putBytes_kept | apply foldl_kept) | intro _

theorem execCarriage_kept (a0 : LinkId) (a1 : Nat) (s : State) (h : Kept q s) : KeptAnswer q (execCarriage a0 a1 s) := by
  unfold execCarriage
  repeat' first
    | (with_reducible first | assumption | apply State.countChip_kept | apply State.takeArrived_kept | apply State.message_kept | apply State.landCarriage_kept | apply State.knowCarriage_kept)
    | (simp -zeta only [↓kept_mk, ↓keptAnswer_next])
    | split
    | (extract_lets +onlyGivenNames x; clear_value x)

theorem execShadowCheck_kept (a0 : Nat) (a1 : Nat) (s : State) (h : Kept q s) : KeptAnswer q (execShadowCheck a0 a1 s) := by
  unfold execShadowCheck
  repeat' first
    | (with_reducible first | assumption | apply State.throughExchange_kept | apply State.noteSample_kept | apply State.setContext_kept | apply State.postCompany_kept)
    | (simp -zeta only [↓kept_mk, ↓keptAnswer_next])
    | split
    | intro _
    | (extract_lets +onlyGivenNames x; clear_value x)

theorem State.writeExponents_kept (s : State) (a1 : Nat) (h : Kept q s) : Kept q (State.writeExponents s a1) := by
  unfold State.writeExponents
  repeat' (with_reducible first | assumption | apply State.updCores_kept)

theorem State.passScene_kept (s : State) (a1 : Nat) (a2 : Nat) (h : Kept q s) : Kept q (State.passScene s a1 a2) := by
  unfold State.passScene
  repeat' first | (with_reducible first | assumption | apply State.setContext_kept) | split | (extract_lets +onlyGivenNames x; clear_value x)

theorem State.applyScene_kept (s : State) (a1 : Nat) (a2 : Nat) (a3 : Nat) (h : Kept q s) : Kept q (State.applyScene s a1 a2 a3) := by
  unfold State.applyScene
  repeat' first
    | (with_reducible first | assumption | apply State.writeExponents_kept | apply State.passScene_kept | apply State.updJob_kept | apply State.activateLoads_kept | apply State.abortJob_kept | apply State.sceneProgress_kept | apply foldl_kept)
    | (simp -zeta only [↓kept_mk])
    | (with_reducible refine Kept.fields ?_)
    | split
    | intro _
    | (extract_lets +onlyGivenNames x; refine have hx : Kept q x := ?_; ?_; rotate_left; clear_value x; rotate_right; unfold x)
    | (extract_lets +onlyGivenNames x; clear_value x)

theorem State.lateScene_kept (s : State) (a1 : Nat) (h : Kept q s) : Kept q (State.lateScene s a1) := by
  unfold State.lateScene
  repeat' first
    | (with_reducible first | assumption | apply State.setTaint_kept | apply State.countChip_kept)
    | split
    | (extract_lets +onlyGivenNames x; clear_value x)

theorem State.sceneTurn_kept (s : State) (a1 : Nat) (h : Kept q s) : Kept q (State.sceneTurn s a1) := by
  unfold State.sceneTurn
  repeat' first | (with_reducible first | assumption | apply State.throughExchange_kept | apply State.applyScene_kept) | split | intro _

theorem execLanded_kept (a0 : Nat) (a1 : Nat) (a2 : Nat) (a3 : Nat) (s : State) (h : Kept q s) : KeptAnswer q (execLanded a0 a1 a2 a3 s) := by
  unfold execLanded
  repeat' first
    | (with_reducible first | assumption | apply State.sceneProgress_kept | apply State.updJob_kept)
    | (simp -zeta only [↓kept_mk, ↓keptAnswer_next])
    | split

theorem execScene_kept (a0 : Nat) (a1 : Nat) (a2 : Nat) (a3 : Nat) (a4 : Bool) (s : State) (h : Kept q s) : KeptAnswer q (execScene a0 a1 a2 a3 a4 s) := by
  unfold execScene
  repeat' first
    | (with_reducible first | assumption | apply State.sendScene_kept | apply State.lateScene_kept | apply State.sceneTurn_kept | apply State.updJob_kept)
    | (simp -zeta only [↓kept_mk, ↓keptAnswer_next])
    | split

theorem execSceneChange_kept (a0 : Nat) (s : State) (h : Kept q s) : KeptAnswer q (execSceneChange a0 s) := by
  unfold execSceneChange
  repeat' first | (with_reducible first | assumption | apply State.sceneTurn_kept) | (simp -zeta only [↓kept_mk, ↓keptAnswer_next])

theorem execJobAbort_kept (a0 : Nat) (a1 : Nat) (s : State) (h : Kept q s) : KeptAnswer q (execJobAbort a0 a1 s) := by
  unfold execJobAbort
  repeat' first
    | (with_reducible first | assumption | apply State.abortJob_kept | apply State.updJob_kept)
    | (simp -zeta only [↓kept_mk, ↓keptAnswer_next])
    | split

theorem execContextTimeout_kept (a0 : Nat) (s : State) (h : Kept q s) : KeptAnswer q (execContextTimeout a0 s) := by
  unfold execContextTimeout
  repeat' first
    | (with_reducible first | assumption | apply State.abortJob_kept)
    | (simp -zeta only [↓kept_mk, ↓keptAnswer_next])
    | split
    | (extract_lets +onlyGivenNames x; clear_value x)

/-! ### Machine/Update -/

theorem State.readBank_kept (s : State) (a1 : Nat) (a2 : Nat) (h : Kept q s) : KeptFst q (State.readBank s a1 a2) := by
  unfold State.readBank
  repeat' first
    | (with_reducible first | assumption | refine State.readUnit_kept_eq ?_ (by assumption) | apply State.readUnit_kept | apply State.countChip_kept | apply foldl_keptFst | apply KeptFst.fst)
    | (simp -zeta only [↓kept_mk, ↓keptFst_mk])
    | split
    | intro _

theorem State.readBank_kept_eq {s : State} {a1 : Nat} {a2 : Nat} {t : State} {y : Option (List Byte)} (k : KeptFst q (State.readBank s a1 a2)) (e : State.readBank s a1 a2 = (t, y)) : Kept q t := k.eq e

theorem State.readArrays_kept (s : State) (l : List (Nat × Nat)) (h : Kept q s) : KeptFst q (s.readArrays l) := by
  induction l generalizing s with
  | nil => exact h
  | cons p t ih =>
    unfold State.readArrays
    split
    · rename_i e; exact (State.readBank_kept _ _ _ h).eq e
    · rename_i e
      have k := ih _ ((State.readBank_kept _ _ _ h).eq e)
      split
      · rename_i e; exact k.eq e
      · rename_i e; exact k.eq e

theorem State.readArrays_kept_eq {s : State} {l : List (Nat × Nat)} {t : State} {y : Option (List (List Byte))}
    (k : KeptFst q (s.readArrays l)) (e : s.readArrays l = (t, y)) : Kept q t := k.eq e

theorem State.storeImage_kept (s : State) (a1 : Nat) (a2 : List Byte) (a3 : List Nat) (a4 : Bool) (h : Kept q s) : KeptFst q (State.storeImage s a1 a2 a3 a4) := by
  unfold State.storeImage
  repeat' first
    | (with_reducible first | assumption | apply State.putBank_kept | apply State.putBytes_kept | apply State.updContext_kept | apply State.calChip_kept)
    | (simp -zeta only [↓kept_mk, ↓keptFst_mk])
    | split
    | (extract_lets +onlyGivenNames x; refine have hx : Kept q x := ?_; ?_; rotate_left; clear_value x; rotate_right; unfold x)
    | (extract_lets +onlyGivenNames x; clear_value x)

theorem State.storeImage_kept_eq {s : State} {a1 : Nat} {a2 : List Byte} {a3 : List Nat} {a4 : Bool} {t : State} {y : List Byte} (k : KeptFst q (State.storeImage s a1 a2 a3 a4)) (e : State.storeImage s a1 a2 a3 a4 = (t, y)) : Kept q t := k.eq e

theorem State.updateFailed_kept (s : State) (a1 : Nat) (h : Kept q s) : Kept q (State.updateFailed s a1) := by
  unfold State.updateFailed
  repeat' (with_reducible first | assumption | apply State.abortJob_kept | apply State.updContext_kept)

theorem State.runUpdate_kept (s : State) (a1 : Nat) (a2 : MicroProgram) (h : Kept q s) : KeptFst q (State.runUpdate s a1 a2) := by
  unfold State.runUpdate
  repeat' first
    | (with_reducible first | assumption | refine State.readArrays_kept_eq ?_ (by assumption) | apply State.readArrays_kept | apply State.putBank_kept | apply State.storeImage_kept | apply KeptFst.fst)
    | (simp -zeta only [↓kept_mk, ↓keptFst_mk])
    | split
    | (extract_lets +onlyGivenNames x; refine have hx : Kept q x := ?_; ?_; rotate_left; clear_value x; rotate_right; unfold x)
    | (extract_lets +onlyGivenNames x; clear_value x)

theorem State.runUpdate_kept_eq {s : State} {a1 : Nat} {a2 : MicroProgram} {t : State} {y : Option (List Byte)} (k : KeptFst q (State.runUpdate s a1 a2)) (e : State.runUpdate s a1 a2 = (t, y)) : Kept q t := k.eq e

theorem State.withholdUpdate_kept (s : State) (a1 : Nat) (h : Kept q s) : KeptFst q (State.withholdUpdate s a1) := by
  unfold State.withholdUpdate
  repeat' first
    | (with_reducible first | assumption | apply State.readBank_kept | refine State.readArrays_kept_eq ?_ (by assumption) | apply State.readArrays_kept | apply State.storeImage_kept | apply KeptFst.fst)
    | (simp -zeta only [↓kept_mk, ↓keptFst_mk])
    | split
    | (extract_lets +onlyGivenNames x; clear_value x)

theorem State.withholdUpdate_kept_eq {s : State} {a1 : Nat} {t : State} {y : Option (List Byte)} (k : KeptFst q (State.withholdUpdate s a1)) (e : State.withholdUpdate s a1 = (t, y)) : Kept q t := k.eq e

theorem State.broadcastImage_kept (s : State) (a1 : Nat) (a2 : Nat) (a3 : List Byte) (h : Kept q s) : Kept q (State.broadcastImage s a1 a2 a3) := by
  unfold State.broadcastImage
  repeat' first
    | (with_reducible first | assumption | apply State.updContext_kept | apply State.forwardPair_kept | apply State.forwardDown_kept | apply foldl_kept)
    | intro _

theorem State.endUpdate_kept (s : State) (a1 : Nat) (a2 : Bool) (a3 : List Byte) (h : Kept q s) : Kept q (State.endUpdate s a1 a2 a3) := by
  unfold State.endUpdate
  repeat' first
    | (with_reducible first | assumption | apply State.updContext_kept | apply State.postCompany_kept | apply State.broadcastImage_kept)
    | (simp -zeta only [↓kept_mk])
    | (with_reducible refine Kept.fields ?_)
    | split
    | (extract_lets +onlyGivenNames x; refine have hx : Kept q x := ?_; ?_; rotate_left; clear_value x; rotate_right; unfold x)
    | (extract_lets +onlyGivenNames x; clear_value x)

theorem execUpdate_kept (a0 : Nat) (s : State) (h : Kept q s) : KeptAnswer q (execUpdate a0 s) := by
  unfold execUpdate
  repeat' first
    | (with_reducible first | assumption | apply State.throughExchange_kept | refine State.withholdUpdate_kept_eq ?_ (by assumption) | apply State.withholdUpdate_kept | apply State.endUpdate_kept | apply State.updateFailed_kept | refine State.runUpdate_kept_eq ?_ (by assumption) | apply State.runUpdate_kept)
    | (simp -zeta only [↓kept_mk, ↓keptFst_mk, ↓keptAnswer_next])
    | split
    | intro _
    | (extract_lets +onlyGivenNames x; clear_value x)

theorem State.scrubFoyer_kept (s : State) (a1 : Nat) (h : Kept q s) : Kept q (State.scrubFoyer s a1) := by
  unfold State.scrubFoyer
  repeat' first
    | (with_reducible first | assumption | apply State.countChip_kept | apply State.setUpset_kept | apply foldl_kept)
    | split
    | intro _
    | (extract_lets +onlyGivenNames x; refine have hx : Kept q x := ?_; ?_; rotate_left; clear_value x; rotate_right; unfold x)
    | (extract_lets +onlyGivenNames x; clear_value x)

theorem State.scrubBank_kept (s : State) (h : Kept q s) : Kept q (State.scrubBank s) := by
  unfold State.scrubBank
  repeat' first
    | (with_reducible first | assumption | apply State.scrubFoyer_kept | apply State.scrubUnit_kept | apply State.countChip_kept)
    | (simp -zeta only [↓kept_mk])
    | (with_reducible refine Kept.fields ?_)
    | intro _
    | (extract_lets +onlyGivenNames x; refine have hx : Kept q x := ?_; ?_; rotate_left; clear_value x; rotate_right; unfold x)
    | (extract_lets +onlyGivenNames x; clear_value x)

theorem execPatrolScrub_kept (a0 : Option CoreId) (s : State) (h : Kept q s) : KeptAnswer q (execPatrolScrub a0 s) := by
  unfold execPatrolScrub
  repeat' first
    | (with_reducible first | assumption | apply State.scrubBank_kept | apply State.scrubSlice_kept)
    | (simp -zeta only [↓kept_mk, ↓keptAnswer_next])
    | split

end Sys2Proof.Machine
end

