-- ==== Sys2Proof/Laws/KeptExec.lean ====
section
/-! SUPPORT. Every command answers a next state and keeps the bounds of a state, its fuses and its queue. -/
namespace Sys2Proof.Machine
variable {q : Unchanged}

/-- Whatever the command, it answers a next state within the bounds. -/
theorem exec_kept (i : Instr) (s : State) (h : Kept q s) : KeptAnswer q (exec i s) :=
  match i with
  | .seta core => execSeta_kept core s h
  | .adda core => execAdda_kept core s h
  | .setl core => execSetl_kept core s h
  | .loop core => execLoop_kept core s h
  | .waitOp core => execWaitOp_kept core s h
  | .nop core slot => execNop_kept core slot s h
  | .pass core => execPass_kept core s h
  | .passGroupLanding core => execPassGroupLanding_kept core s h
  | .strike core => execStrike_kept core s h
  | .dma core => execDma_kept core s h
  | .refresh core => execRefresh_kept core s h
  | .door core => execDoor_kept core s h
  | .send core => execSend_kept core s h
  | .recv core => execRecv_kept core s h
  | .call core => execCall_kept core s h
  | .actEndCheck core => execActEndCheck_kept core s h
  | .refreshMissed core => execRefreshMissed_kept core s h
  | .lateDelivery core => execLateDelivery_kept core s h
  | .streetUnitArrival core channel => execStreetUnitArrival_kept core channel s h
  | .linkUnitPass link => execLinkUnitPass_kept link s h
  | .handshakeWaitEnd core cycles => execHandshakeWaitEnd_kept core cycles s h
  | .forcedRefresh core => execForcedRefresh_kept core s h
  | .automaticRefresh core => execAutomaticRefresh_kept core s h
  | .actChoice company => execActChoice_kept company s h
  | .curtainHeld company => execCurtainHeld_kept company s h
  | .admission company => execAdmission_kept company s h
  | .admissionReevaluation company => execAdmissionReevaluation_kept company s h
  | .ballastHoldExpiry company => execBallastHoldExpiry_kept company s h
  | .ballastTaperEnd company => execBallastTaperEnd_kept company s h
  | .curtainUp company => execCurtainUp_kept company s h
  | .stopNotice core => execStopNotice_kept core s h
  | .companyHalted company => execCompanyHalted_kept company s h
  | .doorbell ring value => execDoorbell_kept ring value s h
  | .cplHeadWrite ring value => execCplHeadWrite_kept ring value s h
  | .counterClear channel counter => execCounterClear_kept channel counter s h
  | .registerWrite offset value => execRegisterWrite_kept offset value s h
  | .commandTake ring => execCommandTake_kept ring s h
  | .recordPost ring => execRecordPost_kept ring s h
  | .hello ring => execHello_kept ring s h
  | .setInterface ring => execSetInterface_kept ring s h
  | .queryDevice ring => execQueryDevice_kept ring s h
  | .deviceReset ring => execDeviceReset_kept ring s h
  | .formCompany ring => execFormCompany_kept ring s h
  | .disbandCompany ring => execDisbandCompany_kept ring s h
  | .resetCompany ring => execResetCompany_kept ring s h
  | .setMode ring => execSetMode_kept ring s h
  | .understudyPair ring => execUnderstudyPair_kept ring s h
  | .understudyPairTimeout company => execUnderstudyPairTimeout_kept company s h
  | .loadScript ring => execLoadScript_kept ring s h
  | .loadTables ring => execLoadTables_kept ring s h
  | .loadMicroprogramCores ring => execLoadMicroprogramCores_kept ring s h
  | .loadMicroprogramEngine ring => execLoadMicroprogramEngine_kept ring s h
  | .setCue ring => execSetCue_kept ring s h
  | .carriageIn ring => execCarriageIn_kept ring s h
  | .carriageOut ring => execCarriageOut_kept ring s h
  | .carriageUnitLanding carriage => execCarriageUnitLanding_kept carriage s h
  | .curtainUpAt ring => execCurtainUpAt_kept ring s h
  | .immediate ring => execImmediate_kept ring s h
  | .atCurtain ring => execAtCurtain_kept ring s h
  | .fabricConfig ring => execFabricConfig_kept ring s h
  | .loadPlan ring => execLoadPlan_kept ring s h
  | .loadDirectory ring => execLoadDirectory_kept ring s h
  | .setHouseBudget ring => execSetHouseBudget_kept ring s h
  | .run ring => execRun_kept ring s h
  | .interval ring => execInterval_kept ring s h
  | .dim ring => execDim_kept ring s h
  | .standby ring => execStandby_kept ring s h
  | .stateReached => execStateReached_kept s h
  | .dimWakeWave => execDimWakeWave_kept s h
  | .eventConfig ring => execEventConfig_kept ring s h
  | .eventRead ring => execEventRead_kept ring s h
  | .readFault ring => execReadFault_kept ring s h
  | .attest ring => execAttest_kept ring s h
  | .loadExtension ring => execLoadExtension_kept ring s h
  | .challenge ring => execChallenge_kept ring s h
  | .response ring => execResponse_kept ring s h
  | .lock ring => execLock_kept ring s h
  | .debugReadQuire ring => execDebugReadQuire_kept ring s h
  | .testPerturb ring => execTestPerturb_kept ring s h
  | .linkError slot => execLinkError_kept slot s h
  | .activate1 channel bank upper => execActivate1_kept channel bank upper s h
  | .activate2 channel bank lower => execActivate2_kept channel bank lower s h
  | .precharge channel bank => execPrecharge_kept channel bank s h
  | .prechargeAll channel => execPrechargeAll_kept channel s h
  | .read16 channel bank column overlap => execRead16_kept channel bank column overlap s h
  | .read32 channel bank column overlap => execRead32_kept channel bank column overlap s h
  | .write16 channel bank column data overlap => execWrite16_kept channel bank column data overlap s h
  | .write32 channel bank column data overlap => execWrite32_kept channel bank column data overlap s h
  | .maskedWrite channel bank column data mask overlap => execMaskedWrite_kept channel bank column data mask overlap s h
  | .modeRegisterWrite channel reg value => execModeRegisterWrite_kept channel reg value s h
  | .modeRegisterRead channel reg => execModeRegisterRead_kept channel reg s h
  | .cas channel op => execCas_kept channel op s h
  | .multiPurposeCommand channel op pattern => execMultiPurposeCommand_kept channel op pattern s h
  | .writeFifo channel data => execWriteFifo_kept channel data s h
  | .readFifo channel => execReadFifo_kept channel s h
  | .readDqCalibration channel => execReadDqCalibration_kept channel s h
  | .refreshAllBank channel => execRefreshAllBank_kept channel s h
  | .refreshPerBank channel bank => execRefreshPerBank_kept channel bank s h
  | .refreshManagement channel => execRefreshManagement_kept channel s h
  | .selfRefreshEntry channel => execSelfRefreshEntry_kept channel s h
  | .selfRefreshExit channel => execSelfRefreshExit_kept channel s h
  | .powerDownEntry channel => execPowerDownEntry_kept channel s h
  | .powerDownExit channel => execPowerDownExit_kept channel s h
  | .deepSleepEntry channel => execDeepSleepEntry_kept channel s h
  | .deepSleepExit channel => execDeepSleepExit_kept channel s h
  | .deselect channel => execDeselect_kept channel s h
  | .hostResetN level => execHostResetN_kept level s h
  | .channelInitialised channel => execChannelInitialised_kept channel s h
  | .powerOnReset => execPowerOnReset_kept s h
  | .resetN => execResetN_kept s h
  | .boot => execBoot_kept s h
  | .powerDown => execPowerDown_kept s h
  | .watchdog => execWatchdog_kept s h
  | .bottomTreeComplete => execBottomTreeComplete_kept s h
  | .wake pec => execWake_kept pec s h
  | .linkReset link pec => execLinkReset_kept link pec s h
  | .readVid pec => execReadVid_kept pec s h
  | .readTemp district pec => execReadTemp_kept district pec s h
  | .readState pec => execReadState_kept pec s h
  | .readSerial pec => execReadSerial_kept pec s h
  | .bypass tdi => execBypass_kept tdi s h
  | .idcode tdi => execIdcode_kept tdi s h
  | .samplePreload pins tdi => execSamplePreload_kept pins tdi s h
  | .extest pins tdi => execExtest_kept pins tdi s h
  | .temperatureReading readings => execTemperatureReading_kept readings s h
  | .vrHotN low => execVrHotN_kept low s h
  | .powerMeasurement watts => execPowerMeasurement_kept watts s h
  | .stretchLevelRise => execStretchLevelRise_kept s h
  | .stretchLevelFall => execStretchLevelFall_kept s h
  | .idle link frame => execIdle_kept link frame s h
  | .header link frame body => execHeader_kept link frame body s h
  | .flit link frame body => execFlit_kept link frame body s h
  | .rttProbe link frame body turnaround => execRttProbe_kept link frame body turnaround s h
  | .rttProbeTimer link fine => execRttProbeTimer_kept link fine s h
  | .rttReply link frame body fine => execRttReply_kept link frame body fine s h
  | .time link frame body => execTime_kept link frame body s h
  | .timeTimer link fine => execTimeTimer_kept link fine s h
  | .townSyncLost cause => execTownSyncLost_kept cause s h
  | .spareRequest link frame body => execSpareRequest_kept link frame body s h
  | .spareRequestTimer link => execSpareRequestTimer_kept link s h
  | .spareAck link frame body => execSpareAck_kept link frame body s h
  | .linkId link frame body => execLinkId_kept link frame body s h
  | .laneLoss link lane => execLaneLoss_kept link lane s h
  | .linkLost link => execLinkLost_kept link s h
  | .linkUp link => execLinkUp_kept link s h
  | .packetForward index => execPacketForward_kept index s h
  | .routeSwap => execRouteSwap_kept s h
  | .creditStarved company link vc => execCreditStarved_kept company link vc s h
  | .reduceUp link => execReduceUp_kept link s h
  | .shadowSample link => execShadowSample_kept link s h
  | .broadcastDown link => execBroadcastDown_kept link s h
  | .carriage link place => execCarriage_kept link place s h
  | .landed child job step epoch => execLanded_kept child job step epoch s h
  | .scene job step count epoch late => execScene_kept job step count epoch late s h
  | .sceneChange job => execSceneChange_kept job s h
  | .jobAbort job step => execJobAbort_kept job step s h
  | .contextTimeout context => execContextTimeout_kept context s h
  | .bucketTrigger context => execBucketTrigger_kept context s h
  | .bucketBufferRead context => execBucketBufferRead_kept context s h
  | .hop context => execHop_kept context s h
  | .shadowCheck context element => execShadowCheck_kept context element s h
  | .update context => execUpdate_kept context s h
  | .broadcastLanding context => execBroadcastLanding_kept context s h
  | .signatureExchange company sigs => execSignatureExchange_kept company sigs s h
  | .understudyPartnerStopped company => execUnderstudyPartnerStopped_kept company s h
  | .patrolScrub core => execPatrolScrub_kept core s h
  | .creditWithhold slot => execCreditWithhold_kept slot s h
  | .carriageAcknowledgement carriage => execCarriageAcknowledgement_kept carriage s h
  | .understudyPairExchange company role link rom extHashes scriptHash districts idle up free => execUnderstudyPairExchange_kept company role link rom extHashes scriptHash districts idle up free s h
  | .townRefEdge => execTownRefEdge_kept s h

end Sys2Proof.Machine
end

