-- ==== Sys2Proof/Laws/Reduction.lean ====
section
/-! SUPPORT. Carriages, arriving packets, sums at an owner, and the abort of a job. -/
set_option linter.all false
namespace Sys2Proof.Machine

theorem landUnit_foyer (s : State) (c : Carriage) (j : Nat) (d : List Byte) (h : c.out = true) :
    (s.landUnit c j d).mem = (s.putBytes .foyer (c.dest + 64 * j) (padTo 64 0 d)).mem := by
  unfold State.landUnit Carriage.to_
  simp only [h, if_true]
  obtain ⟨u, hu, _⟩ := (s.putBytes .foyer (c.dest + 64 * j) (padTo 64 0 d)).renewFoyer_spec (c.dest + 64 * j) 64
  rw [hu]

theorem finishCarriage_eq (s : State) (k : Carriage) : s.finishCarriage k = if k.moved < k.units then s
    else if k.destChip = 0xFFFF then s.endCarriage k (if k.fails = 0 then St.ok else St.uncorrectable) else s.putCarriage { k with remote := true } := by
  unfold State.finishCarriage
  by_cases h1 : k.moved < k.units <;> by_cases h2 : k.destChip = 0xFFFF <;> simp [h1, h2]

/-- The Exchange bank after an owner's sum of a flit: the 128 sums, and the sample state of a sampled element of it (R264, R266). -/
def State.ownerBank (s : State) (x : Nat) (qs : List Exact) : State :=
  let k := s.context x
  let e := s.sampleAt x (k.f0 / 32)
  let u := s.putBank (CtxRec.work k.record.toNat + 8 * k.f0) ((qs.map (roundPosit 32 .rne)).flatMap (toBytes 4))
  if e / 128 == k.f0 then u.noteSample x e else u

/-- R394: without an error of the Exchange bank's SRAM, what meets it runs. -/
theorem throughExchange_quiet {s : State} (h : ∀ e ∈ s.sram, State.exchangeWord e.1 = false) (f : State → State) : s.throughExchange f = f s := by
  have : s.sram.filter (fun e => State.exchangeWord e.1) = [] := by
    rw [List.filter_eq_nil_iff]; intro e he; rw [h e he]; decide
  unfold State.throughExchange State.sramErrors
  simp only [this, List.find?_nil, Option.map_none, List.countP_nil]
  rw [State.countChip_zero]

/-- R394: an uncorrectable error of the Exchange bank's SRAM is fatal to what meets it. -/
theorem throughExchange_error {s : State} {o n : Nat} (h : s.sramErrors State.exchangeWord = (some (.exchangeSram o), n)) (f : State → State) :
    s.throughExchange f = s.fatalFault 1 o := by
  unfold State.throughExchange; rw [h]

/-- Memory, its errors and the free values aside, a sample's state changes nothing. -/
theorem noteSample_mem (s : State) (x e : Nat) : ∃ m u n, s.noteSample x e = { s with mem := m, upsets := u, fresh := n } := by
  unfold State.noteSample
  dsimp only
  split
  · have h := writeUnit_mem { s with fresh := s.fresh + 1 } .exchange (64 * (CtxRec.work (s.context x).record.toNat +
      DirEntry.elements (s.bucketEntry x) / 16 + e / 4096)) ((List.range 64).map (Config.sampleByte s.fresh))
    exact ⟨_, _, _, h⟩
  · exact ⟨s.mem, s.upsets, s.fresh, rfl⟩

theorem State.hopOwner_spec (s : State) (x : Nat) (qs : List Exact) (k : Context) (f e : Nat) (hk : s.context x = k) (hf : k.f0 = f)
    (he : s.sampleAt x (f / 32) = e) :
    ∃ fr sm fn rt, s.hopOwner x qs = State.setContext
        { s.ownerBank x qs with fresh := fr } x { k with
          own := k.own.filter (fun o => o.1 != f), window := k.window.filter (fun w => w.2.1 != f), f0 := f + 1
          sums := if e / 128 == f then k.sums ++ [(e, qs.getD (e % 128) Exact.zero)] else k.sums
          samples := sm
          firstNar := fn
          narCount := k.narCount + ((List.range 128).filter (fun i => (qs.getD i Exact.zero).isNar)).length
          state := if f + 1 == DirEntry.flits (s.bucketEntry x) then .updating else k.state
          reduceTicks := rt } ∧
      fn = k.firstNar.or (((List.range 128).filter (fun i => (qs.getD i Exact.zero).isNar)).head?.map (128 * f + ·)) ∧
      ((f + 1 == DirEntry.flits (s.bucketEntry x)) = false → rt = k.reduceTicks) ∧
      (∀ a, (f + 1 == DirEntry.flits (s.bucketEntry x)) = true → k.trigger = some a → rt = s.now - a) := by
  unfold State.hopOwner
  rw [hk]
  dsimp only
  rw [hf, he]
  generalize hl : (f + 1 == DirEntry.flits (s.bucketEntry x)) = last
  generalize hn : (List.range 128).filter (fun i => (qs.getD i Exact.zero).isNar) = nars
  have hb : s.ownerBank x qs = if e / 128 == f then (s.putBank (CtxRec.work k.record.toNat + 8 * f) ((qs.map (roundPosit 32 .rne)).flatMap
      (toBytes 4))).noteSample x e else s.putBank (CtxRec.work k.record.toNat + 8 * f) ((qs.map (roundPosit 32 .rne)).flatMap (toBytes 4)) := by
    unfold State.ownerBank; rw [hk]; dsimp only; rw [hf, he]
  rw [hb]
  generalize (if e / 128 == f then (s.putBank (CtxRec.work k.record.toNat + 8 * f) ((qs.map (roundPosit 32 .rne)).flatMap
      (toBytes 4))).noteSample x e else s.putBank (CtxRec.work k.record.toNat + 8 * f) ((qs.map (roundPosit 32 .rne)).flatMap (toBytes 4))) = u
  by_cases h : (last && k.trigger.isNone) = true
  · rw [if_pos h]
    refine ⟨_, _, _, _, rfl, ?_, fun h => by rw [h]; rfl, fun a h e => by rw [h, e]; rfl⟩
    cases k.firstNar <;> cases nars <;> rfl
  · rw [if_neg h]
    refine ⟨u.fresh, _, _, _, rfl, ?_, fun h => by rw [h]; rfl, fun a h e => by rw [h, e]; rfl⟩
    cases k.firstNar <;> cases nars <;> rfl

theorem handleArrived_eq {s : State} {l type i : Nat} {p : Packet} {able : Packet → Bool} {take : State → Nat → Packet → State}
    (h : s.arrived l (s.meets type able) = some (i, p)) : s.handleArrived l type able take = match s.fate p with
      | .waits => s | .dropped c => (s.takeArrived l i).countChip c none 1
      | .malformed => (s.cutArrived l i).malformed l p
      | .taken => take (s.know p) i p := by
  unfold State.handleArrived
  simp only [h]
  try (cases s.fate p <;> rfl)

theorem takeArrived_mem (s : State) (l i : Nat) : (s.takeArrived l i).mem = s.mem ∧ (s.takeArrived l i).upsets = s.upsets := by
  unfold State.takeArrived State.release State.owe
  repeat' split
  all_goals exact ⟨rfl, rfl⟩

/-- Messages sent add to those sent and to the packets that wait. -/
theorem messages_spec (co : State → Nat) (l : List Nat) (z : State) (m : List Nat) :
    ∃ ps, l.foldl (fun s c => s.message (co s) c m) z = { z with messages := z.messages ++ l.map (fun c => (c, m)), outbox := z.outbox ++ ps } ∧
      ps.length = l.length := by
  induction l generalizing z with
  | nil => exact ⟨[], by simp, rfl⟩
  | cons a r ih =>
    obtain ⟨pk, hp⟩ : ∃ pk, z.message (co z) a m = { z with messages := z.messages ++ [(a, m)], outbox := z.outbox ++ [pk] } := ⟨_, rfl⟩
    obtain ⟨ps, h, hl⟩ := ih (z.message (co z) a m)
    refine ⟨pk :: ps, ?_, by rw [List.length_cons, hl]; rfl⟩
    rw [List.foldl_cons, h, hp]
    simp only [List.map_cons, List.append_assoc, List.singleton_append]

theorem sendScene_spec (s : State) (j step count epoch : Nat) : ∃ ms b, s.sendScene j step count epoch = { s with messages := ms, outbox := b } := by
  unfold State.sendScene
  obtain ⟨ps, h, _⟩ := messages_spec (fun s => s.jobCompany j) _ s [2, j, step, count, epoch]
  exact ⟨_, _, h⟩

/-- R244: what a job's due scene change does when its tick has come or its margin is 0. -/
theorem sceneTurn_due {z : State} {j step count epoch : Nat} (hd : (z.job j).due = some (step, count, epoch)) (hj : z.jobRuns j = true)
    (ht : count ≤ z.now ∨ z.noMargin j = true) (hq : ∀ e ∈ z.sram, State.exchangeWord e.1 = false) :
    z.sceneTurn j = if z.exponentsHere j then z.applyScene j step epoch else z := by
  have ht' : (decide (count ≤ z.now) || z.noMargin j) = true := by rw [Bool.or_eq_true, decide_eq_true_eq]; exact ht
  have hs : z.sceneDue j = if z.exponentsHere j then some (step, count, epoch) else none := by
    unfold State.sceneDue
    rw [hd]
    simp only [Option.filter_some, hj, ht', Bool.true_and]
  unfold State.sceneTurn
  rw [hs]
  cases z.exponentsHere j
  · rfl
  · simp only [if_true]
    exact throughExchange_quiet hq _

/-- A scene change that is neither due nor without margin waits. -/
theorem sceneTurn_waits {z : State} {j step count epoch : Nat} (hd : (z.job j).due = some (step, count, epoch))
    (ht : z.now < count) (hm : z.noMargin j = false) : z.sceneTurn j = z := by
  have hs : z.sceneDue j = none := by
    unfold State.sceneDue
    rw [hd]
    simp only [Option.filter_some, hm, decide_eq_false (Nat.not_le.mpr ht), Bool.or_false, Bool.and_false, Bool.false_and, Bool.false_eq_true, if_false]
  unfold State.sceneTurn
  rw [hs]

/-- `t` is `s` but for its links' credits: the same packets stand at each link. -/
def Owes (s t : State) : Prop := t = { s with links := t.links } ∧ ∀ l, (t.link l).input = (s.link l).input

theorem Owes.refl (s : State) : Owes s s := ⟨rfl, fun _ => rfl⟩

theorem Owes.trans {s t u : State} (h : Owes s t) (k : Owes t u) : Owes s u := ⟨by rw [k.1, h.1], fun l => (k.2 l).trans (h.2 l)⟩

theorem release_owes (s : State) (p : Packet) : Owes s (s.release p) := by
  unfold State.release
  split
  · exact Owes.refl s
  · refine ⟨by unfold State.owe; dsimp only; split <;> rfl, fun l => ?_⟩
    unfold State.owe State.updLink
    dsimp only
    split
    · rfl
    rw [State.link_setLink]
    split
    · subst_vars; rfl
    · rfl

theorem releases_owe (l : List Packet) (f : Packet → Packet) (s : State) : Owes s (l.foldl (fun s p => s.release (f p)) s) := by
  induction l generalizing s with
  | nil => exact Owes.refl s
  | cons p t ih => exact (release_owes s _).trans (ih _)

theorem dropJobPackets_spec (s : State) (j : Nat) : ∃ ls, s.dropJobPackets j = { s with
      links := ls, outbox := s.outbox.filter (fun p => !State.isJobPacket j p) } ∧
    ∀ l, l < 17 → (SMap.get {} ls l).input = (s.link l).input.filter (fun p => !State.isJobPacket j p) := by
  let go (s : State) (l : Nat) : State :=
    let mine := (s.link l).input.filter (State.isJobPacket j)
    let s := mine.foldl (fun s p => s.release { p with source := some l }) s
    if mine.isEmpty then s
    else s.updLink l (fun k => { k with input := k.input.filter (fun p => !State.isJobPacket j p) })
  have h1 : ∀ s l, go s l = { s with links := (go s l).links } ∧ ∀ i, ((go s l).link i).input =
      if i = l then (s.link i).input.filter (fun p => !State.isJobPacket j p) else (s.link i).input := by
    intro s l
    have h := releases_owe ((s.link l).input.filter (State.isJobPacket j)) (fun p => { p with source := some l }) s
    simp only [go]
    generalize List.foldl _ s _ = u at h
    split
    · rename_i he
      refine ⟨h.1, fun i => (h.2 i).trans ?_⟩
      split
      · subst_vars
        rw [eq_comm, List.filter_eq_self]
        intro p hp
        have : State.isJobPacket j p ≠ true := fun e => by
          have hm : p ∈ (s.link i).input.filter (State.isJobPacket j) := List.mem_filter.mpr ⟨hp, e⟩
          rw [List.isEmpty_iff.mp he] at hm; cases hm
        simpa using this
      · rfl
    · refine ⟨by rw [h.1]; rfl, fun i => ?_⟩
      unfold State.updLink
      rw [State.link_setLink]
      by_cases e : l = i
      · subst e; rw [if_pos rfl, if_pos rfl, ← h.2]
      · rw [if_neg e, if_neg (Ne.symm e), h.2]
  have h2 : ∀ (ls : List Nat) (s : State), ls.Nodup → (ls.foldl go s = { s with links := (ls.foldl go s).links } ∧ ∀ i, ((ls.foldl go s).link i).input =
      if i ∈ ls then (s.link i).input.filter (fun p => !State.isJobPacket j p) else (s.link i).input) := by
    intro ls
    induction ls with
    | nil => exact fun s _ => ⟨rfl, fun i => by simp⟩
    | cons l t ih =>
      intro s hn
      obtain ⟨a, b⟩ := ih (go s l) (List.nodup_cons.mp hn).2
      obtain ⟨c, d⟩ := h1 s l
      rw [List.foldl_cons]
      refine ⟨by rw [a, c], fun i => ?_⟩
      rw [b, d]
      by_cases e : i = l
      · subst e; simp [(List.nodup_cons.mp hn).1]
      · simp [e]
  obtain ⟨h3, h4⟩ := releases_owe (s.outbox.filter (State.isJobPacket j)) id s
  have hs : s.dropJobPackets j = (List.range 17).foldl go { (s.outbox.filter (State.isJobPacket j)).foldl (fun s p => s.release (id p)) s with
      outbox := ((s.outbox.filter (State.isJobPacket j)).foldl (fun s p => s.release (id p)) s).outbox.filter (fun p => !State.isJobPacket j p) } := rfl
  generalize List.foldl (fun s p => s.release (id p)) s _ = u at h3 h4 hs
  obtain ⟨h5, h6⟩ := h2 (List.range 17) { u with outbox := u.outbox.filter (fun p => !State.isJobPacket j p) } List.nodup_range
  rw [← hs] at h5 h6
  refine ⟨(s.dropJobPackets j).links, ?_, fun l hl => ?_⟩
  · rw [h5, h3]
  · have := h6 l
    rw [if_pos (List.mem_range.mpr hl)] at this
    exact this.trans (congrArg _ (h4 l))

theorem cancelContexts_spec (l : List Nat) (s : State) : ∃ cs, l.foldl State.cancelContext s = { s with contexts := cs } ∧
    (∀ x ∈ l, (SMap.get {} cs x).state = .cancelled ∧ (SMap.get {} cs x).window = [] ∧ (SMap.get {} cs x).own = []) ∧
    ∀ x, x ∉ l → SMap.get {} cs x = s.context x := by
  induction l generalizing s with
  | nil => exact ⟨s.contexts, rfl, by simp, fun _ _ => rfl⟩
  | cons a t ih =>
    obtain ⟨cs, h1, h2, h3⟩ := ih (s.cancelContext a)
    refine ⟨cs, by rw [List.foldl_cons, h1]; rfl, fun x hx => ?_, fun x hx => ?_⟩
    · by_cases ht : x ∈ t
      · exact h2 x ht
      · have : x = a := by rcases List.mem_cons.mp hx with e | e; exact e; exact absurd e ht
        subst this
        rw [h3 x ht]
        unfold State.cancelContext State.updContext
        dsimp only
        rw [State.context_setContext_same]
        exact ⟨rfl, rfl, rfl⟩
    · rw [h3 x (fun e => hx (by simp [e]))]
      exact State.context_setContext_other _ _ (fun e => hx (by simp [e]))

theorem spreadAbort_spec (s : State) (j step : Nat) (except : Option Nat) : ∃ ps,
    let told := match (s.job j).scene with
      | none => []
      | some t => ((if t.root = s.chipId then [] else [t.parent]) ++ t.children).filter (fun c => except != some c)
    s.spreadAbort j step except = { s with messages := s.messages ++ told.map (fun c => (c, [3, j, step])), outbox := s.outbox ++ ps } ∧
      ps.length = told.length := by
  unfold State.spreadAbort
  cases (s.job j).scene with
  | none => exact ⟨[], by simp⟩
  | some t =>
    simp only [beq_iff_eq]
    exact messages_spec (fun s => s.jobCompany j) _ _ _

/-- R345, R401: a carriage's units change memory and its errors only. -/
theorem landCarriage_mem (place : Nat) (us : List (Nat × List Byte)) (s : State) : ∃ ups, s.landCarriage place us = { s with
    mem := us.foldl (fun m u => Memory.writeBytes m (Space.base .foyer + (place + 64 * u.1)) u.2) s.mem, upsets := ups } := by
  unfold State.landCarriage
  induction us generalizing s with
  | nil => exact ⟨s.upsets, rfl⟩
  | cons u t ih =>
    obtain ⟨v, h1, _⟩ := (s.putBytes .foyer (place + 64 * u.1) u.2).renewFoyer_spec (place + 64 * u.1) 64
    obtain ⟨w, h2⟩ := ih ((s.putBytes .foyer (place + 64 * u.1) u.2).renewFoyer (place + 64 * u.1) 64)
    exact ⟨w, by rw [List.foldl_cons, h2, h1]; rfl⟩

/-- Bytes outside every unit written are unchanged. -/
theorem writeUnits_outside (b : Nat) (us : List (Nat × List Byte)) (m : Memory) (a : Nat)
    (h : ∀ u ∈ us, a < b + 64 * u.1 ∨ b + 64 * u.1 + u.2.length ≤ a) :
    Memory.read (us.foldl (fun m u => Memory.writeBytes m (b + 64 * u.1) u.2) m) a = Memory.read m a := by
  induction us generalizing m with
  | nil => rfl
  | cons u t ih =>
    rw [List.foldl_cons, ih _ (fun v hv => h v (by simp [hv]))]
    exact Memory.read_writeBytes_outside _ _ _ _ (h u (by simp))

/-- Units of 64 bytes at different numbers each read as written. -/
theorem writeUnits_at (b : Nat) (us : List (Nat × List Byte)) (m : Memory) (hn : (us.map (·.1)).Nodup) (hl : ∀ u ∈ us, u.2.length = 64) :
    ∀ u ∈ us, Memory.readBytes (us.foldl (fun m u => Memory.writeBytes m (b + 64 * u.1) u.2) m) (b + 64 * u.1) 64 = u.2 := by
  induction us generalizing m with
  | nil => intro u hu; cases hu
  | cons v t ih =>
    intro u hu
    rw [List.map_cons, List.nodup_cons] at hn
    rw [List.foldl_cons]
    rcases List.mem_cons.mp hu with rfl | ht
    · have h64 := hl u (by simp)
      have e : Memory.readBytes (Memory.writeBytes m (b + 64 * u.1) u.2) (b + 64 * u.1) 64 = u.2 := by
        have := Memory.readBytes_writeBytes_same m (b + 64 * u.1) u.2
        rw [h64] at this; exact this
      refine Eq.trans ?_ e
      apply List.ext_getElem (by simp)
      intro i h1 h2
      rw [Memory.getElem_readBytes, Memory.getElem_readBytes]
      refine writeUnits_outside b t _ _ fun w hw => ?_
      have hne : w.1 ≠ u.1 := fun e => hn.1 (e ▸ List.mem_map_of_mem hw)
      have := hl w (by simp [hw])
      rw [Memory.length_readBytes] at h2
      omega
    · exact ih _ hn.2 (fun w hw => hl w (by simp [hw])) u ht

/-- The units of a CARRIAGE packet are different ones of 64 bytes each. -/
theorem carriageUnits_spec (h : Nat) (d : List Byte) (hd : 256 ≤ d.length) :
    ((carriageUnits h d).map (·.1)).Nodup ∧ ∀ u ∈ carriageUnits h d, u.2.length = 64 := by
  unfold carriageUnits
  refine ⟨?_, fun u hu => ?_⟩
  · rw [List.map_map]
    refine List.Nodup.map_on (fun a _ b _ e => ?_) (List.nodup_range.filter _)
    simp only [Function.comp] at e; omega
  · obtain ⟨i, hi, rfl⟩ := List.mem_map.mp hu
    have := List.mem_range.mp (List.mem_filter.mp hi).1
    simp only [List.length_take, List.length_drop]; omega

end Sys2Proof.Machine
end

