-- ==== Sys2Proof/Laws/SMapExt.lean ====
section
/-! SUPPORT. Two sparse maps in canonical form that read alike are one list. -/
namespace Sys2Proof.SMap

variable {α : Type} [DecidableEq α]

/-- Two maps in canonical form that read alike are the same list: equal maps are equal data. -/
theorem canon_ext (d : α) (m n : SMap α) (hm : canon d m = true) (hn : canon d n = true) (h : ∀ i, get d m i = get d n i) : m = n := by
  have key : ∀ (m : SMap α), canon d m = true → ∀ i v, (i, v) ∈ m ↔ v ≠ d ∧ get d m i = v := by
    intro m hm i v
    rw [canon_iff] at hm
    induction m with
    | nil =>
      constructor
      · intro hm; cases hm
      · rintro ⟨hv, he⟩; exact absurd he.symm hv
    | cons q t ih =>
      obtain ⟨k, w⟩ := q
      obtain ⟨hp, hd⟩ := hm
      rw [List.pairwise_cons] at hp
      have ht := ih ⟨hp.2, fun p hx => hd p (by simp [hx])⟩
      have hw : w ≠ d := hd (k, w) (by simp)
      rw [get_cons]
      by_cases hk : k = i
      · subst hk
        simp only [List.mem_cons, Prod.mk.injEq, true_and, if_true]
        constructor
        · rintro (rfl | hmem)
          · exact ⟨hw, rfl⟩
          · exact absurd (hp.1 _ hmem) (Nat.lt_irrefl _)
        · rintro ⟨_, rfl⟩
          exact Or.inl rfl
      · rw [if_neg hk, List.mem_cons, ht]
        constructor
        · rintro (he | hr)
          · exact absurd (Prod.mk.inj he).1.symm hk
          · exact hr
        · exact Or.inr
  rw [canon_iff] at hm hn
  have hmem : ∀ p, p ∈ m ↔ p ∈ n := by
    rintro ⟨i, v⟩
    rw [key m ((canon_iff d m).mpr hm), key n ((canon_iff d n).mpr hn), h i]
  have asym : ∀ a b : Nat × α, a.1 < b.1 → b.1 < a.1 → a = b := fun a b hab hba => absurd (Nat.lt_trans hab hba) (Nat.lt_irrefl _)
  have hnd : ∀ {l : SMap α}, List.Pairwise (fun p q : Nat × α => p.1 < q.1) l → l.Nodup := fun hl =>
    hl.imp (fun hlt he => absurd (he ▸ hlt) (Nat.lt_irrefl _))
  exact List.Perm.eq_of_pairwise (fun a b _ _ => asym a b) hm.1 hn.1 ((List.perm_ext_iff_of_nodup (hnd hm.1) (hnd hn.1)).mpr hmem)

end Sys2Proof.SMap
end

