-- ==== Sys2Proof/WellFormed.lean ====
section
/-! DEFINITION. When a command's operands lie in the ranges the spec gives them. The machine gives every command a meaning,
well formed or not; an operand out of range names nothing, and such a command changes nothing. -/
namespace Sys2Proof

/-- R391: a logical core number. -/
def wfCore (c : CoreId) : Bool := decide (c < 2048)
/-- R113: a company number. -/
def wfCompany (c : Nat) : Bool := decide (c < 32)
/-- R322: a ring number: 0 the device ring, 1 to 32 the company rings. -/
def wfRing (r : Nat) : Bool := decide (r < 33)
/-- R302: an LPDDR channel. -/
def wfChannel (c : Nat) : Bool := decide (c < 4)
/-- R309: a bank of a channel. -/
def wfBank (b : Nat) : Bool := decide (b < 16)
/-- R309: a burst column of 16 beats. -/
def wfColumn (c : Nat) : Bool := decide (c < 64)
/-- R220: a Xasyn link. -/
def wfLink (l : LinkId) : Bool := decide (l < 16)
/-- R247: a job. -/
def wfJob (j : Nat) : Bool := decide (j < 256)
/-- R249: a reduction context. -/
def wfContext (c : Nat) : Bool := decide (c < 4096)

/-- The operands of a command lie in their ranges. An option of CAS above 2 and a code of a multi-purpose command above 4 stand for the encodings
that the standard reserves, which R305 ignores and counts. -/
def Instr.wf : Instr → Bool
  | .seta c | .adda c | .setl c | .loop c | .waitOp c | .pass c | .passGroupLanding c | .strike c | .dma c | .refresh c
  | .door c | .send c | .recv c | .call c | .actEndCheck c | .refreshMissed c | .lateDelivery c | .forcedRefresh c
  | .automaticRefresh c | .stopNotice c => wfCore c
  | .nop c slot => wfCore c && decide (slot < 5)
  | .streetUnitArrival c ch => wfCore c && decide (ch < 64)
  | .linkUnitPass _ => true
  | .handshakeWaitEnd c _ => wfCore c
  | .actChoice c | .curtainHeld c | .admission c | .admissionReevaluation c | .ballastHoldExpiry c | .ballastTaperEnd c
  | .curtainUp c | .companyHalted c | .understudyPairTimeout c | .understudyPartnerStopped c => wfCompany c
  | .doorbell r _ | .cplHeadWrite r _ => wfRing r
  | .counterClear c i => wfChannel c && decide (i < 5)
  | .registerWrite off _ => decide (off < 0x100000) && off % 8 == 0
  | .commandTake r | .recordPost r | .hello r | .setInterface r | .queryDevice r | .deviceReset r | .formCompany r
  | .disbandCompany r | .resetCompany r | .setMode r | .understudyPair r | .loadScript r | .loadTables r
  | .loadMicroprogramCores r | .loadMicroprogramEngine r | .setCue r | .carriageIn r | .carriageOut r | .curtainUpAt r
  | .immediate r | .atCurtain r | .fabricConfig r | .loadPlan r | .loadDirectory r | .setHouseBudget r | .run r
  | .interval r | .dim r | .standby r | .eventConfig r | .eventRead r | .readFault r | .attest r | .loadExtension r
  | .challenge r | .response r | .lock r | .debugReadQuire r | .testPerturb r => wfRing r
  | .carriageUnitLanding _ | .carriageAcknowledgement _ => true
  | .stateReached | .dimWakeWave | .hostResetN _ | .powerOnReset | .resetN | .boot | .powerDown
  | .watchdog | .bottomTreeComplete | .stretchLevelRise | .stretchLevelFall | .vrHotN _ | .townRefEdge | .routeSwap => true
  | .linkError slot | .creditWithhold slot => decide (slot < 16)
  | .activate1 c b u => wfChannel c && wfBank b && decide (u < 4)
  | .activate2 c b l => wfChannel c && wfBank b && decide (l < 16384)
  | .precharge c b | .refreshPerBank c b => wfChannel c && wfBank b
  | .prechargeAll c | .refreshAllBank c | .refreshManagement c | .selfRefreshEntry c | .selfRefreshExit c
  | .powerDownEntry c | .powerDownExit c | .deepSleepEntry c | .deepSleepExit c | .deselect c | .channelInitialised c | .readFifo c
  | .readDqCalibration c => wfChannel c
  | .read16 c b col _ => wfChannel c && wfBank b && wfColumn col
  | .read32 c b col _ => wfChannel c && wfBank b && wfColumn col && col % 2 == 0
  | .write16 c b col d _ => wfChannel c && wfBank b && wfColumn col && d.length == 32
  | .write32 c b col d _ => wfChannel c && wfBank b && wfColumn col && col % 2 == 0 && d.length == 64
  | .maskedWrite c b col d m _ => wfChannel c && wfBank b && wfColumn col && d.length == 32 && m.length == 32
  | .modeRegisterWrite c r _ | .modeRegisterRead c r => wfChannel c && decide (r < 256)
  | .cas c _ | .multiPurposeCommand c _ _ => wfChannel c
  | .writeFifo c d => wfChannel c && d.length == 32
  | .wake _ | .readVid _ | .readState _ | .readSerial _ => true
  | .linkReset l _ => wfLink l
  | .readTemp d _ => decide (d < 32)
  | .bypass _ | .idcode _ | .samplePreload _ _ | .extest _ _ => true
  | .temperatureReading rs => rs.length == 32
  | .powerMeasurement w => decide (w < 65536)
  | .idle l _ => wfLink l
  | .flit l _ b => wfLink l && b.length == 256
  | .header l _ b | .time l _ b | .spareRequest l _ b | .spareAck l _ b | .linkId l _ b => wfLink l && b.length == 32
  | .rttProbe l _ b _ | .rttReply l _ b _ => wfLink l && b.length == 32
  | .rttProbeTimer l f | .timeTimer l f => wfLink l && decide (f < 1024)
  | .townSyncLost cause => decide (1 ≤ cause) && decide (cause ≤ 3)
  | .spareRequestTimer l | .linkLost l | .linkUp l => wfLink l
  | .reduceUp l | .shadowSample l | .broadcastDown l => decide (l < 17)
  | .carriage l place => decide (l < 17) && decide (place < 2 ^ 26)
  | .laneLoss l lane => wfLink l && decide (lane < 9)
  | .packetForward _ => true
  | .creditStarved c l vc => wfCompany c && wfLink l && decide (vc < 4)
  | .landed child job _ _ => decide (child < 65536) && wfJob job
  | .scene job _ _ _ _ | .sceneChange job | .jobAbort job _ => wfJob job
  | .contextTimeout x | .bucketTrigger x | .bucketBufferRead x | .hop x | .shadowCheck x _ | .update x
  | .broadcastLanding x => wfContext x
  | .signatureExchange c _ | .understudyPairExchange c _ _ _ _ _ _ _ _ _ => wfCompany c
  | .patrolScrub none => true
  | .patrolScrub (some c) => wfCore c

end Sys2Proof
end

