-- ==== Sys2Proof/Tests/Slice0.lean ====
section
/-! SUPPORT. The model's own tests: an ill-formed command for each check of WellFormed, a few results computed by hand from the
spec's rules or given by the standards it names, and for each statement concrete states that meet its hypotheses. -/
namespace Sys2Proof.Tests
open Sys2Proof.Machine
set_option Elab.async false

/-! ### The spec's worked examples of number formats and ramps -/

/-- The examples of spec/02 at R23: 10, −0.125 and 2^18. -/
theorem test_posit_values : (posit 8 0x5A).le (.num 10 0) = true ∧ (Exact.num 10 0).le (posit 8 0x5A) = true ∧
    (posit 8 0xD8).le (.num (-1) (-3)) = true ∧ (Exact.num (-1) (-3)).le (posit 8 0xD8) = true ∧
    (posit 8 0x7D).le (.num 1 18) = true ∧ (Exact.num 1 18).le (posit 8 0x7D) = true := by decide +kernel
/-- The rounding table of spec/02: to nearest even beside to odd, and saturation at maxpos and minpos. -/
theorem test_posit_rounding : roundPosit 8 .rne (.num 17 (-4)) = 0x40 ∧ roundPosit 8 .odd (.num 17 (-4)) = 0x41 ∧
    roundPosit 8 .rne (.num 19 (-4)) = 0x42 ∧ roundPosit 8 .odd (.num 19 (-4)) = 0x41 ∧
    roundPosit 8 .rne (.num 69 (-6)) = 0x41 ∧ roundPosit 8 .odd (.num 69 (-6)) = 0x41 ∧
    roundPosit 8 .rne (.num 1 30) = 0x7F ∧ roundPosit 8 .rne (.num (-1) (-40)) = 0xFF := by decide +kernel
/-- The ramp example of spec/15: eight districts from 60 W to 140 W at 50 A/µs last 2,134 ticks. -/
theorem test_ramp_ticks : rampTicks 50000 8 (60 * 16) (140 * 16) = 2134 := by decide +kernel
/-- The standards' digests of "abc" (FIPS 180-4), the check value of CRC-32, and n·G = 0 on P-384 (FIPS 186-5). -/
theorem test_sha256_abc : ofBytesBE (sha256 [0x61, 0x62, 0x63]) = 0xBA7816BF8F01CFEA414140DE5DAE2223B00361A396177A9CB410FF61F20015AD := by decide +kernel
theorem test_sha384_abc : ofBytesBE (sha384 [0x61, 0x62, 0x63]) =
    0xCB00753F45A35E8BB5A03D699AC65007272C32AB0EDED1631A8B605A43FF5BED8086072BA1E7CC2358BAECA134C825A7 := by decide +kernel
theorem test_crc32 : crc32 [0x31, 0x32, 0x33, 0x34, 0x35, 0x36, 0x37, 0x38, 0x39] = 0xCBF43926 := by decide +kernel
theorem test_p384_order : (P384.times P384.n P384.base).z = 0 := by decide +kernel

/-! ### Ill-formed commands -/

theorem test_wf_core : (Instr.seta 2048).wf = false ∧ (Instr.seta 2047).wf = true := by decide
theorem test_wf_slot : (Instr.nop 0 5).wf = false ∧ (Instr.nop 0 4).wf = true := by decide
theorem test_wf_street_channel : (Instr.streetUnitArrival 0 64).wf = false := by decide
theorem test_wf_company : (Instr.curtainUp 32).wf = false ∧ (Instr.curtainUp 31).wf = true := by decide
theorem test_wf_ring : (Instr.doorbell 33 0).wf = false ∧ (Instr.hello 32).wf = true := by decide
theorem test_wf_counter : (Instr.counterClear 0 5).wf = false ∧ (Instr.counterClear 4 0).wf = false := by decide
theorem test_wf_register : (Instr.registerWrite 4 0).wf = false ∧ (Instr.registerWrite 0x100000 0).wf = false := by decide
theorem test_wf_perturb : (Instr.linkError 16).wf = false ∧ (Instr.creditWithhold 15).wf = true := by decide
theorem test_wf_activate : (Instr.activate1 0 0 4).wf = false ∧ (Instr.activate2 0 16 0).wf = false ∧ (Instr.activate2 0 0 16384).wf = false := by decide
theorem test_wf_channel : (Instr.prechargeAll 4).wf = false ∧ (Instr.channelInitialised 4).wf = false := by decide
theorem test_wf_bank : (Instr.precharge 0 16).wf = false := by decide
theorem test_wf_column : (Instr.read16 0 0 64 false).wf = false ∧ (Instr.read32 0 0 1 false).wf = false := by decide
theorem test_wf_burst : (Instr.write16 0 0 0 [] false).wf = false ∧ (Instr.write32 0 0 0 [] false).wf = false := by decide
theorem test_wf_mask : (Instr.maskedWrite 0 0 0 (List.replicate 32 0) [] false).wf = false := by decide
theorem test_wf_mode_register : (Instr.modeRegisterRead 0 256).wf = false ∧ (Instr.cas 4 0).wf = false ∧ (Instr.cas 0 7).wf = true := by decide
theorem test_wf_training : (Instr.multiPurposeCommand 4 0 0).wf = false ∧ (Instr.writeFifo 0 []).wf = false := by decide
theorem test_wf_link : (Instr.linkReset 16 true).wf = false ∧ (Instr.linkUp 16).wf = false := by decide
theorem test_wf_temperature : (Instr.readTemp 32 true).wf = false ∧ (Instr.temperatureReading []).wf = false := by decide
theorem test_wf_power : (Instr.powerMeasurement 65536).wf = false := by decide
theorem test_wf_frame : (Instr.header 0 0 []).wf = false ∧ (Instr.flit 0 0 []).wf = false ∧ (Instr.rttProbe 0 0 [] 0).wf = false := by decide
theorem test_wf_fine : (Instr.timeTimer 0 1024).wf = false := by decide
theorem test_wf_cause : (Instr.townSyncLost 0).wf = false ∧ (Instr.townSyncLost 4).wf = false := by decide
theorem test_wf_lane : (Instr.laneLoss 0 9).wf = false := by decide
theorem test_wf_carriage : (Instr.carriage 0 (2 ^ 26)).wf = false := by decide
theorem test_wf_vc : (Instr.creditStarved 0 0 4).wf = false := by decide
theorem test_wf_job : (Instr.landed 0 256 0 0).wf = false ∧ (Instr.landed 65536 0 0 0).wf = false ∧ (Instr.jobAbort 256 0).wf = false := by decide
theorem test_wf_context : (Instr.hop 4096).wf = false := by decide
theorem test_wf_scrub : (Instr.patrolScrub (some 2048)).wf = false ∧ (Instr.patrolScrub none).wf = true := by decide

/-! ### Small states -/

/-- A chip that runs: the boot is over and the interface selected. -/
def on : State := { State.reset with power := .run, ready := true, interface := 0x10 }

/-- A script of one act of 100 scheduled cycles over eight rows. -/
def hundred : Script := { hash := 0, rows := 8, acts := [BitVec.ofNat 512 (100 * 2 ^ 32)], profiles := [none], blocks := [] }

/-- A chip whose company 0 holds district 0 and runs that act, with core 3 as given. -/
def withCore (k : Core) : State :=
  { on with cores := [(3, k)], companies := [(0, { mode := .running, districts := 1, script := some hundred })] }

/-- A core that runs a block of one bundle. -/
def core1 (b : BitVec 256) : Core := { run := .running, code := [b] }

/-- A bundle from its five slots (R118). -/
def bundle (control array dma street row : Nat) : BitVec 256 :=
  BitVec.ofNat 256 (control * 2 ^ 224 + array * 2 ^ 160 + dma * 2 ^ 96 + street * 2 ^ 48 + row)

theorem due_of {s : State} {c : Nat} (h : ((s.core c).run == .running && (s.core c).phase == 0 && decide ((s.core c).bundle < (s.core c).code.length) &&
    (s.core c).cycle == (s.core c).issueAt && decide ((s.core c).issueAt < s.scheduledCycles c) && s.streetBlock c 0 == none && decide ((s.core c).cadence < 2497) && s.bundleFault c == none) = true) :
    BundleDue s c := by
  simp only [Bool.and_eq_true, beq_iff_eq, decide_eq_true_eq] at h
  obtain ⟨⟨⟨⟨⟨⟨⟨h1, h2⟩, h3⟩, h4⟩, h8⟩, h5⟩, h6⟩, h7⟩ := h
  exact ⟨h1, h2, h3, h4, h8, h5, h6, h7⟩

theorem slot_of {s : State} {c i op : Nat} (h : ((s.core c).run == .running && (s.core c).phase == i && decide ((s.core c).bundle < (s.core c).code.length) &&
    Bundle.op (s.core c).dueBundle i == op) = true) : SlotDue s c i op := by
  simp only [Bool.and_eq_true, beq_iff_eq, decide_eq_true_eq] at h
  obtain ⟨⟨⟨h1, h2⟩, h3⟩, h4⟩ := h
  exact ⟨h1, h2, h3, h4⟩

/-! ### The slots of a bundle -/

theorem test_due_nop : BundleDue (withCore (core1 0)) 3 := due_of (by decide +kernel)
theorem test_due_seta : BundleDue (withCore (core1 (bundle (1 * 2 ^ 27 + 5 * 2 ^ 22 + 7) 0 0 0 0))) 3 := due_of (by decide +kernel)
theorem test_due_adda : BundleDue (withCore (core1 (bundle (2 * 2 ^ 27 + 5 * 2 ^ 22 + 6 * 2 ^ 17 + 0x1FFFF) 0 0 0 0))) 3 := due_of (by decide +kernel)
theorem test_due_setl : BundleDue (withCore (core1 (bundle (3 * 2 ^ 27 + 7 * 2 ^ 24 + 2) 0 0 0 0))) 3 := due_of (by decide +kernel)
theorem test_due_wait : BundleDue (withCore (core1 (bundle (5 * 2 ^ 27 + 9) 0 0 0 0))) 3 := due_of (by decide +kernel)
/-- LOOP with counter 0 over bundle 1, its counter zero and not zero. -/
theorem test_due_loop : BundleDue (withCore { run := .running, code := [bundle (4 * 2 ^ 27 + 1 * 2 ^ 15) 0 0 0 0, 0] }) 3 ∧
    BundleDue (withCore { run := .running, code := [bundle (4 * 2 ^ 27 + 1 * 2 ^ 15) 0 0 0 0, 0], l := [(0, 3)] }) 3 :=
  ⟨due_of (by decide +kernel), due_of (by decide +kernel)⟩
/-- ADDA with the immediate −1 takes one from the register. -/
theorem test_adda_minus_one : (match exec (.adda 3) (withCore { core1 (bundle (2 * 2 ^ 27 + 5 * 2 ^ 22 + 6 * 2 ^ 17 + 0x1FFFF) 0 0 0 0) with a := [(6, 10)] }) with
    | .next t => (t.core 3).writes | _ => []) = [(5, 9)] := by decide +kernel

/-! ### Slots 1 to 4 -/

/-- Core 3 with slot `i` of its bundle due. -/
def atSlot (i : Nat) (b : BitVec 256) : State := withCore { core1 b with phase := i }

/-- PASS in posit8, slot 4, 16 steps, from A1 and A2, both advanced (R126). -/
def passSlot : Nat := 2 ^ 60 + 2 ^ 58 + 4 * 2 ^ 54 + 16 * 2 ^ 37 + 1 * 2 ^ 32 + 2 * 2 ^ 27 + 2 ^ 26 + 2 ^ 25

theorem test_slot_array : SlotDue (atSlot 1 0) 3 1 0 ∧ SlotDue (atSlot 1 (bundle 0 passSlot 0 0 0)) 3 1 1 ∧
    SlotDue (atSlot 1 (bundle 0 (2 * 2 ^ 60 + 4 * 2 ^ 54) 0 0 0)) 3 1 2 :=
  ⟨slot_of (by decide +kernel), slot_of (by decide +kernel), slot_of (by decide +kernel)⟩

/-- R126: the pass advances A1 by 4·K·n and A2 by 4·K·n words' bytes over the full width. -/
theorem test_pass_advances : (match exec (.pass 3) (atSlot 1 (bundle 0 passSlot 0 0 0)) with
    | .next t => ((t.core 3).writes, (t.core 3).phase, (t.core 3).flights.length) | _ => ([], 0, 0)) = ([(1, 512), (2, 512)], 2, 1) := by decide +kernel

/-- A descriptor of one row of 16 posit8 elements, to the stage store (0) or to the slice (1). -/
def desc1 (toSlice : Nat) : BitVec 256 := BitVec.ofNat 256 (toSlice + 16 * 2 ^ 80 + 2 ^ 96 + 2 ^ 112)

/-- Core 3 with its DMA slot due and one descriptor. -/
def atDma (d : BitVec 256) (op : Nat) : State := withCore { core1 (bundle 0 0 (op * 2 ^ 60) 0 0) with phase := 2, descs := [d] }

theorem test_slot_dma : SlotDue (atDma 0 0) 3 2 0 ∧ SlotDue (atDma 0 1) 3 2 1 ∧ SlotDue (atDma 0 2) 3 2 2 ∧ SlotDue (atDma 0 3) 3 2 3 :=
  ⟨slot_of (by decide +kernel), slot_of (by decide +kernel), slot_of (by decide +kernel), slot_of (by decide +kernel)⟩
theorem test_dma_units : max (Dma.sliceUnits 0) (Dma.storeUnits 0) = 0 ∧ max (Dma.sliceUnits (desc1 1).toNat) (Dma.storeUnits (desc1 1).toNat) = 1 ∧
    (desc1 1).toNat.testBit 0 = true ∧ max (Dma.sliceUnits (desc1 0).toNat) (Dma.storeUnits (desc1 0).toNat) = 1 ∧ (desc1 0).toNat.testBit 0 = false ∧
    SlotDue (atDma (desc1 1) 1) 3 2 1 ∧ SlotDue (atDma (desc1 0) 1) 3 2 1 :=
  ⟨by decide +kernel, by decide +kernel, by decide +kernel, by decide +kernel, by decide +kernel, slot_of (by decide +kernel), slot_of (by decide +kernel)⟩
/-- R104: a door to the slice with capacity 3 holds the path 12 cycles, one to the stage store 7. -/
theorem test_door_busy : (match exec (.door 3) (atDma 0 3) with | .next t => (t.core 3).dmaFree | _ => 0) = 8 := by decide +kernel

/-- A company whose core 3 sends on channel 2 to core 4 (one EAST hop) in slot-table entry 0, every cycle. -/
def sending (slots : List (BitVec 192)) (k : Core) : State :=
  let plan : Cue SignalPlan := ⟨{ channels := [(3 * 64 + 2, 1 + 2 * 2 ^ 32)], slots := slots }, {}, false, false, none⟩
  { withCore k with companies := [(0, { mode := .running, districts := 1, plan := plan })] }

theorem test_slot_street : SlotDue (atSlot 3 0) 3 3 0 ∧ SlotDue (atSlot 3 (bundle 0 0 0 (2 * 2 ^ 45) 0)) 3 3 2 :=
  ⟨slot_of (by decide +kernel), slot_of (by decide +kernel)⟩
/-- A SEND of two units on a channel without windows for its route, and one of no units. -/
theorem test_slot_send : SlotDue (sending [] { core1 (bundle 0 0 0 (2 ^ 45 + 2 * 2 ^ 39 + 2 * 2 ^ 21) 0) with phase := 3 }) 3 3 1 ∧
    SlotDue (sending [] { core1 (bundle 0 0 0 (2 ^ 45 + 2 * 2 ^ 39) 0) with phase := 3 }) 3 3 1 ∧
    (sending [] { core1 (bundle 0 0 0 (2 ^ 45 + 2 * 2 ^ 39 + 2 * 2 ^ 21) 0) with phase := 3 }).stampsFit 3 2 0 2 = false ∧
    (sending [] { core1 (bundle 0 0 0 (2 ^ 45 + 2 * 2 ^ 39) 0) with phase := 3 }).stampsFit 3 2 0 0 = true :=
  ⟨slot_of (by decide +kernel), slot_of (by decide +kernel), by decide +kernel, by decide +kernel⟩

theorem test_slot_row : SlotDue (atSlot 4 0) 3 4 0 ∧ SlotDue (atSlot 4 (bundle 0 0 0 0 (2 ^ 45 + 2 ^ 20 + 16))) 3 4 1 ∧
    SlotDue (atSlot 4 (bundle 0 0 0 0 (2 ^ 45 + 2 ^ 20))) 3 4 1 ∧ (((atSlot 4 0).core 3).program 0).isSome = true :=
  ⟨slot_of (by decide +kernel), slot_of (by decide +kernel), slot_of (by decide +kernel), by decide +kernel⟩

/-! ### Streets and handshakes -/

/-- One unit from core 3 to core 4 at the link it has yet to pass, and one that has passed it. -/
def unitAt : StreetUnit := { sender := 3, channel := 2, receiver := 4, rchannel := 0, stamp := 1, links := [(50, 0)], data := [] }
theorem test_unit_passes : { on with street := [unitAt] }.nextOnLink 50 = some 0 := by decide +kernel
/-- It arrives in a buffer with room, in one whose word is in error, and in a full one; then the holding stage it takes is empty. -/
theorem test_unit_arrives : let u : StreetUnit := { unitAt with links := [], last := [(50, 0)] }; let s : State := { on with street := [u] }
    let hurt : State := { s with sram := [(.street 4 0, 2)] }
    let full : State := { s with cores := [(4, { inbox := List.replicate 4 ⟨0, 0, []⟩ })] }
    (((List.range s.street.length).zip s.street).find? (fun p => p.2.links.isEmpty && p.2.receiver == 4 && p.2.rchannel == 0) = some (0, u) ∧
      s.untaken 4 0 < 4 ∧ ∀ e ∈ s.sram, e.1 ≠ .street 4 0) ∧
    (hurt.untaken 4 0 < 4 ∧ ∃ e ∈ hurt.sram, e.1 = .street 4 0) ∧
    4 ≤ full.untaken 4 0 ∧ ∀ v ∈ full.street, v.sender = u.sender → v.channel = u.channel → ∀ l ∈ u.last, v.standsAt l.1 = false := by decide +kernel

/-- A core frozen in cycle 5 in a RECV of channel 2: with its unit due by then, with its unit due two cycles later, and without one. -/
def frozenCore (inbox : List Arrived) : Core :=
  { run := .frozen false 2, cycle := 5, inbox := inbox, bundle := 1, issued := 1
    flights := [.recv { channel := 2, store := 0, units := 1, issue := 3, done := 0, bundle := 0 }] }
theorem test_handshake_ready : let s := withCore (frozenCore [⟨2, 5, []⟩]); let t := withCore (frozenCore [⟨2, 7, []⟩])
    ((s.core 3).run = .frozen false 2 ∧ s.companyOf 3 = some 0 ∧ s.streetBlock 3 0 = none) ∧
    (t.core 3).run = .frozen false 2 ∧ t.companyOf 3 = some 0 ∧ t.streetBlock 3 1 ≠ none ∧ t.streetBlock 3 2 = none := by decide +kernel
theorem test_handshake_late : let s := withCore (frozenCore [])
    (s.core 3).run = .frozen false 2 ∧ s.companyOf 3 = some 0 ∧ s.streetBlock 3 (2 ^ 20 - (s.core 3).frozenFor) ≠ none := by decide +kernel
/-- R97: the record names the bundle of the RECV that waits, not the bundle due. -/
theorem test_late_bundle : (match exec (.lateDelivery 3) (withCore (frozenCore [])) with
    | .next t => ((t.core 3).issued, (t.core 3).run, (t.company 0).faults) | _ => (9, .idle, 0)) = (0, .stopped, 1) := by decide +kernel

/-! ### Outside bundles -/

def late (k : Core) : State := { withCore k with town := { count := 5000 } }
theorem test_forced_due : let s := late { run := .running, lastRefresh := 4000 }
    (s.core 3).run = .running ∧ s.companyOf 3 = some 0 ∧ (s.core 3).lastRefresh + 1000 ≤ s.now := by decide +kernel
theorem test_automatic_due : let s := late { run := .idle }; let t := late { run := .ended }
    ((s.core 3).run = .idle ∧ s.coreExists 3 = true ∧ s.power = .run ∧ s.fatal = false) ∧ (t.core 3).run = .ended := by decide +kernel
theorem test_missed_due : let s := withCore { core1 0 with cadence := 2497 }
    (s.core 3).run = .running ∧ (s.core 3).phase = 0 ∧ (s.core 3).cadence = 2497 ∧ (s.core 3).cycle ≤ s.cycleLimit 3 ∧ s.streetBlock 3 0 = none := by
  decide +kernel

/-- A company of one act of `n` scheduled cycles whose script grid is districts 0's cores; cores 3 and the rest as given. -/
def acting (n : Nat) (k : Core) (others : CoreRun) : State :=
  let script : Script := { hash := 0, rows := 8, acts := [BitVec.ofNat 512 (n * 2 ^ 32)], profiles := [none], blocks := [] }
  { on with
    companies := [(0, { mode := .running, districts := 1, script := some script })]
    cores := (List.range 64).map (fun i => (i, if i == 3 then k else { run := others })) }
/-- Core 3 at the end of an act of one cycle, its block issued, with another core running and with all the others ended. -/
theorem test_core_ends : let k : Core := { run := .running, cycle := 1 }; let s := acting 1 k .running; let t := acting 1 k .ended
    ((s.core 3).cycle = s.scheduledCycles 3 ∧ (s.core 3).cadence < 2497 ∧ (s.core 3).code.length ≤ (s.core 3).bundle ∧ (s.core 3).flights = [] ∧ (s.core 3).completed < (s.core 3).cycle ∧
      s.companyOf 3 = some 0 ∧ 4 ∈ s.scriptCores 0 ∧ (s.core 4).run ≠ .ended) ∧
    (t.core 3).cycle = t.scheduledCycles 3 ∧ (∀ d ∈ t.scriptCores 0, d ≠ 3 → (t.core d).run = .ended) ∧ (t.company 0).stopping = false := by
  decide +kernel
/-- A core at its act's end with a bundle still to issue. -/
theorem test_core_overruns : let s := acting 1 { run := .running, cycle := 1, issueAt := 1, code := [0] } .running
    (s.core 3).cycle = s.scheduledCycles 3 ∧ (s.core 3).cadence < 2497 ∧ (s.core 3).bundle < (s.core 3).code.length ∧ (s.core 3).cycle ≤ (s.core 3).issueAt := by decide +kernel
/-- A pass whose first group lands in the next cycle. -/
theorem test_group_lands : let p : PassFlight := { n := 8, slot := 4, accumulate := false, k := 4, col0 := 0, cols := 16, aSrc := 0, bSrc := 0,
                                                   trapLapse := false, trapOverflow := false, issue := 0, prog := 4, aRead := [], bRead := [] }
    let s := acting 100 { run := .running, cycle := 5, flights := [.pass p] } .running
    (s.core 3).cycle < s.cycleLimit 3 ∧ (s.core 3).passing = true ∧ (s.core 3).landsNow = true := by decide +kernel

/-! ### Ring commands -/

/-- The word of a slot (R329): opcode, company, data block length and body fields as (offset, value); interface version 0x10, tag 7. -/
def slotWord (op company len : Nat) (body : List (Nat × Nat)) : Nat :=
  op + (if op ≤ 2 then 0 else 0x10) * 2 ^ 16 + len * 2 ^ 32 + 7 * 2 ^ 64 + company * 2 ^ 96 + (body.map (fun p => p.2 * 2 ^ (256 + 8 * p.1))).sum

/-- `s` with a command taken on a ring, and the bytes of its data block at the bottom of the foyer. -/
def command (s : State) (ring w : Nat) (data : List (Nat × Byte) := []) : State :=
  let k : Ring := { state := .opened, taken := [{ bytes := toBytes 128 w }] }
  { s with rings := if ring == 0 then [(0, k)] else [(0, { state := .opened }), (ring, k)], mem := data }

theorem serving_of {s : State} {r w : Nat} {t : Sheet} {mine : Nat → Bool}
    (h : ((match s.current r with | some c => c.word == w | none => false) && s.ready && Cmd.opcode w == t.opcode && mine w && !Cmd.fence w &&
      (s.checkCommand r w t).isNone) = true) : Serving s r w t mine := by
  simp only [Bool.and_eq_true, beq_iff_eq, Bool.not_eq_true', Option.isNone_iff_eq_none] at h
  obtain ⟨⟨⟨⟨⟨h1, h2⟩, h3⟩, h4⟩, h5⟩, h6⟩ := h
  refine ⟨?_, h2, h3, h4, .inl h5, h6⟩
  cases hc : s.current r with
  | none => simp [hc] at h1
  | some c => exact ⟨c, rfl, by simpa [hc] using h1⟩

/-- A chip with company 0 idle on district 0. -/
def formed (k : Company) : State := { on with companies := [(0, { k with mode := .idle, districts := 1 })] }

theorem test_serving_hello : Serving (command on 0 (slotWord 1 0 0 [])) 0 (slotWord 1 0 0 []) helloSheet := serving_of (by decide +kernel)
theorem test_serving_set_interface : Serving (command on 0 (slotWord 2 0 0 [(0, 0x10)])) 0 (slotWord 2 0 0 [(0, 0x10)]) setInterfaceSheet :=
  serving_of (by decide +kernel)
/-- The least budget that R355 admits. -/
theorem test_serving_budget : let w := slotWord 0x60 0 0 [(0, 100), (4, 100), (8, 1)]
    Serving (command on 0 w) 0 w setHouseBudgetSheet := serving_of (by decide +kernel)
theorem test_serving_read_fault : let w := slotWord 0x72 0 0 [(0, 1), (4, 0)]; let s := command { on with log := { records := [5], next := 1 } } 0 w
    let v := slotWord 0x72 0 0 []; let t := command (formed { log := { records := [5], next := 1 } }) 1 v
    Serving s 0 w readFaultSheet ∧ s.log.find 0 ≠ none ∧ Serving t 1 v readFaultSheet ∧ (t.company 0).log.find 0 ≠ none :=
  ⟨serving_of (by decide +kernel), by decide +kernel, serving_of (by decide +kernel), by decide +kernel⟩
theorem test_serving_query : let w := slotWord 3 0 4096 []; Serving (command on 0 w) 0 w queryDeviceSheet := serving_of (by decide +kernel)
theorem test_serving_event_read : let w := slotWord 0x71 0 8 [(0, 2), (4, 1)]; let v := slotWord 0x71 0 8 [(0, 2), (1, 1), (4, 1)]
    Serving (command on 0 w) 0 w eventReadSheet ∧ Serving (command on 0 v) 0 v eventReadSheet :=
  ⟨serving_of (by decide +kernel), serving_of (by decide +kernel)⟩
theorem test_serving_read_quire : let w := slotWord 0x91 0 (256 * 72) [(2, 12)]; let s := command { on with scope := 1 } 0 w
    Serving s 0 w debugReadQuireSheet := serving_of (by decide +kernel)

theorem test_serving_event_config :
    let core := slotWord 0x70 0 0 [(2, 3), (8, 1)]; let district := slotWord 0x70 0 0 [(0, 1), (1, 7), (8, 1)]
    let chip := slotWord 0x70 0 0 [(0, 2), (1, 63), (8, 0x40), (9, 0xFF)]; let cal := slotWord 0x70 0 0 [(0, 3), (1, 15), (2, 3)]
    let chipCal := slotWord 0x70 0 0 [(0, 4), (1, 63)]; let watch := slotWord 0x70 0 0 [(0, 5), (8, 1000)]
    let quiet (w : Nat) : Prop := Serving (command (formed {}) 0 w) 0 w eventConfigSheet
    let busy (w : Nat) : Prop := Serving (command (withCore {}) 0 w) 0 w eventConfigSheet
    quiet core ∧ quiet district ∧ quiet chip ∧ quiet cal ∧ quiet chipCal ∧ quiet watch ∧ busy core ∧ busy district ∧ busy cal :=
  ⟨serving_of (by decide +kernel), serving_of (by decide +kernel), serving_of (by decide +kernel), serving_of (by decide +kernel),
    serving_of (by decide +kernel), serving_of (by decide +kernel), serving_of (by decide +kernel), serving_of (by decide +kernel),
    serving_of (by decide +kernel)⟩
theorem test_event_config_quiet : ((formed {}).companyOf 3 = some 0 ∧ (formed {}).inAct 0 = false) ∧
    (withCore {}).companyOf 3 = some 0 ∧ (withCore {}).inAct 0 = true := by decide +kernel
theorem test_serving_perturb : let w := slotWord 0x92 0 0 [(0, 5), (1, 15), (5, 2), (6, 1), (8, 1), (12, 1)]
    Serving (command { on with scope := 2, links := [(2, { enabled := true })] } 0 w) 0 w testPerturbSheet := serving_of (by decide +kernel)

theorem test_serving_form : let w := slotWord 0x10 31 0 [(0, 2 ^ 31)]; Serving (command on 0 w) 0 w formCompanySheet := serving_of (by decide +kernel)
theorem test_serving_disband : let w := slotWord 0x11 0 0 []; Serving (command (formed {}) 0 w) 0 w disbandCompanySheet ∧ ((formed {}).company 0).pair = none :=
  ⟨serving_of (by decide +kernel), by decide +kernel⟩
theorem test_serving_reset : let w := slotWord 0x12 0 0 []; let s := command (formed {}) 1 w
    Serving s 1 w resetCompanySheet (fun w => s.betweenBundles (Cmd.company w)) ∧ s.companyIdle 0 = true ∧ (s.company 0).pair = none :=
  ⟨serving_of (by decide +kernel), by decide +kernel, by decide +kernel⟩
theorem test_serving_set_mode : let w := slotWord 0x13 0 0 [(0, 1), (8, 5), (16, 9)]; Serving (command (formed {}) 1 w) 1 w setModeSheet :=
  serving_of (by decide +kernel)

def script0 : Script := { hash := 0, rows := 8, acts := [0], profiles := [none], blocks := [] }
theorem test_serving_curtain : let w := slotWord 0x40 0 0 [(0, 1000), (8, 1)]; let v := slotWord 0x40 0 0 [(0, 1000)]
    Serving (command (formed { script := some script0 }) 1 w) 1 w curtainUpAtSheet ∧ Serving (command (formed { script := some script0 }) 1 v) 1 v curtainUpAtSheet :=
  ⟨serving_of (by decide +kernel), serving_of (by decide +kernel)⟩
theorem test_serving_halt_now : let w := slotWord 0x41 0 0 []; let s := command (withCore { run := .idle }) 1 w
    Serving s 1 w (haltSheet haltNow) (fun w => Cmd.field w 0 1 != 1 && s.betweenBundles (Cmd.company w)) ∧ s.companyIdle 0 = false :=
  ⟨serving_of (by decide +kernel), by decide +kernel⟩
/-- HALT_COMPANY AT_CURTAIN to an idle, a launched and a running company, and to one past its choice. -/
theorem test_serving_halt_later : let w := slotWord 0x41 0 0 [(0, 1)]
    let halt (mode : CompanyMode) (at_ : CurtainStep) : State := command { on with companies := [(0, { mode := mode, districts := 1, at_ := at_ })] } 1 w
    (Serving (halt .idle .none) 1 w (haltSheet haltAtCurtain) (fun w => Cmd.field w 0 1 == 1) ∧ (halt .idle .none).companyIdle 0 = true) ∧
    (Serving (halt .launched .choice) 1 w (haltSheet haltAtCurtain) (fun w => Cmd.field w 0 1 == 1) ∧ (halt .launched .choice).companyIdle 0 = false) ∧
    (Serving (halt .running (.admission 1)) 1 w (haltSheet haltAtCurtain) (fun w => Cmd.field w 0 1 == 1) ∧ (halt .running (.admission 1)).companyIdle 0 = false) ∧
    Serving (halt .running .none) 1 w (haltSheet haltAtCurtain) (fun w => Cmd.field w 0 1 == 1) ∧ (halt .running .none).companyIdle 0 = false :=
  ⟨⟨serving_of (by decide +kernel), by decide +kernel⟩, ⟨serving_of (by decide +kernel), by decide +kernel⟩,
    ⟨serving_of (by decide +kernel), by decide +kernel⟩, serving_of (by decide +kernel), by decide +kernel⟩

/-- A reproducible company 0 with link 5 up to chip 9. -/
def paired (k : Company) : State :=
  { formed { k with reproducible := true } with links := [(5, { enabled := true, state := .up, neighbour := some (9, 6) })] }
theorem test_serving_pair : let w := slotWord 0x14 0 0 [(0, 1), (1, 5), (2, 9)]; let s := command (paired {}) 0 w
    Serving s 0 w understudyPairSheet (fun w => (s.company (Cmd.company w)).pairWait.isNone) := serving_of (by decide +kernel)
theorem test_pair_waits : let p : PairWait := { pair := ⟨1, 5, 9⟩, ring := 0, tag := 7, since := 0 }
    let s := paired { pairWait := some p }; let t := { s with town := { count := 250000000 } }
    (s.company 0).pairWait = some p ∧ s.linkLive 5 = true ∧ (s.link 5).neighbour = some (9, 6) ∧ (s.company 0).reproducible = true ∧
    s.companyIdle 0 = true ∧ s.pairFree 5 = true ∧ s.part.rom.toNat ≠ 2 ∧ (t.company 0).pairWait = some p ∧ p.since + 250000000 ≤ t.now := by
  decide +kernel
theorem test_pair_meets : let p : PairWait := { pair := ⟨1, 5, 9⟩, ring := 0, tag := 7, since := 0 }
    let s := { paired { pairWait := some p } with links := [(5, { enabled := true, state := .up, neighbour := some (9, 5) })] }
    (s.company 0).pairWait = some p ∧ s.linkLive p.pair.link = true ∧ (s.link p.pair.link).neighbour = some (p.pair.partner, 5) ∧
    (s.company 0).reproducible = true ∧ s.companyIdle 0 = true ∧ s.pairFree p.pair.link = true ∧ p.pair.role ≤ 1 := by decide +kernel

/-! ### Carriages and loads -/

/-- CARRIAGE_IN of 16 bytes to core 0's slice, CARRIAGE_OUT of as many to the foyer, and a bank carriage on the device ring. -/
theorem test_serving_carriage : let w := slotWord 0x30 0 0 [(20, 16)]; let v := slotWord 0x31 0 0 [(20, 16), (28, 0xFFFF)]
    let b := slotWord 0x30 0 0 [(0, 2), (20, 16)]
    Serving (command (formed {}) 1 w) 1 w (carriageSheet false) ∧ Serving (command (formed {}) 1 v) 1 v (carriageSheet true) ∧
    Serving (command (formed {}) 0 b) 0 b (carriageSheet false) ∧ Cmd.field w 0 1 ≠ 2 ∧ Cmd.field b 0 1 = 2 :=
  ⟨serving_of (by decide +kernel), serving_of (by decide +kernel), serving_of (by decide +kernel), by decide +kernel, by decide +kernel⟩

/-- A script package of one empty act for a district of eight rows: its header, then zeros (R344). -/
theorem test_serving_script : let w := slotWord 0x20 0 640 []
    Serving (command (formed {}) 1 w [(0, 1), (1, 1), (2, 8), (3, 1), (4, 1)]) 1 w loadScriptSheet := serving_of (by decide +kernel)

/-- Tables from the library in slot 0 of core 3, in an idle company and with the cue frozen. -/
theorem test_serving_tables : let w := slotWord 0x21 0 0 [(4, 1), (8, 8), (16, 2)]
    Serving (command (formed {}) 1 w) 1 w loadTablesSheet ∧ Serving (command (withCore { tablesFrozen := true }) 1 w) 1 w loadTablesSheet ∧
    3 ∈ State.selected w :=
  ⟨serving_of (by decide +kernel), serving_of (by decide +kernel), by decide +kernel⟩

/-- A micro-program of one NOP step, for core 3 and for the engine (R175). -/
theorem test_serving_micro : let w := slotWord 0x22 0 24 [(1, 16), (4, 1), (8, 8)]; let v := slotWord 0x22 0 24 [(0, 1), (1, 16)]
    let image : List (Nat × Byte) := [(0, 1), (1, 1), (4, 3), (5, 3), (6, 3), (7, 0x11), (8, 2)]
    Serving (command (formed {}) 1 w image) 1 w loadMicroCoresSheet (fun w => Cmd.field w 0 1 != 1) ∧
    Serving (command (formed {}) 0 v image) 0 v loadMicroEngineSheet (fun w => Cmd.field w 0 1 == 1) :=
  ⟨serving_of (by decide +kernel), serving_of (by decide +kernel)⟩

/-- SET_CUE of the last scale register, the last apron configuration, the full clock plan and both traps. -/
theorem test_serving_cue :
    let scale := slotWord 0x23 0 1 [(0, 1), (4, 1), (8, 8), (16, 4095), (18, 1)]; let apron := slotWord 0x23 0 16 [(0, 2), (4, 1), (8, 8), (16, 7), (18, 1)]
    let clock := slotWord 0x23 0 0 [(0, 3), (20, 5)]; let trap := slotWord 0x23 0 0 [(0, 5), (20, 3)]
    Serving (command (formed {}) 1 scale [(0, 127)]) 1 scale setCueSheet ∧ Serving (command (formed {}) 1 apron [(0, 1)]) 1 apron setCueSheet ∧
    Serving (command (formed {}) 1 clock) 1 clock setCueSheet ∧ Serving (command (formed {}) 1 trap) 1 trap setCueSheet :=
  ⟨serving_of (by decide +kernel), serving_of (by decide +kernel), serving_of (by decide +kernel), serving_of (by decide +kernel)⟩

/-- FABRIC_CONFIG of each single section (R348). -/
theorem test_serving_fabric :
    let word (id len : Nat) : Nat := slotWord 0x50 0 len [(0, 2 ^ id), (8, if id == 3 then 1000 else 0)]
    let at_ (id len : Nat) (data : List (Nat × Byte)) : State := command on 0 (word id (8 + len)) (([(0, BitVec.ofNat 8 id), (4, BitVec.ofNat 8 len)] ++ data).filter (·.2 != 0))
    Serving (at_ 0 2 [(8, 0xFF), (9, 0x7F)]) 0 (word 0 10) fabricConfigSheet ∧ Serving (at_ 1 2 [(8, 1), (9, 0x80)]) 0 (word 1 10) fabricConfigSheet ∧
    Serving (at_ 3 9 [(11, 1), (13, 0xFF), (14, 0xFF), (15, 0x0F)]) 0 (word 3 17) fabricConfigSheet ∧
    Serving (at_ 4 10 [(8, 1), (10, 9)]) 0 (word 4 18) fabricConfigSheet ∧ Serving (at_ 4 10 [(9, 15)]) 0 (word 4 18) fabricConfigSheet ∧
    Serving (at_ 5 11 [(8, 3), (15, 1)]) 0 (word 5 19) fabricConfigSheet ∧
    sectionIds (word 0 10) = [0] ∧ sectionIds (word 1 10) = [1] ∧ sectionIds (word 3 17) = [3] ∧ sectionIds (word 4 18) = [4] ∧ sectionIds (word 5 19) = [5] :=
  ⟨serving_of (by decide +kernel), serving_of (by decide +kernel), serving_of (by decide +kernel), serving_of (by decide +kernel),
    serving_of (by decide +kernel), serving_of (by decide +kernel), by decide +kernel, by decide +kernel, by decide +kernel, by decide +kernel,
    by decide +kernel⟩
/-- A running job 0 and one that does not run; no update keeps a load waiting. -/
def job0 : State := { formed {} with jobs := [(0, { record := 0x100 })], directory := [(0, 1)] }
theorem test_serving_plan : let w := slotWord 0x51 0 128 []; let v := slotWord 0x52 0 8 [(20, 1)]
    let plan (s : State) : Prop := Serving (command s 0 w) 0 w loadPlanSheet (fun x => !(command s 0 w).lateUpdate (Cmd.field x 0 1))
    let dir (s : State) : Prop := Serving (command s 0 v) 0 v loadDirectorySheet (fun x => !(command s 0 v).lateUpdate (Cmd.field x 0 1))
    (plan job0 ∧ job0.jobRuns 0 = true) ∧ (plan (formed {}) ∧ (formed {}).jobRuns 0 = false) ∧
    (dir job0 ∧ ∃ p ∈ job0.directory, DirEntry.valid p.2.toNat = true ∧ DirEntry.job p.2.toNat = 0) ∧ dir on ∧ on.jobRuns 0 = false :=
  ⟨⟨serving_of (by decide +kernel), by decide +kernel⟩, ⟨serving_of (by decide +kernel), by decide +kernel⟩,
    ⟨serving_of (by decide +kernel), by decide +kernel⟩, serving_of (by decide +kernel), by decide +kernel⟩

/-! ### Security and power -/

theorem test_serving_attest : let w := slotWord 0x80 0 9216 []; Serving (command { on with bottomTree := true } 0 w) 0 w attestSheet :=
  serving_of (by decide +kernel)
theorem test_serving_unlock : let c := slotWord 0x90 0 0 []; let r := slotWord 0x90 0 3764 [(0, 1)]; let l := slotWord 0x90 0 0 [(0, 2)]
    let s : State := { on with challenge := some [] }
    Serving (command on 0 c) 0 c challengeSheet (fun w => !([1, 2].contains (Cmd.field w 0 1))) ∧
    (Serving (command s 0 r) 0 r responseSheet (fun w => Cmd.field w 0 1 == 1) ∧
      (command s 0 r).checkResponse [] ((command s 0 r).bytes .foyer 0 3764) = some (St.reservedSet, 0)) ∧
    Serving (command s 0 l) 0 l lockSheet (fun w => Cmd.field w 0 1 == 2) :=
  ⟨serving_of (by decide +kernel), ⟨serving_of (by decide +kernel), by decide +kernel⟩, serving_of (by decide +kernel)⟩

/-- ENTER_STATE to each state, from that state and from another. -/
theorem test_serving_power :
    let w (code : Nat) : Nat := slotWord 0x61 0 0 [(0, code)]
    let at_ (p : PowerState) (code : Nat) : State := command { on with power := p } 0 (w code)
    let serves (p : PowerState) (code : Nat) (target : PowerState) (mine : Nat → Bool) : Prop :=
      Serving (at_ p code) 0 (w code) (enterStateSheet target) (fun w => (at_ p code).settledPower && mine w)
    let toRun (p : PowerState) : Prop := serves p 0 .run (fun w => !([1, 2, 3].contains (Cmd.field w 0 1)))
    let toInterval (p : PowerState) : Prop := serves p 1 .interval (fun w => Cmd.field w 0 1 == 1)
    let toDim (p : PowerState) : Prop := serves p 2 .dim (fun w => Cmd.field w 0 1 == 2)
    let toStandby (p : PowerState) : Prop := serves p 3 .standby (fun w => Cmd.field w 0 1 == 3)
    (toRun .run ∧ toRun .dim ∧ toRun .interval) ∧ (toInterval .interval ∧ toInterval .dim) ∧ (toDim .dim ∧ toDim .run) ∧ toStandby .interval :=
  ⟨⟨serving_of (by decide +kernel), serving_of (by decide +kernel), serving_of (by decide +kernel)⟩,
    ⟨serving_of (by decide +kernel), serving_of (by decide +kernel)⟩, ⟨serving_of (by decide +kernel), serving_of (by decide +kernel)⟩,
    serving_of (by decide +kernel)⟩

/-- No core of a chip without companies is inside a bundle. -/
theorem between_of {s : State} (h : s.companies = []) (c : Nat) : s.betweenBundles c = true := by
  simp [State.betweenBundles, State.companyCores, State.company, h, SMap.get]
theorem test_serving_device_reset : let w := slotWord 4 0 0 []; let s := command on 0 w
    Serving s 0 w deviceResetSheet (fun _ => (List.range 32).all s.betweenBundles) :=
  let h : Serving (command on 0 (slotWord 4 0 0 [])) 0 (slotWord 4 0 0 []) deviceResetSheet := serving_of (by decide +kernel)
  ⟨h.current, h.ready, h.opcode, List.all_eq_true.mpr fun c _ => between_of rfl c, h.fence, h.checks⟩

/-! ### Long blocks of zeros -/

/-- A block past the bytes that memory lists is zero. -/
theorem readBytes_zeros (m : Memory) (n : Nat) : ∀ a, (∀ i, a ≤ i → Memory.read m i = 0) → Memory.readBytes m a n = List.replicate n 0#8 := by
  induction n with
  | zero => exact fun a _ => rfl
  | succ n ih => exact fun a h => by simp [Memory.readBytes, h a (Nat.le_refl a), ih (a + 1) (fun i hi => h i (by omega)), List.replicate_succ]
theorem readBytes_split (m : Memory) (n k : Nat) : ∀ a, Memory.readBytes m a (n + k) = Memory.readBytes m a n ++ Memory.readBytes m (a + n) k := by
  induction n with
  | zero => intro a; simp [Memory.readBytes]
  | succ n ih => intro a; simp [Nat.add_right_comm n 1 k, Memory.readBytes, ih (a + 1), Nat.add_comm 1 n, Nat.add_assoc]
theorem ofBytes_zeros (n : Nat) : ofBytes (List.replicate n 0#8) = 0 := by
  induction n with
  | zero => rfl
  | succ n ih => simp [List.replicate_succ, ofBytes, ih]
theorem numAt_zeros (n o k : Nat) : numAt (List.replicate n 0#8) o k = 0 := by
  simp [numAt, List.drop_replicate, List.take_replicate, ofBytes_zeros]
theorem numAt_past (h : List Byte) (n o k : Nat) : numAt (h ++ List.replicate n 0#8) (h.length + o) k = 0 := by
  rw [numAt, List.drop_append, List.drop_eq_nil_of_le (Nat.le_add_right _ _)]
  simp [List.drop_replicate, List.take_replicate, ofBytes_zeros]

/-- The last check of a command apart from the others. -/
theorem checkCommand_split {s : State} {r w : Nat} {t : Sheet} (h : s.checkCommand r w { t with pre := fun _ _ _ => none } = none)
    (p : t.pre s r w = none) : s.checkCommand r w t = none := by
  unfold State.checkCommand at h ⊢
  rw [firstFail_none] at h ⊢
  intro c hc
  simp only [List.mem_cons, List.not_mem_nil, or_false] at hc h
  rcases hc with hc | hc | hc | hc | hc | hc | hc | hc | hc | hc | hc | hc | hc | hc | hc
  all_goals first
    | exact hc.trans p
    | exact h c (by simp [hc])

/-- A block that memory lists in its first bytes only. -/
theorem readBytes_start (m : Memory) (h : List Byte) (n : Nat) (e : Memory.readBytes m 0 h.length = h)
    (z : ∀ i, h.length ≤ i → Memory.read m i = 0) : Memory.readBytes m 0 (h.length + n) = h ++ List.replicate n 0#8 := by
  rw [readBytes_split, e, readBytes_zeros m n _ (fun i hi => z i (by omega))]

theorem zeros_sum (l : List Nat) : (l.map (fun _ => 2 * 0)).sum = 0 := by
  induction l with
  | nil => rfl
  | cons a l ih => simpa using ih

theorem credits_pre {s : State} {w : Nat} {b : List Byte} (hb : s.block w = b) (hi : sectionIds w = [2]) (n0 : numAt b 4 4 = 4096)
    (n1 : numAt b 1 3 = 0) (n2 : numAt b 0 1 = 2) (z : ∀ o k, numAt b (8 + o) k = 0) (hl : b.length = 4104)
    (f3 : (Cmd.field w 0 4).testBit 3 = false) (free : ∀ c, s.creditsFree c = true) (j : s.jobs = []) : fabricConfigSheet.pre s 0 w = none := by
  show firstFail [_, _, _, _] = none
  rw [firstFail_none]
  intro c hm
  simp only [hb, List.mem_cons, List.not_mem_nil, or_false] at hm
  rcases hm with rfl | rfl | rfl | rfl
  · simp [need, j]
  · have he : ∀ x, (s.creditsChanged b x).all s.creditsFree = true := fun x => List.all_eq_true.mpr fun c _ => free c
    simp [sectionAt, sectionsOf, hi, need, he]
  · simp [need, f3]
  · have hs : s.checkSection w b 2 8 4096 = none := by
      show firstFail [_, _] = none
      rw [firstFail_none]
      intro c hm
      simp only [List.mem_cons, List.not_mem_nil, or_false] at hm
      rcases hm with hm | hm <;> rw [hm]
      · exact List.findSome?_eq_none_iff.mpr fun i _ => by simp [z, need]
      · refine List.findSome?_eq_none_iff.mpr fun l _ => ?_
        simp only [z, need_none, decide_eq_true_eq]
        exact Nat.le_trans (Nat.le_of_eq (zeros_sum _)) (by decide)
    rw [hi]
    simp only [State.checkSections, n0, n1, n2, hl, State.sectionLength, firstFail_none, List.mem_cons, List.not_mem_nil, or_false,
      forall_eq_or_imp, forall_eq, need_none, hs, Nat.zero_add]
    decide

/-- FABRIC_CONFIG with a CREDITS section of zeros. -/
theorem test_serving_credits : let w := slotWord 0x50 0 4104 [(0, 4)]
    Serving (command on 0 w [(0, 2), (5, 0x10)]) 0 w fabricConfigSheet ∧ sectionIds w = [2] := by
  have h : Serving (command on 0 (slotWord 0x50 0 4104 [(0, 4)]) [(0, 2), (5, 0x10)]) 0 (slotWord 0x50 0 4104 [(0, 4)])
    { fabricConfigSheet with pre := fun _ _ _ => none } := serving_of (by decide +kernel)
  refine ⟨⟨h.current, h.ready, h.opcode, h.mine, h.fence, checkCommand_split h.checks (credits_pre
    (b := [2, 0, 0, 0, 0, 16, 0, 0] ++ List.replicate 4096 0#8) ?_ (by decide +kernel) (by decide +kernel) (by decide +kernel) (by decide +kernel)
    (numAt_past [2, 0, 0, 0, 0, 16, 0, 0] 4096) (by rw [List.length_append, List.length_replicate]; rfl) (by decide +kernel) (fun _ => rfl) rfl)⟩, by decide +kernel⟩
  rw [State.block, show Cmd.dataAddr (slotWord 0x50 0 4104 [(0, 4)]) = 0 by decide +kernel,
    show Cmd.length (slotWord 0x50 0 4104 [(0, 4)]) = 8 + 4096 by decide +kernel]
  exact readBytes_start _ [2, 0, 0, 0, 0, 16, 0, 0] 4096 rfl fun i hi => by
    simp only [List.length_cons, List.length_nil] at hi
    simp [command, Memory.read, SMap.get, show ¬(0 = i) by omega, show ¬(5 = i) by omega]

theorem plan_zeros {s : State} {c n : Nat} (hc : (s.companyCores c).length = 64) (hn : n = 49156) : s.checkPlan c (List.replicate n 0#8) = none := by
  have v : Chan.valid 0 = false := by decide
  have r : channelReserved 0 = 0 := by decide +kernel
  have e : ∀ i, s.checkChannel c (s.companyCores c) (List.replicate n 0#8) i = none := fun i => by
    simp only [State.checkChannel, numAt_zeros, r, v]
    rfl
  show firstFail [_, _, _, _] = none
  rw [firstFail_none]
  intro x hm
  simp only [List.mem_cons, List.not_mem_nil, or_false, hc, numAt_zeros, List.length_replicate] at hm
  rcases hm with hm | hm | hm | hm <;> rw [hm]
  · rw [need_none, hn]
    decide
  · rw [need_none, hn]
    decide
  · simp only [State.checkChannels, numAt_zeros, v, e, Option.map_none, Bool.not_false, Bool.true_or, if_true]
    rw [List.findSome?_eq_none_iff.mpr (fun _ _ => rfl), List.filterMap_eq_nil_iff.mpr (fun _ _ => rfl)]
    rfl
  · rfl

theorem plan_pre {s : State} {w n : Nat} (hb : s.block w = List.replicate n 0#8) (hn : n = 49156) (k : Cmd.field w 0 1 = 4)
    (hc : (s.companyCores (Cmd.company w)).length = 64) (hf : s.formed (Cmd.company w) = true) (p : (s.power != .dim) = true)
    (m : s.checkSelected w = none) : setCueSheet.pre s 1 w = none := by
  simp only [setCueSheet, hb, k, hf, p, m, plan_zeros hc hn]
  rfl

/-- A signal plan of no channels and no slots for a district of 64 cores. -/
theorem test_serving_signal_plan : let w := slotWord 0x23 0 49156 [(0, 4)]; Serving (command (formed {}) 1 w) 1 w setCueSheet := by
  have h : Serving (command (formed {}) 1 (slotWord 0x23 0 49156 [(0, 4)])) 1 (slotWord 0x23 0 49156 [(0, 4)])
    { setCueSheet with pre := fun _ _ _ => none } := serving_of (by decide +kernel)
  refine ⟨h.current, h.ready, h.opcode, h.mine, h.fence, checkCommand_split h.checks ?_⟩
  have hb : (command (formed {}) 1 (slotWord 0x23 0 49156 [(0, 4)])).block (slotWord 0x23 0 49156 [(0, 4)]) = List.replicate 49156 0#8 := by
    rw [State.block, show Cmd.dataAddr (slotWord 0x23 0 49156 [(0, 4)]) = 0 by decide +kernel,
      show Cmd.length (slotWord 0x23 0 49156 [(0, 4)]) = 49156 by decide +kernel]
    exact readBytes_zeros [] 49156 0 fun _ _ => rfl
  exact plan_pre hb rfl (by decide +kernel) (by decide +kernel) (by decide +kernel) (by decide +kernel) (by decide +kernel)

/-! ### Signatures that verify -/

theorem length_toBytesBE (n x : Nat) : (toBytesBE n x).length = n := by simp [toBytesBE, length_toBytes]
theorem valued_eq {α : Type} (n : Nat) (f : Nat → α) : valued n f = f n := by cases n <;> rfl
theorem length_sha256Rounds (l : List (Nat × Nat)) : ∀ h : List Nat, h.length = 8 → (sha256Rounds l h).length = 8 := by
  induction l with
  | nil => exact fun h e => e
  | cons p l ih =>
    intro h e
    match h, e with
    | [a, b, c, d, e, f, g, i], _ =>
      simp only [sha256Rounds, valued_eq]
      exact ih _ rfl
theorem length_sha256Block (h : List Nat) (b : List Byte) (e : h.length = 8) : (sha256Block h b).length = 8 := by
  simp [sha256Block, length_sha256Rounds _ _ e, e]
theorem length_sha256 (m : List Byte) : (sha256 m).length = 32 := by
  have f : ∀ (l : List (List Byte)) (h : List Nat), h.length = 8 → (l.foldl sha256Block h).length = 8 := fun l => by
    induction l with
    | nil => exact fun h e => e
    | cons b l ih => exact fun h e => ih _ (length_sha256Block h b e)
  have g : ∀ l : List Nat, (l.flatMap (toBytesBE 4)).length = 4 * l.length := fun l => by
    induction l with
    | nil => rfl
    | cons a l ih => simp only [List.flatMap_cons, List.length_append, length_toBytesBE, ih, List.length_cons]; omega
  simp only [sha256, g, f _ sha256Init rfl]
theorem length_lmsClimb (id : List Byte) (ps : List (List Byte)) : ∀ r x, x.length = 24 → (lmsClimb id r x ps).length = 24 := by
  induction ps with
  | nil => exact fun r x h => h
  | cons p ps ih =>
    intro r x h
    refine ih _ _ ?_
    split <;> simp [lmsInner, lmsHash, length_sha256]

/-- A signature of leaf 0 whose chain values and path are zeros. -/
def zeroSig (h : Nat) : List Byte :=
  toBytesBE 4 0 ++ toBytesBE 4 otsType ++ List.replicate 1248 0 ++ toBytesBE 4 (lmsType h) ++ List.replicate (24 * h) 0
/-- The key that it leads to. -/
def zeroKey (h : Nat) (m : List Byte) : List Byte :=
  let id := List.replicate 16 (0 : Byte)
  lmsPublic h id (lmsClimb id (2 ^ h + 0) (lmsLeaf id h 0 (otsCandidate id 0 ((zeroSig h).drop 4) m)) (chunks 24 h ((zeroSig h).drop 1260)))

theorem length_zeroSig (h : Nat) : (zeroSig h).length = 1260 + 24 * h := by
  simp only [zeroSig, List.length_append, length_toBytesBE, List.length_replicate]
theorem length_zeroKey (h : Nat) (m : List Byte) : (zeroKey h m).length = 48 := by
  simp [zeroKey, lmsPublic, length_toBytesBE, length_lmsClimb, lmsLeaf, lmsHash, length_sha256]
theorem lmsVerify_zero (h : Nat) (m : List Byte) (e : h = 15 ∨ h = 20) : lmsVerify h (zeroKey h m) m (zeroSig h) = true := by
  have hid : ((zeroKey h m).drop 8).take 16 = List.replicate 16 0 := by
    rcases e with rfl | rfl <;> rfl
  have h1 : ofBytesBE ((zeroSig h).take 4) = 0 := by rcases e with rfl | rfl <;> decide +kernel
  have h2 : ofBytesBE (((zeroSig h).drop 4).take 4) = otsType := by rcases e with rfl | rfl <;> decide +kernel
  have h3 : ofBytesBE (((zeroSig h).drop 1256).take 4) = lmsType h := by rcases e with rfl | rfl <;> decide +kernel
  simp only [lmsVerify, lmsCandidate, hid, h1, h2, h3, length_zeroSig, bne_self_eq_false, Bool.or_self, Bool.false_or]
  simp [zeroKey]
/-- An HSS key of two levels and its signature over a message. -/
def hssZeroKey (m : List Byte) : List Byte := hssKey (zeroKey 15 (zeroKey 20 m))
def hssZeroSig (m : List Byte) : List Byte := hssJoin (zeroSig 15) (zeroKey 20 m) (zeroSig 20)
theorem length_hssZeroSig (m : List Byte) : (hssZeroSig m).length = 3412 := by
  simp only [hssZeroSig, hssJoin, List.length_append, length_toBytesBE, length_zeroSig, length_zeroKey]
theorem hssVerify_zero (m : List Byte) : hssVerify (hssZeroKey m) m (hssZeroSig m) = true := by
  have e1 : (toBytesBE 4 1 ++ zeroSig 15).length = 1624 := by simp only [List.length_append, length_toBytesBE, length_zeroSig]
  have e2 : (toBytesBE 4 1 ++ zeroSig 15 ++ zeroKey 20 m).length = 1672 := by simp only [List.length_append, e1, length_zeroKey]
  have k4 : (hssZeroKey m).take 4 = toBytesBE 4 2 := List.take_left' (length_toBytesBE 4 2)
  have s4 : (hssZeroSig m).take 4 = toBytesBE 4 1 := by
    rw [hssZeroSig, hssJoin, List.append_assoc, List.append_assoc]
    exact List.take_left' (length_toBytesBE 4 1)
  have hk : (hssZeroKey m).drop 4 = zeroKey 15 (zeroKey 20 m) := List.drop_left' (length_toBytesBE 4 2)
  have hb : ((hssZeroSig m).drop 1624).take 48 = zeroKey 20 m := by
    rw [hssZeroSig, hssJoin, List.append_assoc, List.drop_left' e1]
    exact List.take_left' (length_zeroKey 20 m)
  have h15 : ((hssZeroSig m).drop 4).take 1620 = zeroSig 15 := by
    rw [hssZeroSig, hssJoin, List.append_assoc, List.append_assoc, List.drop_left' (length_toBytesBE 4 1)]
    exact List.take_left' (length_zeroSig 15)
  have h20 : (hssZeroSig m).drop 1672 = zeroSig 20 := List.drop_left' e2
  have hl : (hssZeroKey m).length = 52 := by simp only [hssZeroKey, hssKey, List.length_append, length_toBytesBE, length_zeroKey]
  have b2 : ofBytesBE (toBytesBE 4 2) = 2 := by decide
  have b1 : ofBytesBE (toBytesBE 4 1) = 1 := by decide
  simp only [hssVerify, hb, h15, h20, hk, k4, s4, b1, b2, hl, length_hssZeroSig, lmsVerify_zero 15 _ (.inl rfl), lmsVerify_zero 20 _ (.inr rfl)]
  rfl

/-- The keys and signatures behind a signed part: the P-384 key of the base point, its signature with secret 1, and the HSS pair above. -/
def signedTail (m : List Byte) : List Byte :=
  P384.encode P384.base ++ List.replicate 31 0 ++ hssZeroKey m ++ List.replicate 12 0 ++ P384.sign 1 1 m ++ hssZeroSig m
def authority (m : List Byte) : BitVec 384 := hashField (sha384 (P384.encode P384.base ++ hssZeroKey m))
theorem length_encode (a : P384.Point) : (P384.encode a).length = 97 := by
  simp only [P384.encode, List.length_append, length_toBytesBE, List.length_cons, List.length_nil]
theorem length_sign (d k : Nat) (m : List Byte) : (P384.sign d k m).length = 96 := by
  simp only [P384.sign, List.length_append, length_toBytesBE]
theorem length_hssZeroKey (m : List Byte) : (hssZeroKey m).length = 52 := by
  simp only [hssZeroKey, hssKey, List.length_append, length_toBytesBE, length_zeroKey]
theorem length_signedTail (m : List Byte) : (signedTail m).length = 3700 := by
  simp only [signedTail, List.length_append, length_encode, length_sign, length_hssZeroKey, length_hssZeroSig, List.length_replicate]
/-- The parts of six strings put together. -/
theorem parts_of {a b c d e f : List Byte} {x : List Byte} (h : x = a ++ b ++ c ++ d ++ e ++ f) (ha : a.length = 97) (hb : b.length = 31)
    (hc : c.length = 52) (hd : d.length = 12) (he : e.length = 96) (hf : f.length = 3412) :
    x.take 97 = a ∧ (x.drop 128).take 52 = c ∧ (x.drop 192).take 96 = e ∧ (x.drop 288).take 3412 = f := by
  subst h
  have e1 : (a ++ b).length = 128 := by rw [List.length_append, ha, hb]
  have e2 : (a ++ b ++ c ++ d).length = 192 := by rw [List.length_append, List.length_append, e1, hc, hd]
  have e3 : (a ++ b ++ c ++ d ++ e).length = 288 := by rw [List.length_append, e2, he]
  refine ⟨?_, ?_, ?_, ?_⟩
  · simp only [List.append_assoc]
    exact List.take_left' ha
  · rw [show a ++ b ++ c ++ d ++ e ++ f = (a ++ b) ++ (c ++ (d ++ e ++ f)) by simp only [List.append_assoc], List.drop_left' e1]
    exact List.take_left' hc
  · rw [show a ++ b ++ c ++ d ++ e ++ f = (a ++ b ++ c ++ d) ++ (e ++ f) by simp only [List.append_assoc], List.drop_left' e2]
    exact List.take_left' he
  · rw [List.drop_left' e3]
    exact List.take_of_length_le (Nat.le_of_eq hf)
theorem signedBy_tail (m : List Byte) (h : P384.verify (P384.encode P384.base) m (P384.sign 1 1 m) = true) :
    signedBy (authority m) m (signedTail m) = true := by
  obtain ⟨ek, hk, es, hs⟩ := parts_of (x := signedTail m) rfl (length_encode _) List.length_replicate (length_hssZeroKey m) List.length_replicate
    (length_sign 1 1 m) (length_hssZeroSig m)
  simp only [signedBy, ek, hk, es, hs, h, hssVerify_zero, authority, beq_self_eq_true, Bool.and_self]

/-- Bytes given by place, the others zero. -/
def bytesOf (n : Nat) (l : List (Nat × Byte)) : List Byte := (List.range n).map (fun i => ((l.find? (fun p => p.1 == i)).map (·.2)).getD 0)

/-- A package of one NOP micro-program for entry 16 (R413 to R417). -/
def package : List Byte :=
  bytesOf 104 [(0, 1), (2, 1), (12, 104), (64, 2), (66, 16), (68, 80), (72, 24), (80, 1), (81, 1), (84, 3), (85, 3), (86, 3), (87, 0x11), (88, 2)]
theorem package_signed : P384.verify (P384.encode P384.base) package (P384.sign 1 1 package) = true := by decide +kernel
theorem length_bytesOf (n : Nat) (l : List (Nat × Byte)) : (bytesOf n l).length = n := by simp only [bytesOf, List.length_map, List.length_range]
theorem length_signedBlock (n : Nat) (l : List (Nat × Byte)) : (bytesOf n l ++ signedTail (bytesOf n l)).length = n + 3700 := by
  rw [List.length_append, length_bytesOf, length_signedTail]

/-- `s` with a command taken on the device ring, and the bytes of its data block at the bottom of the foyer. -/
def signedCommand (s : State) (w : Nat) (b : List Byte) : State := { command s 0 w with mem := Memory.writeBytes [] 0 b }

/-- A chip of the authority whose key signed the package. -/
def trusting : State := { on with part := { on.part with extAuthority := authority package } }
theorem extension_pre (s : State) (r w : Nat) : loadExtensionSheet.pre s r w = s.checkExtension (s.block w) := rfl
theorem signedCommand_bytes (s : State) (w n : Nat) (b : List Byte) (h : b.length = n) : (signedCommand s w b).bytes .foyer 0 n = b := by
  subst h
  exact Memory.readBytes_writeBytes_same [] 0 b
theorem signedCommand_block (s : State) (w : Nat) (b : List Byte) (h : b.length = Cmd.length w) (z : Cmd.dataAddr w = 0) :
    (signedCommand s w b).block w = b := by
  rw [State.block, z, ← h]
  exact Memory.readBytes_writeBytes_same [] 0 b
/-- R417: the checks of a package with its signature's apart. -/
theorem checkExtension_signed {s : State} {b : List Byte} (l : (b.length ≥ 64 && b.length == Ext.length b + 3700) = true)
    (g : signedBy s.part.extAuthority (b.take (Ext.length b)) (b.drop (Ext.length b)) = true)
    (h : firstFail [need (s.part.lifecycle == 1 || s.part.lifecycle == 2) St.wrongState noField, extReserved b, need (Ext.items b ≥ 1) St.badSize 2,
      (List.range (Ext.items b)).findSome? (fun i => need (extItemOk b i) St.badSize (Ext.entryAt i + 4)),
      need (Ext.minRom b ≤ s.part.rom.toNat) St.denied 16,
      need (match s.extensionAt (Ext.id b) with
        | some p => (match SMap.get none s.extensions p with | some e => decide (e.version.toNat < Ext.version b) | none => true)
        | none => true) St.denied 8,
      need (match s.extensionPlace (Ext.id b) with
        | some p => decide (s.extensionBytes p + ((List.range (Ext.items b)).map (fun i => Ext.size b i)).sum ≤ 2 ^ 21)
        | none => false) St.noResource noField] = none) : s.checkExtension b = none := by
  rw [State.checkExtension, firstFail_none]
  rw [firstFail_none] at h
  intro c hc
  simp only [List.mem_cons, List.not_mem_nil, or_false] at hc h
  rcases hc with rfl | rfl | hc | hc | hc | hc | hc | hc | hc
  · rw [need_none]
    exact l
  · rw [need_none]
    exact g
  · exact h c (.inl hc)
  · exact h c (.inr (.inl hc))
  · exact h c (.inr (.inr (.inl hc)))
  · exact h c (.inr (.inr (.inr (.inl hc))))
  · exact h c (.inr (.inr (.inr (.inr (.inl hc)))))
  · exact h c (.inr (.inr (.inr (.inr (.inr (.inl hc))))))
  · exact h c (.inr (.inr (.inr (.inr (.inr (.inr hc))))))
theorem test_serving_extension : let w := slotWord 0x81 0 3804 []
    Serving (signedCommand trusting w (package ++ signedTail package)) 0 w loadExtensionSheet := by
  have h : Serving (signedCommand trusting (slotWord 0x81 0 3804 []) (package ++ signedTail package)) 0 (slotWord 0x81 0 3804 [])
    { loadExtensionSheet with pre := fun _ _ _ => none } := serving_of (by decide +kernel)
  have hw : Cmd.length (slotWord 0x81 0 3804 []) = 104 + 3700 := by decide +kernel
  have hl : (package ++ signedTail package).length = 104 + 3700 := length_signedBlock 104 _
  have e : Ext.length (package ++ signedTail package) = 104 := by decide +kernel
  have hp : package.length = 104 := length_bytesOf 104 _
  refine ⟨h.current, h.ready, h.opcode, h.mine, h.fence, checkCommand_split h.checks ?_⟩
  rw [extension_pre, signedCommand_block _ _ _ (hl.trans hw.symm) (by decide +kernel)]
  refine checkExtension_signed ?_ ?_ ?_
  · rw [hl, e]
    decide
  · rw [e, List.take_left' hp, List.drop_left' hp]
    exact signedBy_tail package package_signed
  · decide +kernel

/-- An unlock of scope 0 for the challenge of zeros and the serial 0 (R420). -/
def unlocking : List Byte := bytesOf 64 [(0, 1), (2, 1)]
theorem unlock_signed : P384.verify (P384.encode P384.base) unlocking (P384.sign 1 1 unlocking) = true := by decide +kernel
/-- R420: the checks of a response with its signature's apart. -/
theorem checkResponse_signed {s : State} {challenge b x y : List Byte} (hx : b.take 64 = x) (hy : b.drop 64 = y)
    (h : firstFail [need (numAt b 0 2 == 1) St.reservedSet 0, reservedBits (numAt b 2 2) (maskOf 4 15) 2,
      need (numAt b 4 4 == 0) St.reservedSet (4 + lowByte (numAt b 4 4)), need (numAt b 56 8 == 0) St.reservedSet (56 + lowByte (numAt b 56 8)),
      need (!(numAt b 2 2).testBit 2 || s.noneActive) St.busy 2, need (numAt b 8 16 == s.part.serial.toNat) St.signature 8,
      need (numAt b 24 32 == ofBytes challenge) St.signature 24] = none)
    (g : signedBy s.part.debugAuthority x y = true) : s.checkResponse challenge b = none := by
  rw [State.checkResponse, firstFail_none]
  rw [firstFail_none] at h
  intro c hc
  simp only [List.mem_cons, List.not_mem_nil, or_false] at hc h
  rcases hc with hc | hc | hc | hc | hc | hc | hc | rfl
  all_goals first
    | exact h c (by simp [hc])
    | rw [need_none, hx, hy]; exact g
/-- RESPONSE of another size, without a challenge, with a bad version, and with all in order. -/
theorem test_serving_response : let w := slotWord 0x90 0 3764 [(0, 1)]; let v := slotWord 0x90 0 3763 [(0, 1)]; let mine (w : Nat) : Bool := Cmd.field w 0 1 == 1
    let challenge := List.replicate 32 (0 : Byte)
    let s : State := { on with challenge := some challenge, part := { on.part with debugAuthority := authority unlocking } }
    let t := signedCommand s w (unlocking ++ signedTail unlocking)
    (Serving (command s 0 v) 0 v responseSheet mine ∧ Cmd.length v ≠ 3764) ∧ (Serving (command on 0 w) 0 w responseSheet mine ∧ on.challenge = none) ∧
    (Serving (command s 0 w) 0 w responseSheet mine ∧ Cmd.length w = 3764 ∧
      (command s 0 w).checkResponse challenge ((command s 0 w).bytes .foyer 0 3764) = some (St.reservedSet, 0)) ∧
    Serving t 0 w responseSheet mine ∧ t.challenge = some challenge ∧ t.bytes .foyer 0 3764 = unlocking ++ signedTail unlocking ∧
    t.checkResponse challenge (unlocking ++ signedTail unlocking) = none := by
  refine ⟨⟨serving_of (by decide +kernel), by decide +kernel⟩, ⟨serving_of (by decide +kernel), rfl⟩,
    ⟨serving_of (by decide +kernel), by decide +kernel, by decide +kernel⟩, serving_of (by decide +kernel), rfl, ?_, ?_⟩
  · exact signedCommand_bytes _ _ _ _ (length_signedBlock 64 _)
  · exact checkResponse_signed (List.take_left' (length_bytesOf 64 _)) (List.drop_left' (length_bytesOf 64 _)) (by decide +kernel)
      (signedBy_tail unlocking unlock_signed)

/-! ### Curtains -/

/-- An act of one bundle and 100 scheduled cycles, with an energy and one hold. -/
def actOf (energy hold : Nat) : BitVec 512 := BitVec.ofNat 512 (1 + 100 * 2 ^ 32 + hold * 2 ^ 128 + energy * 2 ^ 256)

/-- Company 0 in a curtain step over a script of one act. -/
def curtain (at_ : CurtainStep) (act : BitVec 512) (k : Company) : State :=
  let script : Script := { hash := 0, rows := 8, acts := [act], profiles := [none], blocks := [] }
  { on with companies := [(0, { k with mode := .running, districts := 1, at_ := at_, script := some script })], town := { count := 1000 } }

theorem test_act_chosen : let s := curtain .choice (actOf 1 0) {}
    (s.company 0).at_ = .choice ∧ s.awake = true ∧ (s.company 0).stopping = false ∧ (s.company 0).haltCmds = [] ∧ (s.company 0).pairStop = none ∧
      s.intervalHolds = false ∧ (s.company 0).delayUntil ≤ s.now ∧ s.sceneFirst 0 = false ∧ s.chooseAct 0 = some 0 := by decide +kernel
theorem test_choice_stops : let s := curtain .choice (actOf 1 0) { pairStop := some (9, 5) }; let t := curtain .choice (actOf 1 0) { haltCmds := [⟨1, 0x41, 7⟩] }
    ((s.company 0).at_ = .choice ∧ s.awake = true ∧ (s.company 0).stopping = false ∧ (s.company 0).pairStop ≠ none) ∧
    (t.company 0).at_ = .choice ∧ (t.company 0).haltCmds ≠ [] := by decide +kernel
/-- A curtain held by a LANDED hold for name 5 for as long as the watch interval. -/
theorem test_curtain_held : let s := curtain .choice (actOf 1 (1 + 5 * 2 ^ 8)) { watch := 1000 }
    (s.company 0).at_ = .choice ∧ (s.company 0).watch ≠ 0 ∧ (s.company 0).heldPosted = false ∧
    (s.company 0).curtainAt + (s.company 0).watch.toNat ≤ s.now ∧ s.chooseAct 0 = none ∧ s.sceneFirst 0 = false ∧
    (s.candidates 0).findSome? (fun a => if s.predsEnded 0 a then (s.waitingHold 0 a).map (fun h => (a, h)) else none) = some (0, 0, 1, 5) := by
  decide +kernel
/-- An act that the budget admits, one that it does not admit now, and one that it never admits, another company coming to admission at the same
count. -/
theorem test_admission : let both (s : State) : State := { s with companies := s.companies ++ [(1, { mode := .running, districts := 2, at_ := .admission 0 })] }
    let s := both (curtain (.admission 0) (actOf 1 0) {})
    let busy : State := { s with running := [⟨1, 16 * 950, 16 * 950, 950, 1150⟩] }
    let never := both (curtain (.admission 0) (actOf 100000 0) {})
    (s.awake = true ∧ (s.company 0).at_ = .admission 0 ∧ (s.company 0).stopping = false ∧ (s.company 0).reproducible = false ∧ s.admits 0 0 = true ∧
      State.atAdmission (s.company 1) = true ∧ (∀ d < 32, d ≠ 0 → State.atAdmission (s.company d) = true →
        (s.company 0).admissionAt < (s.company d).admissionAt ∨ (s.company 0).admissionAt = (s.company d).admissionAt ∧ 0 < d)) ∧
    (busy.admits 0 0 = false ∧ busy.fitsBudget [] (busy.figures 0 0) = true) ∧
    never.admits 0 0 = false ∧ (never.company 0).unadmittable = false ∧ never.fitsBudget [] (never.figures 0 0) = false := by decide +kernel
theorem test_reevaluation : let s := curtain .choice (actOf 1 0) { refusedAt := some 1000 }
    (s.company 0).refusedAt = some 1000 ∧ 1000 ≤ s.now := by decide +kernel
theorem test_ballast : let s := { curtain .choice (actOf 1 0) { ballast := 16, actEndAt := 0 } with town := { count := 2500 } }
    let t := curtain .choice (actOf 1 0) { taperEnd := some 1000 }
    ((s.company 0).at_ = .choice ∧ (s.company 0).ballast ≠ 0 ∧ (s.company 0).taperEnd = none ∧ (s.company 0).actEndAt + 2500 ≤ s.now) ∧
    (t.company 0).taperEnd = some 1000 ∧ 1000 ≤ t.now := by decide +kernel
/-- The ballast of an empty act's company runs out while the act waits at its ramp; a taper that frees the company's entry and one that does not. -/
theorem test_ballast_more : let s := { curtain (.ramp 0 0 9000) 0 { ballast := 16, actEndAt := 0 } with town := { count := 2500 } }
    let t (free : Bool) := curtain .choice (actOf 1 0) { taperEnd := some 1000, taperFrees := free }
    ((s.company 0).at_ = .ramp 0 0 9000 ∧ s.isEmptyAct 0 0 = true ∧ (s.company 0).ballast ≠ 0 ∧ (s.company 0).actEndAt + 2500 ≤ s.now) ∧
    ∀ free ∈ [false, true], ((t free).company 0).taperEnd = some 1000 ∧ ((t free).company 0).taperFrees = free := by decide +kernel
/-- A curtain that rises on an act of one bundle and on an empty act, at the end of its ramp and at its launch count. -/
theorem test_curtain_due : let s := curtain (.ramp 0 500 900) (actOf 1 0) {}; let t := curtain (.ramp 0 500 900) (actOf 1 0) { launching := true, launchAt := 1000 }
    let e := curtain (.ramp 0 500 900) 0 {}
    (s.awake = true ∧ (s.company 0).stopping = false ∧ s.curtainDue 0 = some (0, 900, 900) ∧ s.isEmptyAct 0 0 = false ∧ 63 ∈ s.scriptCores 0) ∧
    t.curtainDue 0 = some (0, 1000, 1000) ∧ e.curtainDue 0 = some (0, 900, 900) ∧ e.isEmptyAct 0 0 = true := by decide +kernel
/-- The first act's block stands in the idle bank of core 3, and no storage error is present. -/
def prefetched : State := { curtain (.ramp 0 500 900) (actOf 1 0) {} with cores := [(3, { idle := some ⟨0, [0], [], none⟩ })] }
theorem test_curtain_sound : Sound (prefetched.scriptCores 0) prefetched ∧ (prefetched.core 3).idle = some ⟨0, [0], [], none⟩ ∧
    3 ∈ prefetched.scriptCores 0 ∧ prefetched.curtainDue 0 = some (0, 900, 900) :=
  ⟨⟨rfl, fun _ _ => rfl, fun x _ b h => by
    by_cases e : 3 = x
    · subst e
      cases Option.some.inj (h : some (⟨0, [0], [], none⟩ : CodeBank) = some b)
      rfl
    · simp [prefetched, State.core, SMap.get, e] at h⟩, rfl, by decide +kernel, by decide +kernel⟩
/-- CURTAIN_UP starts core 3 on that block. -/
theorem test_curtain_up : (match exec (.curtainUp 0) prefetched with
    | .next t => ((t.core 3).run, (t.core 3).code, (t.company 0).curtain) | _ => (.idle, [], 0)) = (.running, [0], 1) := by decide +kernel
theorem test_company_stands : let s := withCore { run := .stopped }; let t : State := { s with companies := [(0, { mode := .running, districts := 1, stopping := true })] }
    (t.company 0).stopping = true ∧ t.allStopped 0 = true := by decide +kernel
/-- A core told of its company's stop while it runs. -/
theorem test_stop_notice_due : let s := withCore { run := .running }
    let t : State := { s with companies := [(0, { mode := .running, districts := 1, stopping := true })] }
    (t.core 3).run = .running ∧ (t.core 3).phase = 0 ∧ t.companyOf 3 = some 0 ∧ (t.company 0).stopping = true := by decide +kernel
/-- A pair: signatures not sent yet; sent and equal; sent and different; a partner that stopped while the company is idle. -/
theorem test_pair_compares : let p : Pair := ⟨0, 5, 9⟩; let s := curtain .choice (actOf 1 0) { pair := some p }
    let t := curtain .choice (actOf 1 0) { pair := some p, sigSent := true }; let sigs := (t.scriptCores 0).map (fun x => (t.core x).sig)
    let other := (List.range 64).map (fun i => if i == 63 then (1 : BitVec 64) else 0)
    ((s.company 0).pair = some p ∧ (s.company 0).sigSent = false ∧ s.companyIdle 0 = false) ∧ ((t.company 0).sigSent = true ∧ sigs.length = 64) ∧
    (other.length = sigs.length ∧ other.getD 63 0 ≠ sigs.getD 63 0) ∧
    (paired { pair := some p }).companyIdle 0 = true ∧ ((paired { pair := some p }).company 0).pair = some p := by decide +kernel

/-! ### Power -/

theorem test_scan_open : (on.power = .run ∧ on.part.lifecycle ≠ 0 ∧ on.scope.getLsbD 2 = false) ∧
    ({ on with scope := 4 } : State).scope.getLsbD 2 = true ∧ ({ on with part := { on.part with lifecycle := 0 } } : State).part.lifecycle = 0 := by
  decide +kernel
/-- Transitions that are over: out of DIM and into STANDBY; the wave of the last district held in reset, before its count and at it. -/
theorem test_transitions : let s : State := { on with power := .dim, transition := some ⟨.run, some ⟨0, 0x61, 7⟩⟩, fellAt := none }
    let t : State := { on with transition := some ⟨.standby, some ⟨0, 0x61, 7⟩⟩ }
    let w (n : Nat) (held : Bool) : State := { on with waking := [31], resetHeld := held, town := { count := BitVec.ofNat 64 n } }
    (s.transition = some ⟨.run, some ⟨0, 0x61, 7⟩⟩ ∧ s.transitionOver .run = true) ∧ t.transition = some ⟨.standby, some ⟨0, 0x61, 7⟩⟩ ∧
    (w 0 false).waking = [31] ∧ (w 0 true).resetHeld = true ∧ max (ceilDiv (125 * 31) 2) (ceilDiv (375000 * 31) (w 0 false).ramp) = 1938 ∧
    (w 1937 false).now = 1937 ∧ (w 1938 false).now = 1938 := by
  decide +kernel
/-- Resets: of a chip that is off, of one whose rails came up wrong, and of one in order. -/
theorem test_resets : ({ on with power := .off } : State).power = .off ∧ (on.power ≠ .off ∧ on.railsBroken = false) ∧
    ({ on with railsBroken := true } : State).railsBroken = true := by decide
/-- Boots: in reset, with broken rails, after each kind of reset, and with a failed ROM, a failed patch store and a bad lifecycle. -/
theorem test_boots : let s (z : Nat) : State := { State.reset with zeroing := z, resetHeld := false }
    let bad (i : Nat) : State := { s 0 with sram := [(.boot i, 2)] }
    (State.reset.power = .booting ∧ ({ State.reset with resetHeld := true } : State).resetHeld = true) ∧ ({ s 0 with railsBroken := true } : State).railsBroken = true ∧
    (∀ z ∈ [0, 1, 2], (s z).power = .booting ∧ (s z).railsBroken = false ∧ (s z).part.lifecycle.toNat ≤ 3 ∧ (∀ e ∈ (s z).sram, e.1 ≠ .boot 1 ∧ e.1 ≠ .boot 2) ∧
      (s z).triggers = 0 ∧ (s z).riseArmed = false ∧ (s z).zeroing = z) ∧
    (∃ e ∈ (bad 1).sram, e.1 = .boot 1) ∧ (∃ e ∈ (bad 2).sram, e.1 = .boot 2) ∧ (∀ e ∈ (bad 2).sram, e.1 ≠ .boot 1) ∧
    3 < ({ s 0 with part := { on.part with lifecycle := 4 } } : State).part.lifecycle.toNat := by decide +kernel
theorem test_watchdog : on.ready = true ∧ on.power = .run ∧ ∀ c, c < 32 → on.betweenBundles c = true := ⟨rfl, rfl, fun c _ => between_of rfl c⟩
/-- The hard limit: no trigger and a first one, 50 µs after a rise with the trigger there and gone, just before, and 100 µs without a trigger. -/
theorem test_hard_limit : let s (tr : BitVec 4) (n : BitVec 64) : State := { on with stretch := 1, triggers := tr, riseArmed := true, town := { count := n } }
    let t (n : Nat) : State := { on with stretch := n, town := { count := 25000 } }
    (on.watches = true ∧ on.settleRise.stretch = 0 ∧ on.riseArmed = false ∧ on.triggers ||| 1 ≠ 0 ∧ on.triggers &&& 14 = 0 ∧ State.reset.watches = false) ∧
    (∀ tr ∈ [0, 1], (s tr 12500).riseArmed = true ∧ (s tr 12500).stretchAt + 12500 ≤ (s tr 12500).now ∧ (s tr 12500).triggers = tr) ∧
    (s 1 12499).now < (s 1 12499).stretchAt + 12500 ∧
    ∀ n ∈ [1, 2], (t n).stretch = n ∧ (t n).triggers = 0 ∧ (t n).stretchSince + 25000 ≤ (t n).now := by decide +kernel
/-- Readings at 105 °C and 115 °C and just below each (1/16 °C). -/
theorem test_temperatures :
    (∀ d, d < 32 → [1679].getD d 720 % 65536 < 1680) ∧ (∀ d, d < 32 → [1839].getD d 720 % 65536 < 1840) ∧ 1680 ≤ [1839].getD 0 720 % 65536 ∧
    1840 ≤ [720, 1840].getD 1 720 % 65536 ∧ (∀ e, e < 1 → [720, 1840].getD e 720 % 65536 < 1840) ∧ on.resetHeld = false ∧ on.watches = true := by decide

/-! ### Links -/

/-- A chip whose link 5 is up, with the rest of the link as given. -/
def linked (k : Link) : State := { on with links := [(5, { k with enabled := true, state := .up })] }

/-- A frame word of the bits from 32 on, with its check sum (R223). -/
def frameWord (x : Nat) (body : List Byte) : BitVec 128 := BitVec.ofNat 128 (x * 2 ^ 32 + (crc32 (toBytes 12 x ++ body)).toNat)

theorem frameWord_bits (x i n : Nat) (body : List Byte) (h : x < 2 ^ 96) : bitsOf (frameWord x body).toNat (32 + i) n = bitsOf x i n := by
  have hc := (crc32 (toBytes 12 x ++ body)).isLt
  have e : ((x * 2 ^ 32 + (crc32 (toBytes 12 x ++ body)).toNat) % 2 ^ 128) >>> 32 = x := by
    rw [Nat.mod_eq_of_lt (by omega), Nat.shiftRight_eq_div_pow]
    omega
  simp only [bitsOf, frameWord, BitVec.toNat_ofNat]
  rw [Nat.shiftRight_add, e]
theorem frameWord_bit (x i : Nat) (body : List Byte) (h : x < 2 ^ 96) : (frameWord x body).toNat.testBit (32 + i) = x.testBit i := by
  have e := frameWord_bits x i 1 body h
  simp only [bitsOf, Nat.shiftRight_eq_div_pow, Nat.pow_one] at e
  rw [Nat.testBit_eq_decide_div_mod_eq, Nat.testBit_eq_decide_div_mod_eq, e]
theorem frameWord_good (x : Nat) (body : List Byte) (h : x < 2 ^ 42) : Fw.good (frameWord x body).toNat body = true := by
  have hc := (crc32 (toBytes 12 x ++ body)).isLt
  have h0 : bitsOf (frameWord x body).toNat 0 32 = (crc32 (toBytes 12 x ++ body)).toNat := by
    simp only [bitsOf, frameWord, BitVec.toNat_ofNat, Nat.shiftRight_zero]
    omega
  have h1 := frameWord_bits x 0 96 body (by omega)
  have h2 := frameWord_bits x 42 54 body (by omega)
  have e1 : bitsOf x 0 96 = x := by simp only [bitsOf]; omega
  have e2 : bitsOf x 42 54 = 0 := by simp only [bitsOf]; omega
  simp only [Fw.good, h0, Nat.reduceAdd] at h1 h2 ⊢
  simp only [h1, h2, e1, e2, beq_self_eq_true, Bool.and_self]

theorem arriving_of {s : State} {l kind f : Nat} {body : List Byte}
    (h : (s.linkLive l && (s.link l).bad == 0 && decide ((s.link l).deafUntil ≤ s.now) && Fw.good f body && bitsOf f 32 2 == kind && !f.testBit 58) = true) : Arriving s l kind f body := by
  simp only [Bool.and_eq_true, beq_iff_eq, Bool.not_eq_true', decide_eq_true_eq] at h
  exact ⟨h.1.1.1.1.1, h.1.1.1.1.2, h.1.1.1.2, h.1.1.2, h.1.2, h.2⟩
theorem controlling_of {s : State} {l code f : Nat} {body : List Byte} (h : Arriving s l 3 f body)
    (g : (bitsOf f 34 12 == 0 && body.length == 32 && Lc.code (ofBytes body) == code && Lc.clean (ofBytes body)) = true) : Controlling s l code f body := by
  simp only [Bool.and_eq_true, beq_iff_eq] at g
  exact ⟨h, g.1.1.1, g.1.1.2, g.1.2, g.2⟩

/-- An IDLE frame; one that asks for a resend; a HEADER of an empty packet, of one of two flits, and one out of order; the last flit. -/
theorem test_frames : let idle := frameWord 0 []; let nak := frameWord (2 ^ 26) []
    let empty := toBytes 32 0; let long := toBytes 32 (2 * 2 ^ 8); let h (b : List Byte) := frameWord 1 b; let late := frameWord (1 + 4 * 2) empty
    let flit := List.replicate 256 (0 : Byte); let f := frameWord (2 + 4) flit
    let s := linked { replay := [{ seq := 0, flit := false, body := [], resends := 7 }] }; let t := linked { rxSeq := 0, rx := some ⟨512, [], none, 0, false, none, 0, none⟩ }
    let u := linked { rxSeq := 0, rx := some ⟨512, flit, none, 0, false, none, 0, none⟩ }
    Arriving s 5 0 idle.toNat [] ∧
    (s.linkLive 5 = true ∧ Fw.good nak.toNat [] = true ∧ bitsOf nak.toNat 32 2 = 0 ∧ nak.toNat.testBit 58 = true ∧
      ∀ x ∈ ((s.link 5).heard nak.toNat).replay, x.resends < 8) ∧
    (Arriving s 5 1 (h empty).toNat empty ∧ Arriving s 5 1 (h long).toNat long ∧ Arriving s 5 1 late.toNat empty ∧
      bitsOf (h empty).toNat 34 12 = (((s.link 5).heard (h empty).toNat).rxSeq + 1) % 4096 ∧
      bitsOf late.toNat 34 12 ≠ (((s.link 5).heard late.toNat).rxSeq + 1) % 4096 ∧ Hdr.flits (ofBytes empty) = 0 ∧ Hdr.flits (ofBytes long) = 2) ∧
    (Arriving t 5 2 f.toNat flit ∧ bitsOf f.toNat 34 12 = (0 + 1) % 4096 ∧ (t.link 5).rxSeq = 0 ∧ (t.link 5).rx.isSome = true) ∧
    Arriving u 5 2 f.toNat flit :=
  let f (s : State) (h : s.linkLive 5 = true) (i : (s.link 5).bad = 0) (n : (s.link 5).deafUntil ≤ s.now) : Arriving s 5 2 (frameWord (2 + 4) (List.replicate 256 (0 : Byte))).toNat (List.replicate 256 0) :=
    ⟨h, i, n, frameWord_good _ _ (by decide), (frameWord_bits (2 + 4) 0 2 _ (by decide)).trans (by decide), (frameWord_bit (2 + 4) 26 _ (by decide)).trans (by decide)⟩
  ⟨arriving_of (by decide +kernel), by decide +kernel, ⟨arriving_of (by decide +kernel), arriving_of (by decide +kernel), arriving_of (by decide +kernel),
    by decide +kernel, by decide +kernel, by decide +kernel, by decide +kernel⟩, ⟨f _ rfl rfl (Nat.zero_le _), (frameWord_bits (2 + 4) 2 12 _ (by decide)).trans (by decide), rfl, rfl⟩,
    f _ rfl rfl (Nat.zero_le _)⟩

/-- A LINK_CONTROL frame. -/
def controlFrame (body : List Byte) : BitVec 128 := frameWord 3 body
theorem test_control_frames : let s := linked { probes := [(4, 100, 5)] }; let t : State := { s with town := { count := 1000, parent := some 5 } }
    let p := Lc.make 1 0 false 4 100 5 0 0 0; let r := Lc.make 2 0 false 4 100 5 9 0 0; let same := Lc.make 3 0 true 0 1000 0 0 0 0
    let ahead := Lc.make 3 0 true 0 1050 0 0 0 0; let q := Lc.make 4 7 false 0 0 0 0 0 0; let a := Lc.make 5 7 false 0 0 0 0 0 0
    let i := Lc.make 6 0 false 0 0 0 0 9 6; let b := linked { sparing := some (7, true) }
    Controlling s 5 1 (controlFrame p).toNat p ∧
    (Controlling s 5 2 (controlFrame r).toNat r ∧ (((s.link 5).heard (controlFrame r).toNat).probes.contains
      (bitsOf (ofBytes r) 32 32, bitsOf (ofBytes r) 64 64, bitsOf (ofBytes r) 128 10)) = true) ∧
    (Controlling t 5 3 (controlFrame same).toNat same ∧ (ofBytes same).testBit 12 = true ∧ t.town.synced = false ∧ t.town.agreed < 2 ∧
      (2 * ((bitsOf (ofBytes same) 64 64 : Int) * 1024 + bitsOf (ofBytes same) 128 10 + (t.link 5).delay - t.now * 1024) + 25600) / 51200 = 0) ∧
    (Controlling t 5 3 (controlFrame ahead).toNat ahead ∧
      (2 * ((bitsOf (ofBytes ahead) 64 64 : Int) * 1024 + bitsOf (ofBytes ahead) 128 10 + (t.link 5).delay - t.now * 1024) + 25600) / 51200 = 2) ∧
    (Controlling s 5 4 (controlFrame q).toNat q ∧ bitsOf (ofBytes q) 8 4 < 8 ∧ ((s.link 5).heard (controlFrame q).toNat).spared = none) ∧
    (Controlling b 5 5 (controlFrame a).toNat a ∧ ((b.link 5).heard (controlFrame a).toNat).sparing = some (bitsOf (ofBytes a) 8 4, true)) ∧
    Controlling s 5 6 (controlFrame i).toNat i :=
  let c {s : State} {code : Nat} {body : List Byte} := controlling_of (s := s) (l := 5) (code := code) (f := (controlFrame body).toNat) (body := body)
  ⟨c (arriving_of (by decide +kernel)) (by decide +kernel), ⟨c (arriving_of (by decide +kernel)) (by decide +kernel), by decide +kernel⟩,
    ⟨c (arriving_of (by decide +kernel)) (by decide +kernel), by decide +kernel⟩, ⟨c (arriving_of (by decide +kernel)) (by decide +kernel), by decide +kernel⟩,
    ⟨c (arriving_of (by decide +kernel)) (by decide +kernel), by decide +kernel⟩, ⟨c (arriving_of (by decide +kernel)) (by decide +kernel), by decide +kernel⟩,
    c (arriving_of (by decide +kernel)) (by decide +kernel)⟩
/-- Frames that are discarded: an IDLE with a wrong check sum, one of another kind, and any frame in a bad codeword or a period of deafness. -/
theorem test_frames_discarded : let s := linked {}; let b := linked { bad := 5140 }; let d := linked { deafUntil := 1 }
    s.linkLive 5 = true ∧ Fw.good 1 [] = false ∧ (Fw.good (frameWord 1 []).toNat [] = true ∧ bitsOf (frameWord 1 []).toNat 32 2 ≠ 0) ∧
    (b.linkLive 5 = true ∧ (b.link 5).bad ≠ 0) ∧ d.linkLive 5 = true ∧ ¬(d.link 5).deafUntil ≤ d.now := by decide +kernel
/-- The remaining cases of a TIME frame: already synchronised, without its reference edges, and the third that agrees. -/
theorem test_time_agrees : let t (synced edges : Bool) (n : Nat) : State :=
      { linked {} with town := { count := 1000, parent := some 5, synced := synced, onReference := edges, agreed := n } }
    (t true false 3).town.synced = true ∧ (t false true 0).town.onReference = true ∧ ((t false false 2).town.synced = false ∧
      (t false false 2).town.onReference = false ∧ 2 ≤ (t false false 2).town.agreed) ∧ (t false false 2).town.master = false := by decide
theorem test_timers : let s := linked {}; let b := linked { sparing := some (7, true) }
    let synced : State := { on with town := { synced := true } }; let master : State := { on with town := { master := true } }
    (s.linkLive 5 = true ∧ s.town.parent ≠ some 5) ∧ (b.linkLive 5 = true ∧ (b.link 5).sparing = some (7, true)) ∧ synced.town.synced = true ∧
    (on.power ≠ .off ∧ on.power ≠ .booting ∧ on.power ≠ .standby) ∧ on.town.master = false ∧ master.town.master = true ∧ master.town.synced = false := by
  decide +kernel
theorem test_lanes : let s := linked {}; let t := linked { spared := some 3 }; let train (lost : Bool) : State :=
      { on with links := [(5, { enabled := true, state := .training, wasLost := lost })] }
    (s.linkLive 5 = true ∧ (s.link 5).spared = none ∧ (s.link 5).sparing = none) ∧
    (t.linkLive 5 = true ∧ (t.link 5).spared = some 3 ∧ (t.link 5).sparing ≠ some (7, true)) ∧
    on.fatal = false ∧ ∀ lost ∈ [false, true], ((train lost).link 5).enabled = true ∧ ((train lost).link 5).state = .training ∧ ((train lost).link 5).wasLost = lost := by
  decide +kernel
/-- A LINK_ERROR control of each kind in slot 15, and one that withholds credit. -/
theorem test_controls : let s (q : Perturb) : State := { linked {} with perturb := [(15, q)] }
    let u (q : Perturb) : State := State.countChip { s q with perturb := SMap.set {} (s q).perturb 15 {} } 0x4D none 1
    (∀ sub ∈ [1, 2, 3, 4], let q : Perturb := { kind := 5, channel := 5, sub := sub, lane := 7, amount := 500, left := 1 }
      SMap.get {} (s q).perturb 15 = q ∧ (u q).linkLive 5 = true) ∧
    (s {}).withheld.find? (fun w => w.1 == 15) = none ∧
    ({ on with withheld := [(15, 0, 5, 3)] } : State).withheld.find? (fun w => w.1 == 15) = some (15, 0, 5, 3) := by decide +kernel

/-- A packet to chip 9 with hops left, one forwarded with none left, and the routes they take. -/
def toNine (hops : Nat) (source : Option Nat) : Packet := { header := BitVec.ofNat 256 (1 + 9 * 2 ^ 32 + hops * 2 ^ 114), payload := [], source := source }
def toHere (p : Packet) : State := { on with outbox := [p], routes := [(9, 0xFFFF0)] }
def routed (p : Packet) (credits : SMap Nat) : State := { linked { credits := credits } with outbox := [p], routes := [(9, 0xFFFE5)] }
theorem test_packets : let s := routed (toNine 63 none) []; let t := routed (toNine 63 none) [(creditIndex 3 0 0, 1)]; let d := routed (toNine 0 (some 4)) []
    let n : State := { s with routes := [] }
    (s.outbox[0]? = some (toNine 63 none) ∧ s.flowFront 0 (toNine 63 none) = true ∧ s.fatal = false ∧ s.outPort (toNine 63 none) = some (5, false)) ∧
    (SMap.get 0 (s.link 5).credits (creditIndex 3 0 0) < (toNine 63 none).units ∧ (toNine 63 none).units ≤ SMap.get 0 (t.link 5).credits (creditIndex 3 0 0) ∧
      t.isWithheld 0 5 3 = false ∧ (t.link 5).replay.length + (toNine 63 none).units ≤ 1024) ∧
    (d.outbox[0]? = some (toNine 0 (some 4)) ∧ d.flowFront 0 (toNine 0 (some 4)) = true ∧ (toNine 0 (some 4)).source ≠ none ∧ Hdr.hops (toNine 0 (some 4)).header.toNat = 0) ∧
    ((toHere (toNine 63 none)).outPort (toNine 63 none) = some (16, false) ∧ (toHere (toNine 63 none)).flowFront 0 (toNine 63 none) = true) ∧
    n.outPort (toNine 63 none) = none ∧ (toNine 63 none).unreachable = false := by decide +kernel
theorem test_routes_swap : let s : State := { on with swapAt := some 1000, town := { count := 1000 } }; s.swapAt = some 1000 ∧ 1000 ≤ s.now := by decide
theorem test_starved : let p := { toNine 63 none with waitingSince := some 0 }
    let s : State := { routed p [] with town := { count := 1001 }, companies := [(0, { watch := 1000 })] }
    s.outbox[0]? = some p ∧ s.outbox.findIdx (fun p => Hdr.company p.header.toNat == 0 && Hdr.vc p.header.toNat == 3 && p.waitingSince.isSome &&
      (match s.outPort p with | some q => q.1 == 5 | none => false)) = 0 ∧ (s.company 0).watch ≠ 0 ∧
    (s.company 0).watch.toNat * (p.starved + 1) < s.now - 0 := by decide +kernel

/-! ### The host port -/

/-- Channel 3 initialised, with its last backed row open in bank 15. -/
def hosted (k : Channel) : State := { on with channels := [(3, { k with initialised := true, rows := [(15, some 511)] })] }
theorem test_rows : let s := hosted { half := [(15, some 3), (14, some 0)] }
    s.channelOn 3 = true ∧ (SMap.get none (s.channel 3).half 15 = some 3 ∧ SMap.get none (s.channel 3).rows 15 ≠ none) ∧
    SMap.get none (s.channel 3).half 14 = some 0 ∧ SMap.get none (s.channel 3).rows 14 = none := by decide +kernel
theorem test_bursts : let s := hosted {}
    s.channelOn 3 = true ∧ s.power ≠ .booting ∧ SMap.get none (s.channel 3).rows (15 % 16) = some 511 ∧ (List.replicate 64 (1 : Byte)).length = 64 ∧
    ∀ i, i < 8 → s.upset .foyer (3 * 2 ^ 24 + 511 * 32768 + 15 * 2048 + 62 * 32 + 8 * i) = 0 := by decide +kernel
/-- Bytes written at the top of the foyer read back. -/
theorem test_write_read : (match exec (.write16 3 15 63 (List.replicate 32 0xA5) false) (hosted {}) with
    | .next t => (match exec (.read16 3 15 63 false) t with | .next u => (u.channel 3).dq | _ => []) | _ => []) = List.replicate 32 0xA5 := by decide +kernel
/-- A channel not yet initialised, one with a filled FIFO, and one under a hint. -/
theorem test_port : let s := hosted { fifo := [[1]] }; let t : State := { on with channels := [(3, { hint := 2 })] }
    on.channelReady 3 = true ∧ (s.channelReady 3 = true ∧ s.channelOn 3 = true ∧ (s.channel 3).fifo = [1] :: []) ∧ t.portOn = true ∧ (t.channel 3).hint = 2 := by
  decide +kernel
/-- Doorbells at the edge of 256 commands, with the ring in order and in error. -/
theorem test_ring_indexes : let s (st : RingState) : State := { on with channels := [(0, { initialised := true })], rings := [(32, { cmdHead := 0xFFFFFFFF, cplTail := 4, cplHead := 1, state := st })] }
    (s .opened).channelOn 0 = true ∧ ((255 : Word) - ((s .opened).ring 32).cmdHead).toNat = 256 ∧ 256 < ((256 : Word) - ((s .opened).ring 32).cmdHead).toNat ∧
    ((s .opened).ring 32).state ≠ .indexError ∧ ((s .indexError).ring 32).state = .indexError ∧
    ((4 : Word) - ((s .opened).ring 32).cplHead).toNat ≤ ((s .opened).ring 32).unread ∧ ((s .opened).ring 32).unread < ((5 : Word) - ((s .opened).ring 32).cplHead).toNat := by
  decide +kernel
theorem test_slots_taken : let s (st : RingState) (op : Byte) : State := { on with rings := [(32, { cmdTail := 1, state := st })], mem := Memory.writeBytes [] (commandSlot 32 0) [op] }
    let k (st : RingState) (op : Byte) := (s st op).ring 32; let w (op : Byte) := ofBytes ((s .opened op).bytes .foyer (commandSlot 32 0) 128)
    let bad : State := { s .opened 1 with sram := [(.managerMemory, 2)] }
    ((k .opened 1).cmdHead ≠ (k .opened 1).cmdTail ∧ (k .opened 1).taken.length < 64 ∧ (k .opened 1).unread + (k .opened 1).taken.length < 256 ∧
      (k .opened 1).lostSince = 0 ∧ (k .opened 1).taken = [] ∧ (∀ e ∈ (s .opened 1).sram, e.1 ≠ .managerMemory)) ∧
    Cmd.opcode (w 1) ∈ opcodes ∧ Cmd.opcode (w 5) ∉ opcodes ∧ (k .unformed 1).state = .unformed ∧
    ∃ e ∈ bad.sram, e.1 = .managerMemory ∧ 2 ≤ e.2 := by decide +kernel
theorem test_records_posted : let s : State := { on with rings := [(32, { state := .opened, queue := [[1]] })] }
    let t : State := { on with rings := [(32, { state := .opened, lostSince := 3 })] }
    ((s.ring 32).slotFree = true ∧ (s.ring 32).lostSince = 0 ∧ (s.ring 32).queue = [1] :: []) ∧ (t.ring 32).slotFree = true ∧ (t.ring 32).lostSince ≠ 0 := by
  decide +kernel

/-! ### Carriages -/

/-- A carriage of 16 posit8 elements of core 0, as given; company 0 idle. -/
def wagon : Carriage :=
  { id := 3, ring := 1, opcode := 0x30, tag := 7, out := false, kind := 0, srcType := 0, dstType := 0, rounding := 0, channel := 0, holdName := 0, core := 0
    company := some 0, tensor := 0, source := 0, length := 16, dest := 0, destChip := 0xFFFF, index := 0, moved := 0, firstFail := none, fails := 0
    notBefore := 0, remote := false }
def hauling (c : Carriage) (upsets : SMap Nat) : State := { formed {} with carriages := [c], upsets := upsets }
theorem test_carriages : let empty := { wagon with length := 0 }; let away := { wagon with out := true, destChip := 9 }; let done := { wagon with remote := true }
    let out := { wagon with out := true }
    ((hauling empty []).carriages.find? (fun d => d.id == 3) = some empty ∧ empty.units = 0 ∧ (hauling empty []).emptyFree empty = true) ∧
    (wagon.moved < wagon.units ∧ (hauling wagon []).carriageFree wagon = true ∧ wagon.notBefore ≤ (hauling wagon []).now ∧
      ((hauling wagon []).convertUnit wagon 0).2.1.isSome = true ∧ ((hauling wagon [(0, 2)]).convertUnit wagon 0).2.1 = none) ∧
    ((hauling out []).carriageFree out = true ∧ ((hauling out []).convertUnit out 0).2.1.isSome = true) ∧
    ((hauling away []).carriageFree away = true ∧ away.moved < away.units ∧ away.destChip ≠ 0xFFFF ∧ (away.flit ++ [some []]).length ≠ 4 ∧
      away.moved + 1 = away.units ∧ ({ away with length := 128 } : Carriage).units = 2) ∧
    (hauling done []).carriages.find? (fun d => d.id == 3) = some done ∧ done.remote = true := by decide +kernel
/-- A flit of a remote carriage whose four units take the end of the foyer, one whose second unit failed, and a second copy. -/
theorem test_carriage_arrives : let h : BitVec 256 := BitVec.ofNat 256 (1 + 4 * 2 ^ 4 + 2 ^ 8); let p : Packet := { header := h, payload := List.replicate 256 1 }
    let q : Packet := { header := h, payload := List.replicate 256 1 ++ [0, 1] ++ List.replicate 254 0 }
    let s := linked { input := [p] }; let t := linked { input := [q] }; let again : State := { s with seen := [carriageKey h.toNat] }
    s.arrived 5 (fun q => Hdr.type q.header.toNat == 4) = some (0, p) ∧ t.arrived 5 (fun q => Hdr.type q.header.toNat == 4) = some (0, q) ∧
    carriageKey h.toNat ∉ s.seen ∧ carriageKey h.toNat ∈ again.seen ∧ (2 ^ 26 - 256) % 64 = 0 ∧
    (∀ u ∈ carriageUnits h.toNat p.payload, 2 ^ 26 - 256 + 64 * u.1 + 64 ≤ 2 ^ 26) ∧ (carriageUnits h.toNat p.payload).map (·.1) = [0, 1, 2, 3] ∧
    (carriageUnits h.toNat q.payload).map (·.1) = [0, 2, 3] := by decide +kernel

/-! ### Jobs -/

/-- Context 4095 of job 0 on company 0: bucket 0 of 16 × 64 KiB of chip `owner`, under plan `p`, on chip 1. -/
def working (owner p : Nat) (job : Job) (k : Context) : State :=
  { formed {} with
    jobs := [(0, { job with record := 0x100 ||| job.record })], contexts := [(4095, { k with record := 0x100, bucket := some 0 })]
    directory := [(0, BitVec.ofNat 64 (1 + 16 * 2 ^ 3 + owner * 2 ^ 20 + 4095 * 2 ^ 52))], plans := [(0, BitVec.ofNat 256 p)], chipId := 1 }

/-- Plans: a LEAF that contributes, an ADDER and an OWNER of child 9, a SOLO, and a SOLO that contributes. -/
def leaf : Nat := 1 + 8
def adder : Nat := 2 + 2 ^ 4 + 9 * 2 ^ 64
def owner : Nat := 3 + 2 ^ 4 + 9 * 2 ^ 64
def solo : Nat := 4

theorem test_triggers : let full : Context := { fill := 16384 }; let s := working 1 solo {} full; let l := working 9 leaf {} full
    let triggered : State := { l.setContext 4095 { l.context 4095 with fill := 0, trigger := some l.now, busySince := some 0, readOrder := 0, state := .reducing } with nextCarriage := 1 }
    let unit := 64 * (triggered.sampleAt 4095 0 / 32)
    (s.triggerDue 4095 = true ∧ (s.company (s.jobCompany 0)).step.toNat = (s.context 4095).step ∧ PlanRec.contributes (s.planRec 4095) = false) ∧
    (working 1 solo {} { full with step := 1 }).triggerDue 4095 = true ∧
    (l.triggerDue 4095 = true ∧ PlanRec.contributes (l.planRec 4095) = true ∧ PlanRec.isRoot (l.planRec 4095) = false ∧
      (triggered.rawSamples 4095).2.isSome = true ∧ (({ triggered with upsets := [((Space.slice 0).base + unit, 2)] } : State).rawSamples 4095).2 = none) := by
  decide +kernel
theorem test_bucket_reads : let k (read : Nat) (own : List (Nat × List Byte)) : Context := { state := .reducing, trigger := some 0, read := read, own := own }
    let l := working 9 leaf {} (k 3 [(0, List.replicate 192 0)]); let o := working 1 (owner + 8) {} (k 0 [])
    (l.canRead 4095 = true ∧ l.contextFree 4095 0 = true ∧ PlanRec.role (l.planRec 4095) = 1) ∧
    (o.canRead 4095 = true ∧ o.contextFree 4095 0 = true ∧ PlanRec.role (o.planRec 4095) ≠ 1) ∧
    l.upset (.slice 0) 192 = 0 ∧ l.isSecondary 0 = false ∧ ({ l with upsets := [((Space.slice 0).base + 192, 2)] } : State).upset (.slice 0) 192 = 2 := by decide +kernel

/-- A hop of an ADDER's and of an OWNER's first flit, and of the last flit of a bucket. -/
theorem test_hops : let b := List.replicate 256 (0 : Byte); let k (f : Nat) (n : Nat) : Context :=
      { state := .reducing, trigger := some 0, f0 := f, window := [(0, f, b)], samples := List.replicate n ⟨0, false, 0, 0⟩ }
    let a := working 9 adder {} (k 0 0); let full := working 9 adder {} (k 0 32); let o := working 1 owner {} (k 0 0); let last := working 1 owner {} (k 4095 0)
    (∀ s ∈ [a, full, o, last], s.hopDue 4095 = true ∧ (s.hopInputs 4095).isSome = true ∧ ∀ e ∈ s.sram, State.exchangeWord e.1 = false) ∧
    (PlanRec.role (a.planRec 4095) = 2 ∧ (a.context 4095).samples.length + 1 < 32 ∧ 32 ≤ (full.context 4095).samples.length) ∧
    (PlanRec.role (o.planRec 4095) ≠ 2 ∧ 0 + 1 ≠ DirEntry.flits (o.bucketEntry 4095) ∧ 4095 + 1 = DirEntry.flits (last.bucketEntry 4095)) ∧
    ({ a with sram := [(.exchangeSram 5, 2)] } : State).sramErrors State.exchangeWord = (some (.exchangeSram 5), 0) := by decide +kernel

/-- What the contexts of arrived packets can take. -/
def takesUp (s : State) (q : Packet) : Bool :=
  (s.childOf (Hdr.context q.header.toNat) (Hdr.src q.header.toNat)).isSome && (Hdr.flits q.header.toNat == 0 || decide (s.windowRoom q > 0))
def takesShadow (s : State) (q : Packet) : Bool := PlanRec.isRoot (s.planRec (Hdr.context q.header.toNat))
def takesDown (s : State) (q : Packet) : Bool :=
  !PlanRec.isRoot (s.planRec (Hdr.context q.header.toNat)) || s.isSecondary (s.contextJob (Hdr.context q.header.toNat))
/-- A packet of a type from chip 9 to context 4095 for step 1. -/
def fromNine (type job : Nat) (used : Nat) : Packet :=
  { header := BitVec.ofNat 256 (1 + type * 2 ^ 4 + 2 ^ 8 + 2 ^ 32 + 9 * 2 ^ 48 + job * 2 ^ 64 + 4095 * 2 ^ 72 + 2 ^ 128), payload := List.replicate 256 0, used := used }
def met (p : Packet) (plan step : Nat) (job : Job) (seen : Bool) : State :=
  let s := working (if PlanRec.isRoot plan then 1 else 9) plan job { step := step }
  { s with links := [(5, { enabled := true, state := .up, input := [p] })], seen := if seen then [Hdr.key p.header.toNat] else [] }
def firstOf (s : State) (p : Packet) (type : Nat) (able : Packet → Bool) : Bool := s.arrived 5 (s.meets type able) == some (0, p)
/-- The five fates of a packet of each type. -/
theorem test_packet_fates :
    (let s := met (fromNine 1 1 0) adder 1 {} false; firstOf s (fromNine 1 1 0) 1 (takesUp s) = true ∧ s.contextJob 4095 ≠ 1) ∧
    (let s := met (fromNine 2 0 0) owner 2 {} false; firstOf s (fromNine 2 0 0) 2 (takesShadow s) = true ∧ Hdr.step (fromNine 2 0 0).header.toNat < (s.context 4095).step) ∧
    (let s := met (fromNine 3 0 0) leaf 1 { aborted := some 2 } false; firstOf s (fromNine 3 0 0) 3 (takesDown s) = true ∧ (s.job 0).aborted ≠ none) ∧
    (let s := met (fromNine 1 0 0) owner 1 {} true
     firstOf s (fromNine 1 0 0) 1 (takesUp s) = true ∧ s.jobRuns 0 = true ∧ s.contextLive 4095 = true ∧ Hdr.key (fromNine 1 0 0).header.toNat ∈ s.seen) ∧
    (let s := met (fromNine 1 0 0) owner 1 {} false; firstOf s (fromNine 1 0 0) 1 (takesUp s) = true ∧ s.childOf 4095 9 = some 0 ∧ s.windowRoom (fromNine 1 0 0) = 1) ∧
    (let s := met (fromNine 2 0 0) solo 1 {} false; firstOf s (fromNine 2 0 0) 2 (takesShadow s) = true ∧ s.jobRuns 0 = true ∧ s.contextLive 4095 = true) ∧
    (let s := met (fromNine 3 0 0) leaf 1 {} false; firstOf s (fromNine 3 0 0) 3 (takesDown s) = true ∧ s.isSecondary 0 = false) := by decide +kernel

/-- The scene tree of job 0 with one child, as a root and as an inner chip; a scene in time, late, due, and a context to pass. -/
theorem test_scenes : let tree (root : Nat) (reports : List (Nat × Nat × Nat)) : Scene := { root := root, parent := 9, margin := 100, children := [8], reports := reports }
    let s (t : Scene) (due : Option (Nat × Nat × Nat)) : State := { working 1 solo { scene := some t, due := due } { state := if due.isSome then .opened else .landed } with town := { count := 1000 } }
    ((s (tree 1 []) none).jobRuns 0 = true ∧ 8 ∈ (tree 1 []).children ∧ ∀ r ∈ (tree 1 []).reports, r.1 = 8 → r.2.1 ≠ 0) ∧
    (∀ root ∈ [1, 9], let u := s (tree root [(8, 0, 0)]) none
      u.isSecondary 0 = false ∧ (tree root [(8, 0, 0)]).sent ≠ some (u.job 0).step ∧ u.landedAll 0 = true ∧ u.nextEpoch 0 = 0 ∧
      (∀ c ∈ (tree root [(8, 0, 0)]).children, ∃ r ∈ (tree root [(8, 0, 0)]).reports, r.1 = c ∧ r.2.1 = (u.job 0).step) ∧
      ∀ r ∈ (tree root [(8, 0, 0)]).reports, r.2.1 = (u.job 0).step → r.2.2 = u.nextEpoch 0) ∧
    (((s (tree 1 []) none).job 0).due = none ∧ (s (tree 1 []) none).now < 1001 ∧ 1000 ≤ (s (tree 1 []) none).now) ∧
    (((s (tree 1 []) (some (0, 1000, 0))).job 0).due = some (0, 1000, 0) ∧ (s (tree 1 []) (some (0, 1000, 0))).exponentsHere 0 = true) ∧
    (((s { tree 1 [] with margin := 0 } none).job 0).scene.map (·.margin) = some 0 ∧ ∀ e ∈ (s (tree 1 []) none).sram, State.exchangeWord e.1 = false) ∧
    ((s (tree 1 []) none).context 4095).state = .landed := by decide +kernel
/-- A JOB_ABORT for the step of the job and for a later one. -/
theorem test_job_aborts : (working 1 solo {} {}).jobRuns 0 = true ∧ ((working 1 solo {} {}).job 0).step < 1 := by decide +kernel
theorem test_context_times_out : let s := { working 1 solo { record := 2 ^ 32 } { busySince := some 0 } with town := { count := 65537 } }
    s.jobRuns 0 = true ∧ s.contextJob 4095 = 0 ∧ (s.context 4095).busySince = some 0 ∧ s.contextLive 4095 = true ∧
    JobRec.timeout (s.job 0).record.toNat = 1 ∧ 1 * 65536 < s.now - 0 := by decide +kernel

/-- A sampled element of SOLO or OWNER with the sum and the samples given. -/
def sampled (p : Nat) (q : Exact) (ms : List Sample) : State := working 1 p {} { sums := [(7, q)], samples := ms }
/-- One sample too many; a sum that is NaR; sums that agree, that differ, and that differ by less than an adder's rounding. -/
theorem test_samples : let extra := sampled solo .nar [⟨7, false, 1, 0⟩]; let edge := sampled solo .nar []; let same := sampled solo Exact.zero []
    let differ := sampled solo (.num 1 0) []; let near := sampled (owner + 2 ^ 208) (.num 1 (-30)) [⟨7, true, 1, 0x4000⟩]
    (∀ s ∈ [extra, edge, same, differ, near], s.contextLive 4095 = true ∧ s.jobRuns (s.contextJob 4095) = true ∧ PlanRec.isRoot (s.planRec 4095) = true ∧
      (s.context 4095).checked = [] ∧ s.samplesArrived 4095 7 = true ∧ ((s.context 4095).sums.find? (fun a => a.1 == 7)).isSome = true) ∧
    PlanRec.contributors (extra.planRec 4095) = 0 ∧ PlanRec.adders (near.planRec 4095) = 1 ∧ Exact.lt (Exact.num 1 (-30)).abs (gap16 0x4000) = true ∧
    (Exact.num 1 0).isZero = false ∧ Exact.lt (Exact.num 1 0).abs Exact.zero = false ∧ Exact.zero.isZero = true := by decide +kernel
/-- The first and the last unit of a bucket's image at its owner, whose own record gives the layout: 524,288 posit8 values in 8,192 units. -/
theorem test_landings : let flit := List.replicate 256 (0 : Byte); let s (n f : Nat) : State := working 1 solo {} { state := .landing, landed := n, image := [(f, flit)] }
    let last := ((s 0 0).imageShape 4095).valueUnits - 1
    (s 0 0).canLand 4095 = true ∧ (s 0 0).contextFree 4095 0 = true ∧ ((s 0 0).imageFlit 4095 0).isSome = true ∧ (s last (last / 4)).canLand 4095 = true ∧
    last + 1 = ((s last (last / 4)).imageShape 4095).valueUnits ∧ (∀ e ∈ (s 0 0).sram, State.exchangeWord e.1 = false) := by
  decide +kernel
theorem test_scrubs : let s (n : Nat) : State := { on with upsets := [(64, n)] }
    (on.awake = true ∧ on.coreExists 2047 = true ∧ on.sliceIdle 2047 = true) ∧ ∀ n ∈ [0, 1, 2], (s n).upset .foyer 64 = n := by decide +kernel

theorem foldl_clean {s : State} {α : Type} {F : State × Option (List α) → Nat → State × Option (List α)}
    (h : ∀ ds i, ∃ es, F (s, some ds) i = (s, some es)) (l : List Nat) : ∀ ds, ∃ es, l.foldl F (s, some ds) = (s, some es) := by
  induction l with
  | nil => exact fun ds => ⟨ds, rfl⟩
  | cons i l ih =>
    intro ds
    obtain ⟨es, he⟩ := h ds i
    rw [List.foldl_cons, he]
    exact ih es
/-- A bank without errors reads whole. -/
theorem readBank_clean {s : State} (h : s.upsets = []) (unit n : Nat) : ∃ g, s.readBank unit n = (s, some g) := by
  have hu : ∀ off, s.readUnit .exchange off (fun s => s.countChip 0x13 none 1) = (s, some (s.bytes .exchange off 64)) := fun off => by
    simp [State.readUnit, State.upset, h, SMap.get]
  unfold State.readBank
  generalize hz : List.foldl _ _ _ = z
  obtain ⟨es, he⟩ : ∃ es, z = (s, some es) := by
    rw [← hz]
    exact foldl_clean (fun ds i => ⟨s.bytes .exchange (64 * (unit + i)) 64 :: ds, by simp only [hu]⟩) _ _
  rw [he]
  exact ⟨_, rfl⟩

/-- SOLO buckets with their update due: with a NaR and with a failed sample to withhold for, and with a program to run. -/
def updating (record : BitVec 1024) (k : Context) : State :=
  { working 1 solo { record := record } { k with state := .updating } with engine := [(0, some {})] }
theorem test_updates : let nar := updating (2 ^ 10) { narCount := 1 }; let shadow := updating (2 ^ 11) { checked := List.replicate 128 (7, 1) }; let s := updating 0 {}
    (nar.updateDue 4095 = true ∧ JobRec.haltStep (nar.job 0).record.toNat = true ∧ (nar.context 4095).narCount ≠ 0) ∧
    (shadow.updateDue 4095 = true ∧ JobRec.withhold (shadow.job 0).record.toNat = true ∧ ∃ c ∈ (shadow.context 4095).checked, c.2 = 1) ∧
    s.updateDue 4095 = true ∧ JobRec.haltStep (s.job 0).record.toNat = false ∧ JobRec.withhold (s.job 0).record.toNat = false ∧
    SMap.get none s.engine (CtxRec.optimizer (s.context 4095).record.toNat) = some {} := by decide +kernel
/-- What meets an uncorrectable error of the Exchange's memories, or none: a trigger, a bucket read, a packet of each type, a check and an update. -/
theorem test_exchange_errors : let bad (s : State) : State := { s with sram := [(.exchangeSram 5, 2)] }
    let up := met (fromNine 1 0 0) owner 1 {} false; let shadow := met (fromNine 2 0 0) solo 1 {} false; let down := met (fromNine 3 0 0) leaf 1 {} false
    let reads := working 9 leaf {} { state := .reducing, trigger := some 0 }
    (bad on).sramErrors State.exchangeWord = (some (.exchangeSram 5), 0) ∧ (bad (working 1 solo {} { fill := 16384 })).triggerDue 4095 = true ∧
    ((bad reads).canRead 4095 = true ∧ (bad reads).contextFree 4095 0 = true) ∧
    (firstOf (bad up) (fromNine 1 0 0) 1 (takesUp (bad up)) = true ∧ firstOf (bad shadow) (fromNine 2 0 0) 2 (takesShadow (bad shadow)) = true ∧
      firstOf (bad down) (fromNine 3 0 0) 3 (takesDown (bad down)) = true) ∧
    (∀ s ∈ [up, shadow, down], s.power ≠ .dim ∧ CtxRec.valid (s.context 4095).record.toNat = true ∧ s.contextJob 4095 = 0 ∧ s.sram = []) ∧
    (sampled solo Exact.zero []).sram = [] ∧ (bad (updating 0 {})).updateDue 4095 = true ∧ (updating 0 {}).sram = [] := by decide +kernel
theorem runUpdate_clean {s : State} {x : Nat} (he : s.upsets = []) (hi : (s.imageShape x).finder = false) (p : MicroProgram) :
    ∃ t d, s.runUpdate x p = (t, some d) := by
  obtain ⟨g, hg⟩ := readBank_clean he (CtxRec.work (s.context x).record.toNat) (4 * DirEntry.elements (s.bucketEntry x))
  obtain ⟨m, hm⟩ := readBank_clean he (CtxRec.master (s.context x).record.toNat) (4 * DirEntry.elements (s.bucketEntry x))
  obtain ⟨a, ha⟩ := readBank_clean he (CtxRec.moment0 (s.context x).record.toNat) (4 * DirEntry.elements (s.bucketEntry x))
  obtain ⟨b, hb⟩ := readBank_clean he (CtxRec.moment1 (s.context x).record.toNat) (4 * DirEntry.elements (s.bucketEntry x))
  obtain ⟨h, hh⟩ := readBank_clean he (CtxRec.history (s.context x).record.toNat) 0
  simp only [State.runUpdate, State.readArrays, hi, hg, hm, ha, hb, hh, Bool.false_eq_true, if_false]
  exact ⟨_, _, rfl⟩
theorem test_update_runs (p : MicroProgram) : ∃ t d, (updating 0 {}).runUpdate 4095 p = (t, some d) := runUpdate_clean rfl (by decide +kernel) p
theorem test_update_reads : (updating 0 {}).upsets = [] := rfl

/-! ### The whole block -/

theorem test_front : ∃ s : State, s.pending = .deselect 0 :: [] := ⟨{ on with pending := [.deselect 0] }, rfl⟩
theorem test_idle_ticks : (on.pending = [] ∧ on.outbox = [] ∧ on.power ≠ .off ∧ on.power ≠ .booting ∧ on.power ≠ .standby) ∧
    State.reset.pending = [] ∧ State.reset.power = .booting := by decide
/-- Bounds hold with a ring of 64 commands and 1,024 records. -/
theorem test_bounds : ({ on with rings := [(32, { taken := List.replicate 64 { bytes := [] }, queue := List.replicate 1024 [] })] } : State).Bounded where
  mem := rfl
  rings := fun r => by
    by_cases h : 32 = r
    · subst h
      exact ⟨by decide +kernel, by decide +kernel⟩
    · have e : ({ on with rings := [(32, { taken := List.replicate 64 { bytes := [] }, queue := List.replicate 1024 [] })] } : State).ring r = {} := by
        simp [State.ring, SMap.get, h]
      rw [e]
      exact ⟨by decide, by decide⟩
  stretch := by decide
  fuse := rfl
  sustained := by decide
  peak := by decide
  ramp := by decide
  chip := .inr rfl
/-- A command that fails a check: FORM_COMPANY of no district. -/
theorem test_command_fails : let w := slotWord 0x10 0 0 []; let s := command on 0 w
    (∃ c, s.current 0 = some c ∧ c.word = w) ∧ Cmd.opcode w = formCompanySheet.opcode ∧ s.checkCommand 0 w formCompanySheet = some (St.badSize, 32) :=
  ⟨⟨_, rfl, by decide +kernel⟩, by decide +kernel, by decide +kernel⟩

end Sys2Proof.Tests
end

section
/-! LATE_DELIVERY (R97): what the event does to a core whose handshake is still not ready at the 2^20th frozen cycle. -/
namespace Sys2Proof.Machine

/-- R97. The event LATE_DELIVERY of the model is its `execLateDelivery`. -/
theorem exec_lateDelivery (core : Nat) (s : State) : exec (.lateDelivery core) s = execLateDelivery core s := rfl

/-- Settles O14: of the branches of `execLateDelivery` only the fault's is left when the core is frozen, the handshake is not ready at the
limit, and the core has a company. -/
theorem lateDeliveryStopsTheCore : Obligations.LateDeliveryStopsTheCore := by
  intro s core c send ch hfrozen hcompany left hwaits
  have hnotReady : ¬ (s.streetBlock core left).isNone = true := fun h => hwaits (Option.isNone_iff_eq_none.mp h)
  rw [exec_lateDelivery, execLateDelivery, hfrozen]
  dsimp only
  rw [if_neg hnotReady, hcompany]

end Sys2Proof.Machine
end

section
/-! REFRESH (R109, R130, R156): what the DMA slot's command does to the core whose slot is due. -/
namespace Sys2Proof.Machine

/-- R130. The instruction REFRESH of the model is its `execRefresh`. -/
theorem exec_refresh (core : Nat) (s : State) : exec (.refresh core) s = execRefresh core s := rfl

/-- Settles O10: a due slot's step is the command's own effect and then the move to the street slot (`slotStep_due`), and that effect
writes the core's record and then counts one event. -/
theorem refreshOccupiesTheDmaPath : Obligations.RefreshOccupiesTheDmaPath := by
  intro s c hdue
  dsimp only
  rw [exec_refresh, execRefresh, slotStep_due _ hdue (by decide) (by decide)]
  simp only [State.updCore, Core.completes]

end Sys2Proof.Machine
end

section
/-! PACKET_FORWARD (R229): what becomes of a packet that came in on a link and has no hops left. -/
namespace Sys2Proof.Machine

/-- R229. The instruction PACKET_FORWARD of the model is its `execPacketForward`. -/
theorem exec_packetForward (index : Nat) (s : State) : exec (.packetForward index) s = execPacketForward index s := rfl

/-- Settles O45: the packet is there, at the front of its flow on a chip that is not fatal, so the step does not pass it over; and the test
of the hop limit, which precedes the choice of a port, holds of it. -/
theorem hopLimitDiscards : Obligations.HopLimitDiscards := by
  intro s i p hpacket hfront hfatal hforeign hnoHops
  have hnotPassedOver : ¬ (!s.flowFront i p || s.fatal) = true := by simp [hfront, hfatal]
  have hspent : (p.source.isSome && Hdr.hops p.header.toNat == 0) = true := by
    simp [Option.isSome_iff_ne_none, hforeign, hnoHops]
  rw [exec_packetForward, execPacketForward, hpacket]
  dsimp only
  rw [if_neg hnotPassedOver, if_pos hspent]

end Sys2Proof.Machine
end

section
/-! One step of the block (R325, R328, R330, R355, R373, R235): its front command, the bounds it keeps, and the state it starts from. -/
namespace Sys2Proof.Machine

/-- A step of a state within the bounds answers a next state within them, whose queue is the rest of the queue. -/
theorem step_kept (s : State) (h : s.Bounded) : KeptAnswer (s.part.fixed, s.pending.tail) (step s) := by
  unfold step
  split
  case h_1 hempty =>
    exact ⟨s.tick, rfl, State.tick_kept s ⟨h, by rw [hempty]; rfl⟩⟩
  case h_2 c rest hqueue =>
    refine exec_kept c _ ⟨{ h with rings := h.rings }, ?_⟩
    rw [hqueue]; rfl

/-- Settles O4: `step_kept`, for the state the step answers. -/
theorem stepKeepsBounds : Obligations.StepKeepsBounds := by
  intro s t hbounded hstep
  obtain ⟨u, hu, hkept⟩ := step_kept s hbounded
  obtain rfl : u = t := Host.Outcome.next.inj (hu.symm.trans hstep)
  exact ⟨hkept.bounded, congrArg Prod.fst hkept.same⟩

/-- Settles O5: `step_kept` and, for a single command, `exec_kept`. -/
theorem everyStepCompletes : Obligations.EveryStepCompletes := by
  refine ⟨fun s hbounded => ?_, fun i s hbounded => ?_⟩
  · obtain ⟨t, hstep, hkept⟩ := step_kept s hbounded
    exact ⟨t, hstep, congrArg Prod.snd hkept.same⟩
  · obtain ⟨t, hexec, hkept⟩ := exec_kept i s ⟨hbounded, rfl⟩
    exact ⟨t, hexec, congrArg Prod.snd hkept.same, congrArg Prod.fst hkept.same⟩

/-- Every ring of the reset state, formed or not, is empty. -/
theorem reset_ring (i : Nat) : State.reset.ring i = { state := if i = 0 then .opened else .unformed } := by
  refine (SMap.get_cons _ _ _ _ _).trans ?_
  by_cases h : i = 0
  · rw [if_pos h.symm, if_pos h]
  · rw [if_neg (Ne.symm h), if_neg h]
    rfl

/-- R387. The reset values lie within the bounds. -/
theorem reset_bounded : State.reset.Bounded where
  mem := rfl
  rings r := by rw [reset_ring]; exact ⟨Nat.zero_le _, Nat.zero_le _⟩
  stretch := by decide
  fuse := rfl
  sustained := by decide
  peak := by decide
  ramp := by decide
  chip := by decide

/-- Settles O3: the reset values are within the bounds, so a step from them completes. -/
theorem resetIsBounded : Obligations.ResetIsBounded := by
  obtain ⟨t, hstep, _⟩ := step_kept State.reset reset_bounded
  exact ⟨reset_bounded, t, hstep⟩

/-- Settles O1: `step` and the tick on an empty queue, in the three power states that stop the town clock and in the others. -/
theorem frontCommand : Obligations.FrontCommand := by
  intro s
  refine ⟨fun c l hqueue => by unfold step; rw [hqueue], fun hempty => ⟨fun hstill => ?_, fun hoff hbooting hstandby => ?_⟩⟩
  · have hstops : (s.power == .off || s.power == .booting || s.power == .standby) = true := by
      rcases hstill with e | e | e <;> rw [e] <;> rfl
    unfold step State.tick
    rw [hempty, if_pos hstops]
  · have hruns : ¬ (s.power == .off || s.power == .booting || s.power == .standby) = true := by
      simp [hoff, hbooting, hstandby]
    unfold step State.tick
    rw [hempty, if_neg hruns]
    rfl

/-- Settles O2: `State.reset` is the state of the field defaults, and every table in it is empty but for the device ring. -/
theorem resetValues : Obligations.ResetValues := by
  refine ⟨⟨rfl, rfl, rfl, rfl, rfl, rfl, rfl, rfl⟩, ⟨rfl, rfl, rfl, rfl, rfl, rfl, rfl⟩, ⟨rfl, rfl, rfl, rfl, rfl, rfl, rfl, rfl, rfl, rfl, rfl⟩,
    fun i => ?_, fun c => ?_, fun c i => ?_, fun l => ?_, fun j x => ?_, fun c => ?_⟩
  · rw [reset_ring]
    exact ⟨rfl, rfl, rfl, rfl, rfl, rfl, rfl, rfl⟩
  · exact ⟨rfl, rfl, rfl, rfl, rfl, rfl, rfl, rfl, rfl, rfl, rfl, rfl, rfl, rfl⟩
  · exact ⟨rfl, rfl, rfl, rfl, rfl, rfl, rfl, rfl, rfl, rfl, rfl, rfl, rfl⟩
  · exact ⟨rfl, rfl, rfl, rfl, rfl, rfl⟩
  · have hrecord : (State.reset.job j).record.toNat = 0 := BitVec.toNat_zero
    exact ⟨by rw [hrecord]; rfl, rfl, rfl⟩
  · exact ⟨rfl, fun _ => rfl, rfl, rfl⟩

end Sys2Proof.Machine
end

section
/-! A ring command that fails a check (R330, R331), for each of the 37 rows that are ring commands. -/
namespace Sys2Proof.Machine

/-- Settles O6: each of the 37 rows serves its sheet at its ring, so that `State.serve_fails` says what a failed check leaves. -/
theorem failedCommandsComplete : Obligations.FailedCommandsComplete := by
  intro s r w st off fails
  have serves (t : Sheet) (mine : Nat → Bool) (a : Answer) (ha : a = .next (s.serve r t mine)) : fails t mine a :=
    fun hc hr ho hm hf hk => ha.trans (congrArg Host.Outcome.next (State.serve_fails hc hr ho hm hf hk))
  clear_value fails
  exact ⟨serves _ _ _ rfl, serves _ _ _ rfl, serves _ _ _ rfl, serves _ _ _ rfl, serves _ _ _ rfl, serves _ _ _ rfl, serves _ _ _ rfl,
    serves _ _ _ rfl, serves _ _ _ rfl, serves _ _ _ rfl, serves _ _ _ rfl, serves _ _ _ rfl, serves _ _ _ rfl, serves _ _ _ rfl,
    serves _ _ _ rfl, serves _ _ _ rfl, serves _ _ _ rfl, serves _ _ _ rfl, serves _ _ _ rfl, serves _ _ _ rfl, serves _ _ _ rfl,
    serves _ _ _ rfl, serves _ _ _ rfl, serves _ _ _ rfl, serves _ _ _ rfl, serves _ _ _ rfl, serves _ _ _ rfl, serves _ _ _ rfl,
    serves _ _ _ rfl, serves _ _ _ rfl, serves _ _ _ rfl, serves _ _ _ rfl, serves _ _ _ rfl, serves _ _ _ rfl, serves _ _ _ rfl,
    serves _ _ _ rfl, serves _ _ _ rfl⟩

end Sys2Proof.Machine
end

section
/-! The control slot of a due bundle (R120, R123 to R125, R401). -/
namespace Sys2Proof.Machine

/-- R120, R401: the control slot of a due bundle, whose command changes the core by `f`, leaves the corrected reads of the issue counted and
the core with `f` and the next phase. The counters are all that counting changes of the core. -/
theorem control_issues {s : State} {c op : Nat} (h : BundleDue s c) (hop : bitsOf (Bundle.control (s.core c).dueBundle) 27 5 = op) (f : Core → Core)
    (k : Core) (hk : ∀ counters, (s.countIssueReads c).core c = { s.core c with counters := counters } →
      { f { s.core c with counters := counters } with phase := 1 } = k) :
    s.slotStep c 0 op (fun u => u.updCore c f) = (s.countIssueReads c).setCore c k := by
  have hcore := countIssueReads_core s c
  rw [slotStep_control _ h hop, updCore_updCore, ← hk _ hcore, ← hcore]
  rfl

theorem Core.loop_opens {k : Core} {x : Nat} (h : k.lreg (Ctl.n x) ≠ 0) : k.loop x =
    { k with nextBundle := k.bundle + 1, loops := ⟨Ctl.n x, k.bundle + 1, Ctl.last x⟩ :: k.loops, issueAt := k.cycle + 1 } := if_neg h

theorem Core.loop_skips {k : Core} {x : Nat} (h : k.lreg (Ctl.n x) = 0) : k.loop x = k.follow (Ctl.last x) 0 := if_pos h

/-- Settles O7: each operation changes only the core's own record (`control_issues`); LOOP by its counter. -/
theorem controlSlotIssues : Obligations.ControlSlotIssues := by
  refine ⟨fun s c hdue => ?_, fun s c hdue => ?_⟩
  · refine ⟨countIssueReads_core s c, countIssueReads_none, fun hop => ?_, fun hop => ?_, fun hop => ?_, fun hop => ?_, fun hop => ?_⟩
    · exact congrArg Host.Outcome.next (control_issues hdue hop (fun k => k.follow k.bundle 0) _ fun counters hu => by rw [hu]; rfl)
    · show execSeta c s = _
      exact congrArg Host.Outcome.next (control_issues hdue hop _ _ fun counters hu => by rw [hu]; rfl)
    · show execAdda c s = _
      exact congrArg Host.Outcome.next (control_issues hdue hop _ _ fun counters hu => by rw [hu]; rfl)
    · show execSetl c s = _
      exact congrArg Host.Outcome.next (control_issues hdue hop _ _ fun counters hu => by rw [hu]; rfl)
    · show execWaitOp c s = _
      exact congrArg Host.Outcome.next (control_issues hdue hop _ _ fun counters hu => by rw [hu]; rfl)
  · intro k u x skip hop
    have issues (k' : Core) (hk' : ∀ counters, u.core c = { k with counters := counters } →
        { Core.loop { k with counters := counters } x with phase := 1 } = k') : exec (.loop c) s = .next (u.setCore c k') :=
      congrArg Host.Outcome.next (control_issues hdue hop (fun k => k.loop (Bundle.control k.dueBundle)) k' hk')
    refine ⟨fun hcounter => issues _ fun counters hu => ?_, fun hcounter => issues _ fun counters hu => ?_⟩
    · rw [Core.loop_opens (k := { k with counters := counters }) hcounter, hu]; rfl
    · rw [Core.loop_skips (k := { k with counters := counters }) hcounter, hu]; rfl

end Sys2Proof.Machine
end

section
/-! The array, DMA, street and row-unit slots of a bundle (R126 to R135). -/
namespace Sys2Proof.Machine

/-- A due slot whose command changes only the core's record. -/
theorem slot_issues {s : State} {c i op : Nat} (h : SlotDue s c i op) (hi : i ≠ 0) (hlast : i ≠ 4) (f : Core → Core) :
    s.slotStep c i op (fun u => u.updCore c f) = s.setCore c { f (s.core c) with phase := i + 1 } := by
  rw [slotStep_due _ h hi hlast, updCore_updCore]
  rfl

/-- A due slot whose command changes nothing but the phase. -/
theorem slot_nop {s : State} {c i : Nat} (h : SlotDue s c i 0) (hi : i ≠ 0) (hlast : i ≠ 4) :
    s.slotStep c i 0 (fun u => u) = s.setCore c { s.core c with phase := i + 1 } := slotStep_due _ h hi hlast

/-- R118: what NOP answers at a slot behind the control slot. -/
theorem exec_nop (c : Nat) (i : Nat) (s : State) (hi : i ≠ 0) (hlast : i ≤ 4) : exec (.nop c i) s = .next (s.slotStep c i 0 (fun u => u)) := by
  show execNop c i s = _
  unfold execNop
  simp [hi, Nat.not_lt.mpr hlast]

/-- Settles O8: the slot's step is the operation's effect on the core and the next phase; an address that does not advance is no write
(`adv_core`). -/
theorem arraySlotIssues : Obligations.ArraySlotIssues := by
  intro s c
  refine ⟨fun hdue => ?_, fun hdue => ?_, fun hdue => ?_⟩
  · rw [exec_nop c 1 s (by decide) (by decide), slot_nop hdue (by decide) (by decide)]
  · show execPass c s = _
    unfold execPass
    rw [slot_issues hdue (by decide) (by decide)]
    unfold Core.issuePass
    simp only [adv_core]
    rfl
  · show execStrike c s = _
    unfold execStrike
    rw [slotStep_due _ hdue (by decide) (by decide)]
    show Host.Outcome.next (((s.setCore c (Core.issueStrike (s.core c))).countCore c 4 1).updCore c _) = _
    unfold Core.issueStrike
    simp only [adv_core]
    rfl

theorem updCore_setCore (s : State) (c : Nat) (k : Core) (f : Core → Core) : (s.setCore c k).updCore c f = s.setCore c (f k) := by
  unfold State.updCore
  rw [State.core_setCore_same, State.setCore_setCore]

/-- Settles O9: the flight and the core of the statement are those of `issueDma`; the three kinds of transfer are its branches. -/
theorem dmaSlotIssues : Obligations.DmaSlotIssues := by
  intro s c k x d slice store reg adv elem f k'
  have issues (hdue : SlotDue s c 2 1) : exec (.dma c) s = .next ((s.issueDma c).updCore c (fun k => { k with phase := 3 })) :=
    congrArg Host.Outcome.next (slotStep_due _ hdue (by decide) (by decide))
  have hbranches : s.issueDma c = if f.units == 0 then s.setCore c (k'.completes k'.cycle) else if d.testBit 0 then s.setCore c (k'.launch (.dma f))
      else ((s.setCore c k').readSlice c f).1.updCore c (fun k => k.launch (.dma { f with
        source := ((s.setCore c k').readSlice c f).2.1.flatten, failed := ((s.setCore c k').readSlice c f).2.2 })) := by
    unfold State.issueDma
    simp only [adv_core]
    rfl
  refine ⟨fun hdue => ?_, fun hdue hempty => ?_, fun hdue hunits hslice => ?_, fun hdue hunits hstore => ?_, fun hdue => ?_⟩
  · rw [exec_nop c 2 s (by decide) (by decide), slot_nop hdue (by decide) (by decide)]
  · rw [issues hdue, hbranches, if_pos (beq_iff_eq.mpr hempty), updCore_setCore]
    rfl
  · rw [issues hdue, hbranches, if_neg (by simpa using hunits), if_pos hslice, updCore_setCore]
    rfl
  · rw [issues hdue, hbranches, if_neg (by simpa using hunits), if_neg (by simp [hstore]), updCore_updCore]
    rfl
  · show execDoor c s = _
    unfold execDoor
    rw [slot_issues hdue (by decide) (by decide)]
    rfl

/-- A street transfer in its core: one of no units completes in its issue's cycle, another is put in flight. -/
theorem street_transfer (k : Core) (u : Nat) (f : Flight) : { (if u == 0 then k.completes k.cycle else k.launch f) with phase := 4 } =
    { k with completed := if u = 0 then max k.completed k.cycle else k.completed, flights := if u = 0 then k.flights else k.flights ++ [f], phase := 4 } := by
  by_cases h : u = 0
  · subst h; rfl
  · simp only [h, beq_iff_eq, if_false]; rfl

/-- Settles O11: `issueSend` after its check of the stamps, and RECV, each with a transfer of no units apart. -/
theorem streetSlotIssues : Obligations.StreetSlotIssues := by
  intro s c k x ch r u f writes
  have sends (hdue : SlotDue s c 3 1) : exec (.send c) s = .next ((s.issueSend c).updCore c (fun k => { k with phase := 4 })) :=
    congrArg Host.Outcome.next (slotStep_due _ hdue (by decide) (by decide))
  have hbranches : s.issueSend c = if !s.stampsFit c ch k.cycle u then s.setCore c { k with sendFree := k.cycle + u, writes := writes }
      else
        let p := (s.setCore c { k with sendFree := k.cycle + u, writes := writes }).perturbed (fun p => p.kind == 1 && p.core == c && p.channel == ch)
        p.1.updCore c (fun k' => if u == 0 then k'.completes k'.cycle else k'.launch (.send { f with delay := p.2 })) := by
    unfold State.issueSend
    simp only [adv_core]
    rfl
  refine ⟨fun hdue => ?_, fun hdue hstamps => ?_, fun hdue hstamps => ?_, fun hdue => ?_⟩
  · rw [exec_nop c 3 s (by decide) (by decide), slot_nop hdue (by decide) (by decide)]
  · rw [sends hdue, hbranches, if_pos (by rw [hstamps]; rfl), updCore_setCore]
  · intro p
    rw [sends hdue, hbranches, if_neg (by simp [hstamps])]
    dsimp only
    rw [updCore_updCore]
    exact congrArg (fun g => Host.Outcome.next (p.1.updCore c g)) (funext fun k => street_transfer k u _)
  · show execRecv c s = _
    unfold execRecv
    rw [slot_issues hdue (by decide) (by decide)]
    simp only [adv_core]
    exact congrArg (fun k => Host.Outcome.next (s.setCore c k)) (street_transfer { k with recvFree := k.cycle + u, writes := writes } u (.recv f))

/-- Settles O12: the row-unit slot's step is its command's effect and then the bundle's retirement. -/
theorem rowSlotIssuesAndRetires : Obligations.RowSlotIssuesAndRetires := by
  intro s c k x n addr
  refine ⟨fun hdue => ?_, fun p hdue hprogram => ?_⟩
  · rw [exec_nop c 4 s (by decide) (by decide), slotStep_due4 _ hdue]
  · intro f
    have calls : exec (.call c) s = .next ((s.setCore c k.issueCall).retire c) :=
      congrArg Host.Outcome.next (slotStep_due4 (fun s => s.updCore c Core.issueCall) hdue)
    have hissue : k.issueCall = if f.count == 0 then { k.completes k.cycle with rowFree := k.cycle }
        else { k.launch (.call f) with rowFree := f.doneAt } := by
      unfold Core.issueCall
      have hentry : k.program (Row.entry (Bundle.row k.dueBundle)) = some p := hprogram
      simp only [hentry]
      rfl
    refine ⟨fun hempty => ?_, fun hfull => ?_⟩
    · rw [calls, hissue, if_pos (beq_iff_eq.mpr hempty)]
      rfl
    · rw [calls, hissue, if_neg (by simpa using hfull)]
      rfl

end Sys2Proof.Machine
end

section
/-! Events of a core outside its bundles: street units under way and their handshakes (R96, R97, R163), refreshes (R109, R111, R112), the
landing of a pass (R68), the end of an act (R88) and the notice of a stop (R397). -/
namespace Sys2Proof.Machine

/-! ### Streets -/

/-- R393: no store of street `ch` of the core is in error. -/
theorem streetSound_iff (s : State) (core ch : Nat) : s.sram.any (fun e => e.1 == .street core ch) = true ↔ ∃ e ∈ s.sram, e.1 = .street core ch := by
  simp [List.any_eq_true]

/-- Settles O13: `nextOnLink` finds the unit that passes; an arriving unit's buffer has room or not, and a handshake ends after no cycles or
after some. -/
theorem streetsMove : Obligations.StreetsMove := by
  refine ⟨fun s => ⟨fun link i hnext => ?_, fun core ch i u hfound => ?_⟩, fun s core c cycles send ch hfrozen hcompany hready => ?_⟩
  · show execLinkUnitPass link s = _
    unfold execLinkUnitPass
    rw [hnext]
    rfl
  · intro arrived
    have arrives : exec (.streetUnitArrival core ch) s = .next (if s.untaken core ch ≥ 4 then
        (if s.street.any (fun v => v.sender == u.sender && v.channel == u.channel && u.last.any (fun l => v.standsAt l.1)) then s
        else { s with street := s.street.modify i (fun u => { u with links := u.last }) })
        else if s.sram.any (fun e => e.1 == .street core ch) then arrived.coreFault core 1 6 (2 ^ 31 + ch) else arrived) := by
      show execStreetUnitArrival core ch s = _
      unfold execStreetUnitArrival
      rw [hfound]
      rfl
    refine ⟨fun hroom hsound => ?_, fun hroom hunsound => ?_, fun hfull hfree => ?_⟩
    · have hnone : ¬ ∃ e ∈ s.sram, e.1 = .street core ch := fun ⟨e, he, hstreet⟩ => hsound e he hstreet
      rw [arrives, if_neg (Nat.not_le.mpr hroom), if_neg (mt (streetSound_iff s core ch).mp hnone)]
    · rw [arrives, if_neg (Nat.not_le.mpr hroom), if_pos ((streetSound_iff s core ch).mpr hunsound)]
    · have hstage : ¬ (s.street.any (fun v => v.sender == u.sender && v.channel == u.channel && u.last.any (fun l => v.standsAt l.1))) = true := by
        simp only [List.any_eq_true, Bool.and_eq_true, beq_iff_eq]
        rintro ⟨v, hv, ⟨hsender, hchannel⟩, l, hl, hstands⟩
        rw [hfree v hv hsender hchannel l hl] at hstands
        cases hstands
      rw [arrives, if_pos hfull, if_neg hstage]
  · have hunblocked : (s.streetBlock core cycles).isSome = false := by rw [hready]; rfl
    refine ⟨fun hzero => ?_, fun hpos hlimit => ?_⟩
    all_goals
      show execHandshakeWaitEnd core cycles s = _
      unfold execHandshakeWaitEnd
      rw [hfrozen]
      dsimp only
      rw [if_neg (by simp [hunblocked]; omega)]
    · rw [if_pos (by simp [hzero])]
      rfl
    · rw [if_neg (by simp; omega), hcompany]

/-! ### Refreshes, landings and the end of an act -/

/-- A core that stands at its limit does not advance. -/
theorem advance_here {s : State} {core limit : Nat} (h : limit ≤ (s.core core).cycle) : s.advance core limit = s := by
  unfold State.advance State.runTo
  rw [if_pos (by simp [h])]

/-- R88: what the end of an act decides of a core that stands at its last cycle. -/
theorem actEnd_decides {s : State} {core c : Nat} (hrun : (s.core core).run = .running) (hphase : (s.core core).phase = 0)
    (hcompany : s.companyOf core = some c) (hcycle : (s.core core).cycle = s.scheduledCycles core)
    (hbundle : (s.core core).bundle < (s.core core).code.length → (s.core core).cycle ≤ (s.core core).issueAt) :
    exec (.actEndCheck core) s = .next (
      if (s.core core).cadence ≥ 2497 ∨ (s.core core).bundle < (s.core core).code.length ∨ (s.core core).flights ≠ [] ∨
          (s.core core).completed ≥ (s.core core).cycle then s.overrun core
      else
        let t := s.setCore core { s.core core with run := .ended }
        if (s.company c).stopping = true ∨ ∃ x ∈ s.scriptCores c, (t.core x).run ≠ .ended then t else t.barrier c) := by
  have hlast : ¬ ((s.core core).bundle < (s.core core).code.length ∧ (s.core core).issueAt < s.scheduledCycles core) := by
    rintro ⟨hb, hi⟩
    have := hbundle hb
    omega
  show execActEndCheck core s = _
  unfold execActEndCheck
  dsimp only
  rw [if_neg (by simp [State.coreRuns, hrun, hphase]; omega), advance_here (Nat.le_of_eq hcycle.symm), if_neg (by simp [hrun, hcycle])]
  refine congrArg Host.Outcome.next (ite_congr (propext ?_) (fun _ => rfl) (fun _ => ?_))
  · simp [← hcycle, or_assoc]
  · have hcompany' : (s.updCore core (fun k => { k with run := .ended })).companyOf core = some c := hcompany
    rw [hcompany']
    refine ite_congr (propext ?_) (fun _ => rfl) (fun _ => rfl)
    simp only [Bool.or_eq_true, List.any_eq_true, bne_iff_ne]
    rfl

/-- R88: a core with nothing left at its last cycle ends, and the last core of its company starts the barrier. -/
theorem actEnd_ends {s : State} {core c : Nat} (hrun : (s.core core).run = .running) (hphase : (s.core core).phase = 0)
    (hcompany : s.companyOf core = some c) (hcycle : (s.core core).cycle = s.scheduledCycles core) (hcadence : (s.core core).cadence < 2497)
    (hcode : (s.core core).code.length ≤ (s.core core).bundle) (hflights : (s.core core).flights = [])
    (hdone : (s.core core).completed < (s.core core).cycle) :
    exec (.actEndCheck core) s = .next (
      let t := s.setCore core { s.core core with run := .ended }
      if (s.company c).stopping = true ∨ ∃ x ∈ s.scriptCores c, (t.core x).run ≠ .ended then t else t.barrier c) := by
  rw [actEnd_decides hrun hphase hcompany hcycle (fun h => absurd h (Nat.not_lt.mpr hcode)), if_neg]
  rintro (h | h | h | h)
  · exact absurd h (Nat.not_le.mpr hcadence)
  · exact absurd h (Nat.not_lt.mpr hcode)
  · exact h hflights
  · exact absurd h (Nat.not_le.mpr hdone)

theorem overrun_bad {s : State} {core : Nat} (h : (s.core core).cadence < 2497) : s.overrun core = s.faultBefore core 0 2 5 := by
  unfold State.overrun
  rw [if_neg (Nat.not_le.mpr h)]

/-- Settles O15: refreshes by the core's run state; a landing in the core's next cycle; the end of an act by `actEnd_decides`. -/
theorem outsideBundles : Obligations.OutsideBundles := by
  refine ⟨fun s core c => ?_, fun s core c => ?_⟩
  · intro k refreshed
    refine ⟨fun hrun hcompany hdue => ?_, fun hrun hexists hpower hfatal => ?_, fun hrun hexists hpower hfatal => ?_,
      fun hrun hphase hcadence hlimit hstreet => ?_⟩
    · show execForcedRefresh core s = _
      unfold execForcedRefresh
      simp only [show (s.core core).run = .running from hrun, hcompany]
      rw [if_neg (by simp; exact hdue)]
      rfl
    · show execAutomaticRefresh core s = _
      unfold execAutomaticRefresh
      simp only [show (s.core core).run = .idle from hrun, hexists, hpower, hfatal]
      rfl
    · show execAutomaticRefresh core s = _
      unfold execAutomaticRefresh
      simp only [show (s.core core).run = .ended from hrun, hexists, hpower, hfatal]
      rfl
    · have hat : k.cycle + (2497 - k.cadence) = k.cycle := by omega
      show execRefreshMissed core s = _
      unfold execRefreshMissed
      dsimp only
      rw [hat, if_neg (by simp [State.coreRuns, show (s.core core).run = .running from hrun, show (s.core core).phase = 0 from hphase]; exact hlimit),
        advance_here (Nat.le_refl _)]
      unfold State.openCycle
      rw [if_neg (by simp [State.coreRuns, show (s.core core).run = .running from hrun]), hstreet]
      dsimp only
      rw [if_pos (Nat.le_of_eq hcadence.symm)]
  · intro k hrun hphase hcompany
    refine ⟨fun hlimit hpassing hlands => ?_, fun hcycle hcadence hcode hflights hdone hothers => ?_,
      fun hcycle hcadence hcode hflights hdone hothers hstopping => ?_, fun hcycle hcadence hbundle hleft => ?_, fun hstopping => ?_⟩
    · obtain ⟨m, hm⟩ : ∃ m, s.cycleLimit core - k.cycle = m + 1 := ⟨s.cycleLimit core - k.cycle - 1, by omega⟩
      show execPassGroupLanding core s = _
      unfold execPassGroupLanding
      rw [if_neg (by simp [State.coreRuns, show (s.core core).run = .running from hrun, show (s.core core).phase = 0 from hphase])]
      dsimp only
      rw [show s.cycleLimit core - (s.core core).cycle = m + 1 from hm]
      unfold State.runToLanding
      rw [if_neg (by simp [State.coreRuns, show (s.core core).run = .running from hrun]),
        if_neg (by simp [show (s.core core).passing = true from hpassing]; exact hlimit), if_pos hlands]
      rfl
    · obtain ⟨d, hd, hne, hruns⟩ := hothers
      rw [actEnd_ends hrun hphase hcompany hcycle hcadence hcode hflights hdone]
      exact congrArg Host.Outcome.next (if_pos (.inr ⟨d, hd, by rw [State.core_setCore_other _ _ (Ne.symm hne)]; exact hruns⟩))
    · rw [actEnd_ends hrun hphase hcompany hcycle hcadence hcode hflights hdone]
      refine congrArg Host.Outcome.next (if_neg ?_)
      rintro (h | ⟨x, hx, hx_runs⟩)
      · rw [hstopping] at h; cases h
      · by_cases hself : core = x
        · subst hself
          rw [State.core_setCore_same] at hx_runs
          exact hx_runs rfl
        · rw [State.core_setCore_other _ _ hself] at hx_runs
          exact hx_runs (hothers x hx (Ne.symm hself))
    · rw [actEnd_decides hrun hphase hcompany hcycle hbundle, if_pos (.inr hleft), overrun_bad hcadence]
    · show execStopNotice core s = _
      unfold execStopNotice
      simp only [hcompany, hstopping, show (s.core core).run = .running from hrun, show (s.core core).phase = 0 from hphase]
      rfl

end Sys2Proof.Machine
end

section
/-! A company's stops and its waits at step 3 (R108, R300, R335, R347, R399), and the comparison with its understudy (R298 to R300). -/
namespace Sys2Proof.Machine

/-- Settles O17: a company asked to stop stops before the choice; the report of a held curtain names the first act that waits. -/
theorem curtainWaits : Obligations.CurtainWaits := by
  refine ⟨fun s c hchoice hawake hgoing hasked => ?_, fun s c a i kind name => ?_⟩
  · show execActChoice c s = _
    unfold execActChoice
    dsimp only
    rw [if_neg (by simp [hchoice, hawake, hgoing]), if_pos (by simpa [Option.isSome_iff_ne_none] using hasked)]
  · intro k hchoice hwatch hfresh hdue hnone hscene hfirst
    show execCurtainHeld c s = _
    unfold execCurtainHeld
    dsimp only
    rw [if_neg (by simp [show (s.company c).at_ = .choice from hchoice, show ¬(s.company c).watch = 0#64 from hwatch,
      show (s.company c).heldPosted = false from hfresh, hnone, hscene]; exact hdue), hfirst]
    rfl

theorem postPairStop_posts (s : State) (c : Nat) (p : Option (Nat × Nat)) : Posts s (s.postPairStop c p) := by
  unfold State.postPairStop
  split
  · exact Posts.refl s
  · exact State.postDeviceFor_posts _ _ _ _

/-- R399: what the clean-up of a stop leaves of the company's curtain, launch, holds and faults; the records it posts do not touch the
company. -/
theorem finishStop_company (s : State) (c : Nat) (notify : Bool) :
    let k := (s.finishStop c notify).company c
    k.at_ = .none ∧ k.stopping = false ∧ k.launching = false ∧ k.launchCmd = none ∧ k.haltCmds = [] ∧ k.pairStop = none ∧
      k.refused = [] ∧ k.refusedAt = none ∧ k.landedNames = [] ∧ k.landedContexts = [] ∧ k.primary = none ∧ k.faults = 0 ∧
      k.stopRecords = [] := by
  unfold State.finishStop
  dsimp only
  split
  · rw [(postPairStop_posts _ c _).company c, State.company_updCompany_same]
    exact ⟨rfl, rfl, rfl, rfl, rfl, rfl, rfl, rfl, rfl, rfl, rfl, rfl, rfl⟩
  · rw [(State.postCompany_posts _ c _ _).company c, (postPairStop_posts _ c _).company c, State.company_updCompany_same]
    exact ⟨rfl, rfl, rfl, rfl, rfl, rfl, rfl, rfl, rfl, rfl, rfl, rfl, rfl⟩

/-- Settles O21: the stop is `finishStop`, and `finishStop_company` is what it leaves of the company. -/
theorem companyStops : Obligations.CompanyStops := by
  intro s c hstopping hstand
  refine ⟨s.finishStop c, ?_, rfl, finishStop_company s c true⟩
  show execCompanyHalted c s = _
  unfold execCompanyHalted
  rw [if_pos (by rw [hstopping, hstand]; rfl)]

/-- R300: what becomes of a company whose pair ends by its partner's stop. -/
theorem losePair_eq {s : State} {c : Nat} {p : Pair} (h : (s.company c).pair = some p) (code : Nat) : s.losePair c code =
    let t := s.setCompany c { s.company c with pair := none, sigSent := false, partnerSigs := none, comparedAt := none }
    if s.companyIdle c then t.postDeviceFor c code (pack [(c, 5), (0, 3), (p.link, 4)])
    else t.updCompany c (fun k => { k with pairStop := some (code, p.link) }) := by
  have hends : s.endPair c false = s.setCompany c { s.company c with pair := none, sigSent := false, partnerSigs := none, comparedAt := none } := by
    unfold State.endPair
    rw [h]
    rfl
  have hidle : (s.endPair c false).companyIdle c = s.companyIdle c := by
    unfold State.companyIdle
    rw [hends, State.company_setCompany_same]
  unfold State.losePair
  rw [h]
  dsimp only
  rw [hidle, hends]
  rfl

/-- Settles O22: the partner's signatures are kept and then compared (`compareSignatures_wait`, `_same`, `_differ`); its stop ends the pair. -/
theorem understudyCompares : Obligations.UnderstudyCompares := by
  intro s c p sigs k own hpair
  have hstored (q : Company) : (s.setCompany c q).company c = q := State.company_setCompany_same _ _ _
  have exchanges : exec (.signatureExchange c sigs) s = .next ((s.setCompany c { k with partnerSigs := some sigs }).compareSignatures c) := by
    show execSignatureExchange c sigs s = _
    unfold execSignatureExchange
    rw [if_neg (by simp [show (s.company c).pair = some p from hpair])]
    rfl
  have hown : (s.setCompany c { k with partnerSigs := some sigs }).signatures c = own := signatures_setCompany _ _ _ rfl rfl rfl
  refine ⟨fun hunsent => ?_, fun hsent hsame => ?_, fun i hsent hlength hi hdiffer hactive => ?_, fun hactive => ?_, fun hidle => ?_⟩
  · rw [exchanges, compareSignatures_wait (by rw [hstored]; exact hunsent)]
  · rw [exchanges, compareSignatures_same (by rw [hstored]; exact hpair) (by rw [hstored]; exact hsent) (by rw [hstored, hown, hsame]),
      hstored, State.setCompany_setCompany]
    rfl
  · obtain ⟨body, hbody⟩ := compareSignatures_differ (c := c) (i := i) (u := s.setCompany c { k with partnerSigs := some sigs }) (sigs := sigs)
      (by rw [hstored]; exact hpair) (by rw [hstored]; exact hsent) (by rw [hstored]) (by rw [hown]; exact hlength) (by rw [hown]; exact hi)
      (by rw [hown]; exact hdiffer) (by unfold State.companyIdle; rw [hstored]; exact hactive)
    rw [exchanges, hbody, hstored, State.setCompany_setCompany]
    exact ⟨_, body, rfl, rfl⟩
  · show execUnderstudyPartnerStopped c s = _
    unfold execUnderstudyPartnerStopped
    rw [losePair_eq hpair]
    dsimp only
    rw [if_neg (by simp [hactive])]
    unfold State.updCompany
    rw [State.company_setCompany_same, State.setCompany_setCompany]
  · refine ⟨_, ?_, rfl⟩
    show execUnderstudyPartnerStopped c s = _
    unfold execUnderstudyPartnerStopped
    rw [losePair_eq hpair]
    dsimp only
    rw [if_pos hidle]

end Sys2Proof.Machine
end

section
/-! Admission against the house budget (R99, R360 to R363), ballast ramps and tapers (R361, R362, R365, R369), and the order of their waves
(R367). -/
namespace Sys2Proof.Machine

/-! ### Admission -/

/-- What the ballast's record says of a company does not touch the figures of its acts. -/
theorem figures_of_ballast {s u : State} {c e b : Nat} (h : u.company c = { s.company c with ballastEnergy := e, ballastSince := b }) (a : Nat) :
    u.figures c a = s.figures c a := by
  unfold State.figures State.actDesc State.companyMHz
  rw [h]

theorem waveOrder_of_districts {s u : State} {c : Nat} (hd : (u.company c).districts = (s.company c).districts)
    (hr : (u.company c).reproducible = (s.company c).reproducible) (ht : u.temps = s.temps) : u.waveOrder c = s.waveOrder c := by
  unfold State.waveOrder
  dsimp only
  rw [hd, hr, ht]

theorem companyRamp_of_districts {s u : State} {c : Nat} (hd : (u.company c).districts = (s.company c).districts) (hr : u.ramp = s.ramp) (a b : Nat) :
    u.companyRamp c a b = s.companyRamp c a b := by
  unfold State.companyRamp
  rw [hd, hr]

/-- R361, R365, R367: what an admission changes of the running set and of its company. -/
theorem grantAct_spec (s : State) (c a : Nat) :
    let k := s.company c
    let t := s.grantAct c a
    let first := if s.isEmptyAct c a then s.now else max s.now (k.taperEnd.getD 0)
    let n := if s.isEmptyAct c a then 0 else s.companyRamp c k.ballast (s.figures c a).first
    Aside c s t ∧
    t.running = s.running.filter (fun e => e.company != c) ++
      [⟨c, if s.isEmptyAct c a then 0 else (s.figures c a).mean, if s.isEmptyAct c a then 0 else (s.figures c a).peak, s.sustained, s.peak⟩] ∧
    t.company c = { k with
      at_ := .ramp a first (first + n), refused := [], refusedAt := none, ballastSince := max k.ballastSince s.now
      ballastEnergy := (t.company c).ballastEnergy, taperFrees := false
      waves := if n = 0 then k.waves else k.waves.filter (fun v => decide (v.first + v.ticks > s.now)) ++
        [{ order := s.waveOrder c, first := first, ticks := n, before := k.ballast, after := (s.figures c a).first, taper := false }] } := by
  intro k t first n
  have haside := s.holdBallast_aside c k.ballast s.now
  obtain ⟨e, b, u, hheld, hcompany, hstate, hsince⟩ := s.holdBallast_spec c k.ballast s.now
  have hfigures := figures_of_ballast hcompany a
  have hramp := companyRamp_of_districts (s := s) (u := u) (c := c) (by rw [hcompany]) (by rw [hstate]) k.ballast (s.figures c a).first
  let v := u.enterRunning c (if s.isEmptyAct c a then {} else s.figures c a)
  have hv : v.company c = { k with ballastEnergy := e, ballastSince := b } := hcompany
  have hnow : v.now = s.now := by show u.now = s.now; rw [hstate]; rfl
  have horder : v.waveOrder c = s.waveOrder c :=
    waveOrder_of_districts (by rw [hv]) (by rw [hv]) (by show u.temps = s.temps; rw [hstate])
  have ht : t = (v.addWaves c first n k.ballast (s.figures c a).first false).updCompany c (fun k => { k with
      at_ := .ramp a first (first + n), refused := [], refusedAt := none, taperFrees := false }) := by
    show s.grantAct c a = _
    unfold State.grantAct
    dsimp only
    rw [hheld, hfigures, hramp, show u.now = s.now from hnow]
  obtain ⟨hrunning, hwaves⟩ := v.addWaves_facts c first n k.ballast (s.figures c a).first false
  rw [ht]
  refine ⟨?_, ?_, ?_⟩
  · rw [hheld] at haside
    exact ((haside.trans (State.setRunning_aside u c _)).trans (State.addWaves_aside v c _ _ _ _ _)).trans (State.updCompany_aside _ _ _)
  · refine hrunning.trans ?_
    show u.running.filter _ ++ [⟨c, Figures.mean _, Figures.peak _, u.sustained, u.peak⟩] = _
    rw [hstate]
    cases s.isEmptyAct c a <;> rfl
  · rw [State.company_updCompany_same, hwaves, hv, hsince, horder, hnow]

/-- R362: a company at admission has its turn where every other at admission came later, or with it under a higher number. -/
theorem admissionTurn_of_order {s : State} {c : Nat} (hc : c < 32) (h : ∀ d < 32, d ≠ c → State.atAdmission (s.company d) = true →
    (s.company c).admissionAt < (s.company d).admissionAt ∨ (s.company c).admissionAt = (s.company d).admissionAt ∧ c < d) :
    s.admissionTurn c = true := by
  unfold State.admissionTurn
  rw [List.all_eq_true]
  intro d hd
  by_cases hself : d = c
  · simp [hself]
  · cases hat : State.atAdmission (s.company d)
    · simp
    · have horder := h d (List.mem_range.mp hd) hself hat
      have hrank : 32 * (s.company c).admissionAt + c < 32 * (s.company d).admissionAt + d := by omega
      simp [hrank]

theorem atAdmission_of {k : Company} {a : Nat} (hat : k.at_ = .admission a) (hgoing : k.stopping = false)
    (hfree : k.reproducible = true → k.refusedAt = none) : State.atAdmission k = true := by
  unfold State.atAdmission
  rw [hat, hgoing]
  cases hr : k.reproducible
  · rfl
  · rw [hfree hr]; rfl

/-- R363: what a refusal makes of the company. -/
theorem refuse_eq (s : State) (c a : Nat) : s.refuse c a =
    let k := s.company c
    let report := !k.unadmittable && !s.fitsBudget [] (s.figures c a)
    let t := s.setCompany c { k with
      refusedAt := some (s.now + 2500), refused := if k.reproducible then k.refused else k.refused ++ [a]
      at_ := if k.reproducible then k.at_ else .choice, unadmittable := k.unadmittable || report }
    if report then t.postDeviceFor c 0x23 (t.powerBody 5 c a) else t := rfl

/-- Settles O18: a company whose turn it is is granted its act (`grantAct_spec`) or refused (`refuse_eq`). -/
theorem admissionDecides : Obligations.AdmissionDecides := by
  intro s c a k
  refine ⟨fun hat hawake hgoing hfree hc horder => ?_, fun t hrefused hdue => ?_⟩
  · have decides : exec (.admission c) s = .next (if s.admits c a then s.grantAct c a else s.refuse c a) := by
      show execAdmission c s = _
      unfold execAdmission
      dsimp only
      rw [show (s.company c).at_ = .admission a from hat]
      dsimp only
      rw [if_neg (by simp [hawake, show State.atAdmission (s.company c) = true from atAdmission_of hat hgoing hfree, admissionTurn_of_order hc horder])]
    refine ⟨fun hadmits => ?_, fun hrefuses hsilent => ?_, fun hrefuses hfresh hhopeless => ?_⟩
    · obtain ⟨haside, hrunning, hcompany⟩ := grantAct_spec s c a
      exact ⟨s.grantAct c a, by rw [decides, if_pos hadmits], haside, hrunning, _, _, rfl, rfl, hcompany⟩
    · have hreport : (!k.unadmittable && !s.fitsBudget [] (s.figures c a)) = false := by
        rcases hsilent with h | h <;> simp [h]
      rw [decides, if_neg (by simp [hrefuses]), refuse_eq]
      dsimp only
      rw [hreport, Bool.or_false]
      rfl
    · have hreport : (!k.unadmittable && !s.fitsBudget [] (s.figures c a)) = true := by simp [hfresh, hhopeless]
      refine ⟨_, ?_, rfl⟩
      rw [decides, if_neg (by simp [hrefuses]), refuse_eq]
      dsimp only
      rw [hreport, Bool.or_true]
      rfl
  · show execAdmissionReevaluation c s = _
    unfold execAdmissionReevaluation
    rw [show (s.company c).refusedAt = some t from hrefused]
    dsimp only
    rw [if_pos hdue]
    rfl

/-! ### Ballast -/

/-- R365, R369: what a taper begun from a level held up to now changes of its company. -/
theorem taper_from_held (s : State) (c level : Nat) (hnone : (s.company c).taperEnd = none) :
    let t := (s.holdBallast c level s.now).startTaper c level false
    Aside c s t ∧ t.running = s.running ∧ t.company c = { s.company c with
      ballast := 0, taperEnd := some (s.now + s.companyRamp c level 0), ballastSince := s.now + s.companyRamp c level 0
      ballastEnergy := (t.company c).ballastEnergy, taperFrees := false, waves := (t.company c).waves } := by
  intro t
  obtain ⟨e, b, u, hheld, hcompany, hstate, hsince⟩ := s.holdBallast_spec c level s.now
  obtain ⟨e', w, v, hv, hvcompany, hvstate⟩ := u.startTaper_spec c level false
  have ht : t = v := by rw [← hv, ← hheld]
  have hramp : u.companyRamp c level 0 = s.companyRamp c level 0 :=
    companyRamp_of_districts (by rw [hcompany]) (by rw [hstate]) level 0
  have hnow : u.now = s.now := by rw [hstate]; rfl
  refine ⟨(s.holdBallast_aside c level s.now).trans (State.startTaper_aside _ c level false), ?_, ?_⟩
  · rw [ht, hvstate, hstate]
  · rw [ht, hvcompany, hcompany, hramp, hnow, hnone]
    simp

/-- R361, R362: what the end of a taper makes of a state. -/
theorem execBallastTaperEnd_due {s : State} {c e : Nat} (hend : (s.company c).taperEnd = some e) (hdue : e ≤ s.now) :
    exec (.ballastTaperEnd c) s = .next (State.promptOthers { s.setCompany c { s.company c with taperEnd := none, taperFrees := false } with
      running := if (s.company c).taperFrees then s.running.filter (fun e => e.company != c) else s.running } c) := by
  show execBallastTaperEnd c s = _
  unfold execBallastTaperEnd
  dsimp only
  rw [hend]
  dsimp only
  rw [if_neg (Nat.not_lt.mpr hdue)]
  cases (s.company c).taperFrees <;> rfl

/-! ### The order of waves -/

/-- R367: cooler first, and by number among districts of one temperature. -/
def CoolerFirst (temp : Nat → Nat) (d e : Nat) : Prop := temp d < temp e ∨ temp d = temp e ∧ d < e

/-- A district put behind those that are as cool: the step by which `State.waveOrder` sorts (`waveOrder_eq`). -/
def insertByHeat (temp : Nat → Nat) (l : List Nat) (d : Nat) : List Nat :=
  l.takeWhile (fun e => decide (temp e ≤ temp d)) ++ d :: l.dropWhile (fun e => decide (temp e ≤ temp d))

/-- The districts of a company's mask. -/
def Company.districtList (k : Company) : List Nat := (List.range 32).filter (fun d => k.districts.toNat.testBit d)

theorem waveOrder_eq (s : State) (c : Nat) : s.waveOrder c = if (s.company c).reproducible then (s.company c).districtList
    else (s.company c).districtList.foldl (insertByHeat (fun d => SMap.get 720 s.temps d)) [] := rfl

theorem insertByHeat_perm (temp : Nat → Nat) (l : List Nat) (d : Nat) : (insertByHeat temp l d).Perm (d :: l) := by
  unfold insertByHeat
  refine List.perm_middle.trans ?_
  rw [List.takeWhile_append_dropWhile]

theorem insertByHeat_sorted {temp : Nat → Nat} {l : List Nat} {d : Nat} (hl : l.Pairwise (CoolerFirst temp)) (hd : ∀ e ∈ l, e < d) :
    (insertByHeat temp l d).Pairwise (CoolerFirst temp) := by
  induction l with
  | nil => exact List.pairwise_singleton _ _
  | cons x t ih =>
    obtain ⟨hx, ht⟩ := List.pairwise_cons.mp hl
    by_cases hcool : temp x ≤ temp d
    · have hstep : insertByHeat temp (x :: t) d = x :: insertByHeat temp t d := by simp [insertByHeat, hcool]
      rw [hstep]
      refine List.pairwise_cons.mpr ⟨fun y hy => ?_, ih ht fun e he => hd e (List.mem_cons_of_mem x he)⟩
      rcases List.mem_cons.mp ((insertByHeat_perm temp t d).mem_iff.mp hy) with rfl | hmem
      · have := hd x List.mem_cons_self
        unfold CoolerFirst
        omega
      · exact hx y hmem
    · have hstep : insertByHeat temp (x :: t) d = d :: x :: t := by simp [insertByHeat, hcool]
      rw [hstep]
      refine List.pairwise_cons.mpr ⟨fun y hy => ?_, hl⟩
      have hxy : temp x ≤ temp y := by
        rcases List.mem_cons.mp hy with rfl | hmem
        · exact Nat.le_refl _
        · have := hx y hmem
          unfold CoolerFirst at this
          omega
      exact .inl (by omega)

/-- Districts inserted in ascending order come out in heat order. -/
theorem heatSort_spec (temp : Nat → Nat) (ds l : List Nat) (hds : ds.Pairwise (· < ·)) (hl : l.Pairwise (CoolerFirst temp))
    (hlow : ∀ e ∈ l, ∀ d ∈ ds, e < d) :
    (ds.foldl (insertByHeat temp) l).Perm (l ++ ds) ∧ (ds.foldl (insertByHeat temp) l).Pairwise (CoolerFirst temp) := by
  induction ds generalizing l with
  | nil => exact ⟨by simp, hl⟩
  | cons d ds ih =>
    obtain ⟨hd, hds⟩ := List.pairwise_cons.mp hds
    have hperm := insertByHeat_perm temp l d
    obtain ⟨h1, h2⟩ := ih (insertByHeat temp l d) hds (insertByHeat_sorted hl fun e he => hlow e he d List.mem_cons_self) fun e he x hx => by
      rcases List.mem_cons.mp (hperm.mem_iff.mp he) with rfl | hmem
      · exact hd x hx
      · exact hlow e hmem x (List.mem_cons_of_mem d hx)
    exact ⟨h1.trans ((hperm.append_right ds).trans List.perm_middle.symm), h2⟩

theorem districtList_ascending (k : Company) : k.districtList.Pairwise (· < ·) := List.pairwise_lt_range.filter _

theorem mem_districtList (k : Company) (d : Nat) : d ∈ k.districtList ↔ d < 32 ∧ k.districts.toNat.testBit d = true := by
  unfold Company.districtList
  rw [List.mem_filter, List.mem_range]

/-- Settles O19: the level held tapers (`taper_from_held`); a taper's end frees the running set and prompts the others
(`execBallastTaperEnd_due`); the order of the waves is ascending or sorted by heat (`heatSort_spec`). -/
theorem ballastTapers : Obligations.BallastTapers := by
  refine ⟨fun s c => ?_, fun s c => ?_⟩
  · intro k
    refine ⟨fun hwaits hballast hnone hdue => ?_, fun e hend hdue => ?_⟩
    · obtain ⟨haside, hrunning, hcompany⟩ := taper_from_held s c k.ballast hnone
      refine ⟨_, ?_, haside, hrunning, hcompany⟩
      have hw : (match k.at_ with | .choice => true | .admission _ => true | .ramp a _ _ => s.isEmptyAct c a | .none => false) = true := by
        rcases hwaits with h | ⟨a, h⟩ | ⟨a, f, d, h, hempty⟩
        · rw [h]
        · rw [h]
        · rw [h]; exact hempty
      show execBallastHoldExpiry c s = _
      unfold execBallastHoldExpiry
      dsimp only
      refine congrArg Host.Outcome.next (if_neg ?_)
      simp only [Bool.or_eq_true, Bool.not_eq_true', beq_iff_eq, decide_eq_true_eq]
      rintro (((h | h) | h) | h)
      · exact absurd (hw.symm.trans h) (by decide)
      · exact hballast h
      · rw [show (s.company c).taperEnd = none from hnone] at h; cases h
      · exact absurd h (Nat.not_lt.mpr hdue)
    · refine ⟨_, execBallastTaperEnd_due hend hdue, rfl, rfl, ?_, fun d hd => ?_⟩
      · exact (State.promptOthers_same _ c).trans (State.company_setCompany_same _ _ _)
      · refine (State.promptOthers_other _ hd).trans ?_
        rw [show (State.company { s.setCompany c { s.company c with taperEnd := none, taperFrees := false } with
          running := if (s.company c).taperFrees then s.running.filter (fun e => e.company != c) else s.running } d) = s.company d
          from State.company_setCompany_other _ _ (Ne.symm hd)]
  · intro mine temp
    obtain ⟨hperm, hsorted⟩ := heatSort_spec temp (s.company c).districtList [] (districtList_ascending _) List.Pairwise.nil (by simp)
    refine ⟨fun d => ?_, fun hr => ?_, fun hr => ?_⟩
    · rw [waveOrder_eq]
      split
      · exact mem_districtList _ d
      · exact (hperm.mem_iff).trans (mem_districtList _ d)
    · rw [waveOrder_eq, if_pos hr]
      exact districtList_ascending _
    · rw [waveOrder_eq, if_neg (by simp [hr])]
      exact hsorted

end Sys2Proof.Machine
end

section
/-! The curtain-up (R81, R93, R99, R121, R208, R286, R347): what it changes before the cores start, and the start of each. -/
namespace Sys2Proof.Machine

/-- R99 step 8: what a curtain-up makes of the company's record, but for its ballast energy, `k'`'s. -/
def Company.raised (k k' : Company) (s : State) (c a due at_ : Nat) : Company :=
  let slip := if k.reproducible then at_ - due else 0
  { k with
    mode := .running, at_ := .none, cut := false, clock := k.clock.apply, trap := k.trap.apply, plan := k.plan.apply
    act := a, curtain := k.curtain + 1, step := if s.broadcastAct c a then k.step + 1 else k.step
    launching := false, launchCmd := none, upCount := at_, upCycles := Act.scheduled (s.actDesc c a)
    ballast := if s.isEmptyAct c a then k.ballast else 0
    landedNames := [], landedContexts := [], late := 0, forced := 0, slip := slip
    taint := k.taint || decide (slip > 0), actTaint := k.actTaint || decide (slip > 0), cues := s.frozenClasses c, comparedAt := none
    ballastEnergy := k'.ballastEnergy, ballastSince := k'.ballastSince }

theorem raised_raised (k k' : Company) (s : State) (c a due at_ : Nat) :
    k.raised (k.raised k' s c a due at_) s c a due at_ = k.raised k' s c a due at_ := rfl

/-- The frozen cues and the queued counter settings of the company's cores applied at a curtain-up (R101, R424). -/
def State.applySettings (s : State) (cores : List Nat) : State :=
  cores.foldl (fun s x => s.applyConfigs x) (s.updCores cores (fun _ k => k.applyCues))

theorem updCores_companies (s : State) (l : List Nat) (f : Nat → Core → Core) : (s.updCores l f).companies = s.companies :=
  foldl_same (fun u : State => u.companies) l _ s fun _ _ _ => rfl

theorem applySettings_companies (s : State) (cores : List Nat) : (s.applySettings cores).companies = s.companies :=
  (foldl_comp cores _ _ fun u _ hx => (State.applyConfigs_stirs 0 u hx).2).trans (updCores_companies s cores _)

theorem applyCues_idle (k : Core) : k.applyCues.idle = k.idle := by
  unfold Core.applyCues Core.applyApron Core.applyScales Core.applyTables
  dsimp only
  repeat' split
  all_goals rfl

/-- Cues and counter settings touch the cores named, counters and nothing of a company. -/
theorem applySettings_stirs (c : Nat) (s : State) (cores : List Nat) : Stirs cores c s (s.applySettings cores) :=
  (foldl_stirs cores _ s fun u _ hx => State.updCore_stirs c u hx _ fun k b hb => .inl (by rw [applyCues_idle] at hb; exact hb)).trans
    (foldl_stirs cores _ _ fun u x hx => (State.applyConfigs_stirs c u hx).1)

theorem applySettings_idle (s : State) (cores : List Nat) (y : Nat) : ((s.applySettings cores).core y).idle = (s.core y).idle := by
  refine (foldl_same (fun u : State => (u.core y).idle) cores _ _ fun u x _ => State.applyConfigs_idle u x y).trans ?_
  refine foldl_same (fun u : State => (u.core y).idle) cores _ s fun u x _ => ?_
  dsimp only
  rw [State.core_updCore]
  split
  · subst_vars; exact applyCues_idle _
  · rfl

/-- The state of a curtain-up before any core starts. -/
def State.curtainRaised (s : State) (c a due at_ : Nat) : State :=
  let t := (s.curtainEnergy c at_).applySettings (s.scriptCores c)
  (t.setCompany c ((s.company c).raised (t.company c) s c a due at_)).completeWaiting (s.company c).launchCmd c St.ok

theorem scriptCores_of_company {s t : State} {c : Nat} (hs : (t.company c).script = (s.company c).script)
    (hd : (t.company c).districts = (s.company c).districts) (hp : t.part = s.part) : t.scriptCores c = s.scriptCores c := by
  simp only [State.scriptCores, State.companyCores, State.scriptRows, State.coreExists, State.gridRows, hs, hd, hp]
  rfl

/-- The curtain's energy and the settings of the cores leave of the company's record all but its ballast energy. -/
theorem energySettings_company (s : State) (c t : Nat) (cores : List Nat) : ∃ e b, ((s.curtainEnergy c t).applySettings cores).company c =
    { s.company c with ballastEnergy := e, ballastSince := b } := by
  obtain ⟨e, b, h⟩ := s.curtainEnergy_company c t
  refine ⟨e, b, Eq.trans ?_ h⟩
  unfold State.company
  rw [applySettings_companies]

theorem raiseCurtain_eq (s : State) (c a due at_ : Nat) : s.raiseCurtain c a due at_ =
    let t := s.curtainRaised c a due at_
    if s.isEmptyAct c a then (t.updCores (t.scriptCores c) (fun _ k => { k.begin a [] [] with run := .ended })).barrier c
    else (t.scriptCores c).foldl (fun s x => s.startCore c a x) t := by
  obtain ⟨e₀, b₀, h₀⟩ := s.curtainEnergy_company c at_
  have hcores : (s.curtainEnergy c at_).scriptCores c = s.scriptCores c :=
    scriptCores_of_company (by rw [h₀]) (by rw [h₀]) (by rw [(s.curtainEnergy_aside c at_).state])
  obtain ⟨e, b, h⟩ := energySettings_company s c at_ (s.scriptCores c)
  unfold State.raiseCurtain State.curtainRaised
  dsimp only
  rw [hcores]
  unfold State.applySettings at *
  generalize List.foldl (fun s x => State.applyConfigs s x) ((s.curtainEnergy c at_).updCores (s.scriptCores c) fun x k => k.applyCues)
    (s.scriptCores c) = t at *
  have hact : t.actDesc c a = s.actDesc c a := by
    unfold State.actDesc
    rw [h]
  have hbroadcast : t.broadcastAct c a = s.broadcastAct c a := by
    unfold State.broadcastAct
    rw [hact]
  rw [hact, hbroadcast]
  unfold State.updCompany
  rw [h]
  rfl

theorem curtainEnergy_idle (s : State) (c t x : Nat) : ((s.curtainEnergy c t).core x).idle = (s.core x).idle := by
  rw [(s.curtainEnergy_aside c t).core x]

/-- What stands before any core starts: only the company's record, its cores' settings, counters and records have changed. -/
theorem curtainRaised_spec (s : State) (c a due at_ : Nat) :
    let t := s.curtainRaised c a due at_
    Stirs (s.scriptCores c) c s t ∧ t.company c = (s.company c).raised (t.company c) s c a due at_ ∧ t.scriptCores c = s.scriptCores c ∧
      (∀ d, d ≠ c → t.company d = s.company d) ∧ ∀ x, (t.core x).idle = (s.core x).idle := by
  intro t
  let v := (s.curtainEnergy c at_).applySettings (s.scriptCores c)
  let w := v.setCompany c ((s.company c).raised (v.company c) s c a due at_)
  have hposts : Posts w t := State.completeWaiting_posts w _ c St.ok
  have hcompany : t.company c = (s.company c).raised (v.company c) s c a due at_ :=
    (hposts.company c).trans (State.company_setCompany_same _ _ _)
  have hstirs : Stirs (s.scriptCores c) c s t :=
    (((State.curtainEnergy_stirs _ s c at_).trans (applySettings_stirs c _ _)).trans (State.setCompany_stirs _ v c _)).trans
      (hposts.counts.stirs _ c)
  refine ⟨hstirs, by rw [hcompany, raised_raised], scriptCores_of_company (by rw [hcompany]; rfl) (by rw [hcompany]; rfl) (by rw [hstirs.state]), ?_, ?_⟩
  · intro d hd
    rw [hposts.company d, State.company_setCompany_other _ _ (Ne.symm hd)]
    have hother := (s.curtainEnergy_aside c at_).others d hd
    unfold State.company at hother ⊢
    rw [applySettings_companies]
    exact hother
  · intro x
    rw [hposts.core x, State.setCompany_core_of]
    exact (applySettings_idle _ _ x).trans (curtainEnergy_idle s c at_ x)

/-- The changes a curtain-up may make, in the words of the statement. -/
theorem Stirs.frame {l : List Nat} {c : Nat} {s t : State} (h : Stirs l c s t) : t = { s with
      mem := t.mem, upsets := t.upsets, rings := t.rings, cores := t.cores, companies := t.companies, districtCounters := t.districtCounters
      chipCounters := t.chipCounters, fresh := t.fresh } ∧
    (∀ x, OutsideRecords x → Memory.read t.mem x = Memory.read s.mem x ∧ SMap.get 0 t.upsets x = SMap.get 0 s.upsets x) ∧
    (∀ x, x ∉ l → t.core x = { s.core x with counters := (t.core x).counters }) :=
  ⟨h.state, fun x hx => ⟨h.bytes x hx, h.errors x hx⟩, h.core⟩

/-- R99: a due curtain-up is `raiseCurtain`. -/
theorem exec_curtainUp {s : State} {c a due at_ : Nat} (hawake : s.awake = true) (hgoing : (s.company c).stopping = false)
    (hdue : s.curtainDue c = some (a, due, at_)) : exec (.curtainUp c) s = .next (s.raiseCurtain c a due at_) := by
  show execCurtainUp c s = _
  unfold execCurtainUp
  rw [if_neg (by simp [hawake, hgoing]), hdue]

/-- R81, R121: the cores of an empty act come to cycle 0 and end there. -/
theorem emptyAct_cores (s : State) (c a : Nat) (l : List Nat) (hl : l.Nodup) :
    let u := s.updCores l (fun _ k => { k.begin a [] [] with run := .ended })
    Stirs l c s u ∧ u.companies = s.companies ∧ ∀ x ∈ l, (u.core x).run = .ended ∧ (u.core x).cycle = 0 ∧ (u.core x).a = [] ∧ (u.core x).l = [] ∧
      (u.core x).holds = [] ∧ (u.core x).flights = [] ∧ (u.core x).sig = mix (BitVec.ofNat 64 (a + 1)) := by
  refine ⟨foldl_stirs l _ s fun u x hx => State.updCore_stirs c u hx _ fun k b hb => .inl hb, updCores_companies s l _, fun x hx => ?_⟩
  rw [(updCores_once l s _ hl).2.1 x hx]
  exact ⟨rfl, rfl, rfl, rfl, rfl, rfl, rfl⟩

/-- Settles O20: the state before any core starts (`curtainRaised_spec`), then the start of each core (`foldl_startCore` and its companions)
or, for an empty act, their ends (`emptyAct_cores`). -/
theorem curtainRises : Obligations.CurtainRises := by
  intro s c a due at_ k cores slip hawake hgoing hdue up frame
  obtain ⟨hstirs, hcompany, hcores, hothers, hidle⟩ := curtainRaised_spec s c a due at_
  generalize ht : s.curtainRaised c a due at_ = t at hstirs hcompany hcores hothers hidle
  have hrises := exec_curtainUp hawake hgoing hdue
  rw [raiseCurtain_eq, ht] at hrises
  dsimp only at hrises
  rw [hcores] at hrises
  refine ⟨fun hfull => ?_, fun hempty => ?_⟩
  · rw [if_neg (by simp [hfull])] at hrises
    have hstart := (foldl_startCore c c a (l := cores) cores t fun _ h => h)
    have hstart' := (foldl_startCore (c + 1) c a (l := cores) cores t fun _ h => h)
    have hown := foldl_startCore_company c a cores t c
    have hcode := foldl_startCore_code c a cores t (fun _ h => h) (scriptCores_nodup s c)
    generalize cores.foldl (fun s x => s.startCore c a x) t = u at *
    have hall := hstirs.trans hstart.1
    refine ⟨u, hrises, hall.frame, hall.others, ?_, fun hsound => ⟨?_, hall.same hsound, fun x hx => ?_⟩⟩
    · rw [hown, hcompany]; rfl
    · rw [hstart'.1.same (hstirs.sound hsound) c (by omega)]; exact hcompany
    · obtain ⟨hrun, hcycle, hbundle, hphase, ha, hl, hloops, hflights, hcadence, hsig⟩ := (hstart.2 (hstirs.sound hsound)).1 x hx
      exact ⟨hrun, hcycle, hbundle, hphase, ha, hl, hloops, hflights, hcadence, hsig,
        fun b hb hact => hcode (hstirs.sound hsound) x hx b (by rw [hidle]; exact hb) hact⟩
  · rw [if_pos hempty] at hrises
    obtain ⟨hends, hsame, hcore⟩ := emptyAct_cores t c a cores (scriptCores_nodup s c)
    generalize t.updCores cores (fun _ k => { k.begin a [] [] with run := .ended }) = u at *
    have hcompanies (d : Nat) : u.company d = t.company d := by show SMap.get {} u.companies d = _; rw [hsame]; rfl
    refine ⟨u, hrises, (hstirs.trans hends).frame, ?_, fun d hd => (hcompanies d).trans (hothers d hd), hcore⟩
    rw [hcompanies c, hcompany]; rfl

end Sys2Proof.Machine
end

section
/-! What a command's checks say once they have passed (R330), taken apart check by check. -/
namespace Sys2Proof.Machine

theorem firstFail_nil_none : firstFail [] = none := rfl

/-- A list of checks finds nothing where its first check and the others find nothing. -/
theorem firstFail_cons_none (c : Check) (l : List Check) : firstFail (c :: l) = none ↔ c = none ∧ firstFail l = none := by
  simp only [firstFail_none, List.forall_mem_cons]

/-- A check that finds nothing is passed over. -/
theorem firstFail_pass {c : Check} (l : List Check) (h : c = none) : firstFail (c :: l) = firstFail l := by rw [h]; rfl

theorem firstFail_need_pass {b : Bool} (st off : Nat) (l : List Check) (h : b = true) : firstFail (need b st off :: l) = firstFail l :=
  firstFail_pass l ((need_none b st off).mpr h)

theorem firstFail_need_fail {b : Bool} (st off : Nat) (l : List Check) (h : b = false) : firstFail (need b st off :: l) = some (st, off) := by
  subst h; rfl

end Sys2Proof.Machine
end

section
/-! UNDERSTUDY_PAIR (R295, R342): the wait for the partner, its end after one second, and the answer to the partner's message. -/
namespace Sys2Proof.Machine

/-- R295, R342: what UNDERSTUDY_PAIR has found when its checks have passed. -/
theorem understudyPair_checked {s : State} {w : Nat} (h : understudyPairSheet.pre s 0 w = none) :
    (s.company (Cmd.company w)).reproducible = true ∧ s.companyIdle (Cmd.company w) = true ∧ s.linkLive (Cmd.field w 1 1) = true ∧
      s.pairFree (Cmd.field w 1 1) = true ∧ ∃ far, (s.link (Cmd.field w 1 1)).neighbour = some (Cmd.field w 2 2, far) := by
  simp only [understudyPairSheet, firstFail_cons_none, need_none, Bool.and_eq_true] at h
  obtain ⟨hr, hidle, ⟨_, hlive⟩, hneighbour, hfree, _⟩ := h
  refine ⟨hr, hidle, hlive, hfree, ?_⟩
  revert hneighbour
  cases (s.link (Cmd.field w 1 1)).neighbour with
  | none => intro h; cases h
  | some n => intro h; exact ⟨n.2, by rw [← beq_iff_eq.mp h]⟩

/-- Settles O23: the command waits; the timeout denies it; the partner's message passes each check, or fails the comparison of the two
chips. -/
theorem pairCommands : Obligations.PairCommands := by
  refine ⟨fun s w => ?_, fun s c w => ?_⟩
  · intro c k hserving
    refine ⟨understudyPair_checked hserving.pre, (hserving.ended rfl).trans ?_⟩
    unfold State.updCompany
    rw [State.company_setCompany_same]
    rfl
  · intro k hash hwait
    refine ⟨fun hlate => ?_, fun link hlive hneighbour hmode hidle hfree hrole => ?_, fun link rom exts h d hlive hneighbour hmode hidle hdiffer => ?_⟩
    · show execUnderstudyPairTimeout c s = _
      unfold execUnderstudyPairTimeout
      rw [show (s.company c).pairWait = some w from hwait]
      dsimp only
      rw [if_pos hlate]
      rfl
    · show execUnderstudyPairExchange .. = _
      unfold execUnderstudyPairExchange
      dsimp only
      rw [show (s.company c).pairWait = some w from hwait]
      dsimp only
      rw [firstFail_need_pass _ _ _ (by simp [hlive, hneighbour]), firstFail_need_pass _ _ _ hmode, firstFail_need_pass _ _ _ (by simp [hidle]),
        firstFail_need_pass _ _ _ (by simp; exact ⟨rfl, rfl⟩), firstFail_need_pass _ _ _ (by simp [hfree]), firstFail_need_pass _ _ _ (by simp; omega),
        firstFail_nil_none]
      dsimp only
      unfold State.endPairWait State.updCompany
      rw [State.company_setCompany_same, State.setCompany_setCompany]
    · show execUnderstudyPairExchange .. = _
      unfold execUnderstudyPairExchange
      dsimp only
      rw [show (s.company c).pairWait = some w from hwait]
      dsimp only
      have hdiffers : (rom == s.part.rom.toNat && exts == s.extHashes && h == hash && d == k.districts) = false := by
        refine Bool.eq_false_iff.mpr fun hall => ?_
        simp only [Bool.and_eq_true, beq_iff_eq] at hall
        obtain ⟨⟨⟨hrom, hexts⟩, hhash⟩, hdistricts⟩ := hall
        exact hdiffer.elim (absurd hrom) fun e => e.elim (absurd hexts) fun e => e.elim (absurd hhash) (absurd hdistricts)
      rw [firstFail_need_pass _ _ _ (by simp [hlive, hneighbour]), firstFail_need_pass _ _ _ hmode, firstFail_need_pass _ _ _ (by simp [hidle]),
        firstFail_need_fail _ _ _ (by exact hdiffers)]
      rfl

end Sys2Proof.Machine
end

section
/-! The interface, report, event and perturbation commands of the device (R338, R339, R351, R355, R371, R395, R424 to R436). -/
namespace Sys2Proof.Machine

/-- R115, R326: what a report changes of memory and of its errors. -/
theorem putReport_spec (s : State) (a : Nat) (d : List Byte) : ∃ e, s.putReport a d = { s.putBytes .foyer a d with upsets := e } ∧
    ∀ x, x < a ∨ a + d.length ≤ x → SMap.get 0 e x = SMap.get 0 s.upsets x := by
  obtain ⟨u, hu, hother, _⟩ := (s.putBytes .foyer a d).renewFoyer_spec a d.length
  exact ⟨u, hu, hother⟩

theorem setInterface_checked {s : State} {w : Nat} (h : setInterfaceSheet.pre s 0 w = none) : Cmd.field w 0 1 = 0x10 := by
  simp only [setInterfaceSheet, firstFail_cons_none, need_none, beq_iff_eq] at h
  exact h.2.1

theorem setHouseBudget_checked {s : State} {w : Nat} (h : setHouseBudgetSheet.pre s 0 w = none) :
    100 ≤ Cmd.field w 0 4 ∧ Cmd.field w 0 4 ≤ s.fuseMax ∧ Cmd.field w 0 4 ≤ Cmd.field w 4 4 ∧ Cmd.field w 4 4 ≤ 1150 ∧ 1 ≤ Cmd.field w 8 4 := by
  simp only [setHouseBudgetSheet, firstFail_cons_none, need_none, Bool.and_eq_true, decide_eq_true_eq] at h
  obtain ⟨⟨hlow, hhigh⟩, ⟨hpeak, hpeakMax⟩, hramp, _⟩ := h
  exact ⟨hlow, hhigh, hpeak, hpeakMax, hramp⟩

theorem debugReadQuire_checked {s : State} {w : Nat} (h : debugReadQuireSheet.pre s 0 w = none) :
    s.scope.getLsbD 0 = true ∧ s.power ≠ .dim := by
  simp only [debugReadQuireSheet, firstFail_cons_none, need_none, Bool.and_eq_true, bne_iff_ne] at h
  obtain ⟨hscope, ⟨_, hpower⟩, _⟩ := h
  exact ⟨hscope, hpower⟩

/-- Settles O24: each command's sheet says its state and its body. -/
theorem deviceCommandsComplete : Obligations.DeviceCommandsComplete := by
  refine ⟨fun s r w => ?_, fun s r w => ?_⟩
  · intro done
    refine ⟨fun h => h.done rfl, fun h => ?_, fun h => ⟨setHouseBudget_checked h.pre, h.done rfl⟩, fun x h hfound => ?_⟩
    · have hversion := setInterface_checked h.pre
      refine ⟨hversion, (h.done rfl).trans ?_⟩
      rw [hversion]
      rfl
    · have hlog : (s.namedLog w).find (Cmd.field w 4 4) = some x := by
        rw [← hfound]
        unfold State.namedLog
        simp only [beq_iff_eq]
      refine (h.doneFor rfl rfl).trans ?_
      rw [hlog]
      rfl
  · intro a
    refine ⟨fun d => putReport_spec s a d, fun h => ⟨?_, h.done rfl⟩, fun h => ?_, fun h => ⟨⟨?_, ?_, ?_⟩, ?_⟩⟩
    · exact of_decide_eq_true ((need_none _ _ _).mp h.size)
    · intro t core is u done
      refine ⟨fun hkeep => (h.doneFor rfl rfl).trans ?_, fun hclear => (h.doneFor rfl rfl).trans ?_⟩
      · rw [if_neg (by simp [hkeep])]
        rfl
      · rw [if_pos (by simp [hclear])]
        rfl
    · exact (debugReadQuire_checked h.pre).1
    · exact (debugReadQuire_checked h.pre).2
    · exact of_decide_eq_true ((need_none _ _ _).mp h.size)
    · exact h.doneFor rfl rfl

end Sys2Proof.Machine
end

section
/-! EVENT_CONFIG (R218, R424, R428) and TEST_PERTURB (R435, R436). -/
namespace Sys2Proof.Machine

/-- R428: a core's or district's configuration that no act delays is applied at once. -/
theorem eventConfig_quiet {s : State} {r w : Nat} (ht : Cmd.field w 0 1 ≠ 2 ∧ Cmd.field w 0 1 ≠ 4 ∧ Cmd.field w 0 1 ≠ 5)
    (hquiet : ∀ c, s.companyOf (if Cmd.field w 0 1 == 1 then Cmd.field w 2 2 * 64 else Cmd.field w 2 2) = some c → s.inAct c = false) :
    eventConfigSheet.run s r w = .done (s.applyConfig (if Cmd.field w 0 1 == 1 then Cmd.field w 2 2 * 64 else Cmd.field w 2 2)
      ⟨Cmd.field w 0 1, Cmd.field w 1 1, BitVec.ofNat 64 (Cmd.field w 8 8), BitVec.ofNat 64 (Cmd.field w 16 8)⟩) 0 := by
  unfold eventConfigSheet
  dsimp only
  split
  · exact absurd ‹_› ht.1
  · exact absurd ‹_› ht.2.1
  · exact absurd ‹_› ht.2.2
  · rw [if_neg]
    split
    · rename_i c hc
      rw [hquiet c hc]; exact Bool.false_ne_true
    · exact Bool.false_ne_true

/-- R428: one whose core runs an act waits for the curtain-up. -/
theorem eventConfig_waits {s : State} {r w c : Nat} (ht : Cmd.field w 0 1 ≠ 2 ∧ Cmd.field w 0 1 ≠ 4 ∧ Cmd.field w 0 1 ≠ 5)
    (hcompany : s.companyOf (if Cmd.field w 0 1 == 1 then Cmd.field w 2 2 * 64 else Cmd.field w 2 2) = some c) (hact : s.inAct c = true) :
    eventConfigSheet.run s r w = .done (s.updCore (if Cmd.field w 0 1 == 1 then Cmd.field w 2 2 * 64 else Cmd.field w 2 2) (fun k => { k with
      cfgQueue := k.cfgQueue ++
        [⟨Cmd.field w 0 1, Cmd.field w 1 1, BitVec.ofNat 64 (Cmd.field w 8 8), BitVec.ofNat 64 (Cmd.field w 16 8)⟩] })) 0 := by
  unfold eventConfigSheet
  dsimp only
  split
  · exact absurd ‹_› ht.1
  · exact absurd ‹_› ht.2.1
  · exact absurd ‹_› ht.2.2
  · rw [if_pos]
    rw [hcompany]; exact hact

theorem testPerturb_checked {s : State} {w : Nat} (h : testPerturbSheet.pre s 0 w = none) : s.part.lifecycle = 2 ∨ s.scope.getLsbD 1 = true := by
  simp only [testPerturbSheet, firstFail_cons_none, need_none, Bool.or_eq_true, beq_iff_eq] at h
  exact h.1

/-- Settles O25: the targets of EVENT_CONFIG in turn, those of a core or district by `eventConfig_quiet` and `eventConfig_waits`. -/
theorem eventsAndPerturbations : Obligations.EventsAndPerturbations := by
  refine ⟨fun s r w h => ?_, fun s w h => ?_⟩
  · intro i x config threshold counter done quiet wait
    have run {u : State} (hu : eventConfigSheet.run s r w = .done u 0) : exec (.eventConfig r) s = done u := h.doneFor hu rfl
    have district : 64 * x = x * 64 := Nat.mul_comm 64 x
    refine ⟨fun ht hq => ?_, fun c ht hc ha => ?_, fun ht hq => ?_, fun c ht hc ha => ?_, fun ht => ?_, fun ht hq => ?_, fun c ht hc ha => ?_,
      fun ht => ?_, fun ht => ?_⟩
    · refine (run (eventConfig_quiet (by rw [ht]; decide) (by rw [ht]; exact hq))).trans ?_
      rw [ht]; rfl
    · refine (run (eventConfig_waits (by rw [ht]; decide) (by rw [ht]; exact hc) ha)).trans ?_
      rw [ht]; rfl
    · refine (run (eventConfig_quiet (by rw [ht]; decide) (by rw [ht]; exact district ▸ hq))).trans ?_
      rw [ht]
      have hindex : x * 64 / 64 * 8 + i = 8 * x + i := by omega
      exact congrArg (fun j => done { s with districtCounters := SMap.set {} s.districtCounters j counter }) hindex
    · refine (run (eventConfig_waits (by rw [ht]; decide) (by rw [ht]; exact district ▸ hc) ha)).trans ?_
      rw [ht]
      exact congrArg (fun core => done (wait core 1)) district.symm
    · exact run (by unfold eventConfigSheet; dsimp only; rw [ht]; rfl)
    · refine (run (eventConfig_quiet (by rw [ht]; decide) (by rw [ht]; exact hq))).trans ?_
      rw [ht]; rfl
    · refine (run (eventConfig_waits (by rw [ht]; decide) (by rw [ht]; exact hc) ha)).trans ?_
      rw [ht]; rfl
    · exact run (by unfold eventConfigSheet; dsimp only; rw [ht]; rfl)
    · exact run (by unfold eventConfigSheet; dsimp only; rw [ht]; rfl)
  · intro q
    refine ⟨testPerturb_checked h.pre, (h.done rfl).trans ?_⟩
    simp only [Bool.or_eq_true, beq_iff_eq]
    rfl

end Sys2Proof.Machine
end

section
/-! The company commands (R283, R284, R342, R387), launch and halt (R347, R368), and the acceptance of carriages (R345). -/
namespace Sys2Proof.Machine

/-! ### FORM_COMPANY, DISBAND_COMPANY, RESET_COMPANY, SET_MODE -/

theorem formCompany_checked {s : State} {w : Nat} (h : formCompanySheet.pre s 0 w = none) :
    s.power ≠ .dim ∧ s.formed (Cmd.company w) = false ∧
      ∀ d, d < 32 → (Cmd.field w 0 4).testBit d = true → s.districtCompany d = none := by
  simp only [formCompanySheet, firstFail_cons_none, need_none, bne_iff_ne, Bool.not_eq_true', List.all_eq_true, List.mem_range, Bool.or_eq_true,
    Option.isNone_iff_eq_none] at h
  obtain ⟨hpower, hformed, hdistricts, _⟩ := h
  exact ⟨hpower, hformed, fun d hd hmask => (hdistricts d hd).resolve_left (by rw [hmask]; decide)⟩

theorem disbandCompany_checked {s : State} {w : Nat} (h : disbandCompanySheet.pre s 0 w = none) :
    s.companyIdle (Cmd.company w) = true ∧ s.jobNames (Cmd.company w) = false := by
  simp only [disbandCompanySheet, firstFail_cons_none, need_none, Bool.not_eq_true'] at h
  exact ⟨h.1, h.2.1⟩

theorem setMode_checked {s : State} {r w : Nat} (h : setModeSheet.pre s r w = none) : s.companyIdle (Cmd.company w) = true := by
  simp only [setModeSheet, firstFail_cons_none, need_none] at h
  exact h.1

theorem endPair_none {s : State} {c : Nat} (h : (s.company c).pair = none) (notify : Bool) : s.endPair c notify = s := by
  unfold State.endPair
  rw [h]

/-- R387: RESET_COMPANY of an idle company without a pair. -/
theorem resetCompany_idle {s : State} {c : Nat} (hidle : s.companyIdle c = true) (hpair : (s.company c).pair = none) :
    let mine (x : Nat) : Bool := (s.company c).districts.toNat.testBit (x / 64)
    s.resetCompany c = (((s.clearStores mine false).mapCores mine State.resetCore).clearDistricts mine).setCompany c { s.company c with
      mode := .idle, clock := ({} : Company).clock, trap := ({} : Company).trap, plan := ({} : Company).plan, curtain := 0, taint := false
      landedNames := [], landedContexts := [] } := by
  intro mine
  have hcompany : (((s.clearStores mine false).mapCores mine State.resetCore).clearDistricts mine).company c = s.company c := by
    show SMap.get {} ((s.clearStores mine false).mapCores mine State.resetCore).companies c = _
    rw [mapCores_companies]
    rfl
  unfold State.resetCompany
  rw [if_pos hidle, endPair_none hpair]
  show State.updCompany (((s.clearStores mine false).mapCores mine State.resetCore).clearDistricts mine) c _ = _
  unfold State.updCompany
  rw [hcompany]

/-- Settles O26: each command's checks and what its sheet leaves. -/
theorem companyCommandsComplete : Obligations.CompanyCommandsComplete := by
  intro s r w c k done
  refine ⟨fun h => ?_, fun h hpair => ?_, fun h hidle hpair => ?_, fun h => ?_⟩
  · obtain ⟨hpower, hformed, hdistricts⟩ := formCompany_checked h.pre
    have hmask : Cmd.field w 0 4 ≠ 0 := bne_iff_ne.mp ((need_none _ _ _).mp h.size)
    exact ⟨hmask, hpower, hformed, hdistricts, h.doneFor rfl rfl⟩
  · obtain ⟨hidle, hjobs⟩ := disbandCompany_checked h.pre
    refine ⟨hidle, hjobs, (h.doneFor rfl rfl).trans ?_⟩
    unfold State.disbandCompany
    rw [endPair_none hpair]
    rfl
  · intro mine
    refine (h.doneFor rfl rfl).trans ?_
    rw [resetCompany_idle hidle hpair]
    rfl
  · refine ⟨setMode_checked h.pre, (h.doneFor rfl rfl).trans ?_⟩
    rw [chain_spec]
    unfold State.updCompany
    rw [State.company_setCompany_same, State.setCompany_setCompany]
    rfl

/-! ### CURTAIN_UP_AT and HALT_COMPANY -/

theorem curtainUpAt_checked {s : State} {r w : Nat} (h : curtainUpAtSheet.pre s r w = none) :
    s.companyIdle (Cmd.company w) = true ∧ s.power ≠ .dim ∧ s.now + 1000 ≤ Cmd.field w 0 8 ∧
      ((s.company (Cmd.company w)).reproducible = true → s.town.synced = true) := by
  simp only [curtainUpAtSheet, firstFail_cons_none, need_none, bne_iff_ne, Bool.or_eq_true, Bool.not_eq_true', decide_eq_true_eq] at h
  obtain ⟨hpower, _, hidle, _, hsynced, hcount, _⟩ := h
  exact ⟨hidle, hpower, hcount, fun hr => hsynced.resolve_left (by rw [hr]; decide)⟩

/-- R347, R368: what a launch makes of the company, with the ramps of the acts in reproducible mode. -/
theorem launch_eq (s : State) (c ring : Nat) (tag : Word) (count repeats : Nat) : ∃ ramps,
    ((s.company c).reproducible = false → ramps = []) ∧
    s.launch c ring tag count repeats = ((s.updCores (s.companyCores c) (fun _ k => { k with idle := none })).setCompany c { s.company c with
      mode := .launched, taint := false, actTaint := false, at_ := .choice, cut := false, ended := [], refused := [], refusedAt := none
      start := 0, repeats := repeats, launchAt := count, launching := true, launchCmd := some ⟨ring, 0x40, tag⟩, ramps := ramps
      curtainAt := s.now, heldPosted := false, unadmittable := false, comparedAt := none }).delayCurtain c := by
  have hcompany : (s.updCores (s.companyCores c) (fun _ k => { k with idle := none })).company c = s.company c := by
    unfold State.company
    rw [updCores_companies]
  unfold State.launch
  dsimp only
  unfold State.updCompany
  rw [hcompany]
  exact ⟨_, fun hr => if_neg (by rw [hr]; exact Bool.false_ne_true), rfl⟩

/-- R347: HALT_COMPANY AT_CURTAIN stops a curtain that has passed step 3. -/
theorem past_choice_iff (k : Company) : (match k.at_ with | .admission _ => true | .ramp _ _ _ => true | _ => false) = true ↔
    (∃ a, k.at_ = .admission a) ∨ ∃ a f e, k.at_ = .ramp a f e := by
  cases k.at_ <;> simp

/-- Settles O27: the launch (`launch_eq`) and the two forms of HALT_COMPANY by the company's mode and curtain step. -/
theorem launchAndHalt : Obligations.LaunchAndHalt := by
  intro s r w c k done
  refine ⟨fun h hnone => ?_, fun h hrepeats => ?_, fun h => ?_, fun h => ?_⟩
  · refine h.doneFor ?_ rfl
    exact if_pos (beq_iff_eq.mpr hnone)
  · refine ⟨curtainUpAt_checked h.pre, ?_⟩
    obtain ⟨ramps, hramps, hlaunch⟩ := launch_eq s c r (BitVec.ofNat 32 (Cmd.tag w)) (Cmd.field w 0 8) (Cmd.field w 8 4)
    refine ⟨ramps, hramps, (h.accepted (if_neg (by simpa using hrepeats))).trans ?_⟩
    rw [hlaunch]
  · refine h.doneFor ?_ rfl
    unfold haltSheet haltNow
    dsimp only
    cases s.companyIdle (Cmd.company w) <;> rfl
  · intro past
    have run : (haltSheet haltAtCurtain).run s r w = if s.companyIdle c then .done s 0
        else if !k.stopping && (k.mode == .launched || match k.at_ with | .admission _ => true | .ramp _ _ _ => true | _ => false) then
          .done (s.finishStop c) 0
        else .accepted (s.setCompany c { k with haltCmds := k.haltCmds ++ [⟨r, 0x41, BitVec.ofNat 32 (Cmd.tag w)⟩] }) := rfl
    refine ⟨fun hidle => h.doneFor (run.trans (if_pos hidle)) rfl, fun hactive hgoing hstops => ?_, fun hactive hwaits => ?_⟩
    · refine h.doneFor (run.trans ?_) rfl
      rw [if_neg (by simp [hactive]), if_pos]
      simp only [Bool.and_eq_true, Bool.or_eq_true, Bool.not_eq_true', beq_iff_eq, past_choice_iff]
      exact ⟨hgoing, hstops⟩
    · refine h.accepted (run.trans ?_)
      rw [if_neg (by simp [hactive]), if_neg]
      simp only [Bool.and_eq_true, Bool.or_eq_true, Bool.not_eq_true', beq_iff_eq, past_choice_iff]
      rintro ⟨hgoing, hstops⟩
      rcases hwaits with hstopping | ⟨hmode, hpast⟩
      · rw [hgoing] at hstopping; cases hstopping
      · exact hstops.elim hmode hpast

/-! ### Carriages -/

theorem carriageOut_checked {s : State} {r w : Nat} (h : (carriageSheet true).pre s r w = none) :
    (Cmd.field w 28 2 = 0xFFFF ∨ s.carriageCredits (Cmd.company w) = true) ∧ ((Cmd.field w 0 1 == 2) = true → r = 0 ∧ Cmd.company w = 0) := by
  simp only [carriageSheet, State.checkCarriage, firstFail_cons_none, need_none, Bool.or_eq_true, Bool.not_true, Bool.false_eq_true, false_or,
    Bool.and_eq_true, beq_iff_eq, Bool.not_eq_true'] at h
  obtain ⟨_, _, _, hbank, _, _, _, _, _, _, _, hcredits, _⟩ := h
  exact ⟨hcredits, fun hb => hbank.resolve_left (by unfold Wagon.bank Wagon.kind; rw [hb]; decide)⟩

/-- R345, R437: the carriage a command queues, `late` ticks late by a CARRIAGE_DELAY. -/
theorem acceptCarriage_eq (s : State) (out : Bool) (r w : Nat) : s.acceptCarriage out r w =
    let p := if out || Wagon.bank w then (s, 0) else s.perturbed (fun p => p.kind == 4 && p.core == Wagon.core w && p.channel == Wagon.channel w)
    { p.1 with
      carriages := p.1.carriages ++ [{
        id := p.1.nextCarriage, ring := r, opcode := if out then 0x31 else 0x30, tag := BitVec.ofNat 32 (Cmd.tag w), out := out
        kind := Wagon.kind w, srcType := Wagon.srcType w, dstType := Wagon.dstType w, rounding := Wagon.rounding w
        channel := Wagon.channel w, holdName := if out then 0 else bitsOf w (256 + 8 * 6) 12, core := Wagon.core w
        company := if Wagon.bank w then none else some (Cmd.company w), tensor := Cmd.field w 12 3, source := Wagon.source w
        length := Wagon.length w, dest := Wagon.dest w
        destChip := if out && Wagon.destChip w != p.1.chipId then Wagon.destChip w else 0xFFFF
        index := Cmd.field w 32 5, moved := 0, firstFail := none, fails := 0, notBefore := if p.2 = 0 then 0 else p.1.now + p.2
        remote := false }]
      nextCarriage := p.1.nextCarriage + 1 } := by
  unfold State.acceptCarriage
  simp only [beq_iff_eq]

/-- Settles O28: `acceptCarriage_eq`, where only an inbound carriage to a core may meet a CARRIAGE_DELAY. -/
theorem carriagesAreAccepted : Obligations.CarriagesAreAccepted := by
  intro s r w c bank core carriage queued
  refine ⟨fun h => ?_, fun h hbank => ?_, fun h hbank => ?_⟩
  · obtain ⟨hcredits, hring⟩ := carriageOut_checked h.pre
    exact ⟨hcredits, hring, h.accepted rfl⟩
  · have hb : (false || Wagon.bank w) = true := hbank
    refine (h.accepted rfl).trans ?_
    rw [acceptCarriage_eq, hb]
    rfl
  · intro p
    have hb : (false || Wagon.bank w) = false := hbank
    have hp : s.perturbed (fun p => p.kind == 4 && p.core == Wagon.core w && p.channel == Wagon.channel w) = p := rfl
    refine (h.accepted rfl).trans ?_
    rw [acceptCarriage_eq, hb, if_neg Bool.false_ne_true, hp]
    clear_value p
    rfl

end Sys2Proof.Machine
end

section
/-! The loading commands: script packages, function tables, micro-programs and cues (R101, R181, R187, R269, R343, R344, R415). -/
namespace Sys2Proof.Machine

/-! ### LOAD_SCRIPT -/

theorem loadScript_checked {s : State} {r w : Nat} (h : loadScriptSheet.pre s r w = none) : s.companyIdle (Cmd.company w) = true := by
  simp only [loadScriptSheet, firstFail_cons_none, need_none] at h
  obtain ⟨-, -, hidle, -⟩ := h
  exact hidle

/-- Settles O29: the installation of a package, whose blocks are written to the slices only. -/
theorem scriptIsInstalled : Obligations.ScriptIsInstalled := by
  intro s r w h c k b acts refs placed entry
  refine ⟨loadScript_checked h.pre, (h.doneFor rfl rfl).trans ?_, placeBlocks_mem s b refs, fun x hx => placeBlocks_low s b refs x hx,
    length_packageRefs s c _ b⟩
  show Host.Outcome.next (State.complete (s.installScript c (Cmd.field w 0 4) b) r false 0x20 (some c) (Cmd.tag w) St.ok noField _) = _
  rw [installScript_eq]
  rfl

/-! ### LOAD_TABLES -/

/-- R101: a table bank loaded twice is loaded once. -/
theorem Core.loadTables_again (k : Core) (bank : SMap Table) : (k.loadTables bank).loadTables bank = k.loadTables bank := by
  unfold Core.loadTables
  by_cases h : k.tablesFrozen = true
  · simp [h]
  · simp [h]

/-- R101, R187: what the load makes of the cores. -/
theorem loadTables_cores (s : State) (l : List Nat) (bank : SMap Table) :
    let u := s.updCores l (fun _ k => k.loadTables bank)
    u = { s with cores := u.cores } ∧
      (∀ x ∈ l, u.core x = if (s.core x).tablesFrozen then { s.core x with tablesHeld := some bank }
        else { s.core x with tablesShadow := bank, tablesPending := true }) ∧
      (∀ x, x ∉ l → u.core x = s.core x) := by
  obtain ⟨hcores, hin, hout⟩ := updCores_spec l s (fun _ k => k.loadTables bank) (fun _ k => k.loadTables_again bank)
  exact ⟨hcores, fun x hx => (hin x hx).trans rfl, hout⟩

/-- R415: four entries one after another on a company's chain. -/
theorem measureCompany_four (u : State) (c : Nat) (entry : Nat → List Byte) :
    let t := [0, 1, 2, 3].foldl (fun (t : State) k => t.measureCompany c (entry k)) u
    t = u.setCompany c (t.company c) ∧ (t.company c).chainCount = ((u.company c).chainCount + 4) % 2 ^ 32 := by
  simp only [List.foldl_cons, List.foldl_nil, chain_spec, State.company_setCompany_same, State.setCompany_setCompany, true_and]
  omega

/-! ### LOAD_MICROPROGRAM -/

theorem loadMicroCores_checked {s : State} {r w : Nat} (h : loadMicroCoresSheet.pre s r w = none) : 16 ≤ Cmd.field w 1 1 := by
  simp only [loadMicroCoresSheet, loadMicroSheet, firstFail_cons_none, need_none, decide_eq_true_eq] at h
  obtain ⟨-, -, -, hentry, -⟩ := h
  exact hentry

/-- Settles O30: each command's verdict, and what its stores and chains become. -/
theorem tablesAndProgramsAreLoaded : Obligations.TablesAndProgramsAreLoaded := by
  intro s r w c done b entry
  refine ⟨fun h => ?_, fun h => ⟨loadMicroCores_checked h.pre, h.doneFor rfl rfl⟩, fun h => h.doneFor rfl rfl⟩
  intro bank t
  obtain ⟨hcores, hin, hout⟩ := loadTables_cores s (State.selected w) bank
  obtain ⟨hchain, hcount⟩ := measureCompany_four (s.updCores (State.selected w) (fun _ k => k.loadTables bank)) c
    (fun k => chainEntry 0x21 c (s.knownItem [1, 2, 3] (s.tableOf w k).image) (Cmd.field w 4 4) (Cmd.field w 8 8) k (sha384 (s.tableOf w k).image))
  have hcompany : ∀ d, (s.updCores (State.selected w) (fun _ k => k.loadTables bank)).company d = s.company d := fun d => by
    rw [hcores]; rfl
  have hverdict : exec (.loadTables r) s = done r 0x21 t := h.doneFor rfl rfl
  change t = State.setCompany _ c (t.company c) at hchain
  change (t.company c).chainCount = _ at hcount
  rw [hcompany c] at hcount
  clear_value t
  have hcore : ∀ x, t.core x = (s.updCores (State.selected w) (fun _ k => k.loadTables bank)).core x := fun x => by rw [hchain]; rfl
  refine ⟨hverdict, ?_, fun x hx => (hcore x).trans (hin x hx), fun x hx => (hcore x).trans (hout x hx), ?_, fun d hd => ?_⟩
  · rw [hchain, hcores]; rfl
  · exact hcount
  · rw [hchain, State.company_setCompany_other _ _ (Ne.symm hd), hcompany]

/-! ### SET_CUE -/

/-- Settles O31: the class's write. -/
theorem cuesAreWritten : Obligations.CuesAreWritten := by
  intro s r w h c k b first v done
  have hwrite : exec (.setCue r) s = done (s.setCue w) := h.doneFor rfl rfl
  refine ⟨fun e => ?_, fun e => ?_, fun e => ?_, fun e => ?_, fun e => ?_⟩ <;>
    · rw [hwrite]; unfold State.setCue; rw [e]; rfl

end Sys2Proof.Machine
end

section
/-! FABRIC_CONFIG (R225, R233, R236, R241, R246, R348). -/
namespace Sys2Proof.Machine

/-- R348: a command of one section applies that section. -/
theorem applySections_one {s : State} {w id : Nat} (h : sectionIds w = [id]) :
    s.applySections w = (s.applySection w (s.block w) (id, 8, numAt (s.block w) 4 4)).advertiseMore s := by
  unfold State.applySections
  rw [h]
  rfl

/-- R236, R348: a routing swap lies a thousand ticks ahead. -/
theorem fabricConfig_swap {s : State} {r w : Nat} (h : fabricConfigSheet.pre s r w = none) (hid : sectionIds w = [3]) :
    s.now + 1000 ≤ Cmd.field w 8 8 := by
  have hbit : (Cmd.field w 0 4).testBit 3 = true := by
    have hmem : 3 ∈ sectionIds w := by rw [hid]; exact List.mem_singleton_self 3
    exact (List.mem_filter.mp hmem).2
  simp only [fabricConfigSheet, firstFail_cons_none, need_none, hbit, Bool.not_true, Bool.false_or, decide_eq_true_eq] at h
  obtain ⟨-, -, hswap, -⟩ := h
  exact hswap

/-- R241, R348: the TIME section makes a master or names the parent. -/
theorem applySection_time (s : State) (w n : Nat) (b : List Byte) : s.applySection w b (4, 8, n) =
    if numAt b 8 1 = 1 then State.gainSync { s with town := { s.town with
      count := BitVec.ofNat 64 (numAt b 10 8), master := true, parent := none, onReference := false } }
    else { s with town := { s.town with master := false, parent := some (numAt b 9 1), synced := false, agreed := 0 } } := by
  unfold State.applySection
  simp only [beq_iff_eq, Nat.reduceAdd]

/-- Settles O32: the section's effect, and the advertisement of larger allocations. -/
theorem fabricSectionsApply : Obligations.FabricSectionsApply := by
  intro s w h b done
  have hverdict : exec (.fabricConfig 0) s = .next ((s.applySections w).complete 0 false 0x50 none (Cmd.tag w) St.ok noField 0) :=
    h.done rfl
  have hone : ∀ id, sectionIds w = [id] → exec (.fabricConfig 0) s = done (s.applySection w b (id, 8, numAt b 4 4)) := fun id e => by
    rw [hverdict, applySections_one e]; rfl
  refine ⟨fun e => hone 0 e, fun e => hone 1 e, fun e => hone 2 e, fun e => ⟨fabricConfig_swap h.pre e, hone 3 e⟩, fun e et => ?_,
    fun e et => ?_, fun e => hone 5 e⟩
  · rw [hone 4 e, applySection_time, if_pos et]
  · rw [hone 4 e, applySection_time, if_neg (by omega)]

end Sys2Proof.Machine
end

section
/-! LOAD_PLAN and LOAD_DIRECTORY (R255, R256, R348). -/
namespace Sys2Proof.Machine

/-- R256: a job's directory entries are active at once unless the job runs and has entries. -/
theorem directoryAtOnce_iff (s : State) (j : Nat) : s.directoryAtOnce j = true ↔
    s.jobRuns j = false ∨ ¬∃ p ∈ s.directory, DirEntry.valid p.2.toNat = true ∧ DirEntry.job p.2.toNat = j := by
  simp only [State.directoryAtOnce, Bool.not_eq_true', Bool.and_eq_false_iff, ← Bool.not_eq_true (List.any _ _), List.any_eq_true, Bool.and_eq_true,
    beq_iff_eq]

/-- Settles O33: a load waits in a job that runs, and is active at once otherwise. -/
theorem plansAreLoaded : Obligations.PlansAreLoaded := by
  intro s w b j done plan directory entries
  refine ⟨fun h => ?_, fun h => ?_⟩
  · have hload : exec (.loadPlan 0) s = done 0x51 (s.writePlan j plan) := h.done rfl
    refine ⟨fun hruns => ?_, fun hruns => ?_⟩
    · rw [hload, State.writePlan, if_pos hruns]; rfl
    · rw [hload, State.writePlan, if_neg (by rw [hruns]; decide)]
  · have hload : exec (.loadDirectory 0) s = done 0x52 (s.writeDirectory j directory) := h.done rfl
    refine ⟨fun hruns hentries => ?_, fun hnow => ?_⟩
    · rw [hload, State.writeDirectory, if_neg fun e => ((directoryAtOnce_iff s j).mp e).elim (fun e => absurd hruns (by rw [e]; decide)) (· hentries)]
      rfl
    · rw [hload, State.writeDirectory, if_pos ((directoryAtOnce_iff s j).mpr hnow)]

end Sys2Proof.Machine
end

section
/-! Attestation (R411, R412), extension packages (R417), debug unlock (R420 to R422) and the JTAG port (R423). -/
namespace Sys2Proof.Machine

/-! ### ATTEST and LOAD_EXTENSION -/

theorem attest_checked {s : State} {r w : Nat} (hp : attestSheet.pre s r w = none) (hz : attestSheet.size w = none) :
    s.part.lifecycle ≠ 0 ∧ s.bottomTree = true ∧ s.bottomLeaf < 2 ^ 20 ∧ s.bootLeaf < 4096 ∧ 9216 ≤ Cmd.length w := by
  simp only [attestSheet, firstFail_cons_none, need_none, bne_iff_ne, Bool.and_eq_true, decide_eq_true_eq] at hp hz
  obtain ⟨hlifecycle, htree, ⟨hbottom, hboot⟩, -⟩ := hp
  exact ⟨hlifecycle, htree, hbottom, hboot, hz⟩

theorem loadExtension_checked {s : State} {b : List Byte} (h : s.checkExtension b = none) :
    signedBy s.part.extAuthority (b.take (Ext.length b)) (b.drop (Ext.length b)) = true ∧
      (s.part.lifecycle = 1 ∨ s.part.lifecycle = 2) ∧ Ext.minRom b ≤ s.part.rom.toNat ∧ ∃ p, s.extensionPlace (Ext.id b) = some p := by
  simp only [State.checkExtension, firstFail_cons_none, need_none, Bool.or_eq_true, beq_iff_eq, decide_eq_true_eq] at h
  obtain ⟨-, hsigned, hlifecycle, -, -, -, hrom, -, hplace, -⟩ := h
  refine ⟨hsigned, hlifecycle, hrom, ?_⟩
  cases e : s.extensionPlace (Ext.id b) with
  | none => rw [e] at hplace; exact absurd hplace Bool.false_ne_true
  | some p => exact ⟨p, rfl⟩

theorem installExtension_at {s : State} {b : List Byte} {p : Nat} (h : s.extensionPlace (Ext.id b) = some p) : s.installExtension b =
    State.measureDevice { s with extensions := SMap.set none s.extensions p (some
      { hash := hashField (sha384 b), id := BitVec.ofNat 32 (Ext.id b), version := BitVec.ofNat 32 (Ext.version b)
        items := (List.range (Ext.items b)).map (fun i => (Ext.kind b i, Ext.number b i, Ext.item b i)) }) }
      (chainEntry 0x81 0 (s.knownItem [1, 2, 3] b) 0 0 0 (sha384 b)) := by
  unfold State.installExtension
  rw [h]

/-! ### DEBUG_UNLOCK -/

/-- R420, R421: the verdict on a response, by its length, the challenge outstanding and its content. -/
theorem checkAnswer_size {s : State} {w : Nat} (h : Cmd.length w ≠ 3764) : s.checkAnswer w = some (St.badSize, 4) := by
  unfold State.checkAnswer need
  rw [if_neg (by simp [h])]

theorem checkAnswer_unchallenged {s : State} {w : Nat} (h : Cmd.length w = 3764) (hc : s.challenge = none) :
    s.checkAnswer w = some (St.wrongState, noField) := by
  unfold State.checkAnswer need
  rw [h, hc, if_pos (by decide)]

theorem checkAnswer_content {s : State} {w : Nat} {c : List Byte} (h : Cmd.length w = 3764) (hc : s.challenge = some c) :
    s.checkAnswer w = s.checkResponse c (s.block w) := by
  unfold State.checkAnswer need
  rw [h, hc, if_pos (by decide)]

theorem respond_refused {s : State} {r w st off : Nat} (h : s.checkAnswer w = some (st, off)) :
    s.respond r w = State.complete { s with challenge := none } r false 0x90 none (Cmd.tag w) st off 0 := by
  unfold State.respond
  rw [h]

theorem respond_granted {s : State} {r w : Nat} (h : s.checkAnswer w = none) : s.respond r w =
    State.complete (State.grant { s with challenge := none } (numAt (s.block w) 2 2)) r false 0x90 none (Cmd.tag w) St.ok noField 0 := by
  unfold State.respond
  rw [h]

theorem grant_eq (s : State) (scope : Nat) : s.grant scope = { s with
    scope := s.scope ||| BitVec.ofNat 16 scope
    part := if scope.testBit 3 ∧ (s.part.lifecycle = 1 ∨ s.part.lifecycle = 2) then { s.part with lifecycle := 3 } else s.part } := by
  unfold State.grant
  simp only [Bool.and_eq_true, Bool.or_eq_true, beq_iff_eq]

/-- R420, R423, R435: what LOCK leaves. -/
theorem lock_run (s : State) (r w : Nat) : lockSheet.run s r w = .done { s with
    scope := 0
    perturb := if s.part.lifecycle = 1 then [] else s.perturb
    jtagIr := if s.part.lifecycle = 0 then s.jtagIr else 1
    extestPins := if s.part.lifecycle = 0 then s.extestPins else []
    tdo := if s.part.lifecycle = 0 then s.tdo else none } 0 := by
  show Verdict.done (if s.part.lifecycle == 0 then _ else _) 0 = _
  simp only [beq_iff_eq]
  by_cases hm : s.part.lifecycle = 0
  · simp only [if_pos hm]
  · simp only [if_neg hm]

/-- Settles O34: what the sheets check, and the state that each command leaves. -/
theorem attestationAndUnlock : Obligations.AttestationAndUnlock := by
  refine ⟨fun s w => ?_, fun s w => ?_⟩
  · intro b done
    refine ⟨fun h => ⟨attest_checked h.pre h.size, h.done rfl⟩, fun h => ?_⟩
    obtain ⟨hsigned, hlifecycle, hrom, p, hplace⟩ := loadExtension_checked (b := b) h.pre
    refine ⟨hsigned, hlifecycle, hrom, p, hplace, (h.done rfl).trans ?_⟩
    show done 0x81 (s.installExtension b) = _
    rw [installExtension_at hplace]
    rfl
  · intro b done challenge scope
    refine ⟨fun h => h.done rfl, fun h => ?_, fun h => h.done (lock_run s 0 w)⟩
    have hrespond : exec (.response 0) s = .next (s.respond 0 w) := h.ended rfl
    refine ⟨fun hz => ?_, fun hz hc => ?_, fun c hz hc => ⟨fun hok => ?_, fun st off hbad => ?_⟩⟩
    · rw [hrespond, respond_refused (checkAnswer_size hz)]
    · rw [hrespond, respond_refused (checkAnswer_unchallenged hz hc)]
    · rw [hrespond, respond_granted ((checkAnswer_content hz hc).trans hok), grant_eq]; rfl
    · rw [hrespond, respond_refused ((checkAnswer_content hz hc).trans hbad)]

/-! ### The JTAG port -/

theorem jtagOpen_iff (s : State) : s.jtagOpen = true ↔
    (s.power = .run ∨ s.power = .interval ∨ s.power = .dim) ∧ (s.part.lifecycle = 0 ∨ s.scope.getLsbD 2 = true) := by
  simp only [State.jtagOpen, Bool.and_eq_true, Bool.or_eq_true, beq_iff_eq, or_assoc, BitVec.testBit_toNat]

/-- Settles O35: an open port shifts the instruction's register, a closed one stands in its reset. -/
theorem boundaryScan : Obligations.BoundaryScan := by
  intro s pins tdi opened closed first rest
  refine ⟨fun h => ?_, fun h => ?_⟩
  · have hopen : s.jtagOpen = true := (jtagOpen_iff s).mpr h
    have hshift : ∀ f : State → State, s.jtag f = f s := fun f => if_pos hopen
    exact ⟨congrArg Host.Outcome.next (hshift _), ⟨(List.range 32).map (fun i => i == 0 || Config.idcodeBit i), by simp, rfl,
      congrArg Host.Outcome.next (hshift _)⟩, congrArg Host.Outcome.next (hshift _), congrArg Host.Outcome.next (hshift _)⟩
  · have hclosed : ∀ f : State → State, s.jtag f = { s with tdo := none, jtagIr := 1, extestPins := [] } := fun f =>
      if_neg fun e => h ((jtagOpen_iff s).mp e)
    exact ⟨congrArg Host.Outcome.next (hclosed _), congrArg Host.Outcome.next (hclosed _), congrArg Host.Outcome.next (hclosed _),
      congrArg Host.Outcome.next (hclosed _)⟩

end Sys2Proof.Machine
end

section
/-! ENTER_STATE and its transitions (R349, R370, R380 to R383, R387). -/
namespace Sys2Proof.Machine

/-! ### ENTER_STATE -/

section
variable {s : State} {w : Nat} {target : PowerState} {mine : Nat → Bool} (h : Serving s 0 w (enterStateSheet target) mine)
include h

/-- R380: the state asked for is the present one. -/
theorem enterState_stays (e : s.power = target) : (Host.Outcome.next (s.serve 0 (enterStateSheet target) mine) : Answer) =
    .next (s.complete 0 false 0x61 none (Cmd.tag w) St.ok noField 0) :=
  h.done (if_pos (beq_iff_eq.mpr e))

/-- R380: another state is asked for. -/
theorem enterState_begins (e : s.power ≠ target) :
    (Host.Outcome.next (s.serve 0 (enterStateSheet target) mine) : Answer) = .next (s.beginTransition target 0 w) :=
  h.ended (if_neg fun k => e (beq_iff_eq.mp k))

theorem enterState_quiet (e : s.power ≠ target) (hdeep : target = .dim ∨ target = .standby) : s.noneActive = true ∧ s.contextsQuiet = true := by
  have hpre := (need_none _ _ _).mp h.pre
  simp only [Bool.or_eq_true, Bool.and_eq_true, Bool.not_eq_true', Bool.or_eq_false_iff, beq_iff_eq, beq_eq_false_iff_ne] at hpre
  rcases hpre with (hsame | ⟨hdim, hstandby⟩) | hquiet
  · exact absurd hsame e
  · exact absurd hdeep (not_or.mpr ⟨hdim, hstandby⟩)
  · exact hquiet

end

/-- R370: leaving DIM wakes the districts. -/
theorem beginTransition_up {s : State} {target : PowerState} (w : Nat) (h : target = .run ∨ target = .interval) :
    s.beginTransition target 0 w = { s with
      transition := some ⟨target, some ⟨0, 0x61, BitVec.ofNat 32 (Cmd.tag w)⟩⟩
      waking := if s.power = .dim then List.range 32 else [], wakeSince := s.now } := by
  unfold State.beginTransition
  rcases h with rfl | rfl <;> simp

theorem beginTransition_down {s : State} {target : PowerState} (w : Nat) (h : target = .dim ∨ target = .standby) :
    s.beginTransition target 0 w = { s with
      transition := some ⟨target, some ⟨0, 0x61, BitVec.ofNat 32 (Cmd.tag w)⟩⟩, waking := [], wakeSince := s.now } := by
  unfold State.beginTransition
  rcases h with rfl | rfl <;> simp

/-! ### The end of a transition -/

/-- R380: a transition to RUN, INTERVAL or DIM completes its command. -/
theorem stateReached_completes {s : State} {target : PowerState} {cmd : Waiting} (h : s.transition = some ⟨target, some cmd⟩)
    (hover : s.transitionOver target = true) (hup : target ≠ .standby) :
    let u := { s with power := target, transition := none, ready := s.ready || !s.fatal }
    execStateReached s = .next (State.complete (if s.power = .dim ∧ target ≠ .dim then u.clearCues else u)
      cmd.ring false cmd.opcode none cmd.tag.toNat St.ok noField 0) := by
  intro u
  unfold execStateReached
  rw [h]
  dsimp only
  rw [hover, if_neg (by decide), if_neg (by simpa using hup)]
  simp only [Bool.and_eq_true, beq_iff_eq, bne_iff_ne]
  rfl

/-- R383: STANDBY posts no completion. -/
theorem stateReached_standby {s : State} {cmd : Option Waiting} (h : s.transition = some ⟨.standby, cmd⟩) :
    execStateReached s = .next s.enterStandby := by
  unfold execStateReached
  rw [h]
  rfl

/-! ### The wake -/

/-- R370: a wave that is not due changes nothing; one that is due restores its district. -/
theorem dimWakeWave_waits {s : State} {d : Nat} {rest : List Nat} (h : s.waking = d :: rest)
    (hw : s.resetHeld = true ∨ s.now < s.wakeSince + wakeTicks s.ramp (32 - rest.length)) : execDimWakeWave s = .next s := by
  unfold execDimWakeWave
  rw [h]
  dsimp only
  rw [if_pos (by simpa using hw)]

theorem dimWakeWave_wakes {s : State} {d : Nat} {rest : List Nat} (h : s.waking = d :: rest) (hheld : s.resetHeld = false)
    (hdue : s.wakeSince + wakeTicks s.ramp (32 - rest.length) ≤ s.now) : execDimWakeWave s = .next { s.wakeDistrict d with waking := rest } := by
  unfold execDimWakeWave
  rw [h]
  dsimp only
  rw [if_neg (by simpa [hheld] using hdue)]

/-- Settles O36: the four requests, the end of a transition and the waves of the wake. -/
theorem powerStates : Obligations.PowerStates := by
  refine ⟨fun s w => ?_, fun s => ⟨fun t cmd h hover hup => stateReached_completes h hover hup, fun cmd h => stateReached_standby h, ?_⟩⟩
  · intro done on quiet
    refine ⟨fun h => ⟨enterState_stays h, fun e => (enterState_begins h e).trans ?_⟩,
      fun h => ⟨enterState_stays h, fun e => (enterState_begins h e).trans ?_⟩,
      fun h => ⟨enterState_stays h, fun e => ⟨enterState_quiet h e (.inl rfl), (enterState_begins h e).trans ?_⟩⟩,
      fun h => ⟨enterState_stays h, fun e => ⟨enterState_quiet h e (.inr rfl), (enterState_begins h e).trans ?_⟩⟩⟩
    · rw [beginTransition_up w (.inl rfl)]
    · rw [beginTransition_up w (.inr rfl)]
    · rw [beginTransition_down w (.inl rfl)]
    · rw [beginTransition_down w (.inr rfl)]
  · intro d rest h mine wave
    exact ⟨dimWakeWave_waits h, dimWakeWave_wakes h⟩

end Sys2Proof.Machine
end

section
/-! Resets of the chip and of the stage manager, and the boot (R377 to R379, R383 to R387, R394, R419). -/
namespace Sys2Proof.Machine

/-! ### Resets of the whole chip -/

/-- R370, R384: the districts wake one by one where the islands were gated. -/
theorem sleepers_eq (s : State) :
    s.sleepers = if s.power = .interval ∨ s.power = .dim ∨ s.waking ≠ [] then List.range 32 else [] := by
  unfold State.sleepers
  simp only [Bool.or_eq_true, beq_iff_eq, Bool.not_eq_true', List.isEmpty_eq_false_iff, or_assoc, ne_eq]

theorem resetN_broken {s : State} (hp : s.power ≠ .off) (hr : s.railsBroken = true) : execResetN s = .next (s.powerOn false) := by
  unfold execResetN
  rw [if_neg (by simpa using hp), if_pos hr]

theorem resetN_warm {s : State} (hp : s.power ≠ .off) (hr : s.railsBroken = false) :
    execResetN s = .next { s.warmReset with zeroing := if s.power = .booting then s.zeroing else 0 } := by
  unfold execResetN
  rw [if_neg (by simpa using hp), if_neg (by rw [hr]; decide)]
  simp only [beq_iff_eq]

/-- Settles O37: each reset as the retention table has it. -/
theorem wholeChipResets : Obligations.WholeChipResets := by
  intro s whole powerOn
  exact ⟨sleepers_eq s, rfl, rfl, resetN_broken, resetN_warm⟩

/-! ### The boot -/

/-- A boot store that is not listed has no error. -/
theorem bootError_none {s : State} {i : Nat} (h : ¬∃ e ∈ s.sram, e.1 = SramPlace.boot i) : s.sram.any (fun e => e.1 == .boot i) = false := by
  rw [List.any_eq_false]
  exact fun e he k => h ⟨e, he, beq_iff_eq.mp k⟩

theorem bootError_some {s : State} {i : Nat} (h : ∃ e ∈ s.sram, e.1 = SramPlace.boot i) : s.sram.any (fun e => e.1 == .boot i) = true := by
  obtain ⟨e, he, k⟩ := h
  exact List.any_eq_true.mpr ⟨e, he, beq_iff_eq.mpr k⟩

/-- R378, R394, R419: the first step fails by the lifecycle or its store, the second by its store. -/
theorem bootFailure_first {s : State} (h : 3 < s.part.lifecycle.toNat ∨ ∃ e ∈ s.sram, e.1 = SramPlace.boot 1) : s.bootFailure = some 1 :=
  if_pos (by
    rw [Bool.or_eq_true, decide_eq_true_eq]
    exact h.imp id bootError_some)

theorem bootFailure_second {s : State} (hl : s.part.lifecycle.toNat ≤ 3) (h1 : ¬∃ e ∈ s.sram, e.1 = SramPlace.boot 1)
    (h2 : ∃ e ∈ s.sram, e.1 = SramPlace.boot 2) : s.bootFailure = some 2 := by
  unfold State.bootFailure
  simp only [bootError_none h1, bootError_some h2, Nat.not_lt.mpr hl, decide_false, Bool.or_self, if_true, Bool.false_eq_true, if_false]

section
variable {s : State} (hp : s.power = .booting) (hheld : s.resetHeld = false) (hrails : s.railsBroken = false)
include hp hheld hrails

/-- R394: a boot that fails. -/
theorem boot_fails {step : Nat} (h : s.bootFailure = some step) : execBoot s =
    .next (State.fatalFault { (if step = 1 then s else s.zeroMemory) with power := .run, zeroing := 0, wakeSince := s.now } 4 step) := by
  unfold execBoot
  rw [if_neg (by simp [hp]), if_neg (by simp [hheld]), if_neg (by simp [hrails])]
  simp only [h, beq_iff_eq, Option.some.injEq]

end

/-- R378, R383: what the boot writes as zero. -/
theorem zeroMemory_none {s : State} (h : s.zeroing = 0) : s.zeroMemory = s := by
  unfold State.zeroMemory
  split
  case h_1 => rfl
  case h_2 h1 => exact absurd (h.symm.trans h1) (by decide)
  case h_3 h0 _ => exact absurd h h0

theorem zeroMemory_foyer {s : State} (h : s.zeroing = 1) :
    s.zeroMemory = { s with mem := s.keptMemory (2 ^ 34), upsets := s.keptUpsets (2 ^ 34) } := by
  unfold State.zeroMemory
  split
  case h_1 h0 => exact absurd (h.symm.trans h0) (by decide)
  case h_2 => rfl
  case h_3 _ h1 => exact absurd h h1

theorem zeroMemory_all {s : State} (h : 2 ≤ s.zeroing) : s.zeroMemory = { s with mem := [], upsets := [] } := by
  unfold State.zeroMemory
  split
  case h_1 h0 => omega
  case h_2 h1 => omega
  case h_3 => rfl

section
variable {s : State} (hp : s.power = .booting) (hheld : s.resetHeld = false) (hrails : s.railsBroken = false)
include hp hheld hrails

/-- R373, R378: a boot without triggers ends with the chip ready. -/
theorem boot_ready (hb : s.bootFailure = none) (ht : s.triggers = 0) (ha : s.riseArmed = false) {u : State} (hz : s.zeroMemory = u)
    (htu : u.triggers = s.triggers) (hau : u.riseArmed = s.riseArmed) :
    execBoot s = .next { u with power := .run, zeroing := 0, wakeSince := s.now, ready := true } := by
  rw [boot_ok hp hheld hrails hb, hz]
  have hzero := setTriggers_zero { u with power := .run, zeroing := 0, wakeSince := s.now, ready := true } (htu.trans ht)
  exact congrArg Host.Outcome.next (hzero.trans (settleRise_idle (.inl (hau.trans ha))))

end

/-! ### Resets of the stage manager -/

theorem managerReset_mem (s : State) (cmd : Option Waiting) : (s.managerReset cmd).mem = s.mem.filter (fun p => decide (p.1 < 2 ^ 52)) := by
  rw [← stopAll_mem s]
  unfold State.managerReset
  generalize s.stopAll = u
  simp only [State.clearStores, State.clearDistricts, State.sramRenew, Bool.not_true, Bool.or_false]

theorem managerReset_wakes (s : State) (cmd : Option Waiting) : (s.managerReset cmd).wakeSince = (s.managerReset cmd).now := by
  unfold State.managerReset
  generalize s.stopAll = u
  rfl

theorem managerReset_rings (s : State) (cmd : Option Waiting) : (s.managerReset cmd).rings = [(0, { state := .opened })] := by
  unfold State.managerReset
  generalize s.stopAll = u
  rfl

theorem managerReset_districts (s : State) (cmd : Option Waiting) : (s.managerReset cmd).districtCounters = [] := by
  unfold State.managerReset
  generalize s.stopAll = u
  exact clearDistricts_all _

/-- The only ring changed is the only ring afterwards, unless it takes its default value. -/
theorem updRing_only {s : State} {k : Ring} (h : s.rings = [(0, k)]) (f : Ring → Ring) (hf : f k ≠ {}) :
    (s.updRing 0 f).rings = [(0, f k)] := by
  show SMap.set {} s.rings 0 (f (SMap.get {} s.rings 0)) = _
  rw [h]
  exact if_neg hf

/-- R384: the watchdog's record in the device log, and its event waiting on the device ring. -/
def State.watchdogPosts (s : State) (r : BitVec 512) : State :=
  let s := { s with log := s.log.push 256 r }
  s.updRing 0 (fun k => { k with queue := [s.deviceHeader 0x0C ++ toBytes 64 r.toNat] })

theorem watchdogPosts_rings {s : State} {k : Ring} (h : s.rings = [(0, k)]) (r : BitVec 512) : (s.watchdogPosts r).rings =
    [(0, { k with queue := [(s.watchdogPosts r).deviceHeader 0x0C ++ toBytes 64 r.toNat] })] :=
  updRing_only (s := { s with log := s.log.push 256 r }) h _ fun e => List.cons_ne_nil _ _ (congrArg Ring.queue e)

/-- R387: a job keeps its scene tree only. -/
theorem managerReset_job {s : State} {cmd : Option Waiting} {p : Nat × Job} (h : p ∈ (s.managerReset cmd).jobs) :
    p.2 = { ({} : Job) with scene := p.2.scene } := by
  unfold State.managerReset at h
  dsimp only at h
  obtain ⟨q, -, rfl⟩ := List.mem_map.mp h
  rfl

/-- R401: the stores written anew hold no error. -/
theorem managerReset_sram {s : State} {cmd : Option Waiting} : ∀ e ∈ (s.managerReset cmd).sram,
    State.coreStore (fun _ => true) true e.1 = false ∧ State.managerStore e.1 = false := by
  intro e h
  unfold State.managerReset at h
  generalize s.stopAll = u at h
  simp only [State.clearStores, State.clearDistricts, State.sramRenew, List.mem_filter, Bool.not_eq_true'] at h
  obtain ⟨⟨-, hcore⟩, hmanager⟩ := h
  exact ⟨hcore, hmanager⟩

/-- R384: the watchdog between the bundles of every core. -/
theorem watchdog_resets {s : State} (hr : s.ready = true) (hp : s.power = .run ∨ s.power = .interval ∨ s.power = .dim)
    (hb : ∀ c, c < 32 → s.betweenBundles c = true) :
    execWatchdog s = .next ((s.managerReset none).watchdogPosts (s.deviceRecord 6 2 0 s.log.next)) := by
  have hall : (List.range 32).all s.betweenBundles = true := List.all_eq_true.mpr fun c hc => hb c (List.mem_range.mp hc)
  have hon : (s.power == .run || s.power == .interval || s.power == .dim) = true := by
    simpa only [Bool.or_eq_true, beq_iff_eq, or_assoc] using hp
  unfold execWatchdog
  rw [hr, hall, hon, if_neg (by decide)]
  rfl

/-- Settles O38: the boot by the step at which it fails, and the reset of the stage manager by what it leaves. -/
theorem bootsAndManagerResets : Obligations.BootsAndManagerResets := by
  refine ⟨fun s hp => ?_, fun s hr => ?_, fun s w => ?_⟩
  · intro fails zeroed up
    refine ⟨fun hheld => ?_, fun hheld hrails => ?_, fun hheld hrails => ⟨fun hl h1 h2 ht ha => ?_, fun hbad => ?_, fun hl h1 h2 => ?_⟩⟩
    · show execBoot s = _
      unfold execBoot
      rw [if_neg (by simp [hp]), if_pos hheld]
    · show execBoot s = _
      unfold execBoot
      rw [if_neg (by simp [hp]), if_neg (by simp [hheld]), if_pos hrails]
    · have hok : s.bootFailure = none := bootFailure_none hl (fun e he k => h1 ⟨e, he, k⟩) (fun e he k => h2 ⟨e, he, k⟩)
      refine ⟨fun hz => ?_, fun hz => ?_, fun hz => ?_⟩
      · exact boot_ready hp hheld hrails hok ht ha (zeroMemory_none hz) rfl rfl
      · exact boot_ready hp hheld hrails hok ht ha (zeroMemory_foyer hz) rfl rfl
      · exact boot_ready hp hheld hrails hok ht ha (zeroMemory_all hz) rfl rfl
    · exact boot_fails hp hheld hrails (bootFailure_first hbad)
    · exact boot_fails hp hheld hrails (bootFailure_second hl h1 h2)
  · show execBottomTreeComplete s = _
    unfold execBottomTreeComplete
    rw [if_pos hr]
  · intro back
    have hback : ∀ cmd, back (s.managerReset cmd) cmd := fun cmd =>
      ⟨rfl, rfl, rfl, rfl, rfl, managerReset_wakes s cmd, rfl, rfl, rfl, rfl, rfl, rfl, rfl, rfl, rfl, rfl, managerReset_mem s cmd,
        managerReset_districts s cmd, rfl, rfl, rfl, fun p h => managerReset_job h, managerReset_sram⟩
    refine ⟨fun h => ⟨s.managerReset (some ⟨0, 4, BitVec.ofNat 32 (Cmd.tag w)⟩), h.ended rfl, hback _, managerReset_rings s _⟩, fun hr hp hb => ?_⟩
    intro r
    have hdog : exec .watchdog s = .next ((s.managerReset none).watchdogPosts r) := watchdog_resets hr hp hb
    have hleft := hback none
    have hrings := managerReset_rings s none
    generalize s.managerReset none = u at hdog hleft hrings
    exact ⟨_, hdog, hleft, watchdogPosts_rings hrings r⟩

end Sys2Proof.Machine
end

section
/-! The hard limit (R360, R372 to R375, R394). -/
namespace Sys2Proof.Machine

/-! ### Triggers and stretch levels -/

/-- R372: VR_HOT_N as a trigger. -/
theorem vrHotN_watched {s : State} (h : s.watches = true) (low : Bool) :
    execVrHotN low s = .next (s.setTriggers (if low then s.triggers ||| 1 else s.triggers &&& 14)) := by
  have hmask : ∀ t : BitVec 4, t &&& ~~~(BitVec.ofNat 4 (2 ^ 0)) = t &&& 14 := by decide
  unfold execVrHotN State.setTrigger
  rw [if_pos h]
  cases low with
  | false => exact congrArg (Host.Outcome.next <| s.setTriggers ·) (hmask s.triggers)
  | true => rfl

/-- R373: 100 µs without a trigger at level 2. -/
theorem stretchLevelFall_two {s : State} (hs : s.stretch = 2) (ht : s.triggers = 0) (hn : s.stretchSince + 25000 ≤ s.now) :
    execStretchLevelFall s = .next { s with stretch := 1, stretchSince := s.now, riseArmed := false } := by
  unfold execStretchLevelFall
  rw [if_neg (by simp [hs, ht, hn]), if_neg (by simp [hs]), hs]

/-- R374, R375: 100 µs without a trigger at level 1: the interrupted ramps go on. -/
theorem stretchLevelFall_one {s : State} (hs : s.stretch = 1) (ht : s.triggers = 0) (hn : s.stretchSince + 25000 ≤ s.now) :
    let u := (List.range 32).foldl (fun s c => s.resumeRamp c) s
    execStretchLevelFall s =
      .next (State.postPower { u with stretch := 0, stretchSince := u.now, riseArmed := false, fellAt := some u.now } 6 0 0) := by
  intro u
  unfold execStretchLevelFall
  rw [if_neg (by simp [hs, ht, hn]), if_pos (by simp [hs])]

/-! ### Measurements -/

/-- R372: what a measured power makes of the triggers. -/
theorem powerMeasurement_watched {s : State} {w : Nat} (hw : w < 2 ^ 16) (h : s.watches = true) :
    let above := if s.sustainedThreshold < w then min (s.overSustained + 1) 10000 else 0
    execPowerMeasurement w s = .next (State.setTriggers { s with watts := w, overSustained := above } (BitVec.ofNat 4
      (s.triggers.toNat % 2 + 2 * (if s.peakThreshold < w then 1 else 0) + 4 * (if above = 10000 then 1 else 0) +
        8 * (if s.triggers.toNat.testBit 3 then 1 else 0)))) := by
  intro above
  unfold execPowerMeasurement
  rw [if_neg (by rw [h]; decide)]
  dsimp only
  rw [Nat.mod_eq_of_lt (show w < 65536 from hw)]
  simp only [b2n, gt_iff_lt, decide_eq_true_eq, beq_iff_eq]
  rfl

section
variable {s : State} {rs : List Nat} (hon : s.sensorsOn = true)
include hon

/-- R360, R372: readings below 115 °C. -/
theorem temperatureReading_normal (hlow : ∀ d, d < 32 → rs.getD d 720 % 65536 < 1840) :
    let q := (List.range 32).map (fun d => (d, rs.getD d 720 % 65536))
    let u : State := { s with temps := SMap.setMany 720 s.temps q }
    execTemperatureReading rs s = .next (if s.watches then u.setTrigger 3 (q.any (fun r => decide (r.2 ≥ 1680))) else u) := by
  intro q u
  unfold execTemperatureReading
  rw [if_neg (by rw [hon]; decide)]
  dsimp only
  rw [find_none rs hlow]
  rfl

/-- R394: the first district at 115 °C trips the chip. -/
theorem temperatureReading_trips {d : Nat} (hd : d < 32) (hhot : 1840 ≤ rs.getD d 720 % 65536) (hfirst : ∀ e, e < d → rs.getD e 720 % 65536 < 1840) :
    execTemperatureReading rs s =
      .next (State.fatalFault { s with temps := SMap.setMany 720 s.temps ((List.range 32).map (fun d => (d, rs.getD d 720 % 65536))) } 5 d) := by
  unfold execTemperatureReading
  rw [if_neg (by rw [hon]; decide)]
  dsimp only
  rw [find_first 32 d hd (fun d => rs.getD d 720 % 65536) hhot hfirst]

end

theorem any_warm_false {rs : List Nat} (h : ∀ d, d < 32 → rs.getD d 720 % 65536 < 1680) :
    ((List.range 32).map (fun d => (d, rs.getD d 720 % 65536))).any (fun r => decide (r.2 ≥ 1680)) = false := by
  rw [← Bool.not_eq_true, rs_map rs (fun r => decide (r ≥ 1680))]
  rintro ⟨d, hd, hwarm⟩
  exact absurd (of_decide_eq_true hwarm) (Nat.not_le.mpr (h d hd))

theorem any_warm_true {rs : List Nat} (h : ∃ d, d < 32 ∧ 1680 ≤ rs.getD d 720 % 65536) :
    ((List.range 32).map (fun d => (d, rs.getD d 720 % 65536))).any (fun r => decide (r.2 ≥ 1680)) = true := by
  obtain ⟨d, hd, hwarm⟩ := h
  exact (rs_map rs (fun r => decide (r ≥ 1680))).mpr ⟨d, hd, decide_eq_true hwarm⟩

/-- Settles O39: triggers, levels, power and temperatures. -/
theorem hardLimit : Obligations.HardLimit := by
  refine ⟨fun s => ?_, fun s => ?_⟩
  · intro v recognised
    refine ⟨settleRise_idle, settleRise_due, rfl, fun h => ⟨_, vrHotN_watched h true, recognised_spec s _⟩,
      fun h => ⟨_, vrHotN_watched h false, recognised_spec s _⟩, fun h low => ?_, stretchLevelFall_two, stretchLevelFall_one⟩
    show execVrHotN low s = _
    unfold execVrHotN
    rw [if_neg (by rw [h]; decide)]
  · intro above
    refine ⟨fun w hw h => powerMeasurement_watched hw h, fun rs hoff hstandby hheld => ?_⟩
    intro r u
    have hon : s.sensorsOn = true := by simp [State.sensorsOn, hoff, hstandby, hheld]
    refine ⟨fun hw hlow => ?_, fun hw hlow => ?_, fun hw hlow hwarm => ?_, fun d hd hhot hfirst => temperatureReading_trips hon hd hhot hfirst⟩
    · exact (temperatureReading_normal hon hlow).trans (by rw [hw]; rfl)
    · refine (temperatureReading_normal hon fun d hd => Nat.lt_trans (hlow d hd) (by decide)).trans ?_
      rw [hw, any_warm_false hlow, ← mask_low]
      rfl
    · refine (temperatureReading_normal hon hlow).trans ?_
      rw [hw, any_warm_true hwarm]
      rfl

end Sys2Proof.Machine
end

section
/-! The SMBus target (R445, R446). -/
namespace Sys2Proof.Machine

section
variable {s : State} (hp : s.power ≠ .off)
include hp

/-- R445: a transaction whose check and operand pass is answered. -/
theorem transaction_answers {ok : Bool} (h : ok = true) (effect : State → State) (answer : List Byte) :
    s.transaction true ok effect answer = { effect s with smbus := some answer } := by
  unfold State.transaction
  rw [if_neg (by simpa using hp), if_pos (by rw [h]; rfl)]

/-- R445: a wrong check byte is NACKed. -/
theorem transaction_nacks (ok : Bool) (effect : State → State) (answer : List Byte) :
    s.transaction false ok effect answer = { s with smbus := none } := by
  unfold State.transaction
  rw [if_neg (by simpa using hp), if_neg (by rw [Bool.false_and]; decide)]

end

/-- R380, R446: WAKE acts in STANDBY only. -/
theorem wakeUp_eq (s : State) : s.wakeUp = { s with
    power := if s.power = .standby then .booting else s.power, zeroing := if s.power = .standby then 1 else s.zeroing } := by
  unfold State.wakeUp
  by_cases h : s.power = .standby
  · simp only [h, beq_self_eq_true, if_true]
  · simp only [h, beq_iff_eq, if_false]

/-- R384, R446: a link empties and trains again where it may. -/
theorem resetLink_eq (s : State) (l : LinkId) : s.resetLink l =
    (s.setLink l (State.emptyLink (s.link l) (if (s.link l).enabled ∧ s.fatal = false then .training else .down))).dropPeers l := by
  unfold State.resetLink
  simp only [Bool.and_eq_true, Bool.not_eq_true']

/-- Settles O40: each transaction's effect and answer, and the NACK of a wrong check byte. -/
theorem smbusAnswers : Obligations.SmbusAnswers := by
  intro s hp answer
  refine ⟨?_, fun l hl => ⟨_, congrArg Host.Outcome.next (transaction_answers hp (decide_eq_true hl) _ _), resetLink_eq s l⟩,
    congrArg Host.Outcome.next (transaction_answers hp rfl _ _), fun d hd => congrArg Host.Outcome.next (transaction_answers hp (decide_eq_true hd) _ _),
    congrArg Host.Outcome.next (transaction_answers hp rfl _ _), congrArg Host.Outcome.next (transaction_answers hp rfl _ _), ?_,
    fun d => ⟨congrArg Host.Outcome.next (transaction_nacks hp _ _ _), congrArg Host.Outcome.next (transaction_nacks hp _ _ _)⟩⟩
  · refine (congrArg Host.Outcome.next (transaction_answers hp rfl _ _)).trans ?_
    rw [wakeUp_eq]
  · simp only [List.forall_mem_cons, List.not_mem_nil, false_implies, implies_true, and_true]
    exact ⟨congrArg Host.Outcome.next (transaction_nacks hp _ _ _), congrArg Host.Outcome.next (transaction_nacks hp _ _ _),
      congrArg Host.Outcome.next (transaction_nacks hp _ _ _), congrArg Host.Outcome.next (transaction_nacks hp _ _ _)⟩

end Sys2Proof.Machine
end

section
/-! Frames: what an arriving one does, and the fields of one that is sent (R222 to R226, R233, R234). -/
namespace Sys2Proof.Machine

/-! ### Words put together from fields -/

theorem pack_shiftRight (v w : Nat) (t : List (Nat × Nat)) : pack ((v, w) :: t) >>> w = pack t := by
  rw [pack, Nat.shiftRight_eq_div_pow, Nat.add_mul_div_left _ _ (Nat.two_pow_pos w), Nat.div_eq_of_lt (Nat.mod_lt _ (Nat.two_pow_pos w)), Nat.zero_add]

/-- A field stands above those before it. -/
theorem bitsOf_pack_at (l : List (Nat × Nat)) (v w : Nat) (t : List (Nat × Nat)) :
    bitsOf (pack (l ++ (v, w) :: t)) (l.map (·.2)).sum w = v % 2 ^ w := by
  induction l with
  | nil => simp only [List.nil_append, List.map_nil, List.sum_nil, bitsOf, pack, Nat.shiftRight_zero, Nat.add_mul_mod_self_left, Nat.mod_mod]
  | cons p l ih =>
    rw [List.cons_append, List.map_cons, List.sum_cons, bitsOf, Nat.shiftRight_add, pack_shiftRight, ← bitsOf, ih]

theorem pack_lt (l : List (Nat × Nat)) : pack l < 2 ^ (l.map (·.2)).sum := by
  induction l with
  | nil => decide
  | cons p t ih =>
    obtain ⟨v, w⟩ := p
    have hv := Nat.mod_lt v (Nat.two_pow_pos w)
    rw [List.map_cons, List.sum_cons, Nat.pow_add]
    calc v % 2 ^ w + 2 ^ w * pack t < 2 ^ w * (pack t + 1) := by rw [Nat.mul_add, Nat.mul_one]; omega
      _ ≤ 2 ^ w * 2 ^ (t.map (·.2)).sum := Nat.mul_le_mul_left _ ih

/-! ### The word of a sent frame -/

/-- R223: the fields of a frame word, lowest first. -/
def wordFields (k : Link) (kind seq crc : Nat) : List (Nat × Nat) :=
  [(crc, 32), (kind, 2), (seq, 12), (k.rxSeq, 12), (b2n k.nak, 1), ((k.owed.headD (0, 0)).1 / 64, 2),
    ((k.owed.headD (0, 0)).1 / 32 % 2, 1), ((k.owed.headD (0, 0)).1 % 32, 5), (min (k.owed.headD (0, 0)).2 127, 7)]

/-- R223: the CRC of a frame word, over the bits above it and the body. -/
def wordCrc (k : Link) (kind seq : Nat) (body : List Byte) : BitVec 32 := crc32 (toBytes 12 (State.wordTop k kind seq) ++ body)

theorem frameWord_fields (k : Link) (kind seq : Nat) (body : List Byte) :
    (State.frameWord k kind seq body).toNat = pack (wordFields k kind seq (wordCrc k kind seq body).toNat) := by
  have hsize := pack_lt (wordFields k kind seq (wordCrc k kind seq body).toNat)
  have hword : State.frameWord k kind seq body = BitVec.ofNat 128 (pack (wordFields k kind seq (wordCrc k kind seq body).toNat)) := by
    rw [wordFields, pack, Nat.mod_eq_of_lt (wordCrc k kind seq body).isLt]
    rfl
  rw [hword, BitVec.toNat_ofNat]
  exact Nat.mod_eq_of_lt (Nat.lt_trans hsize (Nat.pow_lt_pow_right (by decide) (by simp [wordFields])))

section
variable (k : Link) (kind seq : Nat) (body : List Byte)

/-- R223: the bits above the CRC. -/
theorem frameWord_top : (State.frameWord k kind seq body).toNat / 2 ^ 32 = State.wordTop k kind seq := by
  rw [frameWord_fields, ← Nat.shiftRight_eq_div_pow]
  exact pack_shiftRight _ 32 _

theorem frameWord_crc : bitsOf (State.frameWord k kind seq body).toNat 0 32 = (wordCrc k kind seq body).toNat := by
  rw [frameWord_fields]
  exact (bitsOf_pack_at [] _ 32 _).trans (Nat.mod_eq_of_lt (wordCrc k kind seq body).isLt)

/-- R223: nothing stands above the credit count. -/
theorem frameWord_reserved : bitsOf (State.frameWord k kind seq body).toNat 74 54 = 0 := by
  have hsize : pack (wordFields k kind seq (wordCrc k kind seq body).toNat) < 2 ^ 74 := pack_lt _
  rw [frameWord_fields, bitsOf, Nat.shiftRight_eq_div_pow, Nat.div_eq_of_lt hsize, Nat.zero_mod]

/-- R223: the fields between. -/
theorem frameWord_parts :
    let w := (State.frameWord k kind seq body).toNat
    let owed := k.owed.headD (0, 0)
    bitsOf w 32 2 = kind % 4 ∧ bitsOf w 34 12 = seq % 4096 ∧ bitsOf w 46 12 = k.rxSeq % 4096 ∧ bitsOf w 58 1 = b2n k.nak % 2 ∧
      bitsOf w 59 2 = owed.1 / 64 % 4 ∧ bitsOf w 61 1 = owed.1 / 32 % 2 % 2 ∧ bitsOf w 62 5 = owed.1 % 32 % 32 ∧
      bitsOf w 67 7 = min owed.2 127 % 128 := by
  intro w owed
  rw [show w = _ from frameWord_fields k kind seq body]
  generalize (wordCrc k kind seq body).toNat = crc
  have hat (n : Nat) (v w : Nat) (t : List (Nat × Nat)) (h : (wordFields k kind seq crc).drop n = (v, w) :: t) :
      bitsOf (pack (wordFields k kind seq crc)) (((wordFields k kind seq crc).take n).map (·.2)).sum w = v % 2 ^ w := by
    have e := bitsOf_pack_at ((wordFields k kind seq crc).take n) v w t
    rwa [← h, List.take_append_drop] at e
  exact ⟨hat 1 _ _ _ rfl, hat 2 _ _ _ rfl, hat 3 _ _ _ rfl, hat 4 _ _ _ rfl, hat 5 _ _ _ rfl, hat 6 _ _ _ rfl, hat 7 _ _ _ rfl, hat 8 _ _ _ rfl⟩

/-- R223: a receiver takes a sent frame for a good one. -/
theorem frameWord_good : Fw.good (State.frameWord k kind seq body).toNat body = true := by
  have htop : bitsOf (State.frameWord k kind seq body).toNat 32 96 = State.wordTop k kind seq := by
    rw [bitsOf, Nat.shiftRight_eq_div_pow, frameWord_top]
    exact Nat.mod_eq_of_lt (Nat.lt_trans (pack_lt _) (Nat.pow_lt_pow_right (by decide) (by simp)))
  rw [Fw.good, frameWord_crc, frameWord_reserved, htop, Bool.and_eq_true, beq_iff_eq, beq_iff_eq]
  exact ⟨rfl, rfl⟩

end

theorem testBit_of_bitsOf {x i : Nat} {b : Bool} (h : bitsOf x i 1 = b2n b % 2) : x.testBit i = b := by
  rw [Nat.testBit_eq_decide_div_mod_eq, ← Nat.shiftRight_eq_div_pow]
  change x >>> i % 2 = _ at h
  rw [h]
  cases b <;> rfl

/-! ### Arriving frames -/

/-- R224: a discarded frame owes a nak, once for its gap. -/
theorem discardFrame_eq (s : State) (l : Nat) :
    s.discardFrame l = s.setLink l { s.link l with nak := (s.link l).nak || !(s.link l).naked, naked := true } := by
  refine congrArg (s.setLink l) ?_
  generalize s.link l = k
  dsimp only
  cases h : k.naked with
  | false => rw [if_neg (by decide), Bool.not_false, Bool.or_true]
  | true => rw [if_pos rfl, Bool.not_true, Bool.or_false, ← h]

/-- R222, R437: a frame that comes while errors spoil the link. -/
theorem received_spoiled {s : State} {l bits : Nat} (h : ¬((s.link l).bad = 0 ∧ (s.link l).deafUntil ≤ s.now)) (lost run : State → State) :
    s.received l bits lost run = lost (s.setLink l { s.link l with bad := (s.link l).bad - bits }) := by
  unfold State.received
  dsimp only
  rw [if_neg (by simpa using h)]
  rfl

section
variable {s : State} {l f : Nat} {k : Link}

/-- R224: no frame has been resent too often. -/
theorem resend_again (h : ∀ x ∈ (s.link l).replay, x.resends < 8) : s.resend l =
    ((s.setLink l { s.link l with
      replay := (s.link l).replay.map (fun x => { x with resends := x.resends + 1 })
      resent := ((s.link l).resent + (s.link l).replay.length) % 2 ^ 32 }).sendFrames l (s.link l).replay).countChip 0x42 (some l)
        (s.link l).replay.length := by
  have hfew : (s.link l).replay.any (fun x => decide (x.resends ≥ 8)) = false := by
    rw [List.any_eq_false]
    exact fun x hx => by simpa using h x hx
  unfold State.resend
  exact if_neg (by rw [hfew]; decide)

/-- R223, R224: a word that asks for a resend. -/
theorem heedWord_nak (h : f.testBit 58 = true) : s.heedWord l f = (s.setLink l ((s.link l).heard f)).resend l := by
  have hnak : Fw.nak f = true := h
  unfold State.heedWord
  simp only [hnak, if_true, State.updLink, acked_heard]
  rfl

variable (hk : s.link l = k)
include hk

/-- R224: a frame out of sequence. -/
theorem takeFrame_gap (isFlit : Bool) (body : List Byte) (h : bitsOf f 34 12 ≠ (k.rxSeq + 1) % 4096) :
    s.takeFrame l f isFlit body = s.setLink l { k with nak := k.nak || !k.naked, naked := true } := by
  unfold State.takeFrame
  rw [hk, ← hk, ← discardFrame_eq, hk]
  exact if_pos (bne_iff_ne.mpr h)

variable (h : bitsOf f 34 12 = (k.rxSeq + 1) % 4096) {isFlit : Bool} {body : List Byte} {p : Packet}
  (hp : (if isFlit then k.rx.map (fun p => { p with payload := p.payload ++ body })
    else some { header := BitVec.ofNat 256 (ofBytes body), payload := [] }) = some p)
include h hp

/-- R224, R226: a frame in sequence that leaves its packet unfinished, and one that completes it. -/
theorem takeFrame_part (hn : p.payload.length < 256 * Hdr.flits p.header.toNat) : s.takeFrame l f isFlit body =
    s.setLink l { k with rxSeq := bitsOf f 34 12, nak := false, naked := false, rx := some p } := by
  unfold State.takeFrame
  rw [hk]
  refine (if_neg (by rw [bne_iff_ne, not_not]; exact h)).trans ?_
  dsimp only
  rw [hp]
  exact if_neg (Nat.not_le.mpr hn)

theorem takeFrame_whole (hn : 256 * Hdr.flits p.header.toNat ≤ p.payload.length) : s.takeFrame l f isFlit body =
    (s.setLink l { k with rxSeq := bitsOf f 34 12, nak := false, naked := false, rx := none }).arrive l p := by
  unfold State.takeFrame
  rw [hk]
  refine (if_neg (by rw [bne_iff_ne, not_not]; exact h)).trans ?_
  dsimp only
  rw [hp]
  exact if_pos hn

end

/-- R222 to R224: an IDLE frame on a live link that nothing touched. -/
theorem idle_intact {s : State} {l : LinkId} (hlive : s.linkLive l = true) (hb : (s.link l).bad = 0) (hd : (s.link l).deafUntil ≤ s.now)
    (frame : BitVec 128) : execIdle l frame s =
      .next (if !Fw.good frame.toNat [] || Fw.kind frame.toNat != 0 then s.discardFrame l else s.heedWord l frame.toNat) := by
  unfold execIdle
  rw [if_neg (by rw [hlive]; decide), received_intact hb hd]

theorem idle_spoiled {s : State} {l : LinkId} (hlive : s.linkLive l = true) (h : ¬((s.link l).bad = 0 ∧ (s.link l).deafUntil ≤ s.now))
    (frame : BitVec 128) : execIdle l frame s = .next ((s.setLink l { s.link l with bad := (s.link l).bad - 128 }).discardFrame l) := by
  unfold execIdle
  rw [if_neg (by rw [hlive]; decide), received_spoiled h]

/-- Settles O41: each arriving frame by what it says, and the fields of a sent one. -/
theorem framesArrive : Obligations.FramesArrive := by
  refine ⟨fun s l frame body => ?_, fun s l kind seq body hkind hseq => ?_⟩
  · intro f seq k k' p discarded intact
    have hlink : (s.setLink l k).link l = k := State.link_setLink_same _ _ _
    refine ⟨fun h => ?_, fun hlive hok hgood hkind hnak hfew => ?_, fun hlive hok hbad => ?_, fun hlive hspoiled => ?_, fun h hn => ?_, fun r h hn hr hs => ?_⟩
    · refine (idle_intact h.live h.intact h.heard frame).trans ?_
      rw [if_neg (by have := h.good; have := h.kind; simp_all [Fw.kind, f]), heedWord_heard h.nak]
    · refine (idle_intact hlive hok.1 hok.2 frame).trans ?_
      rw [if_neg (by simp_all [Fw.kind, f]), heedWord_nak hnak]
      have hagain := resend_again (s := s.setLink l k) (l := l) (by rw [hlink]; exact hfew)
      rw [hlink, State.setLink_setLink] at hagain
      exact congrArg Host.Outcome.next hagain
    · refine (idle_intact hlive hok.1 hok.2 frame).trans ?_
      rw [if_pos (by simpa [Fw.kind, f] using hbad), discardFrame_eq]
    · refine (idle_spoiled hlive hspoiled frame).trans ?_
      rw [discardFrame_eq, State.link_setLink_same, State.setLink_setLink]
    · have htake : exec (.header l frame body) s = .next ((s.setLink l k).takeFrame l f false body) :=
        congrArg Host.Outcome.next (packetFrame_heard h hn)
      refine ⟨fun hs hflits => ?_, fun hs hflits => ?_, fun hs => ?_⟩
      · rw [htake, takeFrame_part hlink hs (p := p) rfl (Nat.mul_pos (by decide) (Nat.pos_of_ne_zero hflits)), State.setLink_setLink]
      · rw [htake, takeFrame_whole hlink hs (p := p) rfl (by rw [hflits]; exact Nat.zero_le _), State.setLink_setLink]
      · rw [htake, takeFrame_gap hlink _ _ hs, State.setLink_setLink]
    · intro q
      have htake : exec (.flit l frame body) s = .next ((s.setLink l k).takeFrame l f true body) :=
        congrArg Host.Outcome.next (packetFrame_heard h hn)
      have hq : k.rx.map (fun p => { p with payload := p.payload ++ body }) = some q := by rw [hr]; rfl
      refine ⟨fun hpart => ?_, fun hwhole => ?_⟩
      · rw [htake, takeFrame_part hlink hs (isFlit := true) hq hpart, State.setLink_setLink]
      · rw [htake, takeFrame_whole hlink hs (isFlit := true) hq hwhole, State.setLink_setLink]
  · intro k w owed
    obtain ⟨hk, hs, hack, hnak, hvc, hcls, hcompany, hcount⟩ := frameWord_parts k kind seq body
    refine ⟨rfl, ?_, hk.trans (Nat.mod_eq_of_lt hkind), hs.trans (Nat.mod_eq_of_lt hseq), hack, testBit_of_bitsOf hnak, hvc,
      hcls.trans (Nat.mod_mod _ _), hcompany.trans (Nat.mod_mod _ _), hcount.trans (Nat.mod_eq_of_lt (by omega)), frameWord_reserved k kind seq body,
      frameWord_good k kind seq body⟩
    rw [show w.toNat / 2 ^ 32 = _ from frameWord_top k kind seq body]
    exact frameWord_crc k kind seq body

end Sys2Proof.Machine
end

section
/-! LINK_CONTROL frames (R225, R238, R241), timers and the town clock (R240 to R242). -/
namespace Sys2Proof.Machine

/-! ### LINK_CONTROL frames -/

/-- A link changed after a change. -/
theorem updLink_setLink (s : State) (l : Nat) (k : Link) (f : Link → Link) : (s.setLink l k).updLink l f = s.setLink l (f k) := by
  rw [State.updLink, State.link_setLink_same, State.setLink_setLink]

/-- R241: TIME from the parent, where the sender is synchronised. -/
theorem time_taken {s : State} {l : LinkId} {frame : BitVec 128} {body : List Byte} (h : Controlling s l 3 frame.toNat body)
    (hparent : s.town.parent = some l) (hmaster : s.town.master = false) (hsynced : (ofBytes body).testBit 12 = true) :
    execTime l frame body s = .next ((s.setLink l ((s.link l).heard frame.toNat)).takeTime l (bitsOf (ofBytes body) 64 64)
      (bitsOf (ofBytes body) 128 10)) := by
  have hs : Lc.synced (ofBytes body) = true := hsynced
  have hp : (s.setLink l ((s.link l).heard frame.toNat)).town.parent = some l := hparent
  have hm : (s.setLink l ((s.link l).heard frame.toNat)).town.master = false := hmaster
  unfold execTime
  rw [controlFrame_heard h, if_neg (by rw [hp, hm, hs]; simp)]
  rfl

section
variable {u : State} {l count fine : Nat}

/-- R241: the parent's count is this chip's. -/
theorem takeTime_agrees (h : (2 * (((count : Int) * 1024 + fine + (u.link l).delay) - (u.now : Int) * 1024) + 25600) / 51200 = 0) :
    u.takeTime l count fine = if u.town.synced || u.town.onReference then u else if u.town.agreed + 1 ≥ 3 then u.gainSync
      else { u with town := { u.town with agreed := u.town.agreed + 1 } } := by
  unfold State.takeTime
  exact if_pos h

/-- R241: it differs, and nothing is lost. -/
theorem takeTime_differs (h : (2 * (((count : Int) * 1024 + fine + (u.link l).delay) - (u.now : Int) * 1024) + 25600) / 51200 ≠ 0)
    (hs : u.town.synced = false) : u.takeTime l count fine = { u with town := { u.town with
      count := BitVec.ofInt 64 (u.now + 25 * ((2 * (((count : Int) * 1024 + fine + (u.link l).delay) - (u.now : Int) * 1024) + 25600) / 51200))
      agreed := 0 } } := by
  have hlose : u.loseSync 2 = u := by
    unfold State.loseSync
    exact if_pos (by rw [hs]; rfl)
  unfold State.takeTime
  refine (if_neg h).trans ?_
  rw [hlose]

end

/-- R238: the spare is free for the lane that the other end has lost. -/
theorem spareRequest_granted {s : State} {l : LinkId} {frame : BitVec 128} {body : List Byte} (h : Controlling s l 4 frame.toNat body)
    (hlane : Lc.lane (ofBytes body) < 8) (hspared : ((s.link l).heard frame.toNat).spared = none)
    (hsparing : ((s.link l).heard frame.toNat).sparing = none) : execSpareRequest l frame body s =
      .next (((s.setLink l ((s.link l).heard frame.toNat)).sendControl l (Lc.make 5 (Lc.lane (ofBytes body)) false 0 0 0 0 0 0)).spareLane l
        (Lc.lane (ofBytes body))) := by
  unfold execSpareRequest
  rw [controlFrame_heard h]
  dsimp only
  rw [if_neg (Nat.not_le.mpr hlane), State.link_setLink_same, hspared, hsparing]
  rfl

/-- Settles O42: each code's effect on the link, the town clock and the lanes. -/
theorem controlFramesAct : Obligations.ControlFramesAct := by
  intro s l frame body n f b k u p trip lane
  have hlink : u.link l = k := State.link_setLink_same _ _ _
  have hnow : u.now = s.now := rfl
  refine ⟨fun t h => ?_, fun h hprobe => ?_, fun h hparent hmaster hsynced => ?_, fun h hlane hspared hsparing => ?_, fun h hsparing => ?_, fun h => ?_⟩
  · exact congrArg Host.Outcome.next (controlFrame_heard h _)
  · refine (congrArg Host.Outcome.next (controlFrame_heard h _)).trans ?_
    dsimp only
    rw [hlink, if_neg (by rw [Bool.not_eq_true', Bool.not_eq_false]; exact hprobe), updLink_setLink]
    rfl
  · intro est steps
    have htime : exec (.time l frame body) s = .next (u.takeTime l (bitsOf b 64 64) (bitsOf b 128 10)) := time_taken h hparent hmaster hsynced
    have hsteps : (2 * (((bitsOf b 64 64 : Nat) : Int) * 1024 + (bitsOf b 128 10 : Nat) + (u.link l).delay - (u.now : Int) * 1024) + 25600) / 51200 = steps := by
      rw [hlink, hnow]
    refine ⟨fun hz hs => ?_, fun hz hr => ?_, fun hz hs hr ha => ?_, fun hz hs hr ha => ?_, fun hz hs => ?_⟩
    · rw [htime, takeTime_agrees (hsteps.trans hz), if_pos (by rw [show u.town.synced = true from hs]; rfl)]
    · rw [htime, takeTime_agrees (hsteps.trans hz), if_pos (by rw [show u.town.onReference = true from hr, Bool.or_true])]
    · rw [htime, takeTime_agrees (hsteps.trans hz), if_neg (by rw [show u.town.synced = false from hs, show u.town.onReference = false from hr]; decide),
        if_neg (by rw [show u.town.agreed = s.town.agreed from rfl]; omega)]
      rfl
    · rw [htime, takeTime_agrees (hsteps.trans hz), if_neg (by rw [show u.town.synced = false from hs, show u.town.onReference = false from hr]; decide),
        if_pos (by rw [show u.town.agreed = s.town.agreed from rfl]; omega)]
      rfl
    · rw [htime, takeTime_differs (fun e => hz (hsteps.symm.trans e)) hs, hsteps]
      rfl
  · exact spareRequest_granted h hlane hspared hsparing
  · refine (congrArg Host.Outcome.next (controlFrame_heard h _)).trans ?_
    rw [hlink, hsparing]
    refine (congrArg Host.Outcome.next (if_pos (beq_self_eq_true (some (lane, true))))).trans ?_
    rw [State.spareLane, updLink_setLink]
    rfl
  · refine (congrArg Host.Outcome.next (controlFrame_heard h _)).trans ?_
    rw [updLink_setLink]
    rfl

/-! ### Timers and the town clock -/

theorem timeTimer_sends {s : State} {l : LinkId} (hlive : s.linkLive l = true) (h : s.town.parent ≠ some l ∨ s.town.master = true) (fine : Nat) :
    execTimeTimer l fine s =
      .next (s.sendFrame l 3 0 (Lc.make 3 0 (s.town.synced || s.town.master) 0 s.now (fine % 1024) 0 0 0)) := by
  unfold execTimeTimer
  rw [if_neg]
  · rfl
  · rw [hlive]
    rcases h with h | h
    · simp [h]
    · simp [h]

theorem spareRequestTimer_sends {s : State} {l : LinkId} {lane : Nat} (hlive : s.linkLive l = true)
    (h : (s.link l).sparing = some (lane, true)) :
    execSpareRequestTimer l s = .next (s.sendFrame l 3 0 (Lc.make 4 lane false 0 0 0 0 0 0)) := by
  unfold execSpareRequestTimer
  rw [h]
  exact congrArg Host.Outcome.next (if_pos hlive)

/-- R240: a TOWN_REF edge outside the states that hold the count. -/
theorem townRefEdge_aligns {s : State} (hoff : s.power ≠ .off) (hboot : s.power ≠ .booting) (hstandby : s.power ≠ .standby) :
    let u : State := { s with town := { s.town with count := BitVec.ofNat 64 ((s.now + 12) / 25 * 25), onReference := false } }
    execTownRefEdge s = .next (if s.town.master && !s.town.synced then u.gainSync else u) := by
  intro u
  unfold execTownRefEdge
  rw [if_neg (by simp [hoff, hboot, hstandby])]

/-- Settles O43: the frames that timers send, and the edges and losses of the town clock. -/
theorem timersAndTownTime : Obligations.TimersAndTownTime := by
  intro s l fine k
  refine ⟨fun hlive => ?_, fun hlive h => timeTimer_sends hlive h fine, fun lane hlive h => spareRequestTimer_sends hlive h, fun cause h1 h3 hs => ?_,
    fun hoff hboot hstandby => ?_⟩
  · show execRttProbeTimer l fine s = _
    unfold execRttProbeTimer
    rw [if_neg (by rw [hlive]; decide)]
    rfl
  · intro u
    show execTownSyncLost cause s = _
    unfold execTownSyncLost State.loseSync
    rw [if_pos (by simp [h1, h3]), if_neg (by rw [hs]; decide)]
  · intro u
    refine ⟨fun h => ?_, fun hm hs => ?_⟩
    · refine (townRefEdge_aligns hoff hboot hstandby).trans ?_
      rw [if_neg]
      rcases h with h | h
      · rw [h, Bool.false_and]; decide
      · rw [h, Bool.not_true, Bool.and_false]; decide
    · refine (townRefEdge_aligns hoff hboot hstandby).trans ?_
      rw [hm, hs, if_pos (by decide)]
      rfl

end Sys2Proof.Machine
end

section
/-! Lanes and links: loss, training and injected errors (R221, R225, R238, R437). -/
namespace Sys2Proof.Machine

/-! ### Loss of lanes and links -/

section
variable {s : State} {l : Nat} (hlive : s.linkLive l = true)
include hlive

theorem loseLink_live : s.loseLink l =
    (State.postDevice { s.setLink l { State.emptyLink (s.link l) .down with wasLost := true } with
      outbox := State.wholePackets ((s.link l).front ++ (s.link l).replay) ++ s.outbox } 0x13 l).dropPeers l := by
  unfold State.loseLink
  rw [if_neg (by rw [hlive]; decide)]
  rfl

/-- R238: the first lost lane asks for the spare. -/
theorem loseLane_first {lane : Nat} (hlane : lane < 8) (hspared : (s.link l).spared = none) (hsparing : (s.link l).sparing = none) :
    s.loseLane l lane = (s.setLink l { s.link l with sparing := some (lane, true) }).sendFrame l 3 0 (Lc.make 4 lane false 0 0 0 0 0 0) := by
  unfold State.loseLane
  dsimp only
  rw [hlive, hspared, hsparing]
  exact if_neg (Nat.not_le.mpr hlane)

/-- R238: another lost lane, with the spare in use, loses the link. -/
theorem loseLane_second {lane m : Nat} (hspared : (s.link l).spared = some m) (hm : m ≠ lane) (hsparing : (s.link l).sparing ≠ some (lane, true)) :
    s.loseLane l lane = s.loseLink l := by
  unfold State.loseLane
  dsimp only
  rw [if_neg (by simp [hlive, hspared, hm, hsparing]), if_pos (by simp [hspared])]

end

/-! ### Training -/

/-- R221, R225: a trained link comes up; one that was lost says so. -/
theorem linkUp_trained {s : State} {l : LinkId} (hl : l < 16) (hen : (s.link l).enabled = true) (ht : (s.link l).state = .training)
    (hf : s.fatal = false) :
    let up := (s.setLink l { State.emptyLink (s.link l) .up with wasLost := false, owed := s.advertised l }).sendFrame l 3 0
      (Lc.make 6 0 false 0 0 0 0 s.chipId l)
    execLinkUp l s = .next (if (s.link l).wasLost then up.postDevice 0x14 l else up) := by
  intro up
  unfold execLinkUp
  rw [if_neg (by simp [hen, ht, hf]; exact hl)]
  rfl

/-! ### Injected errors -/

/-- R437: a control slot gives up one occurrence. -/
theorem takeOccurrence_eq (s : State) (slot : Nat) :
    let q := SMap.get {} s.perturb slot
    let q' : Perturb := if q.left = 0xFFFFFFFF then q else if q.left ≤ 1 then {} else { q with left := q.left - 1 }
    s.takeOccurrence slot = State.countChip { s with perturb := SMap.set {} s.perturb slot q' } 0x4D none 1 := by
  intro q q'
  unfold State.takeOccurrence
  simp only [beq_iff_eq]
  rfl

theorem linkError_injects {s : State} {slot : Nat} (hs : slot ≤ 15) (hk : (SMap.get {} s.perturb slot : Perturb).kind = 5) :
    execLinkError slot s = .next ((s.takeOccurrence slot).injectError (SMap.get {} s.perturb slot)) := by
  unfold execLinkError
  dsimp only
  rw [if_neg (by simp [hk]; exact hs)]

section
variable {u : State} {q : Perturb} (hlive : u.linkLive q.channel = true) (hamount : q.amount ≠ 0)
include hlive hamount

/-- R437: an error of each kind on a live link. -/
theorem injectError_symbol (h : q.sub = 1) : u.injectError q = u.countChip 0x43 (some q.channel) 1 := by
  unfold State.injectError
  rw [if_neg (by simp [hlive, hamount]), h]
  rfl

theorem injectError_codeword (h : q.sub = 2) :
    u.injectError q = u.updLink q.channel (fun k => { k with bad := k.bad + 5140 }) := by
  unfold State.injectError
  rw [if_neg (by simp [hlive, hamount]), h]
  rfl

theorem injectError_lane (h : q.sub = 3) : u.injectError q = u.loseLane q.channel q.lane := by
  unfold State.injectError
  rw [if_neg (by simp [hlive, hamount]), h]
  rfl

/-- R437: a loss of all frames loses the link from 2 µs on, and is a time of deafness before. -/
theorem injectError_outage (h : q.sub = 4) : u.injectError q = if q.amount ≥ 500 then u.loseLink q.channel
    else u.updLink q.channel (fun k => { k with deafUntil := max k.deafUntil (u.now + q.amount) }) := by
  unfold State.injectError
  rw [if_neg (by simp [hlive, hamount]), h]
  rfl

end

/-- Settles O44: lanes, losses, training and the injected errors. -/
theorem lanesAndLinks : Obligations.LanesAndLinks := by
  intro s l k lost
  refine ⟨fun lane hlive hlane hspared hsparing => congrArg Host.Outcome.next (loseLane_first hlive hlane hspared hsparing),
    fun lane m hlive hspared hm hsparing => ?_, fun hlive => congrArg Host.Outcome.next (loseLink_live hlive), fun hl hen ht hf => ?_, fun slot hs => ?_⟩
  · exact congrArg Host.Outcome.next ((loseLane_second hlive hspared hm hsparing).trans (loseLink_live hlive))
  · intro up
    have hup := linkUp_trained hl hen ht hf
    exact ⟨fun h => hup.trans (by rw [h]; rfl), fun h => hup.trans (by rw [h]; rfl)⟩
  · intro q q' u hkind hlive hamount
    have hinject : exec (.linkError slot) s = .next (u.injectError q) := by
      rw [show u = _ from (takeOccurrence_eq s slot).symm]
      exact linkError_injects hs hkind
    refine ⟨fun h => ?_, fun h => ?_, fun h => ?_, fun h hlong => ?_, fun h hshort => ?_⟩
    · rw [hinject, injectError_symbol hlive hamount h]
    · rw [hinject, injectError_codeword hlive hamount h]
    · rw [hinject, injectError_lane hlive hamount h]
    · rw [hinject, injectError_outage hlive hamount h, if_pos hlong]
    · rw [hinject, injectError_outage hlive hamount h, if_neg (Nat.not_le.mpr hshort)]

end Sys2Proof.Machine
end

section
/-! Packets at the ports, routes and credits (R229, R230, R233, R234, R236, R237, R335, R437). -/
namespace Sys2Proof.Machine

/-! ### PACKET_FORWARD -/

section
variable {s : State} {i : Nat} {p : Packet} (hpacket : s.outbox[i]? = some p) (hfront : s.flowFront i p = true) (hfatal : s.fatal = false)
  (hhops : ¬(p.source ≠ none ∧ Hdr.hops p.header.toNat = 0))
include hpacket hfront hfatal hhops

/-- R229, R230: a packet at the front of its flow with hops left goes to its port. -/
theorem packetForward_ports : execPacketForward i s = .next (match s.outPort p with
    | some (l, raise) => if l == localPort then s.deliverHere i p else s.leaveBy i p l raise
    | none => if p.unreachable then s else (s.updOutbox i (fun q => { q with unreachable := true })).postDevice 0x11
        (Hdr.dest p.header.toNat + 65536 * Hdr.routeSet p.header.toNat)) := by
  have hnotSpent : ¬(p.source.isSome && Hdr.hops p.header.toNat == 0) = true := by
    simpa only [Bool.and_eq_true, Option.isSome_iff_ne_none, beq_iff_eq] using hhops
  unfold execPacketForward
  rw [hpacket]
  dsimp only
  rw [if_neg (by simp [hfront, hfatal])]
  exact congrArg Host.Outcome.next (if_neg hnotSpent)

/-- R237: a packet without a port is reported once. -/
theorem packetForward_unreachable (hport : s.outPort p = none) (hnew : p.unreachable = false) : execPacketForward i s =
    .next ((s.updOutbox i (fun q => { q with unreachable := true })).postDevice 0x11
      (Hdr.dest p.header.toNat + 65536 * Hdr.routeSet p.header.toNat)) := by
  rw [packetForward_ports hpacket hfront hfatal hhops, hport]
  exact congrArg Host.Outcome.next (if_neg (by rw [hnew]; decide))

/-- R236: a packet for this chip, and one for a link. -/
theorem packetForward_local {raise : Bool} (hport : s.outPort p = some (localPort, raise)) : execPacketForward i s = .next (s.deliverHere i p) := by
  rw [packetForward_ports hpacket hfront hfatal hhops, hport]
  exact congrArg Host.Outcome.next (if_pos (beq_self_eq_true localPort))

theorem packetForward_link {l : Nat} {raise : Bool} (hport : s.outPort p = some (l, raise)) (hl : l ≠ localPort) :
    execPacketForward i s = .next (s.leaveBy i p l raise) := by
  rw [packetForward_ports hpacket hfront hfatal hhops, hport]
  exact congrArg Host.Outcome.next (if_neg (by simpa using hl))

end

section
variable (s : State) (i : Nat) (p : Packet) (l : Nat) (raise : Bool)

/-- R437: the credits that count on a link for a leaving packet. -/
def State.creditsFor (s : State) (p : Packet) (l : Nat) (raise : Bool) : Nat :=
  let h := State.leavingHeader p raise
  if s.isWithheld (Hdr.company h) l (Hdr.vc h) then 0 else SMap.get 0 (s.link l).credits (creditIndex (Hdr.vc h) (Hdr.cls h) (Hdr.company h))

/-- R234: too few credits. -/
theorem leaveBy_waits (h : s.creditsFor p l raise < p.units) : s.leaveBy i p l raise =
    s.updOutbox i (fun q => if q.waitingSince.isSome then q else { q with waitingSince := some s.now }) := by
  unfold State.leaveBy
  exact if_pos h

/-- R224, R233: credits and room in the replay buffer. -/
theorem leaveBy_leaves (h : p.units ≤ s.creditsFor p l raise) (hroom : (s.link l).replay.length + p.units ≤ 1024) :
    let h := State.leavingHeader p raise
    let k := s.link l
    let c := creditIndex (Hdr.vc h) (Hdr.cls h) (Hdr.company h)
    let fs := State.packetFrames k.txSeq h p.payload p.source
    let t := (s.setLink l { k with
      credits := SMap.set 0 k.credits c (SMap.get 0 k.credits c - p.units)
      replay := k.replay ++ fs, txSeq := (k.txSeq + p.units) % 4096 }).sendFrames l fs
    s.leaveBy i p l raise = State.release { t with outbox := t.outbox.eraseIdx i } p := by
  unfold State.leaveBy
  exact (if_neg (Nat.not_lt.mpr h)).trans (if_neg (Nat.not_lt.mpr hroom))

end

/-! ### Starved companies and withheld credits -/

/-- R234, R335: a packet that has waited a watch interval more. -/
theorem creditStarved_reports {s : State} {c link vc i : Nat} {p : Packet} {t : Nat}
    (hi : s.outbox.findIdx (fun p => Hdr.company p.header.toNat == c && Hdr.vc p.header.toNat == vc && p.waitingSince.isSome &&
      (match s.outPort p with | some q => q.1 == link | none => false)) = i)
    (hp : s.outbox[i]? = some p) (ht : p.waitingSince = some t) (hwatch : (s.company c).watch ≠ 0)
    (hlong : (s.company c).watch.toNat * (p.starved + 1) < s.now - t) :
    execCreditStarved c link vc s = .next ((s.updOutbox i (fun q => { q with starved := q.starved + 1 })).postCompany c 4
      (link % 16 + 16 * (vc % 4) + 2 ^ 32 * (s.now - t))) := by
  have hon : (s.company c).watch.toNat ≠ 0 := fun e => hwatch (BitVec.eq_of_toNat_eq e)
  unfold execCreditStarved
  dsimp only
  generalize hj : List.findIdx _ s.outbox = j
  have hji : j = i := hj.symm.trans hi
  subst hji
  rw [hp]
  dsimp only
  rw [ht, Option.getD_some]
  exact congrArg Host.Outcome.next (if_neg (by simp [hon]; exact Nat.add_lt_of_lt_sub hlong))

theorem creditWithhold_ends {s : State} {slot : Nat} {w : Nat × Nat × Nat × Nat} (h : s.withheld.find? (fun w => w.1 == slot) = some w) :
    execCreditWithhold slot s = .next { (s.taintWithheld w) with withheld := s.withheld.filter (fun w => w.1 != slot) } := by
  unfold execCreditWithhold
  dsimp only
  rw [h]

theorem creditWithhold_begins {s : State} {slot : Nat} (hs : slot ≤ 15) (h : s.withheld.find? (fun w => w.1 == slot) = none)
    (hk : (SMap.get {} s.perturb slot : Perturb).kind = 2) (ha : (SMap.get {} s.perturb slot : Perturb).amount ≠ 0) :
    let q : Perturb := SMap.get {} s.perturb slot
    execCreditWithhold slot s =
      .next { s.takeOccurrence slot with withheld := (s.takeOccurrence slot).withheld ++ [(slot, q.company, q.channel, q.sub)] } := by
  intro q
  unfold execCreditWithhold
  dsimp only
  rw [h]
  refine congrArg Host.Outcome.next ((if_neg ?_).trans (if_neg ?_))
  · simp [hk]; exact hs
  · simpa using ha

/-- Settles O46: the ports by the route and its credits, the swap, and the reports and perturbations of credits. -/
theorem packetsAndRoutes : Obligations.PacketsAndRoutes := by
  refine ⟨fun s i p hpacket hfront hfatal => ⟨fun hhops hport hnew => packetForward_unreachable hpacket hfront hfatal hhops hport hnew,
    fun raise hhops hport => packetForward_local hpacket hfront hfatal hhops hport,
    fun l raise hhops hport hl => ?_⟩, fun s => ⟨fun n hswap hn => ?_, ?_, fun slot hs => ?_⟩⟩
  · intro h k c fs credits
    have hleave : exec (.packetForward i) s = .next (s.leaveBy i p l raise) := packetForward_link hpacket hfront hfatal hhops hport hl
    refine ⟨fun hfew => ?_, fun henough hroom => ?_⟩
    · rw [hleave, leaveBy_waits s i p l raise hfew]
      rfl
    · rw [hleave, leaveBy_leaves s i p l raise henough hroom]
  · show execRouteSwap s = _
    unfold execRouteSwap
    rw [hswap]
    exact congrArg Host.Outcome.next (if_neg (Nat.not_lt.mpr hn))
  · intro c link vc i p t mine hp hi ht hwatch hlong
    exact creditStarved_reports hi hp ht hwatch hlong
  · intro q q' u
    refine ⟨fun h hk ha => ?_, fun w h => creditWithhold_ends h⟩
    have hlist : (s.takeOccurrence slot).withheld = s.withheld := by
      rw [State.takeOccurrence, (State.countChip_counts _ _ _ _).state]
    rw [show u = s.takeOccurrence slot from (takeOccurrence_eq s slot).symm, ← hlist]
    exact creditWithhold_begins hs h hk ha

end Sys2Proof.Machine
end

section
/-! The host port: rows, bursts and the commands of a channel (R303 to R318). -/
namespace Sys2Proof.Machine

/-! ### Rows -/

/-- Settles O47: each command on an initialised channel. -/
theorem rowsOpenAndClose : Obligations.RowsOpenAndClose := by
  intro s c bank x hon k b
  refine ⟨congrArg Host.Outcome.next (if_pos hon), fun u hu => ?_, congrArg Host.Outcome.next (if_pos hon), congrArg Host.Outcome.next (if_pos hon)⟩
  intro opened
  have hactivate : exec (.activate2 c bank x) s =
      .next (if (SMap.get none (s.channel c).rows (bank % 16)).isSome then opened.countProtocolError c else opened) := by
    show execActivate2 c bank x s = _
    unfold execActivate2
    rw [if_neg (by rw [hon]; decide), show SMap.get none (s.channel c).half (bank % 16) = some u from hu]
    rfl
  refine ⟨fun h => ?_, fun h => ?_⟩
  · rw [hactivate, show SMap.get none (s.channel c).rows (bank % 16) = none from h]
    rfl
  · rw [hactivate, if_pos (Option.isSome_iff_ne_none.mpr h)]

/-! ### Bursts of the foyer -/

/-- R309, R310: the foyer address of a burst. -/
theorem foyerAt_eq (c row bank col : Nat) : c * 2 ^ 24 + burstAt row bank col = c * 2 ^ 24 + row * 32768 + bank % 16 * 2048 + col % 64 * 32 := by
  unfold burstAt
  omega

section
variable {s : State} {c bank col row : Nat} (hon : s.channelOn c = true) (hpower : s.power ≠ .booting)
  (hrow : SMap.get none (s.channel c).rows (bank % 16) = some row) (hlt : row < 512)
include hon hpower hrow hlt

/-- R312: a read of 16 and of 32 beats. -/
theorem read16_foyer (hu : ∀ i, i < 32 / 8 → s.upset .foyer (c * 2 ^ 24 + burstAt row bank col + 8 * i) = 0) : s.hostRead c bank col 32 false =
    s.setChannel c { s.channel c with dq := (List.range 32).map (fun i => Memory.read s.mem (c * 2 ^ 24 + burstAt row bank col + i)) } :=
  hostRead_foyer hon hrow (burst_end hlt) hpower hu

theorem read32_foyer (hu : ∀ i, i < 64 / 8 → s.upset .foyer (c * 2 ^ 24 + burstAt row bank (col - col % 2) + 8 * i) = 0) :
    s.hostRead c bank col 64 false = s.setChannel c { s.channel c with
      dq := (List.range 64).map (fun i => Memory.read s.mem (c * 2 ^ 24 + burstAt row bank (col - col % 2) + i)) } :=
  hostRead_foyer hon hrow (burst_end2 hlt) hpower hu

omit hlt in
/-- R311, R313: a write burst stores the bytes that its mask does not keep, at its place and nowhere else. -/
theorem hostWrite_stores {n at_ : Nat} {data : List Byte} (mask : List Bool) (hn : data.length = n)
    (hat : burstAt row bank (if n == 64 then col - col % 2 else col) = at_) (hend : at_ + n ≤ 2 ^ 24)
    (hu : ∀ i, i < n / 8 → s.upset .foyer (c * 2 ^ 24 + at_ + 8 * i) = 0) :
    let t := s.hostWrite c bank col n data mask false
    t = { s with mem := t.mem } ∧
      (∀ j, j < n → Memory.read t.mem (c * 2 ^ 24 + at_ + j) =
        if mask.getD j false then Memory.read s.mem (c * 2 ^ 24 + at_ + j) else data.getD j 0) ∧
      (∀ b, b < c * 2 ^ 24 + at_ ∨ c * 2 ^ 24 + at_ + n ≤ b → Memory.read t.mem b = Memory.read s.mem b) := by
  subst hat
  intro t
  have ht := hostWrite_foyer (mask := mask) hon hrow hn hend hpower hu
  obtain ⟨hin, hout⟩ := stored (s := s) (off := burstAt row bank (if n == 64 then col - col % 2 else col)) (c * 2 ^ 24) n data mask hn
  rw [show t = _ from ht]
  exact ⟨rfl, hin, hout⟩

end

/-- Settles O48: reads and writes of the foyer by `hostRead_foyer` and `hostWrite_foyer`. -/
theorem hostReachesTheFoyer : Obligations.HostReachesTheFoyer := by
  refine ⟨fun s c bank col row hon hpower hrow hlt => ?_, fun s c bank col row data mask hon hpower hrow hlt => ?_⟩
  · intro at_ clean answer
    have hat : ∀ col, at_ col = c * 2 ^ 24 + burstAt row bank col := fun col => (foyerAt_eq c row bank col).symm
    refine ⟨fun hu => ?_, fun hu => ?_⟩
    · rw [hat] at hu ⊢
      exact congrArg Host.Outcome.next (read16_foyer hon hpower hrow hlt hu)
    · rw [hat] at hu ⊢
      exact congrArg Host.Outcome.next (read32_foyer hon hpower hrow hlt hu)
  · intro at_ clean stores
    have hat : ∀ col, at_ col = c * 2 ^ 24 + burstAt row bank col := fun col => (foyerAt_eq c row bank col).symm
    refine ⟨fun hn hu => ?_, fun hn hu => ?_, fun hn hu => ?_⟩
    · rw [hat] at hu ⊢
      exact ⟨_, rfl, hostWrite_stores hon hpower hrow [] hn rfl (burst_end hlt) hu⟩
    · rw [hat] at hu ⊢
      exact ⟨_, rfl, hostWrite_stores hon hpower hrow [] hn rfl (burst_end2 hlt) hu⟩
    · rw [hat] at hu ⊢
      exact ⟨_, rfl, hostWrite_stores hon hpower hrow mask hn rfl (burst_end hlt) hu⟩

/-- Settles O49: the burst read is the burst written. -/
theorem writeThenRead : Obligations.WriteThenRead := by
  intro s c bank col row data hon hpower hrow hlt hn hu
  have hclean : ∀ i, i < 32 / 8 → s.upset .foyer (c * 2 ^ 24 + burstAt row bank col + 8 * i) = 0 := fun i hi => by
    rw [foyerAt_eq]; exact hu i hi
  obtain ⟨hmem, hin, -⟩ := hostWrite_stores (col := col) (at_ := burstAt row bank col) hon hpower hrow [] hn rfl (burst_end hlt) hclean
  generalize ht : s.hostWrite c bank col 32 data [] false = t at hmem hin
  have hread : t.hostRead c bank col 32 false = _ := read16_foyer (s := t) (by rw [hmem]; exact hon) (by rw [hmem]; exact hpower)
    (by rw [hmem]; exact hrow) hlt (by rw [hmem]; exact hclean)
  refine ⟨t, _, congrArg Host.Outcome.next ht, congrArg Host.Outcome.next hread, ?_⟩
  rw [State.channel, State.setChannel, SMap.get_set_same]
  apply List.ext_getElem
  · simp [hn]
  · intro j h1 h2
    rw [List.getElem_map, List.getElem_range, hin j (by simpa using h1)]
    simp [List.getD_eq_getElem?_getD, List.getElem?_eq_getElem h2]

end Sys2Proof.Machine
end

section
/-! The commands of the host port besides its bursts (R303 to R308, R314, R317, R318), and the registers of the host-port page (R314, R325 to
R327). -/
namespace Sys2Proof.Machine

/-! ### The initialisation of a channel -/

/-- R305, R308: what an accepted multi-purpose command makes of a channel. -/
def Channel.commanded (k : Channel) (op : Nat) (pattern : Byte) : Channel :=
  match op with
  | 0 => { k with training := 1, dq := [pattern] }
  | 1 => { k with training := 2, dq := [pattern] }
  | 4 => { k with training := 0 }
  | _ => k

section
variable {s : State} {c : Nat} (hready : s.channelReady c = true)
include hready

theorem modeRegisterWrite_sets {r : Nat} (hr : r ≤ 255) (v : Byte) : execModeRegisterWrite c r v s = .next (s.setChannel c { s.channel c with
    mr := SMap.set 0 (s.channel c).mr (s.mrIndex c r)
      (BitVec.ofNat 8 (State.mrAccept (SMap.get 0 (s.channel c).mr (s.mrIndex c r)).toNat v.toNat r)) }) := by
  unfold execModeRegisterWrite
  rw [if_neg (by rw [hready]; simpa using hr)]
  rfl

theorem modeRegisterRead_drives {r : Nat} (hr : r ≤ 255) : execModeRegisterRead c r s = .next (s.setChannel c { s.channel c with
    dq := [if r = 4 then 0x09 else if r = 8 then 0x19 else SMap.get 0 (s.channel c).mr (s.mrIndex c r)] }) := by
  unfold execModeRegisterRead State.mrRead
  rw [if_pos hready, Nat.mod_eq_of_lt (by omega)]
  simp only [beq_iff_eq]
  rfl

theorem cas_reserved {op : Nat} (h : 2 < op) : execCas c op s = .next (s.countProtocolError c) := by
  unfold execCas
  rw [if_neg (by rw [hready]; decide), if_pos h]

theorem cas_wck {op : Nat} (h : op ≤ 2) : execCas c op s = .next (s.setChannel c { s.channel c with wck := op != 2 }) := by
  unfold execCas
  rw [if_neg (by rw [hready]; decide), if_neg (Nat.not_lt.mpr h)]
  rfl

theorem multiPurpose_reserved {op : Nat} (h : 4 < op) (pattern : Byte) : execMultiPurposeCommand c op pattern s = .next (s.countProtocolError c) := by
  unfold execMultiPurposeCommand
  rw [if_neg (by rw [hready]; decide), if_pos h]

theorem multiPurpose_sets {op : Nat} (h : op ≤ 4) (pattern : Byte) :
    execMultiPurposeCommand c op pattern s = .next (s.setChannel c ((s.channel c).commanded op pattern)) := by
  unfold execMultiPurposeCommand
  rw [if_neg (by rw [hready]; decide), if_neg (Nat.not_lt.mpr h)]
  rfl

/-- R308: a read takes the oldest data of the FIFO. -/
theorem readFifo_drives {d : List Byte} {t : List (List Byte)} (h : (s.channel c).fifo = d :: t) :
    execReadFifo c s = .next (s.setChannel c { s.channel c with dq := d, fifo := t }) := by
  unfold execReadFifo State.updChannel
  rw [if_neg (by rw [hready]; decide)]
  dsimp only
  rw [h]

theorem writeFifo_appends {data : List Byte} (h : data.length = 32) :
    execWriteFifo c data s = .next (s.setChannel c { s.channel c with fifo := (s.channel c).fifo ++ [data] }) := by
  have hpad : padTo 32 0 (data.take 32) = data := by simp [padTo, ← h]
  unfold execWriteFifo
  rw [if_pos hready, hpad]
  rfl

end

/-! ### Hints and resets -/

theorem beginHint_on {s : State} {c : Nat} (hon : s.channelOn c = true) (h : Nat) : s.beginHint c h =
    (s.setChannel c { s.channel c with hint := h, idleHints := min ((s.channel c).idleHints + 1) 0xFFFFFFFF }).countChip 0x53 (some c) 1 := by
  unfold State.beginHint State.countIdleHint State.updChannel
  rw [if_pos hon, State.channel_setChannel_same, State.setChannel_setChannel]
  rfl

theorem endHint_on {s : State} {c h : Nat} (hport : s.portOn = true) (hc : c < 4) (hh : (s.channel c).hint = h) (h0 : h ≠ 0) :
    s.endHint c h = s.setChannel c { s.channel c with hint := 0 } := by
  unfold State.endHint
  rw [if_pos (by simp [hport, hc, hh, h0])]
  rfl

/-- R317: what a low HOST_RESET_N leaves. -/
theorem hostReset_low (s : State) : ∃ t, execHostResetN false s = .next t ∧ t = { s with hostReset := false, channels := t.channels } ∧
    (∀ d, d < 4 → t.channel d = (s.channel d).afterReset) ∧ ∀ d, 4 ≤ d → t.channel d = s.channel d := by
  obtain ⟨hstate, hin, hout⟩ := updChannels_spec (List.range 4) s Channel.afterReset fun _ => rfl
  refine ⟨{ s.resetChannels with hostReset := false }, rfl, ?_⟩
  unfold State.resetChannels
  generalize (List.range 4).foldl (fun s c => s.updChannel c Channel.afterReset) s = u at hstate hin hout
  exact ⟨by rw [hstate], fun d hd => hin d (List.mem_range.mpr hd), fun d hd => hout d fun e => absurd (List.mem_range.mp e) (Nat.not_lt.mpr hd)⟩

/-- Settles O50: each command of a channel, and HOST_RESET_N. -/
theorem hostPortCommands : Obligations.HostPortCommands := by
  refine ⟨fun s c hready => ?_, fun s c => ?_⟩
  · intro k set
    refine ⟨fun r v hr => ?_, fun op h => cas_reserved hready h, fun op h => ?_, cas_wck hready (Nat.le_refl 2), fun pattern => ?_,
      fun data h => writeFifo_appends hready h, fun d t h => readFifo_drives hready h, congrArg Host.Outcome.next (if_pos hready)⟩
    · intro i
      exact ⟨modeRegisterWrite_sets hready hr v, modeRegisterRead_drives hready hr⟩
    · refine (cas_wck hready (Nat.le_succ_of_le h)).trans ?_
      rw [bne_iff_ne.mpr (show op ≠ 2 by omega)]
    · refine ⟨multiPurpose_sets hready (by decide) pattern, multiPurpose_sets hready (by decide) pattern, multiPurpose_sets hready (by decide) pattern,
        fun op h => multiPurpose_reserved hready h pattern, fun op h => ?_⟩
      rcases h with rfl | rfl
      · exact multiPurpose_sets hready (by decide) pattern
      · exact multiPurpose_sets hready (by decide) pattern
  · intro k entry leave seen
    refine ⟨fun hon => ?_, fun hport hc => ?_, rfl, rfl, ?_⟩
    · exact ⟨congrArg Host.Outcome.next (if_pos hon), fun _ => congrArg Host.Outcome.next (if_pos hon), congrArg Host.Outcome.next (if_pos hon),
        congrArg Host.Outcome.next (beginHint_on hon 1), congrArg Host.Outcome.next (beginHint_on hon 2), congrArg Host.Outcome.next (beginHint_on hon 3)⟩
    · exact ⟨fun h => congrArg Host.Outcome.next (endHint_on hport hc h (by decide)), fun h => congrArg Host.Outcome.next (endHint_on hport hc h (by decide)),
        fun h => congrArg Host.Outcome.next (endHint_on hport hc h (by decide)), congrArg Host.Outcome.next (if_pos (by simp [hport, hc]))⟩
    · exact hostReset_low s

/-! ### Rings and registers -/

section
variable {s : State} {r : Nat} (hr : r ≤ 32) (v : Word)
include hr

/-- R325, R327: a doorbell within reach, and one beyond it. -/
theorem ringDoorbell_near (h : (v - (s.ring r).cmdHead).toNat ≤ 256) : s.ringDoorbell r v =
    s.setRing r { s.ring r with cmdTail := v, state := if (s.ring r).state = .indexError then s.ringOpenState r else (s.ring r).state } := by
  unfold State.ringDoorbell
  rw [if_neg (Nat.not_lt.mpr hr)]
  dsimp only
  rw [if_pos h]
  simp only [beq_iff_eq]

theorem ringDoorbell_far (h : 256 < (v - (s.ring r).cmdHead).toNat) :
    let t := s.setRing r { s.ring r with state := .indexError, badIndex := min ((s.ring r).badIndex + 1) 0xFFFFFFFF }
    s.ringDoorbell r v = if (s.ring r).state = .indexError then t else t.postDevice 0x20 r := by
  intro t
  unfold State.ringDoorbell
  rw [if_neg (Nat.not_lt.mpr hr)]
  dsimp only
  rw [if_neg (Nat.not_le.mpr h)]
  simp only [beq_iff_eq]
  rfl

/-- R326, R327: records read. -/
theorem ringConsume_eq : s.ringConsume r v = s.setRing r
    (if (v - (s.ring r).cplHead).toNat ≤ (s.ring r).unread then { s.ring r with cplHead := v }
      else { s.ring r with badIndex := min ((s.ring r).badIndex + 1) 0xFFFFFFFF }) := by
  unfold State.ringConsume
  rw [if_neg (Nat.not_lt.mpr hr)]
  dsimp only
  split <;> rfl

end

theorem clearCounter_eq (s : State) {c : Nat} (hc : c < 4) (i : Nat) : s.clearCounter c i = s.setChannel c (match i with
    | 0 => { s.channel c with unbackedReads := 0 }
    | 1 => { s.channel c with unbackedWrites := 0 }
    | 2 => { s.channel c with refreshSeen := 0 }
    | 3 => { s.channel c with idleHints := 0 }
    | 4 => { s.channel c with protocolErrors := 0 }
    | _ => s.channel c) := by
  unfold State.clearCounter
  rw [if_neg (by omega)]
  rfl

/-- R314: the bytes of a 64-bit word written at an offset. -/
def wordBytes (at_ : Nat) (v : BitVec 64) : List (Nat × Byte) := (List.range 8).map (fun i => (at_ + i, BitVec.ofNat 8 (v.toNat >>> (8 * i))))

/-- ATTN_MASK takes every byte of the word written. -/
theorem mergeBytes_word (old at_ : Nat) (v : BitVec 64) : State.mergeBytes old at_ 8 (wordBytes at_ v) = v.toNat := by
  have hv := v.isLt
  have hfind : ∀ i, i < 8 → (wordBytes at_ v).find? (fun w => w.1 == at_ + i) = some (at_ + i, BitVec.ofNat 8 (v.toNat >>> (8 * i))) := by
    intro i hi
    refine List.find?_eq_some_iff_getElem.mpr ⟨beq_self_eq_true _, i, by simpa [wordBytes] using hi, by simp [wordBytes], fun j hj => ?_⟩
    simp only [wordBytes, List.getElem_map, List.getElem_range, Bool.not_eq_true', beq_eq_false_iff_ne]
    omega
  have hbytes : State.mergeBytes old at_ 8 (wordBytes at_ v) = ofBytes ((List.range 8).map (fun i => BitVec.ofNat 8 (v.toNat >>> (8 * i)))) := by
    unfold State.mergeBytes
    refine congrArg ofBytes (List.map_congr_left fun i hi => ?_)
    rw [hfind i (List.mem_range.mp hi)]
  rw [hbytes]
  simp only [List.range, List.range.loop, List.map_cons, List.map_nil, ofBytes, BitVec.toNat_ofNat, Nat.shiftRight_eq_div_pow]
  omega

/-- The bytes of a word written lie in that word. -/
theorem wordBytes_in {at_ : Nat} {v : BitVec 64} {w : Nat × Byte} (h : w ∈ wordBytes at_ v) : at_ ≤ w.1 ∧ w.1 < at_ + 8 := by
  obtain ⟨i, hi, rfl⟩ := List.mem_map.mp h
  have := List.mem_range.mp hi
  exact ⟨Nat.le_add_right _ _, Nat.add_lt_add_left this _⟩

/-- A register that ends before the word, or begins after it, is not written. -/
theorem wordBytes_miss {at_ base n : Nat} (v : BitVec 64) (h : base + n ≤ at_ ∨ at_ + 8 ≤ base) :
    (wordBytes at_ v).any (fun w => base ≤ w.1 && w.1 < base + n) = false := by
  rw [List.any_eq_false]
  intro w hw
  have hin := wordBytes_in hw
  simp only [Bool.and_eq_true, decide_eq_true_eq]
  omega

/-- Steps that each leave a state as it is leave it so. -/
theorem foldl_stays {α : Type} {l : List α} {f : State → α → State} {s : State} (h : ∀ a ∈ l, f s a = s) : l.foldl f s = s := by
  induction l with
  | nil => rfl
  | cons a t ih => rw [List.foldl_cons, h a List.mem_cons_self, ih fun b hb => h b (List.mem_cons_of_mem a hb)]

/-- R401: the word is written whole, so its check bits are new. -/
theorem settleControl_word (s : State) (v : BitVec 64) :
    (((wordBytes 0xFF010 v).map (fun w => w.1 / 8)).eraseDups).foldl
      (fun s i => s.settleControl (8 * i) ((wordBytes 0xFF010 v).countP (fun w => w.1 / 8 == i))) s = s.sramRenew (State.controlWord 0xFF010) := by
  have hword : ∀ w ∈ wordBytes 0xFF010 v, w.1 / 8 = 0x1FE02 := fun w hw => by
    have hin := wordBytes_in hw
    omega
  have hlength : (wordBytes 0xFF010 v).length = 8 := by rw [wordBytes, List.length_map, List.length_range]
  have hwords : ((wordBytes 0xFF010 v).map (fun w => w.1 / 8)).eraseDups = [0x1FE02] := by
    rw [List.map_congr_left hword, List.map_const', hlength]
    decide
  have hcount : (wordBytes 0xFF010 v).countP (fun w => w.1 / 8 == 0x1FE02) = 8 := by
    rw [← hlength, List.countP_eq_length]
    exact fun w hw => beq_iff_eq.mpr (hword w hw)
  rw [hwords, List.foldl_cons, List.foldl_nil, hcount]
  rfl

/-- R314: no ring header and no counter stands where ATTN_MASK does. -/
theorem writeControl_attnMask (s : State) (v : BitVec 64) : s.writeControl (wordBytes 0xFF010 v) =
    { s with attnMask := v.setWidth 33, sram := s.sram.filter (fun e => !State.controlWord 0xFF010 e.1) } := by
  have hhit : (wordBytes 0xFF010 v).any (fun w => 0xFF010 ≤ w.1 && w.1 < 0xFF010 + 8) = true := rfl
  unfold State.writeControl
  dsimp only
  rw [foldl_stays (l := List.range 33)]
  · simp only [hhit, if_true, mergeBytes_word, BitVec.ofNat_toNat]
    rw [foldl_stays (l := List.range 20), settleControl_word]
    · rfl
    · intro i _
      have hmiss := wordBytes_miss (at_ := 0xFF010) (base := 0xFF100 + 0x20 * (i / 5) + 4 * (i % 5)) (n := 4) v (by omega)
      simp only [hmiss, Bool.false_eq_true, if_false]
  · intro r hr
    have hlt := List.mem_range.mp hr
    have htail := wordBytes_miss (at_ := 0xFF010) (base := 64 * r) (n := 4) v (by omega)
    have hhead := wordBytes_miss (at_ := 0xFF010) (base := 64 * r + 24) (n := 4) v (by omega)
    simp only [htail, hhead, Bool.false_eq_true, if_false]

/-- R314: every byte of the word is a register's. -/
theorem attnMask_backed (s : State) : (List.range 8).any (fun i => (s.controlByte (0xFF010 + i)).isNone) = false := by
  rw [List.any_eq_false]
  intro i hi
  have hlt := List.mem_range.mp hi
  unfold State.controlByte
  dsimp only
  rw [if_neg (by omega), if_neg (by simp only [Bool.and_eq_true, decide_eq_true_eq]; omega),
    if_neg (by simp only [Bool.and_eq_true, decide_eq_true_eq]; omega), if_neg (by simp only [Bool.and_eq_true, decide_eq_true_eq]; omega),
    if_pos (by simp only [Bool.and_eq_true, decide_eq_true_eq]; omega)]
  exact Bool.false_ne_true

/-- Settles O51: the ring indexes by the distance asked for, the counters and ATTN_MASK. -/
theorem ringRegistersAreWritten : Obligations.RingRegistersAreWritten := by
  intro s r v hon hr k bad
  have hdoorbell : exec (.doorbell r v) s = .next (s.ringDoorbell r v) := congrArg Host.Outcome.next (if_pos hon)
  have hconsume : exec (.cplHeadWrite r v) s = .next (s.ringConsume r v) := congrArg Host.Outcome.next (if_pos hon)
  refine ⟨fun h hs => ?_, fun h hs => ?_, fun h hs => ?_, fun h hs => ?_, fun h => ?_, fun h => ?_, fun c hc => ?_, fun m => ?_⟩
  · rw [hdoorbell, ringDoorbell_near hr v h, if_neg hs]
  · rw [hdoorbell, ringDoorbell_near hr v h, if_pos hs, State.ringOpenState]
    simp only [Bool.or_eq_true, beq_iff_eq]
    rfl
  · rw [hdoorbell, ringDoorbell_far hr v h, if_neg hs]
  · rw [hdoorbell, ringDoorbell_far hr v h, if_pos hs]
    rw [← hs]
  · rw [hconsume, ringConsume_eq hr v, if_pos h]
  · rw [hconsume, ringConsume_eq hr v, if_neg (Nat.not_le.mpr h)]
  · intro n
    have hclear : ∀ i, exec (.counterClear c i) s = .next (s.clearCounter c i) := fun i => congrArg Host.Outcome.next (if_pos hon)
    exact ⟨(hclear 0).trans (congrArg _ (clearCounter_eq s hc 0)), (hclear 1).trans (congrArg _ (clearCounter_eq s hc 1)),
      (hclear 2).trans (congrArg _ (clearCounter_eq s hc 2)), (hclear 3).trans (congrArg _ (clearCounter_eq s hc 3)),
      (hclear 4).trans (congrArg _ (clearCounter_eq s hc 4))⟩
  · show execRegisterWrite 0xFF010 m s = _
    unfold execRegisterWrite
    rw [if_neg (by rw [hon]; decide)]
    dsimp only
    rw [show (0xFF010 - 0xFF010 % 8 : Nat) = 0xFF010 from rfl, attnMask_backed, if_neg Bool.false_ne_true]
    exact congrArg Host.Outcome.next (writeControl_attnMask s m)

end Sys2Proof.Machine
end

section
/-! The rings: taking a slot, and posting the records that wait (R325, R328, R330, R332, R394). -/
namespace Sys2Proof.Machine

/-! ### The stage manager's memory -/

theorem managerWorks_fatal {s : State} (h : ∃ e ∈ s.sram, e.1 = SramPlace.managerMemory ∧ 2 ≤ e.2) (f : State → State) :
    s.managerWorks f = s.fatalFault 2 0 := by
  obtain ⟨e, he, hplace, hbad⟩ := h
  have hfound : ((s.sram.filter (fun e => e.1 == .managerMemory)).find? (fun e => decide (e.2 ≥ 2))).isSome = true :=
    List.find?_isSome.mpr ⟨e, List.mem_filter.mpr ⟨he, beq_iff_eq.mpr hplace⟩, decide_eq_true hbad⟩
  obtain ⟨x, hx⟩ := Option.isSome_iff_exists.mp hfound
  unfold State.managerWorks State.sramErrors
  dsimp only
  rw [hx]
  rfl

theorem managerWorks_quiet {s : State} (h : ∀ e ∈ s.sram, e.1 ≠ SramPlace.managerMemory) (f : State → State) : s.managerWorks f = f s := by
  have hnone : s.sram.filter (fun e => e.1 == .managerMemory) = [] := List.filter_eq_nil_iff.mpr fun e he => by simpa using h e he
  unfold State.managerWorks State.sramErrors
  dsimp only
  rw [hnone]
  rfl

/-! ### Commands without effect -/

/-- R332: a current command that may have an effect stays. -/
theorem dismissOne_stays {s : State} {r : Nat} (hopen : (s.ring r).state = .opened)
    (h : ∀ c, s.current r = some c → Cmd.opcode c.word ∈ opcodes) : s.dismissOne r = s := by
  unfold State.dismissOne
  split
  case h_1 => rfl
  case h_2 c hc =>
    dsimp only
    split
    · rfl
    · rw [hopen, if_neg (by decide), List.contains_iff_mem.mpr (h c hc), if_neg (by decide)]

/-- R330: a ring's only command, which is not accepted. -/
theorem dismiss_only {s : State} {r : Nat} {c : Taken} (hready : s.ready = true) (htaken : (s.ring r).taken = [c]) (hc : c.accepted = false) :
    let finish (st off : Nat) := s.postCompletion r false (Cmd.opcode c.word) (if r = 0 then none else some (r - 1)) (Cmd.tag c.word) st off 0
    s.dismiss r = if (s.ring r).state = .unformed then finish St.wrongState noField
      else if Cmd.opcode c.word ∈ opcodes then s else finish St.badOpcode 0 := by
  intro finish
  have hcurrent : s.current r = some c := by
    unfold State.current
    rw [htaken, List.find?_cons_of_pos (by rw [hc]; rfl)]
  have hmay : s.mayStart r c.word = true := by
    unfold State.mayStart
    rw [htaken, hready, List.any_cons, hc]
    simp
  unfold State.dismiss
  rw [htaken, List.foldl_cons, List.foldl_nil]
  unfold State.dismissOne
  rw [hcurrent]
  dsimp only
  rw [hmay, if_neg (by decide)]
  simp only [beq_iff_eq, Bool.not_eq_true', ← Bool.not_eq_true (List.contains _ _), List.contains_iff_mem, ite_not]
  rfl

/-! ### The two commands -/

/-- R325: a ring with a slot to take and room for its completion takes it. -/
theorem commandTake_takes {s : State} {r : Nat} (hready : s.ready = true) (hr : r ≤ 32) (hstate : (s.ring r).state ≠ .indexError)
    (hhead : (s.ring r).cmdHead ≠ (s.ring r).cmdTail) (htaken : (s.ring r).taken.length < 64)
    (hroom : (s.ring r).unread + (s.ring r).taken.length < 256) (hlost : (s.ring r).lostSince = 0) :
    execCommandTake r s = .next (s.managerWorks (fun t =>
      let b := t.bytes .foyer (commandSlot r (s.ring r).cmdHead.toNat) 128
      (t.updRing r (fun k => { k with cmdHead := k.cmdHead + 1, taken := k.taken ++ [{ bytes := b }] })).dismiss r)) := by
  unfold execCommandTake
  dsimp only
  rw [if_neg (by
    simp only [hready, hstate, hhead, hlost, Bool.or_eq_true, Bool.not_true, Bool.false_eq_true, decide_eq_true_eq, beq_iff_eq, bne_self_eq_false,
      or_false, false_or]
    omega)]

theorem recordPost_queued {s : State} {r : Nat} {x : List Byte} {t : List (List Byte)} (hready : s.ready = true) (hr : r ≤ 32)
    (hfree : (s.ring r).slotFree = true) (hlost : (s.ring r).lostSince = 0) (hq : (s.ring r).queue = x :: t) :
    execRecordPost r s = .next ((s.setRing r { s.ring r with queue := t }).writeRecord r (stampRecord s.now x)) := by
  unfold execRecordPost
  dsimp only
  rw [if_neg (by simp [hready, hfree]; exact hr), hlost, if_neg (by decide), hq]

theorem recordPost_lost {s : State} {r : Nat} (hready : s.ready = true) (hr : r ≤ 32) (hfree : (s.ring r).slotFree = true)
    (hlost : (s.ring r).lostSince ≠ 0) :
    let h := if r = 0 then s.deviceHeader 0x21 else s.recordHeader 0 0x21 2 (some (r - 1)) 0 0xFFFFFFFF
    execRecordPost r s =
      .next ((s.setRing r { s.ring r with lostSince := 0 }).writeRecord r (h ++ toBytes 64 ((s.ring r).lostSince % 2 ^ 32))) := by
  unfold execRecordPost
  dsimp only
  rw [if_neg (by simp [hready, hfree]; exact hr), if_pos (bne_iff_ne.mpr hlost)]
  simp only [beq_iff_eq]
  rfl

/-- Settles O52: the slot taken by its ring's state and opcode, and the records posted. -/
theorem slotsAreTakenAndRecordsPosted : Obligations.SlotsAreTakenAndRecordsPosted := by
  intro s r hready hr k slot w taken company
  refine ⟨fun hstate hhead hcount hroom hlost => ?_, fun x t hfree hlost hq => recordPost_queued hready hr hfree hlost hq,
    fun hfree hlost => recordPost_lost hready hr hfree hlost⟩
  have htake := commandTake_takes hready hr hstate hhead hcount hroom hlost
  have hring : taken.ring r = { k with cmdHead := k.cmdHead + 1, taken := k.taken ++ [{ bytes := slot }] } := State.ring_setRing_same _ _ _
  refine ⟨fun hfatal => htake.trans (congrArg _ (managerWorks_fatal hfatal _)), fun hquiet => ?_⟩
  have hdismiss : exec (.commandTake r) s = .next (taken.dismiss r) := htake.trans (congrArg _ (managerWorks_quiet hquiet _))
  have honly : k.taken = [] → (taken.ring r).taken = [{ bytes := slot }] := fun he => by rw [hring, he]; rfl
  refine ⟨fun ho hcurrent => ?_, fun ho he hop => ?_, fun hu he => ?_⟩
  · have hstays : taken.dismissOne r = taken := dismissOne_stays (by rw [hring]; exact ho) hcurrent
    rw [hdismiss, State.dismiss, foldl_stays fun _ _ => hstays]
  · have hopen : (taken.ring r).state ≠ .unformed := by rw [hring]; exact fun e => absurd (ho.symm.trans e) (by decide)
    rw [hdismiss, dismiss_only (s := taken) (c := { bytes := slot }) hready (honly he) rfl, if_neg hopen]
    exact congrArg Host.Outcome.next (if_neg hop)
  · rw [hdismiss, dismiss_only (s := taken) (c := { bytes := slot }) hready (honly he) rfl, if_pos (by rw [hring]; exact hu)]
    rfl

end Sys2Proof.Machine
end

section
/-! O53: carriages move their units, and the packets of a remote carriage land (R107, R167, R230, R232, R345, R346). -/
namespace Sys2Proof.Machine

/-- R346: a carriage after `n` more units of which the source units `f` failed. -/
def Carriage.noted (c : Carriage) (f : List Nat) (n : Nat) : Carriage := { c with
  moved := c.moved + n, fails := c.fails + f.length
  firstFail := match c.firstFail, f with | none, x :: _ => some (c.from_.2 + x) | o, _ => o }

/-- R345, R346: a carriage put back and, with its last unit moved, finished. -/
def State.settle (t : State) (k : Carriage) : State :=
  if k.moved < k.units then t.putCarriage k
  else if k.destChip = 0xFFFF then (t.putCarriage k).endCarriage k (if k.fails = 0 then St.ok else St.uncorrectable)
  else (t.putCarriage k).putCarriage { k with remote := true }

theorem finishCarriage_putCarriage (t : State) (k : Carriage) : (t.putCarriage k).finishCarriage k = t.settle k :=
  finishCarriage_eq _ _

section
variable {s : State} {id : Nat} {c : Carriage} (hc : s.carriages.find? (fun d => d.id == id) = some c)
include hc

theorem carriageUnitLanding_empty (hn : c.notBefore ≤ s.now) (hr : c.remote = false) (hu : c.units = 0) (hf : s.emptyFree c = true) :
    exec (.carriageUnitLanding id) s = .next (s.endCarriage c St.ok) := by
  show execCarriageUnitLanding id s = _
  unfold execCarriageUnitLanding
  rw [hc]
  simp [hr, hu, hf, Nat.not_lt.mpr hn]

theorem carriageUnitLanding_moves (hn : c.notBefore ≤ s.now) (hr : c.remote = false) (hu : c.moved < c.units) (hf : s.carriageFree c = true) :
    exec (.carriageUnitLanding id) s = .next (s.moveCarriage id) := by
  show execCarriageUnitLanding id s = _
  unfold execCarriageUnitLanding
  rw [hc]
  simp [hr, hf, Nat.not_lt.mpr hn, Nat.ne_of_gt (Nat.zero_lt_of_lt hu)]

theorem moveCarriage_here (hu : c.moved < c.units) (hd : c.destChip = 0xFFFF) {u d f} (he : s.convertUnit c c.moved = (u, d, f)) :
    s.moveCarriage id = State.settle (match d with | some b => u.landUnit c c.moved b | none => u) (c.noted f 1) := by
  unfold State.moveCarriage
  simp only [hc]
  rw [if_neg (Nat.not_le.mpr hu), if_pos (by rw [hd]; decide)]
  simp only [he]
  cases d with
  | none => exact finishCarriage_putCarriage u (c.noted f 1)
  | some b => exact finishCarriage_putCarriage (u.landUnit c c.moved b) (c.noted f 1)

theorem moveCarriage_away (hu : c.moved < c.units) (hd : c.destChip ≠ 0xFFFF) {u d f} (he : s.convertUnit c c.moved = (u, d, f)) :
    s.moveCarriage id = let k : Carriage := { c.noted f 1 with flit := c.flit ++ [d] }
      if k.flit.length = 4 ∨ k.moved = c.units then (u.sendFlit k).settle { k with flit := [] } else u.putCarriage k := by
  unfold State.moveCarriage
  simp only [hc]
  rw [if_neg (Nat.not_le.mpr hu), if_neg (by simpa using hd)]
  simp only [he, Bool.or_eq_true, beq_iff_eq, finishCarriage_putCarriage]
  rfl

theorem carriageAcknowledgement_remote (hr : c.remote = true) : exec (.carriageAcknowledgement id) s =
    .next (s.endCarriage c (if c.fails = 0 then St.ok else St.uncorrectable)) := by
  show execCarriageAcknowledgement id s = _
  unfold execCarriageAcknowledgement
  rw [hc]
  simp [hr]

end

/-- R345, R346: the flit of a carriage to another chip, if any of its units is written there. -/
theorem sendFlit_eq (u : State) (k : Carriage) : u.sendFlit k = if (padTo 4 none k.flit).all Option.isNone = true then u else
    u.emit { type := 4, company := k.company.getD 0, dest := k.destChip, context := k.id % 4096, seq := (k.moved - 1) / 4
             step := match k.company with | some o => (u.company o).step.toNat | none => 0
             payload := padTo 256 0 ((padTo 4 none k.flit).flatMap (fun x => padTo 64 0 (x.getD []))) ++
               if (padTo 4 none k.flit).all Option.isSome then [] else padTo 256 0 ((padTo 4 none k.flit).map (fun x => if x.isSome then 0 else 1)) } :=
  rfl

/-- R167: a foyer unit reads as written, and no other byte changes. -/
theorem landUnit_foyer_bytes (u : State) (c : Carriage) (j : Nat) (b : List Byte) (h : c.out = true) :
    (u.landUnit c j b).bytes .foyer (c.dest + 64 * j) (padTo 64 0 b).length = padTo 64 0 b ∧
    ∀ a, (a < c.dest + 64 * j ∨ c.dest + 64 * j + (padTo 64 0 b).length ≤ a) → Memory.read (u.landUnit c j b).mem a = Memory.read u.mem a := by
  have hm : (u.landUnit c j b).mem = Memory.writeBytes u.mem (c.dest + 64 * j) (padTo 64 0 b) := by
    rw [landUnit_foyer u c j b h]
    show Memory.writeBytes u.mem (0 + (c.dest + 64 * j)) (padTo 64 0 b) = _
    rw [Nat.zero_add]
  refine ⟨?_, fun a ha => by rw [hm]; exact Memory.read_writeBytes_outside _ _ _ _ ha⟩
  show Memory.readBytes (u.landUnit c j b).mem (0 + (c.dest + 64 * j)) _ = _
  rw [hm, Nat.zero_add]
  exact Memory.readBytes_writeBytes_same _ _ _

/-- R346: an outbound carriage leaves the list and its command completes. -/
theorem endCarriage_out (s : State) (c : Carriage) (st : Nat) (h : c.out = true) : s.endCarriage c st =
    State.complete { s with carriages := s.carriages.filter (fun d => d.id != c.id) } c.ring true c.opcode c.company c.tag.toNat st noField
      (if st = St.uncorrectable then c.firstFail.getD 0 + 2 ^ 32 * c.fails else 0) := by
  unfold State.endCarriage
  cases hk : c.company <;> simp [h]

section
variable {s : State} {l : LinkId} {i place : Nat} {p : Packet} (hp : s.arrived l (fun q => Hdr.type q.header.toNat == 4) = some (i, p))
include hp

theorem carriage_repeated (hs : carriageKey p.header.toNat ∈ s.seen) :
    exec (.carriage l place) s = .next ((s.takeArrived l i).countChip 0x46 none 1) := by
  show execCarriage l place s = _
  unfold execCarriage
  rw [hp]
  exact congrArg Host.Outcome.next (if_pos (List.contains_iff_mem.mpr hs))

theorem carriage_new (hs : carriageKey p.header.toNat ∉ s.seen) (h64 : place % 64 = 0)
    (hin : ∀ u ∈ carriageUnits p.header.toNat p.payload, place + 64 * u.1 + 64 ≤ 2 ^ 26) :
    exec (.carriage l place) s = .next ((((s.takeArrived l i).knowCarriage p.header.toNat).landCarriage place
      (carriageUnits p.header.toNat p.payload)).message (Hdr.company p.header.toNat) (Hdr.src p.header.toNat)
        [7, Hdr.context p.header.toNat, Hdr.seq p.header.toNat]) := by
  show execCarriage l place s = _
  unfold execCarriage
  rw [hp]
  refine congrArg Host.Outcome.next ((if_neg ?_).trans (if_neg ?_))
  · rwa [List.contains_iff_mem]
  · simp only [h64, Bool.or_eq_true, List.any_eq_true, decide_eq_true_eq, not_or, not_exists, not_and, Nat.not_lt]
    exact ⟨by decide, hin⟩

end

/-- R230, R345: a packet's units read at their places, and no other byte changes. -/
theorem landCarriage_bytes {s t : State} {place h : Nat} {d : List Byte} (ht : ∃ ups, t = { s with
      mem := (carriageUnits h d).foldl (fun m u => Memory.writeBytes m (Space.base .foyer + (place + 64 * u.1)) u.2) s.mem, upsets := ups })
    (hd : 256 ≤ d.length) : (∀ u ∈ carriageUnits h d, t.bytes .foyer (place + 64 * u.1) 64 = u.2) ∧
    ∀ a, (∀ u ∈ carriageUnits h d, a < place + 64 * u.1 ∨ place + 64 * u.1 + 64 ≤ a) → Memory.read t.mem a = Memory.read s.mem a := by
  obtain ⟨ups, rfl⟩ := ht
  obtain ⟨hn, hl⟩ := carriageUnits_spec h d hd
  have hb : Space.base .foyer = 0 := rfl
  simp only [hb, Nat.zero_add]
  refine ⟨fun u hu => ?_, fun a ha => writeUnits_outside place _ _ a fun u hu => by rw [hl u hu]; exact ha u hu⟩
  show Memory.readBytes _ (0 + (place + 64 * u.1)) 64 = u.2
  rw [Nat.zero_add]
  exact writeUnits_at place _ s.mem hn hl u hu

/-- Settles O53: a carriage's unit by its source and its destination, and a packet by its key and the places of its units. -/
theorem carriagesMove : Obligations.CarriagesMove := by
  unfold Obligations.CarriagesMove
  refine ⟨fun s id c hc => ?_, fun s l i place p hp => ?_⟩
  · intro status noted settled
    refine ⟨carriageUnitLanding_empty hc, fun u d f hn hr hu hf hd he => ?_, fun u d f hn hr hu hf hd he => ?_,
      carriageAcknowledgement_remote hc, endCarriage_out s c⟩
    · have hm := (carriageUnitLanding_moves hc hn hr hu hf).trans (congrArg _ (moveCarriage_here hc hu hd he))
      refine ⟨fun e => by subst e; exact hm, fun b e => ⟨_, by subst e; exact hm, rfl, landUnit_foyer_bytes u c _ b⟩⟩
    · have hm := (carriageUnitLanding_moves hc hn hr hu hf).trans (congrArg _ (moveCarriage_away hc hu hd he))
      intro k us whole
      refine ⟨fun hw => hm.trans (congrArg _ (if_neg hw)), fun hw ha => hm.trans (congrArg _ ?_), fun hw ha => hm.trans (congrArg _ ?_)⟩
      · refine (if_pos hw).trans ?_
        rw [sendFlit_eq, if_pos ha]
        rfl
      · refine (if_pos hw).trans ?_
        rw [sendFlit_eq, if_neg (by rw [show (padTo 4 none _).all Option.isNone = false from ha]; decide)]
        rfl
  · intro h us
    refine ⟨carriage_repeated hp, fun hs h64 hin => ?_⟩
    obtain ⟨ups, hl⟩ := landCarriage_mem place us ((s.takeArrived l i).knowCarriage h)
    have hmem : ((s.takeArrived l i).knowCarriage h).mem = s.mem := (takeArrived_mem s l i).1
    refine ⟨_, carriage_new hp hs h64 hin, by rw [hl], ?_, fun hd => ?_⟩
    · rw [hl]
      exact List.mem_append_right _ (List.mem_singleton_self _)
    · have hb := landCarriage_bytes (place := place) (h := h) ⟨ups, hl⟩ hd
      rw [hmem] at hb
      exact hb

end Sys2Proof.Machine
end

section
/-! O58: the aborts of a job (R244, R273). -/
namespace Sys2Proof.Machine

section
variable {s : State} {j : Nat} (hj : s.jobRuns j = true)
include hj

theorem jobAbort_present : exec (.jobAbort j (s.job j).step) s = .next (s.abortJob j (s.job j).step 2) := by
  show execJobAbort j _ s = _
  unfold execJobAbort
  simp [hj]

theorem jobAbort_later {step : Nat} (h : (s.job j).step < step) :
    exec (.jobAbort j step) s = .next (s.updJob j (fun k => { k with abortAt := some step })) := by
  show execJobAbort j step s = _
  unfold execJobAbort
  simp [hj, Nat.not_lt.mpr (Nat.le_of_lt h), Nat.ne_of_lt h]

theorem contextTimeout_expires {x t : Nat} (hx : s.contextJob x = j) (hb : (s.context x).busySince = some t) (hl : s.contextLive x = true)
    (h0 : JobRec.timeout (s.job j).record.toNat ≠ 0) (ht : JobRec.timeout (s.job j).record.toNat * 65536 < s.now - t) :
    exec (.contextTimeout x) s = .next (s.abortJob j (s.context x).step 3) := by
  show execContextTimeout x s = _
  unfold execContextTimeout
  dsimp only
  rw [hb, hx]
  refine congrArg Host.Outcome.next (if_neg ?_)
  simp [hl, hj, h0, Nat.not_le.mpr ht]

theorem abortJob_eq {a b c : State} (step cause : Nat) (except : Option Nat) (ha : s.setJob j { s.job j with aborted := some cause } = a)
    (hb : (a.jobContexts j).foldl State.cancelContext a = b) (hc : (b.dropJobPackets j).spreadAbort j step except = c)
    (hk : (c.job j).record = (s.job j).record) (hn : c.now = s.now) :
    s.abortJob j step cause except = c.postDeviceFor (s.jobCompany j) 7 (s.abortBody j step cause) := by
  subst ha hb
  simp only [State.abortJob, hj, Bool.not_true, Bool.false_eq_true, if_false, State.updJob]
  rw [hc]
  unfold State.jobCompany State.abortBody
  rw [hk, hn]

/-- R273: what an abort does before its record is posted: the job is marked, its contexts are cancelled, its packets go and its neighbours are
told. -/
theorem abortJob_spec (step cause : Nat) (except : Option Nat) :
    let told := match (s.job j).scene with
      | none => []
      | some t => ((if t.root = s.chipId then [] else [t.parent]) ++ t.children).filter (fun c => except != some c)
    ∃ cs ls ps, s.abortJob j step cause except = State.postDeviceFor { s.setJob j { s.job j with aborted := some cause } with
        contexts := cs, links := ls, messages := s.messages ++ told.map (fun c => (c, [3, j, step]))
        outbox := s.outbox.filter (fun p => !State.isJobPacket j p) ++ ps } (s.jobCompany j) 7 (s.abortBody j step cause) ∧
      (∀ x ∈ s.jobContexts j, (SMap.get {} cs x).state = .cancelled ∧ (SMap.get {} cs x).window = [] ∧ (SMap.get {} cs x).own = []) ∧
      (∀ x, x ∉ s.jobContexts j → SMap.get {} cs x = s.context x) ∧ ps.length = told.length ∧
      ∀ l, l < 17 → (SMap.get {} ls l).input = (s.link l).input.filter (fun p => !State.isJobPacket j p) := by
  intro told
  let a := s.setJob j { s.job j with aborted := some cause }
  have ha : a.job j = { s.job j with aborted := some cause } := State.job_setJob_same _ _ _
  obtain ⟨cs, hcs, hin, hout⟩ := cancelContexts_spec (s.jobContexts j) a
  obtain ⟨ls, hls, hlinks⟩ := dropJobPackets_spec { a with contexts := cs } j
  have hz : ({ a with contexts := cs, links := ls, outbox := s.outbox.filter (fun p => !State.isJobPacket j p) } : State).job j =
      { s.job j with aborted := some cause } := ha
  obtain ⟨ps, hps, hlen⟩ := spreadAbort_spec
    { a with contexts := cs, links := ls, outbox := s.outbox.filter (fun p => !State.isJobPacket j p) } j step except
  rw [hz] at hps hlen
  have hd : State.dropJobPackets { a with contexts := cs } j =
      { a with contexts := cs, links := ls, outbox := s.outbox.filter (fun p => !State.isJobPacket j p) } := hls
  have hr : (a.job j).record = (s.job j).record := by rw [ha]
  exact ⟨cs, ls, ps, abortJob_eq hj step cause except rfl hcs ((congrArg (fun z => z.spreadAbort j step except) hd).trans hps) hr rfl,
    hin, hout, hlen, hlinks⟩

end

/-- Settles O58: the three causes by the guards of their commands, and the abort by the steps of R273. -/
theorem jobsAbort : Obligations.JobsAbort := by
  unfold Obligations.JobsAbort
  intro s j hj
  refine ⟨jobAbort_present hj, fun step => jobAbort_later hj, fun x t hx hb hl h0 ht => contextTimeout_expires hj hx hb hl h0 ht,
    fun step cause except => ?_⟩
  obtain ⟨cs, ls, ps, h, hin, hout, hlen, hlinks⟩ := abortJob_spec hj step cause except
  have hjob := State.job_setJob_same s j { s.job j with aborted := some cause }
  refine ⟨_, h, hjob, ?_, hin, hout, ⟨rfl, ps, rfl, hlen⟩, hlinks⟩
  show (JobRec.valid ((s.setJob j _).job j).record.toNat && ((s.setJob j _).job j).aborted.isNone && !_) = false
  rw [hjob]
  simp

end Sys2Proof.Machine
end

section
/-! O55: the sums of a hop (R260 to R262, R264, R265, R267, R268, R274, R394). -/
namespace Sys2Proof.Machine

section
variable {s : State} {x : Nat} {ins : List (List Exact)} (hdue : s.hopDue x = true) (hins : s.hopInputs x = some ins)
include hdue hins

theorem hop_through : exec (.hop x) s = .next (s.throughExchange (fun s =>
    if PlanRec.role (s.planRec x) == 2 then s.hopUp x (State.hopSums ins) else s.hopOwner x (State.hopSums ins))) := by
  show execHop x s = _
  unfold execHop
  rw [hdue, hins]
  exact congrArg Host.Outcome.next (if_neg (by decide))

theorem hop_adder (hq : ∀ e ∈ s.sram, State.exchangeWord e.1 = false) (h : PlanRec.role (s.planRec x) = 2) :
    exec (.hop x) s = .next (s.hopUp x (State.hopSums ins)) := by
  rw [hop_through hdue hins, throughExchange_quiet hq]
  exact congrArg Host.Outcome.next (if_pos (beq_iff_eq.mpr h))

theorem hop_owner (hq : ∀ e ∈ s.sram, State.exchangeWord e.1 = false) (h : PlanRec.role (s.planRec x) ≠ 2) :
    exec (.hop x) s = .next (s.hopOwner x (State.hopSums ins)) := by
  rw [hop_through hdue hins, throughExchange_quiet hq]
  exact congrArg Host.Outcome.next (if_neg (mt beq_iff_eq.mp h))

end

/-- R264, R265: the samples of an adder with its flit summed. -/
def State.hopSamples (s : State) (x : Nat) (qs : List Exact) : List Sample :=
  let k := s.context x
  let e := s.sampleAt x (k.f0 / 32)
  if e / 128 == k.f0 then k.samples ++ [{ element := e, hop := true, rank := PlanRec.rank (s.planRec x)
                                          value := BitVec.ofNat 16 ((qs.map (roundPosit 16 .odd)).getD (e % 128) 0) }] else k.samples

/-- R261: an adder with its flit summed, keeping the samples `ms`. -/
def State.hopRounded (s : State) (x : Nat) (qs : List Exact) (ms : List Sample) : State :=
  let k := s.context x
  (s.countChip 0x48 none (qs.map (fun q => (positCount 16 false q).clipped)).sum).setContext x { k with
    own := k.own.filter (fun o => o.1 != k.f0), window := k.window.filter (fun w => w.2.1 != k.f0), f0 := k.f0 + 1
    samples := ms, sending := k.sending ++ [(qs.map (roundPosit 16 .odd)).flatMap (toBytes 2)] }

section
variable (s : State) (x : Nat) (qs : List Exact)

theorem hopUp_bucketEntry (n : Nat) : (s.countChip 0x48 none n).bucketEntry x = s.bucketEntry x := by
  rw [(State.countChip_counts s 0x48 none n).state]
  rfl

/-- R261, R265: samples that are not full stay. -/
theorem hopUp_keeps (h : ¬(32 ≤ (s.hopSamples x qs).length ∨ (s.context x).f0 + 1 = DirEntry.flits (s.bucketEntry x))) :
    s.hopUp x qs = (s.hopRounded x qs (s.hopSamples x qs)).sendUp x := by
  have hf : (decide ((s.hopSamples x qs).length ≥ 32) || (s.context x).f0 + 1 == DirEntry.flits (s.bucketEntry x)) = false := by
    simpa [not_or] using h
  unfold State.hopUp
  simp only [hopUp_bucketEntry]
  unfold State.hopSamples at hf
  simp only at hf
  simp only [hf, Bool.false_eq_true, if_false]
  rfl

/-- R265: full samples are sent. -/
theorem hopUp_sends (h : 32 ≤ (s.hopSamples x qs).length ∨ (s.context x).f0 + 1 = DirEntry.flits (s.bucketEntry x)) :
    s.hopUp x qs = ((s.hopRounded x qs []).sendSamples x
      ((if PlanRec.contributes (s.planRec x) then ceilDiv (DirEntry.elements (s.bucketEntry x)) 131072 else 0) + (s.context x).f0 / 32 / 32)
      (s.hopSamples x qs)).sendUp x := by
  have hf : (decide ((s.hopSamples x qs).length ≥ 32) || (s.context x).f0 + 1 == DirEntry.flits (s.bucketEntry x)) = true := by
    simpa using h
  unfold State.hopUp
  simp only [hopUp_bucketEntry]
  unfold State.hopSamples at hf
  simp only at hf
  simp only [hf, if_true]
  rfl

theorem noteSample_contexts (e : Nat) : (s.noteSample x e).contexts = s.contexts := by
  obtain ⟨m, v, n, h⟩ := noteSample_mem s x e
  rw [h]

theorem putBank_mem (unit : Nat) (d : List Byte) : MemOnly s (s.putBank unit d) := foldl_mem _ _ _ fun s _ => writeUnit_mem s _ _ _

theorem putBank_contexts (unit : Nat) (d : List Byte) : (s.putBank unit d).contexts = s.contexts := by
  have h := putBank_mem s unit d
  unfold MemOnly at h
  rw [h]

theorem noteSample_if_contexts (b : Bool) (e : Nat) : (if b then s.noteSample x e else s).contexts = s.contexts := by
  cases b
  · rfl
  · exact noteSample_contexts s x e

theorem ownerBank_eq {k : Context} {f e : Nat} (hk : s.context x = k) (hf : k.f0 = f) (he : s.sampleAt x (f / 32) = e) :
    s.ownerBank x qs = let bank := s.putBank (CtxRec.work k.record.toNat + 8 * f) ((qs.map (roundPosit 32 .rne)).flatMap (toBytes 4))
      if e / 128 == f then bank.noteSample x e else bank := by
  subst hk hf he
  rfl

/-- R261, R264, R266 to R268, R274: an owner with a flit summed. -/
theorem hopOwner_stages {k : Context} {f e : Nat} (hk : s.context x = k) (hf : k.f0 = f) (he : s.sampleAt x (f / 32) = e) :
    let last : Bool := f + 1 == DirEntry.flits (s.bucketEntry x)
    let nars := (List.range 128).filter (fun i => (qs.getD i Exact.zero).isNar)
    let bank := s.putBank (CtxRec.work k.record.toNat + 8 * f) ((qs.map (roundPosit 32 .rne)).flatMap (toBytes 4))
    let hit : Bool := e / 128 == f
    ∃ t, s.hopOwner x qs = t ∧
      t = { (if hit then bank.noteSample x e else bank) with contexts := t.contexts, fresh := t.fresh } ∧
      (∀ d, d ≠ x → t.context d = s.context d) ∧
      ∃ ticks, t.context x = { k with
        own := k.own.filter (fun o => o.1 != f), window := k.window.filter (fun w => w.2.1 != f), f0 := f + 1
        sums := if hit then k.sums ++ [(e, qs.getD (e % 128) Exact.zero)] else k.sums
        samples := (t.context x).samples
        firstNar := k.firstNar.or (nars.head?.map (128 * f + ·))
        narCount := k.narCount + nars.length
        state := if last then .updating else k.state
        reduceTicks := ticks } ∧
      (last = false → ticks = k.reduceTicks) ∧ (∀ a, last = true → k.trigger = some a → ticks = s.now - a) := by
  intro last nars bank hit
  obtain ⟨fr, sm, fn, rt, h, hfn, hrt, htick⟩ := State.hopOwner_spec s x qs k f e hk hf he
  rw [ownerBank_eq s x qs hk hf he] at h
  have hc : (if hit then bank.noteSample x e else bank).contexts = s.contexts :=
    (noteSample_if_contexts _ x hit e).trans (putBank_contexts s _ _)
  refine ⟨_, h, rfl, fun d hd => ?_, rt, ?_, hrt, htick⟩
  · rw [State.context_setContext_other _ _ (Ne.symm hd)]
    exact congrArg (fun cs => SMap.get {} cs d) hc
  · rw [State.context_setContext_same, hfn]

end

/-- Settles O55: a hop by its role; an adder by whether its samples are full, an owner by `hopOwner_stages`. -/
theorem flitsAreSummed : Obligations.FlitsAreSummed := by
  unfold Obligations.FlitsAreSummed
  intro s x ins hdue hins k p f qs e hit quiet rest
  refine ⟨fun o n he => ?_, fun hq hr => ?_, fun hq hr => ?_⟩
  · rw [hop_through hdue hins, throughExchange_error he]
  · intro outs u ms base v full
    exact ⟨fun h => (hop_adder hdue hins hq hr).trans (congrArg _ (hopUp_keeps s x qs h)),
      fun h => (hop_adder hdue hins hq hr).trans (congrArg _ (hopUp_sends s x qs h))⟩
  · obtain ⟨t, ht, h⟩ := hopOwner_stages s x qs (k := k) (f := f) (e := e) rfl rfl rfl
    exact ⟨t, (hop_owner hdue hins hq hr).trans (congrArg _ ht), h⟩

end Sys2Proof.Machine
end

section
/-! O54: the triggers of buckets and the reads of their buffers (R251, R253, R260, R264, R265, R296, R402). -/
namespace Sys2Proof.Machine

/-- R253, R265: a context triggered. -/
def State.triggered (s : State) (x : Nat) : State := { s.setContext x { s.context x with
  fill := 0, trigger := some s.now, busySince := some ((s.context x).busySince.getD s.now), readOrder := s.nextCarriage
  state := if (s.context x).state == .opened then .reducing else (s.context x).state } with nextCarriage := s.nextCarriage + 1 }

section
variable (s : State) (x : Nat)

theorem triggered_planRec : (s.triggered x).planRec x = s.planRec x := by
  have h : (s.triggered x).context x = { s.context x with
      fill := 0, trigger := some s.now, busySince := some ((s.context x).busySince.getD s.now), readOrder := s.nextCarriage
      state := if (s.context x).state == .opened then .reducing else (s.context x).state } := State.context_setContext_same _ _ _
  unfold State.planRec State.bucketEntry
  rw [h]
  rfl

theorem trigger_otherStep (h : (s.company (s.jobCompany (s.contextJob x))).step.toNat ≠ (s.context x).step) :
    s.trigger x = s.abortJob (s.contextJob x) (s.context x).step 6 := if_pos (by simpa using h)

theorem trigger_bare (h : (s.company (s.jobCompany (s.contextJob x))).step.toNat = (s.context x).step)
    (hp : PlanRec.contributes (s.planRec x) = false ∨ PlanRec.isRoot (s.planRec x) = true) : s.trigger x = s.triggered x := by
  rw [← triggered_planRec s x] at hp
  have hp' : (!PlanRec.contributes ((s.triggered x).planRec x) || PlanRec.isRoot ((s.triggered x).planRec x)) = true := by
    rw [Bool.or_eq_true, Bool.not_eq_true']
    exact hp
  exact (if_neg (by simpa using h)).trans (if_pos hp')

theorem trigger_contributor (h : (s.company (s.jobCompany (s.contextJob x))).step.toNat = (s.context x).step)
    (hc : PlanRec.contributes (s.planRec x) = true) (hr : PlanRec.isRoot (s.planRec x) = false) :
    s.trigger x = match (s.triggered x).rawSamples x with
      | (u, none) => u.abortJob (s.contextJob x) (s.context x).step 5
      | (u, some ms) => u.sendSamples x 0 ms := by
  rw [← triggered_planRec s x] at hc hr
  have hp : ¬(!PlanRec.contributes ((s.triggered x).planRec x) || PlanRec.isRoot ((s.triggered x).planRec x)) = true := by
    rw [hc, hr]
    decide
  exact (if_neg (by simpa using h)).trans (if_neg hp)

/-- R253, R260, R402: the next unit of a bucket buffer. -/
def State.bufferUnit : State × Option (List Byte) :=
  let core := CtxRec.core (s.context x).record.toNat
  s.readUnit (.slice core) (64 * (CtxRec.bufferBase (s.context x).record.toNat + (s.context x).read)) (fun s => s.countCore core 0x13 1)

theorem Reads.of_readUnit {s u : State} {sp : Space} {off : Nat} {count : State → State} {d : Option (List Byte)}
    (hc : ∀ s, Counts s (count s)) (h : s.readUnit sp off count = (u, d)) : Reads s u := by
  have hr := readUnit_reads s sp off count hc
  rwa [h] at hr

theorem bufferUnit_reads {u : State} {d : Option (List Byte)} (h : s.bufferUnit x = (u, d)) : Reads s u :=
  Reads.of_readUnit (fun s => s.countCore_counts _ _ _) h

theorem Reads.contextJob {s u : State} (h : Reads s u) : u.contextJob x = s.contextJob x := by rw [h]; rfl

theorem Reads.planRec {s u : State} (h : Reads s u) : u.planRec x = s.planRec x := by rw [h]; rfl

theorem readBucket_fails {u : State} (h : s.bufferUnit x = (u, none)) :
    s.readBucket x = u.abortJob (s.contextJob x) (s.context x).step 5 := by
  rw [← (bufferUnit_reads s x h).contextJob]
  unfold State.readBucket
  simp only [State.bufferUnit] at h
  simp only [h]

theorem readBucket_eq {u : State} {b : List Byte} (h : s.bufferUnit x = (u, some b)) :
    let k := s.context x
    let f := k.read / 4
    let d := ((k.own.find? (fun o => o.1 == f)).map (·.2)).getD [] ++ b
    let rest := k.own.filter (fun o => o.1 != f)
    s.readBucket x = if PlanRec.role (s.planRec x) = 1 ∧ d.length = 256
      then (u.setContext x { k with read := k.read + 1, own := rest, sending := k.sending ++ [d], f0 := f + 1 }).sendUp x
      else u.setContext x { k with read := k.read + 1, own := rest ++ [(f, d)] } := by
  intro k f d rest
  have hp := (bufferUnit_reads s x h).planRec
  unfold State.readBucket
  simp only [State.bufferUnit] at h
  simp only [h]
  cases hf : (s.context x).own.find? (fun o => o.1 == (s.context x).read / 4) <;>
    simp [k, f, d, rest, hf, hp x, List.filter_append]

end

theorem sendSamples_sends (s : State) (x flit : Nat) (ms : List Sample) (hm : ms ≠ []) (h : s.isSecondary (s.contextJob x) = false) :
    s.sendSamples x flit ms = s.emit { type := 2, routeSet := 1, company := s.jobCompany (s.contextJob x), dest := DirEntry.owner (s.bucketEntry x)
                                       job := s.contextJob x, context := x, seq := 0x800000 + flit, plan := (s.context x).plan
                                       step := (s.context x).step
                                       payload := padTo (256 * ceilDiv (ms.flatMap sampleBytes).length 256) 0 (ms.flatMap sampleBytes) } := by
  unfold State.sendSamples
  dsimp only
  rw [if_neg (by simpa using hm), if_neg (by rw [h]; decide)]

theorem bucketTrigger_through {s : State} {x : Nat} (h : s.triggerDue x = true) :
    exec (.bucketTrigger x) s = .next (s.throughExchange (fun s => s.trigger x)) := congrArg Host.Outcome.next (if_pos h)

theorem bucketBufferRead_through {s : State} {x : Nat} (h : s.canRead x = true) (hf : s.contextFree x (s.context x).readOrder = true) :
    exec (.bucketBufferRead x) s = .next (s.throughExchange (fun s => s.readBucket x)) :=
  congrArg Host.Outcome.next (if_pos (by rw [h, hf]; rfl))

/-- Settles O54: a trigger by its step and its plan, a read by its unit, both behind the Exchange's memories. -/
theorem bucketsTriggerAndAreRead : Obligations.BucketsTriggerAndAreRead := by
  unfold Obligations.BucketsTriggerAndAreRead
  intro s x k j p core triggered read f quiet
  have ht : s.triggered x = triggered := by
    simp only [State.triggered, beq_iff_eq]
    rfl
  refine ⟨fun hd hq => ?_, fun hr hf hq => ?_, fun o n he => ⟨fun hd => ?_, fun hr hf => ?_⟩, fun flit ms hm h => sendSamples_sends s x flit ms hm h⟩
  · have he := (bucketTrigger_through hd).trans (congrArg _ (throughExchange_quiet hq _))
    refine ⟨fun h => he.trans (congrArg _ (trigger_otherStep s x h)), fun h => ⟨fun hp => ?_, fun hc hr => ?_⟩⟩
    · rw [← ht]
      exact he.trans (congrArg _ (trigger_bare s x h hp))
    · rw [← ht]
      have hm := trigger_contributor s x h hc hr
      refine ⟨fun u hu => he.trans (congrArg _ ?_), fun u ms hu => he.trans (congrArg _ ?_)⟩ <;>
        rw [hm, hu]
  · have he := (bucketBufferRead_through hr hf).trans (congrArg _ (throughExchange_quiet hq _))
    refine ⟨fun u hu => he.trans (congrArg _ (readBucket_fails s x hu)), fun u b hu => ?_⟩
    have hb := he.trans (congrArg _ (readBucket_eq s x hu))
    exact ⟨fun h => hb.trans (congrArg _ (if_pos h)), fun h => hb.trans (congrArg _ (if_neg h))⟩
  · exact (bucketTrigger_through hd).trans (congrArg _ (throughExchange_error he _))
  · exact (bucketBufferRead_through hr hf).trans (congrArg _ (throughExchange_error he _))

end Sys2Proof.Machine
end

section
/-! O56: REDUCE_UP, SHADOW_SAMPLE and BROADCAST_DOWN packets (R228, R232, R248, R251, R259, R262, R265, R271, R273, R296, R382, R394). -/
namespace Sys2Proof.Machine

/-! ### The fate of a packet (R232, R248, R262, R273, R382) -/

section
variable {s : State} {p : Packet}

theorem fate_malformed (hd : s.power ≠ .dim) (hv : CtxRec.valid (s.context (Hdr.context p.header.toNat)).record.toNat = true)
    (hj : s.contextJob (Hdr.context p.header.toNat) ≠ Hdr.job p.header.toNat) : s.fate p = .malformed := by
  unfold State.fate
  simp [hd, hv, hj]

variable (hd : s.power ≠ .dim) (hv : CtxRec.valid (s.context (Hdr.context p.header.toNat)).record.toNat = true)
  (hj : s.contextJob (Hdr.context p.header.toNat) = Hdr.job p.header.toNat)
include hd hv hj

theorem fate_late (h : Hdr.step p.header.toNat < (s.context (Hdr.context p.header.toNat)).step) : s.fate p = .dropped 0x46 := by
  unfold State.fate
  simp [hd, hv, hj, h]

variable (hs : Hdr.step p.header.toNat = (s.context (Hdr.context p.header.toNat)).step)
include hs

theorem fate_aborted (h : (s.job (Hdr.job p.header.toNat)).aborted ≠ none) : s.fate p = .dropped 0x4A := by
  unfold State.fate
  simp [hd, hv, hj, hs, Option.isSome_iff_ne_none.mpr h]

variable (hr : s.jobRuns (Hdr.job p.header.toNat) = true) (hl : s.contextLive (Hdr.context p.header.toNat) = true)
include hr hl

theorem fate_present : s.fate p = if p.used == 0 && s.seen.contains (Hdr.key p.header.toNat) then .dropped 0x46 else .taken := by
  have ha : (s.job (Hdr.job p.header.toNat)).aborted.isSome = false := by
    unfold State.jobRuns at hr
    cases h : (s.job (Hdr.job p.header.toNat)).aborted with
    | none => rfl
    | some c => simp [h] at hr
  unfold State.fate
  simp [hd, hv, hj, hs, ha, hr, hl]

theorem fate_repeated (hu : p.used = 0) (hk : Hdr.key p.header.toNat ∈ s.seen) : s.fate p = .dropped 0x46 := by
  rw [fate_present hd hv hj hs hr hl, if_pos (by simp [hu, hk])]

theorem fate_taken (hk : p.used = 0 → Hdr.key p.header.toNat ∉ s.seen) : s.fate p = .taken := by
  rw [fate_present hd hv hj hs hr hl, if_neg (by simpa using hk)]

end

/-! ### The first packet that does not wait -/

theorem know_eq (s : State) (p : Packet) : s.know p = { s with seen := if p.used = 0 then s.seen ++ [Hdr.key p.header.toNat] else s.seen } := by
  unfold State.know
  by_cases h : p.used = 0 <;> simp [h]

section
variable {s : State} {l i : Nat} {p : Packet} {type : Nat} {able : Packet → Bool} (take : State → Nat → Packet → State)
  (h : s.arrived l (s.meets type able) = some (i, p))
include h

theorem handle_error {o n : Nat} (he : s.sramErrors State.exchangeWord = (some (.exchangeSram o), n)) :
    s.handle l type able take = s.fatalFault 1 o := by
  unfold State.handle
  rw [h, if_pos Option.isSome_some, throughExchange_error he]

section
variable (hq : ∀ e ∈ s.sram, State.exchangeWord e.1 = false)
include hq

theorem handle_quiet : s.handle l type able take = s.handleArrived l type able take := by
  unfold State.handle
  rw [h, if_pos Option.isSome_some, throughExchange_quiet hq]

theorem handle_malformed (hf : s.fate p = .malformed) : s.handle l type able take = (s.cutArrived l i).malformed l p := by
  rw [handle_quiet take h hq, handleArrived_eq h, hf]

theorem handle_dropped {c : Nat} (hf : s.fate p = .dropped c) : s.handle l type able take = (s.takeArrived l i).countChip c none 1 := by
  rw [handle_quiet take h hq, handleArrived_eq h, hf]

theorem handle_taken (hf : s.fate p = .taken) : s.handle l type able take =
    take { s with seen := if p.used = 0 then s.seen ++ [Hdr.key p.header.toNat] else s.seen } i p := by
  rw [handle_quiet take h hq, handleArrived_eq h, hf, ← know_eq]

end

end

/-! ### What a context takes (R251, R262, R265, R271, R272) -/

theorem takeReduce_eq (s : State) (l i : Nat) (p : Packet) (c : Nat)
    (hc : s.childOf (Hdr.context p.header.toNat) (Hdr.src p.header.toNat) = some c) :
    let h := p.header.toNat
    let x := Hdr.context h
    let k := s.context x
    let n := s.windowRoom p
    let t := State.updLink (State.owe (s.setContext x { k with
        window := k.window ++ ((List.range n).zip (State.flitsLeft p)).map (fun q => (c, Hdr.seq h + p.used + q.1, q.2))
        state := if n ≠ 0 ∧ k.state = .opened then .reducing else k.state
        busySince := if n = 0 then k.busySince else some (k.busySince.getD s.now) }) l (Hdr.vc h) (Hdr.cls h) (Hdr.company h) n) l
      (fun z => { z with input := z.input.modify i (fun q => { q with used := p.used + n }) })
    s.takeReduce l i p = if Hdr.flits h ≤ p.used + n then t.takeArrived l i else t := by
  intro h x k n t
  unfold State.takeReduce
  simp only [hc, Bool.and_eq_true, bne_iff_ne, beq_iff_eq, State.updContext, ge_iff_le]
  rfl

theorem takeBroadcast_eq (s : State) (l i j : Nat) (p : Packet) (hj : s.contextJob (Hdr.context p.header.toNat) = j) :
    let h := p.header.toNat
    let x := Hdr.context h
    let k := s.context x
    let start : Bool := !(State.flitsLeft p).isEmpty && (k.state == .opened || k.state == .reducing)
    let t := (s.takeArrived l i).setContext x { k with
      image := k.image ++ ((List.range (State.flitsLeft p).length).zip (State.flitsLeft p)).map (fun q => (Hdr.seq h - 0x400000 + q.1, q.2))
      nextPlan := Hdr.plan h, announced := some (Hdr.plan h)
      state := if start then .landing else k.state, landOrder := if start then s.nextCarriage else k.landOrder
      busySince := if start then some (k.busySince.getD s.now) else k.busySince }
    let u := if start then { t with nextCarriage := s.nextCarriage + 1 } else t
    s.takeBroadcast l i p = if u.isSecondary j then u
      else (u.forwardDown x (Hdr.seq h) (Hdr.plan h) p.payload).forwardPair x (Hdr.seq h) (Hdr.plan h) p.payload := by
  intro h x k start t u
  have ht : t.contextJob x = s.contextJob x := by
    unfold State.contextJob
    rw [State.context_setContext_same]
  have hu : u.contextJob x = s.contextJob x := by
    simp only [u]
    split
    · exact ht
    · exact ht
  rw [← hj, ← hu]
  rfl

/-- Settles O56: the packet's fate, and by its type what its context takes of it. -/
theorem reductionPacketsArrive : Obligations.ReductionPacketsArrive := by
  unfold Obligations.ReductionPacketsArrive
  intro s l i p h x k j first up shadow down all quiet mine known
  have hall : ∀ t : State, (∀ type able take, s.arrived l (s.meets type able) = some (i, p) → s.handle l type able take = t) →
      all (.next t) := fun t ht =>
    ⟨fun h1 => congrArg Host.Outcome.next (ht 1 up _ h1), fun h2 => congrArg Host.Outcome.next (ht 2 shadow _ h2),
      fun h3 => congrArg Host.Outcome.next (ht 3 down _ h3)⟩
  refine ⟨fun o n he => hall _ fun _ _ take ha => handle_error take ha he,
    fun hq hd hv hj => hall _ fun _ _ take ha => handle_malformed take ha hq (fate_malformed hd hv hj),
    fun ⟨hq, hd, hv, hj⟩ hs => hall _ fun _ _ take ha => handle_dropped take ha hq (fate_late hd hv hj hs),
    fun ⟨hq, hd, hv, hj⟩ hs hab => hall _ fun _ _ take ha => handle_dropped take ha hq (fate_aborted hd hv hj hs hab),
    fun ⟨hq, hd, hv, hj⟩ hs hr hl hu hk => hall _ fun _ _ take ha => handle_dropped take ha hq (fate_repeated hd hv hj hs hr hl hu hk),
    fun ⟨hq, hd, hv, hj⟩ hs hr hl hk => ?_⟩
  have hf := fate_taken hd hv hj hs hr hl hk
  refine ⟨fun c h1 hc => ?_, fun h2 => ?_, fun h3 => ?_⟩
  · exact congrArg Host.Outcome.next ((handle_taken _ h1 hq hf).trans (takeReduce_eq known l i p c hc))
  · exact congrArg Host.Outcome.next (handle_taken _ h2 hq hf)
  · exact congrArg Host.Outcome.next ((handle_taken _ h3 hq hf).trans (takeBroadcast_eq known l i j p hj))

end Sys2Proof.Machine
end

section
/-! O57: scene changes (R207, R244, R245, R251, R256, R259, R287, R296). -/
namespace Sys2Proof.Machine

theorem noMargin_iff (s : State) (j : Nat) : s.noMargin j = true ↔ (s.job j).scene.map (·.margin) = some 0 := by
  unfold State.noMargin
  cases (s.job j).scene <;> simp

/-! ### Reports up the tree (R244, R256) -/

section
variable {s : State} {j : Nat} (hj : s.jobRuns j = true)
include hj

theorem landed_reports {child step epoch : Nat} {t : Scene} (ht : (s.job j).scene = some t) (hc : child ∈ t.children)
    (hs : (s.job j).step ≤ step) (hr : ∀ r ∈ t.reports, r.1 = child → r.2.1 ≠ step) : exec (.landed child j step epoch) s =
    .next ((s.setJob j { s.job j with scene := some { t with reports := t.reports ++ [(child, step, epoch)] } }).sceneProgress j) := by
  have hnew : t.reports.any (fun r => r.1 == child && r.2.1 == step) = false := by
    simpa using fun a b c ha hb hc => hr (a, b, c) ha hb hc
  show execLanded child j step epoch s = _
  unfold execLanded
  rw [ht]
  exact congrArg Host.Outcome.next (if_neg (by simp [hj, hc, Nat.not_lt.mpr hs, hnew]))

variable {t : Scene} (ht : (s.job j).scene = some t) (hsec : s.isSecondary j = false) (hsent : t.sent ≠ some (s.job j).step)
  (hland : s.landedAll j = true) (htold : ∀ c ∈ t.children, ∃ r ∈ t.reports, r.1 = c ∧ r.2.1 = (s.job j).step)
  (hsame : ∀ r ∈ t.reports, r.2.1 = (s.job j).step → r.2.2 = s.nextEpoch j)
include ht hsec hsent hland htold hsame

/-- R244: with all landed and every child's report at hand, the chip reports to its parent or, at the root, sends SCENE. -/
theorem sceneProgress_reports : s.sceneProgress j =
    let u := s.setJob j { s.job j with scene := some { t with sent := some (s.job j).step } }
    if t.root = s.chipId then (u.sendScene j (s.job j).step (s.now + t.margin) (s.nextEpoch j)).updJob j (fun z => { z with
        due := some ((s.job j).step, s.now + t.margin, s.nextEpoch j) })
      else u.message (s.jobCompany j) t.parent [1, j, (s.job j).step, s.nextEpoch j] := by
  have hall : t.children.all (fun c => t.reports.any (fun r => r.1 == c && r.2.1 == (s.job j).step)) = true := by
    rw [List.all_eq_true]
    intro c hc
    obtain ⟨r, hr, h1, h2⟩ := htold c hc
    exact List.any_eq_true.mpr ⟨r, hr, by simp [h1, h2]⟩
  have heq : t.reports.all (fun r => r.2.1 != (s.job j).step || r.2.2 == s.nextEpoch j) = true := by
    rw [List.all_eq_true]
    intro r hr
    by_cases h : r.2.1 = (s.job j).step
    · simp [hsame r hr h]
    · simp [h]
  have hguard : (!s.jobRuns j || s.isSecondary j || t.sent == some (s.job j).step || !s.landedAll j ||
      !t.children.all (fun c => t.reports.any (fun r => r.1 == c && r.2.1 == (s.job j).step))) = false := by
    simp [hj, hsec, hland, hall, hsent]
  have hco : (s.setJob j { s.job j with scene := some { t with sent := some (s.job j).step } }).jobCompany j = s.jobCompany j := by
    unfold State.jobCompany
    rw [State.job_setJob_same]
  have hnow (k : Job) : (s.setJob j k).now = s.now := rfl
  have hstep (k : Job) (a b c : Nat) : (((s.setJob j k).sendScene j a b c).job j).step = k.step := by
    obtain ⟨ms, o, h⟩ := sendScene_spec (s.setJob j k) j a b c
    rw [h]
    exact congrArg Job.step (State.job_setJob_same s j k)
  unfold State.sceneProgress
  simp only [ht, hguard, heq, Bool.false_eq_true, if_false, if_true, State.updJob, State.setJob_chipId, beq_iff_eq, hco, hnow, hstep]

end

/-! ### SCENE and the scene change (R207, R244, R245) -/

section
variable {s v : State} {j : Nat} (hj : s.jobRuns j = true) (hjob : v.job j = s.job j) (hfatal : v.fatal = s.fatal) (hnow : v.now = s.now)
  (hsram : v.sram = s.sram)
include hj hjob hfatal

theorem awaiting_jobRuns (d : Option (Nat × Nat × Nat)) : (v.updJob j (fun z => { z with due := d })).jobRuns j = true := by
  rw [← hj]
  unfold State.jobRuns State.updJob
  rw [State.job_setJob_same, hjob, ← hfatal]
  rfl

include hnow

omit hfatal hj in
/-- R244: before its count a scene change with a margin waits. -/
theorem sceneTurn_awaits {step count epoch : Nat} (hc : s.now < count) (hm : ¬(s.job j).scene.map (·.margin) = some 0) :
    (v.updJob j (fun z => { z with due := some (step, count, epoch) })).sceneTurn j =
      v.updJob j (fun z => { z with due := some (step, count, epoch) }) := by
  refine sceneTurn_waits (step := step) (count := count) (epoch := epoch) ?_ ?_ ?_
  · unfold State.updJob
    rw [State.job_setJob_same]
  · rw [← hnow] at hc
    exact hc
  · rw [Bool.eq_false_iff, ne_eq, noMargin_iff]
    unfold State.updJob
    rw [State.job_setJob_same, hjob]
    exact hm

include hsram

/-- R207, R244: at its count, or without a margin, a scene change applies once its exponents are here. -/
theorem sceneTurn_applies {step count epoch : Nat} (ht : count ≤ s.now ∨ (s.job j).scene.map (·.margin) = some 0)
    (hq : ∀ e ∈ s.sram, State.exchangeWord e.1 = false) :
    let w := v.updJob j (fun z => { z with due := some (step, count, epoch) })
    w.sceneTurn j = if w.exponentsHere j then w.applyScene j step epoch else w := by
  intro w
  refine sceneTurn_due (count := count) ?_ (awaiting_jobRuns hj hjob hfatal _) ?_ ?_
  · show ((v.setJob j _).job j).due = _
    rw [State.job_setJob_same]
  · refine ht.imp (fun h => ?_) (fun h => ?_)
    · rw [← hnow] at h
      exact h
    · rw [noMargin_iff]
      show ((v.setJob j _).job j).scene.map _ = _
      rw [State.job_setJob_same, hjob]
      exact h
  · rw [← hsram] at hq
    exact hq

end

/-- A state in which job `j`, the fatal fault, the town count and the errors of on-chip memories are those of `s`. -/
structure SceneFrame (s v : State) (j : Nat) : Prop where
  job : v.job j = s.job j
  fatal : v.fatal = s.fatal
  now : v.now = s.now
  sram : v.sram = s.sram

theorem sendScene_frame (s : State) (j step count epoch : Nat) : SceneFrame s (s.sendScene j step count epoch) j := by
  obtain ⟨ms, o, h⟩ := sendScene_spec s j step count epoch
  rw [h]
  exact ⟨rfl, rfl, rfl, rfl⟩

theorem Counts.sceneFrame {s v : State} (h : Counts s v) (j : Nat) : SceneFrame s v j := by
  rw [h.state]
  exact ⟨rfl, rfl, rfl, rfl⟩

section
variable {s v : State} {j : Nat} (hv : SceneFrame s v j)
include hv

theorem SceneFrame.taint (c : Nat) : SceneFrame s (v.setTaint c) j := ⟨hv.job, hv.fatal, hv.now, hv.sram⟩

theorem SceneFrame.trans {w : State} (hw : SceneFrame v w j) : SceneFrame s w j :=
  ⟨hw.job.trans hv.job, hw.fatal.trans hv.fatal, hw.now.trans hv.now, hw.sram.trans hv.sram⟩

/-- R244: a late scene change is counted and taints, unless its margin is 0. -/
theorem lateScene_eq : v.lateScene j = if (s.job j).scene.map (·.margin) = some 0 then v
    else (v.countChip 0x4C none 1).setTaint (s.jobCompany j) := by
  have hco : v.jobCompany j = s.jobCompany j := congrArg (fun k => JobRec.company (Job.record k).toNat) hv.job
  unfold State.lateScene
  rw [hco]
  by_cases h : (s.job j).scene.map (·.margin) = some 0
  · rw [if_pos h, if_pos ((noMargin_iff v j).mpr (by rwa [hv.job]))]
  · rw [if_neg h, if_neg (mt (noMargin_iff v j).mp (by rwa [hv.job]))]

theorem lateScene_frame : SceneFrame s (if (s.job j).scene.map (·.margin) = some 0 then v
    else (v.countChip 0x4C none 1).setTaint (s.jobCompany j)) j := by
  split
  · exact hv
  · exact (hv.trans ((State.countChip_counts v 0x4C none 1).sceneFrame j)).taint _

end

theorem scene_arrives {s : State} {j count epoch : Nat} {late : Bool} (hj : s.jobRuns j = true) (hd : (s.job j).due = none)
    (hl : late = decide (count ≤ s.now)) : exec (.scene j (s.job j).step count epoch late) s =
      .next (State.sceneTurn (State.updJob (if late then (s.sendScene j (s.job j).step count epoch).lateScene j
        else s.sendScene j (s.job j).step count epoch) j (fun k => { k with due := some ((s.job j).step, count, epoch) })) j) := by
  subst hl
  exact congrArg Host.Outcome.next (if_neg (by simp [hj, hd]))

theorem passScene_landed {s : State} (j x : Nat) (h : (s.context x).state = .landed) : s.passScene j x =
    s.setContext x (State.openContext (s.context x) ((s.context x).step + 1)
      (if JobRec.reproducible (s.job j).record.toNat then s.fixedPlan x else (s.context x).announced.getD (s.fixedPlan x))) :=
  if_neg (by simp [h])

/-- Settles O57: reports climb by `sceneProgress_reports`, and a scene change waits or applies by its count and its margin. -/
theorem scenesChange : Obligations.ScenesChange := by
  unfold Obligations.ScenesChange
  intro s j hj k quiet
  refine ⟨fun child step epoch t ht hc hs hr => landed_reports hj ht hc hs hr, fun t ht hsec hsent hland htold hsame => ?_,
    fun count epoch hd => ?_, fun step count epoch hd ht hq => ?_, fun x => passScene_landed j x⟩
  · have h := sceneProgress_reports hj ht hsec hsent hland htold hsame
    exact ⟨fun hr => h.trans (if_neg hr), fun hr => h.trans (if_pos hr)⟩
  · have hf := sendScene_frame s j k.step count epoch
    intro bare u late w turned
    refine ⟨fun hc hb => ?_, fun hc hb hq => ?_, fun hc hq => ?_⟩
    · exact (scene_arrives hj hd (decide_eq_false (Nat.not_le.mpr hc)).symm).trans
        (congrArg _ (sceneTurn_awaits hf.job hf.now hc hb))
    · exact (scene_arrives hj hd (decide_eq_false (Nat.not_le.mpr hc)).symm).trans
        (congrArg _ (sceneTurn_applies hj hf.job hf.fatal hf.now hf.sram (Or.inr hb) hq))
    · have hl := lateScene_frame hf
      have ha := scene_arrives (epoch := epoch) hj hd (decide_eq_true hc).symm
      rw [if_pos rfl, lateScene_eq hf] at ha
      exact ha.trans (congrArg _ (sceneTurn_applies hj hl.job hl.fatal hl.now hl.sram (Or.inl hc) hq))
  · exact congrArg Host.Outcome.next (sceneTurn_due hd hj (ht.imp_right (noMargin_iff s j).mpr) hq)

end Sys2Proof.Machine
end

section
/-! O60: the updates of an owner (R259, R266 to R274, R402). -/
namespace Sys2Proof.Machine

/-- R268, R271, R402: an update ends with its image, or fails without one. -/
def State.concludeUpdate (t : State) (x : Nat) (withheld : Bool) : Option (List Byte) → State
  | some d => t.endUpdate x withheld d
  | none => t.updateFailed x

section
variable {s : State} {x : Nat}

theorem updateWithheld_iff : s.updateWithheld x = true ↔
    (JobRec.haltStep (s.job (s.contextJob x)).record.toNat = true ∧ (s.context x).narCount ≠ 0) ∨
    (JobRec.withhold (s.job (s.contextJob x)).record.toNat = true ∧ ∃ c ∈ (s.context x).checked, c.2 = 1) := by
  unfold State.updateWithheld
  simp only [Bool.or_eq_true, Bool.and_eq_true, bne_iff_ne, List.any_eq_true, beq_iff_eq]

section
variable (hdue : s.updateDue x = true)
include hdue

theorem update_error {o n : Nat} (he : s.sramErrors State.exchangeWord = (some (.exchangeSram o), n)) :
    exec (.update x) s = .next (s.fatalFault 1 o) :=
  congrArg Host.Outcome.next ((if_neg (by simp [hdue])).trans (throughExchange_error he _))

variable (hq : ∀ e ∈ s.sram, State.exchangeWord e.1 = false)
include hq

theorem update_withheld (hh : s.updateWithheld x = true) {t : State} {image : Option (List Byte)} (h : s.withholdUpdate x = (t, image)) :
    exec (.update x) s = .next (t.concludeUpdate x true image) := by
  refine congrArg Host.Outcome.next ((if_neg (by simp [hdue])).trans ((throughExchange_quiet hq _).trans ((if_pos hh).trans ?_)))
  rw [h]
  cases image <;> rfl

theorem update_runs (hh : s.updateWithheld x = false) {p : MicroProgram} {t : State} {image : Option (List Byte)}
    (hp : SMap.get none s.engine (CtxRec.optimizer (s.context x).record.toNat) = some p) (h : s.runUpdate x p = (t, image)) :
    exec (.update x) s = .next (t.concludeUpdate x false image) := by
  refine congrArg Host.Outcome.next ((if_neg (by simp [hdue])).trans ((throughExchange_quiet hq _).trans
    ((if_neg (by rw [hh]; decide)).trans ?_)))
  rw [hp]
  dsimp only
  rw [h]
  cases image <;> rfl

end

theorem Reads.job {s u : State} (h : Reads s u) (j : Nat) : u.job j = s.job j := by rw [h]; rfl

theorem readBank_reads_of {s u : State} {unit n : Nat} {d : Option (List Byte)} (h : s.readBank unit n = (u, d)) : Reads s u := by
  have hr := readBank_reads s unit n
  rwa [h] at hr

/-- R268 to R270: the arrays read whole, the optimiser run over them and the image stored from the new weights. -/
theorem runUpdate_eq {g m a b hist : List Byte} {u1 u2 u3 u4 u5 : State} (p : MicroProgram)
    (hg : s.readBank (CtxRec.work (s.context x).record.toNat) (4 * DirEntry.elements (s.bucketEntry x)) = (u1, some g))
    (hm : u1.readBank (CtxRec.master (s.context x).record.toNat) (4 * DirEntry.elements (s.bucketEntry x)) = (u2, some m))
    (ha : u2.readBank (CtxRec.moment0 (s.context x).record.toNat) (4 * DirEntry.elements (s.bucketEntry x)) = (u3, some a))
    (hb : u3.readBank (CtxRec.moment1 (s.context x).record.toNat) (4 * DirEntry.elements (s.bucketEntry x)) = (u4, some b))
    (hh : u4.readBank (CtxRec.history (s.context x).record.toNat)
      (if (s.imageShape x).finder then historyBytes (s.context x).record.toNat (s.imageShape x) else 0) = (u5, some hist)) :
    s.runUpdate x p =
      let r := (s.context x).record.toNat
      let out := runEngine (s.job (s.contextJob x)).record.toNat p (bankWords g) (bankWords m) (bankWords a) (bankWords b)
      let e := (((u5.putBank (CtxRec.master r) (out.flatMap (fun e => toBytes 4 e.1))).putBank (CtxRec.moment0 r)
        (out.flatMap (fun e => toBytes 4 e.2.1))).putBank (CtxRec.moment1 r) (out.flatMap (fun e => toBytes 4 e.2.2))).storeImage x hist
        (out.map (·.1)) true
      (e.1, some e.2) := by
  have hreads : Reads s u5 := ((((readBank_reads_of hg).trans (readBank_reads_of hm)).trans (readBank_reads_of ha)).trans
    (readBank_reads_of hb)).trans (readBank_reads_of hh)
  have hjob : u5.job (u5.contextJob x) = s.job (s.contextJob x) := by rw [hreads.contextJob, hreads.job]
  unfold State.runUpdate
  simp only [State.readArrays, hg, hm, ha, hb, hh, hjob]

end

/-- Settles O60: an update by `updateWithheld_iff`, and what it stores by `runUpdate_eq`. -/
theorem updatesRun : Obligations.UpdatesRun := by
  unfold Obligations.UpdatesRun
  intro s x hdue j rec_ k r held quiet failed
  refine ⟨fun o n he => update_error hdue he, fun hq hh t image h => ?_, fun hq hh p t image hp h => ?_,
    ?_⟩
  · refine (update_withheld hdue hq (updateWithheld_iff.mpr hh) h).trans ?_
    cases image <;> rfl
  · refine (update_runs hdue hq (Bool.eq_false_iff.mpr (mt updateWithheld_iff.mp hh)) hp h).trans ?_
    cases image <;> rfl
  · intro _ p t g m a b hist u1 u2 u3 u4 u5 n bytes out hg hm ha hb hh image h
    rw [runUpdate_eq p hg hm ha hb hh] at h
    obtain ⟨h1, h2⟩ := Prod.mk.inj h
    exact Prod.ext h1.symm (Option.some.inj h2).symm

end Sys2Proof.Machine
end

section
/-! O59: the check of a sampled element (R265, R266), the landing of broadcast units (R272) and the patrol scrub (R155, R157, R401, R402). -/
namespace Sys2Proof.Machine

/-! ### The check of a sampled element -/

namespace State

section
variable (s : State) (x e : Nat)

/-- R265: the records of an element that came from contributors. -/
def rawRecords : List Sample := ((s.context x).samples.filter (fun m => m.element == e)).filter (fun m => !m.hop && m.rank != ownRank)

/-- R265: the records of an element that came from hops. -/
def hopRecords : List Sample := ((s.context x).samples.filter (fun m => m.element == e)).filter (·.hop)

/-- R266: the sum of the contributors' values. -/
def contributedSum : Exact :=
  ((((s.context x).samples.filter (fun m => m.element == e)).filter (fun m => !m.hop)).map (fun m => posit 16 m.value.toNat)).foldl Exact.add Exact.zero

/-- R263, R266: the bound on the difference. -/
def hopBound : Exact := (s.hopRecords x e).foldl (fun b m => b.add (gap16 m.value.toNat)) Exact.zero

/-- R266: the set of records is complete. -/
def SampleWhole : Prop :=
  (s.rawRecords x e).length = PlanRec.contributors (s.planRec x) - b2n (PlanRec.contributes (s.planRec x)) ∧
  (s.hopRecords x e).length = (if PlanRec.role (s.planRec x) = 3 then PlanRec.adders (s.planRec x) else 0) ∧
  ((s.rawRecords x e).map (·.rank)).sum + (if PlanRec.contributes (s.planRec x) then PlanRec.rank (s.planRec x) else 0) =
    PlanRec.contributors (s.planRec x) * (PlanRec.contributors (s.planRec x) - 1) / 2

/-- R266: a value is NaR or saturated. -/
def SampleEdge (q : Exact) : Prop := q.isNar = true ∨ (s.contributedSum x e).isNar = true ∨
  ∃ m ∈ s.hopRecords x e, m.value = 0x8000 ∨ m.value = 0x7FFF ∨ m.value = 0x8001

end
end State

section
variable (s : State) (x e : Nat) (q : Exact)

/-- R266: the verdict of an element and the difference of its sums. -/
theorem checkSample_eq : s.checkSample x e q =
    if (s.rawRecords x e).length != PlanRec.contributors (s.planRec x) - b2n (PlanRec.contributes (s.planRec x)) ||
      (s.hopRecords x e).length != (if PlanRec.role (s.planRec x) == 3 then PlanRec.adders (s.planRec x) else 0) ||
      ((s.rawRecords x e).map (·.rank)).sum + (if PlanRec.contributes (s.planRec x) then PlanRec.rank (s.planRec x) else 0) !=
        PlanRec.contributors (s.planRec x) * (PlanRec.contributors (s.planRec x) - 1) / 2
      then (3, q.add (s.contributedSum x e).neg)
    else if q.isNar || (s.contributedSum x e).isNar ||
      (s.hopRecords x e).any (fun m => m.value == 0x8000 || m.value == 0x7FFF || m.value == 0x8001) then (2, q.add (s.contributedSum x e).neg)
    else if (q.add (s.contributedSum x e).neg).isZero || Exact.lt (q.add (s.contributedSum x e).neg).abs (s.hopBound x e)
      then (0, q.add (s.contributedSum x e).neg)
    else (1, q.add (s.contributedSum x e).neg) := rfl

theorem sampleIncomplete_iff : ((s.rawRecords x e).length != PlanRec.contributors (s.planRec x) - b2n (PlanRec.contributes (s.planRec x)) ||
      (s.hopRecords x e).length != (if PlanRec.role (s.planRec x) == 3 then PlanRec.adders (s.planRec x) else 0) ||
      ((s.rawRecords x e).map (·.rank)).sum + (if PlanRec.contributes (s.planRec x) then PlanRec.rank (s.planRec x) else 0) !=
        PlanRec.contributors (s.planRec x) * (PlanRec.contributors (s.planRec x) - 1) / 2) = true ↔ ¬s.SampleWhole x e := by
  unfold State.SampleWhole
  simp only [Bool.or_eq_true, bne_iff_ne, beq_iff_eq, ne_eq, not_and_or, or_assoc]

theorem sampleEdge_iff : (q.isNar || (s.contributedSum x e).isNar ||
      (s.hopRecords x e).any (fun m => m.value == 0x8000 || m.value == 0x7FFF || m.value == 0x8001)) = true ↔ s.SampleEdge x e q := by
  unfold State.SampleEdge
  simp only [Bool.or_eq_true, List.any_eq_true, beq_iff_eq, or_assoc]

theorem checkSample_incomplete (h : ¬s.SampleWhole x e) : s.checkSample x e q = (3, q.add (s.contributedSum x e).neg) := by
  rw [checkSample_eq, if_pos ((sampleIncomplete_iff s x e).mpr h)]

variable (hw : s.SampleWhole x e)
include hw

theorem checkSample_whole : s.checkSample x e q =
    if q.isNar || (s.contributedSum x e).isNar ||
      (s.hopRecords x e).any (fun m => m.value == 0x8000 || m.value == 0x7FFF || m.value == 0x8001) then (2, q.add (s.contributedSum x e).neg)
    else if (q.add (s.contributedSum x e).neg).isZero || Exact.lt (q.add (s.contributedSum x e).neg).abs (s.hopBound x e)
      then (0, q.add (s.contributedSum x e).neg)
    else (1, q.add (s.contributedSum x e).neg) := by
  rw [checkSample_eq, if_neg (mt (sampleIncomplete_iff s x e).mp (not_not_intro hw))]

theorem checkSample_skips (h : s.SampleEdge x e q) : s.checkSample x e q = (2, q.add (s.contributedSum x e).neg) := by
  rw [checkSample_whole s x e q hw, if_pos ((sampleEdge_iff s x e q).mpr h)]

variable (hn : ¬s.SampleEdge x e q)
include hn

theorem checkSample_passes (h : (q.add (s.contributedSum x e).neg).isZero = true ∨
    Exact.lt (q.add (s.contributedSum x e).neg).abs (s.hopBound x e) = true) : s.checkSample x e q = (0, q.add (s.contributedSum x e).neg) := by
  rw [checkSample_whole s x e q hw, if_neg (mt (sampleEdge_iff s x e q).mp hn), if_pos (by rwa [Bool.or_eq_true])]

theorem checkSample_fails (hz : (q.add (s.contributedSum x e).neg).isZero = false)
    (hb : Exact.lt (q.add (s.contributedSum x e).neg).abs (s.hopBound x e) = false) :
    s.checkSample x e q = (1, q.add (s.contributedSum x e).neg) := by
  rw [checkSample_whole s x e q hw, if_neg (mt (sampleEdge_iff s x e q).mp hn), if_neg (by rw [hz, hb]; decide)]

end

/-- R266: a context with a verdict of an element noted. -/
def State.verdict (s : State) (x e v : Nat) : State :=
  (s.setContext x { s.context x with checked := (s.context x).checked ++ [(e, v)] }).noteSample x e

theorem verdict_contextJob (s : State) (x e v : Nat) : (s.verdict x e v).contextJob x = s.contextJob x := by
  have hc : (s.verdict x e v).context x = { s.context x with checked := (s.context x).checked ++ [(e, v)] } := by
    unfold State.verdict State.context
    rw [noteSample_contexts]
    exact State.context_setContext_same _ _ _
  unfold State.contextJob
  rw [hc]

theorem verdict_jobCompany (s : State) (x e v j : Nat) : (s.verdict x e v).jobCompany j = s.jobCompany j := by
  obtain ⟨m, u, n, h⟩ := noteSample_mem (s.setContext x { s.context x with checked := (s.context x).checked ++ [(e, v)] }) x e
  unfold State.verdict
  rw [h]
  rfl

section
variable {s : State} {x e : Nat} {q : Exact} (hq : (s.context x).sums.find? (fun a => a.1 == e) = some (e, q))
  (hl : s.contextLive x = true) (hr : s.jobRuns (s.contextJob x) = true) (hroot : PlanRec.isRoot (s.planRec x) = true)
  (hnew : ∀ c ∈ (s.context x).checked, c.1 ≠ e) (harr : s.samplesArrived x e = true) (hquiet : ∀ e ∈ s.sram, State.exchangeWord e.1 = false)
include hq hl hr hroot hnew harr hquiet

theorem shadowCheck_eq : exec (.shadowCheck x e) s = .next (
    let t := s.verdict x e (s.checkSample x e q).1
    if (s.checkSample x e q).1 == 1 then t.postCompany (s.jobCompany (s.contextJob x)) 8 (t.divergenceBody x e (s.checkSample x e q).2) else t) := by
  dsimp only
  rw [← verdict_contextJob s x e (s.checkSample x e q).1, ← verdict_jobCompany s x e (s.checkSample x e q).1]
  have hc : (s.context x).checked.any (fun c => c.1 == e) = false := by
    simpa using fun a b h he => hnew (a, b) h he
  show execShadowCheck x e s = _
  unfold execShadowCheck
  dsimp only
  rw [hq]
  refine congrArg Host.Outcome.next ((if_neg ?_).trans (throughExchange_quiet hquiet _))
  simp [hl, hr, hroot, hc, harr]

theorem shadowCheck_notes {v : Nat} {d : Exact} (h : s.checkSample x e q = (v, d)) (hv : v ≠ 1) :
    exec (.shadowCheck x e) s = .next (s.verdict x e v) := by
  rw [shadowCheck_eq hq hl hr hroot hnew harr hquiet, h]
  exact congrArg Host.Outcome.next (if_neg (by simpa using hv))

theorem shadowCheck_posts {d : Exact} (h : s.checkSample x e q = (1, d)) : exec (.shadowCheck x e) s =
    .next ((s.verdict x e 1).postCompany (s.jobCompany (s.contextJob x)) 8 ((s.verdict x e 1).divergenceBody x e d)) := by
  rw [shadowCheck_eq hq hl hr hroot hnew harr hquiet, h]
  rfl

end

/-! ### Landing units (R272) -/

section
variable {s : State} {x : Nat}

theorem broadcastLanding_lands (h : s.canLand x = true) (hf : s.contextFree x (s.context x).landOrder = true)
    (hq : ∀ e ∈ s.sram, State.exchangeWord e.1 = false) : exec (.broadcastLanding x) s = .next (s.landBucket x) :=
  congrArg Host.Outcome.next ((if_pos (by rw [h, hf]; rfl)).trans (throughExchange_quiet hq _))

/-- R272: a value unit landed, the last of a landing aside. -/
def State.landedUnit (s : State) (x : Nat) (f : List Byte) : State :=
  let k := s.context x
  let core := CtxRec.core k.record.toNat
  let unit := 64 * (CtxRec.landingBase k.record.toNat + k.landed)
  let d := padTo 64 0 (((f.drop (64 * (k.landed % 4))).take (min 64 ((s.imageShape x).valueBytes - 64 * k.landed))).take 64)
  State.setContext { s with mem := Memory.writeBytes s.mem ((Space.slice core).base + unit) d
                            upsets := SMap.set 0 s.upsets ((Space.slice core).base + unit) 0 } x { k with landed := k.landed + 1 }

theorem landBucket_eq {f : List Byte} (h : s.imageFlit x ((s.context x).landed / 4) = some f) :
    s.landBucket x = (s.landedUnit x f).finishLanding x := by
  unfold State.landBucket
  dsimp only
  rw [h]
  rfl

theorem landedUnit_imageShape (f : List Byte) : (s.landedUnit x f).imageShape x = s.imageShape x := by
  have hk : (s.landedUnit x f).context x = { s.context x with landed := (s.context x).landed + 1 } := State.context_setContext_same _ _ _
  unfold State.imageShape State.contextJob State.bucketEntry
  rw [hk]
  rfl

/-- R272: a landing with units left goes on. -/
theorem landedUnit_waits {f : List Byte} (h : (s.context x).landed + 1 < (s.imageShape x).valueUnits) :
    (s.landedUnit x f).finishLanding x = s.landedUnit x f := by
  have hk : (s.landedUnit x f).context x = { s.context x with landed := (s.context x).landed + 1 } := State.context_setContext_same _ _ _
  refine if_pos ?_
  rw [landedUnit_imageShape, hk]
  simp [h]

end

/-! ### The patrol scrub (R155, R157, R401) -/

section
variable (s : State) (sp : Space) (off : Nat) (count : State → State)

theorem scrubUnit_clean (h : s.upset sp off = 0) : s.scrubUnit sp off count = s := if_pos (by rw [h]; rfl)

theorem scrubUnit_corrects (h : s.upset sp off = 1) : s.scrubUnit sp off count = (count s).writeUnit sp off (s.bytes sp off 64) := by
  unfold State.scrubUnit State.readUnit
  simp only [h]
  rfl

theorem scrubUnit_counts (h : s.upset sp off = 2) : s.scrubUnit sp off count = s.countChip 0x40 none 1 := by
  unfold State.scrubUnit State.readUnit
  simp only [h]
  rfl

end

theorem patrolScrub_awake {s : State} (h : s.awake = true) (c : Option CoreId) : exec (.patrolScrub c) s = .next (match c with
    | none => s.scrubBank
    | some k => if s.coreExists k && s.sliceIdle k then s.scrubSlice k else s) := by
  refine congrArg Host.Outcome.next ((if_neg (by rw [h]; decide)).trans ?_)
  cases c <;> rfl

/-- Settles O59: the verdicts of `checkSample_eq`, a landing unit by whether units are left, and a scrub by the errors of its unit. -/
theorem samplesAreChecked : Obligations.SamplesAreChecked := by
  unfold Obligations.SamplesAreChecked
  refine ⟨fun s x e q => ?_, fun s x => ?_⟩
  · intro k p ms raw hops sum bound whole edge diff checked quiet hq hl hr hroot hnew harr hquiet
    have notes {v : Nat} {d : Exact} := shadowCheck_notes hq hl hr hroot hnew harr hquiet (v := v) (d := d)
    exact ⟨fun hw => notes (checkSample_incomplete s x e q hw) (by decide),
      fun hw he => notes (checkSample_skips s x e q hw he) (by decide),
      fun hw he h => notes (checkSample_passes s x e q hw he h) (by decide),
      fun hw he hz hb => shadowCheck_posts hq hl hr hroot hnew harr hquiet (checkSample_fails s x e q hw he hz hb)⟩
  · intro k i core n unit
    refine ⟨fun f hc hf hq hfl => ?_, fun ha => ⟨patrolScrub_awake ha none, _, rfl, rfl⟩, fun c ha hc hi => ?_,
      fun sp off count => ⟨scrubUnit_clean s sp off count, scrubUnit_corrects s sp off count, scrubUnit_counts s sp off count⟩⟩
    · have hland := (broadcastLanding_lands hc hf hq).trans (congrArg Host.Outcome.next (landBucket_eq hfl))
      exact ⟨fun h => hland.trans (congrArg _ (landedUnit_waits h)), fun _ => hland⟩
    · refine (patrolScrub_awake ha (some c)).trans (congrArg Host.Outcome.next ((if_pos ?_).trans rfl))
      rw [hc, hi]
      rfl

end Sys2Proof.Machine
end
